-- ==== Sys2Proof/Word.lean ====
section
/-! DEFINITION. The word types of the Valot and their plainest arithmetic. -/

namespace Sys2Proof

/-- A byte of memory. -/
abbrev Byte := BitVec 8
/-- A scalar register, a control register, an address: 64 bits (02 R41). -/
abbrev Word := BitVec 64
/-- A vector register: 64 lanes of 32 bits (02 R43). -/
abbrev VWord := BitVec 2048

/-- The field of `len` bits that starts at bit `lo` of the number `w` (00 R6). -/
def bits (w lo len : Nat) : Nat := w / 2 ^ lo % 2 ^ len

/-- Bit `i` of the number `w`. -/
def bit (w i : Nat) : Bool := w / 2 ^ i % 2 == 1

end Sys2Proof
end

