-- ==== Sys2Proof/Config.lean ====
section
/-! DEFINITION. Free values: what the spec leaves open, as constants with no body, so that nothing can be proved of
them; those of one kind are told apart by their arguments or by a counter of the state (logs 9, 10). -/

namespace Sys2Proof.Config

/-- The `n`-th free word: a value that no rule states. -/
opaque freeWord : Nat → Word

/-- The CYCLES counter of the matrix engine after the `n`-th command (06 R152: no promise is made for its value). -/
opaque meCycles : Nat → Word

/-- SHA-384 of some bytes (11 R328-R332): the spec names the function and does not define it. -/
opaque sha384 : List Byte → List Byte

/-- A signature over some bytes, given second, verifies against the Quanath RSASSA-PSS key in boot ROM (11 R329). -/
opaque rsaVerifies : List Byte → List Byte → Bool

/-- A signature over some bytes, given second, verifies against the Quanath SLH-DSA key in boot ROM (11 R329). -/
opaque slhVerifies : List Byte → List Byte → Bool

/-- The signatures of the package identity over some bytes (11 R330, R331). -/
opaque rsaSign : List Byte → List Byte
/-- The SLH-DSA signature of the package identity. -/
opaque slhSign : List Byte → List Byte

/-- The public keys of the package identity (11 R330): RSA modulus, SLH-DSA key. -/
opaque rsaModulus : List Byte
/-- The SLH-DSA public key. -/
opaque slhKey : List Byte

/-- The bytes of a harvest record with some masks (11 R332); the spec gives it no layout. -/
opaque harvestBytes : List Word → List Byte

end Sys2Proof.Config
end

