-- ==== Sys2Proof/Machine/Flags.lean ====
section
/-! DEFINITION. The sticky flags of `FPFLAGS` (04 R82) as a set that results carry and engines merge (04 R83). -/

namespace Sys2Proof.Machine

/-- The seven flags of `FPFLAGS`, bit for bit (04 R82). -/
abbrev Flags := BitVec 7

/-- No flag. -/
def Flags.none : Flags := 0
/-- NV: a NaN created, or a NaN converted to a value that is not NaN. -/
def Flags.nv : Flags := 1
/-- OF: finite overflow. -/
def Flags.ov : Flags := 2
/-- UF: underflow. -/
def Flags.uf : Flags := 4
/-- NX: inexact. -/
def Flags.nx : Flags := 8
/-- SATF: replaced by a range limit. -/
def Flags.satf : Flags := 16
/-- BURL_OVF: burl candidates exceeded a tile's free capacity. -/
def Flags.burlOvf : Flags := 32
/-- LAYOUT_STALE: data reinterpreted under a bank's current layout. -/
def Flags.layoutStale : Flags := 64

/-- A flag under a condition. -/
def Flags.whenSet (c : Bool) (f : Flags) : Flags := if c then f else 0

/-- The flags hold NV: the condition of FIRSTNAN for an element result (04 R88). -/
def Flags.hasNv (f : Flags) : Bool := f.getLsbD 0

/-- `FPFLAGS` after the flags of a command are merged (04 R83); bits 63 to 7 read zero. -/
def mergeFlags (r : Word) (f : Flags) : Word := (r ||| f.setWidth 64) &&& 0x7F

end Sys2Proof.Machine
end

