-- ==== Sys2Proof/Syntax.lean ====
section
/-! DEFINITION. The instruction set as syntax: coded fields (02 R49), operand formats (02 R47), and one
constructor of `Instr` for each row of spec/opcode_table.json. Rows 0 to 207 are instruction words; the rows
after them are whole steps of the package that no word encodes (spec/95). -/

namespace Sys2Proof

/-- The lane classes of a line's header (02 R31). -/
inductive LaneClass | empty | scal | vec | mat | copy | cont | sys
  deriving DecidableEq, Repr

/-- The element types, ty4 and dty4 codes 0 to 15 (02 R49). -/
inductive Ty
  | f32 | bf16 | f16 | e5m2 | e4m3 | e3m2 | e2m3 | e2m1 | i32 | i16 | i8 | i4 | n32 | n16 | n8 | hb4
  deriving DecidableEq, Repr

/-- Rounding modes rm3 0 to 5 (02 R49). -/
inductive Rm | rne | rtz | rdn | rup | sr | dyn
  deriving DecidableEq, Repr

/-- Scopes scope3 0 to 4 (02 R49, 07 R173). -/
inductive Scope | core | clearing | die | package | fabric
  deriving DecidableEq, Repr

/-- Branch conditions cond3 0 to 7 (02 R49). -/
inductive Cond | eq | ne | lt | ge | ltn | gen | any | none
  deriving DecidableEq, Repr

/-- Nullification nul2 0 to 3 (02 R49, 05 R90). -/
inductive Nul | never | notTaken | taken | always
  deriving DecidableEq, Repr

/-- Memory paths, codes 0 to 4 of FENCE (02 R49, 07 R172). -/
inductive Path | s | v | c | m | t
  deriving DecidableEq, Repr

/-- Engine sequencers of SETB, eng2 0 to 2 (02 R48). -/
inductive Eng | ve | me | cp
  deriving DecidableEq, Repr

/-- The four control registers whose writes wait for engines (04 R83). -/
inductive FpReg | seed | rngcnt | fpctl | fpflags
  deriving DecidableEq, Repr

/-- What patrol scrubbing finds in a line (12 R354, R357). -/
inductive EccFinding | clean | corrected | uncorrectable
  deriving DecidableEq, Repr

/-- What board management and the boot ROM bring at power-on: package number and torus extents (01 R25), whether
the PUF seed could be rebuilt and the harvest record verified, and that record's masks (11 R327, R330, R332). -/
structure BoardInfo where
  pkg : BitVec 12
  extX : Nat
  extY : Nat
  extZ : Nat
  pufOk : Bool
  harvestOk : Bool
  harvest : List Word
  deriving DecidableEq, Repr

/-- Why a fetched word is not an instruction, row by row of the table of 02 R55. -/
inductive BadWord
  /-- a line whose header breaks R34 -/
  | badLine
  /-- a reserved major of the lane's class -/
  | reservedMajor (cls : LaneClass) (major : Nat)
  /-- a reserved fn, fn4, fn5 or minor code -/
  | reservedMinor (cls : LaneClass) (major minor : Nat)
  /-- bits that the format leaves zero are not -/
  | mustBeZero (cls : LaneClass) (major : Nat)
  /-- a bad scope3, rm3, path or eng2 code -/
  | badCode (cls : LaneClass) (major : Nat)
  /-- the fields break a limit of the form: a register number beyond its file, a field id, operation or transform code that is
  not listed, a type that the form does not accept, or a value in a field that it does not use -/
  | badOperand (cls : LaneClass) (major : Nat)
  /-- a header or CONT lane reached as an instruction (R35, R93) -/
  | notALane
  deriving DecidableEq, Repr

/-- A scalar register number (02 R41). -/
abbrev SReg := Fin 32
/-- A 6-bit VE register code: 0-55 name v0-v55, 56-63 name g0-g7 (02 R46). -/
abbrev VCode := Fin 64

/-- SA: d, a, b. -/
structure Sa where
  d : SReg
  a : SReg
  b : SReg
  deriving DecidableEq, Repr

/-- SI: d, a and a 16-bit immediate. -/
structure Si where
  d : SReg
  a : SReg
  imm : BitVec 16
  deriving DecidableEq, Repr

/-- SL: d and the CONT word. -/
structure Sl where
  d : SReg
  imm : BitVec 32
  deriving DecidableEq, Repr

/-- SF: position and length minus one. -/
structure Sf where
  d : SReg
  a : SReg
  pos : Fin 64
  len6 : Fin 64
  deriving DecidableEq, Repr

/-- SF2: two registers and sh6. -/
structure Sf2 where
  d : SReg
  a : SReg
  b : SReg
  sh : Fin 64
  deriving DecidableEq, Repr

/-- SA and CONT (FSH, SPAWNX). -/
structure Sac where
  d : SReg
  a : SReg
  b : SReg
  c : SReg
  e : SReg
  fl6 : Fin 64
  deriving DecidableEq, Repr

/-- SB: the second operand field holds a register (BC) or a signed immediate (BCI). -/
structure Sb where
  a : SReg
  b : BitVec 5
  cond : Cond
  nul : Nul
  disp : BitVec 11
  deriving DecidableEq, Repr

/-- SJ. -/
structure Sj where
  link : SReg
  disp : BitVec 21
  deriving DecidableEq, Repr

/-- SM: `off` is in units of the access size; `slot` counts only with `sen`. -/
structure Sm where
  t : SReg
  a : SReg
  off : BitVec 9
  sen : Bool
  slot : Fin 8
  scope : Scope
  deriving DecidableEq, Repr

/-- SW (WAITW). -/
structure Sw where
  mask : BitVec 8
  deriving DecidableEq, Repr

/-- SN (FENCE). -/
structure Sn where
  pathA : Path
  pathB : Path
  scope : Scope
  deriving DecidableEq, Repr

/-- SE (SETB). -/
structure Se where
  eng : Eng
  idx : Fin 8
  a : SReg
  deriving DecidableEq, Repr

/-- ACTSET: a, b and the cause in fn[7:0] (12 R365). -/
structure Act where
  a : SReg
  b : SReg
  cause : BitVec 8
  deriving DecidableEq, Repr

/-- VA. -/
structure Va where
  d : VCode
  a : VCode
  b : VCode
  p : Fin 16
  ty : Ty
  deriving DecidableEq, Repr

/-- VA of VLDG and VSTG, whose ty4 holds the scope (08 R224). -/
structure Vg where
  d : VCode
  a : VCode
  b : VCode
  p : Fin 16
  scope : Scope
  deriving DecidableEq, Repr

/-- VA of PRED, whose fields name predicates (02 R53). -/
structure Pr where
  d : Fin 16
  a : Fin 16
  b : Fin 16
  deriving DecidableEq, Repr

/-- VA of VLOOP: LIVE, bK and S (05 R133). -/
structure Vl where
  live : Bool
  k : Fin 8
  s : Fin 64
  deriving DecidableEq, Repr

/-- VX. -/
structure Vx where
  d : VCode
  a : VCode
  b : VCode
  p : Fin 16
  ty : Ty
  c : VCode
  rm : Rm
  fzi : Bool
  fzo : Bool
  sat : Bool
  dty : Ty
  aux : BitVec 16
  deriving DecidableEq, Repr

/-- MM. -/
structure Mm where
  acc : Fin 4
  fl : BitVec 8
  s : SReg
  fid : Fin 256
  deriving DecidableEq, Repr

/-- CX. -/
structure Cx where
  xf : BitVec 8
  sa : SReg
  sb : SReg
  sc : SReg
  rel : Bool
  acq : Bool
  ntf : Bool
  sd : SReg
  se : SReg
  za : Fin 16
  zb : Fin 16
  tc : Fin 4
  fol : Bool
  chk : Bool
  deriving DecidableEq, Repr

/-- One constructor for each row of spec/opcode_table.json, in the table's order. -/
inductive Instr
  /-- R94. -/
  | add (o : Sa)
  /-- R94. -/
  | sub (o : Sa)
  /-- R94. -/
  | mul (o : Sa)
  /-- R94. -/
  | mulh (o : Sa)
  /-- R94. -/
  | mulhn (o : Sa)
  /-- R94. -/
  | div (o : Sa)
  /-- R94. -/
  | divn (o : Sa)
  /-- R94. -/
  | rem (o : Sa)
  /-- R94. -/
  | remn (o : Sa)
  /-- R94. -/
  | and (o : Sa)
  /-- R94. -/
  | or (o : Sa)
  /-- R94. -/
  | xor (o : Sa)
  /-- R94. -/
  | andn (o : Sa)
  /-- R94. -/
  | shl (o : Sa)
  /-- R94. -/
  | shr (o : Sa)
  /-- R94. -/
  | sar (o : Sa)
  /-- R94. -/
  | min (o : Sa)
  /-- R94. -/
  | max (o : Sa)
  /-- R94. -/
  | minn (o : Sa)
  /-- R94. -/
  | maxn (o : Sa)
  /-- R94. -/
  | slt (o : Sa)
  /-- R94. -/
  | sltn (o : Sa)
  /-- R94. -/
  | seq (o : Sa)
  /-- R94. -/
  | sne (o : Sa)
  /-- R95. -/
  | addi (o : Si)
  /-- R95. -/
  | andi (o : Si)
  /-- R95. -/
  | ori (o : Si)
  /-- R95. -/
  | xori (o : Si)
  /-- R95. -/
  | slti (o : Si)
  /-- R95. -/
  | sltni (o : Si)
  /-- R95. -/
  | ldi (o : Si)
  /-- R96. -/
  | ldix (o : Sl)
  /-- R96. -/
  | ldixHi (o : Sl)
  /-- R98. -/
  | shli (o : Sf)
  /-- R98. -/
  | shri (o : Sf)
  /-- R98. -/
  | sari (o : Sf)
  /-- R98. -/
  | roli (o : Sf)
  /-- R99. -/
  | ext (o : Sf)
  /-- R99. -/
  | extn (o : Sf)
  /-- R99. -/
  | ins (o : Sf)
  /-- R99. -/
  | insz (o : Sf)
  /-- R100. -/
  | insm (o : Sa)
  /-- R100. -/
  | clz (o : Sa)
  /-- R100. -/
  | ctz (o : Sa)
  /-- R100. -/
  | popc (o : Sa)
  /-- R100. -/
  | brev (o : Sa)
  /-- R100. -/
  | ffcs (o : Sa)
  /-- R100. -/
  | bswap (o : Sa)
  /-- R101. -/
  | fshi (o : Sf2)
  /-- R101. -/
  | fsh (o : Sac)
  /-- R102. -/
  | plset (o : Sf2)
  /-- R103. -/
  | bc (o : Sb)
  /-- R103. -/
  | bci (o : Sb)
  /-- R104. -/
  | j (o : Sj)
  /-- R104. -/
  | jr (o : Sa)
  /-- R219. -/
  | ldb (o : Sm)
  /-- R219. -/
  | ldbn (o : Sm)
  /-- R219. -/
  | ldh (o : Sm)
  /-- R219. -/
  | ldhn (o : Sm)
  /-- R219. -/
  | ldw (o : Sm)
  /-- R219. -/
  | ldwn (o : Sm)
  /-- R219. -/
  | ldd (o : Sm)
  /-- R219. -/
  | lda (o : Sm)
  /-- R219. -/
  | stb (o : Sm)
  /-- R219. -/
  | sth (o : Sm)
  /-- R219. -/
  | stw (o : Sm)
  /-- R219. -/
  | std (o : Sm)
  /-- R219. -/
  | stl (o : Sm)
  /-- R221. -/
  | waitw (o : Sw)
  /-- R222. -/
  | fence (o : Sn)
  /-- R228. -/
  | tlook (o : Sa)
  /-- R228. -/
  | tset (o : Sa)
  /-- R228. -/
  | tclr (o : Sa)
  /-- R107. -/
  | getres (o : Sa)
  /-- R231. -/
  | evwait (o : Sa)
  /-- R231. -/
  | evpop (o : Sa)
  /-- R231. -/
  | evpeek (o : Sa)
  /-- R108. -/
  | setb (o : Se)
  /-- R254. -/
  | barinit (o : Sa)
  /-- R254. -/
  | barexp (o : Sa)
  /-- R254. -/
  | bararr (o : Sa)
  /-- R254. -/
  | barwait (o : Sa)
  /-- R254. -/
  | bartest (o : Sa)
  /-- R275. -/
  | spawn (o : Sa)
  /-- R277. -/
  | joinwait (o : Sa)
  /-- R278. -/
  | yield (o : Sa)
  /-- R279. -/
  | done (o : Sa)
  /-- R280. -/
  | tbound (o : Sa)
  /-- R281. -/
  | hintnext (o : Sa)
  /-- R282. -/
  | waitpred (o : Sa)
  /-- R283. -/
  | bufpass (o : Sa)
  /-- R283. -/
  | buftake (o : Sa)
  /-- R283. -/
  | buffree (o : Sa)
  /-- R276. -/
  | spawnx (o : Sac)
  /-- R297. -/
  | sqappend (o : Sa)
  /-- R298. -/
  | sqconfirm (o : Sa)
  /-- R303. -/
  | sqstate (o : Sa)
  /-- R304. -/
  | wset (o : Sa)
  /-- R304. -/
  | wclr (o : Sa)
  /-- R304. -/
  | wget (o : Sa)
  /-- R245. -/
  | zwait (o : Sa)
  /-- R245. -/
  | zdrop (o : Sa)
  /-- R245. -/
  | ztest (o : Sa)
  /-- R106. -/
  | rdcyc (o : Sa)
  /-- R106. -/
  | rdid (o : Sa)
  /-- R106. -/
  | rdfeat (o : Sa)
  /-- R362. -/
  | mfcr (o : Si)
  /-- R362. -/
  | mtcr (o : Si)
  /-- R363. -/
  | trapi (o : Si)
  /-- R363. -/
  | brk (o : Si)
  /-- R364. -/
  | tlbinvCtx (o : Sa)
  /-- R364. -/
  | tlbinvPage (o : Sa)
  /-- R364. -/
  | tlbinvAll (o : Sa)
  /-- R365. -/
  | actset (o : Act)
  /-- R350. -/
  | resume (o : Sa)
  /-- R366. -/
  | halt (o : Sa)
  /-- R367. -/
  | wdogPet (o : Sa)
  /-- R367. -/
  | wdogExpire (o : Sa)
  /-- R367. -/
  | wdogCorerst (o : Sa)
  /-- R367. -/
  | wdogDierst (o : Sa)
  /-- R368. -/
  | featset (o : Sa)
  /-- R349. -/
  | parkpop (o : Sa)
  /-- R112. -/
  | vadd (o : Va)
  /-- R112. -/
  | vsub (o : Va)
  /-- R112. -/
  | vmul (o : Va)
  /-- R112. -/
  | vmin (o : Va)
  /-- R112. -/
  | vmax (o : Va)
  /-- R112. -/
  | vabs (o : Va)
  /-- R112. -/
  | vneg (o : Va)
  /-- R112. -/
  | vmov (o : Va)
  /-- R113. -/
  | vfma (o : Vx)
  /-- R113. -/
  | vfms (o : Vx)
  /-- R114. -/
  | vcmp (o : Vx)
  /-- R115. -/
  | vsel (o : Va)
  /-- R119. -/
  | vexp2 (o : Va)
  /-- R122. -/
  | vlog2 (o : Va)
  /-- R120. -/
  | vrcp (o : Va)
  /-- R121. -/
  | vrsq (o : Va)
  /-- R123. -/
  | vsqrt (o : Va)
  /-- R116. -/
  | vand (o : Va)
  /-- R116. -/
  | vor (o : Va)
  /-- R116. -/
  | vxor (o : Va)
  /-- R116. -/
  | vshl (o : Va)
  /-- R116. -/
  | vshr (o : Va)
  /-- R116. -/
  | vsar (o : Va)
  /-- R116. -/
  | vpopc (o : Va)
  /-- R117. -/
  | vimad (o : Vx)
  /-- R124. -/
  | vcvt (o : Vx)
  /-- R125. -/
  | vquant (o : Vx)
  /-- R127. -/
  | vdeq (o : Vx)
  /-- R128. -/
  | vamax (o : Va)
  /-- R129. -/
  | vpack (o : Va)
  /-- R129. -/
  | vunpk (o : Va)
  /-- R129. -/
  | vshuf (o : Va)
  /-- R129. -/
  | vrot (o : Va)
  /-- R129. -/
  | vbcast (o : Va)
  /-- R129. -/
  | vins (o : Va)
  /-- R130. -/
  | vredAdd (o : Va)
  /-- R130. -/
  | vredMin (o : Va)
  /-- R130. -/
  | vredMax (o : Va)
  /-- R130. -/
  | vredAmax (o : Va)
  /-- R130. -/
  | vredAnd (o : Va)
  /-- R130. -/
  | vredOr (o : Va)
  /-- R130. -/
  | vredXor (o : Va)
  /-- R224. -/
  | vld (o : Va)
  /-- R224. -/
  | vst (o : Va)
  /-- R224. -/
  | vgath (o : Va)
  /-- R224. -/
  | vscat (o : Va)
  /-- R224. -/
  | vldg (o : Vg)
  /-- R224. -/
  | vstg (o : Vg)
  /-- R167. -/
  | accrd (o : Vx)
  /-- R169. -/
  | accwr (o : Vx)
  /-- R168. -/
  | commit (o : Va)
  /-- R132. -/
  | gcfg (o : Vx)
  /-- R133. -/
  | vloop (o : Vl)
  /-- R133. -/
  | vlend (o : Va)
  /-- R131. -/
  | pset (o : Pr)
  /-- R131. -/
  | pand (o : Pr)
  /-- R131. -/
  | por (o : Pr)
  /-- R131. -/
  | pxor (o : Pr)
  /-- R131. -/
  | pnot (o : Pr)
  /-- R131. -/
  | pandn (o : Pr)
  /-- R131. -/
  | pcnt (o : Va)
  /-- R135. -/
  | vrand (o : Va)
  /-- R136. -/
  | vseed (o : Va)
  /-- R307. -/
  | vtopk (o : Vx)
  /-- R308. -/
  | vdraw (o : Vx)
  /-- R145. -/
  | mcfg (o : Mm)
  /-- R163. -/
  | mma (o : Mm)
  /-- R161. -/
  | mmaAcca (o : Mm)
  /-- R163. -/
  | mspa (o : Mm)
  /-- R139. -/
  | mzero (o : Mm)
  /-- R164. -/
  | mdrain (o : Mm)
  /-- R158. -/
  | mdrainMerge (o : Mm)
  /-- R165. -/
  | mstat (o : Mm)
  /-- R242. -/
  | copy (o : Cx)
  /-- R242. -/
  | copyf (o : Cx)
  /-- R244. -/
  | cpb (o : Cx)
  /-- R244. -/
  | cph (o : Cx)
  /-- R246. -/
  | atom (o : Cx)
  /-- R246. -/
  | atomf (o : Cx)
  /-- R247. -/
  | subs (o : Cx)
  /-- R249. -/
  | unsub (o : Cx)
  /-- R250. -/
  | pull (o : Cx)
  /-- R251. -/
  | rrot (o : Cx)
  /-- R252. -/
  | pref (o : Cx)
  /-- R252. -/
  | invc (o : Cx)
  /-- R252. -/
  | wbc (o : Cx)
  /-- R310. -/
  | controlRegisterWrite (die : Fin 8) (num : BitVec 16) (val : Word)
  /-- R311. -/
  | parkaskWrite (die : Fin 8) (val : Word)
  /-- R326. -/
  | featacceptWrite (die : Fin 8) (val : Word)
  /-- R340. -/
  | actbaseWrite (die : Fin 8) (ctx : Fin 64) (val : Word)
  /-- R227. -/
  | ttcfgWrite (core : Fin 512) (val : Word)
  /-- R213. -/
  | bfmtWrite (core : Fin 512) (bank : Fin 32) (val : Word)
  /-- R83. -/
  | fpControlWrite (core : Fin 512) (reg : FpReg) (val : Word)
  /-- R325. -/
  | hashmaskWrite (die : Fin 8) (i : Fin 6) (val : Word)
  /-- R357. -/
  | chkctlWrite (die : Fin 8) (val : Word)
  /-- R357. -/
  | poisonlogWrite (die : Fin 8) (val : Word)
  /-- R361. -/
  | wdogctlWrite (die : Fin 8) (val : Word)
  /-- R27. -/
  | hostUnsupportedRequest (addr : Nat)
  /-- R63. -/
  | mailboxTailWrite (val : BitVec 32)
  /-- R64. -/
  | launchRecord
  /-- R331. -/
  | attestRecord
  /-- R65. -/
  | launchComplete (launch : Nat)
  /-- R281. -/
  | successorRootPlace (launch : Nat)
  /-- R327. -/
  | powerOn (board : BoardInfo)
  /-- R328. -/
  | firmwarePiece (piece : BitVec 32)
  /-- R29. -/
  | powerLoss
  /-- R359. -/
  | packageReset
  /-- R360. -/
  | dieReset (die : Fin 8)
  /-- R361. -/
  | watchdogExpiry (die : Fin 8)
  /-- R357. -/
  | scrubPass (die : Fin 8) (line : Nat) (found : EccFinding)
  /-- R259. -/
  | taskForwardReceive (die : Fin 8)
  /-- R261. -/
  | coreIdleRequest (core : Fin 512)
  /-- R269. -/
  | agingPromotion (task : Nat)
  /-- R270. -/
  | readyWaitExpiry (task : Nat)
  /-- R271. -/
  | deadlineExpiry (core : Fin 512)
  /-- R270. -/
  | holdingTaskSave (core : Fin 512)
  /-- R348. -/
  | featureParkPlace (die : Fin 8)
  /-- R266. -/
  | loadTileDelivery (task : Nat) (core : Fin 512)
  /-- R266. -/
  | storeStageWrite (task : Nat)
  /-- R333. -/
  | causeTaken (core : Fin 512)
  /-- R334. -/
  | dCauseArrival (core : Fin 512) (n : Nat)
  /-- R396. -/
  | releaseSend (core : Fin 512)
  /-- R180. -/
  | copyComplete (core : Fin 512) (n : Nat)
  /-- R253. -/
  | barrierDelivery (core : Fin 512) (n : Nat)
  /-- R248. -/
  | subscriptionTileDelivery (core : Fin 512) (id : Fin 8)
  /-- R251. -/
  | rrotExchange (clearing : Fin 64)
  /-- R251. -/
  | rrotTimeout (core : Fin 512)
  /-- R255. -/
  | barwaitTimeout (core : Fin 512)
  /-- R159. -/
  | mergeTileArrival (core : Fin 512)
  /-- R159. -/
  | mergeRetry (core : Fin 512)
  /-- R160. -/
  | mergeWaitTimeout (core : Fin 512)
  /-- R160. -/
  | mergeRefusedTimeout (core : Fin 512)
  /-- R151. -/
  | arrayStep (core : Fin 512)
  /-- R166. -/
  | accrdLand (core : Fin 512) (t : Fin 16)
  /-- R200. -/
  | atomicUnitPerform (core : Fin 512) (n : Nat)
  /-- R191. -/
  | memoryPortAccess (core : Fin 512) (n : Nat)
  /-- R323. -/
  | migration (die : Fin 8) (page : Nat)
  /-- R324. -/
  | shootdownAck (die : Fin 8) (by_ : Fin 8)
  /-- R324. -/
  | migholdExpiry (die : Fin 8) (n : Nat)
  /-- R193. -/
  | blazeLanded (die : Fin 8) (entry : Fin 4096)
  /-- R193. -/
  | blazeFailed (die : Fin 8) (entry : Fin 4096)
  /-- R195. -/
  | watcherRegister (core : Fin 512) (n : Nat)
  /-- R195. -/
  | cphArrival (core : Fin 512) (n : Nat)
  /-- R195. -/
  | watch (die : Fin 8) (n : Nat)
  /-- R196. -/
  | landed (die : Fin 8) (n : Nat)
  /-- R196. -/
  | failed (die : Fin 8) (n : Nat)
  /-- R196. -/
  | holdlimExpiry (die : Fin 8) (n : Nat)
  /-- R285. -/
  | resendBackoffExpiry (packet : Nat)
  /-- R285. -/
  | ringSlotArrival (packet : Nat) (takes : Bool)
  /-- R287. -/
  | markedResponse (die : Fin 8) (peer : BitVec 15)
  /-- R191. -/
  | entropyQuietPoint (die : Fin 8) (peer : BitVec 15)
  /-- R288. -/
  | dlrMove (packet : Nat)
  /-- R284. -/
  | linkFlitRetransmit (packet : Nat)
  /-- R55. -/
  | illegalEncoding (bad : BadWord)
  /-- R175. -/
  | accessAcknowledged (core : Fin 512) (n : Nat)
  /-- R285. -/
  | overflowStoreDrain (die : Fin 8) (tc : Fin 4)
  /-- R289. -/
  | injectionLimitRelease (packet : Nat)
  /-- R287. -/
  | torusHop (packet : Nat) (full : Bool)
  /-- R320. -/
  | clearingRingRetry (core : Fin 512) (n : Nat)
  deriving DecidableEq, Repr

end Sys2Proof
end

