-- ==== Sys2Proof/WellFormed.lean ====
section
/-! DEFINITION. Well-formed instructions: the conditions 02 R42, R47-R49, R53, R54 and the entries put on the
fields of a word. A word whose fields break one is not an instruction and raises ILLEGAL (02 R55). -/

namespace Sys2Proof

/-- FP32, BF16 and FP16, the types an entry calls "float" (05 R110). -/
def Ty.isFloat : Ty → Bool
  | .f32 | .bf16 | .f16 => true
  | _ => false

/-- INT32, INT16, INT8, NAT32, NAT16 and NAT8, the types an entry calls "int" (05 R110). -/
def Ty.isInt : Ty → Bool
  | .i32 | .i16 | .i8 | .n32 | .n16 | .n8 => true
  | _ => false

/-- INT32, INT16 and INT8. -/
def Ty.isSignedInt : Ty → Bool
  | .i32 | .i16 | .i8 => true
  | _ => false

/-- The types of MX elements, codes 3 to 7 (04 R70). -/
def Ty.isMx : Ty → Bool
  | .e5m2 | .e4m3 | .e3m2 | .e2m3 | .e2m1 => true
  | _ => false

/-- The width of an element in bits (04 R66, R69, R71). -/
def Ty.width : Ty → Nat
  | .f32 | .i32 | .n32 => 32
  | .bf16 | .f16 | .i16 | .n16 => 16
  | .e5m2 | .e4m3 | .i8 | .n8 => 8
  | .e3m2 | .e2m3 => 6
  | .e2m1 | .i4 | .hb4 => 4

/-- The elements a vector register holds (02 R43). -/
def Ty.count (t : Ty) : Nat := 2048 / t.width

/-- The destination type VIMAD needs for a source type (05 R117). -/
def Ty.imadDst : Ty → Option Ty
  | .i32 | .i16 | .i8 | .i4 => some .i32
  | .n32 | .n16 | .n8 => some .n32
  | _ => none

/-- The types ACCRD writes and ACCWR reads (06 R167, R169). -/
def Ty.accOk : Ty → Bool
  | .f32 | .bf16 | .f16 | .e5m2 | .e4m3 | .i32 | .i16 | .i8 => true
  | _ => false

/-- A 6-bit code that names a vector register. -/
def isV (c : VCode) : Bool := decide (c.val < 56)
/-- A 6-bit field that names a scalar register. -/
def isS (c : VCode) : Bool := decide (c.val < 32)

/-- The control register numbers that name a register (11 R310). -/
def crExists (n : Nat) : Bool :=
  decide (n ≤ 0x10) || (decide (0x20 ≤ n) && decide (n ≤ 0x40)) || (decide (0x100 ≤ n) && decide (n ≤ 0x122))
    || (decide (0x4000 ≤ n) && decide (n < 0x5000) && decide (n % 0x40 < 6))

/-- VCVT (05 R124). -/
def cvtOk (o : Vx) : Bool :=
  let ns := o.ty.count
  let nd := o.dty.count
  o.b == 0 && o.c == 0 && o.ty != .hb4 && o.dty != .hb4 && decide (o.aux.toNat < 16)
    && decide (o.aux.toNat < (max ns nd + min ns nd - 1) / min ns nd)

/-- VQUANT (05 R125, R126). -/
def quantOk (o : Vx) : Bool :=
  let ns := o.ty.count
  let h := bits o.aux.toNat 0 4
  o.ty.isFloat && isV o.c && !o.sat && decide (h * ns + ns ≤ o.dty.count)
    && ((o.dty.isMx && o.b == 0 && decide (o.aux.toNat < 16))
      || (o.dty == .hb4 && isV o.b && !o.fzo && !bit o.aux.toNat 4 && decide (bits o.aux.toNat 5 3 ≤ 4)))

/-- VDEQ (05 R127). -/
def deqOk (o : Vx) : Bool :=
  let nd := o.dty.count
  let h := bits o.aux.toNat 0 4
  o.dty.isFloat && isV o.b && !o.fzi && !o.sat && decide (h * nd + nd ≤ o.ty.count)
    && ((o.ty.isMx && o.c == 0 && decide (o.aux.toNat < 16))
      || (o.ty == .hb4 && isV o.c && decide (o.aux.toNat < 32)))

/-- The row segment of ACCRD and ACCWR lies in the row (06 R167, R169). -/
def accSegOk (n : Nat) (aux : Nat) : Bool := decide (bits aux 0 3 * n + n ≤ 256)

/-- ACCRD (06 R167). -/
def accrdOk (o : Vx) : Bool :=
  isV o.d && o.a == 0 && o.b == 0 && o.p == 0 && o.ty == .f32 && o.c == 0 && !o.fzi && o.dty.accOk
    && accSegOk o.dty.count o.aux.toNat

/-- ACCWR (06 R169). -/
def accwrOk (o : Vx) : Bool :=
  o.d == 0 && o.b == 0 && o.ty.accOk && o.c == 0 && !o.fzo && o.dty == .f32 && bits o.aux.toNat 12 4 == 0
    && accSegOk o.ty.count o.aux.toNat

/-- ATOM and ATOMF (02 R54, 08 R232, R246). -/
def atomOk (o : Cx) : Bool :=
  decide (o.xf.toNat ≤ 15) && o.se == 0 && o.za == 0 && o.zb == 0 && !o.fol && !o.chk
    && (o.xf == 9 || o.xf == 13 || o.xf == 15 || o.sc == 0 || (o.xf == 7 && o.sc == 1))

/-- The instruction's fields hold what its entry allows. -/
def Instr.wf : Instr → Bool
  | .add _ => true
  | .sub _ => true
  | .mul _ => true
  | .mulh _ => true
  | .mulhn _ => true
  | .div _ => true
  | .divn _ => true
  | .rem _ => true
  | .remn _ => true
  | .and _ => true
  | .or _ => true
  | .xor _ => true
  | .andn _ => true
  | .shl _ => true
  | .shr _ => true
  | .sar _ => true
  | .min _ => true
  | .max _ => true
  | .minn _ => true
  | .maxn _ => true
  | .slt _ => true
  | .sltn _ => true
  | .seq _ => true
  | .sne _ => true
  | .addi _ => true
  | .andi _ => true
  | .ori _ => true
  | .xori _ => true
  | .slti _ => true
  | .sltni _ => true
  | .ldi o => o.a == 0
  | .ldix _ => true
  | .ldixHi _ => true
  | .shli o => o.len6 == 0
  | .shri o => o.len6 == 0
  | .sari o => o.len6 == 0
  | .roli o => o.len6 == 0
  | .ext o => decide (o.pos.val + o.len6.val + 1 ≤ 64)
  | .extn o => decide (o.pos.val + o.len6.val + 1 ≤ 64)
  | .ins o => decide (o.pos.val + o.len6.val + 1 ≤ 64)
  | .insz o => decide (o.pos.val + o.len6.val + 1 ≤ 64)
  | .insm _ => true
  | .clz o => o.b == 0
  | .ctz o => o.b == 0
  | .popc o => o.b == 0
  | .brev o => o.b == 0
  | .ffcs o => o.b == 0
  | .bswap o => o.b == 0
  | .fshi _ => true
  | .fsh o => o.e == 0 && o.fl6 == 0
  | .plset _ => true
  | .bc _ => true
  | .bci _ => true
  | .j _ => true
  | .jr o => o.b == 0
  | .ldb o => o.sen || o.slot == 0
  | .ldbn o => o.sen || o.slot == 0
  | .ldh o => o.sen || o.slot == 0
  | .ldhn o => o.sen || o.slot == 0
  | .ldw o => o.sen || o.slot == 0
  | .ldwn o => o.sen || o.slot == 0
  | .ldd o => o.sen || o.slot == 0
  | .lda o => o.sen || o.slot == 0
  | .stb o => o.sen || o.slot == 0
  | .sth o => o.sen || o.slot == 0
  | .stw o => o.sen || o.slot == 0
  | .std o => o.sen || o.slot == 0
  | .stl o => o.sen || o.slot == 0
  | .waitw _ => true
  | .fence _ => true
  | .tlook o => o.b == 0
  | .tset o => o.d == 0
  | .tclr o => o.d == 0 && o.b == 0
  | .getres o => o.a == 0 && o.b == 0
  | .evwait o => o.a == 0 && o.b == 0
  | .evpop o => o.a == 0 && o.b == 0
  | .evpeek o => o.a == 0 && o.b == 0
  | .setb _ => true
  | .barinit o => o.d == 0
  | .barexp o => o.d == 0
  | .bararr o => o.b == 0
  | .barwait o => o.d == 0
  | .bartest _ => true
  | .spawn o => o.b == 0
  | .joinwait o => o.b == 0
  | .yield o => o.d == 0 && o.b == 0
  | .done o => o.d == 0 && o.a == 0 && o.b == 0
  | .tbound o => o.b == 0
  | .hintnext o => o.d == 0 && o.a == 0 && o.b == 0
  | .waitpred o => o.d == 0 && o.a == 0 && o.b == 0
  | .bufpass o => o.d == 0 && o.b == 0
  | .buftake o => o.b == 0
  | .buffree o => o.d == 0 && o.b == 0
  | .spawnx o => decide (o.fl6.val < 32)
  | .sqappend _ => true
  | .sqconfirm o => o.b == 0
  | .sqstate o => o.b == 0
  | .wset _ => true
  | .wclr o => o.d == 0 && o.b == 0
  | .wget _ => true
  | .zwait o => o.d == 0 && o.b == 0 && decide (o.a.val < 16)
  | .zdrop o => o.d == 0 && o.b == 0 && decide (o.a.val < 16)
  | .ztest o => o.b == 0 && decide (o.a.val < 16)
  | .rdcyc o => o.a == 0 && o.b == 0
  | .rdid o => o.a == 0 && o.b == 0
  | .rdfeat o => o.a == 0 && o.b == 0
  | .mfcr o => o.a == 0 && crExists o.imm.toNat
  | .mtcr o => o.d == 0 && crExists o.imm.toNat
  | .trapi o => o.d == 0 && o.a == 0
  | .brk o => o.d == 0 && o.a == 0
  | .tlbinvCtx o => o.d == 0 && o.b == 0
  | .tlbinvPage o => o.d == 0
  | .tlbinvAll o => o.d == 0 && o.a == 0 && o.b == 0
  | .actset o => decide (1 ≤ o.cause.toNat) && decide (o.cause.toNat ≤ 0x1B)
  | .resume _ => true
  | .halt o => o.d == 0 && o.a == 0 && o.b == 0
  | .wdogPet o => o.d == 0 && o.a == 0 && o.b == 0
  | .wdogExpire o => o.d == 0 && o.a == 0 && o.b == 0
  | .wdogCorerst o => o.d == 0 && o.b == 0
  | .wdogDierst o => o.d == 0 && o.b == 0
  | .featset o => o.b == 0
  | .parkpop o => o.b == 0
  | .vadd o => o.ty.isFloat || o.ty.isInt
  | .vsub o => o.ty.isFloat || o.ty.isInt
  | .vmul o => o.ty.isFloat || o.ty.isInt
  | .vmin o => o.ty.isFloat || o.ty.isInt
  | .vmax o => o.ty.isFloat || o.ty.isInt
  | .vabs o => o.b == 0 && (o.ty.isFloat || o.ty.isSignedInt)
  | .vneg o => o.b == 0 && (o.ty.isFloat || o.ty.isSignedInt)
  | .vmov o => o.b == 0 && o.ty == .f32
  | .vfma o => o.ty.isFloat && !o.sat && o.dty == .f32 && o.aux == 0
  | .vfms o => o.ty.isFloat && !o.sat && o.dty == .f32 && o.aux == 0
  | .vcmp o => decide (o.d.val < 16) && (o.ty.isFloat || o.ty.isInt) && decide (o.aux.toNat < 16) && o.c == 0 && o.rm == .rne && !o.fzo && !o.sat && o.dty == .f32
  | .vsel o => o.ty == .f32
  | .vexp2 o => o.b == 0 && o.ty == .f32
  | .vlog2 o => o.b == 0 && o.ty == .f32
  | .vrcp o => o.b == 0 && o.ty == .f32
  | .vrsq o => o.b == 0 && o.ty == .f32
  | .vsqrt o => o.b == 0 && o.ty == .f32
  | .vand o => o.ty == .f32
  | .vor o => o.ty == .f32
  | .vxor o => o.ty == .f32
  | .vshl o => o.ty.isInt
  | .vshr o => o.ty.isInt
  | .vsar o => o.ty.isSignedInt
  | .vpopc o => o.b == 0 && o.ty.isInt
  | .vimad o => o.ty.imadDst == some o.dty && o.rm == .rne && !o.fzi && !o.fzo && o.aux == 0
  | .vcvt o => cvtOk o
  | .vquant o => quantOk o
  | .vdeq o => deqOk o
  | .vamax o => o.b == 0 && o.p == 0 && o.ty.isFloat
  | .vpack o => o.ty.width != 6
  | .vunpk o => o.ty.width != 6
  | .vshuf o => o.ty.width != 6 && o.ty.width != 4
  | .vrot o => o.ty.width != 6
  | .vbcast o => o.ty.width != 6
  | .vins o => o.ty.width != 6
  | .vredAdd o => o.d == 0 && o.b == 0 && (o.ty.isFloat || o.ty.isInt)
  | .vredMin o => o.d == 0 && o.b == 0 && (o.ty.isFloat || o.ty.isInt)
  | .vredMax o => o.d == 0 && o.b == 0 && (o.ty.isFloat || o.ty.isInt)
  | .vredAmax o => o.d == 0 && o.b == 0 && o.ty.isFloat
  | .vredAnd o => o.d == 0 && o.b == 0 && o.ty.isInt
  | .vredOr o => o.d == 0 && o.b == 0 && o.ty.isInt
  | .vredXor o => o.d == 0 && o.b == 0 && o.ty.isInt
  | .vld o => isV o.d && isS o.a && o.b == 0 && o.ty == .f32
  | .vst o => o.d == 0 && isS o.a && o.ty == .f32
  | .vgath o => isV o.d && isS o.a && isV o.b && o.ty == .f32
  | .vscat o => isV o.d && isS o.a && isV o.b && o.ty == .f32
  | .vldg o => isV o.d && isS o.a && o.b == 0
  | .vstg o => o.d == 0 && isS o.a
  | .accrd o => accrdOk o
  | .accwr o => accwrOk o
  | .commit o => o.d == 0 && decide (o.a.val < 16) && o.b == 0 && o.p == 0 && o.ty == .f32
  | .gcfg o => decide (56 ≤ o.d.val) && o.b == 0 && o.p == 0 && o.ty == .f32 && o.c == 0 && o.rm == .rne && !o.fzi && !o.fzo && !o.sat && o.dty == .f32 && decide (o.aux.toNat < 4)
  | .vloop o => decide (1 ≤ o.s.val) && decide (o.s.val ≤ 8)
  | .vlend o => o.d == 0 && o.a == 0 && o.b == 0 && o.p == 0 && o.ty == .f32
  | .pset o => o.a == 0 && o.b == 0
  | .pand _ => true
  | .por _ => true
  | .pxor _ => true
  | .pnot o => o.b == 0
  | .pandn _ => true
  | .pcnt o => o.d == 0 && decide (o.a.val < 16) && o.b == 0 && o.p == 0 && o.ty == .f32
  | .vrand o => o.a == 0 && o.b == 0 && o.ty == .f32
  | .vseed o => o.d == 0 && o.b == 0 && o.p == 0 && o.ty == .f32
  | .vtopk o => isS o.d && isS o.b && o.ty.isFloat && o.c == 0 && o.rm == .rne && !o.fzo && !o.sat && o.dty == .f32 && bits o.aux.toNat 1 7 == 0 && (bit o.aux.toNat 0 || bits o.aux.toNat 8 8 == 0)
  | .vdraw o => isS o.d && isV o.a && o.b == 0 && o.p == 0 && o.ty == .f32 && o.c == 0 && o.rm == .rne && !o.fzi && !o.fzo && !o.sat && o.dty == .f32 && o.aux == 0
  | .mcfg o => o.acc == 0 && o.fl == 0 && decide (o.fid.val ≤ 17)
  | .mma o => o.fl == 0 && o.s == 0 && o.fid == 0
  | .mmaAcca o => bit o.fl.toNat 0 && bits o.fl.toNat 3 5 == 0 && o.s == 0 && o.fid == 0 && bits o.fl.toNat 1 2 != o.acc.val
  | .mspa o => bits o.fl.toNat 0 2 != 3 && bits o.fl.toNat 3 5 == 0 && o.s == 0 && o.fid == 0
  | .mzero o => bits o.fl.toNat 1 7 == 0 && o.s == 0 && o.fid == 0
  | .mdrain o => !bit o.fl.toNat 1 && bits o.fl.toNat 3 5 == 0 && o.fid == 0
  | .mdrainMerge o => o.fl == 2 && o.fid == 0
  | .mstat o => o.acc == 0 && bits o.fl.toNat 1 7 == 0 && o.s == 0 && decide (o.fid.val ≤ 6)
  | .copy o => decide (o.xf.toNat ≤ 0x0E) && o.za == 0 && o.zb == 0
  | .copyf o => o.xf == 0 && o.sd == 0 && !o.chk && o.za == 0 && o.zb == 0
  | .cpb o => decide (o.xf.toNat ≤ 0x0E) && o.zb == 0
  | .cph o => decide (o.xf.toNat ≤ 0x0E)
  | .atom o => atomOk o && o.sd == 0
  | .atomf o => atomOk o
  | .subs o => decide (o.xf.toNat ≤ 0x0E) && o.sc == 0 && o.se == 0 && !o.fol && o.za == 0 && o.zb == 0
  | .unsub o => o.xf == 0 && o.sa == 0 && o.sc == 0 && o.sd == 0 && o.se == 0 && !o.fol && !o.chk && o.za == 0 && o.zb == 0
  | .pull o => decide (o.xf.toNat ≤ 0x0E) && !o.fol && o.za == 0 && o.zb == 0
  | .rrot o => o.xf == 0 && o.sd == 0 && !o.fol && !o.chk && o.za == 0 && o.zb == 0
  | .pref o => o.xf == 0 && o.sb == 0 && o.sd == 0 && o.se == 0 && !o.fol && !o.chk && !o.rel && !o.acq && o.za == 0 && o.zb == 0
  | .invc o => o.xf == 0 && o.sb == 0 && o.sd == 0 && o.se == 0 && !o.fol && !o.chk && !o.rel && !o.acq && o.za == 0 && o.zb == 0
  | .wbc o => o.xf == 0 && o.sb == 0 && o.sd == 0 && o.se == 0 && !o.fol && !o.chk && !o.rel && !o.acq && o.za == 0 && o.zb == 0
  | .controlRegisterWrite _ _ _ => true
  | .parkaskWrite _ _ => true
  | .featacceptWrite _ _ => true
  | .actbaseWrite _ _ _ => true
  | .ttcfgWrite _ _ => true
  | .bfmtWrite _ _ _ => true
  | .fpControlWrite _ _ _ => true
  | .hashmaskWrite _ _ _ => true
  | .chkctlWrite _ _ => true
  | .poisonlogWrite _ _ => true
  | .wdogctlWrite _ _ => true
  | .hostUnsupportedRequest _ => true
  | .mailboxTailWrite _ => true
  | .launchRecord => true
  | .attestRecord => true
  | .launchComplete _ => true
  | .successorRootPlace _ => true
  | .powerOn _ => true
  | .firmwarePiece _ => true
  | .powerLoss => true
  | .packageReset => true
  | .dieReset _ => true
  | .watchdogExpiry _ => true
  | .scrubPass _ _ _ => true
  | .taskForwardReceive _ => true
  | .coreIdleRequest _ => true
  | .agingPromotion _ => true
  | .readyWaitExpiry _ => true
  | .deadlineExpiry _ => true
  | .holdingTaskSave _ => true
  | .featureParkPlace _ => true
  | .loadTileDelivery _ _ => true
  | .storeStageWrite _ => true
  | .causeTaken _ => true
  | .dCauseArrival _ _ => true
  | .releaseSend _ => true
  | .copyComplete _ _ => true
  | .barrierDelivery _ _ => true
  | .subscriptionTileDelivery _ _ => true
  | .rrotExchange _ => true
  | .rrotTimeout _ => true
  | .barwaitTimeout _ => true
  | .mergeTileArrival _ => true
  | .mergeRetry _ => true
  | .mergeWaitTimeout _ => true
  | .mergeRefusedTimeout _ => true
  | .arrayStep _ => true
  | .accrdLand _ _ => true
  | .atomicUnitPerform _ _ => true
  | .memoryPortAccess _ _ => true
  | .migration _ _ => true
  | .shootdownAck _ _ => true
  | .migholdExpiry _ _ => true
  | .blazeLanded _ _ => true
  | .blazeFailed _ _ => true
  | .watcherRegister _ _ => true
  | .cphArrival _ _ => true
  | .watch _ _ => true
  | .landed _ _ => true
  | .failed _ _ => true
  | .holdlimExpiry _ _ => true
  | .resendBackoffExpiry _ => true
  | .ringSlotArrival _ _ => true
  | .markedResponse _ _ => true
  | .entropyQuietPoint _ _ => true
  | .dlrMove _ => true
  | .linkFlitRetransmit _ => true
  | .illegalEncoding _ => true
  | .accessAcknowledged _ _ => true
  | .overflowStoreDrain _ _ => true
  | .injectionLimitRelease _ => true
  | .torusHop _ _ => true
  | .clearingRingRetry _ _ => true

/-- A well-formed instruction. -/
abbrev Instr.WellFormed (i : Instr) : Prop := i.wf = true

end Sys2Proof
end

