-- ==== Sys2Proof/Machine/Numbers.lean ====
section
/-! DEFINITION. Numbers: formats (04 R66-R69), exact values, rounding (04 R74, R393), the stochastic draw
(04 R76), conversions (04 R78-R81) and exact arithmetic on values. A finite value is a sign, a natural mantissa and a
power of two, so every operation before the one rounding is exact. -/

namespace Sys2Proof.Machine

/-- An exact value: ±m·2^e, an infinity, or NaN. A zero keeps a sign. -/
inductive Val
  | fin (neg : Bool) (m : Nat) (e : Int)
  | inf (neg : Bool)
  | nan
  deriving DecidableEq, Repr

/-- How a floating-point format uses its top exponent (04 R66). -/
inductive FmtKind | ieee | e4m3 | finite
  deriving DecidableEq, Repr

/-- A floating-point format (04 R66). -/
structure Fmt where
  ebits : Nat
  mbits : Nat
  bias : Nat
  kind : FmtKind
  deriving DecidableEq, Repr

end Sys2Proof.Machine

namespace Sys2Proof

/-- The floating-point formats of 04 R66. -/
def Ty.fmt : Ty → Option Machine.Fmt
  | .f32 => some ⟨8, 23, 127, .ieee⟩
  | .bf16 => some ⟨8, 7, 127, .ieee⟩
  | .f16 => some ⟨5, 10, 15, .ieee⟩
  | .e5m2 => some ⟨5, 2, 15, .ieee⟩
  | .e4m3 => some ⟨4, 3, 7, .e4m3⟩
  | .e3m2 => some ⟨3, 2, 3, .finite⟩
  | .e2m3 => some ⟨2, 3, 1, .finite⟩
  | .e2m1 => some ⟨2, 1, 1, .finite⟩
  | _ => none

/-- INTn formats (04 R69). -/
def Ty.isSigned : Ty → Bool
  | .i32 | .i16 | .i8 | .i4 => true
  | _ => false

/-- The range of an integer format (04 R69). -/
def Ty.range (t : Ty) : Int × Int :=
  if t.isSigned then (-(2 ^ (t.width - 1) : Nat), (2 ^ (t.width - 1) : Nat) - 1) else (0, (2 ^ t.width : Nat) - 1)

end Sys2Proof

namespace Sys2Proof.Machine

/-- The exponent of the smallest normal. -/
def Fmt.emin (f : Fmt) : Int := 1 - (f.bias : Int)

/-- The bits of the largest finite value (04 R66). -/
def Fmt.maxRaw (f : Fmt) : Nat :=
  match f.kind with
  | .ieee => (2 ^ f.ebits - 1) * 2 ^ f.mbits - 1
  | .e4m3 => 2 ^ (f.ebits + f.mbits) - 2
  | .finite => 2 ^ (f.ebits + f.mbits) - 1

/-- The sign bit of a format. -/
def Fmt.signBit (f : Fmt) (neg : Bool) : Nat := if neg then 2 ^ (f.ebits + f.mbits) else 0

/-- The bits of infinity, where the format has one. -/
def Fmt.infRaw (f : Fmt) : Nat := (2 ^ f.ebits - 1) * 2 ^ f.mbits

/-- The canonical NaN, where the format has one (04 R67). -/
def Ty.canonNaN : Ty → Nat
  | .f32 => 0x7FC00000
  | .bf16 => 0x7FC0
  | .f16 => 0x7E00
  | .e5m2 => 0x7F
  | .e4m3 => 0x7F
  | _ => 0

/-- The value of the bits of a floating-point format (04 R66). -/
def Fmt.decode (f : Fmt) (x : Nat) : Val :=
  let s := bit x (f.ebits + f.mbits)
  let ex := bits x f.mbits f.ebits
  let m := bits x 0 f.mbits
  if f.kind = .ieee ∧ ex = 2 ^ f.ebits - 1 then (if m = 0 then .inf s else .nan)
  else if f.kind = .e4m3 ∧ bits x 0 (f.ebits + f.mbits) = 2 ^ (f.ebits + f.mbits) - 1 then .nan
  else if ex = 0 then .fin s m (f.emin - f.mbits)
  else .fin s (m + 2 ^ f.mbits) ((ex : Int) - f.bias - f.mbits)

/-- Two's complement or natural, as the format says. -/
def intOf (t : Ty) (x : Nat) : Int :=
  let y := x % 2 ^ t.width
  if t.isSigned && decide (2 ^ (t.width - 1) ≤ y) then (y : Int) - (2 ^ t.width : Nat) else y

/-- The integer back as the bits of its format. -/
def intBits (t : Ty) (x : Int) : Nat := (x % (2 ^ t.width : Nat)).toNat

/-- An integer as a value; integers have no negative zero (04 R69). -/
def Val.ofInt (x : Int) : Val := .fin (decide (x < 0)) x.natAbs 0

/-- The value of the bits of an element type; HB4 codes are not values by themselves (04 R71). -/
def decodeTy (t : Ty) (x : Nat) : Val :=
  match t.fmt with
  | some f => f.decode x
  | none => .ofInt (intOf t x)

/-- The bits are a subnormal of the type. -/
def isSubnormal (t : Ty) (x : Nat) : Bool :=
  match t.fmt with
  | some f => bits x f.mbits f.ebits == 0 && bits x 0 f.mbits != 0
  | none => false

/-- FZI on the bits of an element (04 R81). -/
def flushIn (t : Ty) (fzi : Bool) (x : Nat) : Nat :=
  if fzi && isSubnormal t x then
    match t.fmt with
    | some f => f.signBit (bit x (f.ebits + f.mbits))
    | none => x
  else x

/-! ## Exact arithmetic -/

/-- A value is NaN. -/
def Val.isNan : Val → Bool
  | .nan => true
  | _ => false

/-- A value is a zero. -/
def Val.isZero : Val → Bool
  | .fin _ m _ => m == 0
  | _ => false

/-- The sign of a value; NaN has none. -/
def Val.neg? : Val → Bool
  | .fin s _ _ => s
  | .inf s => s
  | .nan => false

/-- The value with the other sign. -/
def Val.negate : Val → Val
  | .fin s m e => .fin (!s) m e
  | .inf s => .inf (!s)
  | .nan => .nan

/-- The magnitude. -/
def Val.abs : Val → Val
  | .fin _ m e => .fin false m e
  | .inf _ => .inf false
  | .nan => .nan

/-- The value times 2^k. -/
def Val.scale (k : Int) : Val → Val
  | .fin s m e => .fin s m (e + k)
  | v => v

/-- m·2^e as an integer number of units 2^u, for u not above e. -/
def toUnits (s : Bool) (m : Nat) (e u : Int) : Int :=
  let n : Int := m * 2 ^ (e - u).toNat
  if s then -n else n

/-- The sum of two finite values, with the sign R393 gives a zero. -/
def addFin (rm : Rm) (s1 : Bool) (m1 : Nat) (e1 : Int) (s2 : Bool) (m2 : Nat) (e2 : Int) : Val :=
  if m1 = 0 ∧ m2 = 0 then .fin (if s1 = s2 then s1 else decide (rm = .rdn)) 0 0
  else
    let u := min e1 e2
    let t := toUnits s1 m1 e1 u + toUnits s2 m2 e2 u
    if t = 0 then .fin (decide (rm = .rdn)) 0 0 else .fin (decide (t < 0)) t.natAbs u

/-- The exact sum, with the sign R393 gives a zero; the Boolean says that a NaN was created. -/
def Val.add (rm : Rm) : Val → Val → Val × Bool
  | .nan, _ => (.nan, false)
  | _, .nan => (.nan, false)
  | .inf a, .inf b => if a = b then (.inf a, false) else (.nan, true)
  | .inf a, _ => (.inf a, false)
  | _, .inf b => (.inf b, false)
  | .fin s1 m1 e1, .fin s2 m2 e2 => (addFin rm s1 m1 e1 s2 m2 e2, false)

/-- The exact product; the Boolean says that a NaN was created (0 × ∞). -/
def Val.mul : Val → Val → Val × Bool
  | .nan, _ => (.nan, false)
  | _, .nan => (.nan, false)
  | .inf a, .inf b => (.inf (a ^^ b), false)
  | .inf a, .fin b m _ => if m = 0 then (.nan, true) else (.inf (a ^^ b), false)
  | .fin a m _, .inf b => if m = 0 then (.nan, true) else (.inf (a ^^ b), false)
  | .fin a m e, .fin b n f => (.fin (a ^^ b) (m * n) (e + f), false)

/-- a·b + c: 0 × ∞ creates a NaN whatever c is (05 R113). -/
def Val.fma (rm : Rm) (a b c : Val) : Val × Bool :=
  let p := a.mul b
  if p.2 then (.nan, true) else p.1.add rm c

/-- a < b for values that are not NaN; both zeros are equal. -/
def Val.lt : Val → Val → Bool
  | .nan, _ => false
  | _, .nan => false
  | .inf a, .inf b => a && !b
  | .inf a, _ => a
  | _, .inf b => !b
  | .fin s1 m1 e1, .fin s2 m2 e2 => let u := min e1 e2; decide (toUnits s1 m1 e1 u < toUnits s2 m2 e2 u)

/-- a = b for values that are not NaN. -/
def Val.beq : Val → Val → Bool
  | .nan, _ => false
  | _, .nan => false
  | .inf a, .inf b => a == b
  | .inf _, _ => false
  | _, .inf _ => false
  | .fin s1 m1 e1, .fin s2 m2 e2 => let u := min e1 e2; decide (toUnits s1 m1 e1 u = toUnits s2 m2 e2 u)

/-! ## Rounding (04 R74) -/

/-- One of the two neighbours of m / 2^sh, and whether it differs. `r` is the draw of stochastic rounding. -/
def roundShift (rm : Rm) (neg : Bool) (r m sh : Nat) : Nat × Bool :=
  let t := m / 2 ^ sh
  let d := m % 2 ^ sh
  let up := match rm with
    | .rne => decide (2 * d > 2 ^ sh) || (decide (2 * d = 2 ^ sh) && decide (t % 2 = 1))
    | .rtz => false
    | .rdn => neg && decide (0 < d)
    | .rup => !neg && decide (0 < d)
    | .sr => decide (2 ^ 16 ≤ d * 2 ^ 16 / 2 ^ sh + r)
    | .dyn => false
  (if up then t + 1 else t, decide (0 < d))

/-- m·2^e rounded to a multiple of 2^k: the multiple, and whether it differs. -/
def roundTo (rm : Rm) (neg : Bool) (r m : Nat) (e k : Int) : Nat × Bool :=
  if k ≤ e then (m * 2 ^ (e - k).toNat, false) else roundShift rm neg r m (k - e).toNat

/-- The bits and flags of a conversion. -/
abbrev Conv := Nat × Flags

/-- Finite overflow in a floating-point target (04 R79). -/
def overflowRule (t : Ty) (f : Fmt) (neg : Bool) (rm : Rm) (sat : Bool) : Conv :=
  let base := Flags.ov ||| Flags.nx
  match t with
  | .f32 | .bf16 | .f16 =>
    let toInf := match rm with
      | .rne | .sr | .dyn => true
      | .rtz => false
      | .rdn => neg
      | .rup => !neg
    (f.signBit neg + (if toInf then f.infRaw else f.maxRaw), base)
  | .e5m2 =>
    if sat then (f.signBit neg + f.maxRaw, base ||| Flags.satf) else (f.signBit neg + f.infRaw, base)
  | .e4m3 =>
    if sat then (f.signBit neg + f.maxRaw, base ||| Flags.satf) else (Ty.canonNaN .e4m3, base ||| Flags.nv)
  | _ => (f.signBit neg + f.maxRaw, base ||| Flags.satf)

/-- An infinite input to a floating-point target (04 R79). -/
def infinityRule (t : Ty) (f : Fmt) (neg : Bool) (sat : Bool) : Conv :=
  match t with
  | .f32 | .bf16 | .f16 => (f.signBit neg + f.infRaw, 0)
  | .e5m2 => if sat then (f.signBit neg + f.maxRaw, Flags.satf) else (f.signBit neg + f.infRaw, 0)
  | .e4m3 => if sat then (f.signBit neg + f.maxRaw, Flags.satf) else (Ty.canonNaN .e4m3, Flags.nv)
  | _ => (f.signBit neg + f.maxRaw, Flags.satf)

/-- A NaN input (04 R79); a NaN passed on sets no flag. -/
def nanRule (t : Ty) : Conv := if Ty.canonNaN t = 0 then (0, Flags.nv) else (Ty.canonNaN t, 0)

/-- A finite nonzero value rounded into a floating-point target (04 R78). -/
def convertFinite (t : Ty) (f : Fmt) (rm : Rm) (fzo sat : Bool) (r : Nat) (neg : Bool) (m : Nat) (e : Int) : Conv :=
  let top : Int := (m.log2 : Int) + e
  let k := max top f.emin - f.mbits
  let n := roundTo rm neg r m e k
  let raw := (k - (f.emin - f.mbits)).toNat * 2 ^ f.mbits + n.1
  if f.maxRaw < raw then overflowRule t f neg rm sat
  else if fzo && decide (0 < raw) && decide (raw < 2 ^ f.mbits) then
    (f.signBit neg, (Flags.whenSet n.2 Flags.nx) ||| Flags.uf ||| Flags.nx)
  else
    (f.signBit neg + raw, Flags.whenSet n.2 Flags.nx ||| Flags.whenSet (n.2 && decide (top < f.emin)) Flags.uf)

/-- A finite value rounded into an integer target (04 R78, R79). -/
def convertInt (t : Ty) (rm : Rm) (r : Nat) (neg : Bool) (m : Nat) (e : Int) : Conv :=
  let n := roundTo rm neg r m e 0
  let x : Int := if neg then -(n.1 : Int) else n.1
  let lo := t.range.1
  let hi := t.range.2
  if x < lo then
    if lo = 0 then (0, Flags.satf ||| Flags.nx) else (intBits t lo, Flags.ov ||| Flags.nx ||| Flags.satf)
  else if hi < x then (intBits t hi, Flags.ov ||| Flags.nx ||| Flags.satf)
  else (intBits t x, Flags.whenSet n.2 Flags.nx)

/-- The conversion of an exact value (04 R78); FZI has been applied to its bits. -/
def convert (t : Ty) (rm : Rm) (fzo sat : Bool) (r : Nat) (v : Val) : Conv :=
  match t.fmt with
  | some f =>
    match v with
    | .nan => nanRule t
    | .inf neg => infinityRule t f neg sat
    | .fin neg m e => if m = 0 then (f.signBit neg, 0) else convertFinite t f rm fzo sat r neg m e
  | none =>
    match v with
    | .nan => (0, Flags.nv)
    | .inf neg => (intBits t (if neg then t.range.1 else t.range.2), Flags.satf)
    | .fin neg m e => convertInt t rm r neg m e

/-- The conversion of the bits of a source type (04 R80): the same format keeps its bits, integers clamp. -/
def convertBits (src dst : Ty) (rm : Rm) (fzi fzo sat : Bool) (r x : Nat) : Conv :=
  if src = dst then
    if isSubnormal src x && (fzi || fzo) then
      (flushIn src true x, if fzi then 0 else Flags.uf ||| Flags.nx)
    else (x % 2 ^ src.width, 0)
  else if src.fmt.isNone && dst.fmt.isNone then
    let v := intOf src x
    let w := max dst.range.1 (min dst.range.2 v)
    (intBits dst w, Flags.whenSet (decide (w ≠ v)) Flags.satf)
  else convert dst rm fzo sat r (decodeTy src (flushIn src fzi x))

/-- The conversion that no field governs: RNE with FZI, FZO and SAT clear (04 R75). -/
def convertPlain (src dst : Ty) (x : Nat) : Conv := convertBits src dst .rne false false false 0 x

/-- An exact result rounded into a type, NV when its NaN was created (04 R82). -/
def roundResult (t : Ty) (rm : Rm) (fzo sat : Bool) (r : Nat) (v : Val × Bool) : Conv :=
  let c := convert t rm fzo sat r v.1
  (c.1, c.2 ||| Flags.whenSet v.2 Flags.nv)

/-! ## The draw (04 R76) -/

/-- mix64, the SplitMix64 finaliser. -/
def mix64 (z : Word) : Word :=
  let a := (z ^^^ (z >>> 30)) * 0xBF58476D1CE4E5B9
  let b := (a ^^^ (a >>> 27)) * 0x94D049BB133111EB
  b ^^^ (b >>> 31)

/-- GAMMA. -/
def gamma : Word := 0x9E3779B97F4A7C15

/-- W0 of lane `l`. -/
def laneWord (seed rngcnt : Word) (l : Nat) : Word := mix64 (seed + gamma * (rngcnt * 64 + BitVec.ofNat 64 l))

/-- r for the j-th element of lane `l` of a VE result. -/
def drawVe (seed rngcnt : Word) (l j : Nat) : Nat :=
  let w0 := laneWord seed rngcnt l
  let w := if j < 4 then w0 else mix64 w0
  bits w.toNat (48 - 16 * (j % 4)) 16

/-- r for element `n` of a transfer. -/
def drawXfer (seed : Word) (n : Nat) : Nat := bits (mix64 (seed + gamma * BitVec.ofNat 64 n)).toNat 48 16

/-- The lane that holds bit 0 of element `i` of a register, and the element's number in it (04 R76). -/
def lanePos (t : Ty) (i : Nat) : Nat × Nat :=
  let l := t.width * i / 32
  (l, i - (32 * l + t.width - 1) / t.width)

/-- The rounding mode with DYN resolved (04 R74, R82). -/
def Rm.resolve (fpctl : Word) : Rm → Rm
  | .dyn =>
    match bits fpctl.toNat 0 3 with
    | 0 => .rne
    | 1 => .rtz
    | 2 => .rdn
    | 3 => .rup
    | _ => .sr
  | m => m

end Sys2Proof.Machine
end

