-- ==== Sys2Proof/Machine/Blocks.lean ====
section
/-! DEFINITION. Block formats: MX blocks (04 R70, R85), HB4 blocks, tiles and burls (04 R71-R73, R84, R86, R87). -/

namespace Sys2Proof.Machine

/-- MAG(type, m) times 8 (04 R71). -/
def mag8 (ty m : Nat) : Nat :=
  match ty, m with
  | _, 0 => 0
  | 0, m => 8 * m
  | 1, 1 => 4 | 1, 2 => 8 | 1, 3 => 12 | 1, 4 => 16 | 1, 5 => 24 | 1, 6 => 32 | 1, _ => 48
  | 2, m => 2 ^ (m - 1)
  | _, 1 => 8 | _, 2 => 16 | _, 3 => 24 | _, 4 => 32 | _, 5 => 48 | _, 6 => 64 | _, _ => 96

/-- An HB4 code that is not an escape, under scale byte `sc` (04 R71). -/
def decodeHb4 (sc code : Nat) : Val :=
  if bits sc 0 6 = 63 then .nan else .fin (bit code 3) (mag8 (bits sc 6 2) (bits code 0 3)) ((bits sc 0 6 : Int) - 35)

/-- An MX element under scale byte `c` (04 R70). -/
def decodeMx (t : Ty) (c x : Nat) : Val :=
  if c = 255 then .nan else (decodeTy t x).scale ((c : Int) - 127)

/-! ## Rounding into a MAG table (04 R84) -/

/-- The largest index of the table whose entry, times `den`, is at most `num`. -/
def magFloor (ty num den : Nat) : Nat → Nat
  | 0 => 0
  | m + 1 => if mag8 ty (m + 1) * den ≤ num then m + 1 else magFloor ty num den m

/-- The code, flags and decoded value of `x` at scale exponent `e` of table `ty`. -/
def hb4Code (ty : Nat) (e : Nat) (rm : Rm) (r : Nat) (x : Val) : Nat × Flags × Val :=
  let put (neg : Bool) (m : Nat) (f : Flags) : Nat × Flags × Val :=
    if m = 0 then (0, f, .fin false 0 0) else ((if neg then 8 else 0) + m, f, .fin neg (mag8 ty m) ((e : Int) - 35))
  match x with
  | .nan => (0, 0, .fin false 0 0)
  | .inf neg => put neg 7 Flags.satf
  | .fin neg m ex =>
    if m = 0 then (0, 0, .fin false 0 0)
    else
      let k : Int := ex + 35 - e
      let num := if 0 ≤ k then m * 2 ^ k.toNat else m
      let den := if 0 ≤ k then 1 else 2 ^ (-k).toNat
      if mag8 ty 7 * den ≤ num then
        put neg 7 (Flags.whenSet (decide (mag8 ty 7 * den < num)) (Flags.satf ||| Flags.nx))
      else
        let j := magFloor ty num den 7
        let rem := num - mag8 ty j * den
        if rem = 0 then put neg j 0
        else
          let span := (mag8 ty (j + 1) - mag8 ty j) * den
          let up := match rm with
            | .rne => decide (span < 2 * rem) || (decide (2 * rem = span) && decide ((j + 1) % 2 = 0))
            | .rtz => false
            | .rdn => neg
            | .rup => !neg
            | _ => decide (2 ^ 16 ≤ rem * 2 ^ 16 / span + r)
          let q := if up then j + 1 else j
          put neg q (Flags.nx ||| Flags.whenSet (decide (q = 0)) Flags.uf)

/-! ## MX quantisation (04 R85) -/

/-- One input of a block: its value, whether it is padding, its draw. -/
structure BlockIn where
  v : Val
  pad : Bool
  draw : Nat
  deriving DecidableEq, Repr

/-- The larger of two magnitudes. -/
def maxMag (a b : Val) : Val := if a.lt b.abs then b.abs else a

/-- The largest magnitude of the inputs that are not padding. -/
def blockMax (xs : List BlockIn) : Val :=
  xs.foldl (fun a x => if x.pad then a else maxMag a x.v) (.fin false 0 0)

/-- EMAX of an MX element type (04 R85). -/
def emaxMx : Ty → Int
  | .e4m3 => 8
  | .e5m2 => 15
  | .e3m2 => 4
  | _ => 2

/-- An input that gives the whole block the NaN scale. -/
def BlockIn.special (x : BlockIn) : Bool :=
  !x.pad && (match x.v with | .fin _ _ _ => false | _ => true)

/-- An MX block: its scale byte and its elements with the flags of each. -/
def quantMx (t : Ty) (rm : Rm) (fzo : Bool) (xs : List BlockIn) : Nat × List Conv :=
  if xs.any BlockIn.special then
    let f := Flags.whenSet (xs.any fun x => !x.pad && x.v.isNan) Flags.nv
    (255, xs.map fun _ => (0, f))
  else
    let c : Nat := match blockMax xs with
      | .fin _ m e => if m = 0 then 0 else (max 0 (min 254 ((m.log2 : Int) + e - emaxMx t + 127))).toNat
      | _ => 0
    (c, xs.map fun x => if x.pad then (0, 0) else convert t rm fzo true x.draw (x.v.scale (127 - (c : Int))))

/-! ## HB4 quantisation (04 R86) -/

/-- Inserts a candidate so that magnitudes fall and equal magnitudes keep their order. -/
def insertCand (v : Val) (i : Nat) : List (Val × Nat) → List (Val × Nat)
  | [] => [(v, i)]
  | (w, j) :: rest => if w.lt v then (v, i) :: (w, j) :: rest else (w, j) :: insertCand v i rest

/-- The candidates of a block in the order of election. -/
def candidates (thresh : Val) : Nat → List BlockIn → List (Val × Nat) → List (Val × Nat)
  | _, [], acc => acc
  | i, x :: xs, acc =>
    let takes := !x.pad && !x.v.isZero && !x.v.isNan && !thresh.isNan && thresh != .inf false && !x.v.abs.lt thresh
    candidates thresh (i + 1) xs (if takes then insertCand x.v.abs i acc else acc)

/-- The smallest scale exponent of table `ty` that holds every magnitude up to `top`; 62 if none. -/
def hb4Scale (ty : Nat) (top : Val) : Nat → Nat → Nat
  | 0, e => e
  | n + 1, e => if top.lt (.fin false (mag8 ty 7) ((e : Int) - 35)) || top.beq (.fin false (mag8 ty 7) ((e : Int) - 35))
      then e else hb4Scale ty top n (e + 1)

/-- The squared error of one element; none for an infinity. -/
def sqErr (x d : Val) : Val :=
  let y := (x.add .rne d.negate).1
  (y.mul y).1

/-- A finished HB4 block. -/
structure Hb4Block where
  scale : Nat
  codes : List Nat
  /-- the BF16 words of the elected elements, in position order -/
  burls : List Nat
  flags : Flags
  /-- candidates beyond the free slots -/
  beyond : Nat
  deriving DecidableEq, Repr

/-- The trial of one table: exponent, squared error, codes, flags. -/
def hb4Trial (rm : Rm) (rest : List (BlockIn × Bool)) (ty : Nat) : Nat × Val × List Nat × Flags :=
  let kept := rest.filter fun x => !x.1.pad && !x.2
  let top := blockMax (kept.map (·.1))
  let e := hb4Scale ty top 62 0
  let cs := rest.map fun x =>
    if x.1.pad || x.2 then (0, (0 : Flags), Val.fin false 0 0) else hb4Code ty e rm x.1.draw x.1.v
  let sse := (rest.zip cs).foldl (fun a x =>
    if x.1.1.pad || x.1.2 then a else (a.add .rne (sqErr x.1.1.v x.2.2.2)).1) (Val.fin false 0 0)
  (e, sse, cs.map (·.1), cs.foldl (fun f c => f ||| c.2.1) 0)

/-- The trial with the least squared error; ties go to the lower table. -/
def bestTrial (rm : Rm) (rest : List (BlockIn × Bool)) : List Nat → Nat × (Nat × Val × List Nat × Flags)
  | [] => (0, hb4Trial rm rest 0)
  | [t] => (t, hb4Trial rm rest t)
  | t :: ts =>
    let a := hb4Trial rm rest t
    let b := bestTrial rm rest ts
    if b.2.2.1.lt a.2.1 then b else (t, a)

/-- HB4 quantisation of one block with `free` burl slots; `ty` 4 is AUTO. -/
def quantHb4 (ty : Nat) (thresh : Val) (rm : Rm) (free : Nat) (xs : List BlockIn) : Hb4Block :=
  if xs.all BlockIn.pad then ⟨0, xs.map fun _ => 0, [], 0, 0⟩
  else if xs.any fun x => !x.pad && x.v.isNan then ⟨0x3F, xs.map fun _ => 0, [], Flags.nv, 0⟩
  else
    let cand := candidates thresh 0 xs []
    let elect := (cand.take free).map (·.2)
    let rest := xs.zipIdx.map fun x => (x.1, elect.contains x.2)
    let best := bestTrial rm rest (if ty = 4 then [0, 1, 2, 3] else [ty])
    let codes := (rest.zip best.2.2.2.1).map fun x => if x.1.2 then 8 else x.2
    let burls := (rest.filter (·.2)).map fun x => convert .bf16 .rne false false 0 x.1.v
    let fl := burls.foldl (fun f c => f ||| c.2) best.2.2.2.2
    ⟨best.1 * 64 + best.2.1, codes, burls.map (·.1),
      fl ||| Flags.whenSet (decide (free < cand.length)) Flags.burlOvf, cand.length - free⟩

/-! ## Tiles (04 R72, R73) -/

/-- The bytes of an HB4 tile. -/
def hb4TileBytes : Nat := 2560

/-- The byte offset and nibble of the element of row `r` and column `c`. -/
def hb4CodeAt (r c : Nat) : Nat × Nat := (32 * r + c / 2, c % 2)

/-- The offset of the scale byte of row `r`, column `c`. -/
def hb4ScaleAt (r c : Nat) : Nat := 2048 + 2 * r + c / 32

/-- The offset of burl slot `k`. -/
def hb4SlotAt (k : Nat) : Nat := 2184 + 2 * k

/-- The escapes among the first `n` codes of a tile given by its bytes. -/
def escapesBefore (byte : Nat → Nat) : Nat → Nat
  | 0 => 0
  | n + 1 => escapesBefore byte n + (if bits (byte (n / 2)) (4 * (n % 2)) 4 = 8 then 1 else 0)

/-- The tile's header fits its codes (04 R73): the count of escapes equals the burl count, at most 64, the capacity is
64 and the reserved word is zero. The answer is the header count and the counted escapes where it does not. -/
def hb4HeaderBad (byte : Nat → Nat) : Option (Nat × Nat) :=
  let cnt := byte 2176 + 256 * byte 2177
  let cap := byte 2178 + 256 * byte 2179
  let rsv := byte 2180 + byte 2181 + byte 2182 + byte 2183
  let esc := escapesBefore byte 4096
  if cnt = esc ∧ cnt ≤ 64 ∧ cap = 64 ∧ rsv = 0 then none else some (cnt, esc)

/-- The value of element (r, c) of a tile. -/
def hb4TileElem (byte : Nat → Nat) (r c : Nat) : Val :=
  let code := bits (byte (32 * r + c / 2)) (4 * (c % 2)) 4
  let sc := byte (hb4ScaleAt r c)
  if bits sc 0 6 = 63 then .nan
  else if code = 8 then
    let k := escapesBefore byte (64 * r + c)
    decodeTy .bf16 (byte (hb4SlotAt k) + 256 * byte (hb4SlotAt k + 1))
  else decodeHb4 sc code

end Sys2Proof.Machine
end

