-- ==== Sys2Proof/Decode.lean ====
section
/-! DEFINITION. From words to instructions and back: the formats (02 R47), the opcode maps (02 R51-R54), what a
line's header says (02 R30-R34), and an encoder written from the same tables. -/

namespace Sys2Proof

/-- The class a header nibble names; codes 7 to 15 are reserved (02 R31). -/
def LaneClass.ofCode : Nat → Option LaneClass
  | 0 => some .empty
  | 1 => some .scal
  | 2 => some .vec
  | 3 => some .mat
  | 4 => some .copy
  | 5 => some .cont
  | 6 => some .sys
  | _ => none

/-- The code of a lane class (02 R31). -/
def LaneClass.code : LaneClass → Nat
  | .empty => 0 | .scal => 1 | .vec => 2 | .mat => 3 | .copy => 4 | .cont => 5 | .sys => 6

/-- The scope3 code (02 R49). -/
def Scope.code : Scope → Nat
  | .core => 0 | .clearing => 1 | .die => 2 | .package => 3 | .fabric => 4

/-- The scope a scope3 code names (02 R49). -/
def Scope.ofCode : Nat → Option Scope
  | 0 => some .core
  | 1 => some .clearing
  | 2 => some .die
  | 3 => some .package
  | 4 => some .fabric
  | _ => none

/-- The rm3 code (02 R49). -/
def Rm.code : Rm → Nat
  | .rne => 0 | .rtz => 1 | .rdn => 2 | .rup => 3 | .sr => 4 | .dyn => 5

/-- The rounding mode an rm3 code names (02 R49). -/
def Rm.ofCode : Nat → Option Rm
  | 0 => some .rne
  | 1 => some .rtz
  | 2 => some .rdn
  | 3 => some .rup
  | 4 => some .sr
  | 5 => some .dyn
  | _ => none

/-- The cond3 code (02 R49). -/
def Cond.code : Cond → Nat
  | .eq => 0 | .ne => 1 | .lt => 2 | .ge => 3 | .ltn => 4 | .gen => 5 | .any => 6 | .none => 7

/-- The condition of a cond3 code; all eight are defined (02 R49). -/
def Cond.ofCode (n : Nat) : Cond :=
  match n with
  | 0 => .eq | 1 => .ne | 2 => .lt | 3 => .ge | 4 => .ltn | 5 => .gen | 6 => .any | _ => .none

/-- The nul2 code (02 R49). -/
def Nul.code : Nul → Nat
  | .never => 0 | .notTaken => 1 | .taken => 2 | .always => 3

/-- The nullification of a nul2 code (02 R49). -/
def Nul.ofCode (n : Nat) : Nul :=
  match n with
  | 0 => .never | 1 => .notTaken | 2 => .taken | _ => .always

/-- The path code of `FENCE` (02 R49). -/
def Path.code : Path → Nat
  | .s => 0 | .v => 1 | .c => 2 | .m => 3 | .t => 4

/-- The path a code of `FENCE` names (02 R49). -/
def Path.ofCode : Nat → Option Path
  | 0 => some .s
  | 1 => some .v
  | 2 => some .c
  | 3 => some .m
  | 4 => some .t
  | _ => none

/-- The eng2 code (02 R48). -/
def Eng.code : Eng → Nat
  | .ve => 0 | .me => 1 | .cp => 2

/-- The sequencer an eng2 code selects (02 R48). -/
def Eng.ofCode : Nat → Option Eng
  | 0 => some .ve
  | 1 => some .me
  | 2 => some .cp
  | _ => none

/-- The ty4 code (02 R49). -/
def Ty.code : Ty → Nat
  | .f32 => 0 | .bf16 => 1 | .f16 => 2 | .e5m2 => 3 | .e4m3 => 4 | .e3m2 => 5 | .e2m3 => 6 | .e2m1 => 7
  | .i32 => 8 | .i16 => 9 | .i8 => 10 | .i4 => 11 | .n32 => 12 | .n16 => 13 | .n8 => 14 | .hb4 => 15

/-- The element type of a ty4 code; all sixteen are defined (02 R49). -/
def Ty.ofCode (n : Nat) : Ty :=
  match n with
  | 0 => .f32 | 1 => .bf16 | 2 => .f16 | 3 => .e5m2 | 4 => .e4m3 | 5 => .e3m2 | 6 => .e2m3 | 7 => .e2m1
  | 8 => .i32 | 9 => .i16 | 10 => .i8 | 11 => .i4 | 12 => .n32 | 13 => .n16 | 14 => .n8 | _ => .hb4

/-- A word cut at bit `lo`, as a number below `n`. -/
def fin (n : Nat) [NeZero n] (w lo : Nat) : Fin n := Fin.ofNat n (w / 2 ^ lo)
/-- A word cut at bit `lo`, as `len` bits. -/
def field (len w lo : Nat) : BitVec len := BitVec.ofNat len (w / 2 ^ lo)
/-- The bit of a Boolean field. -/
def flag (b : Bool) : Nat := if b then 1 else 0

/-- SA (02 R47). -/
def readSa (w : Nat) : Sa := ⟨fin 32 w 21, fin 32 w 16, fin 32 w 11⟩
/-- SI (02 R47). -/
def readSi (w : Nat) : Si := ⟨fin 32 w 21, fin 32 w 16, field 16 w 0⟩
/-- SL (02 R47); bits 19 to 0 are zero. -/
def readSl (w c : Nat) : Except BadWord Sl :=
  if bits w 0 20 = 0 then .ok ⟨fin 32 w 21, field 32 c 0⟩ else .error (.mustBeZero .scal (bits w 26 6))
/-- SF (02 R47). -/
def readSf (w : Nat) : Sf := ⟨fin 32 w 21, fin 32 w 16, fin 64 w 10, fin 64 w 4⟩
/-- SF2 (02 R47). -/
def readSf2 (w : Nat) : Sf2 := ⟨fin 32 w 21, fin 32 w 16, fin 32 w 11, fin 64 w 5⟩
/-- SA+C (02 R47); `fn` and the low half of CONT are zero. -/
def readSac (w c : Nat) : Except BadWord Sac :=
  if bits w 0 11 = 0 ∧ bits c 0 16 = 0 then
    .ok ⟨fin 32 w 21, fin 32 w 16, fin 32 w 11, fin 32 c 27, fin 32 c 22, fin 64 c 16⟩
  else .error (.mustBeZero .scal (bits w 26 6))
/-- SB (02 R47). -/
def readSb (w : Nat) : Except BadWord Sb :=
  .ok ⟨fin 32 w 21, field 5 w 16, Cond.ofCode (bits w 13 3), Nul.ofCode (bits w 11 2), field 11 w 0⟩
/-- SJ (02 R47). -/
def readSj (w : Nat) : Sj := ⟨fin 32 w 21, field 21 w 0⟩
/-- SM (02 R47). -/
def readSm (w : Nat) : Except BadWord Sm :=
  match Scope.ofCode (bits w 0 3) with
  | some sc => .ok ⟨fin 32 w 21, fin 32 w 16, field 9 w 7, bit w 6, fin 8 w 3, sc⟩
  | none => .error (.badCode .scal (bits w 26 6))
/-- SW (02 R47). -/
def readSw (w : Nat) : Except BadWord Sw :=
  if bits w 8 18 = 0 then .ok ⟨field 8 w 0⟩ else .error (.mustBeZero .scal (bits w 26 6))
/-- SN (02 R47). -/
def readSn (w : Nat) : Except BadWord Sn :=
  if bits w 3 17 = 0 then
    match Path.ofCode (bits w 23 3), Path.ofCode (bits w 20 3), Scope.ofCode (bits w 0 3) with
    | some a, some b, some sc => .ok ⟨a, b, sc⟩
    | _, _, _ => .error (.badCode .scal (bits w 26 6))
  else .error (.mustBeZero .scal (bits w 26 6))
/-- SE (02 R47). -/
def readSe (w : Nat) : Except BadWord Se :=
  if bits w 0 16 = 0 then
    match Eng.ofCode (bits w 24 2) with
    | some e => .ok ⟨e, fin 8 w 21, fin 32 w 16⟩
    | none => .error (.badCode .scal (bits w 26 6))
  else .error (.mustBeZero .scal (bits w 26 6))
/-- SA with a cause in the low byte of `fn` (12 R365). -/
def readAct (w : Nat) : Except BadWord Act :=
  if bits w 8 3 = 0 ∧ bits w 21 5 = 0 then .ok ⟨fin 32 w 16, fin 32 w 11, field 8 w 0⟩
  else .error (.mustBeZero .sys (bits w 26 6))
/-- VA (02 R47). -/
def readVa (w : Nat) : Va := ⟨fin 64 w 20, fin 64 w 14, fin 64 w 8, fin 16 w 4, Ty.ofCode (bits w 0 4)⟩
/-- VA with a scope in ty4 (08 R224). -/
def readVg (w : Nat) : Except BadWord Vg :=
  match Scope.ofCode (bits w 0 4) with
  | some sc => .ok ⟨fin 64 w 20, fin 64 w 14, fin 64 w 8, fin 16 w 4, sc⟩
  | none => .error (.badCode .vec (bits w 26 6))
/-- VA of `PRED`: three predicates, p4 zero (02 R53). -/
def readPr (w : Nat) : Except BadWord Pr :=
  if bits w 4 4 = 0 then
    if bits w 24 2 = 0 ∧ bits w 18 2 = 0 ∧ bits w 12 2 = 0 then
      .ok ⟨fin 16 w 20, fin 16 w 14, fin 16 w 8⟩
    else .error (.badOperand .vec (bits w 26 6))
  else .error (.mustBeZero .vec (bits w 26 6))
/-- VA of `VLOOP` (05 R133). -/
def readVl (w : Nat) : Except BadWord Vl :=
  if bits w 0 8 = 0 ∧ bits w 21 5 = 0 then
    if bits w 17 3 = 0 then .ok ⟨bit w 20, fin 8 w 14, fin 64 w 8⟩ else .error (.badOperand .vec (bits w 26 6))
  else .error (.mustBeZero .vec (bits w 26 6))
/-- VX (02 R47). -/
def readVx (w c : Nat) : Except BadWord Vx :=
  match Rm.ofCode (bits c 23 3) with
  | some rm => .ok ⟨fin 64 w 20, fin 64 w 14, fin 64 w 8, fin 16 w 4, Ty.ofCode (bits w 0 4), fin 64 c 26, rm,
      bit c 22, bit c 21, bit c 20, Ty.ofCode (bits c 16 4), field 16 c 0⟩
  | none => .error (.badCode .vec (bits w 26 6))
/-- MM (02 R47). -/
def readMm (w : Nat) : Except BadWord Mm :=
  if bits w 0 3 = 0 then .ok ⟨fin 4 w 24, field 8 w 16, fin 32 w 11, fin 256 w 3⟩
  else .error (.mustBeZero .mat (bits w 26 6))
/-- CX (02 R47, R48); z-register codes 16 to 31 name nothing. -/
def readCx (w c : Nat) : Except BadWord Cx :=
  if bits c 0 8 = 0 then
    if bits c 21 1 = 0 ∧ bits c 16 1 = 0 then
      .ok ⟨field 8 w 18, fin 32 w 13, fin 32 w 8, fin 32 w 3, bit w 2, bit w 1, bit w 0, fin 32 c 27, fin 32 c 22,
        fin 16 c 17, fin 16 c 12, fin 4 c 10, bit c 9, bit c 8⟩
    else .error (.badOperand .copy (bits w 26 6))
  else .error (.mustBeZero .copy (bits w 26 6))

/-- The SCAL majors (02 R51). `w` is the opening word, `c` its CONT word. -/
def parseScal (w c : Nat) : Except BadWord Instr :=
  match bits w 26 6 with
  | 0 =>
    match bits w 0 11 with
    | 0 => .ok (.add (readSa w))
    | 1 => .ok (.sub (readSa w))
    | 2 => .ok (.mul (readSa w))
    | 3 => .ok (.mulh (readSa w))
    | 4 => .ok (.mulhn (readSa w))
    | 5 => .ok (.div (readSa w))
    | 6 => .ok (.divn (readSa w))
    | 7 => .ok (.rem (readSa w))
    | 8 => .ok (.remn (readSa w))
    | 9 => .ok (.and (readSa w))
    | 10 => .ok (.or (readSa w))
    | 11 => .ok (.xor (readSa w))
    | 12 => .ok (.andn (readSa w))
    | 13 => .ok (.shl (readSa w))
    | 14 => .ok (.shr (readSa w))
    | 15 => .ok (.sar (readSa w))
    | 16 => .ok (.min (readSa w))
    | 17 => .ok (.max (readSa w))
    | 18 => .ok (.minn (readSa w))
    | 19 => .ok (.maxn (readSa w))
    | 20 => .ok (.slt (readSa w))
    | 21 => .ok (.sltn (readSa w))
    | 22 => .ok (.seq (readSa w))
    | 23 => .ok (.sne (readSa w))
    | n => .error (.reservedMinor .scal 0 n)
  | 1 => .ok (.addi (readSi w))
  | 2 => .ok (.andi (readSi w))
  | 3 => .ok (.ori (readSi w))
  | 4 => .ok (.xori (readSi w))
  | 5 => .ok (.slti (readSi w))
  | 6 => .ok (.sltni (readSi w))
  | 7 => .ok (.ldi (readSi w))
  | 8 => (readSl w c).map (if bit w 20 then .ldixHi else .ldix)
  | 9 =>
    match bits w 0 4 with
    | 0 => .ok (.shli (readSf w))
    | 1 => .ok (.shri (readSf w))
    | 2 => .ok (.sari (readSf w))
    | 3 => .ok (.roli (readSf w))
    | n => .error (.reservedMinor .scal 9 n)
  | 10 =>
    match bits w 0 4 with
    | 0 => .ok (.ext (readSf w))
    | 1 => .ok (.extn (readSf w))
    | 2 => .ok (.ins (readSf w))
    | 3 => .ok (.insz (readSf w))
    | n => .error (.reservedMinor .scal 10 n)
  | 11 =>
    match bits w 0 11 with
    | 0 => .ok (.insm (readSa w))
    | 1 => .ok (.clz (readSa w))
    | 2 => .ok (.ctz (readSa w))
    | 3 => .ok (.popc (readSa w))
    | 4 => .ok (.brev (readSa w))
    | 5 => .ok (.ffcs (readSa w))
    | 6 => .ok (.bswap (readSa w))
    | n => .error (.reservedMinor .scal 11 n)
  | 12 =>
    match bits w 0 5 with
    | 0 => .ok (.fshi (readSf2 w))
    | n => .error (.reservedMinor .scal 12 n)
  | 13 => (readSac w c).map .fsh
  | 14 =>
    match bits w 0 5 with
    | 0 => .ok (.plset (readSf2 w))
    | n => .error (.reservedMinor .scal 14 n)
  | 16 => (readSb w).map .bc
  | 17 => (readSb w).map .bci
  | 18 => .ok (.j (readSj w))
  | 19 =>
    match bits w 0 11 with
    | 0 => .ok (.jr (readSa w))
    | n => .error (.reservedMinor .scal 19 n)
  | 24 => (readSm w).map .ldb
  | 25 => (readSm w).map .ldbn
  | 26 => (readSm w).map .ldh
  | 27 => (readSm w).map .ldhn
  | 28 => (readSm w).map .ldw
  | 29 => (readSm w).map .ldwn
  | 30 => (readSm w).map .ldd
  | 31 => (readSm w).map .lda
  | 32 => (readSm w).map .stb
  | 33 => (readSm w).map .sth
  | 34 => (readSm w).map .stw
  | 35 => (readSm w).map .std
  | 36 => (readSm w).map .stl
  | 37 => (readSw w).map .waitw
  | 38 => (readSn w).map .fence
  | 39 =>
    match bits w 0 11 with
    | 0 => .ok (.tlook (readSa w))
    | 1 => .ok (.tset (readSa w))
    | 2 => .ok (.tclr (readSa w))
    | n => .error (.reservedMinor .scal 39 n)
  | 40 =>
    match bits w 0 11 with
    | 0 => .ok (.getres (readSa w))
    | n => .error (.reservedMinor .scal 40 n)
  | 41 =>
    match bits w 0 11 with
    | 0 => .ok (.evwait (readSa w))
    | 1 => .ok (.evpop (readSa w))
    | 2 => .ok (.evpeek (readSa w))
    | n => .error (.reservedMinor .scal 41 n)
  | 42 => (readSe w).map .setb
  | 43 =>
    match bits w 0 11 with
    | 0 => .ok (.barinit (readSa w))
    | 1 => .ok (.barexp (readSa w))
    | 2 => .ok (.bararr (readSa w))
    | 3 => .ok (.barwait (readSa w))
    | 4 => .ok (.bartest (readSa w))
    | n => .error (.reservedMinor .scal 43 n)
  | 44 =>
    match bits w 0 11 with
    | 0 => .ok (.spawn (readSa w))
    | 1 => .ok (.joinwait (readSa w))
    | 2 => .ok (.yield (readSa w))
    | 3 => .ok (.done (readSa w))
    | 4 => .ok (.tbound (readSa w))
    | 5 => .ok (.hintnext (readSa w))
    | 6 => .ok (.waitpred (readSa w))
    | 7 => .ok (.bufpass (readSa w))
    | 8 => .ok (.buftake (readSa w))
    | 9 => .ok (.buffree (readSa w))
    | n => .error (.reservedMinor .scal 44 n)
  | 45 => (readSac w c).map .spawnx
  | 46 =>
    match bits w 0 11 with
    | 0 => .ok (.sqappend (readSa w))
    | 1 => .ok (.sqconfirm (readSa w))
    | 2 => .ok (.sqstate (readSa w))
    | 3 => .ok (.wset (readSa w))
    | 4 => .ok (.wclr (readSa w))
    | 5 => .ok (.wget (readSa w))
    | n => .error (.reservedMinor .scal 46 n)
  | 47 =>
    match bits w 0 11 with
    | 0 => .ok (.zwait (readSa w))
    | 1 => .ok (.zdrop (readSa w))
    | 2 => .ok (.ztest (readSa w))
    | n => .error (.reservedMinor .scal 47 n)
  | 48 =>
    match bits w 0 11 with
    | 0 => .ok (.rdcyc (readSa w))
    | 1 => .ok (.rdid (readSa w))
    | 2 => .ok (.rdfeat (readSa w))
    | n => .error (.reservedMinor .scal 48 n)
  | n => .error (.reservedMajor .scal n)

/-- The SYS majors (02 R52). `w` is the opening word, `c` its CONT word. -/
def parseSys (w : Nat) : Except BadWord Instr :=
  match bits w 26 6 with
  | 0 => .ok (.mfcr (readSi w))
  | 1 => .ok (.mtcr (readSi w))
  | 2 => .ok (.trapi (readSi w))
  | 3 => .ok (.brk (readSi w))
  | 4 =>
    match bits w 0 11 with
    | 0 => .ok (.tlbinvCtx (readSa w))
    | 1 => .ok (.tlbinvPage (readSa w))
    | 2 => .ok (.tlbinvAll (readSa w))
    | n => .error (.reservedMinor .sys 4 n)
  | 5 => (readAct w).map .actset
  | 6 =>
    match bits w 0 11 with
    | 0 => .ok (.resume (readSa w))
    | n => .error (.reservedMinor .sys 6 n)
  | 7 =>
    match bits w 0 11 with
    | 0 => .ok (.halt (readSa w))
    | n => .error (.reservedMinor .sys 7 n)
  | 8 =>
    match bits w 0 11 with
    | 0 => .ok (.wdogPet (readSa w))
    | 1 => .ok (.wdogExpire (readSa w))
    | 2 => .ok (.wdogCorerst (readSa w))
    | 3 => .ok (.wdogDierst (readSa w))
    | n => .error (.reservedMinor .sys 8 n)
  | 9 =>
    match bits w 0 11 with
    | 0 => .ok (.featset (readSa w))
    | n => .error (.reservedMinor .sys 9 n)
  | 10 =>
    match bits w 0 11 with
    | 0 => .ok (.parkpop (readSa w))
    | n => .error (.reservedMinor .sys 10 n)
  | n => .error (.reservedMajor .sys n)

/-- The VEC majors (02 R53). `w` is the opening word, `c` its CONT word. -/
def parseVec (w c : Nat) : Except BadWord Instr :=
  match bits w 26 6 with
  | 0 => .ok (.vadd (readVa w))
  | 1 => .ok (.vsub (readVa w))
  | 2 => .ok (.vmul (readVa w))
  | 3 => .ok (.vmin (readVa w))
  | 4 => .ok (.vmax (readVa w))
  | 5 => .ok (.vabs (readVa w))
  | 6 => .ok (.vneg (readVa w))
  | 7 => .ok (.vmov (readVa w))
  | 8 => (readVx w c).map .vfma
  | 9 => (readVx w c).map .vfms
  | 10 => (readVx w c).map .vcmp
  | 11 => .ok (.vsel (readVa w))
  | 12 => .ok (.vexp2 (readVa w))
  | 13 => .ok (.vlog2 (readVa w))
  | 14 => .ok (.vrcp (readVa w))
  | 15 => .ok (.vrsq (readVa w))
  | 16 => .ok (.vsqrt (readVa w))
  | 17 => .ok (.vand (readVa w))
  | 18 => .ok (.vor (readVa w))
  | 19 => .ok (.vxor (readVa w))
  | 20 => .ok (.vshl (readVa w))
  | 21 => .ok (.vshr (readVa w))
  | 22 => .ok (.vsar (readVa w))
  | 23 => .ok (.vpopc (readVa w))
  | 24 => (readVx w c).map .vimad
  | 25 => (readVx w c).map .vcvt
  | 26 => (readVx w c).map .vquant
  | 27 => (readVx w c).map .vdeq
  | 28 => .ok (.vamax (readVa w))
  | 29 => .ok (.vpack (readVa w))
  | 30 => .ok (.vunpk (readVa w))
  | 31 => .ok (.vshuf (readVa w))
  | 32 => .ok (.vrot (readVa w))
  | 33 => .ok (.vbcast (readVa w))
  | 34 => .ok (.vins (readVa w))
  | 35 =>
    match bits w 8 6 with
    | 0 => .ok (.vredAdd { readVa w with b := 0 })
    | 1 => .ok (.vredMin { readVa w with b := 0 })
    | 2 => .ok (.vredMax { readVa w with b := 0 })
    | 3 => .ok (.vredAmax { readVa w with b := 0 })
    | 4 => .ok (.vredAnd { readVa w with b := 0 })
    | 5 => .ok (.vredOr { readVa w with b := 0 })
    | 6 => .ok (.vredXor { readVa w with b := 0 })
    | n => .error (.reservedMinor .vec 35 n)
  | 36 => .ok (.vld (readVa w))
  | 37 => .ok (.vst (readVa w))
  | 38 => .ok (.vgath (readVa w))
  | 39 => .ok (.vscat (readVa w))
  | 40 => (readVg w).map .vldg
  | 41 => (readVg w).map .vstg
  | 42 => (readVx w c).map .accrd
  | 43 => (readVx w c).map .accwr
  | 44 => .ok (.commit (readVa w))
  | 45 => (readVx w c).map .gcfg
  | 46 => (readVl w).map .vloop
  | 47 => .ok (.vlend (readVa w))
  | 48 =>
    match bits w 0 4 with
    | 0 => (readPr w).map .pset
    | 1 => (readPr w).map .pand
    | 2 => (readPr w).map .por
    | 3 => (readPr w).map .pxor
    | 4 => (readPr w).map .pnot
    | 5 => (readPr w).map .pandn
    | n => .error (.reservedMinor .vec 48 n)
  | 49 => .ok (.pcnt (readVa w))
  | 50 => .ok (.vrand (readVa w))
  | 51 => .ok (.vseed (readVa w))
  | 52 => (readVx w c).map .vtopk
  | 53 => (readVx w c).map .vdraw
  | n => .error (.reservedMajor .vec n)

/-- The MAT majors (02 R54). `w` is the opening word, `c` its CONT word. -/
def parseMat (w : Nat) : Except BadWord Instr :=
  match bits w 26 6 with
  | 0 => (readMm w).map .mcfg
  | 1 => (readMm w).map (if bit w 16 then .mmaAcca else .mma)
  | 2 => (readMm w).map .mspa
  | 3 => (readMm w).map .mzero
  | 4 => (readMm w).map (if bit w 17 then .mdrainMerge else .mdrain)
  | 5 => (readMm w).map .mstat
  | n => .error (.reservedMajor .mat n)

/-- The COPY majors (02 R54). `w` is the opening word, `c` its CONT word. -/
def parseCopy (w c : Nat) : Except BadWord Instr :=
  match bits w 26 6 with
  | 0 => (readCx w c).map .copy
  | 1 => (readCx w c).map .copyf
  | 2 => (readCx w c).map .cpb
  | 3 => (readCx w c).map .cph
  | 4 => (readCx w c).map .atom
  | 5 => (readCx w c).map .atomf
  | 6 => (readCx w c).map .subs
  | 7 => (readCx w c).map .unsub
  | 8 => (readCx w c).map .pull
  | 9 => (readCx w c).map .rrot
  | 10 => (readCx w c).map .pref
  | 11 => (readCx w c).map .invc
  | 12 => (readCx w c).map .wbc
  | n => .error (.reservedMajor .copy n)

/-- A word of a class names a 64-bit form, so that a CONT lane must follow it (02 R33). -/
def opens64 (cls : LaneClass) (w : Nat) : Bool :=
  let k := bits w 26 6
  match cls with
  | .scal => k == 0x08 || k == 0x0D || k == 0x2D
  | .vec => k == 0x08 || k == 0x09 || k == 0x0A || (decide (0x18 ≤ k) && decide (k ≤ 0x1B)) || k == 0x2A || k == 0x2B
      || k == 0x2D || k == 0x34 || k == 0x35
  | .copy => decide (k ≤ 0x0C)
  | _ => false

/-- The instruction that a lane of class `cls` opens, from its word and its CONT word; what is not one is rejected
by the row of 02 R55 it meets. -/
def decode (cls : LaneClass) (w c : Nat) : Except BadWord Instr :=
  let r := match cls with
    | .scal => parseScal w c
    | .sys => parseSys w
    | .vec => parseVec w c
    | .mat => parseMat w
    | .copy => parseCopy w c
    | _ => .error .notALane
  match r with
  | .ok i => if i.wf then .ok i else .error (.badOperand cls (bits w 26 6))
  | .error e => .error e

/-- The lane class of lane `i` (1 to 7) that header `h` gives (02 R30). -/
def headerClass (h i : Nat) : Option LaneClass := LaneClass.ofCode (bits h (4 * i) 4)

/-- The rule on lanes `i`, `i+1`, … of a line: `prev` says the lane before opened a 64-bit form (02 R34). -/
def lanesOk (h : Nat) : Nat → List Nat → Bool → Bool
  | _, [], prev => !prev
  | i, w :: ws, prev =>
    match headerClass h i with
    | none => false
    | some .cont => prev && lanesOk h (i + 1) ws false
    | some cls => !prev && lanesOk h (i + 1) ws (opens64 cls w)

/-- The structure check of a line, from its header and the words of lanes 1 to 7 (02 R34). -/
def lineOk (h : Nat) (ws : List Nat) : Bool := bits h 0 4 == 0 && lanesOk h 1 ws false

/-! ## The encoder -/

/-- SA. -/
def wordSa (k fn : Nat) (o : Sa) : Nat := k * 2 ^ 26 + o.d.val * 2 ^ 21 + o.a.val * 2 ^ 16 + o.b.val * 2 ^ 11 + fn
/-- SI. -/
def wordSi (k : Nat) (o : Si) : Nat := k * 2 ^ 26 + o.d.val * 2 ^ 21 + o.a.val * 2 ^ 16 + o.imm.toNat
/-- SL; `h` is bit 20. -/
def wordSl (k h : Nat) (o : Sl) : Nat := k * 2 ^ 26 + o.d.val * 2 ^ 21 + h * 2 ^ 20
/-- SL, CONT. -/
def contSl (o : Sl) : Nat := o.imm.toNat
/-- SF. -/
def wordSf (k fn : Nat) (o : Sf) : Nat :=
  k * 2 ^ 26 + o.d.val * 2 ^ 21 + o.a.val * 2 ^ 16 + o.pos.val * 2 ^ 10 + o.len6.val * 2 ^ 4 + fn
/-- SF2. -/
def wordSf2 (k fn : Nat) (o : Sf2) : Nat :=
  k * 2 ^ 26 + o.d.val * 2 ^ 21 + o.a.val * 2 ^ 16 + o.b.val * 2 ^ 11 + o.sh.val * 2 ^ 5 + fn
/-- SA+C. -/
def wordSac (k : Nat) (o : Sac) : Nat := k * 2 ^ 26 + o.d.val * 2 ^ 21 + o.a.val * 2 ^ 16 + o.b.val * 2 ^ 11
/-- SA+C, CONT. -/
def contSac (o : Sac) : Nat := o.c.val * 2 ^ 27 + o.e.val * 2 ^ 22 + o.fl6.val * 2 ^ 16
/-- SB. -/
def wordSb (k : Nat) (o : Sb) : Nat :=
  k * 2 ^ 26 + o.a.val * 2 ^ 21 + o.b.toNat * 2 ^ 16 + o.cond.code * 2 ^ 13 + o.nul.code * 2 ^ 11 + o.disp.toNat
/-- SJ. -/
def wordSj (k : Nat) (o : Sj) : Nat := k * 2 ^ 26 + o.link.val * 2 ^ 21 + o.disp.toNat
/-- SM. -/
def wordSm (k : Nat) (o : Sm) : Nat :=
  k * 2 ^ 26 + o.t.val * 2 ^ 21 + o.a.val * 2 ^ 16 + o.off.toNat * 2 ^ 7 + flag o.sen * 2 ^ 6 + o.slot.val * 2 ^ 3
    + o.scope.code
/-- SW. -/
def wordSw (k : Nat) (o : Sw) : Nat := k * 2 ^ 26 + o.mask.toNat
/-- SN. -/
def wordSn (k : Nat) (o : Sn) : Nat := k * 2 ^ 26 + o.pathA.code * 2 ^ 23 + o.pathB.code * 2 ^ 20 + o.scope.code
/-- SE. -/
def wordSe (k : Nat) (o : Se) : Nat := k * 2 ^ 26 + o.eng.code * 2 ^ 24 + o.idx.val * 2 ^ 21 + o.a.val * 2 ^ 16
/-- ACTSET. -/
def wordAct (k : Nat) (o : Act) : Nat := k * 2 ^ 26 + o.a.val * 2 ^ 16 + o.b.val * 2 ^ 11 + o.cause.toNat
/-- VA. -/
def wordVa (k : Nat) (o : Va) : Nat :=
  k * 2 ^ 26 + o.d.val * 2 ^ 20 + o.a.val * 2 ^ 14 + o.b.val * 2 ^ 8 + o.p.val * 2 ^ 4 + o.ty.code
/-- VA with a scope. -/
def wordVg (k : Nat) (o : Vg) : Nat :=
  k * 2 ^ 26 + o.d.val * 2 ^ 20 + o.a.val * 2 ^ 14 + o.b.val * 2 ^ 8 + o.p.val * 2 ^ 4 + o.scope.code
/-- VA of PRED. -/
def wordPr (k fn : Nat) (o : Pr) : Nat := k * 2 ^ 26 + o.d.val * 2 ^ 20 + o.a.val * 2 ^ 14 + o.b.val * 2 ^ 8 + fn
/-- VA of VLOOP. -/
def wordVl (k : Nat) (o : Vl) : Nat := k * 2 ^ 26 + flag o.live * 2 ^ 20 + o.k.val * 2 ^ 14 + o.s.val * 2 ^ 8
/-- VX. -/
def wordVx (k : Nat) (o : Vx) : Nat :=
  k * 2 ^ 26 + o.d.val * 2 ^ 20 + o.a.val * 2 ^ 14 + o.b.val * 2 ^ 8 + o.p.val * 2 ^ 4 + o.ty.code
/-- VX, CONT. -/
def contVx (o : Vx) : Nat :=
  o.c.val * 2 ^ 26 + o.rm.code * 2 ^ 23 + flag o.fzi * 2 ^ 22 + flag o.fzo * 2 ^ 21 + flag o.sat * 2 ^ 20
    + o.dty.code * 2 ^ 16 + o.aux.toNat
/-- MM. -/
def wordMm (k : Nat) (o : Mm) : Nat :=
  k * 2 ^ 26 + o.acc.val * 2 ^ 24 + o.fl.toNat * 2 ^ 16 + o.s.val * 2 ^ 11 + o.fid.val * 2 ^ 3
/-- CX. -/
def wordCx (k : Nat) (o : Cx) : Nat :=
  k * 2 ^ 26 + o.xf.toNat * 2 ^ 18 + o.sa.val * 2 ^ 13 + o.sb.val * 2 ^ 8 + o.sc.val * 2 ^ 3 + flag o.rel * 2 ^ 2
    + flag o.acq * 2 ^ 1 + flag o.ntf
/-- CX, CONT. -/
def contCx (o : Cx) : Nat :=
  o.sd.val * 2 ^ 27 + o.se.val * 2 ^ 22 + o.za.val * 2 ^ 17 + o.zb.val * 2 ^ 12 + o.tc.val * 2 ^ 10
    + flag o.fol * 2 ^ 9 + flag o.chk * 2 ^ 8

/-- An encoded instruction: the class of its lane, its word and, for a 64-bit form, its CONT word. -/
structure Encoded where
  cls : LaneClass
  word : Nat
  cont : Option Nat
  deriving DecidableEq, Repr

/-- The encoding of an instruction; the steps of the package that no word encodes have none. -/
def encode : Instr → Option Encoded
  | .add o => some ⟨.scal, wordSa 0 0 o, none⟩
  | .sub o => some ⟨.scal, wordSa 0 1 o, none⟩
  | .mul o => some ⟨.scal, wordSa 0 2 o, none⟩
  | .mulh o => some ⟨.scal, wordSa 0 3 o, none⟩
  | .mulhn o => some ⟨.scal, wordSa 0 4 o, none⟩
  | .div o => some ⟨.scal, wordSa 0 5 o, none⟩
  | .divn o => some ⟨.scal, wordSa 0 6 o, none⟩
  | .rem o => some ⟨.scal, wordSa 0 7 o, none⟩
  | .remn o => some ⟨.scal, wordSa 0 8 o, none⟩
  | .and o => some ⟨.scal, wordSa 0 9 o, none⟩
  | .or o => some ⟨.scal, wordSa 0 10 o, none⟩
  | .xor o => some ⟨.scal, wordSa 0 11 o, none⟩
  | .andn o => some ⟨.scal, wordSa 0 12 o, none⟩
  | .shl o => some ⟨.scal, wordSa 0 13 o, none⟩
  | .shr o => some ⟨.scal, wordSa 0 14 o, none⟩
  | .sar o => some ⟨.scal, wordSa 0 15 o, none⟩
  | .min o => some ⟨.scal, wordSa 0 16 o, none⟩
  | .max o => some ⟨.scal, wordSa 0 17 o, none⟩
  | .minn o => some ⟨.scal, wordSa 0 18 o, none⟩
  | .maxn o => some ⟨.scal, wordSa 0 19 o, none⟩
  | .slt o => some ⟨.scal, wordSa 0 20 o, none⟩
  | .sltn o => some ⟨.scal, wordSa 0 21 o, none⟩
  | .seq o => some ⟨.scal, wordSa 0 22 o, none⟩
  | .sne o => some ⟨.scal, wordSa 0 23 o, none⟩
  | .addi o => some ⟨.scal, wordSi 1 o, none⟩
  | .andi o => some ⟨.scal, wordSi 2 o, none⟩
  | .ori o => some ⟨.scal, wordSi 3 o, none⟩
  | .xori o => some ⟨.scal, wordSi 4 o, none⟩
  | .slti o => some ⟨.scal, wordSi 5 o, none⟩
  | .sltni o => some ⟨.scal, wordSi 6 o, none⟩
  | .ldi o => some ⟨.scal, wordSi 7 o, none⟩
  | .ldix o => some ⟨.scal, wordSl 8 0 o, some (contSl o)⟩
  | .ldixHi o => some ⟨.scal, wordSl 8 1 o, some (contSl o)⟩
  | .shli o => some ⟨.scal, wordSf 9 0 o, none⟩
  | .shri o => some ⟨.scal, wordSf 9 1 o, none⟩
  | .sari o => some ⟨.scal, wordSf 9 2 o, none⟩
  | .roli o => some ⟨.scal, wordSf 9 3 o, none⟩
  | .ext o => some ⟨.scal, wordSf 10 0 o, none⟩
  | .extn o => some ⟨.scal, wordSf 10 1 o, none⟩
  | .ins o => some ⟨.scal, wordSf 10 2 o, none⟩
  | .insz o => some ⟨.scal, wordSf 10 3 o, none⟩
  | .insm o => some ⟨.scal, wordSa 11 0 o, none⟩
  | .clz o => some ⟨.scal, wordSa 11 1 o, none⟩
  | .ctz o => some ⟨.scal, wordSa 11 2 o, none⟩
  | .popc o => some ⟨.scal, wordSa 11 3 o, none⟩
  | .brev o => some ⟨.scal, wordSa 11 4 o, none⟩
  | .ffcs o => some ⟨.scal, wordSa 11 5 o, none⟩
  | .bswap o => some ⟨.scal, wordSa 11 6 o, none⟩
  | .fshi o => some ⟨.scal, wordSf2 12 0 o, none⟩
  | .fsh o => some ⟨.scal, wordSac 13 o, some (contSac o)⟩
  | .plset o => some ⟨.scal, wordSf2 14 0 o, none⟩
  | .bc o => some ⟨.scal, wordSb 16 o, none⟩
  | .bci o => some ⟨.scal, wordSb 17 o, none⟩
  | .j o => some ⟨.scal, wordSj 18 o, none⟩
  | .jr o => some ⟨.scal, wordSa 19 0 o, none⟩
  | .ldb o => some ⟨.scal, wordSm 24 o, none⟩
  | .ldbn o => some ⟨.scal, wordSm 25 o, none⟩
  | .ldh o => some ⟨.scal, wordSm 26 o, none⟩
  | .ldhn o => some ⟨.scal, wordSm 27 o, none⟩
  | .ldw o => some ⟨.scal, wordSm 28 o, none⟩
  | .ldwn o => some ⟨.scal, wordSm 29 o, none⟩
  | .ldd o => some ⟨.scal, wordSm 30 o, none⟩
  | .lda o => some ⟨.scal, wordSm 31 o, none⟩
  | .stb o => some ⟨.scal, wordSm 32 o, none⟩
  | .sth o => some ⟨.scal, wordSm 33 o, none⟩
  | .stw o => some ⟨.scal, wordSm 34 o, none⟩
  | .std o => some ⟨.scal, wordSm 35 o, none⟩
  | .stl o => some ⟨.scal, wordSm 36 o, none⟩
  | .waitw o => some ⟨.scal, wordSw 37 o, none⟩
  | .fence o => some ⟨.scal, wordSn 38 o, none⟩
  | .tlook o => some ⟨.scal, wordSa 39 0 o, none⟩
  | .tset o => some ⟨.scal, wordSa 39 1 o, none⟩
  | .tclr o => some ⟨.scal, wordSa 39 2 o, none⟩
  | .getres o => some ⟨.scal, wordSa 40 0 o, none⟩
  | .evwait o => some ⟨.scal, wordSa 41 0 o, none⟩
  | .evpop o => some ⟨.scal, wordSa 41 1 o, none⟩
  | .evpeek o => some ⟨.scal, wordSa 41 2 o, none⟩
  | .setb o => some ⟨.scal, wordSe 42 o, none⟩
  | .barinit o => some ⟨.scal, wordSa 43 0 o, none⟩
  | .barexp o => some ⟨.scal, wordSa 43 1 o, none⟩
  | .bararr o => some ⟨.scal, wordSa 43 2 o, none⟩
  | .barwait o => some ⟨.scal, wordSa 43 3 o, none⟩
  | .bartest o => some ⟨.scal, wordSa 43 4 o, none⟩
  | .spawn o => some ⟨.scal, wordSa 44 0 o, none⟩
  | .joinwait o => some ⟨.scal, wordSa 44 1 o, none⟩
  | .yield o => some ⟨.scal, wordSa 44 2 o, none⟩
  | .done o => some ⟨.scal, wordSa 44 3 o, none⟩
  | .tbound o => some ⟨.scal, wordSa 44 4 o, none⟩
  | .hintnext o => some ⟨.scal, wordSa 44 5 o, none⟩
  | .waitpred o => some ⟨.scal, wordSa 44 6 o, none⟩
  | .bufpass o => some ⟨.scal, wordSa 44 7 o, none⟩
  | .buftake o => some ⟨.scal, wordSa 44 8 o, none⟩
  | .buffree o => some ⟨.scal, wordSa 44 9 o, none⟩
  | .spawnx o => some ⟨.scal, wordSac 45 o, some (contSac o)⟩
  | .sqappend o => some ⟨.scal, wordSa 46 0 o, none⟩
  | .sqconfirm o => some ⟨.scal, wordSa 46 1 o, none⟩
  | .sqstate o => some ⟨.scal, wordSa 46 2 o, none⟩
  | .wset o => some ⟨.scal, wordSa 46 3 o, none⟩
  | .wclr o => some ⟨.scal, wordSa 46 4 o, none⟩
  | .wget o => some ⟨.scal, wordSa 46 5 o, none⟩
  | .zwait o => some ⟨.scal, wordSa 47 0 o, none⟩
  | .zdrop o => some ⟨.scal, wordSa 47 1 o, none⟩
  | .ztest o => some ⟨.scal, wordSa 47 2 o, none⟩
  | .rdcyc o => some ⟨.scal, wordSa 48 0 o, none⟩
  | .rdid o => some ⟨.scal, wordSa 48 1 o, none⟩
  | .rdfeat o => some ⟨.scal, wordSa 48 2 o, none⟩
  | .mfcr o => some ⟨.sys, wordSi 0 o, none⟩
  | .mtcr o => some ⟨.sys, wordSi 1 o, none⟩
  | .trapi o => some ⟨.sys, wordSi 2 o, none⟩
  | .brk o => some ⟨.sys, wordSi 3 o, none⟩
  | .tlbinvCtx o => some ⟨.sys, wordSa 4 0 o, none⟩
  | .tlbinvPage o => some ⟨.sys, wordSa 4 1 o, none⟩
  | .tlbinvAll o => some ⟨.sys, wordSa 4 2 o, none⟩
  | .actset o => some ⟨.sys, wordAct 5 o, none⟩
  | .resume o => some ⟨.sys, wordSa 6 0 o, none⟩
  | .halt o => some ⟨.sys, wordSa 7 0 o, none⟩
  | .wdogPet o => some ⟨.sys, wordSa 8 0 o, none⟩
  | .wdogExpire o => some ⟨.sys, wordSa 8 1 o, none⟩
  | .wdogCorerst o => some ⟨.sys, wordSa 8 2 o, none⟩
  | .wdogDierst o => some ⟨.sys, wordSa 8 3 o, none⟩
  | .featset o => some ⟨.sys, wordSa 9 0 o, none⟩
  | .parkpop o => some ⟨.sys, wordSa 10 0 o, none⟩
  | .vadd o => some ⟨.vec, wordVa 0 o, none⟩
  | .vsub o => some ⟨.vec, wordVa 1 o, none⟩
  | .vmul o => some ⟨.vec, wordVa 2 o, none⟩
  | .vmin o => some ⟨.vec, wordVa 3 o, none⟩
  | .vmax o => some ⟨.vec, wordVa 4 o, none⟩
  | .vabs o => some ⟨.vec, wordVa 5 o, none⟩
  | .vneg o => some ⟨.vec, wordVa 6 o, none⟩
  | .vmov o => some ⟨.vec, wordVa 7 o, none⟩
  | .vfma o => some ⟨.vec, wordVx 8 o, some (contVx o)⟩
  | .vfms o => some ⟨.vec, wordVx 9 o, some (contVx o)⟩
  | .vcmp o => some ⟨.vec, wordVx 10 o, some (contVx o)⟩
  | .vsel o => some ⟨.vec, wordVa 11 o, none⟩
  | .vexp2 o => some ⟨.vec, wordVa 12 o, none⟩
  | .vlog2 o => some ⟨.vec, wordVa 13 o, none⟩
  | .vrcp o => some ⟨.vec, wordVa 14 o, none⟩
  | .vrsq o => some ⟨.vec, wordVa 15 o, none⟩
  | .vsqrt o => some ⟨.vec, wordVa 16 o, none⟩
  | .vand o => some ⟨.vec, wordVa 17 o, none⟩
  | .vor o => some ⟨.vec, wordVa 18 o, none⟩
  | .vxor o => some ⟨.vec, wordVa 19 o, none⟩
  | .vshl o => some ⟨.vec, wordVa 20 o, none⟩
  | .vshr o => some ⟨.vec, wordVa 21 o, none⟩
  | .vsar o => some ⟨.vec, wordVa 22 o, none⟩
  | .vpopc o => some ⟨.vec, wordVa 23 o, none⟩
  | .vimad o => some ⟨.vec, wordVx 24 o, some (contVx o)⟩
  | .vcvt o => some ⟨.vec, wordVx 25 o, some (contVx o)⟩
  | .vquant o => some ⟨.vec, wordVx 26 o, some (contVx o)⟩
  | .vdeq o => some ⟨.vec, wordVx 27 o, some (contVx o)⟩
  | .vamax o => some ⟨.vec, wordVa 28 o, none⟩
  | .vpack o => some ⟨.vec, wordVa 29 o, none⟩
  | .vunpk o => some ⟨.vec, wordVa 30 o, none⟩
  | .vshuf o => some ⟨.vec, wordVa 31 o, none⟩
  | .vrot o => some ⟨.vec, wordVa 32 o, none⟩
  | .vbcast o => some ⟨.vec, wordVa 33 o, none⟩
  | .vins o => some ⟨.vec, wordVa 34 o, none⟩
  | .vredAdd o => some ⟨.vec, wordVa 35 { o with b := 0 }, none⟩
  | .vredMin o => some ⟨.vec, wordVa 35 { o with b := 1 }, none⟩
  | .vredMax o => some ⟨.vec, wordVa 35 { o with b := 2 }, none⟩
  | .vredAmax o => some ⟨.vec, wordVa 35 { o with b := 3 }, none⟩
  | .vredAnd o => some ⟨.vec, wordVa 35 { o with b := 4 }, none⟩
  | .vredOr o => some ⟨.vec, wordVa 35 { o with b := 5 }, none⟩
  | .vredXor o => some ⟨.vec, wordVa 35 { o with b := 6 }, none⟩
  | .vld o => some ⟨.vec, wordVa 36 o, none⟩
  | .vst o => some ⟨.vec, wordVa 37 o, none⟩
  | .vgath o => some ⟨.vec, wordVa 38 o, none⟩
  | .vscat o => some ⟨.vec, wordVa 39 o, none⟩
  | .vldg o => some ⟨.vec, wordVg 40 o, none⟩
  | .vstg o => some ⟨.vec, wordVg 41 o, none⟩
  | .accrd o => some ⟨.vec, wordVx 42 o, some (contVx o)⟩
  | .accwr o => some ⟨.vec, wordVx 43 o, some (contVx o)⟩
  | .commit o => some ⟨.vec, wordVa 44 o, none⟩
  | .gcfg o => some ⟨.vec, wordVx 45 o, some (contVx o)⟩
  | .vloop o => some ⟨.vec, wordVl 46 o, none⟩
  | .vlend o => some ⟨.vec, wordVa 47 o, none⟩
  | .pset o => some ⟨.vec, wordPr 48 0 o, none⟩
  | .pand o => some ⟨.vec, wordPr 48 1 o, none⟩
  | .por o => some ⟨.vec, wordPr 48 2 o, none⟩
  | .pxor o => some ⟨.vec, wordPr 48 3 o, none⟩
  | .pnot o => some ⟨.vec, wordPr 48 4 o, none⟩
  | .pandn o => some ⟨.vec, wordPr 48 5 o, none⟩
  | .pcnt o => some ⟨.vec, wordVa 49 o, none⟩
  | .vrand o => some ⟨.vec, wordVa 50 o, none⟩
  | .vseed o => some ⟨.vec, wordVa 51 o, none⟩
  | .vtopk o => some ⟨.vec, wordVx 52 o, some (contVx o)⟩
  | .vdraw o => some ⟨.vec, wordVx 53 o, some (contVx o)⟩
  | .mcfg o => some ⟨.mat, wordMm 0 o, none⟩
  | .mma o => some ⟨.mat, wordMm 1 o, none⟩
  | .mmaAcca o => some ⟨.mat, wordMm 1 o, none⟩
  | .mspa o => some ⟨.mat, wordMm 2 o, none⟩
  | .mzero o => some ⟨.mat, wordMm 3 o, none⟩
  | .mdrain o => some ⟨.mat, wordMm 4 o, none⟩
  | .mdrainMerge o => some ⟨.mat, wordMm 4 o, none⟩
  | .mstat o => some ⟨.mat, wordMm 5 o, none⟩
  | .copy o => some ⟨.copy, wordCx 0 o, some (contCx o)⟩
  | .copyf o => some ⟨.copy, wordCx 1 o, some (contCx o)⟩
  | .cpb o => some ⟨.copy, wordCx 2 o, some (contCx o)⟩
  | .cph o => some ⟨.copy, wordCx 3 o, some (contCx o)⟩
  | .atom o => some ⟨.copy, wordCx 4 o, some (contCx o)⟩
  | .atomf o => some ⟨.copy, wordCx 5 o, some (contCx o)⟩
  | .subs o => some ⟨.copy, wordCx 6 o, some (contCx o)⟩
  | .unsub o => some ⟨.copy, wordCx 7 o, some (contCx o)⟩
  | .pull o => some ⟨.copy, wordCx 8 o, some (contCx o)⟩
  | .rrot o => some ⟨.copy, wordCx 9 o, some (contCx o)⟩
  | .pref o => some ⟨.copy, wordCx 10 o, some (contCx o)⟩
  | .invc o => some ⟨.copy, wordCx 11 o, some (contCx o)⟩
  | .wbc o => some ⟨.copy, wordCx 12 o, some (contCx o)⟩
  | .controlRegisterWrite _ _ _ => none
  | .parkaskWrite _ _ => none
  | .featacceptWrite _ _ => none
  | .actbaseWrite _ _ _ => none
  | .ttcfgWrite _ _ => none
  | .bfmtWrite _ _ _ => none
  | .fpControlWrite _ _ _ => none
  | .hashmaskWrite _ _ _ => none
  | .chkctlWrite _ _ => none
  | .poisonlogWrite _ _ => none
  | .wdogctlWrite _ _ => none
  | .hostUnsupportedRequest _ => none
  | .mailboxTailWrite _ => none
  | .launchRecord => none
  | .attestRecord => none
  | .launchComplete _ => none
  | .successorRootPlace _ => none
  | .powerOn _ => none
  | .firmwarePiece _ => none
  | .powerLoss => none
  | .packageReset => none
  | .dieReset _ => none
  | .watchdogExpiry _ => none
  | .scrubPass _ _ _ => none
  | .taskForwardReceive _ => none
  | .coreIdleRequest _ => none
  | .agingPromotion _ => none
  | .readyWaitExpiry _ => none
  | .deadlineExpiry _ => none
  | .holdingTaskSave _ => none
  | .featureParkPlace _ => none
  | .loadTileDelivery _ _ => none
  | .storeStageWrite _ => none
  | .causeTaken _ => none
  | .dCauseArrival _ _ => none
  | .releaseSend _ => none
  | .copyComplete _ _ => none
  | .barrierDelivery _ _ => none
  | .subscriptionTileDelivery _ _ => none
  | .rrotExchange _ => none
  | .rrotTimeout _ => none
  | .barwaitTimeout _ => none
  | .mergeTileArrival _ => none
  | .mergeRetry _ => none
  | .mergeWaitTimeout _ => none
  | .mergeRefusedTimeout _ => none
  | .arrayStep _ => none
  | .accrdLand _ _ => none
  | .atomicUnitPerform _ _ => none
  | .memoryPortAccess _ _ => none
  | .migration _ _ => none
  | .shootdownAck _ _ => none
  | .migholdExpiry _ _ => none
  | .blazeLanded _ _ => none
  | .blazeFailed _ _ => none
  | .watcherRegister _ _ => none
  | .cphArrival _ _ => none
  | .watch _ _ => none
  | .landed _ _ => none
  | .failed _ _ => none
  | .holdlimExpiry _ _ => none
  | .resendBackoffExpiry _ => none
  | .ringSlotArrival _ _ => none
  | .markedResponse _ _ => none
  | .entropyQuietPoint _ _ => none
  | .dlrMove _ => none
  | .linkFlitRetransmit _ => none
  | .illegalEncoding _ => none
  | .accessAcknowledged _ _ => none
  | .overflowStoreDrain _ _ => none
  | .injectionLimitRelease _ => none
  | .torusHop _ _ => none
  | .clearingRingRetry _ _ => none

/-- The instruction an encoding decodes to. -/
def Encoded.decode (e : Encoded) : Except BadWord Instr := Sys2Proof.decode e.cls e.word (e.cont.getD 0)

/-! ## The opcode table's words

spec/opcode_table.json gives a row's bits and not the class of its lane, so the reader takes the first class, in the
order SCAL, SYS, MAT, VEC, COPY, in which the bits are an instruction of that length. -/

/-- The word and CONT word read as one instruction in a lane of class `cls`. -/
def decodeTableAs (cls : LaneClass) (w c : Nat) : Option Instr :=
  if opens64 cls w || c == 0 then
    match decode cls w c with
    | .ok i => some i
    | .error _ => none
  else none

/-- The first class in which the words are an instruction. -/
def tableClass (w c : Nat) : List LaneClass → Option LaneClass
  | [] => none
  | cls :: rest => if (decodeTableAs cls w c).isSome then some cls else tableClass w c rest

/-- The order in which classes are tried. -/
def tableOrder : List LaneClass := [.scal, .sys, .mat, .vec, .copy]

/-- The instruction whose bits are `w`, numbered as the table numbers them. Each word is laid out as the line
stores it and read by `decode`. -/
def decodeTableWord (nbits w : Nat) : Option Instr :=
  let v := w % 2 ^ nbits
  let lo := bits v 0 32
  let hi := bits v 32 32
  match tableClass lo hi tableOrder with
  | some cls => decodeTableAs cls lo hi
  | none => none

end Sys2Proof
end

