-- ==== Sys2Proof/Machine/State.lean ====
section
/-! DEFINITION. The state of a Valot package: everything the spec gives the machine, as plain data. INVENTORY.md
lists each field with its rule and its reset value. The core in focus stands in `core`, every other core in `others`. -/

namespace Sys2Proof.Machine

/-! ## Causes -/

/-- The causes of 12 R336, in code order from 0x01. -/
inductive Cause
  | illegal | illfeature | priv | align | badtarget | xmiss | xperm | peerdeny | migtimeout | race | horizonfull
  | tokenexpired | stageoverrun | stagetimeout | metafault | qovftrap | burlovf | burlcount | firstnan | layout
  | uedata | poison | checkfail | deadline | watchhit | brk | swtrap
  deriving DecidableEq, Repr

/-- INFO.ENGINE (12 R337). -/
inductive Engine | scc | ve | me | copy | seq | sched
  deriving DecidableEq, Repr

/-- Actions (12 R342-R345). -/
inductive Action | kill | replay | park | forward
  deriving DecidableEq, Repr

/-- A raised cause with the facts its record will hold (12 R337); `late` is the record's precision D bit and `queued`
says that a command of the engine is stopped by it (precision C). -/
structure Raised where
  cause : Cause
  engine : Engine
  late : Bool
  queued : Bool
  idx : BitVec 24
  mpc : Word
  status : Word
  address : Word
  deriving DecidableEq, Repr

/-- An action entry (12 R339). -/
structure ActEntry where
  action : Action
  limit : Nat
  fallback : Action
  queue : Fin 16
  handler : Word
  deriving DecidableEq, Repr

/-! ## Registers of a task -/

/-- An entry of the PC queue (05 R89). -/
structure PcEntry where
  addr : Word
  nul : Bool
  deriving DecidableEq, Repr

/-- A configured port and its position (05 R132). -/
structure Port where
  wr : Bool
  wrap : Bool
  base : Nat
  strides : List (BitVec 32)
  counts : List Nat
  pos : Nat
  deriving DecidableEq, Repr

/-- A landing-buffer transfer (06 R166): the physical register it will write and, once landed, the data. -/
structure Landing where
  dest : Fin 56
  cmd : Vx
  idx : BitVec 24
  /-- `SEED` and `RNGCNT` as its `ACCRD` found them (04 R77) -/
  seed : Word
  rng : Word
  data : Option VWord
  deriving DecidableEq, Repr

/-- A blaze held by a z-register or carried by a CPH (07 R194). -/
structure BlazeRef where
  home : BitVec 15
  entry : Fin 4096
  gen : BitVec 5
  deriving DecidableEq, Repr

/-- A command in an engine queue: its instruction, the values captured at dispatch (02 R39), its command index
(12 R335), its copy sequence number (08 R229) and FPCTL.DRM at dispatch (08 R236). -/
structure Cmd where
  instr : Instr
  vals : List Word
  idx : BitVec 24
  cseq : BitVec 40
  drm : Rm
  deriving DecidableEq, Repr

/-- An SCC access in flight (07 R175, R176); `value` is a load's value once the port has performed it. -/
structure Flight where
  addr : Word
  size : Nat
  store : Bool
  data : Word
  dest : SReg
  signed : Bool
  slot : Option (Fin 8)
  scope : Scope
  idx : BitVec 24
  value : Option Word
  /-- it is an acquire (`LDA`), a release (`STL`) -/
  acq : Bool
  rel : Bool
  deriving DecidableEq, Repr

/-- An SCC release that is not sent yet: `STL` or `BARARR` (07 R396). -/
structure PendingRel where
  arrive : Bool
  reg : SReg
  scope : Scope
  addr : Word
  data : Word
  idx : BitVec 24
  slot : Option (Fin 8)
  deriving DecidableEq, Repr

/-- A kernel loop of the VE while it is recorded or runs (05 R133, R134, 09 R263). -/
structure LoopRun where
  live : Bool
  stages : Nat
  /-- the recorded body -/
  body : List Cmd
  /-- the VLOOP command -/
  head : Cmd
  /-- source iterations; 0 until it starts -/
  t : Nat
  /-- source iterations that a save left for a later start (05 R134, 09 R264) -/
  left : Nat
  /-- the cursor at which it started -/
  c0 : Nat
  /-- the next kernel iteration -/
  k : Nat
  /-- the next command of the body -/
  at_ : Nat
  deriving DecidableEq, Repr

/-- A match of the intersector: walk position, row, index of the A value, occupancy byte, offset of the B group
(06 R150). -/
structure Match where
  k : Nat
  row : Nat
  aIdx : Nat
  occ : Nat
  bOff : Nat
  deriving DecidableEq, Repr

/-- A fault that the walk of an `MSPA` reaches (06 R154). -/
structure MetaStop where
  cause : Cause
  status : Word
  k : Nat
  row : Nat
  pos : Nat
  address : Word
  deriving DecidableEq, Repr

/-- A matrix command in progress (06 R151, R153). -/
structure MeRun where
  cmd : Cmd
  /-- 1 walk, 2 merge, 3 complete -/
  phase : Nat
  /-- matches of the walk not yet pushed, in walk order -/
  walk : List Match
  /-- what ends the walk, if it is not its plain end -/
  stop : Option MetaStop
  /-- entries pushed and not retired, in walk order -/
  queue : List Match
  /-- the first match of `walk` has been counted by OVFEV, by LAGEV -/
  ovf : Bool
  lag : Bool
  /-- where the walk stands: its position and row, and the walk order index of the next A entry (06 R153) -/
  k : Nat
  row : Nat
  pos : Nat
  /-- the metadata has been read since the command started or was resumed (06 R157) -/
  begun : Bool
  /-- rows and chunks whose burl terms have been added (06 R149) -/
  burled : List (Nat × Nat)
  /-- members merged so far -/
  merged : BitVec 8
  /-- the cycle of the last merge, or of entry to the merge phase -/
  since : Nat
  /-- the lowest (row, column, k) at which a NaN was created -/
  nan : Option (Nat × Nat × Nat)
  flags : BitVec 7
  deriving DecidableEq, Repr

/-- A tile in a merge buffer (06 R159). -/
structure MergeTile where
  member : Fin 8
  slot : Fin 4
  int : Bool
  elems : List (BitVec 32)
  deriving DecidableEq, Repr

/-- Where a copy-class command that the port has handed over stands. -/
inductive CopyPhase
  /-- its units are being written -/
  | run
  /-- a CPH that carries blazes and has left for its destination (07 R195) -/
  | sent
  /-- its bytes are written; this many are to be counted on its barrier (08 R253) -/
  | deliver (bytes : Nat)
  /-- stopped by a D-class cause: the whole command, or its delivery, is performed again by REPLAY (12 R343) -/
  | lateRun
  | lateDeliver (bytes : Nat)
  /-- it met a fault while another cause of the copy engines is pending: the cause it will raise (12 R346) -/
  | stalled (cause : Raised)
  deriving DecidableEq, Repr

/-- A copy-class command that a copy engine holds: its complete units (08 R234), the blaze entry of a CPB, the blazes a
CPH has captured with the index of each CPB (12 R358), and whether its record has been posted. -/
structure CopyRun where
  cmd : Cmd
  units : Nat
  phase : CopyPhase
  blaze : Option BlazeRef
  carried : List (BlazeRef × BitVec 24)
  posted : Bool
  /-- flags of the units written so far, to be merged at completion or at a stop (04 R83) -/
  flags : BitVec 7
  deriving DecidableEq, Repr

/-- An active subscription (08 R247, R249). -/
structure Subscription where
  cmd : Cmd
  desc : List Byte
  next : Nat
  deriving DecidableEq, Repr

/-- An imported epoch (07 R207). -/
structure Import where
  agent : BitVec 9
  epoch : BitVec 15
  deriving DecidableEq, Repr

/-- An agent that makes accesses: its number, serial, epoch, horizon and floor (07 R204-R209). -/
structure Actor where
  agent : Fin 512
  serial : BitVec 8
  epoch : BitVec 15
  horizon : List Import
  lost : Bool
  floor : BitVec 8
  deriving DecidableEq, Repr

/-- The issuer of a copy-class command: its context, view, task id and agent. -/
structure Who where
  ctx : Fin 64
  priv : Bool
  id : BitVec 32
  actor : Actor
  deriving DecidableEq, Repr

/-- The registers of the SCC that belong to a task. -/
structure SccRegs where
  s : Vector Word 32
  pcq0 : PcEntry
  pcq1 : PcEntry
  pcq2 : PcEntry
  res : Word
  resseq : BitVec 16
  /-- the command index of the next instruction (12 R335) -/
  idx : BitVec 24
  /-- replays counted so far, per command index (12 R343) -/
  replays : List (Nat × Nat)
  /-- the cycle since which the instruction at PCQ0 holds (08 R223, R255) -/
  hold : Option Nat
  /-- a forwarded spawn has been sent, and the id the other die has answered (09 R275) -/
  sent : Bool
  answer : Option Word
  /-- the barrier on which a `BARWAIT` holds (core and offset), and what it will import once its phase has completed
  (08 R256) -/
  barrier : Option (Fin 512 × Nat × Option (List Import))
  deriving DecidableEq, Repr

/-- The vector engine of a task. -/
structure VeRegs where
  v : Vector VWord 56
  p : Vector Word 16
  vrb : Fin 32
  prb : Fin 8
  ports : Vector (Option Port) 8
  b : Vector Word 8
  landing : Vector (Option Landing) 16
  queue : List Cmd
  /-- the VLOOP that is open at dispatch, with the commands recorded so far -/
  recording : Option LoopRun
  loop : Option LoopRun
  deriving DecidableEq, Repr

/-- The matrix engine of a task. -/
structure MeRegs where
  b : Vector Word 8
  /-- the shadow and the active configuration, by field id (06 R144, R145) -/
  shadow : Vector Word 18
  active : Vector Word 18
  /-- the counters of 06 R152, by code -/
  counters : Vector Word 7
  /-- slot types: true is INT32 (06 R137) -/
  intSlot : Vector Bool 4
  mergeBuf : List MergeTile
  queue : List Cmd
  run : Option MeRun
  deriving DecidableEq, Repr

/-- The copy issue port of a task, its event queue and its subscriptions. -/
structure CpRegs where
  b : Vector Word 8
  queue : List Cmd
  /-- commands handed to copy engines and not complete -/
  copies : List CopyRun
  cseq : BitVec 40
  /-- completion records, oldest first (08 R229) -/
  events : List Word
  /-- places reserved and not filled (08 R230) -/
  reserved : Nat
  subs : Vector (Option Subscription) 8
  deriving DecidableEq, Repr

/-- `SEED`, `RNGCNT`, `FPCTL`, `FPFLAGS` (04 R77, R82). -/
structure FpRegs where
  seed : Word
  rngcnt : Word
  fpctl : Word
  fpflags : Word
  deriving DecidableEq, Repr

/-- Ordering state of a task: z-registers, accesses in flight, wait slots, pending release, horizon, floor. -/
structure OrdRegs where
  z : Vector (Option BlazeRef) 16
  flights : List Flight
  /-- the accesses that pending or parked D-class causes name; their wait slots stay busy (12 R334, R352) -/
  held : List Flight
  release : Option PendingRel
  horizon : List Import
  lost : Bool
  floor : BitVec 8
  deriving DecidableEq, Repr

/-- A cause being taken: its record is written and its action waits for what the task has sent (12 R333, R352). -/
structure Taking where
  cause : Raised
  entry : ActEntry
  action : Action
  /-- the record's address, as handed out -/
  record : Word
  deriving DecidableEq, Repr

/-- Pending causes: one for each engine in ascending ENGINE order (that of the SCC waits for what is in flight), and precision D causes in arrival order, at most
16 (12 R346). The one being taken keeps its place until its action runs. -/
structure Pending where
  scc : Option Raised
  ve : Option Raised
  me : Option Raised
  copy : Option Raised
  late : List Raised
  taking : Option Taking
  deriving DecidableEq, Repr

/-- Everything a task's image can hold (09 R273). -/
structure TaskRegs where
  scc : SccRegs
  ve : VeRegs
  me : MeRegs
  cp : CpRegs
  fp : FpRegs
  ord : OrdRegs
  pend : Pending
  deriving DecidableEq, Repr

/-! ## Tasks, joins, launches -/

/-- A loop entry of a code object (03 R62). -/
structure LoopEntry where
  kind : Nat
  fromBound : Bool
  granule : Nat
  trip : Nat
  deriving DecidableEq, Repr

/-- Roles of stages (03 R62). -/
inductive Role | load | compute | store
  deriving DecidableEq, Repr

/-- A stage entry of a code object (03 R62). -/
structure StageEntry where
  role : Role
  bound : Nat
  target : Nat
  bufBytes : Nat
  deriving DecidableEq, Repr

/-- A code object's header as it was read (03 R62). -/
structure CodeObj where
  features : Word
  codeOff : Nat
  codeSize : Nat
  entry : Nat
  dataOff : Nat
  dataSize : Nat
  slots : BitVec 4
  rotates : Bool
  spad : Nat
  loops : List LoopEntry
  stages : List StageEntry
  deriving DecidableEq, Repr

/-- A buffer handle: its generation and scratchpad offset (09 R266). -/
structure Handle where
  gen : BitVec 32
  off : Nat
  deriving DecidableEq, Repr

/-- A range task (09 R257, R258). -/
structure Task where
  id : BitVec 32
  code : Word
  stage : Nat
  prio : Nat
  stealx : Bool
  stealp : Bool
  fwd : Bool
  ctx : Fin 64
  serial : BitVec 8
  lo : Nat
  hi : Nat
  cur : Nat
  anchor : Word
  arg : Word
  /-- the join it reports to and its own child join, by number -/
  join : Nat
  childJoin : Nat
  inbound : Word
  /-- the task has taken its inbound buffer (09 R283) -/
  taken : Bool
  handles : List Handle
  /-- the privileged view (11 R309) -/
  privileged : Bool
  obj : CodeObj
  /-- the launch, by number; none for a handler task -/
  launch : Option Nat
  /-- the spawner's epoch, imported at entry (07 R207) -/
  spawner : Option Import
  /-- the launch floor (07 R208) -/
  floor : BitVec 8
  /-- it has run -/
  ran : Bool
  /-- the core on whose queue it stands, or ran last -/
  home : Fin 512
  deriving DecidableEq, Repr

/-- A saved task: what the image keeps (12 R352, R353), where it stands, and its own bytes. -/
structure Image where
  vec : Bool
  acc : Bool
  forced : Bool
  /-- cause byte at 0x07 -/
  cause : Nat
  regs : TaskRegs
  ttcfg : Word
  bfmt : Vector Word 32
  ttab : List (Nat × (BitVec 45 × Bool))
  hand : Nat
  spad : List (Nat × Byte)
  accs : List (Nat × Byte)
  tags : List (Nat × (Nat × Nat))
  /-- the bytes of the image as they were written, those the Valot lays out in its own way apart (12 R353, log 15) -/
  cells : List (Nat × Byte)
  /-- die, base and length of its place in the save area -/
  die : Fin 8
  base : Nat
  len : Nat
  /-- the record that parked it: its address and whether its cause continues after the instruction -/
  record : Word
  stopped : Option Raised
  /-- CONTINUE: PCQ0 is passed over at resumption (12 R350) -/
  skip : Bool
  deriving DecidableEq, Repr

/-- Where a task that does not run stands (09 R257, 12 R348, R349). -/
inductive Place
  /-- on a core's ready queue since a cycle, passed over so many times, at a promoted level -/
  | ready (core : Fin 512) (since : Nat) (passed : Nat) (level : Nat)
  /-- on a park queue of a die -/
  | parked (die : Fin 8) (queue : Fin 16)
  /-- taken by `PARKPOP` -/
  | taken (die : Fin 8)
  /-- a root task that waits for its predecessor's hint or end -/
  | waitsPred
  /-- a LOAD or STORE stage, run by copy engines for a core (09 R266) -/
  | stage (core : Fin 512)
  deriving DecidableEq, Repr

/-- A task that does not run. -/
structure TaskEnt where
  task : Task
  place : Place
  image : Option Image
  deriving DecidableEq, Repr

/-- A join (09 R268): ended children with the epoch of their `DONE`, and the record of the first failure. -/
structure Join where
  expected : Nat
  ended : Nat
  failed : Nat
  first : Word
  enders : List Import
  deriving DecidableEq, Repr

/-- A launch (03 R64, 09 R281). -/
structure Launch where
  slot : Nat
  ctx : Fin 64
  serial : BitVec 8
  deadline : Nat
  bounds : List Word
  dieMask : BitVec 8
  vector : Nat
  stealx : Bool
  stealp : Bool
  fwd : Bool
  join : Nat
  hasPred : Bool
  predSerial : BitVec 8
  pred : Option Nat
  hinted : Bool
  complete : Bool
  deriving DecidableEq, Repr

/-! ## Memory structures -/

/-- The fields of a leaf entry (11 R315). -/
structure Leaf where
  peer : BitVec 15
  frame : Nat
  thr : Fin 8
  check : Bool
  priv : Bool
  x : Bool
  w : Bool
  r : Bool
  mode : Nat
  /-- bytes of the leaf, and of the page it belongs to -/
  leafBytes : Nat
  pageBytes : Nat
  /-- step at which the leaf was found, 4 or 5 -/
  step : Nat
  deriving DecidableEq, Repr

/-- A TLB entry: the page base of the accessed leaf's page and the leaf (11 R322). -/
structure TlbEnt where
  ctx : Fin 64
  page : Nat
  leaf : Leaf
  deriving DecidableEq, Repr

/-- The fetched line (02 R36): header and the words of lanes 1 to 7. -/
structure Line where
  addr : Nat
  header : Nat
  words : List Nat
  deriving DecidableEq, Repr

/-- A buffer of the pool (09 R266, R283). -/
structure PoolBuf where
  launch : Nat
  stage : Nat
  off : Nat
  bytes : Nat
  gen : BitVec 32
  free : Bool
  /-- data has landed, and the passer (07 R207) -/
  landed : Bool
  passer : Option Import
  deriving DecidableEq, Repr

/-- A core waiting in an `RROT` (08 R251). -/
structure RrotWait where
  cmd : Cmd
  ctx : Fin 64
  since : Nat
  deriving DecidableEq, Repr

/-- A core (01 R15). -/
structure Core where
  agent : Fin 512
  regs : TaskRegs
  task : Option Task
  resident : Option (Fin 64)
  halted : Bool
  bfmt : Vector Word 32
  ttcfg : Word
  /-- tag table: valid entries with KEY and REF (08 R227) -/
  ttab : List (Nat × (BitVec 45 × Bool))
  hand : Nat
  /-- layout tags (TYPE, SWZ) of the units that an engine has written since the last scrub; every other unit's tag is
  (FP32, LINEAR) (08 R215) -/
  ltags : List (Nat × (Nat × Nat))
  line : Option Line
  tlb : List TlbEnt
  epoch : BitVec 15
  /-- the cycle at which YREQ rose (09 R270) -/
  yreq : Option Nat
  parkReq : Bool
  pool : List PoolBuf
  rrot : Option RrotWait
  /-- an MDRAIN.merge refused since a cycle (06 R160) -/
  refused : Option Nat
  /-- the model's own switch: accesses and commands are performed at issue (log 5) -/
  inOrder : Bool
  deriving DecidableEq, Repr

/-- States of a blaze-table entry (07 R193). -/
inductive BlazeState | pending | landed | failed
  deriving DecidableEq, Repr

/-- An occupied blaze-table entry (07 R193, R197). -/
structure BlazeEnt where
  state : BlazeState
  gen : BitVec 5
  agent : Fin 512
  idx : BitVec 24
  lastUnit : Nat
  watchers : Nat
  dropped : Bool
  deriving DecidableEq, Repr

/-- A CPH on its way to a hold queue or in it, with what is known of its blazes (07 R195, R196). -/
structure HoldEnt where
  who : Who
  cmd : Cmd
  /-- each carried blaze, the CPB's command index, and the answer: LANDED is true -/
  blazes : List (BlazeRef × BitVec 24 × Option Bool)
  /-- the WATCH messages have reached the homes -/
  watched : Bool
  /-- it entered the queue at this cycle of the die; none while it is on its way -/
  since : Option Nat
  /-- destination addresses, from the first to the last but one -/
  lo : Nat
  hi : Nat
  deriving DecidableEq, Repr

/-- A watch-table entry (10 R296): owner, launch, image and counter. -/
structure WatchEnt where
  ctx : Fin 64
  launch : Option Nat
  image : List Byte
  counter : BitVec 24
  deriving DecidableEq, Repr

/-- A line of a CACHED page held in a die cache (07 R188). -/
structure CachedLine where
  ctx : Fin 64
  /-- memory key of its first byte and its 256 bytes -/
  key : Nat
  bytes : List Byte
  deriving DecidableEq, Repr

/-- A counter of accesses from a die to a MIGRATE page (11 R323): the page's memory key divided by 4,096, the die, and the
context and address of the latest access. -/
structure MigCount where
  page : Nat
  die : Fin 8
  count : BitVec 8
  ctx : Fin 64
  va : Nat
  deriving DecidableEq, Repr

/-- A migration in progress at its owner (11 R323, R324). -/
structure Migration where
  ctx : Fin 64
  page : Nat
  oldKey : Nat
  newKey : Nat
  dest : Fin 8
  /-- the page has moved: accesses to the old frame are forwarded -/
  moved : Bool
  /-- dies that have not acknowledged the shootdown -/
  waiting : List (Fin 8)
  /-- accesses held here: core, engine and since which cycle -/
  held : List (Fin 512 × Engine × Nat)
  deriving DecidableEq, Repr

/-- The per-context registers of a die (11 R310, R311, 12 R338). -/
structure CtxRegs where
  ptbase : Word
  actbase : Word
  peermask : Word
  migthresh : Word
  sqbase : Word
  sqrange : Word
  /-- the die's copy of the action entries, by cause code; unlisted causes have their default (12 R340) -/
  acts : List (Nat × ActEntry)
  deriving DecidableEq, Repr

/-- A die's bridge (09 R285-R289). -/
structure Bridge where
  /-- path entropy per destination peer, where it is not the first one -/
  entropy : List (BitVec 15 × Nat)
  /-- destinations with a rotation pending -/
  rotate : List (BitVec 15)
  /-- class-0 packets injected towards a torus port: fabric cycle, direction and bytes -/
  injected : List (Nat × Nat × Nat)
  dlrmoves : Word
  deriving DecidableEq, Repr

/-- A die (01 R15-R22, 11 R310-R313). -/
structure Die where
  cycle : Word
  featWritten : Bool
  featon : Word
  afftab : Vector Word 8
  hashmask : Vector Word 6
  dlrtimer : Word
  holdlim : Word
  bartmo : Word
  agemax : Word
  tclim : Word
  mighold : Word
  chkctl : Word
  poisonlog : Word
  wdogctl : Word
  wdogCount : Nat
  framepool : Word
  parkask : Word
  /-- park requests in force (11 R311) -/
  parkReqs : List (BitVec 32)
  taskstore : Word
  savearea : Word
  savelen : Word
  dielog : Word
  dielogPos : Nat
  rtagbase : Word
  rtagwin : Word
  ctxRegs : List (Nat × CtxRegs)
  blazes : List (Nat × BlazeEnt)
  /-- generations of free entries that are not 0 -/
  blazeGens : List (Nat × BitVec 5)
  hold : List HoldEnt
  watch : List (Nat × WatchEnt)
  tlb : List TlbEnt
  cached : List CachedLine
  /-- dirty lines of the die cache: the key of each and the bytes HBM still holds (08 R252, 12 R360) -/
  dirty : List (Nat × List Byte)
  migCounts : List MigCount
  migs : List Migration
  /-- tasks numbered so far, per launch (09 R257) -/
  numbered : List (Nat × Nat)
  /-- records forwarded here and the core whose spawn waits for the number (09 R259, R275) -/
  forwarded : List (Task × Option (Fin 512))
  /-- save-area places in use: base and length -/
  saves : List (Nat × Nat)
  bridge : Bridge
  deriving DecidableEq, Repr

/-! ## The package -/

/-- Where a fabric packet stands (09 R284-R289). -/
inductive PktPlace
  /-- waits at its source's class-0 limiter -/
  | inject
  /-- on the package ring of the package, refused so many times -/
  | ring (laps : Nat)
  /-- in the destination's overflow store, with its number in the order of arrival -/
  | overflow (n : Nat)
  /-- refused with a retry: the source re-sends it from a fabric cycle on -/
  | retry (at_ : Nat)
  /-- in the normal channel of a package's router, behind the sending port it came from (none at its source), where it
  arrived or became the head at a fabric cycle -/
  | torus (pkg : BitVec 12) (port : Option (Fin 24)) (since : Nat)
  /-- in the escape channel of its class there -/
  | escape (pkg : BitVec 12) (port : Option (Fin 24))
  /-- delivered to its destination; a request waits for its response, a response that carries a mark for its source -/
  | delivered
  deriving DecidableEq, Repr

/-- A fabric packet (09 R284, R286). -/
structure Packet where
  num : Nat
  src : BitVec 15
  dst : BitVec 15
  tc : Fin 4
  entropy : Nat
  bytes : Nat
  /-- it was marked, or it is a response that carries a mark back -/
  marked : Bool
  /-- a flit failed its CRC and is retransmitted -/
  badFlit : Bool
  /-- the request that it answers, by number -/
  answers : Option Nat
  /-- payload bytes of its own response -/
  answerBytes : Nat
  /-- times it has been re-sent -/
  resends : Nat
  place : PktPlace
  deriving DecidableEq, Repr

/-- The start sequence (11 R327-R330). -/
structure Boot where
  /-- the step reached; 7 is firmware running -/
  step : Nat
  /-- the sequence stopped -/
  failed : Bool
  pieces : Nat
  bodyLen : Nat
  fwVersion : Nat
  fwDigest : List Byte
  harvestDigest : List Byte
  pufOk : Bool
  harvestRec : List Word
  deriving DecidableEq, Repr

/-- The answer of the last host access (01 R27). -/
inductive HostAnswer | none | ok | unsupported | value (v : Word)
  deriving DecidableEq, Repr

/-- What moves next: the model's own schedule of everything that is not the core in focus (log 3). -/
inductive Turn
  /-- a core takes the focus and issues -/
  | issue (core : Fin 512)
  /-- an engine of a core runs the command at the head of its queue -/
  | engine (core : Fin 512) (eng : Eng)
  /-- a step of the package -/
  | event (i : Instr)
  /-- cycles of a die pass -/
  | elapse (die : Fin 8) (n : Nat)
  /-- a core's or a die's TLB takes or loses the translation of an address -/
  | tlbFill (core : Fin 512) (shared : Bool) (addr : Word)
  | tlbDrop (core : Fin 512) (shared : Bool) (addr : Word)
  /-- a die cache takes or loses a remote line -/
  | cacheFill (core : Fin 512) (addr : Word)
  | cacheDrop (die : Fin 8) (key : Nat)
  /-- accesses and commands of a core are performed at issue, or wait for turns -/
  | setInOrder (core : Fin 512) (on : Bool)
  /-- an uncorrectable error appears in a granule -/
  | eccError (key : Nat)
  /-- a packet of a flow is injected, with so many payload bytes in it and in its response, or a flit of one fails its
  CRC -/
  | inject (src dst : BitVec 15) (tc : Fin 4) (bytes answer : Nat)
  | flitError (packet : Nat)
  /-- the host writes mailbox bytes -/
  | hostWrite (off : Nat) (bytes : List Byte)
  /-- the host reads eight mailbox bytes, or a register of its window -/
  | hostRead (off : Nat)
  | hostReadReg (die : Fin 8) (num : BitVec 16)
  deriving DecidableEq, Repr

/-- The package. -/
structure State where
  core : Core
  /-- cores that are not in focus, by agent number; an unlisted core is in its reset state -/
  others : List (Nat × Core)
  dies : Vector Die 8
  /-- memory: listed bytes by key, keys strictly rising, no byte equal to 0 (logs 1, 2) -/
  mem : List Host.Cell
  /-- keys, divided by 64, of poisoned granules, rising (12 R354) -/
  poison : List Nat
  pkg : BitVec 12
  extent : Nat × Nat × Nat
  /-- disabled cores of each die (01 R14) -/
  harvest : Vector Word 8
  boot : Boot
  /-- MSI-X vectors signalled, oldest first -/
  msix : List Nat
  hostAnswer : HostAnswer
  tasks : List TaskEnt
  /-- joins by number; join 0 is the firmware's (12 R345) -/
  joins : List Join
  launches : List Launch
  packets : List Packet
  packetNum : Nat
  turns : List Turn
  /-- counter of free values (log 9) -/
  free : Nat
  deriving DecidableEq, Repr

/-! ## Reset -/

/-- A task's registers at entry, but for what the task record sets (02 R41, 04 R82, 06 R145). -/
def TaskRegs.entry : TaskRegs where
  scc := ⟨Vector.replicate 32 0, ⟨0, false⟩, ⟨0, false⟩, ⟨0, false⟩, 0, 0, 0, [], none, false, none, none⟩
  ve := { v := Vector.replicate 56 0, p := (Vector.replicate 16 0).set 0 (BitVec.allOnes 64), vrb := 0, prb := 0,
          ports := Vector.replicate 8 none, b := Vector.replicate 8 0, landing := Vector.replicate 16 none,
          queue := [], recording := none, loop := none }
  me := { b := Vector.replicate 8 0,
          shadow := #v[128, 256, 32, 0, 0, 0, 0, 16, 63, 0, 0, 1, 0, 0x7FC, 0, 1, 0, 0],
          active := #v[128, 256, 32, 0, 0, 0, 0, 16, 63, 0, 0, 1, 0, 0x7FC, 0, 1, 0, 0],
          counters := Vector.replicate 7 0, intSlot := Vector.replicate 4 false, mergeBuf := [], queue := [],
          run := none }
  cp := ⟨Vector.replicate 8 0, [], [], 0, [], 0, Vector.replicate 8 none⟩
  fp := ⟨0, 0, 0, 0⟩
  ord := ⟨Vector.replicate 16 none, [], [], none, [], false, 0⟩
  pend := ⟨none, none, none, none, [], none⟩

/-- A core after core reset, before any task (12 R359; logs 5, 7). -/
def Core.reset (n : Fin 512) : Core where
  agent := n
  regs := TaskRegs.entry
  task := none
  resident := none
  halted := false
  bfmt := Vector.replicate 32 0
  ttcfg := 0
  ttab := []
  hand := 0
  ltags := []
  line := none
  tlb := []
  epoch := 0
  yreq := none
  parkReq := false
  pool := []
  rrot := none
  refused := none
  inOrder := true

/-- The per-context registers of a die of package `pkg` after reset (11 R311, 12 R338). -/
def CtxRegs.reset (pkg : BitVec 12) : CtxRegs where
  ptbase := 0
  actbase := 0
  peermask := BitVec.ofNat 64 (2 ^ 31 + 0x7FF8 * 2 ^ 16 + pkg.toNat * 8)
  migthresh := 0
  sqbase := 0
  sqrange := 0
  acts := []

/-- A die after die reset (11 R311, R313, R325, R326, 12 R357, R361; 07 R196, 08 R255, 09 R269, R288, R289). -/
def Die.reset : Die where
  cycle := 0
  featWritten := false
  featon := 0
  afftab := #v[0, 0x1111111111111111, 0x2222222222222222, 0x3333333333333333, 0x4444444444444444,
    0x5555555555555555, 0x6666666666666666, 0x7777777777777777]
  hashmask := #v[0x104104100, 0x208208200, 0x410410400, 0x820820800, 0x41041000, 0x82082000]
  dlrtimer := 65536
  holdlim := 1048576
  bartmo := 16777216
  agemax := 64
  tclim := 51
  mighold := 262144
  chkctl := 0x1000
  poisonlog := 0
  wdogctl := 0
  wdogCount := 0
  framepool := 0
  parkask := 0
  parkReqs := []
  taskstore := 0
  savearea := 0
  savelen := 0
  dielog := 0
  dielogPos := 0
  rtagbase := 0
  rtagwin := 0
  ctxRegs := []
  blazes := []
  blazeGens := []
  hold := []
  watch := []
  tlb := []
  cached := []
  dirty := []
  migCounts := []
  migs := []
  numbered := []
  forwarded := []
  saves := []
  bridge := ⟨[], [], [], 0⟩

/-- The start sequence before its first step. -/
def Boot.reset : Boot := ⟨0, false, 0, 0, 0, [], [], false, []⟩

/-- The package right after reset: power is on and step 1 of the start sequence has not been taken (11 R327). -/
def State.reset : State where
  core := Core.reset 0
  others := []
  dies := Vector.replicate 8 Die.reset
  mem := []
  poison := []
  pkg := 0
  extent := (16, 16, 16)
  harvest := Vector.replicate 8 0
  boot := Boot.reset
  msix := []
  hostAnswer := .none
  tasks := []
  joins := [⟨0, 0, 0, 0, []⟩]
  launches := []
  packets := []
  packetNum := 0
  turns := []
  free := 0

/-! ## Outcomes that are no next state -/

/-- Reasons for the machine to stop. No meaning of this model raises one: every cause of the spec is taken as a next
state (12 R336), and every step of the package that cannot happen yet changes nothing. -/
inductive Fault
  /-- Raised by nothing; the type is not empty so that statements about it can be written. Safe: no step ends so. -/
  | stuck
  deriving DecidableEq, Repr

/-- Reasons for the model to give no meaning. -/
inductive Refusal
  /-- Raised by an arm of `exec` whose instruction has no meaning yet. Safe: such a step has no next state. -/
  | notModelled (mnemonic : String)
  deriving DecidableEq, Repr

end Sys2Proof.Machine
end

