-- ==== Sys2Proof/Machine/Mem.lean ====
section
/-! DEFINITION. Memory: one list of bytes for every memory of the package (log 2), read and written byte by byte, wider
accesses little-endian (00 R7), poison of 64-byte granules (12 R354), die-cache lines not yet in HBM (08 R252), and
the CRC-32C of 08 R238. -/

namespace Sys2Proof.Machine

/-! ## Keyed lists -/

/-- The value listed under a key. -/
def lookupKey {α : Type} (k : Nat) : List (Nat × α) → Option α
  | [] => none
  | (j, a) :: rest => if j = k then some a else lookupKey k rest

/-- The list with a value under a key, keys rising. -/
def insertKey {α : Type} (k : Nat) (a : α) : List (Nat × α) → List (Nat × α)
  | [] => [(k, a)]
  | (j, b) :: rest =>
    if k < j then (k, a) :: (j, b) :: rest
    else if k = j then (k, a) :: rest
    else (j, b) :: insertKey k a rest

/-- The list without a key. -/
def eraseKey {α : Type} (k : Nat) (l : List (Nat × α)) : List (Nat × α) := l.filter fun e => e.1 != k

/-! ## Cells -/

/-- What an unlisted byte reads as (log 1). -/
def emptyByte : Byte := 0

/-- The byte under a key. -/
def memGet : List Host.Cell → Nat → Byte
  | [], _ => emptyByte
  | (k, b) :: rest, a => if k = a then b else if a < k then emptyByte else memGet rest a

/-- A byte put before a list whose keys are all higher; a byte that unlisted bytes read as is not listed. -/
def consCell (a : Nat) (v : Byte) (l : List Host.Cell) : List Host.Cell := if v = emptyByte then l else (a, v) :: l

/-- The memory with one byte written. -/
def memSet : List Host.Cell → Nat → Byte → List Host.Cell
  | [], a, v => consCell a v []
  | (k, b) :: rest, a, v =>
    if a < k then consCell a v ((k, b) :: rest)
    else if a = k then consCell a v rest
    else (k, b) :: memSet rest a v

/-- The memory with every byte from `lo` up to `hi` back to what unlisted bytes read as. -/
def memClear (m : List Host.Cell) (lo hi : Nat) : List Host.Cell := m.filter fun c => decide (c.1 < lo ∨ hi ≤ c.1)

/-- The canonical form: keys strictly rising from `lo` on, no listed byte equal to what an unlisted one reads as. -/
def Memory.wfFrom : Nat → List Host.Cell → Bool
  | _, [] => true
  | lo, (k, b) :: rest => decide (lo ≤ k) && decide (b ≠ emptyByte) && Memory.wfFrom (k + 1) rest

/-- The canonical form of a memory. -/
def Memory.wf (m : List Host.Cell) : Bool := Memory.wfFrom 0 m

/-- The bytes `v` written from a key on. -/
def memSetList (m : List Host.Cell) (a : Nat) : List Byte → List Host.Cell
  | [] => m
  | b :: bs => memSetList (memSet m a b) (a + 1) bs

/-- `n` bytes from a key on. -/
def memGetList (m : List Host.Cell) (a : Nat) : Nat → List Byte
  | 0 => []
  | n + 1 => memGet m a :: memGetList m (a + 1) n

/-- Bytes as a little-endian number (00 R7). -/
def leNat : List Byte → Nat
  | [] => 0
  | b :: bs => b.toNat + 256 * leNat bs

/-- The `n` low bytes of a number, least significant first (00 R7). -/
def leBytes : Nat → Nat → List Byte
  | 0, _ => []
  | n + 1, v => BitVec.ofNat 8 v :: leBytes n (v / 256)

/-! ## Keys (log 2) -/

/-- The HBM byte at a die-physical address of a peer. -/
def hbmKey (peer : BitVec 15) (addr : Nat) : Nat := peer.toNat * 2 ^ 37 + addr
/-- The byte at a physical offset of a core's scratchpad. -/
def spadKey (agent off : Nat) : Nat := 2 ^ 52 + agent * 2 ^ 23 + off
/-- The byte at an offset of a core's accumulator window (06 R137). -/
def accKey (agent off : Nat) : Nat := 2 ^ 53 + agent * 2 ^ 19 + off
/-- A mailbox byte (03 R63). -/
def mboxKey (off : Nat) : Nat := 2 ^ 54 + off

/-- The peer number of a die of this package (01 R25). -/
def peerOf (pkg : BitVec 12) (die : Nat) : BitVec 15 := BitVec.ofNat 15 (pkg.toNat * 8 + die)

/-! ## Granules -/

/-- A number put into a rising list. -/
def insertNat (a : Nat) : List Nat → List Nat
  | [] => [a]
  | b :: rest => if a < b then a :: b :: rest else if a = b then b :: rest else b :: insertNat a rest

/-- The granules from `g` on, `n` of them. -/
def granules (g : Nat) : Nat → List Nat
  | 0 => []
  | n + 1 => g :: granules (g + 1) n

/-- The first poisoned granule that `n` bytes from key `k` touch (12 R354). -/
def firstPoison (p : List Nat) (k n : Nat) : Option Nat :=
  if n = 0 then none else p.find? fun g => decide (k / 64 ≤ g) && decide (g ≤ (k + n - 1) / 64)

/-- A store of `n` bytes at key `k` clears the poison of the granules it covers whole (12 R354). -/
def clearCovered (p : List Nat) (k n : Nat) : List Nat :=
  p.filter fun g => decide (64 * g < k ∨ k + n < 64 * g + 64)

/-! ## CRC-32C (08 R238) -/

/-- One bit of the reflected division by 0x1EDC6F41. -/
def crcBit (c : BitVec 32) : BitVec 32 := if c.getLsbD 0 then (c >>> 1) ^^^ 0x82F63B78 else c >>> 1

/-- `n` bits. -/
def crcBits : Nat → BitVec 32 → BitVec 32
  | 0, c => c
  | n + 1, c => crcBits n (crcBit c)

/-- The register after some bytes. -/
def crcStep (c : BitVec 32) : List Byte → BitVec 32
  | [] => c
  | b :: bs => crcStep (crcBits 8 (c ^^^ b.setWidth 32)) bs

/-- CRC-32C: initial value and final XOR all ones. -/
def crc32c (bs : List Byte) : BitVec 32 := crcStep 0xFFFFFFFF bs ^^^ 0xFFFFFFFF

/-! ## Bytes of a state -/

/-- `n` bytes from key `k`. -/
def State.bytes (s : State) (k n : Nat) : List Byte := memGetList s.mem k n

/-- The little-endian number of `n` bytes from key `k`. -/
def State.le (s : State) (k n : Nat) : Nat := leNat (s.bytes k n)

/-- The die of this package whose HBM holds a key. -/
def homeDie (s : State) (k : Nat) : Option (Fin 8) :=
  if k < 2 ^ 52 ∧ k / 2 ^ 40 = s.pkg.toNat then some (Fin.ofNat 8 (k / 2 ^ 37)) else none

/-- The first and last die-cache lines of a range are marked dirty, with what HBM holds (08 R252). -/
def markDirtyLine (s : State) (d : Fin 8) (line : Nat) : State :=
  let die := s.dies[d]
  if (lookupKey line die.dirty).isSome then s
  else { s with dies := s.dies.set d { die with dirty := insertKey line (s.bytes (256 * line) 256) die.dirty } }

/-- Every line that `n` bytes from key `k` touch is dirty. -/
def markDirty (s : State) (k n : Nat) : State :=
  match homeDie s k with
  | none => s
  | some d => if n = 0 then s
    else (granules (k / 256) ((k + n - 1) / 256 - k / 256 + 1)).foldl (fun s l => markDirtyLine s d l) s

/-- The state with bytes stored at key `k`: memory, poison and dirty lines. -/
def State.store (s : State) (k : Nat) (bs : List Byte) : State :=
  let t := markDirty s k bs.length
  { t with mem := memSetList t.mem k bs, poison := clearCovered t.poison k bs.length }

/-- The state with the `n` low bytes of a number stored at key `k`. -/
def State.storeLe (s : State) (k n v : Nat) : State := s.store k (leBytes n v)

/-- The state with a granule poisoned (12 R354). -/
def State.poisonAt (s : State) (k : Nat) : State := { s with poison := insertNat (k / 64) s.poison }

end Sys2Proof.Machine
end

