-- ==== Sys2Proof/Machine/Regs.lean ====
section
/-! DEFINITION. Registers: which core is in focus, the accessors of every register file (02 R41, R42, R45), `RES`
(02 R44), dies and per-context registers. -/

namespace Sys2Proof.Machine

/-! ## Cores and dies -/

/-- The die of an agent (01 R13). -/
def dieOf (agent : Fin 512) : Fin 8 := Fin.ofNat 8 (agent.val / 64)
/-- The clearing of an agent within its die (01 R13). -/
def clearingOf (agent : Fin 512) : Nat := agent.val % 64 / 8
/-- The member number of an agent (01 R13). -/
def memberOf (agent : Fin 512) : Nat := agent.val % 8
/-- The agent of a member of the same clearing (01 R13). -/
def peerAgent (agent : Fin 512) (member : Nat) : Fin 512 := Fin.ofNat 512 (agent.val / 8 * 8 + member % 8)

/-- The core with an agent number. -/
def State.coreAt (s : State) (n : Fin 512) : Core :=
  if s.core.agent = n then s.core else (lookupKey n.val s.others).getD (Core.reset n)

/-- The state with a core replaced. -/
def State.setCoreAt (s : State) (n : Fin 512) (c : Core) : State :=
  if s.core.agent = n then { s with core := c } else { s with others := insertKey n.val c s.others }

/-- The state with another core in focus. -/
def State.focus (s : State) (n : Fin 512) : State :=
  if s.core.agent = n then s
  else { s with core := s.coreAt n, others := insertKey s.core.agent.val s.core (eraseKey n.val s.others) }

/-- A step of another core: it takes the focus, moves, and gives the focus back. -/
def atCore (n : Fin 512) (f : State → State) (s : State) : State := (f (s.focus n)).focus s.core.agent

/-- The core is disabled by the harvest record (01 R14). -/
def State.disabled (s : State) (n : Fin 512) : Bool := (s.harvest[dieOf n]).getLsbD (n.val % 64)

/-- The die of the core in focus. -/
def State.die (s : State) : Die := s.dies[dieOf s.core.agent]

/-- The state with a die changed. -/
def State.modDie (s : State) (d : Fin 8) (f : Die → Die) : State := { s with dies := s.dies.set d (f s.dies[d]) }

/-- `CYCLE` of the die in focus. -/
def State.now (s : State) : Nat := s.die.cycle.toNat

/-- The registers of a context on a die (11 R310). -/
def State.ctxAt (s : State) (d : Fin 8) (c : Fin 64) : CtxRegs :=
  (lookupKey c.val s.dies[d].ctxRegs).getD (CtxRegs.reset s.pkg)

/-- The state with the registers of a context on a die replaced. -/
def State.setCtxAt (s : State) (d : Fin 8) (c : Fin 64) (r : CtxRegs) : State :=
  s.modDie d fun x => { x with ctxRegs := insertKey c.val r x.ctxRegs }

/-- The context of the running task; 0 with no task. -/
def State.ctx (s : State) : Fin 64 :=
  match s.core.task with
  | some t => t.ctx
  | none => 0

/-- The running task is in the privileged view (11 R309). -/
def State.isPriv (s : State) : Bool :=
  match s.core.task with
  | some t => t.privileged
  | none => false

/-- The running task's object declares an accumulator slot (06 R138). -/
def State.declares (s : State) (slot : Nat) : Bool :=
  match s.core.task with
  | some t => t.obj.slots.getLsbD slot
  | none => false

/-- The die of the core in focus has accepted a feature (02 R50). -/
def State.hasFeature (s : State) (b : Nat) : Bool := s.die.featon.getLsbD b

/-! ## Fields of the core in focus -/

/-- The state with the core in focus changed. -/
def State.modCore (s : State) (f : Core → Core) : State := { s with core := f s.core }
/-- The state with the task registers changed. -/
def State.modRegs (s : State) (f : TaskRegs → TaskRegs) : State := { s with core := { s.core with regs := f s.core.regs } }
/-- SCC registers. -/
def State.scc (s : State) : SccRegs := s.core.regs.scc
/-- VE registers. -/
def State.ve (s : State) : VeRegs := s.core.regs.ve
/-- ME registers. -/
def State.me (s : State) : MeRegs := s.core.regs.me
/-- Copy registers. -/
def State.cp (s : State) : CpRegs := s.core.regs.cp
/-- FP control registers. -/
def State.fp (s : State) : FpRegs := s.core.regs.fp
/-- Ordering registers. -/
def State.ord (s : State) : OrdRegs := s.core.regs.ord
/-- The state with the SCC registers changed. -/
def State.modScc (s : State) (f : SccRegs → SccRegs) : State := s.modRegs fun r => { r with scc := f r.scc }
/-- The state with the VE registers changed. -/
def State.modVe (s : State) (f : VeRegs → VeRegs) : State := s.modRegs fun r => { r with ve := f r.ve }
/-- The state with the ME registers changed. -/
def State.modMe (s : State) (f : MeRegs → MeRegs) : State := s.modRegs fun r => { r with me := f r.me }
/-- The state with the copy registers changed. -/
def State.modCp (s : State) (f : CpRegs → CpRegs) : State := s.modRegs fun r => { r with cp := f r.cp }
/-- The state with the FP control registers changed. -/
def State.modFp (s : State) (f : FpRegs → FpRegs) : State := s.modRegs fun r => { r with fp := f r.fp }
/-- The state with the ordering registers changed. -/
def State.modOrd (s : State) (f : OrdRegs → OrdRegs) : State := s.modRegs fun r => { r with ord := f r.ord }
/-- The state with the running task changed. -/
def State.modTask (s : State) (f : Task → Task) : State := s.modCore fun c => { c with task := c.task.map f }

/-! ## Scalar registers -/

/-- s[r]; s0 reads as zero (02 R42). -/
def State.sreg (s : State) (r : SReg) : Word := if r = 0 then 0 else s.scc.s[r]

/-- The state with s[r] written; a write to s0 is discarded (02 R42). -/
def State.setS (s : State) (r : SReg) (v : Word) : State :=
  if r = 0 then s else s.modScc fun x => { x with s := x.s.set r v }

/-- `RES` is written and `RESSEQ` counts it (02 R44). -/
def State.setRes (s : State) (v : Word) : State := s.modScc fun x => { x with res := v, resseq := x.resseq + 1 }

/-! ## Vector and predicate registers -/

/-- The physical number of a logical vector register (02 R45). -/
def physV (vrb : Fin 32) (n : Fin 56) : Fin 56 :=
  if n.val < 24 then n else Fin.ofNat 56 (24 + (n.val - 24 + vrb.val) % 32)

/-- The physical number of a logical predicate register (02 R45). -/
def physP (prb : Fin 8) (n : Fin 16) : Fin 16 :=
  if n.val < 8 then n else Fin.ofNat 16 (8 + (n.val - 8 + prb.val) % 8)

/-- v[n]. -/
def State.vreg (s : State) (n : Fin 56) : VWord := s.ve.v[physV s.ve.vrb n]
/-- The state with v[n] written. -/
def State.setV (s : State) (n : Fin 56) (x : VWord) : State :=
  s.modVe fun r => { r with v := r.v.set (physV r.vrb n) x }

/-- p[n]; p0 reads as all ones (02 R42). -/
def State.preg (s : State) (n : Fin 16) : Word :=
  if n = 0 then BitVec.allOnes 64 else s.ve.p[physP s.ve.prb n]
/-- The state with p[n] written; a write to p0 is discarded (02 R42). -/
def State.setP (s : State) (n : Fin 16) (x : Word) : State :=
  if n = 0 then s else s.modVe fun r => { r with p := r.p.set (physP r.prb n) x }

/-! ## Elements of a vector register (02 R43) -/

/-- Element `i` of type `t`. -/
def elem (t : Ty) (x : VWord) (i : Nat) : Nat := bits x.toNat (t.width * i) t.width

/-- Every element of type `t`. -/
def elems (t : Ty) (x : VWord) : List Nat := (List.range t.count).map (elem t x)

/-- The number whose `w`-bit digits are listed, lowest first. -/
def packNat (w : Nat) : List Nat → Nat
  | [] => 0
  | x :: xs => x % 2 ^ w + 2 ^ w * packNat w xs

/-- The register whose elements of type `t` are listed; bits beyond them are zero. -/
def packElems (t : Ty) (xs : List Nat) : VWord := BitVec.ofNat 2048 (packNat t.width xs)

/-- Predicate bit that governs element `i` (02 R43). -/
def enabled (p : Word) (t : Ty) (i : Nat) : Bool := p.getLsbD (t.width * i / 32)

/-- Flags of a command merged into `FPFLAGS` (04 R83). -/
def State.addFlags (s : State) (f : Flags) : State := s.modFp fun x => { x with fpflags := mergeFlags x.fpflags f }

end Sys2Proof.Machine
end

