-- ==== Sys2Proof/Machine/Translate.lean ====
section
/-! DEFINITION. Addresses: the classes of 08 R210, the page walk and its checks (11 R314-R318, R321), TLBs
(11 R322), the resident-context check (11 R319), race detection (07 R204-R209) and the banks of a scratchpad
(08 R212-R217). -/

namespace Sys2Proof.Machine

/-- What a failed access reports: its cause and the STATUS and ADDRESS of its record. -/
structure Fail where
  cause : Cause
  status : Word
  address : Word
  deriving DecidableEq, Repr

/-- A failure with a number in STATUS. -/
def failAt (c : Cause) (status : Nat) (a : Word) : Fail := ⟨c, BitVec.ofNat 64 status, a⟩

/-! ## Address classes (08 R210) -/

/-- The class of an address, with the offset in it. -/
inductive Space
  | globalVa (va : Nat)
  | spad (off : Nat)
  | acc (off : Nat)
  | peer (member : Nat) (off : Nat)
  | nowhere
  deriving DecidableEq, Repr

/-- The class of an address; a peer window of the core's own member is the own scratchpad (08 R210). -/
def classify (self : Fin 512) (a : Word) : Space :=
  let n := a.toNat
  let low := n % 2 ^ 32
  let top := n / 2 ^ 32
  if n < 2 ^ 57 then .globalVa n
  else if top = 0x80000000 ∧ low < 2 ^ 23 then .spad low
  else if top = 0x80100000 ∧ low < 2 ^ 19 then .acc low
  else if 0x80200000 ≤ top ∧ top ≤ 0x80200007 ∧ low < 2 ^ 23 then
    (if top % 8 = memberOf self then .spad low else .peer (top % 8) low)
  else .nowhere

/-! ## The page walk -/

/-- The permissions an access needs. -/
structure Need where
  x : Bool
  w : Bool
  r : Bool
  deriving DecidableEq, Repr

/-- Loads and copy sources. -/
def Need.read : Need := ⟨false, false, true⟩
/-- Stores and copy destinations. -/
def Need.write : Need := ⟨false, true, false⟩
/-- Atomics. -/
def Need.atomic : Need := ⟨false, true, true⟩
/-- Fetch. -/
def Need.fetch : Need := ⟨true, false, false⟩

/-- A peer is allowed to a context (11 R318). -/
def peerAllowed (mask : Word) (p : BitVec 15) : Bool :=
  let m := mask.toNat
  let pass (sh : Nat) : Bool :=
    bit m (sh + 31) && ((p ^^^ BitVec.ofNat 15 (bits m sh 15)) &&& BitVec.ofNat 15 (bits m (sh + 16) 15) == 0)
  pass 0 || pass 32

/-- XMISS of a kind; kind 0 names its walk step (11 R316). -/
def xmiss (kind step : Nat) (va : Word) : Fail := failAt .xmiss (kind * 2 ^ 60 + step * 2 ^ 57) va

/-- A pointer entry whose other bits are zero (11 R315). -/
def ptrOk (e : Nat) : Bool :=
  bits e 67 61 == 0 && bits e 56 8 == 0 && bits e 14 2 == 0 && bits e 1 12 == 0 && !bit e 16

/-- Leaves of a run and the bytes of one, by step and SIZE (11 R315, R316). -/
def runOf (step size : Nat) : Nat × Nat :=
  match step, size with
  | 5, 0 => (1, 2 ^ 12)
  | 5, 1 => (16, 2 ^ 12)
  | 5, _ => (128, 2 ^ 12)
  | _, 0 => (1, 2 ^ 21)
  | _, 1 => (8, 2 ^ 21)
  | _, _ => (32, 2 ^ 21)

/-- A leaf entry is well formed at a step for an address (11 R316 kind 1, R321). -/
def leafOk (pkg : BitVec 12) (step e va : Nat) : Bool :=
  let size := bits e 1 2
  let mode := bits e 3 2
  let run := runOf step size
  let lf := run.2 / 4096
  bits e 79 49 == 0 && bits e 56 8 == 0 && bits e 14 2 == 0 && size != 3
    && bits e 16 40 % (run.1 * lf) == va / run.2 % run.1 * lf
    && (mode != 3 || (step == 5 && size == 0))
    && ((mode != 0 && mode != 3) || bits e 67 12 == pkg.toNat)

/-- The leaf an entry describes, with FRAME the first frame of its page. -/
def leafOf (step e va : Nat) : Leaf :=
  let run := runOf step (bits e 1 2)
  let k := va / run.2 % run.1
  { peer := BitVec.ofNat 15 (bits e 64 15), frame := bits e 16 40 - k * (run.2 / 4096), thr := Fin.ofNat 8 (bits e 10 3),
    check := bit e 9, priv := bit e 8, x := bit e 7, w := bit e 6, r := bit e 5, mode := bits e 3 2,
    leafBytes := run.2, pageBytes := run.1 * run.2, step := step }

/-- The index of a walk step in an address (11 R314). -/
def walkIndex (step va : Nat) : Nat := bits va (57 - 9 * step) 9

/-- The walk from `step` on, at the node with key `node`; `fuel` steps are left. -/
def walkFrom (s : State) (mask : Word) (va : Nat) : Nat → Nat → Nat → Except Fail Leaf
  | 0, _, _ => .error (xmiss 1 0 (BitVec.ofNat 64 va))
  | fuel + 1, step, node =>
    let key := node + 16 * walkIndex step va
    let a := BitVec.ofNat 64 va
    match firstPoison s.poison key 16 with
    | some _ => .error (failAt .poison 0 (BitVec.ofNat 64 (key % 2 ^ 37)))
    | none =>
      let e := s.le key 16
      if !bit e 0 then .error (xmiss 0 step a)
      else if bit e 13 then
        if step < 4 || !leafOk s.pkg step e va then .error (xmiss 1 0 a) else .ok (leafOf step e va)
      else if step == 5 || !ptrOk e then .error (xmiss 1 0 a)
      else
        let peer := peerOf s.pkg (bits e 64 3)
        if !peerAllowed mask peer then .error (failAt .peerdeny (step * 2 ^ 57 + peer.toNat) a)
        else if 2 ^ 37 ≤ bits e 16 40 * 4096 then .error (xmiss 2 0 a)
        else walkFrom s mask va fuel (step + 1) (hbmKey peer (bits e 16 40 * 4096))

/-- The walk of a context's page table by a die (11 R314). -/
def walk (s : State) (d : Fin 8) (ctx : Fin 64) (va : Nat) : Except Fail Leaf :=
  let r := s.ctxAt d ctx
  let pt := r.ptbase.toNat
  if !bit pt 0 then .error (xmiss 0 0 (BitVec.ofNat 64 va))
  else if 2 ^ 37 ≤ bits pt 13 39 * 2 ^ 13 then .error (xmiss 2 0 (BitVec.ofNat 64 va))
  else walkFrom s r.peermask va 5 1 (hbmKey (peerOf s.pkg (bits pt 61 3)) (bits pt 13 39 * 2 ^ 13))

/-- The entry of a TLB that covers an address (11 R322). -/
def tlbFind (tlb : List TlbEnt) (ctx : Fin 64) (va : Nat) : Option Leaf :=
  (tlb.find? fun e => e.ctx == ctx && decide (e.page ≤ va) && decide (va < e.page + e.leaf.pageBytes)).map (·.leaf)

/-- The leaf of an address: from the core TLB, the die TLB, or a walk (11 R322). -/
def leafFor (s : State) (core : Option Core) (d : Fin 8) (ctx : Fin 64) (va : Nat) : Except Fail Leaf :=
  match (core.bind fun c => tlbFind c.tlb ctx va), tlbFind s.dies[d].tlb ctx va with
  | some l, _ => .ok l
  | none, some l => .ok l
  | none, none => walk s d ctx va

/-- Where a translated access is performed, and the address it came from. -/
structure Phys where
  key : Nat
  addr : Nat
  leaf : Leaf
  ctx : Fin 64
  va : Nat
  deriving DecidableEq, Repr

/-- Bits X, W, R missing, in their PTE positions (11 R317). -/
def missingBits (n : Need) (l : Leaf) : Nat :=
  (if n.x && !l.x then 128 else 0) + (if n.w && !l.w then 64 else 0) + (if n.r && !l.r then 32 else 0)

/-- The owner's tag window covers a die-physical address (11 R313). -/
def inTagWindow (d : Die) (a : Nat) : Bool :=
  let w := d.rtagwin.toNat
  let base := bits w 0 16 * 2 ^ 21
  decide (base ≤ a) && decide (a < base + bits w 32 16 * 2 ^ 21)

/-- The die of this package that owns a peer's HBM. -/
def ownerDie (s : State) (p : BitVec 15) : Option (Fin 8) :=
  if p.toNat / 8 = s.pkg.toNat then some (Fin.ofNat 8 p.toNat) else none

/-- The page has race detection in force (07 R204, 11 R313). -/
def checkedPage (s : State) (l : Leaf) : Bool :=
  l.check && (match ownerDie s l.peer with
    | some d => bit s.dies[d].rtagbase.toNat 0
    | none => false)

/-- The checks of 11 R317 and the owner's reports of R316, in order. -/
def checkLeaf (s : State) (d : Fin 8) (ctx : Fin 64) (priv : Bool) (need : Need) (va : Nat) (l : Leaf) :
    Except Fail Phys :=
  let a := BitVec.ofNat 64 va
  let phys := l.frame * 4096 + va % l.pageBytes
  if l.priv && !priv then .error (failAt .xperm (l.step * 2 ^ 57 + 256) a)
  else if missingBits need l ≠ 0 then .error (failAt .xperm (l.step * 2 ^ 57 + missingBits need l) a)
  else if !peerAllowed (s.ctxAt d ctx).peermask l.peer then
    .error (failAt .peerdeny (l.step * 2 ^ 57 + l.peer.toNat) a)
  else if 2 ^ 37 ≤ phys then .error (xmiss 2 0 a)
  else if checkedPage s l && !((ownerDie s l.peer).map fun o => inTagWindow s.dies[o] phys).getD true then
    .error (xmiss 3 0 a)
  else .ok ⟨hbmKey l.peer phys, phys, l, ctx, va⟩

/-- A global address translated and checked for one access of a context, from a die, with a core's TLB if one is used. -/
def translate (s : State) (core : Option Core) (d : Fin 8) (ctx : Fin 64) (priv : Bool) (need : Need) (va : Nat) :
    Except Fail Phys :=
  match leafFor s core d ctx va with
  | .error e => .error e
  | .ok l => checkLeaf s d ctx priv need va l

/-- A translation without permission checks, as placement uses it (09 R259). -/
def translateOnly (s : State) (d : Fin 8) (ctx : Fin 64) (va : Nat) : Option Phys :=
  match walk s d ctx va with
  | .error _ => none
  | .ok l =>
    let phys := l.frame * 4096 + va % l.pageBytes
    if phys < 2 ^ 37 then some ⟨hbmKey l.peer phys, phys, l, ctx, va⟩ else none

/-- The number of one bits among the low `n` bits of a number. -/
def popc : Nat → Nat → Nat
  | 0, _ => 0
  | n + 1, x => x % 2 + popc n (x / 2)

/-- The pseudo-channel of a die-physical address (11 R325). -/
def pseudoChannel (d : Die) (a : Nat) : Nat :=
  64 * bits a 36 1 + (List.range 6).foldl (fun n i =>
    n + 2 ^ i * (popc 64 (BitVec.ofNat 64 a &&& d.hashmask.toList.getD i 0).toNat % 2)) 0

/-! ## Scratchpads -/

/-- A member may be reached by a context (11 R319, 01 R14). -/
def peerCheck (s : State) (target : Fin 512) (ctx : Fin 64) (a : Word) : Except Fail Unit :=
  if s.disabled target then .error (failAt .peerdeny (2 * 2 ^ 60 + memberOf target) a)
  else
    match (s.coreAt target).resident with
    | none => .error (failAt .peerdeny (2 ^ 60 + 2 ^ 14 + memberOf target) a)
    | some c =>
      if c = ctx then .ok () else .error (failAt .peerdeny (2 ^ 60 + c.val * 256 + memberOf target) a)

/-- The bank of a scratchpad offset (08 R212). -/
def bankOf (off : Nat) : Fin 32 := Fin.ofNat 32 (off / 2 ^ 18)

/-- The format of a bank: TYPE code, SWZ, STRICT (08 R213). -/
def bankFmt (c : Core) (b : Fin 32) : Nat × Nat × Bool :=
  let r := c.bfmt[b].toNat
  (bits r 0 4, bits r 4 2, bit r 6)

/-- A swizzle (08 R214); each is its own inverse. -/
def swizzle (swz off : Nat) : Nat :=
  match swz with
  | 0 => off
  | 1 => off - bits off 7 2 * 128 + (bits off 7 2 ^^^ bits off 10 2) * 128
  | 2 => off - bits off 9 2 * 512 + (bits off 9 2 ^^^ bits off 7 2) * 512
  | _ => off - bits off 2 10 * 4 + (bits off 2 5 * 32 + bits off 7 5) * 4

/-- The key of the byte at a logical offset of a core's scratchpad (08 R212). -/
def spadAt (c : Core) (off : Nat) : Nat := spadKey c.agent.val (swizzle (bankFmt c (bankOf off)).2.1 off)

/-- `n` bytes from a logical offset, in logical order. -/
def spadBytes (s : State) (c : Core) (off : Nat) : Nat → List Byte
  | 0 => []
  | n + 1 => memGet s.mem (spadAt c off) :: spadBytes s c (off + 1) n

/-- The memory with bytes written from a logical offset on. -/
def spadSet (m : List Host.Cell) (c : Core) (off : Nat) : List Byte → List Host.Cell
  | [] => m
  | b :: bs => spadSet (memSet m (spadAt c off) b) c (off + 1) bs

/-- The first offset from `off` whose granule is poisoned; swizzles keep 128-byte blocks, TILE32 does not, so every
byte is looked up. -/
def spadPoison (s : State) (c : Core) (off : Nat) : Nat → Option Nat
  | 0 => none
  | n + 1 => if s.poison.contains (spadAt c off / 64) then some off else spadPoison s c (off + 1) n

/-- Granules whose 64 bytes all are among the stored keys. -/
def coveredBy (keys : List Nat) (g : Nat) : Bool := decide (64 ≤ (keys.filter fun k => k / 64 == g).length)

/-- Bytes stored to a core's scratchpad from a logical offset: memory and poison (12 R354). -/
def spadStore (s : State) (c : Core) (off : Nat) (bs : List Byte) : State :=
  let keys := (List.range bs.length).map fun i => spadAt c (off + i)
  { s with mem := spadSet s.mem c off bs,
           poison := if s.poison.isEmpty then [] else s.poison.filter fun g => !coveredBy keys g }

/-! ## Layout tags (08 R215-R217) -/

/-- The tag of a 4 KiB unit. -/
def tagOf (c : Core) (unit : Nat) : Nat × Nat := (lookupKey unit c.ltags).getD (0, 0)

/-- The units that `n` bytes from `off` touch whose tag differs from their bank's setting. -/
def staleUnits (c : Core) (off n : Nat) : List Nat :=
  if n = 0 then []
  else (granules (off / 4096) ((off + n - 1) / 4096 - off / 4096 + 1)).filter fun u =>
    let f := bankFmt c (bankOf (4096 * u))
    tagOf c u != (f.1, f.2.1)

/-- STATUS of LAYOUT: the bank, the unit and both settings (log 12). -/
def layoutStatus (c : Core) (u : Nat) : Nat :=
  let f := bankFmt c (bankOf (4096 * u))
  let t := tagOf c u
  (bankOf (4096 * u)).val * 2 ^ 32 + u % 64 * 2 ^ 16 + (t.2 * 16 + t.1) * 256 + (f.2.1 * 16 + f.1)

/-- An engine read of a range: LAYOUT at the first stale unit of a strict bank, else whether `LAYOUT_STALE` is set
(08 R216). -/
def layoutRead (c : Core) (off n : Nat) : Except Fail Flags :=
  let l := staleUnits c off n
  match l.find? fun u => (bankFmt c (bankOf (4096 * u))).2.2 with
  | some u => .error (failAt .layout (layoutStatus c u) (BitVec.ofNat 64 (0x8000000000000000 + 4096 * u)))
  | none => .ok (Flags.whenSet (!l.isEmpty) Flags.layoutStale)

/-- The tags after an engine write of a range, and whether a partial write changed one (08 R215). A unit that no engine has
written since the last scrub holds no other bytes to reinterpret (13 R371, R375; log 20). -/
def layoutWrite (c : Core) (off n : Nat) : Core × Flags :=
  if n = 0 then (c, 0)
  else (granules (off / 4096) ((off + n - 1) / 4096 - off / 4096 + 1)).foldl (fun x u =>
    let f := bankFmt x.1 (bankOf (4096 * u))
    let now := (f.1, f.2.1)
    let whole := decide (off ≤ 4096 * u) && decide (4096 * u + 4096 ≤ off + n)
    let stale := !whole && ((lookupKey u x.1.ltags).map fun t => t != now).getD false
    ({ x.1 with ltags := insertKey u now x.1.ltags }, x.2 ||| Flags.whenSet stale Flags.layoutStale)) (c, 0)

/-! ## Race detection -/

/-- The key of the race tag of a die-physical address (11 R313). -/
def rtagKey (s : State) (o : Fin 8) (a : Nat) : Nat :=
  let d := s.dies[o]
  hbmKey (peerOf s.pkg o.val) (bits d.rtagbase.toNat 12 40 * 4096 + 4 * ((a - bits d.rtagwin.toNat 0 16 * 2 ^ 21) / 256))

/-- e1 is at or above e0 (07 R206). -/
def epochAtLeast (e1 e0 : BitVec 15) : Bool := decide ((e1 - e0).toNat < 2 ^ 14)

/-- A serial is below a floor (07 R208). -/
def belowFloor (g f : BitVec 8) : Bool := decide (1 ≤ (f - g).toNat) && decide ((f - g).toNat ≤ 127)

/-- The agent of a core. -/
def actorOf (c : Core) : Actor :=
  ⟨c.agent, (c.task.map (·.serial)).getD 0, c.epoch, c.regs.ord.horizon, c.regs.ord.lost, c.regs.ord.floor⟩

/-- The check of a tag against an agent (07 R209). -/
def tagCheck (a : Actor) (tag : Nat) : Option Cause :=
  let ag := BitVec.ofNat 9 (bits tag 15 9)
  if tag = 0 ∨ ag.toNat = a.agent.val then none
  else if belowFloor (BitVec.ofNat 8 (bits tag 24 8)) a.floor then none
  else
    match a.horizon.find? fun h => h.agent == ag with
    | some h => if epochAtLeast h.epoch (BitVec.ofNat 15 (bits tag 0 15)) then none else some .race
    | none => if a.lost || decide (32 ≤ a.horizon.length) then some .horizonfull else some .race

/-- The tag of the granule an access touches, where race detection applies (07 R204). -/
def tagKeyFor (s : State) (p : Phys) : Option Nat :=
  if checkedPage s p.leaf then (ownerDie s p.leaf.peer).map fun o => rtagKey s o p.addr else none

/-- The check of one access (07 R209); `p` lies in one granule. -/
def raceCheck (s : State) (a : Actor) (p : Phys) (va : Word) : Except Fail Unit :=
  match tagKeyFor s p with
  | none => .ok ()
  | some k =>
    let tag := s.le k 4
    match tagCheck a tag with
    | none => .ok ()
    | some c => .error (failAt c tag va)

/-- The state with the tag of a plain write set (07 R205). -/
def setTag (s : State) (a : Actor) (p : Phys) : State :=
  match tagKeyFor s p with
  | none => s
  | some k => { s with mem := memSetList s.mem k (leBytes 4
      (a.serial.toNat * 2 ^ 24 + a.agent.val * 2 ^ 15 + a.epoch.toNat)) }

/-- An import into a horizon (07 R207). -/
def importEpoch (o : OrdRegs) (i : Import) : OrdRegs :=
  match o.horizon.find? fun h => h.agent == i.agent with
  | some h =>
    if epochAtLeast i.epoch h.epoch then
      { o with horizon := o.horizon.map fun x => if x.agent == i.agent then i else x }
    else o
  | none => if 32 ≤ o.horizon.length then { o with lost := true } else { o with horizon := o.horizon ++ [i] }

/-- The import that an acquire of a checked granule makes (07 R207). -/
def tagImport (s : State) (p : Phys) : Option Import :=
  (tagKeyFor s p).bind fun k =>
    let tag := s.le k 4
    if tag = 0 then none else some ⟨BitVec.ofNat 9 (bits tag 15 9), BitVec.ofNat 15 (bits tag 0 15)⟩

end Sys2Proof.Machine
end

