-- ==== Sys2Proof/Machine/Fetch.lean ====
section
/-! DEFINITION. Fetch and the PC queue: lines (02 R30-R36), program order (02 R32), the queue's advance (05 R89). -/

namespace Sys2Proof.Machine

/-- The line that holds an address. -/
def lineAddr (a : Nat) : Nat := a / 32 * 32
/-- The lane of an address. -/
def laneOf (a : Nat) : Nat := a % 32 / 4

/-- The word of lane `i` among the bytes of a line. -/
def laneWordAt (s : State) (key i : Nat) : Nat := s.le (key + 4 * i) 4

/-- The line at an aligned address, through the running task's context (02 R35); the one being executed is kept
(02 R36). ADDRESS of a failure is the address of the line. -/
def fetchLine (s : State) (a : Nat) : Except Fail Line :=
  match s.core.line with
  | some l => if l.addr = a then .ok l else fetchNew a
  | none => fetchNew a
where
  /-- A line read from memory. -/
  fetchNew (a : Nat) : Except Fail Line :=
    match translate s (some s.core) (dieOf s.core.agent) s.ctx s.isPriv .fetch a with
    | .error e => .error e
    | .ok p =>
      match firstPoison s.poison p.key 32 with
      | some _ => .error (failAt .poison 0 (BitVec.ofNat 64 (a / 64 * 64)))
      | none => .ok ⟨a, laneWordAt s p.key 0, (List.range 7).map fun i => laneWordAt s p.key (i + 1)⟩

/-- The word of lane `i` of a line. -/
def Line.word (l : Line) (i : Nat) : Nat := if i = 0 then l.header else l.words.getD (i - 1) 0
/-- The class of lane `i` of a line. -/
def Line.cls (l : Line) (i : Nat) : Option LaneClass := headerClass l.header i

/-- The first lane from `i` on that is not EMPTY; `n` lanes are left. -/
def firstLane (l : Line) : Nat → Nat → Option Nat
  | 0, _ => none
  | n + 1, i => if l.cls i = some .empty then firstLane l n (i + 1) else some i

/-- The first non-EMPTY lane at or after lane `i` of the line at `a`; as written where a line cannot be fetched
(05 R89). `fuel` lines are searched. -/
def resolveFrom (s : State) : Nat → Nat → Nat → Nat
  | 0, a, i => a + 4 * i
  | fuel + 1, a, i =>
    match fetchLine s a with
    | .error _ => a + 4 * i
    | .ok l =>
      match firstLane l (8 - i) i with
      | some j => a + 4 * j
      | none => resolveFrom s fuel (a + 32) 1

/-- Lines searched for the next instruction. -/
def scanFuel : Nat := 64

/-- The first non-EMPTY lane at or after an address (02 R35). -/
def resolveAt (s : State) (x : Nat) : Nat := resolveFrom s scanFuel (lineAddr x) (laneOf x)

/-- The lane after the instruction at an address, EMPTY or not: the lane after its CONT lane if it has one. -/
def afterLane (s : State) (x : Nat) : Nat :=
  let a := lineAddr x
  let i := laneOf x
  let j := match fetchLine s a with
    | .ok l => if i < 7 ∧ l.cls (i + 1) = some .cont then i + 2 else i + 1
    | .error _ => i + 1
  if j < 8 then a + 4 * j else a + 36

/-- seq(x): the next instruction after `x` in program order (05 R89). -/
def seqOf (s : State) (x : Nat) : Nat := resolveAt s (afterLane s x)

/-- The PC queue after an instruction that is no taken branch (05 R89). -/
def advance (s : State) : State :=
  s.modScc fun r =>
    { r with pcq0 := r.pcq1, pcq1 := r.pcq2, pcq2 := ⟨BitVec.ofNat 64 (seqOf s r.pcq2.addr.toNat), false⟩ }

/-- The PC queue after a taken branch or jump (05 R89). -/
def advanceTo (s : State) (target : Word) : State :=
  s.modScc fun r => { r with pcq0 := r.pcq1, pcq1 := r.pcq2, pcq2 := ⟨target, false⟩ }

/-- The instruction at PCQ0 has issued: it counts (12 R335), its replays and its hold end. -/
def issued (s : State) : State :=
  s.modScc fun r => { r with idx := r.idx + 1, replays := eraseKey r.idx.toNat r.replays, hold := none, barrier := none }

/-- An instruction that is no branch has issued. -/
def retire (s : State) : State := issued (advance s)

/-- A target is neither in a header lane nor misaligned nor outside global addresses (05 R93). -/
def targetForm (t : Word) : Bool := t.toNat % 32 != 0 && t.toNat % 4 == 0 && !bit t.toNat 63

/-- The target's lane is CONT, as far as its line can be fetched (05 R93). -/
def targetIsCont (s : State) (t : Word) : Bool :=
  match fetchLine s (lineAddr t.toNat) with
  | .ok l => l.cls (laneOf t.toNat) == some .cont
  | .error _ => false

/-- A PC queue whose first entry named an EMPTY lane, resolved; entries that only followed it as written follow it
again (05 R89). -/
def resolveQueue (s : State) : State :=
  let x := s.scc.pcq0.addr.toNat
  let y := resolveAt s x
  if y = x then s
  else
    let next (a : Nat) : Nat := if laneOf a < 7 then a + 4 else lineAddr a + 36
    let follows1 := decide (s.scc.pcq1.addr.toNat = next x) || decide (s.scc.pcq1.addr.toNat = y)
    let follows2 := follows1 && decide (s.scc.pcq2.addr.toNat ≤ seqOf s y)
    let p1 := if follows1 then BitVec.ofNat 64 (seqOf s y) else s.scc.pcq1.addr
    let p2 := if follows2 then BitVec.ofNat 64 (seqOf s p1.toNat) else s.scc.pcq2.addr
    s.modScc fun r =>
      { r with
        pcq0 := { r.pcq0 with addr := BitVec.ofNat 64 y }
        pcq1 := { r.pcq1 with addr := p1 }
        pcq2 := { r.pcq2 with addr := p2 } }

end Sys2Proof.Machine
end

