-- ==== Sys2Proof/Machine/Objects.lean ====
section
/-! DEFINITION. Code objects and launch tables as they lie in memory (03 R62), range-task records (09 R257) and the
joins they report to (09 R268). -/

namespace Sys2Proof.Machine

/-- `n` bytes of a context's global memory; 64-byte pieces are translated one by one. -/
def readVa (s : State) (d : Fin 8) (ctx : Fin 64) (priv : Bool) (need : Need) : Nat → Nat → Nat → Except Fail (List Byte)
  | 0, _, _ => .ok []
  | fuel + 1, va, n =>
    if n = 0 then .ok []
    else
      let m := min n (64 - va % 64)
      match translate s none d ctx priv need va with
      | .error e => .error e
      | .ok p =>
        match firstPoison s.poison p.key m with
        | some _ => .error (failAt .poison 0 (BitVec.ofNat 64 va))
        | none =>
          match readVa s d ctx priv need fuel (va + m) (n - m) with
          | .error e => .error e
          | .ok rest => .ok (s.bytes p.key m ++ rest)

/-- Bytes `off` to `off + n - 1` of a list as a number. -/
def leAt (bs : List Byte) (off n : Nat) : Nat := leNat ((bs.drop off).take n)

/-- Every one of `n` bytes from `off` on is zero. -/
def zeroAt (bs : List Byte) (off n : Nat) : Bool := leAt bs off n == 0

/-- A loop entry from its 16 bytes (03 R62). -/
def readLoop (bs : List Byte) : Option LoopEntry :=
  let kind := leAt bs 0 1
  let src := leAt bs 1 1
  let g := leAt bs 4 4
  let t := leAt bs 8 8
  if kind ≤ 2 ∧ src ≤ 1 ∧ leAt bs 2 2 = 0 ∧ 1 ≤ g ∧ (if src = 0 then 1 ≤ t ∧ t ≤ 2 ^ 48 else t ≤ 7) then
    some ⟨kind, src == 1, g, t⟩
  else none

/-- A stage entry from its 16 bytes; `last` says it is the last stage (03 R62). -/
def readStage (bs : List Byte) (first last : Bool) : Option StageEntry :=
  let role := leAt bs 0 1
  let bound := leAt bs 1 1
  let ok := leAt bs 2 2 = 0 ∧ leAt bs 12 4 = 0 ∧ (if last then bound = 0 else 1 ≤ bound ∧ bound ≤ 64)
  match role with
  | 0 => if ok ∧ first then some ⟨.load, bound, leAt bs 4 4, leAt bs 8 4⟩ else none
  | 1 => if ok then some ⟨.compute, bound, leAt bs 4 4, leAt bs 8 4⟩ else none
  | 2 => if ok ∧ last then some ⟨.store, bound, leAt bs 4 4, leAt bs 8 4⟩ else none
  | _ => none

/-- The first `n` results, if all are there. -/
def allSome {α : Type} : List (Option α) → Option (List α)
  | [] => some []
  | none :: _ => none
  | some a :: rest => (allSome rest).map (a :: ·)

/-- A header's fields, where each holds a listed value and every reserved field is zero (03 R62). -/
def parseObj (bs : List Byte) : Option CodeObj :=
  let nl := leAt bs 0x24 1
  let ns := leAt bs 0x25 1
  let entry (i : Nat) : List Byte := (bs.drop (0x80 + 16 * i)).take 16
  let stage (i : Nat) : List Byte := (bs.drop (0xE0 + 16 * i)).take 16
  if leAt bs 0 4 = 0x214F5A48 ∧ leAt bs 4 2 = 1 ∧ leAt bs 6 2 = 288 ∧ leAt bs 0x10 4 % 32 = 0 ∧ leAt bs 0x14 4 % 32 = 0
      ∧ nl ≤ 6 ∧ ns ≤ 4 ∧ leAt bs 0x26 1 < 16 ∧ leAt bs 0x27 1 < 2 ∧ leAt bs 0x28 4 ≤ 2 ^ 23 ∧ leAt bs 0x2C 84 = 0
      ∧ leAt bs (0x80 + 16 * nl) (96 - 16 * nl) = 0 ∧ leAt bs (0xE0 + 16 * ns) (64 - 16 * ns) = 0
      ∧ (ns = 0 ∨ leAt bs 0x18 4 = 0) then
    match allSome ((List.range nl).map fun i => readLoop (entry i)),
      allSome ((List.range ns).map fun i => readStage (stage i) (i == 0) (i + 1 == ns)) with
    | some ls, some ss =>
      if ns = 0 ∨ ss.any (fun x => x.role == .compute) then
        some ⟨BitVec.ofNat 64 (leAt bs 8 8), leAt bs 0x10 4, leAt bs 0x14 4, leAt bs 0x18 4, leAt bs 0x1C 4, leAt bs 0x20 4,
          BitVec.ofNat 4 (leAt bs 0x26 1), leAt bs 0x27 1 == 1, leAt bs 0x28 4, ls, ss⟩
      else none
    | _, _ => none
  else none

/-- Object-relative entries of an object: its entry field, or the targets of its COMPUTE stages. -/
def CodeObj.entries (o : CodeObj) : List Nat :=
  if o.stages.isEmpty then [o.entry] else (o.stages.filter fun x => x.role == .compute).map (·.target)

/-- The entry of a stage, object-relative. -/
def CodeObj.entryOf (o : CodeObj) (stage : Nat) : Nat :=
  o.codeOff + (match o.stages[stage]? with
    | some x => x.target
    | none => o.entry)

/-- The role of a stage; an object without stages runs as one COMPUTE stage (03 R62). -/
def CodeObj.roleOf (o : CodeObj) (stage : Nat) : Role :=
  match o.stages[stage]? with
  | some x => x.role
  | none => .compute

/-- Stages of an object, at least one. -/
def CodeObj.stageCount (o : CodeObj) : Nat := max 1 o.stages.length

/-- The resolved trip of a loop (03 R62). -/
def LoopEntry.resolve (l : LoopEntry) (bounds : List Word) : Nat :=
  if l.fromBound then (bounds.getD l.trip 0).toNat else l.trip

/-- The product of the resolved SPATIAL trips (03 R62). -/
def CodeObj.spatial (o : CodeObj) (bounds : List Word) : Nat :=
  o.loops.foldl (fun n l => if l.kind = 0 then n else n * l.resolve bounds) 1

/-- The granule of the last SPATIAL level; 1 with none (09 R265). -/
def CodeObj.granule (o : CodeObj) : Nat := o.loops.foldl (fun g l => if l.kind = 0 then g else l.granule) 1

/-- D: the product of the trips of the SPATIAL levels after the last SPATIAL_DIE level (09 R265). -/
def CodeObj.dieUnit (o : CodeObj) (bounds : List Word) : Nat :=
  o.loops.foldl (fun d l => if l.kind = 0 then d else if l.kind = 2 then 1 else d * l.resolve bounds) 1

/-- The object has a SPATIAL_DIE level. -/
def CodeObj.cutsDies (o : CodeObj) : Bool := o.loops.any fun l => l.kind == 2

/-- No access right is needed: firmware and schedulers read what they name. -/
def Need.any : Need := ⟨false, false, false⟩

/-- An entry lies in the code section on a lane that is neither a header nor CONT (03 R62). -/
def entryOk (s : State) (d : Fin 8) (ctx : Fin 64) (base : Nat) (o : CodeObj) (e : Nat) : Bool :=
  let a := base + o.codeOff + e
  decide (e < o.codeSize) && decide (e % 4 = 0) && decide (a % 32 ≠ 0) &&
    (match readVa s d ctx true .any 2 (lineAddr a) 4 with
     | .ok h => LaneClass.ofCode (bits (leNat h) (4 * laneOf a) 4) != some .cont
     | .error _ => false)

/-- The object at a global address, if it is well formed (03 R62, R394). -/
def readObj (s : State) (d : Fin 8) (ctx : Fin 64) (base : Nat) (bounds : List Word) : Option CodeObj :=
  if base % 32 ≠ 0 then none
  else
    match readVa s d ctx true .any 6 base 288 with
    | .error _ => none
    | .ok bs =>
      match parseObj bs with
      | none => none
      | some o =>
        if o.entries.all (entryOk s d ctx base o) ∧ o.spatial bounds ≤ 2 ^ 48 then some o else none

/-! ## Joins (09 R268) -/

/-- The join with a number. -/
def State.joinAt (s : State) (n : Nat) : Join := s.joins.getD n ⟨0, 0, 0, 0, []⟩
/-- The state with a join changed. -/
def State.modJoin (s : State) (n : Nat) (f : Join → Join) : State := { s with joins := s.joins.modify n f }
/-- One more child is expected. -/
def State.expect (s : State) (n : Nat) : State := s.modJoin n fun j => { j with expected := j.expected + 1 }
/-- A join is settled. -/
def Join.settled (j : Join) : Bool := j.ended == j.expected

/-- A child has ended: its record address if it failed, and its agent and epoch. -/
def State.childEnds (s : State) (n : Nat) (failed : Option Word) (by_ : Option Import) : State :=
  s.modJoin n fun j =>
    { j with
      ended := j.ended + 1
      failed := j.failed + (if failed.isSome then 1 else 0)
      first := if j.failed = 0 then failed.getD j.first else j.first
      enders := j.enders ++ by_.toList }

/-- A new join, empty, and its number. -/
def State.newJoin (s : State) : State × Nat := ({ s with joins := s.joins ++ [⟨0, 0, 0, 0, []⟩] }, s.joins.length)

/-- An MSI-X vector is signalled (01 R27). -/
def State.signal (s : State) (v : Nat) : State := { s with msix := s.msix ++ [v] }

/-- The launch of a task. -/
def State.launchOf (s : State) (t : Task) : Option Launch := t.launch.bind fun n => s.launches[n]?

/-- The pre-emption deadline of a task. -/
def State.deadlineOf (s : State) (t : Task) : Nat := ((s.launchOf t).map (·.deadline)).getD 0

/-- A die may run a task: accepted features and die mask (11 R326, 09 R261). -/
def dieCovers (s : State) (d : Fin 8) (t : Task) : Bool :=
  let x := s.dies[d]
  x.featon != 0 && (t.obj.features &&& ~~~x.featon == 0) && bit x.taskstore.toNat 0
    && ((s.launchOf t).map fun l => l.dieMask.getLsbD d.val).getD true

end Sys2Proof.Machine
end

