-- ==== Sys2Proof/Machine/Sched.lean ====
section
/-! DEFINITION. The die scheduler's operations: blazes dropped, placement (09 R259), saves and images (09 R272, R273,
12 R351-R353), scrubs (11 R320), a task starting or resuming on a core (02 R41, 09 R264), and a task ending
(09 R268, R279). -/

namespace Sys2Proof.Machine

/-! ## Blaze entries (07 R193-R197) -/

/-- An entry that may be freed (07 R197): LANDED, or FAILED and no longer held, with every watcher answered. -/
def BlazeEnt.freeable (b : BlazeEnt) : Bool :=
  (b.state == .landed || (b.state == .failed && b.dropped)) && b.watchers == 0

/-- A TOKENEXPIRED that names a FAILED entry waits for its action on the issuer, or the CPH that carries it is to be sent
(12 R358). -/
def namedByPending (s : State) (agent : Fin 512) (entry : Nat) : Bool :=
  let p := (s.coreAt agent).regs.pend
  (p.late.any fun r => r.cause == .tokenexpired && bits r.status.toNat 37 12 == entry)
    || (s.coreAt agent).regs.cp.copies.any fun c => c.phase == .run && c.carried.any fun b => b.1.entry.val == entry

/-- A die's entry freed if it may be: its generation moves on (07 R197). -/
def freeBlaze (s : State) (d : Fin 8) (e : Nat) : State :=
  match lookupKey e s.dies[d].blazes with
  | none => s
  | some b =>
    if b.freeable && !(b.state == .failed && namedByPending s b.agent e) then
      s.modDie d fun x =>
        { x with blazes := eraseKey e x.blazes, blazeGens := insertKey e (b.gen + 1) x.blazeGens }
    else s

/-- An entry changed, then freed if it may be. -/
def modBlaze (s : State) (d : Fin 8) (e : Nat) (f : BlazeEnt → BlazeEnt) : State :=
  match lookupKey e s.dies[d].blazes with
  | none => s
  | some b => freeBlaze (s.modDie d fun x => { x with blazes := insertKey e (f b) x.blazes }) d e

/-- The entry a z-register names, where its home is a die of this package and the generation still matches. -/
def blazeOf (s : State) (z : BlazeRef) : Option (Fin 8 × BlazeEnt) :=
  match ownerDie s z.home with
  | none => none
  | some d =>
    match lookupKey z.entry.val s.dies[d].blazes with
    | some b => if b.gen = z.gen then some (d, b) else none
    | none => none

/-- The state of a held blaze; one whose generation is past reads as LANDED (07 R194). -/
def blazeState (s : State) (z : BlazeRef) : BlazeState :=
  match blazeOf s z with
  | some (_, b) => b.state
  | none => .landed

/-- A held blaze is dropped at its home (07 R194, R197). -/
def dropRef (s : State) (z : BlazeRef) : State :=
  match blazeOf s z with
  | some (d, _) => modBlaze s d z.entry.val fun b => { b with dropped := true }
  | none => s

/-- z-register `n` of the core in focus emptied as `ZDROP` empties it (07 R194). -/
def dropZ (s : State) (n : Fin 16) : State :=
  match s.ord.z[n] with
  | none => s
  | some z => dropRef (s.modOrd fun o => { o with z := o.z.set n none }) z

/-- Every blaze of the task is dropped. -/
def dropAllZ (s : State) : State := (List.finRange 16).foldl dropZ s

/-! ## Buffers (09 R266) -/

/-- A handle's number (09 R266). -/
def Handle.toWord (h : Handle) : Word := BitVec.ofNat 64 (h.gen.toNat * 2 ^ 32 + h.off)

/-- A buffer returns to the pool and its generation moves on. -/
def freeBuffer (c : Core) (h : Handle) : Core :=
  { c with pool := c.pool.map fun b =>
      if b.off == h.off && b.gen == h.gen then { b with free := true, landed := false, passer := none, gen := b.gen + 1 }
      else b }

/-- Bytes of the pool of an object: a buffer for each handle a queue may hold and one more (09 R266). -/
def poolBytes (o : CodeObj) : Nat := o.stages.foldl (fun n x => n + (x.bound + 1) * x.bufBytes) 0

/-- `n` free buffers from an offset on. -/
def poolRun (launch stage bytes : Nat) : Nat → Nat → List PoolBuf
  | 0, _ => []
  | n + 1, off => ⟨launch, stage, off, bytes, 1, true, false, none⟩ :: poolRun launch stage bytes n (off + bytes)

/-- The buffers of each stage from an offset on. -/
def poolOf (launch : Nat) : Nat → List StageEntry → Nat → List PoolBuf
  | _, [], _ => []
  | i, x :: xs, off => poolRun launch i x.bufBytes (x.bound + 1) off ++ poolOf launch (i + 1) xs (off + (x.bound + 1) * x.bufBytes)

/-- The core reserves the pool of a task's launch at the top of its scratchpad, below the pools of other launches. -/
def reservePool (c : Core) (t : Task) : Core :=
  match t.launch with
  | none => c
  | some n =>
    if t.obj.stages.isEmpty || c.pool.any (fun b => b.launch == n) then c
    else
      let top := c.pool.foldl (fun m b => min m b.off) (2 ^ 23)
      { c with pool := c.pool ++ poolOf n 0 t.obj.stages (top - poolBytes t.obj) }

/-! ## Placement (09 R257, R259) -/

/-- The core an entry waits on. -/
def TaskEnt.readyOn (e : TaskEnt) (n : Fin 512) : Bool :=
  match e.place with
  | .ready c _ _ _ => c == n
  | _ => false

/-- Ready and running tasks of a core. -/
def loadOf (s : State) (n : Fin 512) : Nat :=
  (s.tasks.filter fun e => e.readyOn n).length + (if (s.coreAt n).task.isSome then 1 else 0)

/-- Ready tasks of a core in stages later than one. -/
def laterOf (s : State) (n : Fin 512) (stage : Nat) : Nat :=
  (s.tasks.filter fun e => e.readyOn n && decide (stage < e.task.stage)).length

/-- The agent numbers of a clearing of a die. -/
def clearingCores (d : Fin 8) (cl : Nat) : List (Fin 512) :=
  (List.range 8).map fun m => Fin.ofNat 512 (d.val * 64 + cl % 8 * 8 + m)

/-- The agent numbers of a die. -/
def dieCores (d : Fin 8) : List (Fin 512) := (List.range 64).map fun m => Fin.ofNat 512 (d.val * 64 + m)

/-- A core that may take tasks: enabled and not halted. -/
def usable (s : State) (n : Fin 512) : Bool := !s.disabled n && !(s.coreAt n).halted

/-- The better of two cores for a new task of a stage (09 R259). -/
def betterCore (s : State) (stage : Nat) (a b : Fin 512) : Fin 512 :=
  if loadOf s b < loadOf s a ∨ (loadOf s b = loadOf s a ∧ laterOf s b stage < laterOf s a stage) then b else a

/-- The core of a list that takes a new task. -/
def bestCore (s : State) (stage : Nat) (l : List (Fin 512)) : Option (Fin 512) :=
  match l.filter (usable s) with
  | [] => none
  | c :: cs => some (cs.foldl (betterCore s stage) c)

/-- The core of a clearing that takes a new task; where a clearing has none, the die's (log 14). -/
def coreFor (s : State) (d : Fin 8) (cl stage : Nat) : Fin 512 :=
  match bestCore s stage (clearingCores d cl) with
  | some c => c
  | none => (bestCore s stage (dieCores d)).getD (Fin.ofNat 512 (d.val * 64 + cl % 8 * 8))

/-- The clearing `AFFTAB` gives a pseudo-channel (09 R259). -/
def affClearing (d : Die) (pc : Nat) : Nat := bits (d.afftab.toList.getD (pc / 16) 0).toNat (4 * (pc % 16)) 3

/-- The next task number of a launch on a die (09 R257): from 1, and after 2,097,151 from 1 again. -/
def nextNumber (s : State) (d : Fin 8) (launch : Option Nat) : State × Nat :=
  let key := (launch.map (· + 1)).getD 0
  let n := (lookupKey key s.dies[d].numbered).getD 0
  let m := if n = 2097151 then 1 else n + 1
  (s.modDie d fun x => { x with numbered := insertKey key m x.numbered }, m)

/-- A task id (09 R257). -/
def taskId (serial : BitVec 8) (d : Fin 8) (n : Nat) : BitVec 32 :=
  BitVec.ofNat 32 (serial.toNat * 2 ^ 24 + d.val * 2 ^ 21 + n % 2 ^ 21)

/-! ## YREQ (09 R269, R270) -/

/-- YREQ is raised on a core. -/
def raiseYreq (s : State) (n : Fin 512) (park : Bool) : State :=
  let c := s.coreAt n
  s.setCoreAt n { c with yreq := some (c.yreq.getD s.dies[dieOf n].cycle.toNat), parkReq := c.parkReq || park }

/-- A task that other cores of a die may take (09 R261). -/
def stealable (s : State) (d : Fin 8) (t : Task) : Bool :=
  t.obj.roleOf t.stage == .compute && t.inbound == 0 && t.handles.isEmpty && dieCovers s d t

/-- A core could start a ready task that waits on a core of its die (09 R269). -/
def eligible (s : State) (home n : Fin 512) (t : Task) : Bool :=
  usable s n && (n == home || (dieOf n == dieOf home && stealable s (dieOf n) t))

/-- A ready task's core and its level. -/
def TaskEnt.waitsOn (e : TaskEnt) : Option (Fin 512 × Nat) :=
  match e.place with
  | .ready c _ _ level => some (c, level)
  | _ => none

/-- The better of two cores on which to raise YREQ: the task of lower priority, then the lower core number. -/
def worsePrio (s : State) (a b : Fin 512) : Fin 512 :=
  let p (n : Fin 512) : Nat := ((s.coreAt n).task.map (·.prio)).getD 0
  if p a < p b then b else a

/-- The core on which a waiting task raises YREQ, those of a list and those with a park request apart. -/
def yreqCore (s : State) (used : List (Fin 512)) (e : TaskEnt) : Option (Fin 512) :=
  e.waitsOn.bind fun w =>
    let l := (dieCores (dieOf w.1)).filter fun n => eligible s w.1 n e.task
    if l.any fun n => (s.coreAt n).task.isNone then none
    else
      match l.filter fun n => !used.contains n && !(s.coreAt n).parkReq && (s.coreAt n).task.any fun t => decide (w.2 < t.prio) with
      | [] => none
      | c :: cs => some (cs.foldl (worsePrio s) c)

/-- The cores that the waiting tasks of a die choose, each one its own, oldest task first. -/
def yreqCores (s : State) (d : Fin 8) : List (Fin 512) :=
  (s.tasks.filter fun e => e.waitsOn.any fun w => dieOf w.1 == d).foldl (fun used e =>
    match yreqCore s used e with
    | some n => used ++ [n]
    | none => used) []

/-- YREQ is raised for the waiting tasks of a die (09 R270). -/
def yreqScan (s : State) (d : Fin 8) : State :=
  (yreqCores s d).foldl (fun x n => if (x.coreAt n).yreq.isSome then x else raiseYreq x n false) s

/-! ## New tasks -/

/-- A numbered task joins the tail of a core's queue at its priority; LOAD and STORE stages are run by copy engines. -/
def enqueue (s : State) (t0 : Task) (core : Fin 512) : State :=
  let t := { t0 with home := core }
  let place : Place := if t.obj.roleOf t.stage = .compute then .ready core s.dies[dieOf core].cycle.toNat 0 t.prio
    else .stage core
  yreqScan { s with tasks := s.tasks ++ [⟨t, place, none⟩] } (dieOf core)

/-- A new task numbered by a die and placed on a clearing of it. -/
def placeOn (s : State) (d : Fin 8) (cl : Nat) (t : Task) : State × BitVec 32 :=
  let r := nextNumber s d t.launch
  let id := taskId t.serial d r.2
  (enqueue r.1 { t with id := id } (coreFor r.1 d cl t.stage), id)

/-- Where the anchor of a task lies: the die of this package that holds its frame, and the address there. -/
def anchorFrame (s : State) (d : Fin 8) (t : Task) : Option (Fin 8 × Nat) :=
  if t.anchor = 0 ∨ 2 ^ 57 ≤ t.anchor.toNat then none
  else (translateOnly s d t.ctx t.anchor.toNat).bind fun p => (ownerDie s p.leaf.peer).map fun o => (o, p.addr)

/-- A new task placed by step 2 of 09 R259 where its anchor maps to a frame of the die, else on a given clearing. -/
def placeHere (s : State) (d : Fin 8) (cl : Nat) (t : Task) : State × BitVec 32 :=
  match anchorFrame s d t with
  | some (o, a) => if o = d then placeOn s d (affClearing s.dies[d] (pseudoChannel s.dies[d] a)) t else placeOn s d cl t
  | none => placeOn s d cl t

/-- The die a new task of a core is forwarded to (09 R259 step 3). -/
def forwardDie (s : State) (d : Fin 8) (t : Task) : Option (Fin 8) :=
  match anchorFrame s d t with
  | some (o, _) => if o ≠ d ∧ t.fwd ∧ dieCovers s o t then some o else none
  | none => none

/-! ## Saves (09 R272, R273, 12 R351-R353) -/

/-- The entries of a memory whose keys lie in a range, as offsets from its start. -/
def cellsIn (m : List Host.Cell) (lo n : Nat) : List (Nat × Byte) :=
  (m.filter fun c => decide (lo ≤ c.1) && decide (c.1 < lo + n)).map fun c => (c.1 - lo, c.2)

/-- The memory with a range replaced by listed bytes. -/
def putCells (m : List Host.Cell) (lo n : Nat) (cs : List (Nat × Byte)) : List Host.Cell :=
  cs.foldl (fun x c => memSet x (lo + c.1) c.2) (memClear m lo (lo + n))

/-- One more than the highest declared accumulator slot. -/
def slotTop (o : CodeObj) : Nat :=
  if o.slots.getLsbD 3 then 4 else if o.slots.getLsbD 2 then 3 else if o.slots.getLsbD 1 then 2
  else if o.slots.getLsbD 0 then 1 else 0

/-- 4 KiB units of the declared scratchpad bytes: each has one tag byte in an image (12 R353). -/
def tagUnits (o : CodeObj) : Nat := (o.spad + 4095) / 4096

/-- Offset of the ME section of an image, after the fixed part and the VE section (12 R353, log 15). -/
def meSection (vec : Bool) : Nat := 10240 + (if vec then 65536 else 0)

/-- Offset of the accumulator section, after the ME section. -/
def accSection (vec : Bool) : Nat := meSection vec + 278528

/-- Offset of the scratchpad section, after the accumulator section. -/
def spadSection (o : CodeObj) (vec acc : Bool) : Nat := accSection vec + (if acc then 131072 * slotTop o else 0)

/-- Size of an image in bytes: the fixed part and the bounds of the sections it has (12 R353, log 15). -/
def imageSize (o : CodeObj) (vec acc : Bool) : Nat :=
  spadSection o vec acc + (if o.spad = 0 then 0 else (o.spad + tagUnits o + 255) / 256 * 256)

/-- The offsets at 0x20 of an image: VE, ME, accumulator and scratchpad section, 0 for one not kept (12 R352). -/
def sectionOffsets (o : CodeObj) (vec acc : Bool) : List Nat :=
  [if vec then 10240 else 0, meSection vec, if acc then accSection vec else 0,
    if o.spad = 0 then 0 else spadSection o vec acc]

/-- The first place of a length in the save area that overlaps no place in use; candidates are its start and the end
of each place. -/
def findPlace (area len : Nat) (used : List (Nat × Nat)) (need : Nat) : Option Nat :=
  let cands := area :: used.map fun u => u.1 + u.2
  cands.find? fun b => decide (area ≤ b) && decide (b + need ≤ area + len) &&
    used.all fun u => decide (b + need ≤ u.1) || decide (u.1 + u.2 ≤ b)

/-- The place an image would take on a die (12 R351). -/
def roomFor (s : State) (d : Fin 8) (need : Nat) : Option Nat :=
  let x := s.dies[d]
  findPlace (bits x.savearea.toNat 16 36 * 65536) (bits x.savelen.toNat 16 24 * 65536) x.saves need

/-- A PC queue entry as records and images hold it (12 R337). -/
def pcWord (e : PcEntry) : Nat := e.addr.toNat / 4 * 4 + (if e.nul then 1 else 0)

/-- A blaze as images hold it (12 R352). -/
def zWord (z : Option BlazeRef) : Nat :=
  match z with
  | none => 0
  | some r => 2 ^ 63 + r.home.toNat * 2 ^ 48 + r.entry.val * 2 ^ 36 + r.gen.toNat * 2 ^ 31

/-- Words as bytes. -/
def words (l : List Nat) : List Byte := l.flatMap fun w => leBytes 8 w

/-- A list of words cut or filled with zeros to a length. -/
def fillTo (n : Nat) (l : List Nat) : List Nat := (List.range n).map fun i => l.getD i 0

/-- Control word of the held access (12 R352). -/
def heldControl (f : Flight) : Nat :=
  f.size + (if f.store then 256 else 0) + f.dest.val * 2 ^ 9 + (f.slot.map (·.val)).getD 0 * 2 ^ 14
    + (if f.slot.isSome then 2 ^ 17 else 0) + f.scope.code * 2 ^ 18

/-- The wait slots that some accesses have set, one bit each (07 R175). -/
def slotMask (l : List Flight) : Nat :=
  (List.range 8).foldl (fun m i => if l.any fun f => f.slot.any fun x => x.val == i then m + 2 ^ i else m) 0

/-- The fixed part of an image with its CRC field zero (12 R352). -/
def fixedPart (t : Task) (c : Core) (vec acc forced loop : Bool) (cause size : Nat) : List Byte :=
  let r := c.regs
  let o := r.ord
  leBytes 4 0x53565A48 ++ leBytes 2 1
    ++ leBytes 1 ((if vec then 1 else 0) + (if acc then 2 else 0) + (if forced then 4 else 0) + (if loop then 8 else 0))
    ++ leBytes 1 cause ++ leBytes 4 t.id.toNat ++ leBytes 4 t.obj.spad ++ words [t.cur, size]
    ++ (sectionOffsets t.obj vec acc).flatMap (leBytes 4)
    ++ words [r.scc.idx.toNat, r.cp.cseq.toNat]
    ++ words (r.scc.s.toList.map (·.toNat))
    ++ words [pcWord r.scc.pcq0, pcWord r.scc.pcq1, pcWord r.scc.pcq2]
    ++ words [((lookupKey r.scc.idx.toNat r.scc.replays).getD 0) % 256]
    ++ words [r.fp.seed.toNat, r.fp.rngcnt.toNat, r.fp.fpctl.toNat, r.fp.fpflags.toNat, r.scc.res.toNat,
        r.scc.resseq.toNat, c.ttcfg.toNat, r.cp.events.length]
    ++ words (c.bfmt.toList.map (·.toNat))
    ++ words (fillTo 64 (r.cp.events.map (·.toNat)))
    ++ words (o.z.toList.map zWord)
    ++ words (r.ve.b.toList.map (·.toNat)) ++ words (r.me.b.toList.map (·.toNat)) ++ words (r.cp.b.toList.map (·.toNat))
    ++ words (fillTo 32 (o.horizon.map fun h => 2 ^ 63 + h.agent.toNat * 2 ^ 15 + h.epoch.toNat))
    ++ words [o.floor.toNat + (if o.lost then 256 else 0)]
    ++ words (r.cp.subs.toList.map fun x => (x.map fun y => 2 ^ 63 + y.next).getD 0)
    ++ words (fillTo 16 (t.handles.map fun h => h.toWord.toNat))
    ++ words [c.hand] ++ leBytes 4 0 ++ leBytes 1 (slotMask o.held) ++ leBytes 3 0
    ++ words (match o.held with
        | f :: _ => [f.addr.toNat, f.data.toNat, heldControl f, 0]
        | [] => [0, 0, 0, 0])
    ++ words (match o.release with
        | some p => [(if p.arrive then 2 else 1) + p.reg.val * 4 + p.scope.code * 128, p.addr.toNat, p.data.toNat]
        | none => [0, 0, 0])
    ++ words [0, 0]
    ++ words (fillTo 1024 ((List.range 1024).map fun i =>
        match lookupKey i c.ttab with
        | some (k, ref) => 2 ^ 63 + (if ref then 2 ^ 62 else 0) + k.toNat
        | none => 0))

/-- The fixed part with the image's CRC in its field. That CRC covers bytes that the Valot lays out in its own way, so no
rule gives its value: it is a free one (12 R352, R353, log 9). -/
def sealed (crc : Word) (bs : List Byte) : List Byte :=
  bs.take 0x7B0 ++ leBytes 4 (bits crc.toNat 0 32) ++ bs.drop 0x7B4

/-- The state with a range replaced by listed bytes, as one store of the whole range. -/
def State.storeCells (s : State) (k n : Nat) (cs : List (Nat × Byte)) : State :=
  let t := markDirty s k n
  { t with mem := putCells t.mem k n cs, poison := clearCovered t.poison k n }

/-- The tag bytes of an image, one per unit: TYPE and SWZ (12 R353). -/
def tagBytes (c : Core) (o : CodeObj) : List Byte :=
  (List.range (tagUnits o)).map fun u => BitVec.ofNat 8 ((tagOf c u).1 + (tagOf c u).2 * 16)

/-- The accumulator section of an image: the declared slots, element by element (06 R137, 12 R353). -/
def saveAccs (s : State) (o : CodeObj) (key a : Nat) : State :=
  (List.range 4).foldl (fun x i =>
    if o.slots.getLsbD i then x.storeCells (key + 131072 * i) 131072 (cellsIn x.mem (accKey a (131072 * i)) 131072) else x) s

/-- The scratchpad section of an image: the declared bytes and their tag bytes; poisoned granules stay poisoned in it
(12 R353). -/
def saveSpad (s : State) (c : Core) (o : CodeObj) (key a : Nat) : State :=
  if o.spad = 0 then s
  else
    let x := (s.storeCells key o.spad (cellsIn s.mem (spadKey a 0) o.spad)).store (key + o.spad) (tagBytes c o)
    (s.poison.filter fun g => decide (spadKey a 0 ≤ 64 * g) && decide (64 * g < spadKey a 0 + o.spad)).foldl
      (fun y g => y.poisonAt (key + (64 * g - spadKey a 0))) x

/-- An image written at a key: its fixed part and the sections whose layout the spec gives (12 R352, R353). -/
def writeImage (s : State) (t : Task) (vec acc forced : Bool) (cause key : Nat) : State :=
  let c := s.core
  let a := c.agent.val
  let x := s.store key (sealed (Config.freeWord s.free)
    (fixedPart t c vec acc forced c.regs.ve.loop.isSome cause (imageSize t.obj vec acc)))
  let y := if acc then saveAccs x t.obj (key + accSection vec) a else x
  { saveSpad y c t.obj (key + spadSection t.obj vec acc) a with free := s.free + 1 }

/-- The registers as a save keeps them: what is not selected reads as at entry, and nothing runs (09 R273). -/
def keptRegs (r : TaskRegs) (vec : Bool) : TaskRegs :=
  let o := { r.ord with release := r.ord.release.map fun p => { p with slot := none } }
  let c := { r.scc with hold := none, barrier := none }
  if vec then { r with ord := o, scc := c }
  else
    { r with
      ord := o
      scc := c
      ve := { r.ve with
        v := TaskRegs.entry.ve.v
        p := TaskRegs.entry.ve.p
        vrb := 0
        prb := 0
        ports := TaskRegs.entry.ve.ports
        landing := TaskRegs.entry.ve.landing } }

/-- The running task of the core in focus saved: its image is written and the core is left without a task. Slots are
kept where the object declares any. None when the save area has no room (12 R351). -/
def saveTask (s : State) (t : Task) (vec slots forced : Bool) (cause : Nat) (record : Word) (stopped : Option Raised) :
    Option (State × Image) :=
  let c := s.core
  let d := dieOf c.agent
  let acc := slots && decide (t.obj.slots ≠ 0)
  let size := imageSize t.obj vec acc
  match roomFor s d size with
  | none => none
  | some base =>
    let key := hbmKey (peerOf s.pkg d.val) base
    let a := c.agent.val
    let s1 := writeImage s t vec acc forced cause key
    let img : Image :=
      { vec := vec, acc := acc, forced := forced, cause := cause, regs := keptRegs c.regs vec, ttcfg := c.ttcfg,
        bfmt := c.bfmt, ttab := c.ttab, hand := c.hand, spad := cellsIn s.mem (spadKey a 0) t.obj.spad,
        accs := if acc then cellsIn s.mem (accKey a 0) (2 ^ 19) else [],
        tags := c.ltags.filter fun x => decide (4096 * x.1 < t.obj.spad), cells := cellsIn s1.mem key size,
        die := d, base := base, len := size, record := record, stopped := stopped, skip := false }
    let s2 := s1.modDie d fun x => { x with saves := x.saves ++ [(base, size)] }
    some ({ s2 with core := { c with
      task := none, regs := TaskRegs.entry, yreq := none, parkReq := false, line := none, rrot := none, refused := none } }, img)

/-! ## Scrubs and starts -/

/-- A core's memories and tables cleared (11 R320, 12 R359): scratchpad, poison, tags, formats, tag table,
accumulators, core TLB. -/
def clearCore (s : State) (n : Fin 512) : State :=
  let lo := spadKey n.val 0
  let m := memClear (memClear s.mem lo (lo + 2 ^ 23)) (accKey n.val 0) (accKey n.val 0 + 2 ^ 19)
  let p := s.poison.filter fun g => decide (64 * g < lo ∨ lo + 2 ^ 23 ≤ 64 * g)
  let c := s.coreAt n
  { s with mem := m, poison := p }.setCoreAt n
    { c with bfmt := Vector.replicate 32 0, ttcfg := 0, ttab := [], hand := 0, ltags := [], tlb := [], line := none }

/-- The scrub before a task of another context (11 R320). -/
def scrub (s : State) (ctx : Fin 64) : State :=
  if s.core.resident = some ctx then s
  else
    let t := clearCore s s.core.agent
    t.modCore fun c =>
      { c with
        resident := some ctx
        regs := { c.regs with
          me := { c.regs.me with mergeBuf := [] }
          ve := { c.regs.ve with landing := Vector.replicate 16 none } } }

/-- The registers at task entry (02 R41), the PC queue apart. -/
def entryRegs (t : Task) : TaskRegs :=
  let e := TaskRegs.entry
  { e with
    scc := { e.scc with
      s := ((((e.scc.s.set 1 t.arg).set 2 (BitVec.ofNat 64 t.lo)).set 3 (BitVec.ofNat 64 t.hi)).set 4 t.inbound).set 5 t.anchor }
    ord := { e.ord with floor := t.floor, horizon := t.spawner.toList } }

/-- Declared slots hold +0 (02 R41, 06 R138). -/
def zeroSlots (s : State) (o : CodeObj) : State :=
  (List.range 4).foldl (fun x i =>
    if o.slots.getLsbD i then
      { x with mem := memClear x.mem (accKey x.core.agent.val (i * 2 ^ 17)) (accKey x.core.agent.val ((i + 1) * 2 ^ 17)) }
    else x) s

/-- A task that has not run starts on the core in focus (02 R41). -/
def startTask (s : State) (t : Task) : State :=
  let s1 := zeroSlots (scrub s t.ctx) t.obj
  let s2 := s1.modCore fun c => reservePool
    { c with task := some { t with cur := t.lo, ran := true, home := c.agent }, regs := entryRegs t, yreq := none, parkReq := false, line := none } t
  let e := t.code.toNat + t.obj.entryOf t.stage
  let q1 := seqOf s2 e
  s2.modScc fun r => { r with pcq0 := ⟨BitVec.ofNat 64 e, false⟩, pcq1 := ⟨BitVec.ofNat 64 q1, false⟩, pcq2 := ⟨BitVec.ofNat 64 (seqOf s2 q1), false⟩ }

/-- The save-area place of an image is free again. -/
def releasePlace (s : State) (i : Image) : State :=
  s.modDie i.die fun x => { x with saves := x.saves.filter fun u => !(u.1 == i.base && u.2 == i.len) }

/-- An image that does not read back as it was written: poison, or a CRC that fails (12 R353, log 15). -/
def imageFault (s : State) (i : Image) : Option Cause :=
  let key := hbmKey (peerOf s.pkg i.die.val) i.base
  if (firstPoison s.poison key i.len).isSome then some .poison
  else if cellsIn s.mem key i.len = i.cells then none
  else some .checkfail

/-- A saved task restored on the core in focus (09 R273); CONTINUE passes over the instruction at PCQ0 (12 R350). -/
def restoreTask (s : State) (t : Task) (i : Image) : State :=
  let x := restored s t i
  if i.skip then issued (advance x) else x
where
 /-- The task back on the core. -/
 restored (s : State) (t : Task) (i : Image) : State :=
  let s1 := scrub s t.ctx
  let a := s1.core.agent.val
  let m1 := putCells s1.mem (spadKey a 0) t.obj.spad i.spad
  let s2 := { s1 with
    mem := if i.acc then putCells m1 (accKey a 0) (2 ^ 19) i.accs else m1
    poison := s1.poison.filter fun g => decide (64 * g < spadKey a 0 ∨ spadKey a 0 + t.obj.spad ≤ 64 * g) }
  let s3 := if i.acc then s2 else zeroSlots s2 t.obj
  let me := { i.regs.me with run := i.regs.me.run.map fun r => { r with since := s.now } }
  let regs := { i.regs with me := if i.acc then me else { me with intSlot := Vector.replicate 4 false } }
  releasePlace (s3.modCore fun c => reservePool
    { c with
      task := some { t with home := c.agent }, regs := regs, yreq := none, parkReq := false, line := none, ttcfg := i.ttcfg, bfmt := i.bfmt
      ttab := i.ttab, hand := i.hand
      ltags := (c.ltags.filter fun x => decide (t.obj.spad ≤ 4096 * x.1)) ++ i.tags } t) i

/-! ## Ends -/

/-- A copy with a local range stops with its task; one that lies wholly in global memory runs on (12 R333). Window
addresses have bit 63. -/
def Cmd.isLocal (c : Cmd) : Bool :=
  let window (i : Nat) : Bool := bit (c.vals.getD i 0).toNat 63
  match c.instr with
  | .rrot _ | .subs _ | .unsub _ => true
  | .copyf _ => window 0
  | .atom _ => window 0
  | .atomf _ => window 0 || window 3
  | _ => window 0 || window 1

/-- The entries of CPBs that are discarded unwritten become FAILED, so that every watcher is answered (07 R195). -/
def failBlazes (s : State) (l : List CopyRun) : State :=
  l.foldl (fun x c => match c.blaze with
    | some z => (match blazeOf x z with
      | some (d, _) => modBlaze x d z.entry.val fun b =>
          if b.state = .pending then { b with state := .failed, dropped := true } else { b with dropped := true }
      | none => x)
    | none => x) s

/-- A watcher of an entry has been answered or released (07 R197). -/
def unwatch (s : State) (z : BlazeRef) : State :=
  match blazeOf s z with
  | some (d, _) => modBlaze s d z.entry.val fun b => { b with watchers := b.watchers - 1 }
  | none => s

/-- The watchers of a CPH that have not been answered are released. -/
def unwatchAll (s : State) (h : HoldEnt) : State :=
  h.blazes.foldl (fun x b => if b.2.2.isNone then unwatch x b.1 else x) s

/-- A hold-queue entry of a die removed. -/
def dropHold (s : State) (d : Fin 8) (h : HoldEnt) : State := s.modDie d fun x => { x with hold := x.hold.erase h }

/-- The held CPHs of a discarded task that have a local range go with it (12 R342). -/
def dropLocalHolds (s : State) (id : BitVec 32) (isLocal : Cmd → Bool) : State :=
  (List.finRange 8).foldl (fun x d =>
    (x.dies[d].hold.filter fun h => h.who.id == id && isLocal h.cmd).foldl (fun y h => unwatchAll (dropHold y d h) h) x) s

/-- The core in focus is left without its task: handles freed, blazes dropped, subscriptions ended, engines empty. -/
def leaveCore (s : State) (t : Task) : State :=
  let s1 := dropLocalHolds (failBlazes (dropAllZ s) s.cp.copies) t.id Cmd.isLocal
  s1.modCore fun c =>
    { (t.handles.foldl freeBuffer c) with
      task := none, regs := TaskRegs.entry, yreq := none, parkReq := false, line := none, rrot := none, refused := none }

/-- The task of the core in focus ends (09 R268): a failure carries its record address. -/
def endTask (s : State) (t : Task) (failed : Option Word) (by_ : Option Import) : State :=
  (leaveCore s t).childEnds t.join failed by_

/-- A park request for a task has been answered (11 R311). -/
def parkAnswered (s : State) (id : BitVec 32) : State :=
  { s with dies := s.dies.map fun d => { d with parkReqs := d.parkReqs.filter (· != id) } }

end Sys2Proof.Machine
end

