-- ==== Sys2Proof/Machine/Ops.lean ====
section
/-! DEFINITION. The operations that meanings share: reading operands with the SCC's interlocks (05 R97), holding
(08 R223), fault records (12 R337, R341), and taking a cause (12 R333, R342-R346) as ONE operation, `takeCause`. -/

namespace Sys2Proof.Machine

/-- The answer of a meaning. -/
abbrev Out := Host.Outcome State Fault Refusal

/-! ## Interlocks and holds -/

/-- A register still awaits the value of an SCC access in flight, or a pending `BARARR`'s answer (05 R97, 02 R39). -/
def awaited (s : State) (r : SReg) : Bool :=
  r != 0 && (s.ord.flights.any (fun f => !f.store && f.dest == r)
    || (match s.ord.release with
        | some p => p.arrive && p.reg == r
        | none => false))

/-- None of the registers an instruction names is awaited. -/
def ready (s : State) (rs : List SReg) : Bool := rs.all fun r => !awaited s r

/-- The instruction at PCQ0 holds the SCC: it counts as not issued, and the cycle since which it holds is kept
(08 R223). -/
def holds (s : State) : State := s.modScc fun r => { r with hold := some (r.hold.getD s.now) }

/-- An SCC instruction over registers: it waits for them, then acts. -/
def sccOp (rs : List SReg) (s : State) (f : State → State) : Out := .next (if ready s rs then f s else holds s)

/-- An SCC instruction that writes one value to s[d] and does nothing else. -/
def sccWrite (d : SReg) (rs : List SReg) (s : State) (v : State → Word) : Out :=
  sccOp (d :: rs) s fun x => retire (x.setS d (v x))

/-! ## Causes -/

/-- The code of a cause (12 R336). -/
def Cause.code : Cause → Nat
  | .illegal => 0x01 | .illfeature => 0x02 | .priv => 0x03 | .align => 0x04 | .badtarget => 0x05 | .xmiss => 0x06
  | .xperm => 0x07 | .peerdeny => 0x08 | .migtimeout => 0x09 | .race => 0x0A | .horizonfull => 0x0B
  | .tokenexpired => 0x0C | .stageoverrun => 0x0D | .stagetimeout => 0x0E | .metafault => 0x0F | .qovftrap => 0x10
  | .burlovf => 0x11 | .burlcount => 0x12 | .firstnan => 0x13 | .layout => 0x14 | .uedata => 0x15 | .poison => 0x16
  | .checkfail => 0x17 | .deadline => 0x18 | .watchhit => 0x19 | .brk => 0x1A | .swtrap => 0x1B

/-- The default action of a cause (12 R336). -/
def defaultEntry (c : Cause) : ActEntry :=
  match c with
  | .illfeature => ⟨.park, 0, .kill, 15, 0⟩
  | .xmiss => ⟨.park, 0, .kill, 0, 0⟩
  | .migtimeout => ⟨.replay, 4, .kill, 0, 0⟩
  | .metafault => ⟨.park, 0, .kill, 1, 0⟩
  | .qovftrap => ⟨.replay, 0, .kill, 0, 0⟩
  | .firstnan => ⟨.park, 0, .kill, 1, 0⟩
  | .checkfail => ⟨.replay, 2, .kill, 0, 0⟩
  | .watchhit => ⟨.park, 0, .kill, 2, 0⟩
  | .brk => ⟨.park, 0, .kill, 3, 0⟩
  | .swtrap => ⟨.park, 0, .kill, 3, 0⟩
  | _ => ⟨.kill, 0, .kill, 0, 0⟩

/-- INFO.ENGINE (12 R337). -/
def Engine.code : Engine → Nat
  | .scc => 0 | .ve => 1 | .me => 2 | .copy => 3 | .seq => 4 | .sched => 5

/-- INFO.ACTION (12 R337). -/
def Action.code : Action → Nat
  | .kill => 0 | .replay => 1 | .park => 2 | .forward => 3

/-- A precision I cause of the instruction at PCQ0. -/
def causeAt (s : State) (f : Fail) : Raised := ⟨f.cause, .scc, false, false, s.scc.idx, 0, f.status, f.address⟩

/-- A precision I cause with nothing in STATUS and ADDRESS. -/
def plainFail (c : Cause) : Fail := ⟨c, 0, 0⟩

/-- The 64 bytes of a fault record (12 R337) of a task that ran on a core, with its PC queue. -/
def recordWith (s : State) (core : Fin 512) (ctx : Fin 64) (id : BitVec 32) (r : Raised) (info : Nat) (pcq : List Nat) :
    List Byte :=
  let n := core.val
  leBytes 1 r.cause.code ++ leBytes 1 info ++ leBytes 1 ctx.val ++ leBytes 1 (n % 64) ++ leBytes 4 id.toNat
    ++ leBytes 8 (r.idx.toNat * 2 ^ 40 + n / 64 * 2 ^ 37 + s.dies[dieOf core].cycle.toNat % 2 ^ 37)
    ++ words ([r.mpc.toNat, r.status.toNat, r.address.toNat] ++ pcq)

/-- The record of a cause of the running task (12 R337). -/
def recordBytes (s : State) (t : Task) (r : Raised) (info : Nat) : List Byte :=
  recordWith s s.core.agent t.ctx t.id r info [pcWord s.scc.pcq0, pcWord s.scc.pcq1, pcWord s.scc.pcq2]

/-- INFO of a record (12 R337). -/
def infoByte (r : Raised) (a : Action) : Nat := r.engine.code + 16 * a.code + (if r.late then 64 else 0)

/-- The key of a context's recovery block on a die, while ACTBASE.V = 1 (12 R338). -/
def blockKey (s : State) (d : Fin 8) (ctx : Fin 64) : Option Nat :=
  let a := (s.ctxAt d ctx).actbase.toNat
  if bit a 0 then some (hbmKey (peerOf s.pkg (bits a 61 3)) (bits a 10 42 * 1024)) else none

/-- A record written to the context's ring, or to the die log, and the address handed out for it (12 R341). -/
def writeRecord (s : State) (ctx : Fin 64) (bs : List Byte) : State × Word :=
  let d := dieOf s.core.agent
  let toLog : State :=
    let g := s.dies[d].dielog.toNat
    if g = 0 then s
    else
      let pos := s.dies[d].dielogPos % 2 ^ (bits g 0 4 + 6)
      (s.store (hbmKey (peerOf s.pkg d.val) (bits g 12 40 * 4096 + 64 * pos)) bs).modDie d fun x =>
        { x with dielogPos := x.dielogPos + 1 }
  match blockKey s d ctx with
  | none => (toLog, 0)
  | some k =>
    let ring := s.le (k + 0x200) 8
    let va := s.le (k + 0x208) 8
    let lg := s.le (k + 0x210) 4
    let n := s.le (k + 0x218) 8
    if bits ring 52 9 = 0 ∧ bits ring 0 12 = 0 ∧ 6 ≤ lg ∧ lg ≤ 16 then
      let slot := 64 * (n % 2 ^ lg)
      let s1 := s.store (hbmKey (peerOf s.pkg (bits ring 61 3)) (bits ring 12 40 * 4096 + slot)) bs
      (s1.storeLe (k + 0x218) 8 (n + 1), if va = 0 then 0 else BitVec.ofNat 64 (va + slot))
    else (toLog, 0)

/-- The action entry of a cause for the running task's context (12 R340). -/
def entryFor (s : State) (ctx : Fin 64) (c : Cause) : ActEntry :=
  if c = .deadline then defaultEntry c
  else (lookupKey c.code (s.ctxAt (dieOf s.core.agent) ctx).acts).getD (defaultEntry c)

/-- Replays counted for a command index (12 R343). -/
def replaysOf (s : State) (idx : BitVec 24) : Nat := (lookupKey idx.toNat s.scc.replays).getD 0

/-- The action that applies, LIMIT and FALLBACK, the handler's object and room for an image taken into account
(12 R343-R345). -/
def chooseAction (s : State) (t : Task) (r : Raised) (e : ActEntry) : Action :=
  let a := if e.action = .replay ∧ e.limit ≠ 0 ∧ e.limit ≤ replaysOf s r.idx then e.fallback else e.action
  let d := dieOf s.core.agent
  let room := (roomFor s d (imageSize t.obj true true)).isSome
  match a with
  | .park => if room then .park else .kill
  | .forward => if room ∧ (readObj s d t.ctx e.handler.toNat []).isSome then .forward else .kill
  | x => x

/-- The pending causes of a task (12 R346). -/
def Pending.all (p : Pending) : List Raised := p.scc.toList ++ p.ve.toList ++ p.me.toList ++ p.copy.toList ++ p.late

/-- A cause leaves the list of pending ones. -/
def Pending.remove (p : Pending) (r : Raised) : Pending :=
  if p.scc = some r then { p with scc := none }
  else if p.ve = some r then { p with ve := none }
  else if p.me = some r then { p with me := none }
  else if p.copy = some r then { p with copy := none }
  else { p with late := p.late.erase r }

/-- The pending causes without the one being taken. -/
def Pending.waiting (p : Pending) : Pending :=
  match p.taking with
  | some k => { p.remove k.cause with taking := none }
  | none => p

/-- Each of a killed task's causes writes its record (12 R342). -/
def writeAll (s : State) (t : Task) (l : List Raised) : State :=
  l.foldl (fun x r => (writeRecord x t.ctx (recordBytes x t r (infoByte r .kill))).1) s

/-- A new range task of the launch and context of another (09 R257, R275). -/
def childOf (t : Task) (stage prio : Nat) (lo hi : Nat) (anchor arg : Word) (join : Nat) : Task :=
  { t with
    id := 0, stage := stage, prio := prio, lo := lo, hi := hi, cur := lo, anchor := anchor, arg := arg, join := join
    inbound := 0, taken := false, handles := [], ran := false, spawner := none }

/-- A task with a child join of its own. -/
def withJoin (s : State) (t : Task) : State × Task :=
  let r := s.newJoin
  (r.1, { t with childJoin := r.2 })

/-- The handler task of a FORWARD (12 R345), placed on the same die. -/
def makeHandler (s : State) (t : Task) (handler rec_ : Word) : State :=
  let d := dieOf s.core.agent
  match readObj s d t.ctx handler.toNat [] with
  | none => s
  | some o =>
    let h := { childOf t 0 0 0 1 rec_ rec_ 0 with
      code := handler, obj := o, privileged := true, launch := none, stealx := false, stealp := false, fwd := false
      floor := s.ord.floor }
    let r := withJoin (s.expect 0) h
    (placeHere r.1 d (clearingOf s.core.agent) r.2).1

/-- The registers of a task whose access or delivery is performed again (12 R343). -/
def replayLate (r : TaskRegs) (x : Raised) : TaskRegs :=
  { r with
    ord := { r.ord with
      flights := r.ord.flights ++ r.ord.held.filter (·.idx == x.idx)
      held := r.ord.held.filter fun f => !(f.idx == x.idx) }
    cp := { r.cp with copies := r.cp.copies.map fun c =>
      if c.cmd.idx == x.idx then { c with phase := match c.phase with
        | .lateRun => .run
        | .lateDeliver n => .deliver n
        | p => p }
      else c } }

/-- Causes that copies with global ranges met while another cause of the copy engines was pending. -/
def stalledCauses (s : State) : List Raised :=
  s.cp.copies.filterMap fun c => match c.phase with
    | .stalled r => some { r with late := true, mpc := 0 }
    | _ => none

/-- The task of the core in focus is killed (12 R342) with a record address. -/
def killTask (s : State) (t : Task) (rec_ : Word) : State :=
  endTask (parkAnswered (writeAll s t (s.core.regs.pend.waiting.all ++ stalledCauses s)) t.id) t (some rec_) none

/-- The task of the core in focus is saved whole and goes to the tail of a park queue (12 R344); queues 0 to 7 signal
the launch's vector when asked to. -/
def parkTask (s : State) (t : Task) (q : Fin 16) (cause : Nat) (rec_ : Word) (r : Option Raised) (signal : Bool) : State :=
  match saveTask s t true true true cause rec_ r with
  | none => s
  | some (x, img) =>
    let y := { x with tasks := x.tasks ++ [⟨t, .parked (dieOf s.core.agent) q, some img⟩] }
    let z := parkAnswered y t.id
    match signal && decide (q.val < 8), s.launchOf t with
    | true, some l => z.signal l.vector
    | _, _ => z

/-- A copy-class command with NANTRAP clear in the `FPCTL` it captured. -/
def untrap (c : Cmd) : Cmd := { c with vals := c.vals.take 5 ++ (c.vals.drop 5).map fun v => v &&& ~~~8 }

/-- FIRSTNAN clears NANTRAP before its action runs, for the copies dispatched before it too (04 R88). -/
def clearNanTrap (s : State) (r : Raised) : State :=
  if r.cause = .firstnan then
    (s.modFp fun f => { f with fpctl := f.fpctl &&& ~~~8 }).modCp fun p =>
      { p with
        queue := p.queue.map untrap
        copies := p.copies.map fun c => { c with cmd := untrap c.cmd }
        subs := p.subs.map fun x => x.map fun b => { b with cmd := untrap b.cmd } }
  else s

/-- Once TOKENEXPIRED has had its action, the entry it names may be freed (12 R358). -/
def releaseNamed (s : State) (r : Raised) : State :=
  if r.cause = .tokenexpired then
    match ownerDie s (BitVec.ofNat 15 (bits r.status.toNat 49 15)) with
    | some d => freeBlaze s d (bits r.status.toNat 37 12)
    | none => s
  else s

/-- The action of a cause whose record stands at an address (12 R342-R345). -/
def runAction (s : State) (t : Task) (r : Raised) (e : ActEntry) (a : Action) (rec_ : Word) : State :=
  releaseNamed (match a with
  | .kill => killTask s t rec_
  | .park => parkTask s t e.queue r.cause.code rec_ (some r) true
  | .forward => makeHandler (parkTask s t e.queue r.cause.code rec_ (some r) false) t e.handler rec_
  | .replay =>
    let s2 := s.modScc fun x => { x with replays := insertKey r.idx.toNat (replaysOf s r.idx + 1) x.replays, hold := none, barrier := none }
    if r.late then s2.modRegs fun x => replayLate x r else s2) r

/-- A stopped task takes a cause: its record is written, then its action runs (12 R333, R341-R345). -/
def applyCause (s : State) (t : Task) (r : Raised) : State :=
  let s1 := clearNanTrap (s.modRegs fun x => { x with pend := x.pend.remove r }) r
  let e := entryFor s1 t.ctx r.cause
  let a := chooseAction s1 t r e
  let w := writeRecord s1 t.ctx (recordBytes s1 t r (infoByte r a))
  runAction w.1 t r e a w.2

/-- A stopped task that has sent what is not performed yet takes a cause: its record is written, and its action waits
(12 R333, R352). -/
def beginCause (s : State) (t : Task) (r : Raised) : State :=
  let s1 := clearNanTrap s r
  let e := entryFor s1 t.ctx r.cause
  let a := chooseAction s1 t r e
  let w := writeRecord s1 t.ctx (recordBytes s1 t r (infoByte r a))
  w.1.modRegs fun x => { x with pend := { x.pend with taking := some ⟨r, e, a, w.2⟩ } }

/-- The action that has waited runs; where the save area has filled meanwhile, KILL takes the place of a save (12 R344). -/
def finishCause (s : State) (t : Task) (k : Taking) : State :=
  let room := (roomFor s (dieOf s.core.agent) (imageSize t.obj true true)).isSome
  let a := if (k.action = .park ∨ k.action = .forward) ∧ !room then .kill else k.action
  runAction (s.modRegs fun x => { x with pend := x.pend.waiting }) t k.cause k.entry a k.record

/-- A copy-class command stands where a stop may leave it: it is held at its destination or stopped at a unit, or the
engine has stopped (12 R333, R346). -/
def CopyRun.rests (c : CopyRun) : Bool :=
  c.cmd.isLocal || (match c.phase with
    | .sent | .lateRun | .lateDeliver _ | .stalled _ => true
    | _ => false)

/-- The pending cause of the copy engines names this command. -/
def CopyRun.stopped (c : CopyRun) (p : Pending) : Bool := (p.copy.map fun r => r.idx == c.cmd.idx).getD false

/-- The array stands where a stop leaves it: its queues are retired (06 R156). -/
def arrayRests (s : State) : Bool :=
  match s.me.run with
  | some m => m.queue.isEmpty
  | none => true

/-- The task's engines stand where a stop leaves them (12 R333); accesses in flight and copies with global ranges only go
on. -/
def stopped (s : State) : Bool :=
  arrayRests s && s.cp.copies.all fun c => !c.cmd.isLocal || c.rests || c.stopped s.core.regs.pend

/-- The engines have stopped, and everything that the task has sent is performed (12 R333, R352). -/
def quiet (s : State) : Bool :=
  s.ord.flights.isEmpty && arrayRests s && s.cp.copies.all fun c => c.rests || c.stopped s.core.regs.pend

/-- A save would find the VE at rest: no loop runs, but for one whose command a cause of the VE has stopped
(05 R134, 09 R272). -/
def veRests (s : State) : Bool :=
  match s.ve.loop with
  | some l => l.t == 0 || s.core.regs.pend.ve.isSome
  | none => true

/-- A running loop starts no further source iteration; those not started are left for the resumption (05 R134). -/
def drainLoop (l : LoopRun) : LoopRun :=
  if l.t = 0 ∨ l.left ≠ 0 then l
  else
    let n := min l.t (if l.at_ = 0 then l.k else l.k + 1)
    { l with t := n, left := l.t - n }

/-- The state with a running loop told to drain. -/
def drain (s : State) : State := s.modVe fun r => { r with loop := r.loop.map drainLoop }

/-- The action that a cause will take saves the task. -/
def savesFor (s : State) (t : Task) (r : Raised) : Bool :=
  match chooseAction s t r (entryFor s t.ctx r.cause) with
  | .park | .forward => true
  | _ => false

/-- A cause is taken where the task's parts have stopped; its action waits for what the task has sent; a loop that a save
waits for drains first. -/
def takeOr (s : State) (t : Task) (r : Raised) (other : State → State) : State :=
  if savesFor s t r && !veRests s then other (drain s)
  else if quiet s then applyCause s t r
  else if stopped s then beginCause (other s) t r
  else other s

/-- A cause of the SCC is taken: at once where the task's parts have stopped, else as soon as they have. -/
def takeCause (s : State) (r : Raised) : State :=
  match s.core.task with
  | none => s
  | some t => takeOr s t r fun x => x.modRegs fun y => { y with pend := { y.pend with scc := some r } }

/-- A precision I cause of the instruction at PCQ0 is taken. -/
def trap (s : State) (f : Fail) : State := takeCause s (causeAt s f)

/-- ILLEGAL at issue or dispatch; STATUS and ADDRESS hold nothing (12 R337). -/
def illegal (s : State) : State := trap s (plainFail .illegal)

/-- A privileged form: PRIV in the unprivileged view (02 R52, R55). -/
def privileged (s : State) (f : State → Out) : Out := if s.isPriv then f s else .next (trap s (plainFail .priv))

/-- A form gated by a feature: ILLFEATURE while it is not accepted (02 R50). -/
def featured (b : Nat) (s : State) (f : State → Out) : Out :=
  if s.hasFeature b then f s else .next (trap s (plainFail .illfeature))

/-- A precision D cause arrives: the task holds at most 16 beside one being taken, and is killed with a 17th (12 R346). -/
def addLate (s : State) (r : Raised) : State :=
  match s.core.task with
  | none => s
  | some t =>
    if s.core.regs.pend.waiting.late.length < 16 then
      s.modRegs fun x => { x with pend := { x.pend with late := x.pend.late ++ [r] } }
    else
      let w := writeRecord s t.ctx (recordBytes s t r (infoByte r .kill))
      killTask w.1 t w.2

/-- The next pending cause in the order of 12 R346: the SCC's, a copy's fault of a CPB before a TOKENEXPIRED, then
ascending ENGINE and D-class causes in arrival order. -/
def nextCause (s : State) : Option Raised :=
  let p := s.core.regs.pend
  let lateScc := p.late.filter fun r => r.engine == .scc
  let lateCopy := p.late.filter fun r => !(r.engine == .scc)
  (p.scc.toList ++ lateScc ++ p.ve.toList ++ p.me.toList ++ p.copy.toList ++ lateCopy).head?

/-- A pending cause is taken once the task's parts have stopped (CAUSE_TAKEN, 12 R333). -/
def takePending (s : State) : State :=
  match s.core.task, s.core.regs.pend.taking, nextCause s with
  | some t, some k, _ => if quiet s then finishCause s t k else s
  | some t, none, some r => takeOr s t r fun x => x
  | _, _, _ => s

end Sys2Proof.Machine
end

