-- ==== Sys2Proof/Machine/Access.lean ====
section
/-! DEFINITION. One access at its memory port: where an address lies (08 R210-R212), remote lines (07 R187, R188),
migration (07 R189, 11 R323, R324), race detection (07 R205-R209), poison (12 R354, R355); and what an acquire and a
release do beside (07 R183, R206). -/

namespace Sys2Proof.Machine

/-! ## Where an address lies -/

/-- The memory an access reaches: HBM through a page, a member's scratchpad, the own accumulator window. -/
inductive Spot
  | hbm (p : Phys)
  | spad (core : Fin 512) (off : Nat)
  | acc (off : Nat)
  deriving DecidableEq, Repr

/-- The place of an address for the running task, through a core's TLB or the die's; what a member's window needs is
checked (08 R210, R211, 11 R319). -/
def locateBy (s : State) (core : Option Core) (need : Need) (a : Word) : Except Fail Spot :=
  match classify s.core.agent a with
  | .globalVa va =>
    (match translate s core (dieOf s.core.agent) s.ctx s.isPriv need va with
     | .ok p => .ok (.hbm p)
     | .error e => .error e)
  | .spad o => .ok (.spad s.core.agent o)
  | .acc o => if s.declares (o / 2 ^ 17) then .ok (.acc o) else .error (failAt .xperm (2 ^ 60) a)
  | .peer m o =>
    let t := peerAgent s.core.agent m
    (match peerCheck s t s.ctx a with
     | .ok _ => .ok (.spad t o)
     | .error e => .error e)
  | .nowhere => .error (failAt .xmiss 0 a)

/-- The place of an address for an SCC access. -/
def locate (s : State) (need : Need) (a : Word) : Except Fail Spot := locateBy s (some s.core) need a

/-! ## Pages that move -/

/-- The migration of the page that holds a key, at its owner (11 R323). -/
def migrationOf (s : State) (k : Nat) : Option (Fin 8 × Migration) :=
  (homeDie s k).bind fun d => (s.dies[d].migs.find? fun m => m.oldKey == k / 4096 * 4096).map fun m => (d, m)

/-- An access to a page that is being copied is held at its owner (07 R189). -/
def heldByMigration (s : State) (k : Nat) : Bool :=
  match migrationOf s k with
  | some (_, m) => !m.moved
  | none => false

/-- The key at which an access is performed: one to a page that has moved is forwarded (11 R323). -/
def forwardKey (s : State) (k : Nat) : Nat :=
  match migrationOf s k with
  | some (_, m) => if m.moved then m.newKey + k % 4096 else k
  | none => k

/-- The owner notes which core's engine has an access held there, and since when (11 R324). -/
def noteHeld (s : State) (k : Nat) (eng : Engine) : State :=
  match migrationOf s k with
  | none => s
  | some (d, m) =>
    if m.moved || m.held.any fun h => h.1 == s.core.agent && h.2.1 == eng then s
    else s.modDie d fun x =>
      { x with migs := x.migs.map fun y =>
          if y.oldKey == m.oldKey then { y with held := y.held ++ [(s.core.agent, eng, x.cycle.toNat)] } else y }

/-- The owner counts an access from another die to a MIGRATE page, 8 bits and saturating, in a cache of 16,384
counters (11 R323). -/
def countMigration (s : State) (d : Fin 8) (p : Phys) : State :=
  if p.leaf.mode = 3 then
    match ownerDie s p.leaf.peer with
    | some o =>
      if o = d then s
      else
        let page := p.key / 4096
        s.modDie o fun x =>
          let m : BitVec 8 := match x.migCounts.find? fun e => e.page == page && e.die == d with
            | some e => if e.count = 255 then 255 else e.count + 1
            | none => 1
          { x with migCounts := (⟨page, d, m, p.ctx, p.va⟩ ::
              x.migCounts.filter fun e => !(e.page == page && e.die == d)).take 16384 }
    | none => s
  else s

/-! ## Flows -/

/-- A CPH held at the owner of a page, of the same source die and traffic class, covers some bytes of an access
(07 R190, R196). -/
def behindHeld (s : State) (src : Fin 8) (p : Phys) (tc : Fin 4) (ctx : Fin 64) (a n : Nat) : Bool :=
  match ownerDie s p.leaf.peer with
  | none => false
  | some o =>
    s.dies[o].hold.any fun h => h.since.isSome && h.who.ctx == ctx && dieOf h.who.actor.agent == src &&
      decide (h.lo < a + n) && decide (a < h.hi) && (match h.cmd.instr with
        | .cph c => c.tc == tc
        | _ => false)

/-! ## Remote lines (07 R188) -/

/-- The die's copy of the line that holds a key. -/
def cachedLine (s : State) (d : Fin 8) (ctx : Fin 64) (k : Nat) : Option CachedLine :=
  s.dies[d].cached.find? fun l => l.ctx == ctx && l.key == k / 256 * 256

/-- Bytes of one line as a die reads them: its own copy of a CACHED line, unless it must read the owner. -/
def readHbm (s : State) (d : Fin 8) (ctx : Fin 64) (p : Phys) (n : Nat) (owner : Bool) : List Byte :=
  let k := forwardKey s p.key
  match (if owner || p.leaf.mode != 2 then none else cachedLine s d ctx k) with
  | some l => (l.bytes.drop (k % 256)).take n
  | none => s.bytes k n

/-- A die's copy of a line is brought up to date with its owner's bytes. -/
def refreshLine (s : State) (d : Fin 8) (ctx : Fin 64) (k : Nat) : State :=
  let key := k / 256 * 256
  s.modDie d fun x =>
    { x with cached := x.cached.map fun l => if l.ctx == ctx && l.key == key then { l with bytes := s.bytes key 256 } else l }

/-- Bytes written to HBM: through to the owner, and into the writer's own copies. -/
def writeHbm (s : State) (d : Fin 8) (ctx : Fin 64) (p : Phys) (bs : List Byte) : State :=
  let k := forwardKey s p.key
  let t := s.store k bs
  if p.leaf.mode = 2 then refreshLine (refreshLine t d ctx k) d ctx (k + bs.length - 1) else t

/-- An acquire at PACKAGE or FABRIC scope drops the remote lines held for its context (07 R183). -/
def acquire (s : State) (sc : Scope) : State :=
  match sc with
  | .package | .fabric =>
    let c := s.ctx
    s.modDie (dieOf s.core.agent) fun x => { x with cached := x.cached.filter fun l => l.ctx != c }
  | _ => s

/-- A release increments the epoch of its agent (07 R206). -/
def bumpEpoch (s : State) : State := s.modCore fun c => { c with epoch := c.epoch + 1 }

/-- Imports into the horizon of the running task (07 R207). -/
def importAll (s : State) (l : List Import) : State := s.modOrd fun o => l.foldl importEpoch o

/-! ## One SCC access -/

/-- The extension a load gives its value (08 R219). -/
def extendValue (signed : Bool) (size : Nat) (v : Nat) : Word :=
  let n := v % 2 ^ (8 * size)
  if signed && decide (2 ^ (8 * size - 1) ≤ n) then BitVec.ofInt 64 ((n : Int) - (2 ^ (8 * size) : Nat)) else BitVec.ofNat 64 n

/-- The answer of a memory port. -/
inductive PortRes
  | done (s : State) (v : Word)
  | fails (f : Fail)
  | held (s : State)
  deriving DecidableEq, Repr

/-- The scope reads the owner of a CACHED page (07 R188). -/
def readsOwner : Scope → Bool
  | .package | .fabric => true
  | _ => false

/-- The granule's address as the consumer named it (12 R355). -/
def granuleOf (a : Word) : Word := BitVec.ofNat 64 (a.toNat / 64 * 64)

/-- An SCC access to a page at its memory port: an acquire's import, the race check, poison, then the access
(07 R205-R209, 12 R355). -/
def portHbm (s : State) (f : Flight) (p : Phys) : PortRes :=
  let d := dieOf s.core.agent
  let c := s.ctx
  if heldByMigration s p.key then .held (noteHeld s p.key .scc)
  else if behindHeld s d p 1 c f.addr.toNat f.size then .held s
  else
    let s1 := if f.acq then importAll s (tagImport s p).toList else s
    match raceCheck s1 (actorOf s1.core) p f.addr with
    | .error e => .fails e
    | .ok _ =>
      let s2 := countMigration s1 d p
      if f.store then
        let s3 := setTag (writeHbm s2 d c p (leBytes f.size f.data.toNat)) (actorOf s2.core) p
        .done (if f.rel then bumpEpoch s3 else s3) 0
      else if (firstPoison s2.poison (forwardKey s2 p.key) f.size).isSome then .fails (failAt .poison 0 (granuleOf f.addr))
      else
        let owner := readsOwner f.scope
        let s3 := if owner && decide (p.leaf.mode = 2) then refreshLine s2 d c (forwardKey s2 p.key) else s2
        let v := extendValue f.signed f.size (leNat (readHbm s3 d c p f.size owner))
        .done (if f.acq then acquire s3 f.scope else s3) v

/-- An SCC access at its port. -/
def portAccess (s : State) (f : Flight) : PortRes :=
  match locate s (if f.store then .write else .read) f.addr with
  | .error e => .fails e
  | .ok (.hbm p) => portHbm s f p
  | .ok (.spad n off) =>
    let c := s.coreAt n
    if f.store then
      let t := spadStore s c off (leBytes f.size f.data.toNat)
      .done (if f.rel then bumpEpoch t else t) 0
    else if (spadPoison s c off f.size).isSome then .fails (failAt .poison 0 (granuleOf f.addr))
    else
      .done (if f.acq then acquire s f.scope else s) (extendValue f.signed f.size (leNat (spadBytes s c off f.size)))
  | .ok (.acc off) =>
    let k := accKey s.core.agent.val off
    if f.store then
      let t := { s with mem := memSetList s.mem k (leBytes f.size f.data.toNat) }
      .done (if f.rel then bumpEpoch t else t) 0
    else .done (if f.acq then acquire s f.scope else s) (extendValue f.signed f.size (leNat (s.bytes k f.size)))

/-- The cause of an access that its port refused, precision D (12 R334). -/
def lateCause (f : Flight) (e : Fail) : Raised := ⟨e.cause, .scc, true, false, f.idx, 0, e.status, e.address⟩

/-- A refused access is kept, its slot stays busy, and its cause is pending (12 R334). -/
def portFault (s : State) (f : Flight) (e : Fail) : State :=
  addLate (s.modOrd fun o => { o with held := o.held ++ [f] }) (lateCause f e)

/-- An access is performed where it can be; else it stays in flight. -/
def performFlight (s : State) (f : Flight) : State :=
  match portAccess s f with
  | .done t v => if f.store then t else t.setS f.dest v
  | .fails e => portFault s f e
  | .held t => t.modOrd fun o => { o with flights := o.flights ++ [f] }

/-! ## What came before -/

/-- A command names an accumulator slot (08 R140). -/
def coversSlot (i : Instr) (slot : Nat) : Bool :=
  match i with
  | .mma o | .mspa o | .mzero o | .mdrain o | .mdrainMerge o => o.acc.val == slot
  | .mmaAcca o => o.acc.val == slot || bits o.fl.toNat 1 2 == slot
  | .accrd o | .accwr o => bits o.aux.toNat 10 2 == slot
  | _ => false

/-- VE commands dispatched and not complete. -/
def veWaiting (s : State) : List Cmd :=
  s.ve.queue ++ (match s.ve.recording with | some l => l.body | none => [])
    ++ (match s.ve.loop with | some l => l.body | none => [])

/-- ME commands dispatched and not complete. -/
def meWaiting (s : State) : List Cmd := s.me.queue ++ (match s.me.run with | some r => [r.cmd] | none => [])

/-- Copy commands dispatched and not complete. -/
def cpWaiting (s : State) : List Cmd := s.cp.queue ++ s.cp.copies.map (·.cmd)

/-- A landing-buffer transfer of a slot is still pending. -/
def landingPending (s : State) (slot : Nat) : Bool :=
  s.ve.landing.toList.any fun x => x.any fun l => l.data.isNone && bits l.cmd.aux.toNat 10 2 == slot

/-- An earlier command covers an accumulator slot (06 R140). -/
def slotBusy (s : State) (slot : Nat) : Bool :=
  (veWaiting s ++ meWaiting s).any (fun c => coversSlot c.instr slot) || landingPending s slot

/-- Command index `i` comes before `j` in program order (12 R335). -/
def idxBefore (i j : BitVec 24) : Bool := i != j && decide ((j - i).toNat < 2 ^ 23)

/-- Every access and command of the task before a command index has been performed, and none has faulted
(07 R181, R182). -/
def doneBefore (s : State) (idx : BitVec 24) : Bool :=
  let early (i : BitVec 24) : Bool := idxBefore i idx
  !(s.ord.flights.any fun f => early f.idx) && !(s.ord.held.any fun f => early f.idx)
    && !((veWaiting s ++ meWaiting s ++ cpWaiting s).any fun c => early c.idx)
    && s.ve.landing.toList.all (fun x => x.all fun l => !(l.data.isNone && early l.idx))
    && !(s.core.regs.pend.all.any fun r => early r.idx)

/-- Everything of the task before the instruction at PCQ0 has been performed. -/
def allDone (s : State) : Bool := doneBefore s s.scc.idx && s.ord.release.isNone

end Sys2Proof.Machine
end

