-- ==== Sys2Proof/Machine/Operands.lean ====
section
/-! DEFINITION. Operands of the vector engine: registers and scratchpad ports as sources and destinations (02 R43,
R46, 05 R132), bytes of the own scratchpad as engines read and write them (08 R212-R217, 12 R354, R355), results
element by element with their flags and the first NaN (04 R83, R88). -/

namespace Sys2Proof.Machine

/-! ## The own scratchpad as an engine sees it -/

/-- Offsets of the scratchpad wrap at 8 MiB (05 R132, 08 R224). -/
def spadMask (off : Nat) : Nat := off % 2 ^ 23

/-- A range of the scratchpad in at most two pieces: up to its end, and from its start. -/
def spadPieces (off n : Nat) : List (Nat × Nat) :=
  let o := spadMask off
  if o + n ≤ 2 ^ 23 then [(o, n)] else [(o, 2 ^ 23 - o), (0, o + n - 2 ^ 23)]

/-- One piece read by an engine: layout, poison, bytes. -/
def readPiece (s : State) (off n : Nat) : Except Fail (List Byte × Flags) :=
  match layoutRead s.core off n with
  | .error e => .error e
  | .ok f =>
    match spadPoison s s.core off n with
    | some o => .error (failAt .poison 0 (BitVec.ofNat 64 (o / 64 * 64)))
    | none => .ok (spadBytes s s.core off n, f)

/-- Pieces read in turn. -/
def readPieces (s : State) : List (Nat × Nat) → Except Fail (List Byte × Flags)
  | [] => .ok ([], 0)
  | p :: ps =>
    match readPiece s p.1 p.2 with
    | .error e => .error e
    | .ok (bs, f) =>
      match readPieces s ps with
      | .error e => .error e
      | .ok (cs, g) => .ok (bs ++ cs, f ||| g)

/-- `n` bytes of the own scratchpad from an offset, as an engine reads them (08 R216, 12 R355). -/
def engineRead (s : State) (off n : Nat) : Except Fail (List Byte × Flags) := readPieces s (spadPieces off n)

/-- Bytes at offsets of the own scratchpad written by an engine: the bytes, the poison of granules covered whole, the
layout tags; `LAYOUT_STALE` where a tag changed under other bytes (08 R215, 12 R354). -/
def enginePut (s : State) (cells : List (Nat × Byte)) : State × Flags :=
  let keys := cells.map fun c => spadAt s.core c.1
  let m := cells.foldl (fun m c => memSet m (spadAt s.core c.1) c.2) s.mem
  let p := if s.poison.isEmpty then [] else s.poison.filter fun g => !coveredBy keys g
  let w := cells.foldl (fun (x : Core × Flags) c => let r := layoutWrite x.1 c.1 1; (r.1, x.2 ||| r.2)) (s.core, 0)
  ({ s with mem := m, poison := p, core := w.1 }, w.2)

/-- A whole range of the own scratchpad written by an engine. -/
def engineWrite (s : State) (off : Nat) (bs : List Byte) : State × Flags :=
  let w := layoutWrite s.core off bs.length
  let t := spadStore s s.core off bs
  ({ t with core := w.1 }, w.2)

/-! ## Ports (02 R46, 05 R132) -/

/-- The number of accesses of a port's walk. -/
def Port.total (p : Port) : Nat := p.counts.foldl (· * ·) 1

/-- Offset of access `n` of a walk, before it wraps. -/
def walkSum : List (BitVec 32) → List Nat → Nat → Int
  | st :: sts, c :: cs, n => (n % c : Nat) * st.toInt + walkSum sts cs (n / c)
  | _, _, _ => 0

/-- The scratchpad address of access `n` of a walk. -/
def Port.addrOf (p : Port) (n : Nat) : Nat := (((p.base : Int) + walkSum p.strides p.counts n) % (2 ^ 23 : Nat)).toNat

/-- The port after one access: a walk that ends restarts, or leaves the port unconfigured. -/
def Port.step (p : Port) : Option Port :=
  if p.pos + 1 < p.total then some { p with pos := p.pos + 1 } else if p.wrap then some { p with pos := 0 } else none

/-- Port `g` of the core in focus. -/
def State.port (s : State) (g : Fin 8) : Option Port := s.ve.ports[g]
/-- The state with a port replaced. -/
def State.setPort (s : State) (g : Fin 8) (p : Option Port) : State := s.modVe fun r => { r with ports := r.ports.set g p }

/-- The port a code names. -/
def portNum (c : VCode) : Fin 8 := Fin.ofNat 8 (c.val - 56)
/-- The register a code names. -/
def regNum (c : VCode) : Fin 56 := Fin.ofNat 56 c.val

/-! ## Sources -/

/-- A source: its value, the state with its port moved on, and flags. -/
def readSrc (s : State) (c : VCode) : Except Fail (VWord × State × Flags) :=
  if c.val < 56 then .ok (s.vreg (regNum c), s, 0)
  else
    match s.port (portNum c) with
    | none => .error (plainFail .illegal)
    | some p =>
      if p.wr then .error (plainFail .illegal)
      else
        match engineRead s (p.addrOf p.pos) 256 with
        | .error e => .error e
        | .ok (bs, f) => .ok (BitVec.ofNat 2048 (leNat bs), s.setPort (portNum c) p.step, f)

/-- Sources in field order. -/
def readSrcs (s : State) : List VCode → Except Fail (List VWord × State × Flags)
  | [] => .ok ([], s, 0)
  | c :: cs =>
    match readSrc s c with
    | .error e => .error e
    | .ok (x, t, f) =>
      match readSrcs t cs with
      | .error e => .error e
      | .ok (xs, u, g) => .ok (x :: xs, u, f ||| g)

/-! ## Destinations -/

/-- A value under a bit mask, over an old one. -/
def maskedWord (old x mask : VWord) : VWord := (old &&& ~~~mask) ||| (x &&& mask)

/-- Byte `i` of a register. -/
def vByte (x : VWord) (i : Nat) : Byte := x.extractLsb' (8 * i) 8

/-- The bytes of a masked push that are written, each over the byte it replaces. -/
def pushCells (s : State) (addr : Nat) (x mask : VWord) : List (Nat × Byte) :=
  (List.range 256).filterMap fun i =>
    let m := vByte mask i
    let o := spadMask (addr + i)
    if m = 0 then none else some (o, (memGet s.mem (spadAt s.core o) &&& ~~~m) ||| (vByte x i &&& m))

/-- A destination written under a bit mask: a register, or the next vector of a port's walk (02 R43, R46). -/
def writeDst (s : State) (c : VCode) (x mask : VWord) : Except Fail (State × Flags) :=
  if c.val < 56 then .ok (s.setV (regNum c) (maskedWord (s.vreg (regNum c)) x mask), 0)
  else
    match s.port (portNum c) with
    | none => .error (plainFail .illegal)
    | some p =>
      if p.wr then
        let t := s.setPort (portNum c) p.step
        .ok (enginePut t (pushCells t (p.addrOf p.pos) x mask))
      else .error (plainFail .illegal)

/-- A destination that may be written: every check but those of the sources. -/
def checkDst (s : State) (c : VCode) : Except Fail Unit :=
  match writeDst s c 0 0 with
  | .error e => .error e
  | .ok _ => .ok ()

/-! ## Results -/

/-- A number with digit `i` of width `w` put into a zero place. -/
def atElem (w i v : Nat) : Nat := (v % 2 ^ w) * 2 ^ (w * i)

/-- Element results: value and mask of a register whose elements of type `t` are listed with their positions. -/
def elemWord (t : Ty) (xs : List (Nat × Nat)) : VWord :=
  BitVec.ofNat 2048 (xs.foldl (fun a x => a + atElem t.width x.1 x.2) 0)

/-- The mask of some elements. -/
def elemMask (t : Ty) (xs : List Nat) : VWord :=
  BitVec.ofNat 2048 (xs.foldl (fun a i => a + atElem t.width i (2 ^ t.width - 1)) 0)

/-- Some flags together. -/
def allFlags (l : List Flags) : Flags := l.foldl (· ||| ·) 0

/-- `FPCTL.NANTRAP` (04 R82). -/
def nanTrap (s : State) : Bool := s.fp.fpctl.getLsbD 3

/-- STATUS of FIRSTNAN of a VE element (04 R88). -/
def nanStatus (t : Ty) (i : Nat) : Nat := (lanePos t i).1 + 256 * (lanePos t i).2

/-- The first element result that created a NaN or lost one, while NANTRAP is set (04 R88). -/
def firstNan (s : State) (t : Ty) (xs : List (Nat × Conv)) : Option Fail :=
  if nanTrap s then
    (xs.find? fun x => x.2.2.hasNv).map fun x => failAt .firstnan (nanStatus t x.1) 0
  else none

/-- The elements of type `t` that a predicate enables, ascending. -/
def enabledElems (t : Ty) (p : Word) : List Nat := (List.range t.count).filter fun i => enabled p t i

/-- Element results of type `t` written to a destination: FIRSTNAN, the write, the flags; `rng` says that the command
consumed randomness (04 R77, R83, R88). -/
def finishElems (s : State) (d : VCode) (t : Ty) (xs : List (Nat × Conv)) (f : Flags) (rng : Bool) : Except Fail State :=
  match checkDst s d with
  | .error e => .error e
  | .ok _ =>
    match firstNan s t xs with
    | some e => .error e
    | none =>
      match writeDst s d (elemWord t (xs.map fun x => (x.1, x.2.1))) (elemMask t (xs.map (·.1))) with
      | .error e => .error e
      | .ok (u, g) =>
        let v := u.addFlags (f ||| g ||| allFlags (xs.map (·.2.2)))
        .ok (if rng then v.modFp fun r => { r with rngcnt := r.rngcnt + 1 } else v)

/-- The draw of destination element `i` of type `t` (04 R76). -/
def elemDraw (s : State) (t : Ty) (i : Nat) : Nat :=
  let p := lanePos t i
  drawVe s.fp.seed s.fp.rngcnt p.1 p.2

/-- An element-by-element command: sources `cs`, one result for each enabled element. -/
def elementwise (s : State) (d : VCode) (cs : List VCode) (p : Fin 16) (t : Ty) (rng : Bool)
    (f : Nat → List Nat → Conv) : Except Fail State :=
  match readSrcs s cs with
  | .error e => .error e
  | .ok (xs, u, g) =>
    let ns := xs.map BitVec.toNat
    let res := (enabledElems t (s.preg p)).map fun i => (i, f i (ns.map fun x => bits x (t.width * i) t.width))
    finishElems u d t res g rng

/-! ## What an engine does with a command -/

/-- A command is complete; or it must wait; or a cause stops it in a state, at an MPC (12 R334, precision C). -/
inductive EngRes
  | done (s : State)
  | wait (s : State)
  | stop (s : State) (f : Fail) (mpc : Word)
  deriving DecidableEq, Repr

/-- A VE command that cannot wait; one that fails leaves everything as it was (05 R111). -/
def veRes (s : State) (r : Except Fail State) : EngRes :=
  match r with
  | .ok t => .done t
  | .error e => .stop s e 0

end Sys2Proof.Machine
end

