-- ==== Sys2Proof/Machine/Vector.lean ====
section
/-! DEFINITION. Element arithmetic of the vector engine (05 R112-R117). Each function is what the VE does with one
command: a next state, or the failure that stops it with nothing written (05 R111). -/

namespace Sys2Proof.Machine

/-! ## One element -/

/-- A float result under RNE with subnormals kept (05 R109, R112). -/
def floatRes (t : Ty) (v : Val × Bool) : Conv := roundResult t .rne false false 0 v

/-- An integer result modulo 2^w, with no flag (05 R112). -/
def wrapRes (t : Ty) (x : Int) : Conv := (intBits t x, 0)

/-- Addition of one element. -/
def addElem (t : Ty) (a b : Nat) : Conv :=
  if t.isFloat then floatRes t ((decodeTy t a).add .rne (decodeTy t b)) else wrapRes t (intOf t a + intOf t b)

/-- Subtraction of one element. -/
def subElem (t : Ty) (a b : Nat) : Conv :=
  if t.isFloat then floatRes t ((decodeTy t a).add .rne (decodeTy t b).negate) else wrapRes t (intOf t a - intOf t b)

/-- Multiplication of one element. -/
def mulElem (t : Ty) (a b : Nat) : Conv :=
  if t.isFloat then floatRes t ((decodeTy t a).mul (decodeTy t b)) else wrapRes t (intOf t a * intOf t b)

/-- a is before b in the order that puts −0 below +0. -/
def beforeVal (a b : Val) : Bool := a.lt b || (a.isZero && b.isZero && a.neg? && !b.neg?)

/-- The lesser of two elements (05 R112). -/
def minElem (t : Ty) (a b : Nat) : Conv :=
  if t.isFloat then
    let x := decodeTy t a
    let y := decodeTy t b
    if x.isNan || y.isNan then (Ty.canonNaN t, 0) else (if beforeVal y x then b else a, 0)
  else (if intOf t b < intOf t a then b else a, 0)

/-- The greater of two elements (05 R112). -/
def maxElem (t : Ty) (a b : Nat) : Conv :=
  if t.isFloat then
    let x := decodeTy t a
    let y := decodeTy t b
    if x.isNan || y.isNan then (Ty.canonNaN t, 0) else (if beforeVal x y then b else a, 0)
  else (if intOf t a < intOf t b then b else a, 0)

/-- |a|: the sign bit of a float, the wrapped magnitude of an integer (05 R112). -/
def absElem (t : Ty) (a : Nat) : Conv :=
  if t.isFloat then (bits a 0 (t.width - 1), 0) else wrapRes t (intOf t a).natAbs

/-- −a: the sign bit of a float, the wrapped negative of an integer (05 R112). -/
def negElem (t : Ty) (a : Nat) : Conv :=
  if t.isFloat then ((a + 2 ^ (t.width - 1)) % 2 ^ t.width, 0) else wrapRes t (-intOf t a)

/-- Shift left by b modulo the width (05 R116). -/
def shlElem (t : Ty) (a b : Nat) : Conv := (a * 2 ^ (b % t.width) % 2 ^ t.width, 0)
/-- Shift right with zeros (05 R116). -/
def shrElem (t : Ty) (a b : Nat) : Conv := (a / 2 ^ (b % t.width), 0)
/-- Shift right with the sign (05 R116). -/
def sarElem (t : Ty) (a b : Nat) : Conv := wrapRes t (intOf t a / (2 ^ (b % t.width) : Nat))
/-- Number of one bits (05 R116). -/
def popcElem (t : Ty) (a : Nat) : Conv := (popc t.width a, 0)

/-! ## Commands -/

/-- A command of two sources. -/
def two (o : Va) (s : State) (f : Ty → Nat → Nat → Conv) : Except Fail State :=
  elementwise s o.d [o.a, o.b] o.p o.ty false fun _ xs => f o.ty (xs.getD 0 0) (xs.getD 1 0)

/-- A command of one source. -/
def one (o : Va) (s : State) (f : Ty → Nat → Conv) : Except Fail State :=
  elementwise s o.d [o.a] o.p o.ty false fun _ xs => f o.ty (xs.getD 0 0)

/-- VADD. -/
def veAdd (o : Va) (s : State) : Except Fail State := two o s addElem
/-- VSUB. -/
def veSub (o : Va) (s : State) : Except Fail State := two o s subElem
/-- VMUL. -/
def veMul (o : Va) (s : State) : Except Fail State := two o s mulElem
/-- VMIN. -/
def veMin (o : Va) (s : State) : Except Fail State := two o s minElem
/-- VMAX. -/
def veMax (o : Va) (s : State) : Except Fail State := two o s maxElem
/-- VABS. -/
def veAbs (o : Va) (s : State) : Except Fail State := one o s absElem
/-- VNEG. -/
def veNeg (o : Va) (s : State) : Except Fail State := one o s negElem
/-- VMOV: lanes as bits. -/
def veMov (o : Va) (s : State) : Except Fail State := one o s fun _ a => (a, 0)
/-- VAND. -/
def veAnd (o : Va) (s : State) : Except Fail State := two o s fun _ a b => (a &&& b, 0)
/-- VOR. -/
def veOr (o : Va) (s : State) : Except Fail State := two o s fun _ a b => (a ||| b, 0)
/-- VXOR. -/
def veXor (o : Va) (s : State) : Except Fail State := two o s fun _ a b => (a ^^^ b, 0)
/-- VSHL. -/
def veShl (o : Va) (s : State) : Except Fail State := two o s shlElem
/-- VSHR. -/
def veShr (o : Va) (s : State) : Except Fail State := two o s shrElem
/-- VSAR. -/
def veSar (o : Va) (s : State) : Except Fail State := two o s sarElem
/-- VPOPC. -/
def vePopc (o : Va) (s : State) : Except Fail State := one o s popcElem

/-- VFMA and VFMS: `neg` negates c (05 R113). -/
def veFused (o : Vx) (neg : Bool) (s : State) : Except Fail State :=
  let rm := Rm.resolve s.fp.fpctl o.rm
  let src (x : Nat) : Val := decodeTy o.ty (flushIn o.ty o.fzi x)
  elementwise s o.d [o.a, o.b, o.c] o.p o.ty (decide (rm = .sr)) fun i xs =>
    let c := src (xs.getD 2 0)
    roundResult o.ty rm o.fzo false (elemDraw s o.ty i)
      (Val.fma rm (src (xs.getD 0 0)) (src (xs.getD 1 0)) (if neg then c.negate else c))

/-- VFMA (05 R113). -/
def veFma (o : Vx) (s : State) : Except Fail State := veFused o false s
/-- VFMS (05 R113). -/
def veFms (o : Vx) (s : State) : Except Fail State := veFused o true s

/-- A condition of VCMP (05 R114). -/
def cmpHolds (code : Nat) (a b : Val) : Bool :=
  let un := a.isNan || b.isNan
  match code with
  | 0 => a.beq b
  | 1 => un || !a.beq b
  | 2 => a.lt b
  | 3 => a.lt b || a.beq b
  | 4 => b.lt a
  | 5 => b.lt a || a.beq b
  | 6 => un
  | _ => !un

/-- The elements of type `t` in lane `j`. -/
def laneElems (t : Ty) (j : Nat) : List Nat := (List.range (32 / t.width)).map fun k => j * (32 / t.width) + k

/-- VCMP: bit j of p[d] gathers the condition over lane j; disabled bits stay (05 R114). -/
def veCmp (o : Vx) (s : State) : Except Fail State :=
  match readSrcs s [o.a, o.b] with
  | .error e => .error e
  | .ok (xs, u, f) =>
    let val (x : VWord) (i : Nat) : Val := decodeTy o.ty (flushIn o.ty o.fzi (elem o.ty x i))
    let x := xs.getD 0 0
    let y := xs.getD 1 0
    let test (i : Nat) : Bool := cmpHolds (bits o.aux.toNat 0 3) (val x i) (val y i)
    let lane (j : Nat) : Bool :=
      if bit o.aux.toNat 3 then (laneElems o.ty j).any test else (laneElems o.ty j).all test
    let p := s.preg o.p
    let res := (List.range 64).foldl (fun n j => n + (if lane j then 2 ^ j else 0)) 0
    let d := Fin.ofNat 16 o.d.val
    .ok ((u.setP d ((s.preg d &&& ~~~p) ||| (BitVec.ofNat 64 res &&& p))).addFlags f)

/-- The 32-bit lanes a predicate selects, as a mask. -/
def laneMask (p : Word) : VWord := elemMask .n32 ((List.range 64).filter fun j => p.getLsbD j)

/-- VSEL: all 64 lanes, from a where the predicate is 1 and from b where it is 0 (05 R115). -/
def veSel (o : Va) (s : State) : Except Fail State :=
  match readSrcs s [o.a, o.b] with
  | .error e => .error e
  | .ok (xs, u, f) =>
    match writeDst u o.d (maskedWord (xs.getD 1 0) (xs.getD 0 0) (laneMask (s.preg o.p))) (BitVec.allOnes 2048) with
    | .error e => .error e
    | .ok (v, g) => .ok (v.addFlags (f ||| g))

/-- The exact sum of a lane of VIMAD. -/
def dotLane (t dt : Ty) (a b c j : Nat) : Int :=
  (laneElems t j).foldl (fun n i => n + intOf t (bits a (t.width * i) t.width) * intOf t (bits b (t.width * i) t.width))
    (intOf dt (bits c (32 * j) 32))

/-- VIMAD: a dot product of each lane, wrapped or clamped (05 R117). -/
def veImad (o : Vx) (s : State) : Except Fail State :=
  match readSrcs s [o.a, o.b, o.c] with
  | .error e => .error e
  | .ok (xs, u, f) =>
    let n (i : Nat) : Nat := (xs.getD i 0).toNat
    let res := (enabledElems o.dty (s.preg o.p)).map fun j =>
      let x := dotLane o.ty o.dty (n 0) (n 1) (n 2) j
      let y := max o.dty.range.1 (min o.dty.range.2 x)
      (j, if o.sat then (intBits o.dty y, Flags.whenSet (decide (y ≠ x)) Flags.satf) else wrapRes o.dty x)
    finishElems u o.d o.dty res f false

end Sys2Proof.Machine
end

