-- ==== Sys2Proof/Machine/Transcend.lean ====
section
/-! DEFINITION. Transcendentals of the vector engine (05 R118-R123), exact functions of their FP32 inputs. Their tables
are computed from the formulas: quotients and square roots of integers rounded to nearest, powers and logarithms of two
by repeated square roots and squarings of integers. -/

namespace Sys2Proof.Machine

/-- Nearest integer to a / b, ties to even. -/
def nearestDiv (a b : Nat) : Nat :=
  let q := a / b
  let r := a % b
  if 2 * r < b then q else if b < 2 * r then q + 1 else if q % 2 = 0 then q else q + 1

/-- Square root rounded down, bit by bit from bit `n` down. -/
def isqrtFrom : Nat → Nat → Nat → Nat
  | 0, _, r => r
  | n + 1, x, r => isqrtFrom n x (if (r + 2 ^ n) * (r + 2 ^ n) ≤ x then r + 2 ^ n else r)

/-- Square root rounded down. -/
def isqrt (x : Nat) : Nat := isqrtFrom (x.log2 / 2 + 1) x 0

/-- A positive FP32 number as 2^E·(1 + f/2^23), subnormals normalised (05 R118). -/
def split32 (x : Nat) : Int × Nat :=
  let e := bits x 23 8
  let m := bits x 0 23
  if e = 0 then
    let k := m.log2
    ((k : Int) - 149, m * 2 ^ (23 - k) - 2 ^ 23)
  else ((e : Int) - 127, m)

/-- The normal FP32 number with a sign, exponent and fraction; a too large one is ±∞ with OF, a too small one a zero
with UF (05 R120). -/
def norm32 (neg : Bool) (e : Int) (f : Nat) : Conv :=
  let sg := if neg then 2 ^ 31 else 0
  if 127 < e then (sg + 0x7F800000, Flags.ov)
  else if e < -126 then (sg, Flags.uf)
  else (sg + (e + 127).toNat * 2 ^ 23 + f, 0)

/-- FP32 infinity. -/
def inf32 (neg : Bool) : Nat := if neg then 0xFF800000 else 0x7F800000
/-- FP32 zero. -/
def zero32 (neg : Bool) : Nat := if neg then 0x80000000 else 0
/-- The canonical FP32 NaN. -/
def nan32 : Nat := 0x7FC00000

/-! ## VEXP2 (05 R119) -/

/-- 2^(i/256)·2^p by square roots: bit `b` of i stands for the factor 2^(2^b/256), the root taken 8 − b times of 2. -/
def rootOfTwo (p : Nat) : Nat → Nat
  | 0 => 2 ^ (p + 1)
  | n + 1 => isqrt (rootOfTwo p n * 2 ^ p)

/-- The product of the factors that `i` selects. -/
def pow2Frac (p i : Nat) : Nat :=
  (List.range 8).foldl (fun a b => if bit i b then a * rootOfTwo p (8 - b) / 2 ^ p else a) (2 ^ p)

/-- EX[i] = round(2^30·2^(i/256)). -/
def tableEx (i : Nat) : Nat := nearestDiv (pow2Frac 100 i) (2 ^ 70)

/-- VEXP2 of a finite number. -/
def exp2Fin (neg : Bool) (m : Nat) (e : Int) : Conv :=
  -- x·2^149 is an integer for every FP32 number
  let u := toUnits neg m e (-149)
  let n := u / (2 ^ 149 : Nat)
  if 128 ≤ n then (inf32 false, Flags.ov)
  else if n < -126 then (0, Flags.uf)
  else
    let fr := ((u - n * (2 ^ 149 : Nat)).toNat) * 2 ^ 32 / 2 ^ 149
    let a := bits fr 0 24 * 0xB17217F8 / 2 ^ 32
    let p := 2 ^ 32 + a + a * a / 2 ^ 33
    let z := tableEx (bits fr 24 8) * p / 2 ^ 32
    if z < 2 ^ 31 then norm32 false n (bits z 7 23)
    else if n + 1 = 128 then (inf32 false, Flags.ov)
    else norm32 false (n + 1) (bits z 8 23)

/-- VEXP2 of an FP32 number. -/
def exp2Elem (x : Nat) : Conv :=
  match decodeTy .f32 x with
  | .nan => (nan32, 0)
  | .inf neg => (if neg then 0 else inf32 false, 0)
  | .fin neg m e => if m = 0 then (0x3F800000, 0) else exp2Fin neg m e

/-! ## VRCP (05 R120) -/

/-- T[i] = round(2^33 / (513 + 2i)). -/
def tableT (i : Nat) : Nat := nearestDiv (2 ^ 33) (512 + 2 * i + 1)

/-- VRCP of a finite number that is not zero. -/
def rcpFin (neg : Bool) (e : Int) (f : Nat) : Conv :=
  if f = 0 then norm32 neg (-e) 0
  else
    let m : Nat := 2 ^ 23 + f
    let y : Int := tableT (bits f 15 8)
    let d : Int := 2 ^ 47 - y * (m : Int)
    let y1 : Int := y + y * (d + d * d / 2 ^ 47) / 2 ^ 47
    let y2 := (min (max y1 (2 ^ 23)) (2 ^ 24)).toNat
    if y2 = 2 ^ 24 then norm32 neg (-e) 0 else norm32 neg (-e - 1) (y2 - 2 ^ 23)

/-- VRCP of an FP32 number. -/
def rcpElem (x : Nat) : Conv :=
  match decodeTy .f32 x with
  | .nan => (nan32, 0)
  | .inf neg => (zero32 neg, 0)
  | .fin neg m _ =>
    if m = 0 then (inf32 neg, 0)
    else
      let r := split32 (x % 2 ^ 31)
      rcpFin neg r.1 r.2

/-! ## VRSQ (05 R121) -/

/-- Nearest integer to 2^24 / sqrt(num / den), ties to even: no table entry is a tie. -/
def rsqTable (num den : Nat) : Nat :=
  let q := isqrt (2 ^ 50 * den / num)
  (q + 1) / 2

/-- R[i] for i = 128q + j: round(2^24 / sqrt((1 + (2j + 1)/256)·2^q)). -/
def tableR (i : Nat) : Nat := rsqTable ((256 + 2 * (i % 128) + 1) * 2 ^ (i / 128)) 256

/-- VRSQ of a finite positive number. -/
def rsqFin (e : Int) (f : Nat) : Conv :=
  let q := (e % 2).toNat
  let e1 := e - q
  if f = 0 ∧ q = 0 then norm32 false (-(e / 2)) 0
  else
    let y : Int := tableR (128 * q + bits f 16 7)
    let mq : Int := ((2 ^ 23 + f) * 2 ^ q : Nat)
    let d := 2 ^ 47 - mq * y * y / 2 ^ 24
    let g := d / 2 + 3 * d * d / 2 ^ 50
    let y1 := (min (max (y + y * g / 2 ^ 47) (2 ^ 23)) (2 ^ 24)).toNat
    if y1 = 2 ^ 24 then norm32 false (-(e1 / 2)) 0 else norm32 false (-(e1 / 2) - 1) (y1 - 2 ^ 23)

/-- VRSQ of an FP32 number. -/
def rsqElem (x : Nat) : Conv :=
  match decodeTy .f32 x with
  | .nan => (nan32, 0)
  | .inf neg => if neg then (nan32, Flags.nv) else (0, 0)
  | .fin neg m _ =>
    if m = 0 then (inf32 neg, 0)
    else if neg then (nan32, Flags.nv)
    else
      let r := split32 x
      rsqFin r.1 r.2

/-! ## VLOG2 (05 R122) -/

/-- Bits of log2(y / 2^p) for 1 ≤ y/2^p < 2, most significant first, by repeated squaring at precision `p`. -/
def log2Bits (p : Nat) : Nat → Nat → Nat → Nat
  | 0, _, acc => acc
  | n + 1, y, acc =>
    let z := y * y / 2 ^ p
    if 2 ^ (p + 1) ≤ z then log2Bits p n (z / 2) (2 * acc + 1) else log2Bits p n z (2 * acc)

/-- LG[i] = round(2^32·log2(1 + (2i + 1)/512)). -/
def tableLg (i : Nat) : Nat := (log2Bits 120 40 ((512 + 2 * i + 1) * 2 ^ 111) 0 + 128) / 256

/-- C[i] = round(2^32 / (1 + (2i + 1)/512)). -/
def tableC (i : Nat) : Nat := nearestDiv (2 ^ 41) (512 + 2 * i + 1)

/-- VLOG2 of a finite positive number. -/
def log2Fin (e : Int) (f : Nat) : Conv :=
  if f = 0 then convert .f32 .rne false false 0 (.ofInt e)
  else
    let i := bits f 15 8
    let m : Int := (2 ^ 23 + f : Nat)
    let dl : Int := m * 2 ^ 9 - (2 ^ 32 + (2 * i + 1) * 2 ^ 23 : Nat)
    let u := dl * (tableC i : Int) / 2 ^ 32
    let v := u - u * u / 2 ^ 33
    let w := v * 0x171547653 / 2 ^ 32
    let t := e * 2 ^ 32 + tableLg i + w
    convert .f32 .rne false false 0 (.fin (decide (t < 0)) t.natAbs (-32))

/-- VLOG2 of an FP32 number. -/
def log2Elem (x : Nat) : Conv :=
  match decodeTy .f32 x with
  | .nan => (nan32, 0)
  | .inf neg => if neg then (nan32, Flags.nv) else (inf32 false, 0)
  | .fin neg m _ =>
    if m = 0 then (inf32 true, 0)
    else if neg then (nan32, Flags.nv)
    else
      let r := split32 x
      log2Fin r.1 r.2

/-! ## VSQRT (05 R123) -/

/-- The square root of a finite positive number, correctly rounded: the root of the value scaled to an even power keeps
26 bits, and a last bit that says whether it is exact. -/
def sqrtFin (m : Nat) (e : Int) : Conv :=
  let k := (e % 2).toNat
  let n := m * 2 ^ (60 + k)
  let r := isqrt n
  let sticky := if r * r = n then 0 else 1
  convert .f32 .rne false false 0 (.fin false (2 * r + sticky) ((e - k - 60) / 2 - 1))

/-- VSQRT of an FP32 number. -/
def sqrtElem (x : Nat) : Conv :=
  match decodeTy .f32 x with
  | .nan => (nan32, 0)
  | .inf neg => if neg then (nan32, Flags.nv) else (inf32 false, 0)
  | .fin neg m e => if m = 0 then (zero32 neg, 0) else if neg then (nan32, Flags.nv) else sqrtFin m e

/-- VEXP2. -/
def veExp2 (o : Va) (s : State) : Except Fail State := one o s fun _ a => exp2Elem a
/-- VLOG2. -/
def veLog2 (o : Va) (s : State) : Except Fail State := one o s fun _ a => log2Elem a
/-- VRCP. -/
def veRcp (o : Va) (s : State) : Except Fail State := one o s fun _ a => rcpElem a
/-- VRSQ. -/
def veRsq (o : Va) (s : State) : Except Fail State := one o s fun _ a => rsqElem a
/-- VSQRT. -/
def veSqrt (o : Va) (s : State) : Except Fail State := one o s fun _ a => sqrtElem a

end Sys2Proof.Machine
end

