-- ==== Sys2Proof/Machine/Convert.lean ====
section
/-! DEFINITION. Conversion, block quantisation, decoding and block maxima of the vector engine (05 R124-R128). -/

namespace Sys2Proof.Machine

/-! ## VCVT (05 R124) -/

/-- Destination element and source element of each conversion of a VCVT. -/
def cvtPairs (ns nd h : Nat) : List (Nat × Nat) :=
  if nd ≤ ns then (List.range nd).map fun i => (i, h * nd + i)
  else (List.range ns).filterMap fun i => if h * ns + i < nd then some (h * ns + i, i) else none

/-- VCVT: elements at and above the source's count read as +0. -/
def veCvt (o : Vx) (s : State) : Except Fail State :=
  match readSrcs s [o.a] with
  | .error e => .error e
  | .ok (xs, u, f) =>
    let rm := Rm.resolve s.fp.fpctl o.rm
    let x := xs.getD 0 0
    let p := s.preg o.p
    let src (i : Nat) : Nat := if i < o.ty.count then elem o.ty x i else 0
    let res := ((cvtPairs o.ty.count o.dty.count o.aux.toNat).filter fun q => enabled p o.dty q.1).map fun q =>
      (q.1, convertBits o.ty o.dty rm o.fzi o.fzo o.sat (elemDraw s o.dty q.1) (src q.2))
    finishElems u o.d o.dty res f (decide (rm = .sr))

/-! ## The burl register (05 R125, R127) -/

/-- Byte `i` of a register as a number. -/
def vNat (x : VWord) (i : Nat) : Nat := (vByte x i).toNat
/-- 16 bits of a register from byte `i`. -/
def vHalf (x : VWord) (i : Nat) : Nat := vNat x i + 256 * vNat x (i + 1)
/-- The register with 16 bits put at byte `i`. -/
def putHalf (x : VWord) (i v : Nat) : VWord :=
  maskedWord x (BitVec.ofNat 2048 (v % 2 ^ 16 * 2 ^ (8 * i))) (BitVec.ofNat 2048 (0xFFFF * 2 ^ (8 * i)))

/-- BURLCOUNT with the header count and the counted escapes (04 R73, log 12). -/
def burlCount (count escapes : Nat) : Fail := failAt .burlcount (count + 2 ^ 32 * escapes) 0

/-- The header of a burl register does not fit (05 R125). -/
def burlBad (x : VWord) : Bool :=
  decide (64 < vHalf x 0) || vHalf x 2 != 64 || vHalf x 4 != 0 || vHalf x 6 != 0

/-- Slots appended to a burl register. -/
def appendSlots (x : VWord) : List Nat → VWord
  | [] => x
  | v :: vs => let n := vHalf x 0; appendSlots (putHalf (putHalf x (8 + 2 * n) v) 0 (n + 1)) vs

/-! ## VQUANT (05 R125, R126) -/

/-- The inputs of block `k`: a disabled lane is padding, the draw is that of the code's place. -/
def quantIn (o : Vx) (s : State) (x : VWord) (k : Nat) : List BlockIn :=
  (List.range 32).map fun i =>
    let n := 32 * k + i
    ⟨decodeTy o.ty (flushIn o.ty o.fzi (elem o.ty x n)), !enabled (s.preg o.p) o.ty n,
      elemDraw s o.dty (bits o.aux.toNat 0 4 * o.ty.count + n)⟩

/-- The threshold of election: 2^(tcode − 127), or none (05 R125). -/
def burlThresh (tcode : Nat) : Val := if tcode = 255 then .nan else .fin false 1 ((tcode : Int) - 127)

/-- The blocks quantised: scales, codes in order, the burl register, flags; none on a strict overflow. -/
def quantBlocks (o : Vx) (s : State) (rm : Rm) (x : VWord) : Nat → Nat → VWord →
    Option (List Nat × List Nat × VWord × Flags)
  | 0, _, b => some ([], [], b, 0)
  | n + 1, k, b =>
    let ins := quantIn o s x k
    if o.dty = .hb4 then
      let q := quantHb4 (bits o.aux.toNat 5 3) (burlThresh (bits o.aux.toNat 8 8)) rm (64 - vHalf b 0) ins
      if 0 < q.beyond ∧ s.fp.fpctl.getLsbD 4 then none
      else (quantBlocks o s rm x n (k + 1) (appendSlots b q.burls)).map fun r =>
        (q.scale :: r.1, q.codes ++ r.2.1, r.2.2.1, q.flags ||| r.2.2.2)
    else
      let q := quantMx o.dty rm o.fzo ins
      (quantBlocks o s rm x n (k + 1) b).map fun r =>
        (q.1 :: r.1, q.2.map (·.1) ++ r.2.1, r.2.2.1, allFlags (q.2.map (·.2)) ||| r.2.2.2)

/-- A register's elements of type `t` from element `i` on replaced. -/
def putElems (x : VWord) (t : Ty) (i : Nat) (vs : List Nat) : VWord :=
  let xs := vs.zipIdx.map fun v => (i + v.2, v.1)
  maskedWord x (elemWord t xs) (elemMask t (xs.map (·.1)))

/-- VQUANT. A NaN scale never raises FIRSTNAN (04 R88). -/
def veQuant (o : Vx) (s : State) : Except Fail State :=
  match readSrcs s [o.a] with
  | .error e => .error e
  | .ok (xs, u, f) =>
    let rm := Rm.resolve s.fp.fpctl o.rm
    let b := s.vreg (regNum o.b)
    let h := bits o.aux.toNat 0 4
    let nb := o.ty.count / 32
    if o.dty = .hb4 ∧ burlBad b then .error (burlCount (vHalf b 0) 0)
    else
      match quantBlocks o s rm (xs.getD 0 0) nb 0 b with
      | none => .error (plainFail .burlovf)
      | some (scales, codes, b2, g) =>
        match finishElems u o.d o.dty (codes.zipIdx.map fun c => (h * o.ty.count + c.2, (c.1, 0))) (f ||| g)
            (decide (rm = .sr)) with
        | .error e => .error e
        | .ok t =>
          let c := regNum o.c
          let v := t.setV c (putElems (t.vreg c) .n8 (h * nb) scales)
          .ok (if o.dty = .hb4 then v.setV (regNum o.b) b2 else v)

/-! ## VDEQ (05 R127) -/

/-- Decoded source elements with the cursor after them; the count and the escapes met where a slot is missing. -/
def deqHb4 (codes scales burl : VWord) (count : Nat) : List Nat → Nat → Except (Nat × Nat) (List Val × Nat)
  | [], cur => .ok ([], cur)
  | i :: is, cur =>
    let code := elem .hb4 codes i
    let sc := elem .n8 scales (i / 32)
    let escape := code == 8
    if escape && decide (count ≤ cur) then .error (count, cur + 1)
    else
      let v := if bits sc 0 6 = 63 then .nan
        else if escape then decodeTy .bf16 (vHalf burl (8 + 2 * cur)) else decodeHb4 sc code
      match deqHb4 codes scales burl count is (if escape then cur + 1 else cur) with
      | .error e => .error e
      | .ok (vs, c) => .ok (v :: vs, c)

/-- The results of the destination elements a predicate enables. -/
def deqResults (o : Vx) (s : State) (vs : List Val) : List (Nat × Conv) :=
  let rm := Rm.resolve s.fp.fpctl o.rm
  ((vs.zipIdx.map fun v => (v.2, v.1)).filter fun v => enabled (s.preg o.p) o.dty v.1).map fun v =>
    (v.1, convert o.dty rm o.fzo false (elemDraw s o.dty v.1) v.2)

/-- VDEQ. -/
def veDeq (o : Vx) (s : State) : Except Fail State :=
  match readSrcs s [o.a] with
  | .error e => .error e
  | .ok (xs, u, f) =>
    let x := xs.getD 0 0
    let sc := s.vreg (regNum o.b)
    let nd := o.dty.count
    let from_ := bits o.aux.toNat 0 4 * nd
    let rng := decide (Rm.resolve s.fp.fpctl o.rm = .sr)
    let idx := (List.range nd).map fun i => from_ + i
    if o.ty = .hb4 then
      let burl := s.vreg (regNum o.c)
      let count := vHalf burl 0
      if burlBad burl then .error (burlCount count 0)
      else
        match deqHb4 x sc burl count idx (vHalf burl 136) with
        | .error (c, n) => .error (burlCount c n)
        | .ok (vs, cur) =>
          if bit o.aux.toNat 4 ∧ cur ≠ count then .error (burlCount count cur)
          else
            match finishElems u o.d o.dty (deqResults o s vs) f rng with
            | .error e => .error e
            | .ok t => .ok (t.setV (regNum o.c) (putHalf burl 136 cur))
    else
      let vs := idx.map fun i => decodeMx o.ty (elem .n8 sc (i / 32)) (elem o.ty x i)
      finishElems u o.d o.dty (deqResults o s vs) f rng

/-! ## VAMAX (05 R128) -/

/-- The greatest magnitude of some elements, as bits; the canonical NaN if one is NaN. -/
def maxAbs (t : Ty) (l : List Nat) : Nat := l.foldl (fun m x => (maxElem t m (bits x 0 (t.width - 1))).1) 0

/-- VAMAX; its destination is a register. -/
def veAmax (o : Va) (s : State) : Except Fail State :=
  if 56 ≤ o.d.val then .error (plainFail .illegal)
  else
    match readSrcs s [o.a] with
    | .error e => .error e
    | .ok (xs, u, f) =>
      let x := xs.getD 0 0
      let old := s.vreg (regNum o.d)
      let res := (List.range (o.ty.count / 32)).map fun k =>
        (maxElem o.ty (elem o.ty old k) (maxAbs o.ty ((List.range 32).map fun i => elem o.ty x (32 * k + i)))).1
      .ok ((u.setV (regNum o.d) (putElems old o.ty 0 res)).addFlags f)

end Sys2Proof.Machine
end

