-- ==== Sys2Proof/Machine/Permute.lean ====
section
/-! DEFINITION. Permutes, reductions, predicates, port configuration and random numbers of the vector engine
(05 R129-R132, R135, R136). -/

namespace Sys2Proof.Machine

/-! ## Permutes (05 R129) -/

/-- A permute: element `i` of the destination is given by a function of the sources' elements, where it gives one. -/
def permute (o : Va) (s : State) (f : (Nat → Nat) → (Nat → Nat) → Nat → Nat → Option Nat) : Except Fail State :=
  match readSrcs s [o.a, o.b] with
  | .error e => .error e
  | .ok (xs, u, g) =>
    let x := (xs.getD 0 0).toNat
    let y := (xs.getD 1 0).toNat
    let w := o.ty.width
    let k := bits y 0 32
    let res := (enabledElems o.ty (s.preg o.p)).filterMap fun i =>
      (f (fun j => bits x (w * j) w) (fun j => bits y (w * j) w) k i).map fun v => (i, ((v, 0) : Conv))
    finishElems u o.d o.ty res g false

/-- VPACK. -/
def vePack (o : Va) (s : State) : Except Fail State :=
  let n := o.ty.count
  permute o s fun a b _ i => some (if i < n / 2 then a (2 * i) else b (2 * (i - n / 2)))

/-- VUNPK. -/
def veUnpk (o : Va) (s : State) : Except Fail State :=
  permute o s fun a b _ i => some (if i % 2 = 0 then a (i / 2) else b (i / 2))

/-- VSHUF. -/
def veShuf (o : Va) (s : State) : Except Fail State := permute o s fun a b _ i => some (a (b i % o.ty.count))

/-- VROT. -/
def veRot (o : Va) (s : State) : Except Fail State := permute o s fun a _ k i => some (a ((i + k) % o.ty.count))

/-- VBCAST. -/
def veBcast (o : Va) (s : State) : Except Fail State := permute o s fun a _ k _ => some (a (k % o.ty.count))

/-- VINS. -/
def veIns (o : Va) (s : State) : Except Fail State :=
  permute o s fun a _ k i => if i = k % o.ty.count then some (a 0) else none

/-! ## Reductions (05 R130) -/

/-- A reduction: the enabled elements of a, in ascending order, folded into `RES`. -/
def reduce (o : Va) (s : State) (f : List (Nat × Nat) → Except Fail (Word × Flags)) : Except Fail State :=
  match readSrcs s [o.a] with
  | .error e => .error e
  | .ok (xs, u, g) =>
    let x := (xs.getD 0 0).toNat
    match f ((enabledElems o.ty (s.preg o.p)).map fun i => (i, bits x (o.ty.width * i) o.ty.width)) with
    | .error e => .error e
    | .ok (v, h) => .ok ((u.addFlags (g ||| h)).setRes v)

/-- A float element widened to FP32 exactly. -/
def widen (t : Ty) (x : Nat) : Nat := if t = .f32 then x else (convertPlain t .f32 x).1

/-- An FP32 result, a NaN of it canonical (04 R67). -/
def canon32 (x : Nat) : Word := BitVec.ofNat 64 (if (decodeTy .f32 x).isNan then nan32 else x)

/-- The sums of `.add`, each rounded to FP32, with their flags and the element that first created a NaN. -/
def sumFrom (t : Ty) : List (Nat × Nat) → Nat → Flags → Option Nat → Nat × Flags × Option Nat
  | [], acc, f, n => (acc, f, n)
  | (i, x) :: rest, acc, f, n =>
    let c := addElem .f32 acc (widen t x)
    sumFrom t rest c.1 (f ||| c.2) (if n.isNone && c.2.hasNv then some i else n)

/-- `.add` of floats. -/
def redAddFloat (s : State) (t : Ty) (l : List (Nat × Nat)) : Except Fail (Word × Flags) :=
  match l with
  | [] => .ok (0, 0)
  | (_, x) :: rest =>
    let r := sumFrom t rest (widen t x) 0 none
    match nanTrap s, r.2.2 with
    | true, some i => .error (failAt .firstnan (nanStatus t i) 0)
    | _, _ => .ok (canon32 r.1, r.2.1)

/-- Elements extended to 64 bits. -/
def extendElem (t : Ty) (x : Nat) : Word := BitVec.ofInt 64 (intOf t x)

/-- VRED.add. -/
def veRedAdd (o : Va) (s : State) : Except Fail State :=
  reduce o s fun l =>
    if o.ty.isFloat then redAddFloat s o.ty l
    else .ok (l.foldl (fun a x => a + extendElem o.ty x.2) 0, 0)

/-- `.min` and `.max`: a fold of the lesser or the greater, `start` with no element. -/
def redPick (o : Va) (s : State) (f : Ty → Nat → Nat → Conv) (startF : Nat) (startI : Int) : Except Fail State :=
  reduce o s fun l =>
    if o.ty.isFloat then
      .ok (canon32 ((l.map fun x => widen o.ty x.2).foldl (fun m x => (f .f32 m x).1) startF), 0)
    else .ok (extendElem o.ty (l.foldl (fun m x => (f o.ty m x.2).1) (intBits o.ty startI)), 0)

/-- VRED.min. -/
def veRedMin (o : Va) (s : State) : Except Fail State := redPick o s minElem (inf32 false) o.ty.range.2
/-- VRED.max. -/
def veRedMax (o : Va) (s : State) : Except Fail State := redPick o s maxElem (inf32 true) o.ty.range.1

/-- VRED.amax. -/
def veRedAmax (o : Va) (s : State) : Except Fail State :=
  reduce o s fun l => .ok (canon32 (maxAbs .f32 (l.map fun x => widen o.ty x.2)), 0)

/-- VRED.and. -/
def veRedAnd (o : Va) (s : State) : Except Fail State :=
  reduce o s fun l => .ok (l.foldl (fun a x => a &&& extendElem o.ty x.2) (BitVec.allOnes 64), 0)
/-- VRED.or. -/
def veRedOr (o : Va) (s : State) : Except Fail State :=
  reduce o s fun l => .ok (l.foldl (fun a x => a ||| extendElem o.ty x.2) 0, 0)
/-- VRED.xor. -/
def veRedXor (o : Va) (s : State) : Except Fail State :=
  reduce o s fun l => .ok (l.foldl (fun a x => a ^^^ extendElem o.ty x.2) 0, 0)

/-! ## Predicates (05 R131) -/

/-- PSET. -/
def vePset (o : Pr) (s : State) : Except Fail State := .ok (s.setP o.d (BitVec.allOnes 64))
/-- PAND. -/
def vePand (o : Pr) (s : State) : Except Fail State := .ok (s.setP o.d (s.preg o.a &&& s.preg o.b))
/-- POR. -/
def vePor (o : Pr) (s : State) : Except Fail State := .ok (s.setP o.d (s.preg o.a ||| s.preg o.b))
/-- PXOR. -/
def vePxor (o : Pr) (s : State) : Except Fail State := .ok (s.setP o.d (s.preg o.a ^^^ s.preg o.b))
/-- PNOT. -/
def vePnot (o : Pr) (s : State) : Except Fail State := .ok (s.setP o.d (~~~s.preg o.a))
/-- PANDN. -/
def vePandn (o : Pr) (s : State) : Except Fail State := .ok (s.setP o.d (s.preg o.a &&& ~~~s.preg o.b))
/-- PCNT. -/
def vePcnt (o : Va) (s : State) : Except Fail State :=
  .ok (s.setRes (BitVec.ofNat 64 (popc 64 (s.preg (Fin.ofNat 16 o.a.val)).toNat)))

/-! ## Ports and random numbers (05 R132, R135, R136) -/

/-- The number in bytes `i` to `i + n - 1` of a register. -/
def vField (x : VWord) (i n : Nat) : Nat := bits x.toNat (8 * i) (8 * n)

/-- The port a parameter block describes, if every value is within its limits (05 R132). -/
def portOf (x : VWord) (wr wrap : Bool) : Option Port :=
  let strides := (List.range 4).map fun j => vField x (8 + 8 * j) 4
  let counts := (List.range 4).map fun j => vField x (12 + 8 * j) 4
  if vField x 0 8 < 2 ^ 23 ∧ vField x 0 8 % 64 = 0 ∧ strides.all (fun t => t % 64 == 0)
      ∧ counts.all (fun c => decide (1 ≤ c) && decide (c ≤ 2 ^ 24)) ∧ vField x 40 216 = 0 then
    some ⟨wr, wrap, vField x 0 8, strides.map (BitVec.ofNat 32), counts, 0⟩
  else none

/-- GCFG. -/
def veGcfg (o : Vx) (s : State) : Except Fail State :=
  match readSrcs s [o.a] with
  | .error e => .error e
  | .ok (xs, u, f) =>
    match portOf (xs.getD 0 0) (bit o.aux.toNat 0) (bit o.aux.toNat 1) with
    | none => .error (plainFail .illegal)
    | some p => .ok ((u.setPort (portNum o.d) (some p)).addFlags f)

/-- VRAND. -/
def veRand (o : Va) (s : State) : Except Fail State :=
  finishElems s o.d .n32 ((enabledElems .n32 (s.preg o.p)).map fun i =>
    (i, (bits (laneWord s.fp.seed s.fp.rngcnt i).toNat 32 32, 0))) 0 true

/-- VSEED. -/
def veSeed (o : Va) (s : State) : Except Fail State :=
  match readSrcs s [o.a] with
  | .error e => .error e
  | .ok (xs, u, f) =>
    let x := xs.getD 0 0
    .ok ((u.modFp fun r => { r with seed := x.extractLsb' 0 64, rngcnt := x.extractLsb' 64 64 }).addFlags f)

end Sys2Proof.Machine
end

