-- ==== Sys2Proof/Machine/VecMem.lean ====
section
/-! DEFINITION. Vector memory commands (08 R224-R226) and sampling from candidate lists (10 R306-R308). -/

namespace Sys2Proof.Machine

/-! ## Scratchpad forms (08 R224, R225) -/

/-- An offset that VLD and VST accept (08 R225). -/
def vecOffsetOk (a : Word) : Bool := a.toNat % 64 == 0 && decide (a.toNat ≤ 2 ^ 23 - 256)

/-- VLD at an offset captured at dispatch. -/
def veLd (o : Va) (a : Word) (s : State) : Except Fail State :=
  if vecOffsetOk a then
    match engineRead s a.toNat 256 with
    | .error e => .error e
    | .ok (bs, f) =>
      match writeDst s o.d (BitVec.ofNat 2048 (leNat bs)) (laneMask (s.preg o.p)) with
      | .error e => .error e
      | .ok (t, g) => .ok (t.addFlags (f ||| g))
  else .error (plainFail .illegal)

/-- VST. -/
def veSt (o : Va) (a : Word) (s : State) : Except Fail State :=
  if vecOffsetOk a then
    match readSrcs s [o.b] with
    | .error e => .error e
    | .ok (xs, u, f) =>
      let w := enginePut u (pushCells u a.toNat (xs.getD 0 0) (laneMask (s.preg o.p)))
      .ok (w.1.addFlags (f ||| w.2))
  else .error (plainFail .illegal)

/-- Lanes that a predicate enables, ascending. -/
def enabledLanes (p : Word) : List Nat := (List.range 64).filter fun j => p.getLsbD j

/-- The offset of a lane of a gather or a scatter. -/
def laneOffset (a : Word) (b : VWord) (j : Nat) : Nat := (a.toNat + elem .n32 b j) % 2 ^ 23

/-- Words gathered lane by lane. -/
def gatherLanes (s : State) (a : Word) (b : VWord) : List Nat → Except Fail (List (Nat × Nat) × Flags)
  | [] => .ok ([], 0)
  | j :: js =>
    match engineRead s (laneOffset a b j) 4 with
    | .error e => .error e
    | .ok (bs, f) =>
      match gatherLanes s a b js with
      | .error e => .error e
      | .ok (xs, g) => .ok ((j, leNat bs) :: xs, f ||| g)

/-- VGATH. -/
def veGath (o : Va) (a : Word) (s : State) : Except Fail State :=
  let b := s.vreg (regNum o.b)
  let js := enabledLanes (s.preg o.p)
  if js.all fun j => laneOffset a b j % 4 == 0 then
    match gatherLanes s a b js with
    | .error e => .error e
    | .ok (xs, f) =>
      match writeDst s o.d (elemWord .n32 xs) (elemMask .n32 js) with
      | .error e => .error e
      | .ok (t, g) => .ok (t.addFlags (f ||| g))
  else .error (plainFail .illegal)

/-- VSCAT: words in ascending lane order, so that the highest lane's value stays (08 R226). -/
def veScat (o : Va) (a : Word) (s : State) : Except Fail State :=
  let b := s.vreg (regNum o.b)
  let d := s.vreg (regNum o.d)
  let js := enabledLanes (s.preg o.p)
  if js.all fun j => laneOffset a b j % 4 == 0 then
    let cells := js.flatMap fun j => (leBytes 4 (elem .n32 d j)).zipIdx.map fun x => (laneOffset a b j + x.2, x.1)
    let w := enginePut s cells
    .ok (w.1.addFlags w.2)
  else .error (plainFail .illegal)

/-! ## Global forms -/

/-- A global address that VLDG and VSTG accept (08 R225). -/
def vecGlobalOk (a : Word) : Bool := decide (a.toNat < 2 ^ 57) && a.toNat % 256 == 0

/-- A block of 256 bytes checked as one access; none where a migration or a held CPH is before it. -/
def vecGlobal (s : State) (need : Need) (a : Word) : Except Fail (Option Phys) :=
  if vecGlobalOk a then
    match translate s (some s.core) (dieOf s.core.agent) s.ctx s.isPriv need a.toNat with
    | .error e => .error e
    | .ok p =>
      if heldByMigration s p.key || behindHeld s (dieOf s.core.agent) p 1 s.ctx a.toNat 256 then .ok none
      else
        match raceCheck s (actorOf s.core) p a with
        | .error e => .error e
        | .ok _ => .ok (some p)
  else .error (plainFail .illegal)

/-- The owner notes a held access of the VE. -/
def vecHeld (s : State) (a : Word) : State :=
  match translate s (some s.core) (dieOf s.core.agent) s.ctx s.isPriv .read a.toNat with
  | .ok p => noteHeld s p.key .ve
  | .error _ => s

/-- VLDG. -/
def veLdg (o : Vg) (a : Word) (s : State) : EngRes :=
  match vecGlobal s .read a with
  | .error e => .stop s e 0
  | .ok none => .wait (vecHeld s a)
  | .ok (some p) =>
    let d := dieOf s.core.agent
    match firstPoison s.poison (forwardKey s p.key) 256 with
    | some g => .stop s (failAt .poison 0 (BitVec.ofNat 64 (a.toNat + 64 * (g - forwardKey s p.key / 64)))) 0
    | none =>
      let s1 := countMigration s d p
      let x := BitVec.ofNat 2048 (leNat (readHbm s1 d s.ctx p 256 false))
      match writeDst s1 o.d x (laneMask (s.preg o.p)) with
      | .error e => .stop s e 0
      | .ok (t, _) => .done t

/-- Bytes of a block written where lanes are enabled: each granule of 64 bytes at once if all its lanes are. -/
def writeLanes (s : State) (d : Fin 8) (p : Phys) (x : VWord) (pr : Word) : State :=
  let put (s : State) (off n : Nat) : State :=
    writeHbm s d s.ctx { p with key := p.key + off, addr := p.addr + off }
      ((List.range n).map fun i => vByte x (off + i))
  (List.range 4).foldl (fun s g =>
    let js := (List.range 16).filter fun j => pr.getLsbD (16 * g + j)
    if js.length = 16 then put s (64 * g) 64 else js.foldl (fun s j => put s (64 * g + 4 * j) 4) s) s

/-- VSTG. -/
def veStg (o : Vg) (a : Word) (s : State) : EngRes :=
  match vecGlobal s .write a with
  | .error e => .stop s e 0
  | .ok none => .wait (vecHeld s a)
  | .ok (some p) =>
    match readSrcs s [o.b] with
    | .error e => .stop s e 0
    | .ok (xs, u, f) =>
      let d := dieOf s.core.agent
      let pr := s.preg o.p
      let t := (countMigration u d p).addFlags f
      if pr = 0 then .done t else .done (setTag (writeLanes t d p (xs.getD 0 0) pr) (actorOf s.core) p)

/-! ## Candidate lists (10 R306) -/

/-- A candidate list: its capacity and its entries, each an FP32 value and a token. -/
structure CandList where
  cap : Nat
  entries : List (Nat × Nat)
  deriving DecidableEq, Repr

/-- A list's bytes from an offset, as raw bytes with poison looked up and no layout tag (10 R306). -/
def rawRead (s : State) (off n : Nat) : Except Fail (List Byte) :=
  match spadPoison s s.core off n with
  | some o => .error (failAt .poison 0 (BitVec.ofNat 64 (o / 64 * 64)))
  | none => .ok (spadBytes s s.core off n)

/-- A list of `cap` entries lies inside the scratchpad. -/
def listFits (a : Word) (cap : Nat) : Bool := decide (a.toNat + 16 + 8 * cap ≤ 2 ^ 23)

/-- The alignment of a list's address (12 R395). -/
def listAligned (a : Word) : Except Fail Unit :=
  if a.toNat % 64 = 0 then .ok () else .error (failAt .align 64 a)

/-- The list at an offset; ILLEGAL where its header is not valid or it passes the end (10 R307, R308). -/
def readList (s : State) (a : Word) : Except Fail CandList :=
  if listFits a 0 then
    match rawRead s a.toNat 16 with
    | .error e => .error e
    | .ok h =>
      let k := leAt h 0 2
      let n := leAt h 2 2
      if 1 ≤ k ∧ k ≤ 256 ∧ n ≤ k ∧ leAt h 4 12 = 0 ∧ listFits a k then
        match rawRead s (a.toNat + 16) (8 * n) with
        | .error e => .error e
        | .ok bs => .ok ⟨k, (List.range n).map fun j => (leAt bs (8 * j) 4, leAt bs (8 * j + 4) 4 % 2 ^ 20)⟩
      else .error (plainFail .illegal)
  else .error (plainFail .illegal)

/-- Entry x goes before y: a greater value, or an equal one with a lower token. -/
def candBefore (x y : Nat × Nat) : Bool :=
  let a := decodeTy .f32 x.1
  let b := decodeTy .f32 y.1
  b.lt a || (a.beq b && decide (x.2 < y.2))

/-- An entry inserted into the sorted list. -/
def insertEntry (x : Nat × Nat) : List (Nat × Nat) → List (Nat × Nat)
  | [] => [x]
  | y :: ys => if candBefore x y then x :: y :: ys else y :: insertEntry x ys

/-- The candidates of VTOPK inserted one by one, the last entry dropped beyond the capacity. -/
def insertAll (cap : Nat) (l : List (Nat × Nat)) (xs : List (Nat × Nat)) : List (Nat × Nat) :=
  xs.foldl (fun l x => (insertEntry x l).take cap) l

/-- The bytes of a list: its header and its entries. -/
def listBytes (l : CandList) : List Byte :=
  leBytes 2 l.cap ++ leBytes 2 l.entries.length ++ leBytes 12 0
    ++ l.entries.flatMap fun e => leBytes 4 e.1 ++ leBytes 4 e.2

/-- The list a VTOPK starts from. -/
def startList (o : Vx) (a : Word) (s : State) : Except Fail CandList :=
  if bit o.aux.toNat 0 then
    let k := bits o.aux.toNat 8 8 + 1
    if listFits a k then .ok ⟨k, []⟩ else .error (plainFail .illegal)
  else readList s a

/-- VTOPK: `a` is the list's address, `base` the token of element 0. -/
def veTopk (o : Vx) (a base : Word) (s : State) : Except Fail State :=
  match listAligned a with
  | .error e => .error e
  | .ok _ =>
    match startList o a s with
    | .error e => .error e
    | .ok l =>
      match readSrcs s [o.a] with
      | .error e => .error e
      | .ok (xs, u, f) =>
        let x := xs.getD 0 0
        let is := enabledElems o.ty (s.preg o.p)
        if is.all fun i => decide (base.toNat + i < 2 ^ 20) then
          let cand := is.filterMap fun i =>
            let w := widen o.ty (flushIn o.ty o.fzi (elem o.ty x i))
            let v := decodeTy .f32 w
            if v.isNan then none else some (if v.isZero then 0 else w, base.toNat + i)
          let l2 := { l with entries := insertAll l.cap l.entries cand }
          let t := engineWrite u a.toNat (listBytes l2)
          .ok ((t.1.addFlags f).setRes (BitVec.ofNat 64 l2.entries.length))
        else .error (plainFail .illegal)

/-! ## VDRAW (10 R308) -/

/-- The weight of an entry: floor(VEXP2(y)·2^24). None where the list is not one that R306 allows and no weight is
stated: a NaN, or a value far above the first. -/
def drawWeight (x0 beta x : Nat) : Option Nat :=
  let a := decodeTy .f32 x
  let b := decodeTy .f32 x0
  let y : Val :=
    if a.beq b then .fin false 0 0
    else if a = .inf true then .inf true
    else
      let d := decodeTy .f32 (subElem .f32 x x0).1
      if d = .inf true then .inf true else decodeTy .f32 (mulElem .f32 (subElem .f32 x x0).1 beta).1
  let z := match y with
    | .fin neg m e => if m = 0 then 0x3F800000 else (exp2Fin neg m e).1
    | .inf neg => if neg then 0 else inf32 false
    | .nan => nan32
  match decodeTy .f32 z with
  | .fin _ m e => some (if 0 ≤ e + 24 then m * 2 ^ (e + 24).toNat else m / 2 ^ (-(e + 24)).toNat)
  | _ => none

/-- The sum of the first `n` weights. -/
def sumFirst (w : List Nat) (n : Nat) : Nat := (w.take n).foldl (· + ·) 0

/-- The least `n` from 1 on whose first weights reach `goal`, at most all. -/
def leastPrefix (w : List Nat) (goal : Nat) : Nat :=
  ((List.range w.length).find? fun i => decide (goal ≤ sumFirst w (i + 1))).elim w.length (· + 1)

/-- β and P are within their limits (10 R308). -/
def drawArgsOk (beta p : Nat) : Bool :=
  let b := decodeTy .f32 beta
  let q := decodeTy .f32 p
  !b.isNan && !b.lt (.fin false 0 0) && !q.isNan && (Val.fin false 0 0).lt q && !(Val.fin false 1 0).lt q

/-- ceil(P·S) for an FP32 P. -/
def ceilMass (p total : Nat) : Nat :=
  match decodeTy .f32 p with
  | .fin _ m e => if 0 ≤ e then m * 2 ^ e.toNat * total else (m * total + 2 ^ (-e).toNat - 1) / 2 ^ (-e).toNat
  | _ => total

/-- VDRAW. Weights that no rule states are free values (log 9). -/
def veDraw (o : Vx) (a : Word) (s : State) : Except Fail State :=
  match listAligned a with
  | .error e => .error e
  | .ok _ =>
    let v := s.vreg (regNum o.a)
    let beta := elem .n32 v 0
    let p := elem .n32 v 1
    if drawArgsOk beta p then
      match readList s a with
      | .error e => .error e
      | .ok l =>
        let t := s.modFp fun r => { r with rngcnt := r.rngcnt + 1 }
        match l.entries with
        | [] => .ok (t.setRes 0x0100000000000000)
        | x0 :: _ =>
          let ws := l.entries.map fun x => drawWeight x0.1 beta x.1
          let w := ws.zipIdx.map fun x => x.1.getD (Config.freeWord (s.free + x.2)).toNat
          let n := leastPrefix w (ceilMass p (sumFirst w w.length))
          let u := bits (laneWord s.fp.seed s.fp.rngcnt 0).toNat 24 40
          let q := u * sumFirst w n / 2 ^ 40
          let j := ((List.range w.length).find? fun i => decide (q < sumFirst w (i + 1))).getD (w.length - 1)
          let r := t.setRes (BitVec.ofNat 64 (l.entries.getD j (0, 0)).2)
          .ok (if ws.all Option.isSome then r else { r with free := s.free + ws.length })
    else .error (plainFail .illegal)

end Sys2Proof.Machine
end

