-- ==== Sys2Proof/Machine/Landing.lean ====
section
/-! DEFINITION. Accumulators and the vector engine: elements of the store (06 R137), the landing buffer (06 R166),
ACCRD, COMMIT and ACCWR (06 R167-R169). -/

namespace Sys2Proof.Machine

/-- The key of element (i, j) of a slot of the core in focus (06 R137). -/
def accElemKey (s : State) (slot i j : Nat) : Nat := accKey s.core.agent.val (2 ^ 17 * slot + 1024 * i + 4 * j)
/-- The bits of element (i, j) of a slot. -/
def accGet (s : State) (slot i j : Nat) : Nat := s.le (accElemKey s slot i j) 4
/-- The state with element (i, j) of a slot written. -/
def accPut (s : State) (slot i j v : Nat) : State :=
  { s with mem := memSetList s.mem (accElemKey s slot i j) (leBytes 4 v) }
/-- The element type of a slot (06 R137). -/
def slotTy (s : State) (slot : Nat) : Ty := if s.me.intSlot.toList.getD slot false then .i32 else .f32

/-- The slot of an ACCRD or ACCWR. -/
def accSlot (o : Vx) : Nat := bits o.aux.toNat 10 2
/-- Its row. -/
def accRow (o : Vx) : Nat := bits o.aux.toNat 3 7
/-- Its first column, for a type of `n` elements in a register. -/
def accCol (o : Vx) (n : Nat) : Nat := bits o.aux.toNat 0 3 * n
/-- Its transfer. -/
def accXfer (o : Vx) : Fin 16 := Fin.ofNat 16 (bits o.aux.toNat 12 4)

/-- The state with a transfer replaced. -/
def State.setLanding (s : State) (n : Fin 16) (l : Option Landing) : State :=
  s.modVe fun r => { r with landing := r.landing.set n l }

/-- The converted elements of a transfer (06 R167). -/
def landResults (s : State) (l : Landing) : List (Nat × Conv) :=
  let o := l.cmd
  let rm := Rm.resolve s.fp.fpctl o.rm
  (List.range o.dty.count).map fun i =>
    let p := lanePos o.dty i
    (i, convertBits (slotTy s (accSlot o)) o.dty rm false o.fzo o.sat (drawVe l.seed l.rng p.1 p.2)
      (accGet s (accSlot o) (accRow o) (accCol o o.dty.count + i)))

/-- The data of a transfer arrives: flags merge, or a first NaN leaves the transfer empty (06 R167, 04 R88). -/
def landNow (s : State) (n : Fin 16) (l : Landing) : Except Fail State :=
  let xs := landResults s l
  match firstNan s l.cmd.dty xs with
  | some e => .error e
  | none =>
    let x := elemWord l.cmd.dty (xs.map fun x => (x.1, x.2.1))
    .ok ((s.setLanding n (some { l with data := some x })).addFlags (allFlags (xs.map (·.2.2))))

/-- ACCRD: its transfer becomes pending; it lands at once where nothing before it covers its row and accesses are
performed at issue (log 5). -/
def veAccrd (o : Vx) (c : Cmd) (free : Bool) (s : State) : Except Fail State :=
  if (s.ve.landing[accXfer o]).isSome then .error (plainFail .illegal)
  else
    let l : Landing := ⟨physV s.ve.vrb (regNum o.d), o, c.idx, s.fp.seed, s.fp.rngcnt, none⟩
    let t := if Rm.resolve s.fp.fpctl o.rm = .sr then s.modFp fun r => { r with rngcnt := r.rngcnt + 1 } else s
    if free && s.core.inOrder then landNow t (accXfer o) l else .ok (t.setLanding (accXfer o) (some l))

/-- COMMIT (06 R168). -/
def veCommit (o : Va) (s : State) : EngRes :=
  let n := Fin.ofNat 16 o.a.val
  match s.ve.landing[n] with
  | none => .stop s (plainFail .illegal) 0
  | some l =>
    match l.data with
    | none => .wait s
    | some x => .done ((s.setLanding n none).modVe fun r => { r with v := r.v.set l.dest x })

/-- ACCWR (06 R169). -/
def veAccwr (o : Vx) (s : State) : Except Fail State :=
  match readSrcs s [o.a] with
  | .error e => .error e
  | .ok (xs, u, f) =>
    let rm := Rm.resolve s.fp.fpctl o.rm
    let x := xs.getD 0 0
    let n := o.ty.count
    let res := (enabledElems o.ty (s.preg o.p)).map fun i =>
      (i, convertBits o.ty (slotTy s (accSlot o)) rm o.fzi false o.sat (elemDraw s o.ty i) (elem o.ty x i))
    match firstNan s o.ty res with
    | some e => .error e
    | none =>
      let t := res.foldl (fun t r => accPut t (accSlot o) (accRow o) (accCol o n + r.1) r.2.1) u
      let v := t.addFlags (f ||| allFlags (res.map (·.2.2)))
      .ok (if rm = .sr then v.modFp fun r => { r with rngcnt := r.rngcnt + 1 } else v)

end Sys2Proof.Machine
end

