-- ==== Sys2Proof/Machine/Ranges.lean ====
section
/-! DEFINITION. The range checker (07 R178): the local ranges of VE, ME and copy commands (05 R132, 06 R143, 08 R226,
R234), and whether an earlier command of another engine still has work on the bytes of a later one. Where a range
depends on data not read yet, the widest it can be is taken (log 3). -/

namespace Sys2Proof.Machine

/-- A local range: first byte, end, and whether it is written. Accumulators lie from 2^24 on. -/
structure Rng where
  lo : Nat
  hi : Nat
  wr : Bool
  deriving DecidableEq, Repr

/-- Two ranges overlap and at least one writes. -/
def Rng.meets (a b : Rng) : Bool := (a.wr || b.wr) && decide (a.lo < b.hi) && decide (b.lo < a.hi)

/-- `n` bytes of the scratchpad; all of it where they would pass its end. -/
def spadRng (off n : Nat) (wr : Bool) : List Rng :=
  if n = 0 then [] else if off + n ≤ 2 ^ 23 then [⟨off, off + n, wr⟩] else [⟨0, 2 ^ 23, wr⟩]

/-- `n` bytes of the accumulator store. -/
def accRng (off n : Nat) (wr : Bool) : List Rng := if n = 0 then [] else [⟨2 ^ 24 + off, 2 ^ 24 + off + n, wr⟩]

/-- A whole slot. -/
def slotRng (slot : Nat) (wr : Bool) : List Rng := accRng (2 ^ 17 * slot) (2 ^ 17) wr

/-! ## VE commands -/

/-- The register codes of a VE command that may name ports. -/
def veCodes : Instr → List VCode
  | .vadd o | .vsub o | .vmul o | .vmin o | .vmax o | .vabs o | .vneg o | .vmov o | .vsel o | .vexp2 o | .vlog2 o | .vrcp o
  | .vrsq o | .vsqrt o | .vand o | .vor o | .vxor o | .vshl o | .vshr o | .vsar o | .vpopc o | .vamax o | .vpack o
  | .vunpk o | .vshuf o | .vrot o | .vbcast o | .vins o | .vredAdd o | .vredMin o | .vredMax o | .vredAmax o | .vredAnd o
  | .vredOr o | .vredXor o | .vst o | .vrand o | .vseed o => [o.d, o.a, o.b]
  | .vstg o => [o.b]
  | .vfma o | .vfms o | .vcmp o | .vimad o | .vcvt o | .vquant o | .vdeq o => [o.d, o.a, o.b, o.c]
  | .accwr o | .gcfg o | .vtopk o => [o.a]
  | _ => []

/-- The least and greatest offset a walk adds to its base. -/
def walkSpan : List (BitVec 32) → List Nat → Int × Int
  | st :: sts, c :: cs =>
    let r := walkSpan sts cs
    let x : Int := st.toInt * ((c : Int) - 1)
    (r.1 + min 0 x, r.2 + max 0 x)
  | _, _ => (0, 0)

/-- The span of a port's walk (05 R132). -/
def portRng (p : Port) : List Rng :=
  let w := walkSpan p.strides p.counts
  let lo := (p.base : Int) + w.1
  let hi := (p.base : Int) + w.2 + 256
  if 0 ≤ lo ∧ hi ≤ (2 ^ 23 : Nat) then [⟨lo.toNat, hi.toNat, p.wr⟩] else [⟨0, 2 ^ 23, p.wr⟩]

/-- The ranges of the ports that some codes name; `head` says that the command is the next one. -/
def portRngs (s : State) (head : Bool) (cs : List VCode) : List Rng :=
  cs.flatMap fun c =>
    if c.val < 56 then []
    else if head then
      match s.port (portNum c) with
      | some p => portRng p
      | none => []
    else [⟨0, 2 ^ 23, true⟩]

/-- The span of the enabled lanes of a gather or a scatter (08 R226). -/
def laneSpan (s : State) (o : Va) (a : Word) (wr : Bool) : List Rng :=
  match (enabledLanes (s.preg o.p)).map (laneOffset a (s.vreg (regNum o.b))) with
  | [] => []
  | x :: xs => let lo := xs.foldl min x; spadRng lo (xs.foldl max x + 4 - lo) wr

/-- The local ranges of a VE command. -/
def veRanges (s : State) (head : Bool) (c : Cmd) : List Rng :=
  let a := (c.vals.getD 0 0).toNat
  portRngs s head (veCodes c.instr) ++
    match c.instr with
    | .vld _ => spadRng a 256 false
    | .vst _ => spadRng a 256 true
    | .vgath o => if head then laneSpan s o (c.vals.getD 0 0) false else [⟨0, 2 ^ 23, false⟩]
    | .vscat o => if head then laneSpan s o (c.vals.getD 0 0) true else [⟨0, 2 ^ 23, true⟩]
    | .vtopk _ => spadRng a (16 + 8 * 256) true
    | .vdraw _ => spadRng a (16 + 8 * 256) false
    | .accrd o => accRng (2 ^ 17 * accSlot o + 1024 * accRow o + 4 * accCol o o.dty.count) (4 * o.dty.count) false
    | .accwr o => accRng (2 ^ 17 * accSlot o + 1024 * accRow o + 4 * accCol o o.ty.count) (4 * o.ty.count) true
    | _ => []

/-! ## ME commands (06 R143) -/

/-- A configuration field as a number. -/
def cfgNat (cfg : Vector Word 18) (i : Fin 18) : Nat := cfg[i].toNat

/-- The quotient rounded up. -/
def ceilDiv (a b : Nat) : Nat := (a + b - 1) / b

/-- The element types of ty4 codes (02 R49). -/
def tyOfCode (n : Nat) : Ty := Ty.ofCode (n % 16)

/-- The type of an operand: that of the bank that holds its base (06 R141). -/
def operandTy (s : State) (base : Nat) : Ty := tyOfCode (bankFmt s.core (bankOf base)).1

/-- The bytes of a plain operand of `rows` rows of `cols` elements, or of its tiles, and of its scales. -/
def operandRng (s : State) (desc rows cols scales : Nat) : List Rng :=
  let base := bits desc 0 23
  let stride := bits desc 24 24
  let t := operandTy s base
  let body := if t = .hb4 then (ceilDiv rows 64 - 1) * stride + ceilDiv cols 64 * 2560
    else (rows - 1) * stride + ceilDiv (cols * t.width) 8
  spadRng base body false ++
    (if bits desc 48 16 = 0 then [] else spadRng (spadMask (base + 64 * bits desc 48 16)) scales false)

/-- The bytes of packed values: `n` entries of at most `per` elements. -/
def packedRng (s : State) (desc n per : Nat) : List Rng :=
  let base := bits desc 0 23
  spadRng base (ceilDiv (n * per * (operandTy s base).width) 8) false

/-- The ranges of the operands of an MMA or MSPA; `kindA` is the kind of A's metadata, `occ` that of B. -/
def matrixRng (s : State) (cfg : Vector Word 18) (kindA : Nat) (occ acca : Bool) : List Rng :=
  let m := cfgNat cfg 0
  let n := cfgNat cfg 1
  let k := cfgNat cfg 2
  let ad := cfgNat cfg 3
  let bd := cfgNat cfg 4
  let am := cfgNat cfg 5
  let bm := cfgNat cfg 6
  let ca := ceilDiv k 32
  let ta := operandTy s (bits ad 0 23)
  let tb := operandTy s (bits bd 0 23)
  let a := if acca then []
    else if kindA ≠ 0 ∧ ta ≠ .hb4 then
      packedRng s ad (bits am 32 23) 2 ++ (if bits ad 48 16 = 0 then [] else spadRng (spadMask (bits ad 0 23 + 64 * bits ad 48 16)) (m * ca) false)
    else operandRng s ad m k (m * ca)
  let b := if occ ∧ tb ≠ .hb4 then
      packedRng s bd (k * 256) 1 ++ (if bits bd 48 16 = 0 then [] else spadRng (spadMask (bits bd 0 23 + 64 * bits bd 48 16)) (ca * n) false)
    else if bit bd 23 then operandRng s bd n k (n * ca) else operandRng s bd k n (ca * n)
  let ma := match kindA with
    | 1 => spadRng (bits am 0 23) (4 * m * ca) false
    | 2 => spadRng (bits am 0 23) (4 * (bits am 32 23 + 1)) false
    | _ => []
  a ++ b ++ ma ++ (if occ then spadRng (bits bm 0 23) k false else [])

/-- The bytes a drain writes for `rows` × `cols` elements of a type (06 R164). -/
def drainBytes (t : Ty) (mx : Bool) (rows cols : Nat) : Nat :=
  if t = .hb4 then ceilDiv rows 64 * ceilDiv cols 64 * 2560
  else rows * (ceilDiv (ceilDiv (cols * t.width) 8) 64 * 64) + (if mx then rows * ceilDiv cols 32 else 0)

/-- The local ranges of an ME command under a configuration. -/
def meRangesWith (s : State) (cfg : Vector Word 18) (c : Cmd) : List Rng :=
  match c.instr with
  | .mma o => slotRng o.acc.val true ++ matrixRng s cfg 0 false false
  | .mmaAcca o => slotRng o.acc.val true ++ slotRng (bits o.fl.toNat 1 2) false ++ matrixRng s cfg 0 false true
  | .mspa o => slotRng o.acc.val true ++ matrixRng s cfg (bits o.fl.toNat 0 2) (bit o.fl.toNat 2) false
  | .mzero o => slotRng o.acc.val true
  | .mdrain o =>
    let off := bits (c.vals.getD 0 0).toNat 0 23
    let m := cfgNat cfg 0
    let n := cfgNat cfg 1
    let mx := bit (cfgNat cfg 12) 4
    let toff := cfgNat cfg 14
    slotRng o.acc.val (bit o.fl.toNat 2) ++ spadRng off (drainBytes (operandTy s off) mx m n) true
      ++ (if bit o.fl.toNat 0 then spadRng toff (drainBytes (operandTy s toff) mx n m) true else [])
  | .mdrainMerge o => slotRng o.acc.val false
  | _ => []

/-- The configuration after the `MCFG` commands of a queue. -/
def cfgAfter (cfg : Vector Word 18) (c : Cmd) : Vector Word 18 :=
  match c.instr with
  | .mcfg o => if h : o.fid.val < 18 then cfg.set o.fid.val (c.vals.getD 0 0) h else cfg
  | _ => cfg

/-- The ranges of queued ME commands, each under the configuration it will find. -/
def meQueueRanges (s : State) : Vector Word 18 → List Cmd → List (BitVec 24 × List Rng)
  | _, [] => []
  | cfg, c :: cs => (c.idx, meRangesWith s cfg c) :: meQueueRanges s (cfgAfter cfg c) cs

/-- The ranges of every ME command that is not complete. -/
def meRanges (s : State) : List (BitVec 24 × List Rng) :=
  (match s.me.run with
    | some r => [(r.cmd.idx, meRangesWith s s.me.active r.cmd)]
    | none => []) ++ meQueueRanges s s.me.shadow s.me.queue

/-! ## Copy commands (08 R234) -/

/-- The part of a window address range that lies in the own scratchpad. -/
def windowRng (s : State) (a : Word) (n : Nat) (wr : Bool) : List Rng :=
  match classify s.core.agent a with
  | .spad off => if n = 0 then [] else [⟨off, min (off + n) (2 ^ 23), wr⟩]
  | _ => []

/-- The local ranges of a copy-class command. -/
def cpRanges (s : State) (c : Cmd) : List Rng :=
  let v (i : Nat) : Word := c.vals.getD i 0
  let len := (v 2).toNat
  let chain (xf : BitVec 8) : List Rng :=
    if xf = 0 then
      windowRng s (v 0) (match classify s.core.agent (v 1) with | .spad _ => 8 * len | _ => len) true
        ++ windowRng s (v 1) len false
    else if xf = 6 ∨ xf = 7 then
      windowRng s (v 0) (if len = 0 then 0 else 2 ^ 23) true ++ windowRng s (v 1) (2 ^ 23) false
        ++ windowRng s (v 3) (2 ^ 23) false
    else windowRng s (v 0) (if len = 0 then 0 else 2 ^ 23) true ++ [⟨0, 2 ^ 23, false⟩]
  match c.instr with
  | .copy o | .cpb o | .cph o | .pull o => chain o.xf
  | .copyf _ => windowRng s (v 0) len true
  | .atom _ => windowRng s (v 0) 8 true
  | .atomf _ => windowRng s (v 0) 8 true ++ windowRng s (v 3) 8 true
  | .rrot _ => spadRng ((v 0).toNat) len true ++ spadRng ((v 1).toNat) len false
  | _ => []

/-! ## Conflicts -/

/-- A transfer that is pending reads its row segment. -/
def landingRanges (s : State) : List (BitVec 24 × List Rng) :=
  s.ve.landing.toList.filterMap fun x =>
    x.bind fun l => if l.data.isNone then some (l.idx, veRanges s false ⟨.accrd l.cmd, [], l.idx, 0, .rne⟩) else none

/-- The ranges of every VE command that is not complete. -/
def veAllRanges (s : State) : List (BitVec 24 × List Rng) :=
  (veWaiting s).map (fun c => (c.idx, veRanges s false c)) ++ landingRanges s

/-- A command that a copy engine holds has bytes still to write. -/
def CopyRun.writing (c : CopyRun) : Bool :=
  match c.phase with
  | .run | .sent | .lateRun | .stalled _ => true
  | .deliver _ | .lateDeliver _ => false

/-- The ranges of the copies handed over whose bytes are not all written. -/
def cpRunRanges (s : State) : List (BitVec 24 × List Rng) :=
  (s.cp.copies.filter CopyRun.writing).map fun x => (x.cmd.idx, cpRanges s x.cmd)

/-- The ranges of every copy command that is not complete. -/
def cpAllRanges (s : State) : List (BitVec 24 × List Rng) := (s.cp.queue.map fun c => (c.idx, cpRanges s c)) ++ cpRunRanges s

/-- An earlier command of another engine still has work on some of a command's bytes (07 R178). -/
def conflicts (idx : BitVec 24) (mine : List Rng) (others : List (BitVec 24 × List Rng)) : Bool :=
  others.any fun x => idxBefore x.1 idx && x.2.any fun r => mine.any r.meets

/-- A VE command at the head must wait for the ME or a copy. -/
def veBlocked (s : State) (c : Cmd) : Bool :=
  let mine := veRanges s true c
  !mine.isEmpty && conflicts c.idx mine (meRanges s ++ cpAllRanges s)

/-- An ME command at the head must wait for the VE or a copy. -/
def meBlocked (s : State) (c : Cmd) : Bool :=
  let mine := meRangesWith s s.me.shadow c
  !mine.isEmpty && conflicts c.idx mine (veAllRanges s ++ cpAllRanges s)

/-- A copy command at the head of its port must wait for the VE or the ME, or for a copy handed over before it. -/
def cpBlocked (s : State) (c : Cmd) : Bool :=
  let mine := cpRanges s c
  !mine.isEmpty && conflicts c.idx mine (veAllRanges s ++ meRanges s ++ cpRunRanges s)

end Sys2Proof.Machine
end

