-- ==== Sys2Proof/Machine/VecExec.lean ====
section
/-! DEFINITION. The VE as an engine: what it does with each command, dispatch (02 R38-R40, 05 R133), its queue, `VLOOP`
(05 R133, R134, 09 R263, R264), and the meaning of every VEC instruction. -/

namespace Sys2Proof.Machine

/-! ## Gates (02 R50) -/

/-- HB4 is named by a type field. -/
def usesHb4 : Instr → Bool
  | .vcvt o | .vquant o | .vdeq o => o.ty == .hb4 || o.dty == .hb4
  | .vpack o | .vunpk o | .vrot o | .vbcast o | .vins o => o.ty == .hb4
  | _ => false

/-- Stochastic rounding is named by rm3. -/
def usesSr : Instr → Bool
  | .vfma o | .vfms o | .vcvt o | .vquant o | .vdeq o | .accrd o | .accwr o => o.rm == .sr
  | .vrand _ | .vseed _ => true
  | _ => false

/-- The first feature bit that a form needs and the die has not accepted. -/
def missingFeature (i : Instr) (s : State) : Bool :=
  (usesHb4 i && !s.hasFeature 1) || (usesSr i && !s.hasFeature 4)
    || (match i with
        | .vtopk _ | .vdraw _ => !s.hasFeature 3
        | _ => false)

/-- An ACCRD or ACCWR names a slot that the object declares (06 R138). -/
def slotsDeclared (i : Instr) (s : State) : Bool :=
  match i with
  | .accrd o | .accwr o => s.declares (accSlot o)
  | _ => true

/-- A command with the values captured at dispatch (02 R39). -/
def mkCmd (i : Instr) (vals : List Word) (s : State) : Cmd :=
  ⟨i, vals, s.scc.idx, s.cp.cseq, Rm.resolve s.fp.fpctl .dyn⟩

/-! ## What the VE does with a command -/

/-- One VE command performed. -/
def veRun (c : Cmd) (s : State) : EngRes :=
  let v (i : Nat) : Word := c.vals.getD i 0
  match c.instr with
  | .setb o => .done (s.modVe fun r => { r with b := r.b.set o.idx (v 0) })
  | .vadd o => veRes s (veAdd o s)
  | .vsub o => veRes s (veSub o s)
  | .vmul o => veRes s (veMul o s)
  | .vmin o => veRes s (veMin o s)
  | .vmax o => veRes s (veMax o s)
  | .vabs o => veRes s (veAbs o s)
  | .vneg o => veRes s (veNeg o s)
  | .vmov o => veRes s (veMov o s)
  | .vfma o => veRes s (veFma o s)
  | .vfms o => veRes s (veFms o s)
  | .vcmp o => veRes s (veCmp o s)
  | .vsel o => veRes s (veSel o s)
  | .vexp2 o => veRes s (veExp2 o s)
  | .vlog2 o => veRes s (veLog2 o s)
  | .vrcp o => veRes s (veRcp o s)
  | .vrsq o => veRes s (veRsq o s)
  | .vsqrt o => veRes s (veSqrt o s)
  | .vand o => veRes s (veAnd o s)
  | .vor o => veRes s (veOr o s)
  | .vxor o => veRes s (veXor o s)
  | .vshl o => veRes s (veShl o s)
  | .vshr o => veRes s (veShr o s)
  | .vsar o => veRes s (veSar o s)
  | .vpopc o => veRes s (vePopc o s)
  | .vimad o => veRes s (veImad o s)
  | .vcvt o => veRes s (veCvt o s)
  | .vquant o => veRes s (veQuant o s)
  | .vdeq o => veRes s (veDeq o s)
  | .vamax o => veRes s (veAmax o s)
  | .vpack o => veRes s (vePack o s)
  | .vunpk o => veRes s (veUnpk o s)
  | .vshuf o => veRes s (veShuf o s)
  | .vrot o => veRes s (veRot o s)
  | .vbcast o => veRes s (veBcast o s)
  | .vins o => veRes s (veIns o s)
  | .vredAdd o => veRes s (veRedAdd o s)
  | .vredMin o => veRes s (veRedMin o s)
  | .vredMax o => veRes s (veRedMax o s)
  | .vredAmax o => veRes s (veRedAmax o s)
  | .vredAnd o => veRes s (veRedAnd o s)
  | .vredOr o => veRes s (veRedOr o s)
  | .vredXor o => veRes s (veRedXor o s)
  | .accwr o => veRes s (veAccwr o s)
  | .gcfg o => veRes s (veGcfg o s)
  | .pset o => veRes s (vePset o s)
  | .pand o => veRes s (vePand o s)
  | .por o => veRes s (vePor o s)
  | .pxor o => veRes s (vePxor o s)
  | .pnot o => veRes s (vePnot o s)
  | .pandn o => veRes s (vePandn o s)
  | .pcnt o => veRes s (vePcnt o s)
  | .vrand o => veRes s (veRand o s)
  | .vseed o => veRes s (veSeed o s)
  | .accrd o => veRes s (veAccrd o c (!veBlocked s c) s)
  | .vld o => veRes s (veLd o (v 0) s)
  | .vst o => veRes s (veSt o (v 0) s)
  | .vgath o => veRes s (veGath o (v 0) s)
  | .vscat o => veRes s (veScat o (v 0) s)
  | .vldg o => veLdg o (v 0) s
  | .vstg o => veStg o (v 0) s
  | .commit o => veCommit o s
  | .vtopk o => veRes s (veTopk o (v 0) (v 1) s)
  | .vdraw o => veRes s (veDraw o (v 0) s)
  | _ => .done s

/-- An ACCRD is not held: the VE goes on while its data waits (06 R166). -/
def isAccrd : Instr → Bool
  | .accrd _ => true
  | _ => false

/-- A command at the head, performed if the range checker lets it. -/
def veTry (c : Cmd) (s : State) : EngRes :=
  if !isAccrd c.instr && veBlocked s c then .wait s else veRun c s

/-- A cause of the VE with the command that it stops (12 R334). -/
def veCause (c : Cmd) (f : Fail) (mpc : Word) : Raised := ⟨f.cause, .ve, false, true, c.idx, mpc, f.status, f.address⟩

/-- The VE stops with a pending cause. -/
def veStop (s : State) (r : Raised) : State := s.modRegs fun x => { x with pend := { x.pend with ve := some r } }

/-! ## Loops (05 R133, R134, 09 R263, R264) -/

/-- MPC of a command of a body (05 R111). -/
def loopMpc (l : LoopRun) : Word := BitVec.ofNat 64 (2 ^ 63 + l.at_ % 64 * 2 ^ 48 + l.k % 2 ^ 48)

/-- The state with the loop replaced. -/
def State.setLoop (s : State) (l : Option LoopRun) : State := s.modVe fun r => { r with loop := l }

/-- Rotating predicates at the start of a loop: all zero but logical p8. -/
def startPreds (p : Vector Word 16) : Vector Word 16 :=
  ((List.finRange 8).foldl (fun (q : Vector Word 16) i => q.set (8 + i.val) 0) p).set 8 (BitVec.allOnes 64)

/-- A loop starts: its count is that of its bound register, or what a save left (09 R264); with none it is skipped. -/
def loopStart (l : LoopRun) (s : State) : State :=
  let k : Nat := match l.head.instr with
    | .vloop o => o.k.val
    | _ => 0
  let t := if l.left = 0 then (s.ve.b.toList.getD k 0).toNat else l.left
  if t = 0 then s.setLoop none
  else
    let c0 := (s.core.task.map (·.cur)).getD 0
    s.modVe fun r =>
      { r with
        vrb := 0
        prb := 0
        p := startPreds r.p
        loop := some { l with t := t, left := 0, c0 := c0, k := 0, at_ := 0 } }

/-- The end of a kernel iteration: rotation, and p8 of the next one; after the last the loop ends, or waits for what a
save left. -/
def loopEnd (l : LoopRun) (s : State) : State :=
  let s1 := s.modVe fun r => { r with vrb := r.vrb - 1, prb := r.prb - 1 }
  let s2 := s1.setP 8 (if l.k + 1 < l.t then BitVec.allOnes 64 else 0)
  if l.k + 1 < l.t + l.stages - 1 then s2.setLoop (some { l with k := l.k + 1, at_ := 0 })
  else if l.left = 0 then s2.setLoop none
  else s2.setLoop (some { l with t := 0, k := 0, at_ := 0 })

/-- A LIVE loop moves the cursor as a source iteration starts (09 R263). -/
def loopClaim (l : LoopRun) (s : State) : State :=
  if l.live ∧ l.at_ = 0 ∧ l.k < l.t then s.modTask fun t => { t with cur := l.c0 + l.k + 1 } else s

/-- One step of a running loop: it starts, runs one command of its body, or ends an iteration. -/
def loopStep (l : LoopRun) (s : State) : State :=
  if l.t = 0 then loopStart l s
  else
    let s1 := loopClaim l s
    match l.body[l.at_]? with
    | none => loopEnd l s1
    | some c =>
      match veTry c s1 with
      | .done t => t.setLoop (some { l with at_ := l.at_ + 1 })
      | .wait t => t
      | .stop t f _ => veStop t (veCause c f (loopMpc l))

/-! ## The queue -/

/-- The loop that stands between the commands of the queue, by its command index. -/
def loopIdx (s : State) : Option (BitVec 24) :=
  match s.ve.loop, s.ve.recording with
  | some l, _ => some l.head.idx
  | none, some l => some l.head.idx
  | none, none => none

/-- The head of the queue comes before any loop. -/
def headFirst (s : State) (c : Cmd) : Bool :=
  match loopIdx s with
  | some i => idxBefore c.idx i
  | none => true

/-- A command taken from the head of the queue, which the state no longer holds. -/
def vePerform (c : Cmd) (s : State) : State :=
  match veTry c s with
  | .done t => t
  | .wait t => t.modVe fun r => { r with queue := c :: r.queue }
  | .stop t f mpc => veStop (t.modVe fun r => { r with queue := c :: r.queue }) (veCause c f mpc)

/-- One step of the VE: the head of the queue, or its loop; nothing while a cause stops it. -/
def veStep (s : State) : State :=
  if s.core.regs.pend.ve.isSome then s
  else
    match s.ve.queue with
    | c :: cs =>
      if headFirst s c then vePerform c (s.modVe fun r => { r with queue := cs })
      else
        match s.ve.loop with
        | some l => loopStep l s
        | none => s
    | [] =>
      match s.ve.loop with
      | some l => loopStep l s
      | none => s

/-! ## Dispatch -/

/-- The VE takes a command at once: nothing waits before it (log 5). -/
def veIdle (s : State) : Bool :=
  s.core.inOrder && s.ve.queue.isEmpty && s.ve.loop.isNone && s.ve.recording.isNone && s.core.regs.pend.ve.isNone

/-- A command joins the VE's queue, or is performed at once; a full queue holds the SCC (02 R38). -/
def queueVe (c : Cmd) (s : State) : State :=
  if 32 ≤ s.ve.queue.length then holds s
  else if veIdle s then vePerform c (retire s)
  else (retire s).modVe fun r => { r with queue := r.queue ++ [c] }

/-- A VEC instruction is dispatched with the values of some registers. -/
def dispatchVe (i : Instr) (regs : List SReg) (s : State) : Out :=
  .next (
    if missingFeature i s then trap s (plainFail .illfeature)
    else if !slotsDeclared i s then illegal s
    else if !ready s regs then holds s
    else
      let c := mkCmd i (regs.map s.sreg) s
      match s.ve.recording with
      | some l =>
        if l.body.length < 64 then (retire s).modVe fun r => { r with recording := some { l with body := l.body ++ [c] } }
        else illegal s
      | none => queueVe c s)

/-- The scalar register a 6-bit field names. -/
def sregOf (c : VCode) : SReg := Fin.ofNat 32 c.val

/-- VADD (05 R112). -/
def execVadd (o : Va) (s : State) : Out := dispatchVe (.vadd o) [] s
/-- VSUB (05 R112). -/
def execVsub (o : Va) (s : State) : Out := dispatchVe (.vsub o) [] s
/-- VMUL (05 R112). -/
def execVmul (o : Va) (s : State) : Out := dispatchVe (.vmul o) [] s
/-- VMIN (05 R112). -/
def execVmin (o : Va) (s : State) : Out := dispatchVe (.vmin o) [] s
/-- VMAX (05 R112). -/
def execVmax (o : Va) (s : State) : Out := dispatchVe (.vmax o) [] s
/-- VABS (05 R112). -/
def execVabs (o : Va) (s : State) : Out := dispatchVe (.vabs o) [] s
/-- VNEG (05 R112). -/
def execVneg (o : Va) (s : State) : Out := dispatchVe (.vneg o) [] s
/-- VMOV (05 R112). -/
def execVmov (o : Va) (s : State) : Out := dispatchVe (.vmov o) [] s
/-- VFMA (05 R113). -/
def execVfma (o : Vx) (s : State) : Out := dispatchVe (.vfma o) [] s
/-- VFMS (05 R113). -/
def execVfms (o : Vx) (s : State) : Out := dispatchVe (.vfms o) [] s
/-- VCMP (05 R114). -/
def execVcmp (o : Vx) (s : State) : Out := dispatchVe (.vcmp o) [] s
/-- VSEL (05 R115). -/
def execVsel (o : Va) (s : State) : Out := dispatchVe (.vsel o) [] s
/-- VEXP2 (05 R119). -/
def execVexp2 (o : Va) (s : State) : Out := dispatchVe (.vexp2 o) [] s
/-- VLOG2 (05 R122). -/
def execVlog2 (o : Va) (s : State) : Out := dispatchVe (.vlog2 o) [] s
/-- VRCP (05 R120). -/
def execVrcp (o : Va) (s : State) : Out := dispatchVe (.vrcp o) [] s
/-- VRSQ (05 R121). -/
def execVrsq (o : Va) (s : State) : Out := dispatchVe (.vrsq o) [] s
/-- VSQRT (05 R123). -/
def execVsqrt (o : Va) (s : State) : Out := dispatchVe (.vsqrt o) [] s
/-- VAND (05 R116). -/
def execVand (o : Va) (s : State) : Out := dispatchVe (.vand o) [] s
/-- VOR (05 R116). -/
def execVor (o : Va) (s : State) : Out := dispatchVe (.vor o) [] s
/-- VXOR (05 R116). -/
def execVxor (o : Va) (s : State) : Out := dispatchVe (.vxor o) [] s
/-- VSHL (05 R116). -/
def execVshl (o : Va) (s : State) : Out := dispatchVe (.vshl o) [] s
/-- VSHR (05 R116). -/
def execVshr (o : Va) (s : State) : Out := dispatchVe (.vshr o) [] s
/-- VSAR (05 R116). -/
def execVsar (o : Va) (s : State) : Out := dispatchVe (.vsar o) [] s
/-- VPOPC (05 R116). -/
def execVpopc (o : Va) (s : State) : Out := dispatchVe (.vpopc o) [] s
/-- VIMAD (05 R117). -/
def execVimad (o : Vx) (s : State) : Out := dispatchVe (.vimad o) [] s
/-- VCVT (05 R124). -/
def execVcvt (o : Vx) (s : State) : Out := dispatchVe (.vcvt o) [] s
/-- VQUANT (05 R125, R126). -/
def execVquant (o : Vx) (s : State) : Out := dispatchVe (.vquant o) [] s
/-- VDEQ (05 R127). -/
def execVdeq (o : Vx) (s : State) : Out := dispatchVe (.vdeq o) [] s
/-- VAMAX (05 R128). -/
def execVamax (o : Va) (s : State) : Out := dispatchVe (.vamax o) [] s
/-- VPACK (05 R129). -/
def execVpack (o : Va) (s : State) : Out := dispatchVe (.vpack o) [] s
/-- VUNPK (05 R129). -/
def execVunpk (o : Va) (s : State) : Out := dispatchVe (.vunpk o) [] s
/-- VSHUF (05 R129). -/
def execVshuf (o : Va) (s : State) : Out := dispatchVe (.vshuf o) [] s
/-- VROT (05 R129). -/
def execVrot (o : Va) (s : State) : Out := dispatchVe (.vrot o) [] s
/-- VBCAST (05 R129). -/
def execVbcast (o : Va) (s : State) : Out := dispatchVe (.vbcast o) [] s
/-- VINS (05 R129). -/
def execVins (o : Va) (s : State) : Out := dispatchVe (.vins o) [] s
/-- VREDADD (05 R130). -/
def execVredAdd (o : Va) (s : State) : Out := dispatchVe (.vredAdd o) [] s
/-- VREDMIN (05 R130). -/
def execVredMin (o : Va) (s : State) : Out := dispatchVe (.vredMin o) [] s
/-- VREDMAX (05 R130). -/
def execVredMax (o : Va) (s : State) : Out := dispatchVe (.vredMax o) [] s
/-- VREDAMAX (05 R130). -/
def execVredAmax (o : Va) (s : State) : Out := dispatchVe (.vredAmax o) [] s
/-- VREDAND (05 R130). -/
def execVredAnd (o : Va) (s : State) : Out := dispatchVe (.vredAnd o) [] s
/-- VREDOR (05 R130). -/
def execVredOr (o : Va) (s : State) : Out := dispatchVe (.vredOr o) [] s
/-- VREDXOR (05 R130). -/
def execVredXor (o : Va) (s : State) : Out := dispatchVe (.vredXor o) [] s
/-- ACCWR (06 R169). -/
def execAccwr (o : Vx) (s : State) : Out := dispatchVe (.accwr o) [] s
/-- GCFG (05 R132). -/
def execGcfg (o : Vx) (s : State) : Out := dispatchVe (.gcfg o) [] s
/-- PSET (05 R131). -/
def execPset (o : Pr) (s : State) : Out := dispatchVe (.pset o) [] s
/-- PAND (05 R131). -/
def execPand (o : Pr) (s : State) : Out := dispatchVe (.pand o) [] s
/-- POR (05 R131). -/
def execPor (o : Pr) (s : State) : Out := dispatchVe (.por o) [] s
/-- PXOR (05 R131). -/
def execPxor (o : Pr) (s : State) : Out := dispatchVe (.pxor o) [] s
/-- PNOT (05 R131). -/
def execPnot (o : Pr) (s : State) : Out := dispatchVe (.pnot o) [] s
/-- PANDN (05 R131). -/
def execPandn (o : Pr) (s : State) : Out := dispatchVe (.pandn o) [] s
/-- PCNT (05 R131). -/
def execPcnt (o : Va) (s : State) : Out := dispatchVe (.pcnt o) [] s
/-- VRAND (05 R135). -/
def execVrand (o : Va) (s : State) : Out := dispatchVe (.vrand o) [] s
/-- VSEED (05 R136). -/
def execVseed (o : Va) (s : State) : Out := dispatchVe (.vseed o) [] s
/-- VLD (08 R224). -/
def execVld (o : Va) (s : State) : Out := dispatchVe (.vld o) [sregOf o.a] s
/-- VST (08 R224). -/
def execVst (o : Va) (s : State) : Out := dispatchVe (.vst o) [sregOf o.a] s
/-- VGATH (08 R224). -/
def execVgath (o : Va) (s : State) : Out := dispatchVe (.vgath o) [sregOf o.a] s
/-- VSCAT (08 R224). -/
def execVscat (o : Va) (s : State) : Out := dispatchVe (.vscat o) [sregOf o.a] s
/-- VLDG (08 R224). -/
def execVldg (o : Vg) (s : State) : Out := dispatchVe (.vldg o) [sregOf o.a] s
/-- VSTG (08 R224). -/
def execVstg (o : Vg) (s : State) : Out := dispatchVe (.vstg o) [sregOf o.a] s
/-- ACCRD (06 R167). -/
def execAccrd (o : Vx) (s : State) : Out := dispatchVe (.accrd o) [] s
/-- COMMIT (06 R168). -/
def execCommit (o : Va) (s : State) : Out := dispatchVe (.commit o) [] s
/-- VTOPK (10 R307). -/
def execVtopk (o : Vx) (s : State) : Out := dispatchVe (.vtopk o) [sregOf o.d, sregOf o.b] s
/-- VDRAW (10 R308). -/
def execVdraw (o : Vx) (s : State) : Out := dispatchVe (.vdraw o) [sregOf o.d] s

/-- VLOOP: the commands that follow are recorded (05 R133); ILLEGAL inside a body, and in an object whose header
declares no rotation (03 R62). -/
def execVloop (o : Vl) (s : State) : Out :=
  .next (
    let rotates := (s.core.task.map (·.obj.rotates)).getD false
    if !rotates || s.ve.recording.isSome then illegal s
    else if 32 ≤ s.ve.queue.length then holds s
    else
      (retire s).modVe fun r =>
        { r with recording := some ⟨o.live, o.s.val, [], mkCmd (.vloop o) [] s, 0, 0, 0, 0, 0⟩ })

/-- VLEND: the recorded loop stands in the queue (05 R133); it waits while an earlier loop is not complete. -/
def execVlend (_ : Va) (s : State) : Out :=
  .next (
    match s.ve.recording with
    | none => illegal s
    | some l => if s.ve.loop.isSome then holds s else (retire s).modVe fun r => { r with recording := none, loop := some l })

/-! ## Transfers that land (06 R166, R167) -/

/-- A pending transfer whose row no earlier command covers lands; a first NaN stops the VE at its ACCRD, which stands at
the head of the queue again. -/
def landStep (n : Fin 16) (s : State) : State :=
  match s.ve.landing[n] with
  | none => s
  | some l =>
    let c : Cmd := ⟨.accrd l.cmd, [], l.idx, 0, .rne⟩
    if l.data.isSome || veBlocked s c then s
    else
      match landNow s n l with
      | .ok t => t
      | .error f =>
        if s.core.regs.pend.ve.isSome then s
        else
          veStop (((s.setLanding n none).modFp fun r =>
              { r with rngcnt := if Rm.resolve s.fp.fpctl l.cmd.rm = .sr then r.rngcnt - 1 else r.rngcnt }).modVe fun r =>
            { r with queue := c :: r.queue }) (veCause c f 0)

/-- Every pending transfer that can land does. -/
def landAll (s : State) : State := (List.finRange 16).foldl (fun s n => landStep n s) s

/-- ACCRD_LAND (06 R167). -/
def execAccrdLand (core : Fin 512) (n : Fin 16) (s : State) : Out := .next (atCore core (landStep n) s)

end Sys2Proof.Machine
end

