-- ==== Sys2Proof/Machine/Array.lean ====
section
/-! DEFINITION. The elastic array: configuration (06 R144, R145), operands (06 R141-R143), terms and accumulation
(06 R146-R149), the intersector's walk and its metadata faults (06 R150, R154). -/

namespace Sys2Proof.Machine

/-! ## Configuration -/

/-- An ME command as the array runs it: its configuration and the forms of its operands. -/
structure MeCtx where
  acc : Nat
  m : Nat
  n : Nat
  k : Nat
  /-- A comes from a slot (06 R161) -/
  acca : Option Nat
  kindA : Nat
  occ : Bool
  ad : Nat
  bd : Nat
  am : Nat
  bm : Nat
  ta : Ty
  tb : Ty
  fzi : Bool
  fzo : Bool
  adc : Nat
  adcRm : Rm
  drainq : Nat
  seed : Word
  deriving DecidableEq, Repr

/-- Rounding mode of a 3-bit field, DYN resolved by the mode at dispatch (06 R145). -/
def rmField (c : Cmd) (n : Nat) : Rm :=
  match Rm.ofCode n with
  | some .dyn => c.drm
  | some m => m
  | none => .rne

/-- The context of a command under the active configuration. -/
def meCtx (s : State) (c : Cmd) : MeCtx :=
  let g (i : Fin 18) : Nat := cfgNat s.me.active i
  let form : Nat × Option Nat × Nat × Bool := match c.instr with
    | .mma o => (o.acc.val, none, 0, false)
    | .mmaAcca o => (o.acc.val, some (bits o.fl.toNat 1 2), 0, false)
    | .mspa o => (o.acc.val, none, bits o.fl.toNat 0 2, bit o.fl.toNat 2)
    | _ => (0, none, 0, false)
  { acc := form.1, m := g 0, n := g 1, k := g 2, acca := form.2.1, kindA := form.2.2.1, occ := form.2.2.2, ad := g 3,
    bd := g 4, am := g 5, bm := g 6,
    ta := if form.2.1.isSome then tyOfCode (bits (g 15) 0 4) else operandTy s (bits (g 3) 0 23),
    tb := operandTy s (bits (g 4) 0 23), fzi := bit (g 10) 2, fzo := bit (g 10) 3, adc := g 15,
    adcRm := rmField c (bits (g 15) 4 3), drainq := g 13, seed := s.me.active[16] }

/-- Types that the array accepts (06 R142). -/
def arrayTy : Ty → Bool
  | .e5m2 | .e4m3 | .e3m2 | .e2m3 | .e2m1 | .bf16 | .f16 | .hb4 | .i8 | .i4 => true
  | _ => false

/-- The integer class. -/
def intClass (t : Ty) : Bool := t == .i8 || t == .i4

/-- Pair mode (06 R142). -/
def MeCtx.pair (x : MeCtx) : Bool := x.ta.width == 4 && x.tb.width == 4

/-- Walk positions: K, or K/2 in pair mode. -/
def MeCtx.kp (x : MeCtx) : Nat := if x.pair then x.k / 2 else x.k

/-- Segments of a row. -/
def MeCtx.segs (x : MeCtx) : Nat := ceilDiv x.n 32

/-- Positions in a chunk of 32 elements. -/
def MeCtx.chunk (x : MeCtx) : Nat := if x.pair then 16 else 32

/-- A command that raises ILLEGAL before its first step (06 R142, R154, R158, R161). -/
def meIllegal (s : State) (x : MeCtx) : Bool :=
  let sca := if x.acca.isSome then 0 else bits x.ad 48 16
  let scb := bits x.bd 48 16
  let src := cfgNat s.me.active 17
  let slotInt := s.me.intSlot.toList.getD x.acc false
  !arrayTy x.ta || !arrayTy x.tb || intClass x.ta != intClass x.tb || intClass x.ta != slotInt
    || (x.pair && x.k % 2 == 1)
    || (sca != 0 && !x.ta.isMx) || (scb != 0 && !x.tb.isMx)
    || (x.tb == .hb4 && !bit x.bd 23)
    || (x.occ && bit x.bd 23 && x.tb != .hb4)
    || (x.kindA != 0 && x.am == 0) || (x.occ && x.bm == 0)
    || (x.acca.isSome && decide (256 < x.k))
    || (src != 0 && bits (cfgNat s.me.active 10) 0 2 == 0)
    || bit src (memberOf s.core.agent)

/-! ## Elements of the scratchpad -/

/-- A byte of the own scratchpad. -/
def spadByte (s : State) (off : Nat) : Nat := (memGet s.mem (spadAt s.core (spadMask off))).toNat

/-- `n` bytes of the own scratchpad as a number; offsets wrap. -/
def spadNum (s : State) (off : Nat) : Nat → Nat
  | 0 => 0
  | n + 1 => spadByte s off + 256 * spadNum s (off + 1) n

/-- Element `i` of width `w` of a row of packed elements (04 R68). -/
def spadElem (s : State) (row w i : Nat) : Nat := bits (spadNum s (row + w * i / 8) 5) (w * i % 8) w

/-- The tile that holds element (r, c) of an HB4 operand. -/
def tileBase (desc r c : Nat) : Nat := bits desc 0 23 + r / 64 * bits desc 24 24 + c / 64 * 2560

/-- The bytes of a tile. -/
def tileByte (s : State) (base i : Nat) : Nat := spadByte s (base + i)

/-- An operand element: its value, and what HB4 adds: an escape code, and a block with the NaN scale. -/
structure OpElem where
  /-- the value that its entry's term uses (06 R149) -/
  term : Val
  /-- the value that its burl term uses -/
  full : Val
  escape : Bool
  nanBlock : Bool
  deriving DecidableEq, Repr

/-- An element that is no HB4 code. -/
def plainElem (v : Val) : OpElem := ⟨v, v, false, false⟩

/-- Element (r, c) of an HB4 operand. -/
def hb4Elem (s : State) (fzi : Bool) (desc r c : Nat) : OpElem :=
  let b := tileByte s (tileBase desc r c)
  let code := bits (b (32 * (r % 64) + c % 64 / 2)) (4 * (c % 2)) 4
  let sc := b (hb4ScaleAt (r % 64) (c % 64))
  let nan := bits sc 0 6 == 63
  if code = 8 then
    let k := escapesBefore b (64 * (r % 64) + c % 64)
    let w := b (hb4SlotAt k) + 256 * b (hb4SlotAt k + 1)
    if nan then ⟨.nan, .nan, true, true⟩ else ⟨.fin false 0 0, decodeTy .bf16 (flushIn .bf16 fzi w), true, false⟩
  else if nan then ⟨.nan, .nan, false, true⟩
  else plainElem (decodeHb4 sc code)

/-- A plain or MX element from its bits and its scale byte. -/
def scaledElem (x : MeCtx) (t : Ty) (mx : Bool) (scale raw : Nat) : OpElem :=
  let r := flushIn t x.fzi raw
  plainElem (if mx then decodeMx t scale r else decodeTy t r)

/-- The array of MX scales of an operand. -/
def scaleBase (desc : Nat) : Nat := bits desc 0 23 + 64 * bits desc 48 16

/-- The draw of element (i, k) of a down-converted A (06 R161). -/
def adcDraw (x : MeCtx) (i k : Nat) : Nat := drawXfer x.seed (i * x.k + k)

/-- A down-converted element that is no HB4 code, with its flags (06 R161). -/
def adcPlain (s : State) (x : MeCtx) (slot i k : Nat) : Conv :=
  convertBits (slotTy s slot) x.ta x.adcRm false (bit x.adc 8) (bit x.adc 7) (adcDraw x i k) (accGet s slot i k)

/-- The HB4 block that holds position k of a row of a slot, election disabled (06 R161). -/
def adcBlock (s : State) (x : MeCtx) (slot i k : Nat) : Hb4Block :=
  quantHb4 (bits x.drainq 0 3) .nan x.adcRm 0 ((List.range 32).map fun j =>
    let q := k / 32 * 32 + j
    ⟨decodeTy (slotTy s slot) (accGet s slot i q), decide (x.k ≤ q), adcDraw x i q⟩)

/-- Element k of row i of A; `idx` is its place among packed values. -/
def aElem (s : State) (x : MeCtx) (i k idx : Nat) : OpElem × Flags :=
  match x.acca with
  | some slot =>
    if x.ta = .hb4 then
      let b := adcBlock s x slot i k
      (plainElem (decodeHb4 b.scale (b.codes.getD (k % 32) 0)), if k % 32 = 0 then b.flags else 0)
    else
      let c := adcPlain s x slot i k
      (plainElem (decodeTy x.ta (flushIn x.ta x.fzi c.1)), c.2)
  | none =>
    let base := bits x.ad 0 23
    if x.ta = .hb4 then (hb4Elem s x.fzi x.ad i k, 0)
    else
      let raw := if x.kindA = 0 then spadElem s (base + i * bits x.ad 24 24) x.ta.width k else spadElem s base x.ta.width idx
      let mx := bits x.ad 48 16 != 0
      (scaledElem x x.ta mx (if mx then spadByte s (scaleBase x.ad + i * ceilDiv x.k 32 + k / 32) else 0) raw, 0)

/-- The occupied segments below a segment. -/
def occRank (occ seg : Nat) : Nat := popc seg (occ % 2 ^ seg)

/-- Element (k, j) of B; `sub` is 0, or the second row of a pair, and `bOff` the first element of a packed group. -/
def bElem (s : State) (x : MeCtx) (k j sub occ bOff : Nat) : OpElem :=
  let base := bits x.bd 0 23
  let w := x.tb.width
  if x.tb = .hb4 then hb4Elem s x.fzi x.bd j k
  else
    let raw :=
      if x.occ then
        let per := if x.pair then 64 else 32
        spadElem s base w (bOff + occRank occ (j / 32) * per + 32 * sub + j % 32)
      else if bit x.bd 23 then spadElem s (base + j * bits x.bd 24 24) w k
      else spadElem s (base + k * bits x.bd 24 24) w j
    let mx := bits x.bd 48 16 != 0
    let at_ := if bit x.bd 23 then scaleBase x.bd + j * ceilDiv x.k 32 + k / 32 else scaleBase x.bd + k / 32 * x.n + j
    scaledElem x x.tb mx (if mx then spadByte s at_ else 0) raw

/-! ## Accumulation (06 R146, R147) -/

/-- The product of two values; true says that a NaN was created. -/
def productOf (a b : Val) : Val × Bool := a.mul b

/-- ACCADD: the accumulator's bits after one addition, and its flags. -/
def accAdd (fzo : Bool) (acc : Nat) (p : Val × Bool) : Conv :=
  if p.1.isNan then (nan32, Flags.whenSet p.2 Flags.nv)
  else roundResult .f32 .rne fzo false 0 ((decodeTy .f32 acc).add .rne p.1)

/-- The integer of a finite value. -/
def valInt : Val → Int
  | .fin neg m e => toUnits neg m e 0
  | _ => 0

/-- Addition of a term in the class of a slot. -/
def addTerm (isInt fzo : Bool) (acc : Nat) (p : Val × Bool) : Conv :=
  if isInt then (intBits .i32 (intOf .i32 acc + valInt p.1), 0) else accAdd fzo acc p

/-- The term of a match in column j (06 R146, R149), with the flags of A's conversion. -/
def termOf (s : State) (x : MeCtx) (e : Match) (j : Nat) : Val × Bool :=
  if x.pair then
    let t (q : Nat) : Val × Bool :=
      productOf (aElem s x e.row (2 * e.k + q) (2 * e.aIdx + q)).1.term (bElem s x (2 * e.k + q) j q e.occ e.bOff).term
    let u := t 0
    let v := t 1
    let w := u.1.add .rne v.1
    (w.1, u.2 || v.2 || w.2)
  else productOf (aElem s x e.row e.k e.aIdx).1.term (bElem s x e.k j 0 e.occ e.bOff).term

/-- A cell of column j is enabled. -/
def enabledCol (occ j : Nat) : Bool := bit occ (j / 32)

/-- The least of two places of a NaN. -/
def leastNan (a : Option (Nat × Nat × Nat)) (b : Nat × Nat × Nat) : Option (Nat × Nat × Nat) :=
  match a with
  | none => some b
  | some x =>
    if x.1 < b.1 ∨ (x.1 = b.1 ∧ (x.2.1 < b.2.1 ∨ (x.2.1 = b.2.1 ∧ x.2.2 ≤ b.2.2))) then some x else some b

/-- One cell accumulates one term. -/
def accCell (s : State) (r : MeRun) (x : MeCtx) (i j k : Nat) (p : Val × Bool) : State × MeRun :=
  let c := addTerm (s.me.intSlot.toList.getD x.acc false) x.fzo (accGet s x.acc i j) p
  (accPut s x.acc i j c.1,
    { r with flags := r.flags ||| c.2, nan := if c.2.hasNv then leastNan r.nan (i, j, k) else r.nan })

/-- The elements k of a position. -/
def posElems (x : MeCtx) (k : Nat) : List (Nat × Nat) := if x.pair then [(2 * k, 0), (2 * k + 1, 1)] else [(k, 0)]

/-- The place of an A value of a match among packed values (06 R143). -/
def packedAt (x : MeCtx) (e : Match) (sub : Nat) : Nat := if x.pair then 2 * e.aIdx + sub else e.aIdx

/-- The flags of the conversion of a match's A values, and a NaN that it created. -/
def convFlags (s : State) (x : MeCtx) (e : Match) : Flags :=
  allFlags ((posElems x e.k).map fun q => (aElem s x e.row q.1 0).2)

/-- The columns of the operation. -/
def cols (x : MeCtx) (occ : Nat) : List Nat := (List.range x.n).filter (enabledCol occ)

/-- The escapes that a retired entry consumes (06 R152). -/
def burlsOf (s : State) (x : MeCtx) (e : Match) : Nat :=
  let a := ((posElems x e.k).filter fun q => (aElem s x e.row q.1 (packedAt x e q.2)).1.escape).length
  let b := if x.tb = .hb4 then
      ((posElems x e.k).map fun q => ((cols x e.occ).filter fun j => (bElem s x q.1 j q.2 e.occ e.bOff).escape).length).foldl (· + ·) 0
    else 0
  (if x.ta = .hb4 then a else 0) + b

/-- Counter `i` raised (06 R152). -/
def bumpCounter (s : State) (i : Fin 7) (n : Nat) : State :=
  s.modMe fun r => { r with counters := r.counters.set i (r.counters[i] + BitVec.ofNat 64 n) }

/-- An entry retires: its term in every enabled cell of its row. -/
def retireEntry (x : MeCtx) (sr : State × MeRun) (e : Match) : State × MeRun :=
  let f := if x.acca.isSome then convFlags sr.1 x e else 0
  let r0 := { sr.2 with flags := sr.2.flags ||| f, nan := if f.hasNv then leastNan sr.2.nan (e.row, 0, e.k) else sr.2.nan }
  let t := (cols x e.occ).foldl (fun (y : State × MeRun) j => accCell y.1 y.2 x e.row j e.k (termOf sr.1 x e j)) (sr.1, r0)
  (bumpCounter t.1 3 (burlsOf sr.1 x e), t.2)

/-- A product has a burl term (06 R149). -/
def hasBurl (a b : OpElem) : Bool :=
  (a.escape || b.escape) && !(a.escape && a.nanBlock) && !(b.escape && b.nanBlock)

/-- The burl terms of one entry, in ascending k. -/
def burlEntry (x : MeCtx) (sr : State × MeRun) (e : Match) : State × MeRun :=
  (posElems x e.k).foldl (fun (y : State × MeRun) q =>
    (cols x e.occ).foldl (fun (z : State × MeRun) j =>
      let a := (aElem z.1 x e.row q.1 (packedAt x e q.2)).1
      let b := bElem z.1 x q.1 j q.2 e.occ e.bOff
      if hasBurl a b then accCell z.1 z.2 x e.row j e.k (productOf a.full b.full) else z) y) sr

/-- The burl terms of a row's entries in a chunk (06 R149). -/
def burlChunk (x : MeCtx) (sr : State × MeRun) (es : List Match) : State × MeRun := es.foldl (burlEntry x) sr

/-! ## The walk (06 R150, R154) -/

/-- A STATUS of R154. -/
def metaStatus (kind op row col k off : Nat) : Word :=
  BitVec.ofNat 64 (kind * 2 ^ 60 + op * 2 ^ 59 + row % 128 * 2 ^ 52 + col * 2 ^ 43 + k % 2 ^ 17 * 2 ^ 26 + off % 2 ^ 23 * 2 ^ 3)

/-- A METAFAULT at walk position `k` with `pos` entries accepted. -/
def metaStop (kind op row col ke off k pos : Nat) : MetaStop :=
  ⟨.metafault, metaStatus kind op row col ke off, k, row % 128, pos, 0⟩

/-- A poisoned granule among bytes the walk or a match needs (12 R355). -/
def poisonStop (off k row pos : Nat) : MetaStop :=
  ⟨.poison, 0, k, row, pos, BitVec.ofNat 64 (spadMask off / 64 * 64)⟩

/-- The first poisoned offset of a range that may wrap. -/
def poisonedAt (s : State) (off n : Nat) : Option Nat :=
  if s.poison.isEmpty then none
  else (List.range n).find? (fun i => s.poison.contains (spadAt s.core (spadMask (off + i)) / 64)) |>.map (off + ·)

/-- Every segment. -/
def allSegs (x : MeCtx) : Nat := 2 ^ x.segs - 1

/-- The occupancy of a position; a fault of its byte (06 R154 kind 7). -/
def occAt (s : State) (x : MeCtx) (k last pos : Nat) : Except MetaStop Nat :=
  if x.occ then
    let off := bits x.bm 0 23 + k
    match poisonedAt s off 1 with
    | some o => .error (poisonStop o last 0 pos)
    | none =>
      let b := spadByte s off
      match (List.range 8).find? fun g => bit b g && decide (x.segs ≤ g) with
      | some g => .error (metaStop 7 1 0 (32 * g) k off k pos)
      | none => .ok b
  else .ok (allSegs x)

/-- The elements of a packed group. -/
def groupLen (x : MeCtx) (occ : Nat) : Nat := popc 8 occ * (if x.pair then 64 else 32)

/-- A match, if the position is occupied. -/
def matchOf (k row pos occ bOff : Nat) : List Match := if occ = 0 then [] else [⟨k, row, pos, occ, bOff⟩]

/-- The walk with no metadata of A: every row at every position. -/
def walkNone (s : State) (x : MeCtx) : Nat → Nat → Nat → List Match × Option MetaStop
  | 0, _, _ => ([], none)
  | n + 1, k, bOff =>
    match occAt s x k (k - 1) (k * x.m) with
    | .error e => ([], some e)
    | .ok occ =>
      let r := walkNone s x n (k + 1) (bOff + groupLen x occ)
      ((List.range x.m).flatMap (fun i => matchOf k i (k * x.m + i) occ bOff) ++ r.1, r.2)

/-- A COO entry: the terminator, a fault of R154, or its position and row. -/
inductive CooRead
  | ends
  | bad (f : MetaStop)
  | entry (k row : Nat)
  deriving DecidableEq, Repr

/-- COUNT of AMETA. -/
def MeCtx.count (x : MeCtx) : Nat := bits x.am 32 23

/-- Entry `n` of a COO list as the intersector reads it, after the entry (k, row) `prev`. -/
def cooRead (s : State) (x : MeCtx) (n : Nat) (prev : Option (Nat × Nat)) : CooRead :=
  let off := bits x.am 0 23 + 4 * n
  let at_ := (prev.map (·.1)).getD 0
  match poisonedAt s off 4 with
  | some o => .bad (poisonStop o at_ 0 n)
  | none =>
    let e := spadNum s off 4
    let row := bits e 24 8
    let k := bits e 8 16
    let bad (kind : Nat) : CooRead := .bad (metaStop kind 0 row 0 k off at_ n)
    if e = 0xFFFFFFFF then .ends
    else if bits e 0 8 ≠ 0 then bad 1
    else if x.m ≤ row then bad 2
    else if x.kp ≤ k then bad 3
    else if (prev.map fun p => decide (p.1 < k ∨ (p.1 = k ∧ p.2 < row))).getD true = false then bad 4
    else if x.count ≤ n then bad 5
    else .entry k row

/-- Where a COO walk stands: the position, whether its occupancy has been read, the entries accepted, the last one. -/
structure CooAt where
  k : Nat
  occ : Option Nat
  n : Nat
  prev : Option (Nat × Nat)
  bOff : Nat
  deriving DecidableEq, Repr

/-- The COO walk; `fuel` positions and entries are left. -/
def walkCoo (s : State) (x : MeCtx) : Nat → CooAt → List Match × Option MetaStop
  | 0, _ => ([], none)
  | fuel + 1, a =>
    if x.kp ≤ a.k then
      -- the walk has ended; a list with too few entries is a fault at Kp
      match cooRead s x a.n a.prev with
      | .ends => ([], if a.n < x.count then some (metaStop 5 0 0 0 x.kp (bits x.am 0 23 + 4 * a.n) x.kp a.n) else none)
      | .bad f => ([], some f)
      | .entry _ _ => ([], none)
    else
      match a.occ with
      | none =>
        (match occAt s x a.k ((a.prev.map (·.1)).getD 0) a.n with
         | .error e => ([], some e)
         | .ok occ => walkCoo s x fuel { a with occ := some occ })
      | some occ =>
        match cooRead s x a.n a.prev with
        | .bad f => ([], some f)
        | .entry k row =>
          if k = a.k then
            let r := walkCoo s x fuel { a with n := a.n + 1, prev := some (k, row) }
            (matchOf k row a.n occ a.bOff ++ r.1, r.2)
          else walkCoo s x fuel { a with k := a.k + 1, occ := none, bOff := a.bOff + groupLen x occ }
        | .ends => walkCoo s x fuel { a with k := a.k + 1, occ := none, bOff := a.bOff + groupLen x occ }

/-- The offset of the bitmap word of row i in chunk c. -/
def bitmapOff (x : MeCtx) (i c : Nat) : Nat := bits x.am 0 23 + 4 * (c * x.m + i)

/-- The rows with an entry at a position, each with its walk order index; or the fault of one too many. -/
def bitmapRows (s : State) (x : MeCtx) (k last occ bOff : Nat) : List Nat → Nat → List Match × Except MetaStop (Nat × Nat)
  | [], n => ([], .ok (n, last))
  | i :: is, n =>
    let off := bitmapOff x i (k / 32)
    match poisonedAt s off 4 with
    | some o => ([], .error (poisonStop o last i n))
    | none =>
      if bit (spadNum s off 4) (k % 32) then
        if x.count ≤ n then ([], .error (metaStop 5 0 i 0 k off last n))
        else
          let r := bitmapRows s x k k occ bOff is (n + 1)
          (matchOf k i n occ bOff ++ r.1, r.2)
      else bitmapRows s x k last occ bOff is n

/-- The first bit at or beyond Kp, in ascending (row, position) order. -/
def strayBit (s : State) (x : MeCtx) : Option (Nat × Nat) :=
  let c := x.kp / 32
  if x.kp % 32 = 0 then none
  else
    (List.range x.m).findSome? fun i =>
      ((List.range 32).find? fun b => decide (x.kp ≤ 32 * c + b) && bit (spadNum s (bitmapOff x i c) 4) b).map fun b => (i, 32 * c + b)

/-- The end of a bitmap walk (06 R154 kinds 5 and 6). -/
def bitmapEnd (s : State) (x : MeCtx) (n : Nat) : Option MetaStop :=
  if n < x.count then some (metaStop 5 0 0 0 x.kp (bitmapOff x (x.m - 1) (ceilDiv x.kp 32 - 1)) x.kp n)
  else (strayBit s x).map fun b => metaStop 6 0 b.1 0 b.2 (bitmapOff x b.1 (x.kp / 32)) x.kp n

/-- The bitmap walk; `n` entries are accepted, `last` is the position of the last one. -/
def walkBitmap (s : State) (x : MeCtx) : Nat → Nat → Nat → Nat → Nat → List Match × Option MetaStop
  | 0, _, _, n, _ => ([], bitmapEnd s x n)
  | fuel + 1, k, bOff, n, last =>
    match occAt s x k last n with
    | .error e => ([], some e)
    | .ok occ =>
      match bitmapRows s x k last occ bOff (List.range x.m) n with
      | (ms, .error e) => (ms, some e)
      | (ms, .ok (n2, last2)) =>
        let r := walkBitmap s x fuel (k + 1) (bOff + groupLen x occ) n2 last2
        (ms ++ r.1, r.2)

/-- The whole walk: its matches, and what ends it if not its plain end. -/
def walkAll (s : State) (x : MeCtx) : List Match × Option MetaStop :=
  match x.kindA with
  | 1 => walkBitmap s x x.kp 0 0 0 0
  | 2 => walkCoo s x (2 * x.kp + x.count + 4) ⟨0, none, 0, none, 0⟩
  | _ => walkNone s x x.kp 0 0

/-! ## Bytes that matches need -/

/-- The scratchpad bytes of a packed or plain element. -/
def elemBytes (row w i : Nat) : Nat × Nat := (row + w * i / 8, (w * i % 8 + w + 7) / 8)

/-- The ranges of A that a match reads. -/
def aRanges (x : MeCtx) (e : Match) : List (Nat × Nat) :=
  if x.acca.isSome then []
  else
    (posElems x e.k).flatMap fun q =>
      if x.ta = .hb4 then [(tileBase x.ad e.row q.1, 2312)]
      else
        let base := bits x.ad 0 23
        let idx := if x.pair then 2 * e.aIdx + q.2 else e.aIdx
        (if x.kindA = 0 then elemBytes (base + e.row * bits x.ad 24 24) x.ta.width q.1 else elemBytes base x.ta.width idx)
          :: (if bits x.ad 48 16 = 0 then [] else [(scaleBase x.ad + e.row * ceilDiv x.k 32 + q.1 / 32, 1)])

/-- The ranges of B that a match reads. -/
def bRanges (x : MeCtx) (e : Match) : List (Nat × Nat) :=
  (posElems x e.k).flatMap fun q =>
    (cols x e.occ).flatMap fun j =>
      let base := bits x.bd 0 23
      let w := x.tb.width
      if x.tb = .hb4 then [(tileBase x.bd j q.1, 2312)]
      else
        let per := if x.pair then 64 else 32
        (if x.occ then elemBytes base w (e.bOff + occRank e.occ (j / 32) * per + 32 * q.2 + j % 32)
         else if bit x.bd 23 then elemBytes (base + j * bits x.bd 24 24) w q.1
         else elemBytes (base + q.1 * bits x.bd 24 24) w j)
          :: (if bits x.bd 48 16 = 0 then []
              else [(if bit x.bd 23 then scaleBase x.bd + j * ceilDiv x.k 32 + q.1 / 32 else scaleBase x.bd + q.1 / 32 * x.n + j, 1)])

/-- The walk cut before the first match that needs poisoned bytes (12 R355). -/
def cutPoison (s : State) (x : MeCtx) : List Match → Option MetaStop → List Match × Option MetaStop
  | [], e => ([], e)
  | m :: ms, e =>
    match (aRanges x m ++ bRanges x m).findSome? fun r => poisonedAt s r.1 r.2 with
    | some o => ([], some (poisonStop o m.k m.row m.aIdx))
    | none => let r := cutPoison s x ms e; (m :: r.1, r.2)

/-- The walk as the array can push it. -/
def walkOf (s : State) (x : MeCtx) : List Match × Option MetaStop :=
  let w := walkAll s x
  if s.poison.isEmpty then w else cutPoison s x w.1 w.2

/-- The metadata bytes of a command. -/
def metaRanges (x : MeCtx) : List (Nat × Nat) :=
  (match x.kindA with
    | 1 => [(bits x.am 0 23, 4 * x.m * ceilDiv x.kp 32)]
    | 2 => [(bits x.am 0 23, 4 * (x.count + 1))]
    | _ => []) ++ (if x.occ then [(bits x.bm 0 23, x.kp)] else [])

/-- The units of 4 KiB that some ranges touch. -/
def unitsOf (l : List (Nat × Nat)) : List Nat :=
  (l.flatMap fun r => (spadPieces r.1 r.2).flatMap fun p =>
    if p.2 = 0 then [] else granules (p.1 / 4096) ((p.1 + p.2 - 1) / 4096 - p.1 / 4096 + 1)).foldl (fun us u => insertNat u us) []

/-- The scales of an MX operand. -/
def scaleRange (desc n : Nat) : List (Nat × Nat) := if bits desc 48 16 = 0 then [] else [(scaleBase desc, n)]

/-- Rows of packed elements. -/
def rowRanges (base stride rows bytes : Nat) : List (Nat × Nat) := (List.range rows).map fun i => (base + i * stride, bytes)

/-- The bases of the tiles of an HB4 operand of `rows` × `cols` elements. -/
def tileBases (desc rows cols : Nat) : List Nat :=
  (List.range (ceilDiv rows 64)).flatMap fun r => (List.range (ceilDiv cols 64)).map fun c => tileBase desc (64 * r) (64 * c)

/-- The bytes of the operands that the matches of a walk read, row by row. -/
def operandRanges (x : MeCtx) (ms : List Match) : List (Nat × Nat) :=
  let per := if x.pair then 2 else 1
  let entries := ms.foldl (fun n e => max n (e.aIdx + 1)) 0
  let group := ms.foldl (fun n e => max n (e.bOff + groupLen x e.occ)) 0
  let ab := bits x.ad 0 23
  let bb := bits x.bd 0 23
  let a := if x.acca.isSome then []
    else if x.ta = .hb4 then (tileBases x.ad x.m x.k).map fun b => (b, 2312)
    else (if x.kindA = 0 then rowRanges ab (bits x.ad 24 24) x.m (ceilDiv (x.k * x.ta.width) 8)
      else [(ab, ceilDiv (entries * per * x.ta.width) 8)]) ++ scaleRange x.ad (x.m * ceilDiv x.k 32)
  let b := if x.tb = .hb4 then (tileBases x.bd x.n x.k).map fun b => (b, 2312)
    else (if x.occ then [(bb, ceilDiv (group * x.tb.width) 8)]
      else if bit x.bd 23 then rowRanges bb (bits x.bd 24 24) x.n (ceilDiv (x.k * x.tb.width) 8)
      else rowRanges bb (bits x.bd 24 24) x.k (ceilDiv (x.n * x.tb.width) 8)) ++ scaleRange x.bd (ceilDiv x.k 32 * x.n)
  a ++ b

/-- LAYOUT before the first step, or whether `LAYOUT_STALE` is set (06 R141, 08 R216). -/
def layoutUnits (s : State) : List Nat → Except Fail Flags
  | [] => .ok 0
  | u :: us =>
    match layoutRead s.core (4096 * u) 1 with
    | .error e => .error e
    | .ok f =>
      match layoutUnits s us with
      | .error e => .error e
      | .ok g => .ok (f ||| g)

/-! ## HB4 tiles (04 R73, 06 R149) -/

/-- The tiles a command reads. -/
def tilesOf (x : MeCtx) : List Nat :=
  (if x.ta = .hb4 ∧ x.acca.isNone then tileBases x.ad x.m x.k else [])
    ++ (if x.tb = .hb4 then tileBases x.bd x.n x.k else [])

/-- The first tile whose header does not fit. -/
def badTile (s : State) (x : MeCtx) : Option (Nat × Nat) := (tilesOf x).findSome? fun b => hb4HeaderBad (tileByte s b)

end Sys2Proof.Machine
end

