-- ==== Sys2Proof/Machine/ArrayRun.lean ====
section
/-! DEFINITION. The matrix engine at work: steps (06 R151), stops and resumption (06 R153-R157, R163), merges
(06 R158-R160), clearing and draining slots (06 R139, R164), counters (06 R165), its queue and the meaning of every MAT
instruction. -/

namespace Sys2Proof.Machine

/-! ## MPC and stops -/

/-- The MPC of an ME command (06 R153). -/
def meMpc (phase k row pos : Nat) : Word :=
  BitVec.ofNat 64 (phase * 2 ^ 61 + k % 2 ^ 17 * 2 ^ 44 + row % 128 * 2 ^ 37 + pos % 2 ^ 29 * 2 ^ 8)

/-- A cause of the ME with the command that it stops. -/
def meCause (c : Cmd) (f : Fail) (mpc : Word) : Raised := ⟨f.cause, .me, false, true, c.idx, mpc, f.status, f.address⟩

/-- The ME stops with a pending cause. -/
def meStop (s : State) (r : Raised) : State := s.modRegs fun x => { x with pend := { x.pend with me := some r } }

/-- The state with the running command replaced. -/
def State.setRun (s : State) (r : Option MeRun) : State := s.modMe fun x => { x with run := r }

/-- The flags of the work done so far are merged (04 R83). -/
def mergeRun (s : State) (r : MeRun) : State × MeRun := (s.addFlags r.flags, { r with flags := 0 })

/-! ## Steps (06 R151) -/

/-- The first queued entry of each row, and the others. -/
def rowHeads : List Match → List Nat → List Match × List Match
  | [], _ => ([], [])
  | e :: es, seen =>
    if seen.contains e.row then let r := rowHeads es seen; (r.1, e :: r.2)
    else let r := rowHeads es (e.row :: seen); (e :: r.1, r.2)

/-- The chunk of an entry is complete for its row: no later entry of it waits, and the walk has passed the chunk
(06 R149, R154). -/
def chunkDone (x : MeCtx) (r : MeRun) (rest : List Match) (e : Match) : Bool :=
  let c := e.k / x.chunk
  let later := (rest ++ r.walk).any fun m => m.row == e.row && m.k / x.chunk == c
  !later && (match r.stop with
    | some f => decide (min (x.chunk * (c + 1)) x.kp ≤ f.k)
    | none => true)

/-- The matches of a row in a chunk. -/
def chunkOf (x : MeCtx) (all : List Match) (row c : Nat) : List Match :=
  all.filter fun m => m.row == row && m.k / x.chunk == c

/-- An operand is HB4. -/
def usesBurls (x : MeCtx) : Bool := x.ta == .hb4 || x.tb == .hb4

/-- The burl terms of a row in a chunk, added once. -/
def addBurls (x : MeCtx) (y : State × MeRun) (all : List Match) (row c : Nat) : State × MeRun :=
  if y.2.burled.contains (row, c) then y
  else
    let z := burlChunk x y (chunkOf x all row c)
    (z.1, { z.2 with burled := (row, c) :: z.2.burled })

/-- Retirement: each row's head adds its term, and its chunk's burl terms if it is the last. -/
def retireStep (s : State) (x : MeCtx) (r : MeRun) (all : List Match) : State × MeRun :=
  let h := rowHeads r.queue []
  let r1 := { r with queue := h.2 }
  h.1.foldl (fun (y : State × MeRun) e =>
    let z := retireEntry x y e
    if usesBurls x && chunkDone x r1 h.2 e then addBurls x z all e.row (e.k / x.chunk) else z) (s, r1)

/-- A match that stops the push loop counts once (06 R152). -/
def countWait (s : State) (r : MeRun) (lag : Bool) : State × MeRun :=
  if lag then (if r.lag then (s, r) else (bumpCounter s 2 1, { r with lag := true }))
  else (if r.ovf then (s, r) else (bumpCounter s 1 1, { r with ovf := true }))

/-- What stops a command whose queue is full under TRAP: QOVFTRAP at the waiting match (06 R155). -/
def trapStop (x : MeCtx) (e : Match) : MetaStop :=
  let off := if x.kindA = 2 then bits x.am 0 23 + 4 * e.aIdx else 0
  ⟨.qovftrap, metaStatus 0 0 e.row 0 e.k off, e.k, e.row, e.aIdx, 0⟩

/-- The push loop: `ks` are the positions pushed in this step, `np` the entries; `sparse` says that TRAP applies. -/
def pushLoop (x : MeCtx) (lim lag : Nat) (trap sparse : Bool) (kmin : Nat) :
    List Match → List Nat → Nat → State → MeRun → State × MeRun
  | [], _, _, s, r => (s, { r with walk := [] })
  | e :: es, ks, np, s, r =>
    let new := !ks.contains e.k
    if (new && decide (ks.length = 4)) || decide (np = 256) then (s, { r with walk := e :: es })
    else if lag ≤ e.k - kmin then let y := countWait s r true; (y.1, { y.2 with walk := e :: es })
    else if lim ≤ (r.queue.filter fun m => m.row == e.row).length then
      if trap && sparse then (s, { r with walk := [], stop := some (trapStop x e) })
      else let y := countWait s r false; (y.1, { y.2 with walk := e :: es })
    else
      pushLoop x lim lag trap sparse kmin es (if new then e.k :: ks else ks) (np + 1) (bumpCounter s 0 1)
        { r with queue := r.queue ++ [e], ovf := false, lag := false, k := e.k, row := e.row + 1, pos := e.aIdx + 1 }

/-- The command is an MSPA. -/
def isMspa : Instr → Bool
  | .mspa _ => true
  | _ => false

/-- A step: retire, then push. -/
def arrayStep (s : State) (x : MeCtx) (r : MeRun) (all : List Match) : State × MeRun :=
  let y := retireStep s x r all
  let kmin := match y.2.queue, y.2.walk with
    | e :: _, _ => e.k
    | [], e :: _ => e.k
    | [], [] => 0
  let g (i : Fin 18) : Nat := cfgNat s.me.active i
  let z := pushLoop x (g 7) (g 8) (g 9 == 1) (isMspa r.cmd.instr) kmin y.2.walk [] 0 y.1 y.2
  (bumpCounter z.1 5 1, z.2)

/-! ## Starting and resuming -/

/-- The walk of a command that starts or continues: what stands before its position is not pushed again, and the burl
terms that its stop left open are added where their chunk is complete now (06 R157). -/
def beginWalk (s : State) (x : MeCtx) (r : MeRun) : State × MeRun :=
  let w := walkOf s x
  let rest := w.1.filter fun m => decide (r.pos ≤ m.aIdx)
  let r1 := { r with walk := rest, stop := w.2, begun := true }
  let c := r.k / x.chunk
  let before := w.1.filter fun m => decide (m.aIdx < r.pos)
  if usesBurls x && r.pos != 0 && decide (r.k < x.kp) then
    (List.range x.m).foldl (fun (y : State × MeRun) i =>
      match (chunkOf x before i c).getLast? with
      | some e => if chunkDone x r1 [] e then addBurls x y before i c else y
      | none => y) (s, r1)
  else (s, r1)

/-- The checks before the first step: types and classes, layout, tiles (06 R170). -/
def meCheck (s : State) (x : MeCtx) : Except Fail Flags :=
  if meIllegal s x then .error (plainFail .illegal)
  else
    match layoutUnits s (unitsOf (metaRanges x ++ operandRanges x (walkOf s x).1)) with
    | .error e => .error e
    | .ok f =>
      match (tilesOf x).findSome? fun b => poisonedAt s b 2312 with
      | some o => .error (failAt .poison 0 (BitVec.ofNat 64 (spadMask o / 64 * 64)))
      | none =>
        match badTile s x with
        | some b => .error (burlCount b.1 b.2)
        | none => .ok f

/-- A matrix command starts: the shadow set becomes active (06 R144). -/
def startMatrix (c : Cmd) (s : State) : EngRes :=
  let t := s.modMe fun r => { r with active := r.shadow }
  match meCheck t (meCtx t c) with
  | .error e => .stop s e 0
  | .ok f =>
    .done (t.setRun (some
      { cmd := c, phase := 1, walk := [], stop := none, queue := [], ovf := false, lag := false, k := 0, row := 0, pos := 0,
        begun := false, burled := [], merged := 0, since := 0, nan := none, flags := f }))

/-! ## Merges (06 R158-R160) -/

/-- MERGESRC of the running command. -/
def mergeMask (s : State) : Nat := bits (cfgNat s.me.active 17) 0 8

/-- The members still awaited. -/
def awaitedMembers (s : State) (r : MeRun) : List Nat :=
  (List.range 8).filter fun i => bit (mergeMask s) i && !r.merged.getLsbD i

/-- It is a member's turn: any under ARRIVAL, the lowest awaited under FIXED. -/
def mergeTurn (s : State) (r : MeRun) (m : Nat) : Bool :=
  let l := awaitedMembers s r
  if bits (cfgNat s.me.active 10) 0 2 = 2 then l.contains m else l.head? == some m

/-- One element of a tile added. A tile of the other class has no stated sum: a free value (log 9). -/
def mergeElem (tile : MergeTile) (slot i j : Nat) (y : State × MeRun) : State × MeRun :=
  let v := (tile.elems.getD (256 * i + j) 0).toNat
  let s := y.1
  let isInt := s.me.intSlot.toList.getD slot false
  if tile.int != isInt then
    ({ accPut s slot i j (Config.freeWord s.free).toNat with free := s.free + 1 }, y.2)
  else
    let p : Val := if isInt then .ofInt (intOf .i32 v) else decodeTy .f32 v
    let c := addTerm isInt (bit (cfgNat s.me.active 10) 3) (accGet s slot i j) (p, false)
    (accPut s slot i j c.1,
      { y.2 with flags := y.2.flags ||| c.2, nan := if c.2.hasNv then leastNan y.2.nan (i, j, 0x1FFFF) else y.2.nan })

/-- A tile merged into the slot of the running command. -/
def mergeTile (s : State) (r : MeRun) (slot : Nat) (tile : MergeTile) : State :=
  let y := (List.range 128).foldl (fun y i => (List.range 256).foldl (fun z j => mergeElem tile slot i j z) y) (s, r)
  (bumpCounter y.1 4 1).setRun (some { y.2 with merged := y.2.merged ||| (1#8 <<< tile.member.val), since := s.now })

/-- The first buffered tile that the running command may merge now. -/
def bufferedTile (s : State) (r : MeRun) (slot : Nat) : Option MergeTile :=
  s.me.mergeBuf.find? fun t => t.slot.val == slot && mergeTurn s r t.member.val

/-! ## Completion -/

/-- FIRSTNAN of the ME: the place of the NaN, while both enables are set (06 R163, 04 R88). -/
def meNan (s : State) (follow : Bool) (nan : Option (Nat × Nat × Nat)) : Option Fail :=
  match nan with
  | some (i, j, k) =>
    if follow && nanTrap s then some (failAt .firstnan (i + 2 ^ 8 * j + 2 ^ 24 * k) 0) else none
  | none => none

/-- NANTRAP.FOLLOW of a configuration. -/
def follows (cfg : Vector Word 18) : Bool := bit (cfgNat cfg 11) 0

/-- A matrix command is complete: flags merge, then FIRSTNAN (06 R163). -/
def finishMatrix (s : State) (r : MeRun) : State :=
  let t := ((mergeRun s r).1).setRun none
  match meNan s (follows s.me.active) r.nan with
  | some f => meStop t (meCause r.cmd f (meMpc 3 0 0 0))
  | none => t

/-- A stop reached by the walk, once every queue is empty: the MPC keeps the position (06 R154, R155). -/
def raiseStop (s : State) (r : MeRun) (f : MetaStop) : State :=
  let y := mergeRun s { r with k := f.k, row := f.row, pos := f.pos, begun := false, walk := [], stop := none }
  meStop (y.1.setRun (some y.2)) (meCause r.cmd ⟨f.cause, f.status, f.address⟩ (meMpc 1 f.k f.row f.pos))

/-- One step of the running command. -/
def runStep (s : State) (r : MeRun) : State :=
  let x := meCtx s r.cmd
  if r.phase = 2 then
    if (awaitedMembers s r).isEmpty then finishMatrix s r
    else
      match bufferedTile s r x.acc with
      | some t => mergeTile (s.modMe fun m => { m with mergeBuf := m.mergeBuf.erase t }) r x.acc t
      | none => s
  else
    let b := if r.begun then (s, r) else beginWalk s x r
    let y := arrayStep b.1 x b.2 (if usesBurls x then (walkAll s x).1 else [])
    if y.2.walk.isEmpty && y.2.queue.isEmpty then
      match y.2.stop with
      | some f => raiseStop y.1 y.2 f
      | none =>
        if mergeMask y.1 = 0 then finishMatrix y.1 y.2
        else y.1.setRun (some { y.2 with phase := 2, since := s.now })
    else y.1.setRun (some y.2)

/-- Steps that only retire, at most 16 for the entries a row may hold. -/
def retireAll (x : MeCtx) (all : List Match) : Nat → State × MeRun → State × MeRun
  | 0, y => y
  | n + 1, y =>
    if y.2.queue.isEmpty then y
    else let z := retireStep y.1 x y.2 all; retireAll x all n (bumpCounter z.1 5 1, z.2)

/-- The running command stops for a save or a cause: its pushes end, what is queued retires, flags merge, and the next
position is kept (06 R156, 04 R83). -/
def stopArray (s : State) : State :=
  match s.me.run with
  | none => s
  | some r =>
    match r.phase, r.walk with
    | 1, e :: _ =>
      let x := meCtx s r.cmd
      let mark : MetaStop := ⟨.deadline, 0, e.k, e.row, e.aIdx, 0⟩
      let y := retireAll x (if usesBurls x then (walkAll s x).1 else []) 16 (s, { r with stop := some mark })
      let z := mergeRun y.1 { y.2 with walk := [], stop := none, k := e.k, row := e.row, pos := e.aIdx, begun := false }
      z.1.setRun (some z.2)
    | _, _ => s

/-! ## MZERO, MDRAIN, MSTAT -/

/-- A slot cleared (06 R139). -/
def clearSlot (s : State) (slot : Nat) : State :=
  let k := accElemKey s slot 0 0
  { s with mem := memClear s.mem k (k + 2 ^ 17) }

/-- MZERO. -/
def meZero (o : Mm) (s : State) : State :=
  (clearSlot s o.acc.val).modMe fun r => { r with intSlot := r.intSlot.set o.acc (bit o.fl.toNat 0) }

/-- How a drain converts: type, MX, rounding, SAT, FZO. -/
structure DrainFmt where
  ty : Ty
  mx : Bool
  rm : Rm
  sat : Bool
  fzo : Bool
  deriving DecidableEq, Repr

/-- DRAINFMT at a destination: the bank's type takes the place of another one; LAYOUT where the bank is STRICT, ILLEGAL
where MX meets a type that has no blocks (06 R164, 08 R218). -/
def drainFmt (s : State) (c : Cmd) (off : Nat) : Except Fail (DrainFmt × Flags) :=
  let v := cfgNat s.me.active 12
  let b := bankFmt s.core (bankOf off)
  let t := tyOfCode b.1
  let f : DrainFmt := ⟨t, bit v 4, rmField c (bits v 5 3), bit v 8, bit v 9⟩
  if bits v 0 4 = b.1 then .ok (f, 0)
  else if b.2.2 then
    .error (failAt .layout (layoutStatus s.core (off / 4096)) (BitVec.ofNat 64 (0x8000000000000000 + off)))
  else if f.mx && !t.isMx then .error (plainFail .illegal)
  else .ok (f, Flags.layoutStale)

/-- What a copy of a drain holds: its bytes, its flags, the NaN its conversions created, and burl candidates beyond the
capacity. -/
structure DrainOut where
  bytes : List Byte
  flags : Flags
  nan : Option (Nat × Nat × Nat)
  beyond : Nat
  deriving DecidableEq, Repr

/-- Packed elements of a width as bytes, filled with zeros to a length. -/
def packBytes (w n : Nat) (xs : List Nat) : List Byte := leBytes n (packNat w xs)

/-- The bytes of a row of a plain or MX drain: padded to a multiple of 64. -/
def drainRowLen (w n : Nat) : Nat := ceilDiv (ceilDiv (n * w) 8) 64 * 64

/-- A plain drain of `rows` × `cols` elements; `get` gives the bits, `place` the slot's element, `num` the draw's
number. -/
def drainPlain (f : DrainFmt) (src : Ty) (seed : Word) (rows cols off : Nat) (get : Nat → Nat → Nat)
    (place : Nat → Nat → Nat × Nat) : DrainOut :=
  let row (i : Nat) : List Conv := (List.range cols).map fun j =>
    convertBits src f.ty f.rm false f.fzo f.sat (drawXfer seed (off + i * cols + j)) (get i j)
  let all := (List.range rows).map fun i => (i, row i)
  let nan := all.foldl (fun n r => r.2.zipIdx.foldl (fun n c =>
    if c.1.2.hasNv then let p := place r.1 c.2; leastNan n (p.1, p.2, 0x1FFFF) else n) n) none
  ⟨all.flatMap fun r => packBytes f.ty.width (drainRowLen f.ty.width cols) (r.2.map (·.1)),
    allFlags (all.map fun r => allFlags (r.2.map (·.2))), nan, 0⟩

/-- The blocks of a row. -/
def rowBlock (src : Ty) (seed : Word) (cols off i c : Nat) (get : Nat → Nat → Nat) : List BlockIn :=
  (List.range 32).map fun b =>
    let j := 32 * c + b
    ⟨if j < cols then decodeTy src (get i j) else .fin false 0 0, decide (cols ≤ j), drawXfer seed (off + i * cols + j)⟩

/-- An MX drain: the elements, then the scales (06 R164, 04 R85). -/
def drainMx (f : DrainFmt) (src : Ty) (seed : Word) (rows cols off : Nat) (get : Nat → Nat → Nat) : DrainOut :=
  let all := (List.range rows).map fun i =>
    (List.range (ceilDiv cols 32)).map fun c => quantMx f.ty f.rm f.fzo (rowBlock src seed cols off i c get)
  let body := all.flatMap fun r =>
    packBytes f.ty.width (drainRowLen f.ty.width cols) ((r.flatMap fun b => b.2.map (·.1)).take cols)
  ⟨body ++ all.flatMap (fun r => r.map fun b => BitVec.ofNat 8 b.1),
    allFlags (all.map fun r => allFlags (r.map fun b => allFlags (b.2.map (·.2)))), none, 0⟩

/-- A tile under construction: the slots taken, codes and scales of its blocks so far. -/
structure TileAcc where
  burls : List Nat
  codes : List Nat
  scales : List Nat
  flags : Flags
  beyond : Nat
  deriving DecidableEq, Repr

/-- The bytes of a finished tile (04 R72). -/
def tileBytes (a : TileAcc) : List Byte :=
  packBytes 4 2048 a.codes ++ a.scales.map (BitVec.ofNat 8) ++ leBytes 2 a.burls.length ++ leBytes 2 64 ++ leBytes 4 0
    ++ packBytes 16 128 a.burls ++ leBytes 248 0

/-- One HB4 tile from its 4,096 inputs, in row-major order (04 R86). -/
def quantTile (ty : Nat) (thresh : Val) (rm : Rm) (input : Nat → Nat → BlockIn) : TileAcc :=
  (List.range 128).foldl (fun a b =>
    let q := quantHb4 ty thresh rm (64 - a.burls.length) ((List.range 32).map fun e => input (b / 2) (b % 2 * 32 + e))
    ⟨a.burls ++ q.burls, a.codes ++ q.codes, a.scales ++ [q.scale], a.flags ||| q.flags, a.beyond + q.beyond⟩)
    ⟨[], [], [], 0, 0⟩

/-- An HB4 drain: tiles of the padded matrix, row-major in the tile grid (06 R164). -/
def drainHb4 (f : DrainFmt) (src : Ty) (drainq : Nat) (seed : Word) (rows cols off : Nat) (get : Nat → Nat → Nat) : DrainOut :=
  let tc := ceilDiv cols 64
  let tiles := (List.range (ceilDiv rows 64 * tc)).map fun t =>
    quantTile (bits drainq 0 3) (burlThresh (bits drainq 3 8)) f.rm fun r c =>
      let i := 64 * (t / tc) + r
      let j := 64 * (t % tc) + c
      let pad := decide (rows ≤ i) || decide (cols ≤ j)
      ⟨if pad then .fin false 0 0 else decodeTy src (get i j), pad, drawXfer seed (off + 4096 * t + 64 * r + c)⟩
  ⟨tiles.flatMap tileBytes, allFlags (tiles.map (·.flags)), none, (tiles.map (·.beyond)).foldl (· + ·) 0⟩

/-- One copy of a drain in its format. -/
def drainOut (s : State) (f : DrainFmt) (slot rows cols off : Nat) (get : Nat → Nat → Nat)
    (place : Nat → Nat → Nat × Nat) : DrainOut :=
  let src := slotTy s slot
  let seed := s.me.active[16]
  if f.ty = .hb4 then drainHb4 f src (cfgNat s.me.active 13) seed rows cols off get
  else if f.mx then drainMx f src seed rows cols off get
  else drainPlain f src seed rows cols off get place

/-- Bytes written by an engine from an offset on, wrapping at the end of the scratchpad. -/
def engineFill (s : State) (off : Nat) (bs : List Byte) : State × Flags :=
  ((spadPieces off bs.length).foldl (fun (y : (State × Flags) × List Byte) p =>
    let w := engineWrite y.1.1 p.1 (y.2.take p.2)
    ((w.1, y.1.2 ||| w.2), y.2.drop p.2)) ((s, 0), bs)).1

/-- The two copies of a drain written, the slot cleared with `.z` (06 R164). -/
def drainWrite (s : State) (o : Mm) (off toff : Nat) (a : DrainOut) (b : Option DrainOut) (f : Flags) : State :=
  let w := engineFill s off a.bytes
  let x := match b with
    | some t => let y := engineFill w.1 toff t.bytes; (y.1, w.2 ||| y.2)
    | none => w
  let z := if bit o.fl.toNat 2 then clearSlot x.1 o.acc.val else x.1
  z.addFlags (f ||| x.2 ||| a.flags ||| (b.map (·.flags)).getD 0)

/-- MDRAIN to the scratchpad (06 R164). -/
def meDrain (o : Mm) (c : Cmd) (s0 : State) : EngRes :=
  let s := s0.modMe fun r => { r with active := r.shadow }
  let v := (c.vals.getD 0 0).toNat
  let g (i : Fin 18) : Nat := cfgNat s.me.active i
  let slot := o.acc.val
  let t := bit o.fl.toNat 0
  if v % 64 ≠ 0 ∨ 2 ^ 23 ≤ v then .stop s0 (plainFail .illegal) 0
  else
    match drainFmt s c v, (if t then drainFmt s c (g 14) else .ok (⟨.f32, false, .rne, false, false⟩, 0)) with
    | .error e, _ => .stop s0 e 0
    | _, .error e => .stop s0 e 0
    | .ok (fa, la), .ok (fb, lb) =>
      let a := drainOut s fa slot (g 0) (g 1) 0 (accGet s slot) fun i j => (i, j)
      let b := if t then some (drainOut s fb slot (g 1) (g 0) (2 ^ 40) (fun i j => accGet s slot j i) fun i j => (j, i)) else none
      if bit (g 13) 11 && decide (0 < a.beyond + (b.map (·.beyond)).getD 0) then .stop s0 (plainFail .burlovf) 0
      else
        let w := drainWrite s o v (g 14) a b (la ||| lb)
        let nan := match a.nan, b.bind (·.nan) with
          | n, some p => leastNan n p
          | n, none => n
        match meNan s (follows s.me.active) nan with
        | some e => .stop w e (meMpc 3 0 0 0)
        | none => .done w

/-- The elements of a whole slot. -/
def slotElems (s : State) (slot : Nat) : List (BitVec 32) :=
  (List.range 128).flatMap fun i => (List.range 256).map fun j => BitVec.ofNat 32 (accGet s slot i j)

/-- The target of a merge takes a tile: merged at once, buffered, or refused (06 R159, R160). -/
def takeTile (target : Fin 512) (tile : MergeTile) (s : State) : Option State :=
  let c := s.coreAt target
  match c.task with
  | none => none
  | some _ =>
    let buffer : Option State :=
      if c.regs.me.mergeBuf.length < 2 then
        some (s.setCoreAt target { c with regs := { c.regs with me := { c.regs.me with mergeBuf := c.regs.me.mergeBuf ++ [tile] } } })
      else none
    match c.regs.me.run with
    | some r =>
      let direct : Bool := (let t := s.focus target; r.phase == 2 && (meCtx t r.cmd).acc == tile.slot.val && mergeTurn t r tile.member.val)
      if direct then some (atCore target (fun t => mergeTile t r tile.slot.val tile) s) else buffer
    | none => buffer

/-- MDRAIN.merge (06 R158, R159, R170). -/
def meSend (o : Mm) (c : Cmd) (s : State) : EngRes :=
  let v := (c.vals.getD 0 0).toNat
  if bits v 3 1 ≠ 0 ∨ 64 ≤ v then .stop s (plainFail .illegal) 0
  else
    let target := peerAgent s.core.agent (v % 8)
    match peerCheck s target s.ctx 0 with
    | .error e => .stop s e 0
    | .ok _ =>
      let tile : MergeTile := ⟨Fin.ofNat 8 (memberOf s.core.agent), Fin.ofNat 4 (v / 16), s.me.intSlot.toList.getD o.acc.val false,
        slotElems s o.acc.val⟩
      match takeTile target tile s with
      | some t => .done (t.modCore fun k => { k with refused := none })
      | none => .wait (s.modCore fun k => { k with refused := some (k.refused.getD s.now) })

/-- MSTAT: the value of CYCLES is a free value (06 R152, log 9). -/
def meStat (o : Mm) (s : State) : State :=
  let i : Fin 7 := Fin.ofNat 7 o.fid.val
  let t := if o.fid.val = 6 then { s.setRes (Config.meCycles s.free) with free := s.free + 1 } else s.setRes s.me.counters[i]
  if bit o.fl.toNat 0 then t.modMe fun r => { r with counters := r.counters.set i 0 } else t

/-! ## The queue -/

/-- A copy whose `fol` flag binds a MAT command has not written its last byte (08 R243). -/
def boundWaits (s : State) (c : Cmd) : Bool :=
  (s.cp.queue ++ (s.cp.copies.filter CopyRun.writing).map (·.cmd)).any fun k => idxBefore k.idx c.idx && (match k.instr with
    | .copy o | .copyf o | .cpb o | .cph o => o.fol
    | _ => false)

/-- A MAT instruction, to which `fol` may bind a copy. -/
def isMat : Instr → Bool
  | .mcfg _ | .mma _ | .mmaAcca _ | .mspa _ | .mzero _ | .mdrain _ | .mdrainMerge _ | .mstat _ => true
  | _ => false

/-- One ME command that is at the head performed, or started. -/
def meRun (c : Cmd) (s : State) : EngRes :=
  let v := c.vals.getD 0 0
  match c.instr with
  | .setb o => .done (s.modMe fun r => { r with b := r.b.set o.idx v })
  | .mcfg o => .done (s.modMe fun r => { r with shadow := cfgAfter r.shadow ⟨.mcfg o, [v], 0, 0, .rne⟩ })
  | .mma _ | .mmaAcca _ | .mspa _ => startMatrix c s
  | .mzero o => .done (meZero o s)
  | .mdrain o => meDrain o c s
  | .mdrainMerge o => meSend o c s
  | .mstat o => .done (meStat o s)
  | _ => .done s

/-- A command at the head, performed if its bindings and the range checker let it. -/
def meTry (c : Cmd) (s : State) : EngRes :=
  if (isMat c.instr && boundWaits s c) || meBlocked s c then .wait s else meRun c s

/-- A command taken from the head of the queue; a stop at PHASE 3 leaves it complete. -/
def mePerform (c : Cmd) (s : State) : State :=
  let back (t : State) : State := t.modMe fun r => { r with queue := c :: r.queue }
  match meTry c s with
  | .done t => t
  | .wait t => back t
  | .stop t f mpc => meStop (if bits mpc.toNat 61 3 = 3 then t else back t) (meCause c f mpc)

/-- One step of the ME: of its running command, or the head of its queue. -/
def meStep (s : State) : State :=
  if s.core.regs.pend.me.isSome then s
  else
    match s.me.run, s.me.queue with
    | some r, _ => runStep s r
    | none, c :: cs => mePerform c (s.modMe fun r => { r with queue := cs })
    | none, [] => s

/-- The ME works until nothing of it runs, it waits for a tile, or a cause stops it; `fuel` steps at most. -/
def meSettle : Nat → State → State
  | 0, s => s
  | n + 1, s =>
    match s.me.run with
    | some r =>
      if s.core.regs.pend.me.isSome || (r.phase == 2 && !(awaitedMembers s r).isEmpty && (bufferedTile s r (meCtx s r.cmd).acc).isNone) then s
      else meSettle n (runStep s r)
    | none => s

/-- Steps that a command can take at most: each retires or pushes an entry. -/
def meFuel (s : State) : Nat :=
  match s.me.run with
  | some r => let x := meCtx s r.cmd; 2 * x.m * x.kp + 32
  | none => 0

/-! ## Dispatch -/

/-- The ME takes a command at once (log 5). -/
def meIdle (s : State) : Bool :=
  s.core.inOrder && s.me.queue.isEmpty && s.me.run.isNone && s.core.regs.pend.me.isNone

/-- A command joins the ME's queue, or is performed at once; a full queue holds the SCC (02 R38). -/
def queueMe (c : Cmd) (s : State) : State :=
  if 16 ≤ s.me.queue.length then holds s
  else if meIdle s then let t := mePerform c (retire s); meSettle (meFuel t) t
  else (retire s).modMe fun r => { r with queue := r.queue ++ [c] }

/-- A value within the limits of a configuration field (06 R145). -/
def cfgOk (f v : Nat) : Bool :=
  match f with
  | 0 => decide (1 ≤ v) && decide (v ≤ 128)
  | 1 => decide (1 ≤ v) && decide (v ≤ 256)
  | 2 => decide (1 ≤ v) && decide (v ≤ 65536)
  | 3 => bits v 0 6 == 0 && !bit v 23
  | 4 => bits v 0 6 == 0
  | 5 => v == 0 || (bit v 63 && bits v 55 8 == 0 && bits v 23 9 == 0 && v % 4 == 0)
  | 6 => v == 0 || (bit v 63 && bits v 23 40 == 0)
  | 7 => decide (1 ≤ v) && decide (v ≤ 16)
  | 8 => decide (1 ≤ v) && decide (v ≤ 63)
  | 9 => decide (v ≤ 1)
  | 10 => decide (v < 16) && v % 4 != 3
  | 11 => decide (v ≤ 1)
  | 12 => decide (v < 1024) && decide (bits v 5 3 ≤ 5) && (!bit v 4 || (tyOfCode (bits v 0 4)).isMx)
  | 13 => decide (v < 4096) && decide (bits v 0 3 ≤ 4)
  | 14 => decide (v < 2 ^ 23) && v % 64 == 0
  | 15 => decide (v < 512) && decide (bits v 4 3 ≤ 5) && arrayTy (tyOfCode (bits v 0 4))
  | 16 => true
  | 17 => decide (v < 256)
  | _ => false

/-- An MCFG needs a feature that the die has not accepted (06 R145, 02 R50). -/
def cfgMissing (f v : Nat) (s : State) : Bool :=
  ((f == 5 || f == 6) && v != 0 && !s.hasFeature 0)
    || ((f == 12 || f == 15) && bits v 0 4 == 15 && !s.hasFeature 1)
    || (f == 16 && !s.hasFeature 4)

/-- A MAT instruction with its slots declared (06 R138). -/
def dispatchMe (i : Instr) (regs : List SReg) (slots : List Nat) (s : State) : Out :=
  .next (
    if !slots.all s.declares then illegal s
    else if !ready s regs then holds s
    else queueMe (mkCmd i (regs.map s.sreg) s) s)

/-- MCFG (06 R145). -/
def execMcfg (o : Mm) (s : State) : Out :=
  .next (
    if !ready s [o.s] then holds s
    else
      let v := (s.sreg o.s).toNat
      if cfgMissing o.fid.val v s then trap s (plainFail .illfeature)
      else if !cfgOk o.fid.val v then illegal s
      else queueMe (mkCmd (.mcfg o) [s.sreg o.s] s) s)

/-- MMA (06 R163). -/
def execMma (o : Mm) (s : State) : Out := dispatchMe (.mma o) [] [o.acc.val] s
/-- MMA.acca (06 R161). -/
def execMmaAcca (o : Mm) (s : State) : Out := dispatchMe (.mmaAcca o) [] [o.acc.val, bits o.fl.toNat 1 2] s
/-- MSPA (06 R163); it needs feature SPARSE. -/
def execMspa (o : Mm) (s : State) : Out := featured 0 s fun t => dispatchMe (.mspa o) [] [o.acc.val] t
/-- MZERO (06 R139). -/
def execMzero (o : Mm) (s : State) : Out := dispatchMe (.mzero o) [] [o.acc.val] s
/-- MDRAIN (06 R164). -/
def execMdrain (o : Mm) (s : State) : Out := dispatchMe (.mdrain o) [o.s] [o.acc.val] s
/-- MDRAIN.merge (06 R158). -/
def execMdrainMerge (o : Mm) (s : State) : Out := dispatchMe (.mdrainMerge o) [o.s] [o.acc.val] s
/-- MSTAT (06 R165). -/
def execMstat (o : Mm) (s : State) : Out := dispatchMe (.mstat o) [] [] s

/-! ## Steps of the package -/

/-- ARRAY_STEP: one step of a core's array (06 R151). -/
def execArrayStep (core : Fin 512) (s : State) : Out :=
  .next (atCore core (fun t => if t.core.regs.pend.me.isNone then (match t.me.run with
    | some r => if r.phase = 1 then runStep t r else t
    | none => t) else t) s)

/-- The source's MDRAIN.merge stands at the head of its queue. -/
def sendsTile (s : State) : Bool :=
  s.core.regs.pend.me.isNone && s.me.run.isNone && (match s.me.queue with
    | c :: _ => (match c.instr with
      | .mdrainMerge _ => true
      | _ => false)
    | [] => false)

/-- MERGE_TILE_ARRIVAL: the tile that a core sends reaches its target (06 R159). -/
def execMergeTileArrival (core : Fin 512) (s : State) : Out :=
  .next (atCore core (fun t => if sendsTile t && t.core.refused.isNone then meStep t else t) s)

/-- MERGE_RETRY: a refused tile is sent again (06 R159). -/
def execMergeRetry (core : Fin 512) (s : State) : Out :=
  .next (atCore core (fun t => if sendsTile t && t.core.refused.isSome then meStep t else t) s)

/-- A time that began at a cycle has lasted `BARTMO` cycles; 0 is no timeout (06 R160, 08 R255). -/
def timedOut (s : State) (since : Nat) : Bool :=
  let lim := s.die.bartmo.toNat
  lim != 0 && decide (since + lim ≤ s.now)

/-- MERGE_WAIT_TIMEOUT: a merging command has waited too long (06 R160). -/
def mergeWaitOver (s : State) : State :=
  match s.me.run with
  | some r =>
    if r.phase = 2 ∧ s.core.regs.pend.me.isNone ∧ !(awaitedMembers s r).isEmpty ∧ timedOut s r.since then
      let y := mergeRun s { r with since := s.now }
      meStop (y.1.setRun (some y.2)) (meCause r.cmd
        (failAt .stagetimeout ((awaitedMembers s r).foldl (fun n i => n + 2 ^ i) 0) 0) (meMpc 2 0 0 r.merged.toNat))
    else s
  | none => s

/-- MERGE_WAIT_TIMEOUT (06 R160). -/
def execMergeWaitTimeout (core : Fin 512) (s : State) : Out := .next (atCore core mergeWaitOver s)

/-- A source's tile has been refused too long (06 R160). -/
def mergeRefusedOver (s : State) : State :=
  match s.core.refused, s.me.queue with
  | some t, c :: _ =>
    if sendsTile s ∧ timedOut s t then
      meStop (s.modCore fun k => { k with refused := some s.now })
        (meCause c (failAt .stagetimeout (bits (c.vals.getD 0 0).toNat 0 3) 0) 0)
    else s
  | _, _ => s

/-- MERGE_REFUSED_TIMEOUT (06 R160). -/
def execMergeRefusedTimeout (core : Fin 512) (s : State) : Out := .next (atCore core mergeRefusedOver s)

end Sys2Proof.Machine
end

