-- ==== Sys2Proof/Machine/Barrier.lean ====
section
/-! DEFINITION. Stage barriers (08 R253-R256): the object, deliveries, and the BAR group. -/

namespace Sys2Proof.Machine

/-! ## The object (08 R253) -/

/-- The fields of a stage barrier. -/
structure BarObj where
  expect : Nat
  arrived : Nat
  phase : Bool
  overrun : Bool
  record : Nat
  pending : Int
  deriving DecidableEq, Repr

/-- The object in its 16 bytes. -/
def barOf (bs : List Byte) : BarObj :=
  { expect := leAt bs 0 2, arrived := leAt bs 2 2, phase := bit (leAt bs 4 1) 0, overrun := bit (leAt bs 5 1) 0,
    record := leAt bs 6 2, pending := (BitVec.ofNat 64 (leAt bs 8 8)).toInt }

/-- The 16 bytes of an object. -/
def barBytes (b : BarObj) : List Byte :=
  leBytes 2 b.expect ++ leBytes 2 b.arrived ++ leBytes 1 (if b.phase then 1 else 0) ++ leBytes 1 (if b.overrun then 1 else 0)
    ++ leBytes 2 b.record ++ leBytes 8 (BitVec.ofInt 64 b.pending).toNat

/-- The object at an offset of a core's scratchpad. -/
def barRead (s : State) (n : Fin 512) (off : Nat) : BarObj := barOf (spadBytes s (s.coreAt n) off 16)
/-- The object written. -/
def barWrite (s : State) (n : Fin 512) (off : Nat) (b : BarObj) : State := spadStore s (s.coreAt n) off (barBytes b)

/-- The phase is complete (08 R253). -/
def BarObj.complete (b : BarObj) : Bool := b.arrived == b.expect && b.pending == 0 && !b.overrun

/-- The valid entries of an arriver record (08 R256). -/
def barImports (s : State) (n : Fin 512) (b : BarObj) : List Import :=
  (List.range 16).filterMap fun i =>
    let e := leNat (spadBytes s (s.coreAt n) (128 * b.record + 4 * i) 4)
    if bit e 31 then some ⟨BitVec.ofNat 9 (bits e 15 9), BitVec.ofNat 15 (bits e 0 15)⟩ else none

/-- A core that holds in a `BARWAIT` on a barrier learns that its phase has completed, with what it will import. -/
def wakeWaiter (n : Fin 512) (off : Nat) (imports : List Import) (c : Core) : Core :=
  match c.regs.scc.barrier with
  | some (m, o, none) =>
    if m = n ∧ o = off then
      { c with regs := { c.regs with scc := { c.regs.scc with barrier := some (m, o, some imports) } } }
    else c
  | _ => c

/-- COMPLETECHECK (08 R253): the phase flips, and waiters that hold are told. -/
def completeCheck (s : State) (n : Fin 512) (off : Nat) : State :=
  let b := barRead s n off
  if b.complete then
    let l := if b.record = 0 then [] else barImports s n b
    let t := barWrite s n off { b with phase := !b.phase, arrived := 0 }
    { t with core := wakeWaiter n off l t.core, others := t.others.map fun e => (e.1, wakeWaiter n off l e.2) }
  else s

/-- A delivery of some bytes is counted: the state, and the excess where it overruns (08 R253). -/
def deliver (s : State) (n : Fin 512) (off bytes : Nat) : State × Option Nat :=
  let b := barRead s n off
  if b.pending < (bytes : Int) then
    (barWrite s n off { b with overrun := true }, some (bytes - b.pending).toNat)
  else (completeCheck (barWrite s n off { b with pending := b.pending - bytes }) n off, none)

/-- The first arrival of a phase clears the record; arrivals up to the 16th are recorded (08 R256). -/
def recordArrival (s : State) (n : Fin 512) (b : BarObj) (agent : Fin 512) (epoch : BitVec 15) : State :=
  if b.record = 0 then s
  else
    let c := s.coreAt n
    let t := if b.arrived = 0 then spadStore s c (128 * b.record) (List.replicate 64 0) else s
    if b.arrived < 16 then
      spadStore t c (128 * b.record + 4 * b.arrived) (leBytes 4 (2 ^ 31 + agent.val * 2 ^ 15 + epoch.toNat))
    else t

/-- An arrival of an agent: the state and the phase it was given to, or none where ARRIVED would exceed EXPECT; the
agent's epoch then increments (08 R254, R256, 07 R206). -/
def arrive (s : State) (n : Fin 512) (off : Nat) : Option (State × Bool) :=
  let b := barRead s n off
  if b.expect < b.arrived + 1 then none
  else
    let t := recordArrival s n b s.core.agent s.core.epoch
    some (bumpEpoch (completeCheck (barWrite t n off { b with arrived := b.arrived + 1 }) n off), b.phase)

/-! ## The BAR group (08 R254) -/

/-- A barrier's window address: own scratchpad or a member's; a global address raises XMISS (08 R253). -/
def barSpot (s : State) (a : Word) : Except Fail (Fin 512 × Nat) :=
  match classify s.core.agent a with
  | .spad o => .ok (s.core.agent, o)
  | .peer m o =>
    let t := peerAgent s.core.agent m
    (match peerCheck s t s.ctx a with
     | .ok _ => .ok (t, o)
     | .error e => .error e)
  | _ => .error (failAt .xmiss 0 a)

/-- A cause of the instruction that has just issued, precision D. -/
def lateScc (s : State) (idx : BitVec 24) (f : Fail) : State := addLate s ⟨f.cause, .scc, true, false, idx, 0, f.status, f.address⟩

/-- A barrier operation of the SCC: T-path operations keep program order, so it waits for an unsent `BARARR`; a bad
address raises; a poisoned object is an atomic's UEDATA (07 R177, 12 R355). -/
def barOp (rs : List SReg) (ra : SReg) (s : State) (f : State → Fin 512 → Nat → State) : Out :=
  sccOp rs s fun x =>
    let a := x.sreg ra
    if x.ord.release.any fun p => p.arrive then holds x
    else if a.toNat % 16 ≠ 0 then trap x (failAt .align 16 a)
    else
      match barSpot x a with
      | .error e => trap x e
      | .ok (n, off) =>
        if (spadPoison x (x.coreAt n) off 16).isSome then lateScc (retire x) x.scc.idx (failAt .uedata 0 (granuleOf a)) else f x n off

/-- BARINIT (08 R254). -/
def execBarinit (o : Sa) (s : State) : Out :=
  barOp [o.a, o.b] o.a s fun x n off =>
    let v := (x.sreg o.b).toNat
    if 2 ^ 32 ≤ v ∨ bits v 0 16 = 0 then illegal x
    else retire (barWrite x n off ⟨bits v 0 16, 0, false, false, bits v 16 16, 0⟩)

/-- BAREXP (08 R254). -/
def execBarexp (o : Sa) (s : State) : Out :=
  barOp [o.a, o.b] o.a s fun x n off =>
    let v := (x.sreg o.b).toNat
    if 2 ^ 40 ≤ v then illegal x
    else
      let b := barRead x n off
      retire (barWrite x n off { b with pending := b.pending + v })

/-- STAGEOVERRUN at a barrier, the excess in STATUS (08 R253, R254). -/
def stageOverrun (excess : Nat) (a : Word) : Fail := failAt .stageoverrun excess a

/-- BARARR: a release; where everything before it is performed it arrives at once, else it is unsent and the next
release holds (08 R254, 07 R396). -/
def execBararr (o : Sa) (s : State) : Out :=
  sccOp [o.d, o.a] s fun x =>
    if x.ord.release.isSome then holds x
    else
      let a := x.sreg o.a
      if a.toNat % 16 ≠ 0 then trap x (failAt .align 16 a)
      else
        match barSpot x a with
        | .error e => trap x e
        | .ok (n, off) =>
          if doneBefore x x.scc.idx && x.core.inOrder then
            (if (spadPoison x (x.coreAt n) off 16).isSome then lateScc (retire x) x.scc.idx (failAt .uedata 0 (granuleOf a))
             else
               match arrive x n off with
               | none => trap x (stageOverrun 1 a)
               | some (t, phase) => retire (t.setS o.d (if phase then 1 else 0)))
          else (retire x).modOrd fun r => { r with release := some ⟨true, o.d, .clearing, a, 0, x.scc.idx, none⟩ }

/-- What a `BARWAIT` that holds has been told: its phase completed while it held. -/
def woken (s : State) (n : Fin 512) (off : Nat) : Option (List Import) :=
  match s.scc.barrier with
  | some (m, o, l) => if m = n ∧ o = off then l else none
  | none => none

/-- The imports of a waiter whose phase was complete before it looked (08 R256). -/
def importPhase (s : State) (n : Fin 512) (b : BarObj) : State :=
  if b.record = 0 then s
  else if b.arrived = 0 then importAll s (barImports s n b)
  else s.modOrd fun o => { o with lost := true }

/-- BARWAIT (08 R254, R256): it holds until the phase differs from s[b][0]. -/
def execBarwait (o : Sa) (s : State) : Out :=
  barOp [o.a, o.b] o.a s fun x n off =>
    let b := barRead x n off
    match woken x n off with
    | some l => acquire (retire (importAll x l)) .clearing
    | none =>
      if b.overrun then trap x (stageOverrun 0 (x.sreg o.a))
      else if b.phase != (x.sreg o.b).getLsbD 0 then acquire (retire (importPhase x n b)) .clearing
      else (holds x).modScc fun r => { r with barrier := some (n, off, none) }

/-- BARTEST (08 R254, R256). -/
def execBartest (o : Sa) (s : State) : Out :=
  barOp [o.d, o.a, o.b] o.a s fun x n off =>
    let b := barRead x n off
    if b.overrun then trap x (stageOverrun 0 (x.sreg o.a))
    else if b.phase != (x.sreg o.b).getLsbD 0 then
      acquire (retire ((importPhase x n b).setS o.d 1)) .clearing
    else retire (x.setS o.d 0)

/-- STATUS of a `BARWAIT`'s STAGETIMEOUT (08 R255). -/
def timeoutStatus (b : BarObj) : Nat :=
  let p : Int := max (-(2 ^ 31 : Nat)) (min ((2 ^ 31 : Nat) - 1) b.pending)
  b.expect * 2 ^ 48 + b.arrived * 2 ^ 32 + (p % (2 ^ 32 : Nat)).toNat

/-- The window address of a barrier as its waiter names it: the register its BARWAIT reads. -/
def barWindow (s : State) (n : Fin 512) (off : Nat) : Word :=
  if n = s.core.agent then BitVec.ofNat 64 (0x8000000000000000 + off)
  else BitVec.ofNat 64 (0x8020000000000000 + memberOf n * 2 ^ 32 + off)

/-- The BARWAIT of the core in focus has held longer than `BARTMO`, and raises STAGETIMEOUT (08 R255). -/
def barTimeout (s : State) : State :=
  match s.scc.barrier, s.scc.hold with
  | some (n, off, none), some c =>
    let t := s.die.bartmo.toNat
    if t ≠ 0 ∧ t < s.now - c then
      trap s (failAt .stagetimeout (timeoutStatus (barRead s n off)) (barWindow s n off))
    else s
  | _, _ => s

/-- BARWAIT_TIMEOUT (08 R255). -/
def execBarwaitTimeout (core : Fin 512) (s : State) : Out := .next (atCore core barTimeout s)

/-- The pending release of the core in focus is sent once everything before it has been performed (07 R396). -/
def sendBararr (s : State) (p : PendingRel) : State :=
  match barSpot s p.addr with
  | .error e => lateScc (s.modOrd fun o => { o with release := none }) p.idx e
  | .ok (n, off) =>
    let t := s.modOrd fun o => { o with release := none }
    if (spadPoison t (t.coreAt n) off 16).isSome then lateScc t p.idx (failAt .uedata 0 (granuleOf p.addr))
    else
      match arrive t n off with
      | none => lateScc t p.idx (stageOverrun 1 p.addr)
      | some (u, phase) => u.setS p.reg (if phase then 1 else 0)

end Sys2Proof.Machine
end

