-- ==== Sys2Proof/Machine/Scalar.lean ====
section
/-! DEFINITION. Scalar arithmetic: the ALU group (05 R94), immediates (R95, R96), bit fields and shifts (R98-R100),
funnel shifts (R101), PLSET (R102), information (R106) and results (R107). -/

namespace Sys2Proof.Machine

/-! ## Operations on words -/

/-- Truth as a word. -/
def flagWord (b : Bool) : Word := if b then 1 else 0

/-- Bits [127:64] of a signed product (05 R94). -/
def mulHigh (a b : Word) : Word := BitVec.ofInt 64 (a.toInt * b.toInt / 2 ^ 64)

/-- Bits [127:64] of an unsigned product (05 R94). -/
def mulHighN (a b : Word) : Word := BitVec.ofNat 64 (a.toNat * b.toNat / 2 ^ 64)

/-- The signed quotient truncated toward zero; all ones by zero (05 R94). -/
def divS (a b : Word) : Word := if b = 0 then BitVec.allOnes 64 else BitVec.ofInt 64 (a.toInt.tdiv b.toInt)

/-- The unsigned quotient; all ones by zero (05 R94). -/
def divU (a b : Word) : Word := if b = 0 then BitVec.allOnes 64 else BitVec.ofNat 64 (a.toNat / b.toNat)

/-- The signed remainder, of the dividend's sign; the dividend by zero (05 R94). -/
def remS (a b : Word) : Word := if b = 0 then a else BitVec.ofInt 64 (a.toInt.tmod b.toInt)

/-- The unsigned remainder; the dividend by zero (05 R94). -/
def remU (a b : Word) : Word := if b = 0 then a else BitVec.ofNat 64 (a.toNat % b.toNat)

/-- Shift amounts are taken modulo 64 (05 R94). -/
def shiftAmount (b : Word) : Nat := b.toNat % 64

/-- `len` ones from bit `pos` on. -/
def fieldMask (pos len : Nat) : Word := BitVec.ofNat 64 ((2 ^ len - 1) * 2 ^ pos)

/-- The field a[pos+len-1:pos] (05 R99). -/
def fieldOf (a : Word) (pos len : Nat) : Word := (a >>> pos) &&& fieldMask 0 len

/-- The field sign-extended from its top bit (05 R99). -/
def fieldSigned (a : Word) (pos len : Nat) : Word :=
  let f := fieldOf a pos len
  if f.getLsbD (len - 1) then f ||| ~~~(fieldMask 0 len) else f

/-- Bits that b selects come from a, the others from d (05 R100). -/
def insertMasked (d a b : Word) : Word := (d &&& ~~~b) ||| (a &&& b)

/-- Leading zero bits among the low `n` bits, from the top (05 R100). -/
def leadingZeros (x : Word) : Nat → Nat
  | 0 => 0
  | n + 1 => if x.getLsbD n then 0 else 1 + leadingZeros x n

/-- Trailing zero bits of `x` from bit `i` on, at most `n` (05 R100). -/
def trailingZeros (x : Word) : Nat → Nat → Nat
  | 0, _ => 0
  | n + 1, i => if x.getLsbD i then 0 else 1 + trailingZeros x n (i + 1)

/-- Bit i moves to bit 63 - i (05 R100). -/
def reverseBits (x : Word) : Word :=
  BitVec.ofNat 64 ((List.range 64).foldl (fun n i => 2 * n + (if x.getLsbD i then 1 else 0)) 0)

/-- Byte i moves to byte 7 - i (05 R100). -/
def swapBytes (x : Word) : Word := BitVec.ofNat 64 (leNat (leBytes 8 x.toNat).reverse)

/-- The lowest zero bit set (05 R100). -/
def setLowestZero (a : Word) : Word := a ||| (a + 1)

/-- The number of one bits (05 R100). -/
def population (x : Word) : Nat := popc 64 x.toNat

/-- Bits that `b` offers, in ascending order, until the population reaches `lim` (05 R102). -/
def populate (b : Word) (lim : Nat) : Nat → Nat → Word → Word
  | 0, _, x => x
  | n + 1, i, x =>
    populate b lim n (i + 1)
      (if b.getLsbD i && !x.getLsbD i && decide (population x < lim) then x ||| BitVec.ofNat 64 (2 ^ i) else x)

/-- PLSET of 05 R102. -/
def plsetWord (a b : Word) (lim : Nat) : Word := populate b lim 64 0 a

/-- a : b shifted right by n, low 64 bits (05 R101). -/
def funnel (a b : Word) (n : Nat) : Word := BitVec.ofNat 64 ((a.toNat * 2 ^ 64 + b.toNat) / 2 ^ n)

/-! ## Operand forms -/

/-- An SA form that writes a function of s[a] and s[b]. -/
def aluOp (o : Sa) (s : State) (f : Word → Word → Word) : Out :=
  sccWrite o.d [o.a, o.b] s fun x => f (x.sreg o.a) (x.sreg o.b)

/-- An SA form that writes a function of s[a]. -/
def unaryOp (o : Sa) (s : State) (f : Word → Word) : Out := sccWrite o.d [o.a] s fun x => f (x.sreg o.a)

/-- An SI form whose immediate is sign-extended. -/
def immOp (o : Si) (s : State) (f : Word → Word → Word) : Out :=
  sccWrite o.d [o.a] s fun x => f (x.sreg o.a) (o.imm.signExtend 64)

/-- An SI form whose immediate is zero-extended. -/
def immOpZ (o : Si) (s : State) (f : Word → Word → Word) : Out :=
  sccWrite o.d [o.a] s fun x => f (x.sreg o.a) (o.imm.zeroExtend 64)

/-- An SF form that writes a function of s[a]. -/
def fieldOp (o : Sf) (s : State) (f : Word → Word) : Out := sccWrite o.d [o.a] s fun x => f (x.sreg o.a)

/-! ## ALU (05 R94) -/

/-- ADD (05 R94). -/
def execAdd (o : Sa) (s : State) : Out := aluOp o s fun a b => a + b

/-- SUB (05 R94). -/
def execSub (o : Sa) (s : State) : Out := aluOp o s fun a b => a - b

/-- MUL (05 R94). -/
def execMul (o : Sa) (s : State) : Out := aluOp o s fun a b => a * b

/-- MULH (05 R94). -/
def execMulh (o : Sa) (s : State) : Out := aluOp o s fun a b => mulHigh a b

/-- MULHN (05 R94). -/
def execMulhn (o : Sa) (s : State) : Out := aluOp o s fun a b => mulHighN a b

/-- DIV (05 R94). -/
def execDiv (o : Sa) (s : State) : Out := aluOp o s fun a b => divS a b

/-- DIVN (05 R94). -/
def execDivn (o : Sa) (s : State) : Out := aluOp o s fun a b => divU a b

/-- REM (05 R94). -/
def execRem (o : Sa) (s : State) : Out := aluOp o s fun a b => remS a b

/-- REMN (05 R94). -/
def execRemn (o : Sa) (s : State) : Out := aluOp o s fun a b => remU a b

/-- AND (05 R94). -/
def execAnd (o : Sa) (s : State) : Out := aluOp o s fun a b => a &&& b

/-- OR (05 R94). -/
def execOr (o : Sa) (s : State) : Out := aluOp o s fun a b => a ||| b

/-- XOR (05 R94). -/
def execXor (o : Sa) (s : State) : Out := aluOp o s fun a b => a ^^^ b

/-- ANDN (05 R94). -/
def execAndn (o : Sa) (s : State) : Out := aluOp o s fun a b => a &&& ~~~b

/-- SHL (05 R94). -/
def execShl (o : Sa) (s : State) : Out := aluOp o s fun a b => a <<< shiftAmount b

/-- SHR (05 R94). -/
def execShr (o : Sa) (s : State) : Out := aluOp o s fun a b => a >>> shiftAmount b

/-- SAR (05 R94). -/
def execSar (o : Sa) (s : State) : Out := aluOp o s fun a b => a.sshiftRight (shiftAmount b)

/-- MIN (05 R94). -/
def execMin (o : Sa) (s : State) : Out := aluOp o s fun a b => if b.slt a then b else a

/-- MAX (05 R94). -/
def execMax (o : Sa) (s : State) : Out := aluOp o s fun a b => if a.slt b then b else a

/-- MINN (05 R94). -/
def execMinn (o : Sa) (s : State) : Out := aluOp o s fun a b => if b < a then b else a

/-- MAXN (05 R94). -/
def execMaxn (o : Sa) (s : State) : Out := aluOp o s fun a b => if a < b then b else a

/-- SLT (05 R94). -/
def execSlt (o : Sa) (s : State) : Out := aluOp o s fun a b => flagWord (a.slt b)

/-- SLTN (05 R94). -/
def execSltn (o : Sa) (s : State) : Out := aluOp o s fun a b => flagWord (decide (a < b))

/-- SEQ (05 R94). -/
def execSeq (o : Sa) (s : State) : Out := aluOp o s fun a b => flagWord (a == b)

/-- SNE (05 R94). -/
def execSne (o : Sa) (s : State) : Out := aluOp o s fun a b => flagWord (a != b)

/-! ## Immediates (05 R95, R96) -/

/-- ADDI (05 R95). -/
def execAddi (o : Si) (s : State) : Out := immOp o s fun a i => a + i

/-- ANDI (05 R95). -/
def execAndi (o : Si) (s : State) : Out := immOpZ o s fun a i => a &&& i

/-- ORI (05 R95). -/
def execOri (o : Si) (s : State) : Out := immOpZ o s fun a i => a ||| i

/-- XORI (05 R95). -/
def execXori (o : Si) (s : State) : Out := immOpZ o s fun a i => a ^^^ i

/-- SLTI (05 R95). -/
def execSlti (o : Si) (s : State) : Out := immOp o s fun a i => flagWord (a.slt i)

/-- SLTNI (05 R95). -/
def execSltni (o : Si) (s : State) : Out := immOp o s fun a i => flagWord (decide (a < i))

/-- LDI (05 R95). -/
def execLdi (o : Si) (s : State) : Out := sccWrite o.d [] s fun _ => o.imm.signExtend 64

/-- LDIX (05 R96). -/
def execLdix (o : Sl) (s : State) : Out := sccWrite o.d [] s fun _ => o.imm.signExtend 64

/-- LDIX.hi (05 R96). -/
def execLdixHi (o : Sl) (s : State) : Out := sccWrite o.d [] s fun x => o.imm ++ (x.sreg o.d).setWidth 32

/-! ## Shifts and bit fields (05 R98, R99) -/

/-- SHLI (05 R98). -/
def execShli (o : Sf) (s : State) : Out := fieldOp o s fun a => a <<< o.pos.val

/-- SHRI (05 R98). -/
def execShri (o : Sf) (s : State) : Out := fieldOp o s fun a => a >>> o.pos.val

/-- SARI (05 R98). -/
def execSari (o : Sf) (s : State) : Out := fieldOp o s fun a => a.sshiftRight o.pos.val

/-- ROLI (05 R98). -/
def execRoli (o : Sf) (s : State) : Out := fieldOp o s fun a => a.rotateLeft o.pos.val

/-- EXT (05 R99). -/
def execExt (o : Sf) (s : State) : Out := fieldOp o s fun a => fieldSigned a o.pos.val (o.len6.val + 1)

/-- EXTN (05 R99). -/
def execExtn (o : Sf) (s : State) : Out := fieldOp o s fun a => fieldOf a o.pos.val (o.len6.val + 1)

/-- INS (05 R99). -/
def execIns (o : Sf) (s : State) : Out :=
  sccWrite o.d [o.a] s fun x =>
    insertMasked (x.sreg o.d) (x.sreg o.a <<< o.pos.val) (fieldMask o.pos.val (o.len6.val + 1))

/-- INSZ (05 R99). -/
def execInsz (o : Sf) (s : State) : Out :=
  fieldOp o s fun a => (a <<< o.pos.val) &&& fieldMask o.pos.val (o.len6.val + 1)

/-! ## Bits (05 R100-R102) -/

/-- INSM (05 R100). -/
def execInsm (o : Sa) (s : State) : Out :=
  sccWrite o.d [o.a, o.b] s fun x => insertMasked (x.sreg o.d) (x.sreg o.a) (x.sreg o.b)

/-- CLZ (05 R100). -/
def execClz (o : Sa) (s : State) : Out := unaryOp o s fun a => BitVec.ofNat 64 (leadingZeros a 64)

/-- CTZ (05 R100). -/
def execCtz (o : Sa) (s : State) : Out := unaryOp o s fun a => BitVec.ofNat 64 (trailingZeros a 64 0)

/-- POPC (05 R100). -/
def execPopc (o : Sa) (s : State) : Out := unaryOp o s fun a => BitVec.ofNat 64 (population a)

/-- BREV (05 R100). -/
def execBrev (o : Sa) (s : State) : Out := unaryOp o s reverseBits

/-- FFCS (05 R100). -/
def execFfcs (o : Sa) (s : State) : Out := unaryOp o s setLowestZero

/-- BSWAP (05 R100). -/
def execBswap (o : Sa) (s : State) : Out := unaryOp o s swapBytes

/-- FSHI (05 R101). -/
def execFshi (o : Sf2) (s : State) : Out :=
  sccWrite o.d [o.a, o.b] s fun x => funnel (x.sreg o.a) (x.sreg o.b) o.sh.val

/-- FSH (05 R101). -/
def execFsh (o : Sac) (s : State) : Out :=
  sccWrite o.d [o.a, o.b, o.c] s fun x => funnel (x.sreg o.a) (x.sreg o.b) (shiftAmount (x.sreg o.c))

/-- PLSET (05 R102). -/
def execPlset (o : Sf2) (s : State) : Out :=
  sccWrite o.d [o.a, o.b] s fun x => plsetWord (x.sreg o.a) (x.sreg o.b) o.sh.val

/-! ## Information (05 R106) and RES (05 R107) -/

/-- RDCYC: `CYCLE` of this die (05 R106). -/
def execRdcyc (o : Sa) (s : State) : Out := sccWrite o.d [] s fun x => x.die.cycle

/-- RDID: package number and agent number (05 R106). -/
def execRdid (o : Sa) (s : State) : Out :=
  sccWrite o.d [] s fun x => BitVec.ofNat 64 (x.pkg.toNat * 512 + x.core.agent.val)

/-- RDFEAT: `FEATON` (05 R106). -/
def execRdfeat (o : Sa) (s : State) : Out := sccWrite o.d [] s fun x => x.die.featon

/-- Every VE and ME command dispatched before has completed (05 R107). -/
def enginesDone (s : State) : Bool :=
  s.ve.queue.isEmpty && s.ve.recording.isNone && s.ve.loop.isNone && s.me.queue.isEmpty && s.me.run.isNone

/-- GETRES (05 R107): it waits for both engines, then reads `RES`. -/
def execGetres (o : Sa) (s : State) : Out :=
  if enginesDone s then sccWrite o.d [] s fun x => x.scc.res else .next (holds s)

end Sys2Proof.Machine
end

