-- ==== Sys2Proof/Machine/Branch.lean ====
section
/-! DEFINITION. Branches and jumps (05 R89-R91, R93, R103, R104). -/

namespace Sys2Proof.Machine

/-- A branch condition of 02 R49. -/
def condHolds (c : Cond) (a b : Word) : Bool :=
  match c with
  | .eq => a == b
  | .ne => a != b
  | .lt => a.slt b
  | .ge => !a.slt b
  | .ltn => decide (a < b)
  | .gen => decide (b ≤ a)
  | .any => a &&& b != 0
  | .none => a &&& b == 0

/-- The nullification of a branch that is taken or not (02 R49). -/
def nullifies (n : Nul) (taken : Bool) : Bool :=
  match n with
  | .never => false
  | .notTaken => !taken
  | .taken => taken
  | .always => true

/-- The flags of both delay slots set; a flag already set stays (05 R90). -/
def nullifySlots (s : State) (on : Bool) : State :=
  s.modScc fun r =>
    { r with
      pcq1 := { r.pcq1 with nul := r.pcq1.nul || on }
      pcq2 := { r.pcq2 with nul := r.pcq2.nul || on } }

/-- BADTARGET with the target in ADDRESS (12 R336). -/
def badTarget (s : State) (t : Word) : State := trap s (failAt .badtarget 0 t)

/-- A taken branch or jump to `t`: its target is checked, then enters the queue as the first lane there that is not
EMPTY (05 R89, R93). `f` is what the instruction does beside. -/
def takeTarget (s : State) (t : Word) (f : State → State) : State :=
  if !targetForm t || targetIsCont s t then badTarget s t
  else issued (advanceTo (f s) (BitVec.ofNat 64 (resolveAt s t.toNat)))

/-- The address of an instruction plus a displacement in 4-byte units (02 R48). -/
def branchTarget {n : Nat} (s : State) (disp : BitVec n) : Word := s.scc.pcq0.addr + (disp.signExtend 64 <<< 2)

/-- A conditional branch on two words (05 R103). -/
def branchOn (o : Sb) (s : State) (a b : Word) : State :=
  let taken := condHolds o.cond a b
  if taken then takeTarget s (branchTarget s o.disp) fun x => nullifySlots x (nullifies o.nul true)
  else issued (advance (nullifySlots s (nullifies o.nul false)))

/-- The register that the second operand field of a BC names. -/
def sbReg (o : Sb) : SReg := o.b.toFin

/-- BC (05 R103). -/
def execBc (o : Sb) (s : State) : Out :=
  sccOp [o.a, sbReg o] s fun x => branchOn o x (x.sreg o.a) (x.sreg (sbReg o))

/-- BCI (05 R103). -/
def execBci (o : Sb) (s : State) : Out := sccOp [o.a] s fun x => branchOn o x (x.sreg o.a) (o.b.signExtend 64)

/-- The return address: the lane that follows the jump's second delay slot (05 R104). -/
def returnAddress (s : State) : Word := BitVec.ofNat 64 (afterLane s s.scc.pcq2.addr.toNat)

/-- J (05 R104). -/
def execJ (o : Sj) (s : State) : Out :=
  sccOp [o.link] s fun x => takeTarget x (branchTarget x o.disp) fun y => y.setS o.link (returnAddress x)

/-- JR: the target is read before the link is written (05 R104). -/
def execJr (o : Sa) (s : State) : Out :=
  sccOp [o.d, o.a] s fun x => takeTarget x (x.sreg o.a) fun y => y.setS o.d (returnAddress x)

end Sys2Proof.Machine
end

