-- ==== Sys2Proof/Machine/Tasks.lean ====
section
/-! DEFINITION. The TASK group and SPAWNX (09 R266, R268, R274-R283). -/

namespace Sys2Proof.Machine

/-! ## Records read by the SCC -/

/-- An operand of the SCC lies in a page that is being copied. -/
def operandHeld (s : State) (need : Need) (a : Word) : Bool :=
  match locate s need a with
  | .ok (.hbm p) => heldByMigration s p.key
  | _ => false

/-- `n` bytes at an aligned address of global memory or a scratchpad window, in one granule; race detection and poison
raise at the instruction. -/
def readOperand (s : State) (a : Word) (n : Nat) : Except Fail (List Byte) :=
  match locate s .read a with
  | .error e => .error e
  | .ok (.hbm p) =>
    (match raceCheck s (actorOf s.core) p a with
     | .error e => .error e
     | .ok _ =>
       if (firstPoison s.poison (forwardKey s p.key) n).isSome then .error (failAt .poison 0 (granuleOf a))
       else .ok (readHbm s (dieOf s.core.agent) s.ctx p n false))
  | .ok (.spad c off) =>
    if (spadPoison s (s.coreAt c) off n).isSome then .error (failAt .poison 0 (granuleOf a))
    else .ok (spadBytes s (s.coreAt c) off n)
  | .ok (.acc _) => .error (failAt .xmiss 0 a)

/-! ## The task store (09 R257) -/

/-- Records of a die's store; with `kept`, those that BUFPASS and LOAD deliveries create. -/
def storeCount (s : State) (d : Fin 8) (kept : Bool) : Nat :=
  let here (t : Task) : Bool := (t.inbound != 0) == kept
  let waits := s.tasks.filter fun e => here e.task && (match e.place with
    | .ready c _ _ _ => dieOf c == d
    | .stage c => dieOf c == d
    | .parked x _ => x == d
    | .taken x => x == d
    | .waitsPred => false)
  let runs := (dieCores d).filter fun n => (s.coreAt n).task.any here
  waits.length + runs.length

/-- A record is free for a SPAWN or a split. -/
def storeFree (s : State) (d : Fin 8) : Bool := decide (storeCount s d false < 61440)

/-- A record is free for a BUFPASS or a LOAD delivery. -/
def storeFreeKept (s : State) (d : Fin 8) : Bool :=
  decide (storeCount s d true < 4096) || decide (storeCount s d false + storeCount s d true < 65536)

/-! ## SPAWN and SPAWNX (09 R275, R276) -/

/-- What a spawn asks for. -/
structure SpawnReq where
  stage : Nat
  prio : Nat
  stealx : Bool
  stealp : Bool
  fwd : Bool
  lo : Nat
  hi : Nat
  anchor : Word
  arg : Word
  /-- reserved bits, CODE, INBOUND and SERIAL are as they must be -/
  clean : Bool
  deriving DecidableEq, Repr

/-- The flags of a task's launch; a handler task has none. -/
def launchFlags (s : State) (t : Task) : Bool × Bool × Bool :=
  match s.launchOf t with
  | some l => (l.stealx, l.stealp, l.fwd)
  | none => (false, false, false)

/-- A record image (09 R257, R275): CODE must be the spawner's, INBOUND 0 and reserved bits zero. -/
def imageReq (s : State) (t : Task) (bs : List Byte) : SpawnReq :=
  let f := launchFlags s t
  let w := leAt bs 0x0A 2
  { stage := leAt bs 8 1, prio := bits (leAt bs 9 1) 0 2, stealx := bit w 0 && f.1, stealp := bit w 1 && f.2.1,
    fwd := bit w 2 && f.2.2, lo := leAt bs 0x10 8, hi := leAt bs 0x18 8, anchor := BitVec.ofNat 64 (leAt bs 0x20 8),
    arg := BitVec.ofNat 64 (leAt bs 0x28 8),
    clean := leAt bs 0 8 == t.code.toNat && leAt bs 9 1 < 4 && w < 8 && leAt bs 0x0E 2 == 0 && leAt bs 0x38 8 == 0 }

/-- A spawn that ILLEGAL turns away (09 R275). -/
def SpawnReq.bad (r : SpawnReq) (t : Task) : Bool :=
  !r.clean || decide (t.obj.stageCount ≤ r.stage) || decide (r.hi < r.lo) || decide (2 ^ 48 < r.hi)

/-- The child's record. -/
def SpawnReq.child (r : SpawnReq) (s : State) (t : Task) : Task :=
  { childOf t r.stage r.prio r.lo r.hi r.anchor r.arg t.childJoin with
    stealx := r.stealx, stealp := r.stealp, fwd := r.fwd,
    spawner := some ⟨BitVec.ofNat 9 s.core.agent.val, s.core.epoch⟩ }

/-- Everything a spawn waits for: it is a release, and its join and the task store have room (09 R275). -/
def spawnReady (s : State) (t : Task) : Bool :=
  allDone s && storeFree s (dieOf s.core.agent) && decide ((s.joinAt t.childJoin).expected < 2 ^ 24 - 1)

/-- A spawn: a release, then the child is placed, or forwarded to its anchor's die, which numbers it (09 R259, R275). -/
def spawn (s : State) (d : SReg) (t : Task) (r : SpawnReq) : State :=
  if r.bad t then illegal s
  else if !spawnReady s t then holds s
  else if r.lo = r.hi then retire ((bumpEpoch s).setS d 0)
  else
    let die := dieOf s.core.agent
    let c := withJoin (bumpEpoch (s.expect t.childJoin)) (r.child s t)
    match forwardDie s die c.2 with
    | some o =>
      let x := c.1.modDie o fun y => { y with forwarded := y.forwarded ++ [(c.2, some s.core.agent)] }
      holds (x.modScc fun y => { y with sent := true, answer := none })
    | none =>
      let p := placeHere c.1 die (clearingOf s.core.agent) c.2
      retire (p.1.setS d (p.2.setWidth 64))

/-- A spawn that has been forwarded waits for the number of its child (09 R275). -/
def spawnAnswer (s : State) (d : SReg) : State :=
  match s.scc.answer with
  | none => holds s
  | some id => retire ((s.modScc fun x => { x with sent := false, answer := none }).setS d id)

/-- SPAWN (09 R275). -/
def execSpawn (o : Sa) (s : State) : Out :=
  sccOp [o.d, o.a] s fun x =>
    match x.core.task with
    | none => x
    | some t =>
      if x.scc.sent then spawnAnswer x o.d
      else
        let a := x.sreg o.a
        if a.toNat % 64 ≠ 0 then trap x (failAt .align 64 a)
        else if operandHeld x .read a then holds x
        else
          match readOperand x a 64 with
          | .error e => trap x e
          | .ok bs => spawn x o.d t (imageReq x t bs)

/-- SPAWNX (09 R276). -/
def execSpawnx (o : Sac) (s : State) : Out :=
  sccOp [o.d, o.a, o.b, o.c, o.e] s fun x =>
    match x.core.task with
    | none => x
    | some t =>
      if x.scc.sent then spawnAnswer x o.d
      else
        let f := launchFlags x t
        spawn x o.d t
          { stage := bits o.fl6.val 0 2, prio := bits o.fl6.val 2 2, stealx := t.stealx, stealp := t.stealp,
            fwd := bit o.fl6.val 4 && f.2.2, lo := (x.sreg o.a).toNat, hi := (x.sreg o.b).toNat, anchor := x.sreg o.c,
            arg := x.sreg o.e, clean := !bit o.fl6.val 5 }

/-! ## Joins -/

/-- JOINWAIT (09 R277). -/
def execJoinwait (o : Sa) (s : State) : Out :=
  sccOp [o.d, o.a] s fun x =>
    match x.core.task with
    | none => x
    | some t =>
      let j := x.joinAt t.childJoin
      if !j.settled then holds x
      else
        let y := importAll (x.modJoin t.childJoin fun _ => ⟨0, 0, 0, 0, []⟩) (j.enders.take 16)
        let z := if 16 < j.enders.length then y.modOrd fun r => { r with lost := true } else y
        let w := z.setS o.d (BitVec.ofNat 64 (j.failed % 2 ^ 32 * 2 ^ 32 + j.ended % 2 ^ 32))
        acquire (retire (w.setS o.a (if j.failed = 0 then 0 else j.first))) .package

/-! ## YIELD and DONE -/

/-- The running task returns to the tail of its core's queue at its priority (09 R273). -/
def requeue (s : State) (n : Fin 512) (t : Task) (i : Image) : State :=
  yreqScan { s with tasks := s.tasks ++ [⟨t, .ready n s.dies[dieOf n].cycle.toNat 0 t.prio, some i⟩] } (dieOf n)

/-- Where a task whose run ends with a save goes: park queue 14 when it was asked to park, else its ready queue
(09 R273, 12 R348). -/
def placeSaved (s : State) (n : Fin 512) (t : Task) (i : Image) (asked : Bool) : State :=
  if asked then parkAnswered { s with tasks := s.tasks ++ [⟨t, .parked (dieOf n) 14, some i⟩] } t.id else requeue s n t i

/-- Everything a YIELD waits for (09 R278, 12 R346, R352). -/
def yieldReady (s : State) : Bool :=
  s.ord.flights.isEmpty && (veWaiting s).isEmpty && s.ve.recording.isNone && s.ve.loop.isNone && (meWaiting s).isEmpty
    && s.cp.queue.isEmpty && s.cp.copies.all (fun c => c.phase == .sent && !c.cmd.isLocal) && s.core.regs.pend.all.isEmpty

/-- YIELD (09 R278): with YREQ clear it does nothing; where the save area has no room it completes without saving. -/
def execYield (o : Sa) (s : State) : Out :=
  sccOp [o.a] s fun x =>
    let sel := (x.sreg o.a).toNat
    if 4 ≤ sel then illegal x
    else if x.core.yreq.isNone then retire x
    else if !yieldReady x then holds x
    else
      match x.core.task with
      | none => x
      | some t =>
        let n := x.core.agent
        let asked := x.core.parkReq
        match saveTask (retire x) t (bit sel 0) (bit sel 1) false 0 0 none with
        | none => retire x
        | some (y, i) => placeSaved y n t i asked

/-- The running task ends as a success, as `DONE` ends it (09 R279). -/
def finishTask (s : State) (t : Task) : State :=
  let by_ : Import := ⟨BitVec.ofNat 9 s.core.agent.val, s.core.epoch⟩
  parkAnswered (bumpEpoch (endTask s t none (some by_))) t.id

/-- DONE (09 R279). -/
def execDone (_o : Sa) (s : State) : Out :=
  .next (if !allDone s then holds s
    else
      match s.core.task with
      | none => s
      | some t => finishTask s t)

/-! ## Bounds and launches -/

/-- TBOUND (09 R280): a claim while a `VLOOP.live` runs is ILLEGAL (R263). -/
def execTbound (o : Sa) (s : State) : Out :=
  sccOp [o.d, o.a] s fun x =>
    match x.core.task with
    | none => x
    | some t =>
      let claim := (x.sreg o.a).toNat
      if claim ≠ 0 ∧ x.ve.loop.any (·.live) then illegal x
      else
        let y := if claim ≤ t.hi then x.modTask fun t => { t with cur := max t.cur claim } else x
        retire (y.setS o.d (BitVec.ofNat 64 t.hi))

/-- HINTNEXT (09 R281). -/
def execHintnext (_o : Sa) (s : State) : Out :=
  .next (retire (match s.core.task.bind (·.launch) with
    | some n => { s with launches := s.launches.modify n fun l => { l with hinted := true } }
    | none => s))

/-- The predecessor of a launch has completed, or counted as completed when the launch was accepted (09 R281). -/
def predDone (s : State) (l : Launch) : Bool :=
  match l.pred with
  | none => true
  | some p =>
    match s.launches[p]? with
    | some q => q.complete
    | none => true

/-- WAITPRED (09 R282). -/
def execWaitpred (_o : Sa) (s : State) : Out :=
  .next (match s.core.task.bind fun t => s.launchOf t with
    | none => retire s
    | some l =>
      if !l.hasPred then retire s
      else if !predDone s l then holds s
      else acquire (retire (s.modOrd fun r => { r with floor := l.predSerial + 1 })) .package)

/-! ## Buffers (09 R266, R283) -/

/-- The pool buffer of a handle, while its generation stands. -/
def poolBuf (c : Core) (h : Handle) : Option PoolBuf := c.pool.find? fun b => b.off == h.off && b.gen == h.gen

/-- The handle a word names, in its 64 bits. -/
def handleOf (w : Word) : Handle := ⟨BitVec.ofNat 32 (bits w.toNat 32 32), bits w.toNat 0 23⟩

/-- The task holds a handle and its generation stands. -/
def holdsHandle (c : Core) (t : Task) (w : Word) : Bool :=
  t.handles.any (fun h => h.toWord == w) && (poolBuf c (handleOf w)).isSome

/-- A handle added to the task's. -/
def addHandle (s : State) (h : Handle) : State := s.modTask fun t => { t with handles := t.handles ++ [h] }

/-- A handle taken from the task's. -/
def dropHandle (s : State) (w : Word) : State :=
  s.modTask fun t => { t with handles := t.handles.filter fun h => h.toWord != w }

/-- The inbound buffer taken: its window address, an acquire at CORE scope, the passer imported. -/
def takeInbound (s : State) (d : SReg) (t : Task) : State :=
  let h := handleOf t.inbound
  match poolBuf s.core h with
  | none => illegal s
  | some b =>
    if !b.landed then holds s
    else
      let x := importAll (addHandle (s.modTask fun t => { t with taken := true }) h) b.passer.toList
      retire (x.setS d (BitVec.ofNat 64 (0x8000000000000000 + h.off)))

/-- A free buffer of the task's stage taken from the pool, or a hold until one is free. -/
def allocBuffer (s : State) (d : SReg) (t : Task) : State :=
  match s.core.pool.find? fun b => some b.launch == t.launch && b.stage == t.stage && b.free with
  | none => holds s
  | some b =>
    let h : Handle := ⟨b.gen, b.off⟩
    let x := s.modCore fun c =>
      { c with pool := c.pool.map fun y => if y.off == b.off && y.gen == b.gen then { y with free := false } else y }
    retire ((addHandle x h).setS d h.toWord)

/-- BUFTAKE (09 R283, 12 R352). -/
def execBuftake (o : Sa) (s : State) : Out :=
  sccOp [o.d, o.a] s fun x =>
    match x.core.task with
    | none => x
    | some t =>
      let w := x.sreg o.a
      if 16 ≤ t.handles.length then illegal x
      else if w = 0 then allocBuffer x o.d t
      else if w = t.inbound ∧ !t.taken then takeInbound x o.d t
      else illegal x

/-- Tasks of a launch's stage that wait on a core: the handles in the queue before that stage. -/
def queuedHandles (s : State) (n : Fin 512) (launch : Option Nat) (stage : Nat) : Nat :=
  (s.tasks.filter fun e => e.task.launch == launch && e.task.stage == stage && (match e.place with
    | .ready c _ _ _ => c == n
    | .stage c => c == n
    | _ => false)).length

/-- The queue after a stage is at its bound. -/
def queueFull (s : State) (n : Fin 512) (t : Task) (stage : Nat) : Bool :=
  match t.obj.stages[stage]? with
  | some x => decide (x.bound ≤ queuedHandles s n t.launch (stage + 1))
  | none => false

/-- A buffer's data has landed and a task of the next stage is queued on the core (09 R266, R283). -/
def passBuffer (s : State) (n : Fin 512) (t : Task) (h : Handle) (lo hi stage : Nat) (passer : Option Import) : State :=
  let s1 := s.setCoreAt n (let c := s.coreAt n
    { c with pool := c.pool.map fun b =>
        if b.off == h.off && b.gen == h.gen then { b with free := false, landed := true, passer := passer } else b })
  let r := nextNumber (s1.expect t.join) (dieOf n) t.launch
  let u := withJoin r.1 { childOf t stage t.prio lo hi t.anchor t.arg t.join with
    id := taskId t.serial (dieOf n) r.2, inbound := h.toWord }
  enqueue u.1 u.2 n

/-- A pass that ILLEGAL turns away (09 R283). -/
def badPass (c : Core) (t : Task) (w : Word) : Bool :=
  !holdsHandle c t w ||
    (match t.obj.stages[t.stage]?, t.obj.stages[t.stage + 1]? with
     | some x, some y => y.role == .store && y.bufBytes != x.bufBytes
     | _, _ => true)

/-- BUFPASS (09 R283): a release at CORE scope; it holds while the queue is at its bound. -/
def execBufpass (o : Sa) (s : State) : Out :=
  sccOp [o.a] s fun x =>
    match x.core.task with
    | none => x
    | some t =>
      let w := x.sreg o.a
      if badPass x.core t w then illegal x
      else if !allDone x || queueFull x x.core.agent t t.stage || !storeFreeKept x (dieOf x.core.agent) then holds x
      else
        let by_ : Import := ⟨BitVec.ofNat 9 x.core.agent.val, x.core.epoch⟩
        let y := passBuffer (dropHandle x w) x.core.agent t (handleOf w) t.lo t.hi (t.stage + 1) (some by_)
        retire (bumpEpoch y)

/-- BUFFREE (09 R283). -/
def execBuffree (o : Sa) (s : State) : Out :=
  sccOp [o.a] s fun x =>
    match x.core.task with
    | none => x
    | some t =>
      let w := x.sreg o.a
      if !holdsHandle x.core t w then illegal x
      else retire ((dropHandle x w).modCore fun c => freeBuffer c (handleOf w))

end Sys2Proof.Machine
end

