-- ==== Sys2Proof/Machine/Control.lean ====
section
/-! DEFINITION. Control registers (11 R310-R313, R325, R326; 04 R77, R82, R83; 08 R213, R227; 12 R338-R340, R348,
R357, R361): reads and writes by `MFCR` and `MTCR`, by the host's window, and as steps of their own. -/

namespace Sys2Proof.Machine

/-! ## Registers that writes share -/

/-- A write that leaves a reserved bit nonzero leaves the register unchanged (11 R311, R313). -/
def keepUnless (mask old v : Word) : Word := if v &&& ~~~mask = 0 then v else old

/-- AFFTAB: bit 3 of every nibble is zero (11 R311). -/
def afftabMask : Word := 0x7777777777777777

/-- A hash mask keeps the one-to-one map (11 R325). -/
def hashmaskOk (i : Nat) (v : Word) : Bool :=
  bits v.toNat 8 6 == 2 ^ i && bits v.toNat 0 8 == 0 && bits v.toNat 36 28 == 0

/-- HASHMASKi written (11 R325). -/
def writeHashmask (s : State) (d : Fin 8) (i : Fin 6) (v : Word) : State :=
  if hashmaskOk i.val v then s.modDie d fun x => { x with hashmask := x.hashmask.set i v } else s

/-- CHKCTL written: the count is cleared, reserved bits stay zero (12 R357). -/
def writeChkctl (s : State) (d : Fin 8) (v : Word) : State := s.modDie d fun x => { x with chkctl := v &&& 0xFF01 }

/-- POISONLOG written: any write clears it (12 R357). -/
def writePoisonlog (s : State) (d : Fin 8) (_v : Word) : State := s.modDie d fun x => { x with poisonlog := 0 }

/-- The watchdog's reload value in cycles (12 R361). -/
def wdogReload (ctl : Word) : Nat := bits ctl.toNat 32 32 * 65536

/-- WDOGCTL written: STAGE is read-only, and the count reloads when EN goes from 0 to 1 (12 R361). -/
def writeWdogctl (s : State) (d : Fin 8) (v : Word) : State :=
  s.modDie d fun x =>
    let w := (v &&& 0xFFFFFFFF00000001) ||| (x.wdogctl &&& 2)
    { x with
      wdogctl := w
      wdogCount := if w.getLsbD 0 && !x.wdogctl.getLsbD 0 then wdogReload w else x.wdogCount }

/-- The one write of FEATACCEPT per die reset (11 R326). -/
def acceptFeatures (s : State) (d : Fin 8) (v : Word) : State :=
  s.modDie d fun x => if x.featWritten then x else { x with featWritten := true, featon := v &&& 0x1F }

/-- An action entry from its 16 bytes; a malformed one is not taken (12 R339, R340). -/
def parseAct (bs : List Byte) : Option ActEntry :=
  let a := leAt bs 0 1
  let f := leAt bs 2 1
  let q := leAt bs 3 1
  let h := leAt bs 8 8
  let act (n : Nat) : Action := match n with | 0 => .kill | 1 => .replay | 2 => .park | _ => .forward
  if a < 4 ∧ f < 4 ∧ f ≠ 1 ∧ q < 16 ∧ leAt bs 4 4 = 0 ∧ ((a = 3 ∨ f = 3) → h ≠ 0) then
    some ⟨act a, leAt bs 1 1, act f, Fin.ofNat 16 q, BitVec.ofNat 64 h⟩
  else none

/-- The entries of a recovery block; codes without one keep their default (12 R340). -/
def loadActs (s : State) (k : Nat) : List (Nat × ActEntry) :=
  (List.range 27).filterMap fun i => (parseAct (s.bytes (k + 16 * (i + 1)) 16)).map fun e => (i + 1, e)

/-- ACTBASE written: reserved bits stay zero, and with V the die's copy of the entries is loaded (12 R338, R340). -/
def writeActbase (s : State) (d : Fin 8) (c : Fin 64) (v : Word) : State :=
  let w := v &&& 0xE00FFFFFFFFFFC01
  let t := s.setCtxAt d c { s.ctxAt d c with actbase := w }
  match blockKey t d c with
  | none => t.setCtxAt d c { t.ctxAt d c with acts := [] }
  | some k => t.setCtxAt d c { t.ctxAt d c with acts := loadActs t k }

/-! ## PARKASK (11 R311, 09 R270, 12 R348) -/

/-- The die that numbered a task (09 R257). -/
def numberedBy (id : BitVec 32) : Fin 8 := Fin.ofNat 8 (bits id.toNat 21 3)

/-- The core on which a task of an id runs. -/
def runsOn (s : State) (id : BitVec 32) : Option (Fin 512) :=
  (List.finRange 512).find? fun n => (s.coreAt n).task.any fun t => t.id == id

/-- A ready task goes to park queue 14 of the die where it waits, without running (12 R348). -/
def parkReady (s : State) (id : BitVec 32) : State :=
  { s with tasks := (s.tasks.filter fun e => !(e.task.id == id)) ++
      ((s.tasks.filter fun e => e.task.id == id).map fun e =>
        match e.place with
        | .ready c _ _ _ => { e with place := .parked (dieOf c) 14 }
        | _ => e) }

/-- A task of an id waits to run. -/
def waitsReady (s : State) (id : BitVec 32) : Bool :=
  s.tasks.any fun e => e.task.id == id && (match e.place with
    | .ready _ _ _ _ => true
    | _ => false)

/-- A task of an id is there at all. -/
def taskExists (s : State) (id : BitVec 32) : Bool := (runsOn s id).isSome || s.tasks.any fun e => e.task.id == id

/-- A task is parked. -/
def isParked (s : State) (id : BitVec 32) : Bool :=
  s.tasks.any fun e => e.task.id == id && (match e.place with
    | .parked _ _ => true
    | .taken _ => true
    | _ => false)

/-- A park request (11 R311): a ready task parks, a running one gets YREQ. -/
def parkAsk (s : State) (d : Fin 8) (v : Word) : State :=
  if v.toNat / 2 ^ 32 ≠ 0 then s
  else
    let id : BitVec 32 := v.setWidth 32
    if numberedBy id = d ∧ taskExists s id then
      let s1 := s.modDie d fun x => { x with parkask := v }
      if waitsReady s1 id then parkReady s1 id
      else if isParked s1 id then s1
      else
        let s2 := s1.modDie d fun x => { x with parkReqs := if x.parkReqs.contains id then x.parkReqs else x.parkReqs ++ [id] }
        match runsOn s2 id with
        | some n => raiseYreq s2 n true
        | none => s2
    else s.modDie d fun x => { x with parkask := v ||| 0x200000000 }

/-- PARKASK as it reads: PENDING while the last task named has been neither parked nor ended. -/
def parkaskWord (d : Die) : Word :=
  d.parkask ||| (if d.parkReqs.contains (d.parkask.setWidth 32) then 0x100000000 else 0)

/-- PARKHEAD (12 R348). -/
def parkheadWord (s : State) (d : Fin 8) : Word :=
  BitVec.ofNat 64 ((List.range 16).foldl (fun m q =>
    if s.tasks.any fun e => e.place == .parked d (Fin.ofNat 16 q) then m + 2 ^ q else m) 0)

/-! ## Die and context registers -/

/-- A die or context register as it reads (11 R310); none for a number in no row. -/
def dieReg (s : State) (d : Fin 8) (n : Nat) : Option Word :=
  let x := s.dies[d]
  if 0x4000 ≤ n then
    if n < 0x5000 then
      let r := s.ctxAt d (Fin.ofNat 64 ((n - 0x4000) / 64))
      match n % 64 with
      | 0 => some r.ptbase
      | 1 => some r.actbase
      | 2 => some r.peermask
      | 3 => some r.migthresh
      | 4 => some r.sqbase
      | 5 => some r.sqrange
      | _ => none
    else none
  else
    match n with
    | 0x100 | 0x101 | 0x102 | 0x103 | 0x104 | 0x105 | 0x106 | 0x107 => some (x.afftab.toList.getD (n - 0x100) 0)
    | 0x108 => some 0x1F
    | 0x109 => some x.featon
    | 0x10A | 0x10B | 0x10C | 0x10D | 0x10E | 0x10F => some (x.hashmask.toList.getD (n - 0x10A) 0)
    | 0x110 => some x.dlrtimer
    | 0x111 => some x.holdlim
    | 0x112 => some x.bartmo
    | 0x113 => some x.agemax
    | 0x114 => some x.tclim
    | 0x115 => some x.mighold
    | 0x116 => some x.chkctl
    | 0x117 => some x.poisonlog
    | 0x118 => some x.wdogctl
    | 0x119 => some (parkheadWord s d)
    | 0x11A => some x.bridge.dlrmoves
    | 0x11B => some x.framepool
    | 0x11C => some (parkaskWord x)
    | 0x11D => some x.taskstore
    | 0x11E => some x.savearea
    | 0x11F => some x.savelen
    | 0x120 => some x.dielog
    | 0x121 => some x.rtagbase
    | 0x122 => some x.rtagwin
    | _ => none

/-- A write of a context register (11 R311). -/
def writeCtxReg (s : State) (d : Fin 8) (c : Fin 64) (i : Nat) (v : Word) : State :=
  let r := s.ctxAt d c
  match i with
  | 0 => s.setCtxAt d c { r with ptbase := keepUnless 0xE00FFFFFFFFFE001 r.ptbase v }
  | 1 => writeActbase s d c v
  | 2 => s.setCtxAt d c { r with peermask := keepUnless 0xFFFF7FFFFFFF7FFF r.peermask v }
  | 3 => s.setCtxAt d c { r with migthresh := v }
  | 4 => s.setCtxAt d c { r with sqbase := keepUnless 0xFFFFFFFFFFFFFFC0 r.sqbase v }
  | 5 =>
    let hi := bits v.toNat 16 15
    let lo := bits v.toNat 0 14
    if v &&& ~~~(0x7FFF3FFF : Word) = 0 ∧ hi ≤ 16384 ∧ lo ≤ hi then s.setCtxAt d c { r with sqrange := v } else s
  | _ => s

/-- A write of a die or context register (11 R310-R313); read-only ones ignore it. -/
def writeDieReg (s : State) (d : Fin 8) (n : Nat) (v : Word) : State :=
  if 0x4000 ≤ n then
    if n < 0x5000 then writeCtxReg s d (Fin.ofNat 64 ((n - 0x4000) / 64)) (n % 64) v else s
  else
    match n with
    | 0x100 | 0x101 | 0x102 | 0x103 | 0x104 | 0x105 | 0x106 | 0x107 =>
      let i : Fin 8 := Fin.ofNat 8 (n - 0x100)
      s.modDie d fun x => { x with afftab := x.afftab.set i (keepUnless afftabMask x.afftab[i] v) }
    | 0x109 => acceptFeatures s d v
    | 0x10A | 0x10B | 0x10C | 0x10D | 0x10E | 0x10F => writeHashmask s d (Fin.ofNat 6 (n - 0x10A)) v
    | 0x110 => s.modDie d fun x => { x with dlrtimer := v }
    | 0x111 => s.modDie d fun x => { x with holdlim := v }
    | 0x112 => s.modDie d fun x => { x with bartmo := v }
    | 0x113 => s.modDie d fun x => { x with agemax := v }
    | 0x114 => s.modDie d fun x => { x with tclim := v &&& 0x3FF }
    | 0x115 => s.modDie d fun x => { x with mighold := keepUnless 0xFFFFFFFF x.mighold v }
    | 0x116 => writeChkctl s d v
    | 0x117 => writePoisonlog s d v
    | 0x118 => writeWdogctl s d v
    | 0x11B => s.modDie d fun x => { x with framepool := keepUnless 0x000FFFFFFFFFF001 x.framepool v }
    | 0x11C => parkAsk s d v
    | 0x11D => s.modDie d fun x => { x with taskstore := keepUnless 0x000FFFFFFFC00001 x.taskstore v }
    | 0x11E => s.modDie d fun x => { x with savearea := keepUnless 0x000FFFFFFFFF0000 x.savearea v }
    | 0x11F => s.modDie d fun x => { x with savelen := keepUnless 0x000000FFFFFF0000 x.savelen v }
    | 0x120 => s.modDie d fun x =>
        if bits v.toNat 0 4 ≤ 10 then { x with dielog := keepUnless 0x000FFFFFFFFFF00F x.dielog v } else x
    | 0x121 => s.modDie d fun x => { x with rtagbase := keepUnless 0x000FFFFFFFFFF001 x.rtagbase v }
    | 0x122 => s.modDie d fun x =>
        if bits v.toNat 0 16 + bits v.toNat 32 16 ≤ 65536 then { x with rtagwin := keepUnless 0x0000FFFF0000FFFF x.rtagwin v }
        else x
    | _ => s

/-! ## Task and core registers -/

/-- TTCFG written: SZ 7 leaves that field; the table is cleared (08 R227). -/
def writeTtcfg (c : Core) (v : Word) : Core :=
  let sz := if bits v.toNat 0 3 = 7 then bits c.ttcfg.toNat 0 3 else bits v.toNat 0 3
  { c with ttcfg := BitVec.ofNat 64 (bits v.toNat 12 11 * 4096 + sz), ttab := [], hand := 0 }

/-- BFMTn written (08 R213). -/
def writeBfmt (c : Core) (b : Fin 32) (v : Word) : Core := { c with bfmt := c.bfmt.set b (v &&& 0x7F) }

/-- FPCTL written: DRM 5 to 7 leaves that field (04 R82). -/
def writeFpctl (old v : Word) : Word :=
  let drm := if 5 ≤ bits v.toNat 0 3 then bits old.toNat 0 3 else bits v.toNat 0 3
  BitVec.ofNat 64 (bits v.toNat 3 2 * 8 + drm)

/-- STATUS in a view (11 R311). -/
def statusWord (s : State) : Word :=
  (if s.core.parkReq && s.isPriv then 0x100 else 0) ||| (if s.isPriv then 2 else 0) ||| (if s.core.yreq.isSome then 1 else 0)

/-- A task or core register as it reads (11 R310). -/
def coreReg (s : State) (n : Nat) : Option Word :=
  let a := s.core.agent.val
  if 0x20 ≤ n ∧ n < 0x40 then some (s.core.bfmt.toList.getD (n - 0x20) 0)
  else
    match n with
    | 0x00 => some ((s.core.task.map fun t => t.id.setWidth 64).getD 0)
    | 0x01 => some (BitVec.ofNat 64 ((s.core.task.map (·.lo)).getD 0))
    | 0x02 => some (BitVec.ofNat 64 ((s.core.task.map (·.hi)).getD 0))
    | 0x03 => some (BitVec.ofNat 64 ((s.core.task.map (·.stage)).getD 0))
    | 0x04 => some (BitVec.ofNat 64 (a % 64))
    | 0x05 => some (BitVec.ofNat 64 (a / 64))
    | 0x06 => some (s.pkg.setWidth 64)
    | 0x07 => some (statusWord s)
    | 0x08 => some s.fp.seed
    | 0x09 => some s.fp.rngcnt
    | 0x0A => some s.fp.fpctl
    | 0x0B => some s.fp.fpflags
    | 0x0C => some (BitVec.ofNat 64 s.cp.events.length)
    | 0x0D => some (s.scc.resseq.setWidth 64)
    | 0x0E => some s.die.cycle
    | 0x0F => some s.die.featon
    | 0x10 => some s.core.ttcfg
    | 0x40 => some (s.ctx.val : Nat)
    | _ => none

/-- One of the four registers whose writes wait for engines (04 R77, R82). -/
def writeFp (s : State) (r : FpReg) (v : Word) : State :=
  s.modFp fun x =>
    match r with
    | .seed => { x with seed := v }
    | .rngcnt => { x with rngcnt := v }
    | .fpctl => { x with fpctl := writeFpctl x.fpctl v }
    | .fpflags => { x with fpflags := v &&& 0x7F }

/-- A write of a task or core register; read-only ones ignore it. -/
def writeCoreReg (s : State) (n : Nat) (v : Word) : State :=
  if 0x20 ≤ n ∧ n < 0x40 then s.modCore fun c => writeBfmt c (Fin.ofNat 32 (n - 0x20)) v
  else
    match n with
    | 0x08 => writeFp s .seed v
    | 0x09 => writeFp s .rngcnt v
    | 0x0A => writeFp s .fpctl v
    | 0x0B => writeFp s .fpflags v
    | 0x10 => s.modCore fun c => writeTtcfg c v
    | _ => s

/-- The register is named by some row of 11 R310. -/
def crExists (s : State) (n : Nat) : Bool := (coreReg s n).isSome || (dieReg s (dieOf s.core.agent) n).isSome

/-- The register's View is P (11 R310). -/
def crPrivileged (n : Nat) : Bool := decide (0x40 ≤ n)

/-- Every VE command dispatched before has completed. -/
def veDone (s : State) : Bool := s.ve.queue.isEmpty && s.ve.recording.isNone && s.ve.loop.isNone

/-- What a move to or from a register waits for (04 R77, R83, 08 R213); `wr` says that it writes. -/
def crReady (s : State) (n : Nat) (wr : Bool) : Bool :=
  let ve := veDone s
  let me := s.me.queue.isEmpty && s.me.run.isNone
  if 0x20 ≤ n ∧ n < 0x40 then
    !wr || (ve && me && s.cp.queue.isEmpty && s.cp.copies.all fun c => !c.cmd.isLocal)
  else
    match n with
    | 0x08 | 0x09 => ve
    | 0x0A => !wr || (ve && me)
    | 0x0B => ve && me
    | _ => true

/-- The checks of MFCR and MTCR: the number, the view, and what they wait for (11 R310, 12 R362). -/
def crOp (n : Nat) (wr : Bool) (s : State) (f : State → State) : State :=
  if !crExists s n then illegal s
  else if crPrivileged n && !s.isPriv then trap s (plainFail .priv)
  else if !crReady s n wr then holds s
  else f s

/-- MFCR (12 R362). -/
def execMfcr (o : Si) (s : State) : Out :=
  sccOp [o.d] s fun x =>
    let n := o.imm.toNat
    crOp n false x fun y => retire (y.setS o.d (((coreReg y n).orElse fun _ => dieReg y (dieOf y.core.agent) n).getD 0))

/-- MTCR (12 R362). -/
def execMtcr (o : Si) (s : State) : Out :=
  sccOp [o.a] s fun x =>
    let n := o.imm.toNat
    crOp n true x fun y =>
      let v := y.sreg o.a
      retire (if (coreReg y n).isSome then writeCoreReg y n v else writeDieReg y (dieOf y.core.agent) n v)

/-! ## Writes as steps of their own -/

/-- CONTROL_REGISTER_WRITE: a write through the host's window reaches die- and context-scoped registers only
(11 R310, R312). -/
def execControlRegisterWrite (die : Fin 8) (num : BitVec 16) (val : Word) (s : State) : Out :=
  .next (if 0x100 ≤ num.toNat then writeDieReg s die num.toNat val else s)

/-- A register as the host's window reads it: die- and context-scoped registers hold their values and every other number
reads as zero (11 R312, log 7). -/
def windowReg (s : State) (d : Fin 8) (n : Nat) : Word :=
  match n with
  | 0x0E => s.dies[d].cycle
  | 0x0F => s.dies[d].featon
  | _ => (dieReg s d n).getD 0

/-- PARKASK_WRITE (11 R311). -/
def execParkaskWrite (die : Fin 8) (val : Word) (s : State) : Out := .next (parkAsk s die val)

/-- FEATACCEPT_WRITE (11 R326). -/
def execFeatacceptWrite (die : Fin 8) (val : Word) (s : State) : Out := .next (acceptFeatures s die val)

/-- ACTBASE_WRITE (12 R338, R340). -/
def execActbaseWrite (die : Fin 8) (ctx : Fin 64) (val : Word) (s : State) : Out := .next (writeActbase s die ctx val)

/-- TTCFG_WRITE (08 R227). -/
def execTtcfgWrite (core : Fin 512) (val : Word) (s : State) : Out :=
  .next (atCore core (fun x => x.modCore fun c => writeTtcfg c val) s)

/-- BFMT_WRITE (08 R213): commands dispatched before it that may touch the bank complete first. -/
def execBfmtWrite (core : Fin 512) (bank : Fin 32) (val : Word) (s : State) : Out :=
  .next (atCore core (fun x => if crReady x (0x20 + bank.val) true then x.modCore fun c => writeBfmt c bank val else x) s)

/-- The number of one of the four FP registers (11 R310). -/
def FpReg.num : FpReg → Nat
  | .seed => 0x08
  | .rngcnt => 0x09
  | .fpctl => 0x0A
  | .fpflags => 0x0B

/-- FP_CONTROL_WRITE (04 R77, R83): it waits as MTCR does. -/
def execFpControlWrite (core : Fin 512) (reg : FpReg) (val : Word) (s : State) : Out :=
  .next (atCore core (fun x => if crReady x (FpReg.num reg) true then writeFp x reg val else x) s)

/-- HASHMASK_WRITE (11 R325). -/
def execHashmaskWrite (die : Fin 8) (i : Fin 6) (val : Word) (s : State) : Out := .next (writeHashmask s die i val)

/-- CHKCTL_WRITE (12 R357). -/
def execChkctlWrite (die : Fin 8) (val : Word) (s : State) : Out := .next (writeChkctl s die val)

/-- POISONLOG_WRITE (12 R357). -/
def execPoisonlogWrite (die : Fin 8) (val : Word) (s : State) : Out := .next (writePoisonlog s die val)

/-- WDOGCTL_WRITE (12 R361). -/
def execWdogctlWrite (die : Fin 8) (val : Word) (s : State) : Out := .next (writeWdogctl s die val)

end Sys2Proof.Machine
end

