-- ==== Sys2Proof/Machine/CopyMem.lean ====
section
/-! DEFINITION. What copy engines read and write: pieces of at most 256 bytes, each in one page, one race-detection
granule and one unit of a bank, translated by the die's TLB (08 R210-R217, R234, 11 R322); waits for migrations
(07 R189) and behind held CPHs (07 R196); poison (12 R354, R355). -/

namespace Sys2Proof.Machine

/-! ## The issuer -/

/-- The issuer of the commands of the core in focus. -/
def whoOf (s : State) : Who := ⟨s.ctx, s.isPriv, (s.core.task.map (·.id)).getD 0, actorOf s.core⟩

/-- The registers of a task, on its core or in its image, changed; a task that has ended keeps nothing. -/
def modOwner (s : State) (w : Who) (f : TaskRegs → TaskRegs) : State :=
  let c := s.coreAt w.actor.agent
  if (c.task.map (·.id)) = some w.id then s.setCoreAt w.actor.agent { c with regs := f c.regs }
  else
    { s with tasks := s.tasks.map fun e =>
        if e.task.id == w.id then { e with image := e.image.map fun i => { i with regs := f i.regs } } else e }

/-- The horizon of an issuer with an import (07 R207). -/
def Actor.importing (a : Actor) (i : Import) : Actor :=
  let o := importEpoch { TaskRegs.entry.ord with horizon := a.horizon, lost := a.lost } i
  { a with horizon := o.horizon, lost := o.lost }

/-- What moves the bytes of a command: its issuer, its traffic class, and whether it acquires (08 R233). -/
structure Mover where
  who : Who
  tc : Fin 4
  acq : Bool
  deriving DecidableEq, Repr

/-- The agent of a mover. -/
def Mover.agent (m : Mover) : Fin 512 := m.who.actor.agent

/-- What ends the work on a unit early: a fault, a migration that holds a key, or a held CPH before it. -/
inductive Stop
  | fail (f : Fail)
  | held (key : Nat)
  | behind
  deriving DecidableEq, Repr

/-- Work of a copy engine: it reads and changes the state, collects flags, and may stop. -/
abbrev Cpm := StateT (State × Flags) (Except Stop)

/-- A fault. -/
def failC {α : Type} (f : Fail) : Cpm α := fun _ => .error (.fail f)
/-- ILLEGAL at execution. -/
def illegalC {α : Type} : Cpm α := failC (plainFail .illegal)
/-- Flags. -/
def flagC (f : Flags) : Cpm Unit := fun y => .ok ((), y.1, y.2 ||| f)
/-- The state. -/
def stateC : Cpm State := fun y => .ok (y.1, y)
/-- A check. -/
def checkC (ok : Bool) : Cpm Unit := if ok then pure () else illegalC
/-- An answer or a fault. -/
def liftC {α : Type} (x : Except Fail α) : Cpm α :=
  match x with
  | .ok a => pure a
  | .error e => failC e

/-! ## Reading -/

/-- Bytes of global memory, at most to the end of a 256-byte block. -/
def readGlobal (m : Mover) (va n : Nat) : Cpm (List Byte) := fun y =>
  let s := y.1
  let d := dieOf m.agent
  match translate s none d m.who.ctx m.who.priv .read va with
  | .error e => .error (.fail e)
  | .ok p =>
    if heldByMigration s p.key then .error (.held p.key)
    else if behindHeld s d p m.tc m.who.ctx va n then .error .behind
    else
      let imp := if m.acq then tagImport s p else none
      let a := (imp.map m.who.actor.importing).getD m.who.actor
      match raceCheck s a p (BitVec.ofNat 64 va) with
      | .error e => .error (.fail e)
      | .ok _ =>
        let k := forwardKey s p.key
        match firstPoison s.poison k n with
        | some g => .error (.fail (failAt .poison 0 (BitVec.ofNat 64 (va / 64 * 64 + 64 * (g - k / 64)))))
        | none =>
          let t := countMigration s d p
          let u := match imp with
            | some i => modOwner t m.who fun r => { r with ord := importEpoch r.ord i }
            | none => t
          .ok (readHbm t d m.who.ctx p n false, u, y.2)

/-- Bytes of a scratchpad, at most to the end of a 256-byte block: layout, then poison (08 R216, 12 R355). -/
def readPad (a : Word) (n : Fin 512) (off len : Nat) : Cpm (List Byte) := fun y =>
  let s := y.1
  let c := s.coreAt n
  match layoutRead c off len with
  | .error e => .error (.fail { e with address := BitVec.ofNat 64 (a.toNat / 4096 * 4096) })
  | .ok f =>
    match spadPoison s c off len with
    | some o => .error (.fail (failAt .poison 0 (BitVec.ofNat 64 ((a.toNat - off + o) / 64 * 64))))
    | none => .ok (spadBytes s c off len, s, y.2 ||| f)

/-- Where a byte of a copy-class command lies: global memory, or a scratchpad of the clearing (08 R210). -/
inductive Side
  | global (va : Nat)
  | pad (core : Fin 512) (off : Nat)
  deriving DecidableEq, Repr

/-- The side of an address; the accumulator window and addresses of no class raise XMISS. -/
def sideOf (s : State) (w : Who) (a : Word) : Except Fail Side :=
  match classify w.actor.agent a with
  | .globalVa va => .ok (.global va)
  | .spad o => .ok (.pad w.actor.agent o)
  | .peer k o =>
    let t := peerAgent w.actor.agent k
    (match peerCheck s t w.ctx a with
     | .ok _ => .ok (.pad t o)
     | .error e => .error e)
  | _ => .error (failAt .xmiss 0 a)

/-- The bytes of a piece that starts at an address. -/
def pieceLen (a : Word) (n : Nat) : Nat := min n (256 - a.toNat % 256)

/-- A piece read. -/
def readChunk (m : Mover) (a : Word) (n : Nat) : Cpm (List Byte) := do
  let s ← stateC
  match ← liftC (sideOf s m.who a) with
  | .global va => readGlobal m va n
  | .pad c off => readPad a c off n

/-- `n` bytes from an address, piece by piece; `fuel` pieces at most. -/
def readFuel (m : Mover) : Nat → Word → Nat → Cpm (List Byte)
  | 0, _, _ => pure []
  | fuel + 1, a, n =>
    if n = 0 then pure []
    else do
      let k := pieceLen a n
      let x ← readChunk m a k
      let rest ← readFuel m fuel (a + BitVec.ofNat 64 k) (n - k)
      pure (x ++ rest)

/-- `n` bytes from an address. -/
def readBytes (m : Mover) (a : Word) (n : Nat) : Cpm (List Byte) := readFuel m (n / 256 + 2) a n

/-! ## Writing -/

/-- A piece of a destination that may be written. -/
inductive Piece
  | hbm (p : Phys) (n : Nat)
  | pad (core : Fin 512) (off : Nat) (n : Nat)
  deriving DecidableEq, Repr

/-- The length of a piece. -/
def Piece.len : Piece → Nat
  | .hbm _ n => n
  | .pad _ _ n => n

/-- A piece of global memory translated and checked for a write. -/
def hbmPiece (s : State) (m : Mover) (need : Need) (va n : Nat) : Except Stop Phys :=
  let d := dieOf m.agent
  match translate s none d m.who.ctx m.who.priv need va with
  | .error e => .error (.fail e)
  | .ok p =>
    if heldByMigration s p.key then .error (.held p.key)
    else if behindHeld s d p m.tc m.who.ctx va n then .error .behind
    else
      match raceCheck s m.who.actor p (BitVec.ofNat 64 va) with
      | .error e => .error (.fail e)
      | .ok _ => .ok p

/-- A piece of a destination, checked. -/
def destPiece (s : State) (m : Mover) (a : Word) (n : Nat) : Except Stop Piece :=
  match sideOf s m.who a with
  | .error e => .error (.fail e)
  | .ok (.pad c off) => .ok (.pad c off n)
  | .ok (.global va) =>
    match hbmPiece s m .write va n with
    | .error e => .error e
    | .ok p => .ok (.hbm p n)

/-- The pieces of `n` destination bytes. -/
def destFuel (s : State) (m : Mover) : Nat → Word → Nat → Except Stop (List Piece)
  | 0, _, _ => .ok []
  | fuel + 1, a, n =>
    if n = 0 then .ok []
    else
      let k := pieceLen a n
      match destPiece s m a k with
      | .error e => .error e
      | .ok p =>
        match destFuel s m fuel (a + BitVec.ofNat 64 k) (n - k) with
        | .error e => .error e
        | .ok ps => .ok (p :: ps)

/-- The pieces of a destination, every one of them translated and checked (08 R234). -/
def destPieces (s : State) (m : Mover) (a : Word) (n : Nat) : Except Stop (List Piece) := destFuel s m (n / 256 + 2) a n

/-- Bytes written to a scratchpad by an engine of the clearing. -/
def putPad (s : State) (n : Fin 512) (off : Nat) (bs : List Byte) : State × Flags :=
  let c := s.coreAt n
  let w := layoutWrite c off bs.length
  ((spadStore s c off bs).setCoreAt n w.1, w.2)

/-- A piece written. -/
def putPiece (m : Mover) (y : State × Flags) (p : Piece) (bs : List Byte) : State × Flags :=
  match p with
  | .hbm q _ =>
    let d := dieOf m.agent
    (setTag (writeHbm (countMigration y.1 d q) d m.who.ctx q bs) m.who.actor q, y.2)
  | .pad n off _ => let r := putPad y.1 n off bs; (r.1, y.2 ||| r.2)

/-- Pieces written in ascending order. -/
def putPieces (m : Mover) : State × Flags → List Piece → List Byte → State × Flags
  | y, [], _ => y
  | y, p :: ps, bs => putPieces m (putPiece m y p (bs.take p.len)) ps (bs.drop p.len)

/-- The pieces of several writes. -/
def allPieces (s : State) (m : Mover) : List (Word × List Byte) → Except Stop (List (List Piece × List Byte))
  | [] => .ok []
  | w :: ws =>
    match destPieces s m w.1 w.2.length with
    | .error e => .error e
    | .ok p =>
      match allPieces s m ws with
      | .error e => .error e
      | .ok ps => .ok ((p, w.2) :: ps)

/-- Some writes, all of them checked before the first byte is written (08 R234). -/
def writeAllC (m : Mover) (ws : List (Word × List Byte)) : Cpm Unit := fun y =>
  match allPieces y.1 m ws with
  | .error e => .error e
  | .ok ps => .ok ((), ps.foldl (fun z p => putPieces m z p.1 p.2) y)

/-! ## Poisoned output (12 R354, R357) -/

/-- `POISONLOG` counts a granule poisoned on a die. -/
def logPoison (s : State) (d : Fin 8) (source granule : Nat) : State :=
  s.modDie d fun x =>
    { x with poisonlog :=
        BitVec.ofNat 64 (min 255 (bits x.poisonlog.toNat 56 8 + 1) * 2 ^ 56 + source * 2 ^ 52 + granule % 2 ^ 46 * 64) }

/-- A granule of HBM becomes poisoned. -/
def poisonKey (s : State) (source key : Nat) : State :=
  let t := s.poisonAt key
  match homeDie s key with
  | some d => logPoison t d source (key % 2 ^ 37 / 64)
  | none => t

/-- A granule of a core's scratchpad becomes poisoned. -/
def poisonPad (s : State) (n : Fin 512) (key source : Nat) : State :=
  logPoison (s.poisonAt key) (dieOf n) source ((n.val % 64 * 2 ^ 23 + (key - spadKey n.val 0)) / 64)

/-- A piece written as poisoned output: each granule it touches becomes poisoned. -/
def poisonPiece (s : State) (p : Piece) : State :=
  match p with
  | .hbm q n =>
    let k := forwardKey s q.key
    if n = 0 then s
    else (granules (k / 64) ((k + n - 1) / 64 - k / 64 + 1)).foldl (fun s g => poisonKey s 4 (64 * g)) s
  | .pad c off n =>
    let gs := ((List.range n).map fun i => spadAt (s.coreAt c) (off + i) / 64).eraseDups
    gs.foldl (fun s g => poisonPad s c (64 * g) 4) s

end Sys2Proof.Machine
end

