-- ==== Sys2Proof/Machine/CopyXf.lean ====
section
/-! DEFINITION. Transform chains as byte streams that are made unit by unit (08 R234-R236): conversion, quantisation,
decoding, transposition, gathering (R237), compressed buffers (R238). -/

namespace Sys2Proof.Machine

/-! ## The parameter block (08 R236) -/

/-- The fields of a parameter block. -/
structure Params where
  stype : Ty
  dtype : Ty
  rm : Nat
  fzi : Bool
  fzo : Bool
  sat : Bool
  strict : Bool
  smx : Bool
  dmx : Bool
  htype : Nat
  tcode : Nat
  ep : Nat
  seed : Word
  rows : Nat
  cols : Nat
  sscale : Word
  dscale : Word
  index : Word
  nidx : Nat
  sstride : Nat
  deriving DecidableEq, Repr

/-- The fields of 64 bytes. -/
def paramsOf (bs : List Byte) : Params :=
  let f := leAt bs 3 1
  { stype := Ty.ofCode (leAt bs 0 1), dtype := Ty.ofCode (leAt bs 1 1), rm := leAt bs 2 1, fzi := bit f 0, fzo := bit f 1,
    sat := bit f 2, strict := bit f 3, smx := bit f 4, dmx := bit f 5, htype := leAt bs 4 1, tcode := leAt bs 5 1,
    ep := leAt bs 6 1, seed := BitVec.ofNat 64 (leAt bs 8 8), rows := leAt bs 0x10 4, cols := leAt bs 0x14 4,
    sscale := BitVec.ofNat 64 (leAt bs 0x18 8), dscale := BitVec.ofNat 64 (leAt bs 0x20 8),
    index := BitVec.ofNat 64 (leAt bs 0x28 8), nidx := leAt bs 0x30 4, sstride := leAt bs 0x34 4 }

/-- Every field is within its limits and the reserved ones are zero. -/
def paramsOk (bs : List Byte) : Bool :=
  decide (leAt bs 0 1 ≤ 15) && decide (leAt bs 1 1 ≤ 15) && decide (leAt bs 2 1 ≤ 5) && decide (leAt bs 3 1 < 64)
    && decide (leAt bs 4 1 ≤ 4) && decide (leAt bs 6 1 ≤ 3) && zeroAt bs 7 1 && zeroAt bs 0x38 8

/-! ## Streams -/

/-- A part of a stream: its bytes, bytes that go elsewhere with it (MX scales), and the lowest element of it that
created or lost a NaN (04 R88). -/
structure Part where
  bytes : List Byte
  side : List (Word × List Byte)
  nan : Option Nat

/-- The output of a chain: its length, the bytes of a unit, and how a range of it is made. -/
structure Stream where
  len : Nat
  unit : Nat
  out : Nat → Nat → Cpm Part

/-- Plain bytes. -/
def plainPart (bs : List Byte) : Part := ⟨bs, [], none⟩

/-- The elements whose first bit lies in a range of bytes, as the first one and how many. -/
def firstBits (w count off n : Nat) : Nat × Nat :=
  let a := min count (ceilDiv (8 * off) w)
  (a, min count (ceilDiv (8 * (off + n)) w) - a)

/-- A stream of packed elements of a width (04 R68): `f` makes some elements, `side` what goes elsewhere with them. -/
def elemStream (w count : Nat) (f : Nat → Nat → Cpm (List Conv)) (side : Nat → Nat → Cpm (List (Word × List Byte))) : Stream where
  len := ceilDiv (count * w) 8
  unit := 256
  out := fun off n => do
    let lo := 8 * off / w
    let hi := min count (ceilDiv (8 * (off + n)) w)
    let cs ← f lo (hi - lo)
    let mine := firstBits w count off n
    let own := (cs.drop (mine.1 - lo)).take mine.2
    flagC (allFlags (own.map (·.2)))
    let x ← side mine.1 mine.2
    let num := packNat w (cs.map (·.1)) / 2 ^ (8 * off - lo * w)
    pure ⟨leBytes n num, x, (own.zipIdx.find? fun c => c.1.2.hasNv).map fun c => mine.1 + c.2⟩

/-- Nothing goes elsewhere. -/
def noSide : Nat → Nat → Cpm (List (Word × List Byte)) := fun _ _ => pure []

/-! ## Sources -/

/-- A source: bytes in memory, or expanded bytes up to a check that failed (08 R240). -/
inductive Src
  | raw (a : Word)
  | made (bs : List Byte)

/-- CHECKFAIL; the runner puts the unit into STATUS. -/
def checkFail {α : Type} : Cpm α := failC (plainFail .checkfail)

/-- `n` bytes of a source from an offset. -/
def srcRead (m : Mover) (x : Src) (off n : Nat) : Cpm (List Byte) :=
  match x with
  | .raw a => readBytes m (a + BitVec.ofNat 64 off) n
  | .made bs => if off + n ≤ bs.length then pure ((bs.drop off).take n) else checkFail

/-- Elements `lo` to `lo + cnt - 1` of a packed array that starts at a byte of a source. -/
def srcElems (m : Mover) (x : Src) (base : Nat) (t : Ty) (lo cnt : Nat) : Cpm (List Nat) := do
  let b0 := lo * t.width / 8
  let b1 := ceilDiv ((lo + cnt) * t.width) 8
  let bs ← srcRead m x (base + b0) (b1 - b0)
  let num := leNat bs
  pure ((List.range cnt).map fun i => bits num ((lo + i) * t.width - 8 * b0) t.width)

/-- One element. -/
def srcElem (m : Mover) (x : Src) (base : Nat) (t : Ty) (i : Nat) : Cpm Nat := do
  let l ← srcElems m x base t i 1
  pure (l.headD 0)

/-! ## Raw bytes and conversions -/

/-- A source moved unchanged. -/
def rawStream (m : Mover) (x : Src) (n : Nat) : Stream := ⟨n, 256, fun off k => do pure (plainPart (← srcRead m x off k))⟩

/-- The pattern of COPYF, repeated from the first byte (08 R242). -/
def fillStream (pattern : Word) (n : Nat) : Stream :=
  ⟨n, 256, fun off k => pure (plainPart ((List.range k).map fun i =>
    BitVec.ofNat 8 (bits pattern.toNat (8 * ((off + i) % 8)) 8)))⟩

/-- How a chain rounds: mode, FZI, FZO, SAT and seed. -/
structure Rounding where
  rm : Rm
  fzi : Bool
  fzo : Bool
  sat : Bool
  seed : Word
  deriving DecidableEq, Repr

/-- The rounding that a parameter block asks for; DYN takes the mode at dispatch (08 R236). -/
def Params.rounding (p : Params) (c : Cmd) : Rounding := ⟨rmField c p.rm, p.fzi, p.fzo, p.sat, p.seed⟩

/-- The rounding of an implicit conversion (04 R75). -/
def Rounding.plain : Rounding := ⟨.rne, false, false, false, 0⟩

/-- Elements converted one by one (04 R78). -/
def convStream (m : Mover) (x : Src) (s d : Ty) (count : Nat) (r : Rounding) : Stream :=
  elemStream d.width count (fun lo cnt => do
    let xs ← srcElems m x 0 s lo cnt
    pure (xs.zipIdx.map fun v => convertBits s d r.rm r.fzi r.fzo r.sat (drawXfer r.seed (lo + v.2)) v.1)) noSide

/-- Rows gathered by a list of indices (08 R237). -/
def gatherStream (m : Mover) (x : Src) (s d : Ty) (idx : List Nat) (cols stride : Nat) (conv : Bool) (r : Rounding) : Stream :=
  elemStream d.width (idx.length * cols) (fun lo cnt => (List.range cnt).mapM fun k => do
    let n := lo + k
    let v ← srcElem m x (idx.getD (n / cols) 0 * stride) s (n % cols)
    pure (if conv then convertBits s d r.rm r.fzi r.fzo r.sat (drawXfer r.seed n) v else (v, 0))) noSide

/-- The transpose of a matrix (08 R235). -/
def transposeStream (m : Mover) (x : Src) (t : Ty) (rows cols : Nat) : Stream :=
  elemStream t.width (rows * cols) (fun lo cnt => (List.range cnt).mapM fun k => do
    let n := lo + k
    let v ← srcElem m x 0 t (n % rows * cols + n / rows)
    pure (v, 0)) noSide

/-! ## Decoding (04 R70-R73) -/

/-- The bytes of an HB4 tile of a source that are not padding. -/
def readTile (m : Mover) (x : Src) (t : Nat) : Cpm (Array Byte) := do
  let bs ← srcRead m x (2560 * t) 2312
  pure bs.toArray

/-- A byte of a tile. -/
def tileAt (a : Array Byte) (i : Nat) : Nat := (a.getD i 0).toNat

/-- Element (r, c) of a tile, a subnormal burl flushed by FZI (04 R71, R81). -/
def tileVal (fzi : Bool) (a : Array Byte) (r c : Nat) : Val :=
  let code := bits (tileAt a (32 * r + c / 2)) (4 * (c % 2)) 4
  let sc := tileAt a (hb4ScaleAt r c)
  if bits sc 0 6 = 63 then .nan
  else if code = 8 then
    let k := hb4SlotAt (escapesBefore (tileAt a) (64 * r + c))
    decodeTy .bf16 (flushIn .bf16 fzi (tileAt a k + 256 * tileAt a (k + 1)))
  else decodeHb4 sc code

/-- An attempt that keeps nothing of a fault. -/
def attempt {α : Type} (x : Cpm α) : Cpm (Option α) := fun y =>
  match x y with
  | .ok (a, z) => .ok (some a, z)
  | .error (.fail _) => .ok (none, y)
  | .error e => .error e

/-- Every tile that can be read has a header that fits its codes (04 R73), before anything is written. -/
def checkTiles (m : Mover) (x : Src) : Nat → Nat → Cpm Unit
  | 0, _ => pure ()
  | n + 1, t => do
    match ← attempt (readTile m x t) with
    | none => pure ()
    | some a =>
      match hb4HeaderBad (tileAt a) with
      | some e => failC (burlCount e.1 e.2)
      | none => pure ()
    checkTiles m x n (t + 1)

/-- HB4 tiles decoded and converted. -/
def deqHb4Stream (m : Mover) (x : Src) (d : Ty) (rows cols : Nat) (r : Rounding) : Stream :=
  let tc := ceilDiv cols 64
  let tile (n : Nat) : Nat := n / cols / 64 * tc + n % cols / 64
  elemStream d.width (rows * cols) (fun lo cnt => do
    let ns := (List.range cnt).map (lo + ·)
    let ts ← (ns.map tile).eraseDups.mapM fun t => do pure (t, ← readTile m x t)
    pure (ns.map fun n =>
      let a := (lookupKey (tile n) ts).getD #[]
      convert d r.rm r.fzo r.sat (drawXfer r.seed n) (tileVal r.fzi a (n / cols % 64) (n % cols % 64)))) noSide

/-- An MX tensor decoded and converted; its scales lie in an array of their own. -/
def deqMxStream (m : Mover) (x : Src) (s d : Ty) (rows cols : Nat) (scales : Word) (r : Rounding) : Stream :=
  elemStream d.width (rows * cols) (fun lo cnt => do
    let xs ← srcElems m x 0 s lo cnt
    xs.zipIdx.mapM fun v => do
      let n := lo + v.2
      let b := n / cols * ceilDiv cols 32 + n % cols / 32
      let c ← readBytes m (scales + BitVec.ofNat 64 b) 1
      pure (convert d r.rm r.fzo r.sat (drawXfer r.seed n) (decodeMx s (leNat c) (flushIn s r.fzi v.1)))) noSide

/-! ## Quantisation (04 R85-R87) -/

/-- Element (i, j) of the matrix to be quantised, a plain source read as it stands or transposed. -/
def quantInput (m : Mover) (x : Src) (s : Ty) (rows cols : Nat) (tr fzi : Bool) (i j : Nat) : Cpm Val := do
  let v ← srcElem m x 0 s (if tr then j * rows + i else i * cols + j)
  pure (decodeTy s (flushIn s fzi v))

/-- The inputs of row `i` from column `j0` on, `n` of them, padded beyond the matrix. -/
def rowInputs (get : Nat → Nat → Cpm Val) (rows cols : Nat) (draw : Nat → Nat → Nat) (i j0 n : Nat) : Cpm (List BlockIn) :=
  (List.range n).mapM fun b => do
    let j := j0 + b
    if decide (i < rows) && decide (j < cols) then pure ⟨← get i j, false, draw i j⟩
    else pure ⟨.fin false 0 0, true, draw i j⟩

/-- An MX block of the matrix: its scale and its elements. -/
def mxBlock (get : Nat → Nat → Cpm Val) (rows cols : Nat) (d : Ty) (r : Rounding) (b : Nat) : Cpm (Nat × List Conv) := do
  let bc := ceilDiv cols 32
  let xs ← rowInputs get rows cols (fun i j => drawXfer r.seed (i * cols + j)) (b / bc) (32 * (b % bc)) 32
  pure (quantMx d r.rm r.fzo xs)

/-- A matrix quantised to MX; each scale goes with the unit of its block's first element. -/
def mxStream (get : Nat → Nat → Cpm Val) (rows cols : Nat) (d : Ty) (scales : Word) (r : Rounding) : Stream :=
  let bc := ceilDiv cols 32
  let block (n : Nat) : Nat := n / cols * bc + n % cols / 32
  elemStream d.width (rows * cols)
    (fun lo cnt => do
      let ns := (List.range cnt).map (lo + ·)
      let bs ← (ns.map block).eraseDups.mapM fun b => do pure (b, ← mxBlock get rows cols d r b)
      pure (ns.map fun n => (((lookupKey (block n) bs).map (·.2)).getD []).getD (n % cols % 32) (0, 0)))
    (fun lo cnt => do
      let ns := ((List.range cnt).map (lo + ·)).filter fun n => n % cols % 32 == 0
      ns.mapM fun n => do
        let q ← mxBlock get rows cols d r (block n)
        pure (scales + BitVec.ofNat 64 (block n), [BitVec.ofNat 8 q.1]))

/-- An HB4 tile of the matrix. -/
def hb4Tile (get : Nat → Nat → Cpm Val) (rows cols : Nat) (p : Params) (r : Rounding) (t : Nat) : Cpm TileAcc := do
  let tc := ceilDiv cols 64
  let xs ← (List.range 64).mapM fun i => do
    let l ← rowInputs get rows cols (fun y x => drawXfer r.seed (4096 * t + 64 * (y % 64) + x % 64)) (64 * (t / tc) + i)
      (64 * (t % tc)) 64
    pure l.toArray
  let a := xs.toArray
  pure (quantTile p.htype (burlThresh p.tcode) r.rm fun i j => (a.getD i #[]).getD j ⟨.fin false 0 0, true, 0⟩)

/-- A matrix quantised to HB4 tiles (04 R86). -/
def hb4Stream (get : Nat → Nat → Cpm Val) (rows cols : Nat) (p : Params) (r : Rounding) : Stream where
  len := ceilDiv rows 64 * ceilDiv cols 64 * 2560
  unit := 2560
  out := fun off n => do
    let t0 := off / 2560
    let ts ← (List.range ((off + n + 2559) / 2560 - t0)).mapM fun k => hb4Tile get rows cols p r (t0 + k)
    flagC (allFlags ((ts.zipIdx.filter fun t => decide (off ≤ 2560 * (t0 + t.2))).map fun t => t.1.flags))
    pure (plainPart (((ts.flatMap tileBytes).drop (off - 2560 * t0)).take n))

/-- BURLOVF of a strict chain, before anything is written (04 R86). -/
def checkBurls (get : Nat → Nat → Cpm Val) (rows cols : Nat) (p : Params) (r : Rounding) : Nat → Nat → Cpm Unit
  | 0, _ => pure ()
  | n + 1, t => do
    match ← attempt (hb4Tile get rows cols p r t) with
    | some a => if 0 < a.beyond then failC (plainFail .burlovf) else pure ()
    | none => pure ()
    checkBurls get rows cols p r n (t + 1)

/-! ## Compressed buffers (08 R238) -/

/-- Every 4 bytes of a block repeat its first 4. -/
def repeats (bs : List Byte) : Bool := bs.length % 4 == 0 && bs == (List.range bs.length).map fun i => bs.getD (i % 4) 0

/-- The bitmap of MASKED: bit i is set for each nonzero byte i. -/
def bitmapOf (bs : List Byte) : List Byte :=
  leBytes 32 (bs.zipIdx.foldl (fun n b => if b.1 = 0 then n else n + 2 ^ b.2) 0)

/-- A block with its mode byte: the first of ZERO, REPEAT, MASKED and RAW that applies. -/
def compressBlock (bs : List Byte) : List Byte :=
  let nz := bs.filter (· != 0)
  if nz.isEmpty then [1]
  else if repeats bs then 3 :: bs.take 4
  else if 32 + nz.length < bs.length then 2 :: bitmapOf bs ++ nz
  else 0 :: bs

/-- The bytes a MASKED block stands for, from its bitmap and the nonzero bytes after it. -/
def unmask (map : Nat) (n : Nat) : Nat → List Byte → List Byte
  | 0, _ => []
  | k + 1, rest =>
    if bit map (n - (k + 1)) then rest.headD 0 :: unmask map n k (rest.drop 1) else 0 :: unmask map n k rest

/-- A block of `n` bytes at the head of a body, and the body after it; none where its mode is unknown or it runs past
the body (08 R240). -/
def expandBlock (n : Nat) (body : List Byte) : Option (List Byte × List Byte) :=
  match body with
  | [] => none
  | mode :: rest =>
    let take (k : Nat) (bs : List Byte) : Option (List Byte × List Byte) :=
      if k ≤ rest.length then some (bs, rest.drop k) else none
    match mode.toNat with
    | 0 => take n (rest.take n)
    | 1 => take 0 (List.replicate n 0)
    | 2 =>
      let map := leNat (rest.take 32)
      let k := popc n map
      take (32 + k) (unmask map n n ((rest.drop 32).take k))
    | 3 => take 4 ((List.range n).map fun i => rest.getD (i % 4) 0)
    | _ => none

/-- The expanded bytes, up to the first block that fails, and whether all is well. -/
def expandBody : Nat → Nat → List Byte → List Byte × Bool
  | 0, _, body => ([], body.isEmpty)
  | fuel + 1, olen, body =>
    if olen = 0 then ([], body.isEmpty)
    else
      match expandBlock (min 256 olen) body with
      | none => ([], false)
      | some (bs, rest) =>
        let r := expandBody fuel (olen - min 256 olen) rest
        (bs ++ r.1, r.2)

/-- The header of a compressed buffer. -/
def compHeader (ep olen clen : Nat) (ocrc ccrc : BitVec 32) : List Byte :=
  [1, BitVec.ofNat 8 ep] ++ leBytes 2 0 ++ leBytes 8 olen ++ leBytes 8 clen ++ leBytes 4 ocrc.toNat ++ leBytes 4 ccrc.toNat
    ++ leBytes 4 0

/-- A header that holds listed values in every field. -/
def headerOk (h : List Byte) (len : Nat) : Bool :=
  leAt h 0 1 == 1 && decide (leAt h 1 1 < 4) && zeroAt h 2 2 && zeroAt h 28 4 && leAt h 12 8 + 32 == len

/-- A source buffer expanded: its bytes, OLEN, and whether a check made at its end fails. CCRC is verified first
(08 R239, R240). -/
def expandSource (m : Mover) (a : Word) (len : Nat) : Cpm (List Byte × Nat × Bool) := do
  checkC (decide (32 ≤ len))
  let h ← readBytes m a 32
  checkC (headerOk h len)
  let body ← readBytes m (a + 32) (len - 32)
  if (crc32c body).toNat ≠ leAt h 24 4 then checkFail
  else
    let olen := leAt h 4 8
    let r := expandBody (ceilDiv olen 256) olen body
    pure (r.1, olen, r.1.length == olen && (!r.2 || (crc32c r.1).toNat != leAt h 20 4))

end Sys2Proof.Machine
end

