-- ==== Sys2Proof/Machine/CopyPlan.lean ====
section
/-! DEFINITION. A copy planned and performed: the checks before its first write, bank formats (08 R216, R218), where a
compressed transfer expands (08 R239), and its units one by one (08 R234). -/

namespace Sys2Proof.Machine

/-! ## Bank formats (08 R218) -/

/-- The format of the banks of a range: none for global memory; ILLEGAL where its banks differ. -/
def rangeFmt (s : State) (w : Who) (a : Word) (n : Nat) : Except Fail (Option (Nat × Nat × Bool)) :=
  match sideOf s w a with
  | .error e => .error e
  | .ok (.global _) => .ok none
  | .ok (.pad c off) =>
    let k := s.coreAt c
    let f := bankFmt k (bankOf off)
    let last := min (2 ^ 23 - 1) (off + (n - 1))
    if (List.range (last / 2 ^ 18 - off / 2 ^ 18 + 1)).all fun i => bankFmt k (bankOf (off + i * 2 ^ 18)) == f then .ok (some f)
    else .error (plainFail .illegal)

/-- LAYOUT of a STRICT source is raised before anything is written (08 R216). -/
def strictSource (s : State) (w : Who) (a : Word) (n : Nat) : Except Fail Unit :=
  match sideOf s w a with
  | .ok (.pad c off) =>
    (match layoutRead (s.coreAt c) off (min n (2 ^ 23 - off)) with
     | .ok _ => .ok ()
     | .error e => .error { e with address := BitVec.ofNat 64 (a.toNat - off + e.address.toNat % 2 ^ 23) })
  | _ => .ok ()

/-- LAYOUT of a STRICT destination bank whose TYPE differs from the target. -/
def destLayout (s : State) (w : Who) (a : Word) : Fail :=
  match sideOf s w a with
  | .ok (.pad c off) => failAt .layout (layoutStatus (s.coreAt c) (off / 4096)) a
  | _ => failAt .layout 0 a

/-- How the destination bank's TYPE meets the target of a chain. -/
inductive Meet
  /-- conversions take the bank's TYPE, HB4 apart -/
  | convert
  /-- MX quantisation takes an E-type -/
  | quantMx
  /-- HB4 quantisation meets an HB4 bank only -/
  | quantHb4
  /-- bits are written unchanged under another TYPE -/
  | bits
  /-- bytes are written as the chain makes them, STRICT or not -/
  | bytes
  deriving DecidableEq, Repr

/-- The target of an explicit chain at a destination (08 R218). -/
def meetTarget (s : State) (w : Who) (a : Word) (fmt : Option (Nat × Nat × Bool)) (kind : Meet) (t : Ty) : Cpm Ty :=
  match fmt with
  | none => pure t
  | some f =>
    let b := Ty.ofCode f.1
    if b = t then pure t
    else
      let replaced (u : Ty) : Cpm Ty := if f.2.2 then failC (destLayout s w a) else do flagC Flags.layoutStale; pure u
      match kind with
      | .convert => if b = .hb4 then illegalC else replaced b
      | .quantMx => if b.isMx then replaced b else illegalC
      | .quantHb4 => illegalC
      | .bits => replaced t
      | .bytes => do flagC Flags.layoutStale; pure t

/-! ## Plans -/

/-- What a unit writes, and the element that traps. -/
structure Made where
  writes : List (Word × List Byte)
  nan : Option Nat

/-- A copy ready to be performed: its units, where each lies, what each writes, the bytes written in all, the end of
its destination, and whether a check made at the end fails. -/
structure Plan where
  units : Nat
  place : Nat → Word × Nat
  make : Nat → Cpm Made
  total : Cpm Nat
  span : Nat
  lastBad : Bool

/-- A stream written at a destination, cut into units. -/
def plainPlan (dst : Word) (x : Stream) (unit : Nat) (bad : Bool) : Plan where
  units := ceilDiv x.len unit
  place := fun k => (dst + BitVec.ofNat 64 (unit * k), min unit (x.len - unit * k))
  make := fun k => do
    let p ← x.out (unit * k) (min unit (x.len - unit * k))
    pure ⟨(dst + BitVec.ofNat 64 (unit * k), p.bytes) :: p.side, p.nan⟩
  total := pure x.len
  span := x.len
  lastBad := bad

/-- Blocks 0 to `n - 1` of a stream, compressed, with the bytes they stand for. -/
def compressed (x : Stream) (n : Nat) : Cpm (List Byte × List Byte) := do
  let bs ← (List.range n).mapM fun k => do pure (← x.out (256 * k) (min 256 (x.len - 256 * k))).bytes
  pure (bs.flatMap compressBlock, bs.flatten)

/-- A stream stored as a compressed buffer: one block of 256 source bytes for each unit; the header, which holds the
checks of all of it, is written with the last one. -/
def storedPlan (dst : Word) (x : Stream) (ep : Nat) : Plan where
  units := ceilDiv x.len 256
  place := fun k => (dst + BitVec.ofNat 64 (32 + 257 * k), 257)
  make := fun k => do
    let before ← compressed x k
    let p ← x.out (256 * k) (min 256 (x.len - 256 * k))
    let b := compressBlock p.bytes
    let w := (dst + BitVec.ofNat 64 (32 + before.1.length), b) :: p.side
    if k + 1 = ceilDiv x.len 256 then
      let body := before.1 ++ b
      let h := compHeader ep x.len body.length (crc32c (before.2 ++ p.bytes)) (crc32c body)
      pure ⟨w ++ [(dst, h)], p.nan⟩
    else pure ⟨w, p.nan⟩
  total := do
    let b ← compressed x (ceilDiv x.len 256)
    pure (32 + b.1.length)
  span := 32 + x.len + ceilDiv x.len 256
  lastBad := false

/-- A plan that does nothing. -/
def emptyPlan : Plan := ⟨0, fun _ => (0, 0), fun _ => pure ⟨[], none⟩, pure 0, 0, false⟩

/-- The parameter block at an address; none at address 0, where a chain may do without (08 R236). -/
def readParams (m : Mover) (a : Word) : Cpm (List Byte) :=
  if a.toNat % 64 ≠ 0 then failC (failAt .align 64 a) else readBytes m a 64

/-- The block of a chain: every field checked, or EP alone for COMPRESS; address 0 gives EP = 3 where a chain ends in
COMPRESS. -/
def chainParams (m : Mover) (xf : Nat) (a : Word) : Cpm Params := do
  let none_ : Params := { paramsOf [] with ep := 3 }
  if xf = 0 ∨ xf = 7 then pure none_
  else if a = 0 then if xf = 6 ∨ xf = 10 ∨ xf = 11 then pure none_ else illegalC
  else
    let bs ← readParams m a
    checkC (if xf = 6 then decide (leAt bs 6 1 ≤ 3) else paramsOk bs)
    pure (paramsOf bs)

/-- A matrix of `rows` × `cols` elements of a type fills a length. -/
def matrixLen (t : Ty) (rows cols len : Nat) : Bool := ceilDiv (rows * cols * t.width) 8 == len && 8 * len % t.width == 0

/-- The quantised stream of a matrix, its target settled (08 R218). -/
def quantStream (m : Mover) (c : Cmd) (p : Params) (x : Src) (len : Nat) (tr : Bool) (meets : Meet → Ty → Cpm Ty) : Cpm Stream := do
  let rows := if tr then p.cols else p.rows
  let cols := if tr then p.rows else p.cols
  checkC (p.stype != .hb4 && !p.smx && matrixLen p.stype p.rows p.cols len)
  checkC (!tr || p.stype.width == 8 || p.stype.width == 16 || p.stype.width == 32)
  let r := p.rounding c
  let get := quantInput m x p.stype rows cols tr p.fzi
  if p.dtype = .hb4 then
    checkC (!p.dmx)
    let _ ← meets .quantHb4 .hb4
    if p.strict then checkBurls get rows cols p r (ceilDiv rows 64 * ceilDiv cols 64) 0
    pure (hb4Stream get rows cols p r)
  else
    checkC (p.dmx && p.dtype.isMx)
    let t ← meets .quantMx p.dtype
    pure (mxStream get rows cols t p.dscale r)

/-- The decoded stream of a block-format source. -/
def deqStream (m : Mover) (c : Cmd) (p : Params) (x : Src) (len : Nat) (meets : Meet → Ty → Cpm Ty) : Cpm Stream := do
  checkC (p.dtype != .hb4)
  let r := p.rounding c
  if p.stype = .hb4 then
    let tiles := ceilDiv p.rows 64 * ceilDiv p.cols 64
    checkC (!p.smx && len == tiles * 2560)
    let t ← meets .convert p.dtype
    checkTiles m x tiles 0
    pure (deqHb4Stream m x t p.rows p.cols r)
  else
    checkC (p.smx && p.stype.isMx && matrixLen p.stype p.rows p.cols len)
    let t ← meets .convert p.dtype
    pure (deqMxStream m x p.stype t p.rows p.cols p.sscale r)

/-- The indices of GATHER_ROWS, each below ROWS (08 R237). -/
def readIndices (m : Mover) (p : Params) : Cpm (List Nat) := do
  let bs ← readBytes m p.index (4 * p.nidx)
  let l := (List.range p.nidx).map fun i => leAt bs (4 * i) 4
  match l.zipIdx.find? fun x => decide (p.rows ≤ x.1) with
  | some x => failC (failAt .illegal x.2 0)
  | none => pure l

/-- The stream of a chain, compression apart (08 R235). -/
def chainStream (m : Mover) (c : Cmd) (xf : Nat) (p : Params) (x : Src) (len : Nat) (sf df : Option (Nat × Nat × Bool))
    (dst : Word) : Cpm Stream := do
  let s ← stateC
  let meets (k : Meet) (t : Ty) : Cpm Ty := meetTarget s m.who dst df k t
  let asBytes : Cpm Ty := match sf with
    | some f => meets .bytes (Ty.ofCode f.1)
    | none => pure .f32
  match xf with
  | 0 =>
    match sf, df with
    | some a, some b =>
      let st := Ty.ofCode a.1
      let dt := Ty.ofCode b.1
      if st = dt then pure (rawStream m x len)
      else if st = .hb4 ∨ dt = .hb4 then
        flagC Flags.layoutStale
        pure (rawStream m x len)
      else
        checkC (8 * len % st.width == 0)
        pure (convStream m x st dt (8 * len / st.width) .plain)
    | _, _ => pure (rawStream m x len)
  | 1 | 10 =>
    checkC (p.stype != .hb4 && p.dtype != .hb4 && 8 * len % p.stype.width == 0)
    let t ← meets (if xf = 10 then .bytes else .convert) p.dtype
    pure (convStream m x p.stype t (8 * len / p.stype.width) (p.rounding c))
  | 2 => quantStream m c p x len false meets
  | 11 => quantStream m c p x len false fun _ t => meets .bytes t
  | 5 => quantStream m c p x len true meets
  | 3 | 8 | 9 => deqStream m c p x len meets
  | 4 =>
    checkC ((p.stype.width == 8 || p.stype.width == 16 || p.stype.width == 32) && matrixLen p.stype p.rows p.cols len)
    let _ ← meets .bits p.stype
    pure (transposeStream m x p.stype p.rows p.cols)
  | 12 | 13 =>
    checkC (p.cols * p.stype.width == 8 * len)
    checkC (xf = 12 ∨ (p.stype ≠ .hb4 ∧ p.dtype ≠ .hb4))
    let idx ← readIndices m p
    let t ← if xf = 12 then meets .bits p.stype else meets .convert p.dtype
    pure (gatherStream m x p.stype t idx p.cols p.sstride (decide (xf = 13)) (p.rounding c))
  | _ =>
    let _ ← asBytes
    pure (rawStream m x len)

/-- The result of CHECK_ONLY (08 R241): the check of the bytes; with `chk`, those of a compressed buffer, verified. -/
def checkOnly (m : Mover) (src : Word) (len : Nat) (chk : Bool) : Cpm (List Byte) := do
  if chk then
    let r ← expandSource m src len
    if r.1.length ≠ r.2.1 || r.2.2 then checkFail
    else
      let h ← readBytes m src 32
      pure (leBytes 4 (leAt h 24 4) ++ leBytes 4 (leAt h 20 4))
  else
    let bs ← readBytes m src len
    pure (leBytes 4 (crc32c bs).toNat ++ leBytes 4 0)

/-- The bytes of a source: GATHER_ROWS reads rows of a matrix. -/
def sourceSpan (xf len : Nat) (p : Params) : Nat :=
  if xf = 12 ∨ xf = 13 then (p.rows - 1) * p.sstride + len else len

/-- The destination range overlaps the source, and the copy does not leave every byte where it is (08 R234). -/
def overlaps (dst src : Word) (dlen slen : Nat) (same : Bool) : Bool :=
  decide (dst.toNat < src.toNat + slen) && decide (src.toNat < dst.toNat + dlen) && !(same && dst == src && dlen == slen)

/-- A barrier named by a copy-class command is aligned and lies in a scratchpad (08 R253, 12 R395). -/
def checkBarrier (s : State) (w : Who) (a : Word) : Except Fail Unit :=
  if a = 0 then .ok ()
  else if a.toNat % 16 ≠ 0 then .error (failAt .align 16 a)
  else
    match sideOf s w a with
    | .ok (.pad _ _) => .ok ()
    | .ok (.global _) => .error (failAt .xmiss 0 a)
    | .error e => .error e

/-- The plan of the stream of a chain at its destination: compressed where the transfer is marked and its expansion
point lies beyond a global destination (08 R239). -/
def streamPlan (dst : Word) (xf : Nat) (p : Params) (x : Stream) (toGlobal bad : Bool) : Plan :=
  if xf = 6 ∨ xf = 10 ∨ xf = 11 then
    (if toGlobal && decide (2 ≤ p.ep) then storedPlan dst x p.ep else plainPlan dst x 256 bad)
  else plainPlan dst x x.unit bad

/-- The plan of a chain of some length from `src` to `dst`. -/
def chainPlan (m : Mover) (c : Cmd) (xf : Nat) (dst src : Word) (len : Nat) (sd : Word) (chk : Bool) : Cpm Plan := do
  let p ← chainParams m xf sd
  let s ← stateC
  let df ← liftC (rangeFmt s m.who dst 1)
  let slen := sourceSpan xf len p
  let sf ← liftC (rangeFmt s m.who src slen)
  liftC (strictSource s m.who src slen)
  let plan ←
    if xf = 14 then do
      let _ ← chainStream m c xf p (.raw src) len sf df dst
      let bs ← checkOnly m src len chk
      pure (plainPlan dst (rawStream m (.made bs) 8) 256 false)
    else if xf = 7 ∨ xf = 8 ∨ xf = 9 then do
      let e ← expandSource m src len
      let x ← chainStream m c xf p (.made e.1) e.2.1 sf df dst
      pure (streamPlan dst xf p x df.isNone e.2.2)
    else do
      let x ← chainStream m c xf p (.raw src) len sf df dst
      pure (streamPlan dst xf p x df.isNone false)
  let _ ← liftC (rangeFmt s m.who dst plan.span)
  checkC (!overlaps dst src plan.span slen (xf = 0))
  pure plan

/-- The die of a mover lets every copy act as with `chk` (12 R357). -/
def chkAll (s : State) (m : Mover) : Bool := bit s.dies[dieOf m.agent].chkctl.toNat 0

/-- The plan of a COPY, CPB, CPH, PULL or COPYF: a length that is no length is ILLEGAL, a length of 0 does nothing. -/
def copyPlan (m : Mover) (c : Cmd) : Cpm Plan := do
  let v (i : Nat) : Word := c.vals.getD i 0
  let s ← stateC
  liftC (checkBarrier s m.who (v 4))
  let len := (v 2).toNat
  checkC (decide (len < 2 ^ 40))
  if len = 0 then pure emptyPlan
  else
    match c.instr with
    | .copyf _ => pure (plainPlan (v 0) (fillStream (v 1) len) 256 false)
    | .copy o | .cpb o | .cph o | .pull o => chainPlan m c o.xf.toNat (v 0) (v 1) len (v 3) (o.chk || chkAll s m)
    | _ => pure emptyPlan

/-! ## Units (08 R234) -/

/-- How the work on a copy ended. -/
inductive CopyOut
  /-- every unit is written: the bytes in all -/
  | done (bytes : Nat)
  /-- units are left -/
  | more
  /-- it waits: for a migration that holds a key, or behind a held CPH -/
  | wait (key : Option Nat)
  | fault (f : Fail)
  deriving DecidableEq, Repr

/-- A copy after some work: the state, its complete units, the flags of those written, and how it ended. -/
structure CopyWork where
  s : State
  units : Nat
  flags : Flags
  out : CopyOut

/-- A stop as an end of the work. -/
def stopOut : Stop → CopyOut
  | .fail f => .fault f
  | .held k => .wait (some k)
  | .behind => .wait none

/-- A unit is made and written, or its failed check leaves it poisoned (08 R240). -/
def makeUnit (m : Mover) (p : Plan) (k : Nat) : Cpm (Option Nat) := do
  let w ← p.make k
  if p.lastBad && k + 1 == p.units then checkFail
  else
    writeAllC m w.writes
    pure w.nan

/-- The destination of a unit poisoned where it can be reached. -/
def poisonUnit (m : Mover) (p : Plan) (k : Nat) (s : State) : State :=
  match destPieces s m (p.place k).1 (p.place k).2 with
  | .ok ps => ps.foldl poisonPiece s
  | .error _ => s

/-- Units from `k` on, `fuel` of them at most; `trap` says that the first NaN stops the copy after its unit. -/
def runUnits (m : Mover) (p : Plan) (trap : Bool) : Nat → Nat → State → Flags → CopyWork
  | fuel, k, s, f =>
    if p.units ≤ k then
      match p.total (s, 0) with
      | .ok (n, _) => if p.lastBad && p.units == 0 then ⟨s, k, f, .fault (plainFail .checkfail)⟩ else ⟨s, k, f, .done n⟩
      | .error e => ⟨s, k, f, stopOut e⟩
    else
      match fuel with
      | 0 => ⟨s, k, f, .more⟩
      | n + 1 =>
        match makeUnit m p k (s, 0) with
        | .error (.fail e) =>
          if e.cause = .checkfail then ⟨poisonUnit m p k s, k, f, .fault { e with status := BitVec.ofNat 64 k }⟩
          else ⟨s, k, f, .fault e⟩
        | .error e => ⟨s, k, f, stopOut e⟩
        | .ok (nan, t, g) =>
          match (if trap then nan else none) with
          | some i => ⟨t, k + 1, f ||| g, .fault (failAt .firstnan i 0)⟩
          | none => runUnits m p trap n (k + 1) t (f ||| g)

/-- A command planned and performed from its next unit on, `fuel` units at most; all of them with none. -/
def runCopy (m : Mover) (c : Cmd) (plan : Cpm Plan) (fuel : Option Nat) (units : Nat) (s : State) : CopyWork :=
  match plan (s, 0) with
  | .error (.fail e) => ⟨s, units, 0, .fault e⟩
  | .error e => ⟨s, units, 0, stopOut e⟩
  | .ok (p, t, f) => runUnits m p (bit (c.vals.getD 5 0).toNat 3) (fuel.getD (p.units + 1)) units t f

end Sys2Proof.Machine
end

