-- ==== Sys2Proof/Machine/CopyAtom.lean ====
section
/-! DEFINITION. Atomics (08 R246, 07 R200-R203): what each operation stores, and one performed at the atomic unit of
its word's memory port. -/

namespace Sys2Proof.Machine

/-- The fields of a copy-class instruction. -/
def cxOf : Instr → Option Cx
  | .copy o | .copyf o | .cpb o | .cph o | .atom o | .atomf o | .subs o | .unsub o | .pull o | .rrot o | .pref o | .invc o
  | .wbc o => some o
  | _ => none

/-- The mover of a command for an issuer. -/
def moverOf (w : Who) (c : Cmd) : Mover :=
  match cxOf c.instr with
  | some o => ⟨w, o.tc, o.acq⟩
  | none => ⟨w, 0, false⟩

/-- Bytes of the word an operation works on; `.amax` has a size code in its third field (08 R246). -/
def atomSize (op third : Nat) : Nat :=
  match op with
  | 1 | 2 | 6 => 4
  | 3 => 2
  | 7 => if third = 1 then 1 else 4
  | _ => 8

/-- AMAX of two FP32 words (07 R202): the greater magnitude, a NaN on either side the canonical NaN. -/
def amaxWord (a b : Nat) : Nat :=
  if (decodeTy .f32 a).isNan || (decodeTy .f32 b).isNan then Ty.canonNaN .f32 else max (bits a 0 31) (bits b 0 31)

/-- The new value of a word and its flags; `third` is the compare value, mask, limit or size code (08 R246). -/
def atomValue (op : Nat) (old v third : Word) : Conv :=
  let a := old.toNat
  let b := v.toNat
  let plain (x : Word) : Conv := (x.toNat, 0)
  match op with
  | 0 => plain (old + v)
  | 1 => ((a + b) % 2 ^ 32, 0)
  | 2 => addElem .f32 a (bits b 0 32)
  | 3 => addElem .bf16 a (bits b 0 16)
  | 4 => plain (if old.slt v then v else old)
  | 5 => plain (if v.slt old then v else old)
  | 6 => maxElem .f32 a (bits b 0 32)
  | 7 => if third = 1 then (max a (bits b 0 8), 0) else (amaxWord a (bits b 0 32), 0)
  | 8 => plain v
  | 9 => plain (if old = third then v else old)
  | 10 => plain (old &&& v)
  | 11 => plain (old ||| v)
  | 12 => plain (old ^^^ v)
  | 13 => plain ((old &&& ~~~third) ||| (v &&& third))
  | 14 => plain (old ||| (old + 1))
  | _ => plain (plsetWord old v (bits third.toNat 0 6))

/-- The third operand of an atomic: a register, or the size code of AMAX. -/
def atomThird (o : Cx) (c : Cmd) : Word := if o.xf = 7 then BitVec.ofNat 64 o.sc.val else c.vals.getD 2 0

/-- An atomic operation that its unit performed, or whose read met an uncorrectable error. -/
inductive Atomed
  | old (v : Word)
  | error
  deriving DecidableEq, Repr

/-- The read and the write of an atomic at a page of HBM: it is checked as a write (07 R209), takes an acquire's import
first, is performed at the owner, and drops the issuer's copy of a CACHED line. -/
def atomHbm (m : Mover) (size : Nat) (f : Word → Conv) (va : Nat) : Cpm Atomed := fun y =>
  let s := y.1
  let d := dieOf m.agent
  match translate s none d m.who.ctx m.who.priv .atomic va with
  | .error e => .error (.fail e)
  | .ok q =>
    let imp := if m.acq then tagImport s q else none
    let w := { m.who with actor := (imp.map m.who.actor.importing).getD m.who.actor }
    match hbmPiece s { m with who := w } .atomic va size with
    | .error e => .error e
    | .ok p =>
      let k := forwardKey s p.key
      if (firstPoison s.poison k size).isSome then .ok (.error, y)
      else
        let old := BitVec.ofNat 64 (s.le k size)
        let v := f old
        let s1 := (countMigration s d p).storeLe k size v.1
        let s2 := if p.leaf.mode = 2 then
            s1.modDie d fun x => { x with cached := x.cached.filter fun l => !(l.ctx == m.who.ctx && l.key == k / 256 * 256) }
          else s1
        let s3 := match imp with
          | some i => modOwner s2 m.who fun r => { r with ord := importEpoch r.ord i }
          | none => s2
        .ok (.old old, s3, y.2 ||| v.2)

/-- The read and the write of an atomic at a bank port. -/
def atomPad (size : Nat) (f : Word → Conv) (a : Word) (n : Fin 512) (off : Nat) : Cpm Atomed := fun y =>
  let s := y.1
  let c := s.coreAt n
  match layoutRead c off size with
  | .error e => .error (.fail { e with address := BitVec.ofNat 64 (a.toNat / 4096 * 4096) })
  | .ok g =>
    if (spadPoison s c off size).isSome then .ok (.error, y)
    else
      let old := BitVec.ofNat 64 (leNat (spadBytes s c off size))
      let v := f old
      let t := putPad s n off (leBytes size v.1)
      .ok (.old old, t.1, y.2 ||| g ||| v.2 ||| t.2)

/-- An atomic: alignment of the word and of the result (12 R395), the result's page, the operation, then the result
as a plain store that follows it. -/
def runAtom (m : Mover) (o : Cx) (fetch : Bool) (c : Cmd) : Cpm Atomed := do
  let a := c.vals.getD 0 0
  let r := c.vals.getD 3 0
  let size := atomSize o.xf.toNat o.sc.val
  if a.toNat % size ≠ 0 then failC (failAt .align size a)
  if fetch && r.toNat % 8 != 0 then failC (failAt .align 8 r)
  let s ← stateC
  let ps ← (fun y => match (if fetch then destPieces s m r 8 else .ok []) with
    | .error e => .error e
    | .ok p => .ok (p, y) : Cpm (List Piece))
  let f (old : Word) : Conv := atomValue o.xf.toNat old (c.vals.getD 1 0) (atomThird o c)
  let x ← match ← liftC (sideOf s m.who a) with
    | .global va => atomHbm m size f va
    | .pad n off => atomPad size f a n off
  let v := match x with
    | .old v => v.toNat
    | .error => 2 ^ 64 - 1
  fun y => .ok (x, putPieces m y ps (leBytes 8 v))

end Sys2Proof.Machine
end

