-- ==== Sys2Proof/Machine/System.lean ====
section
/-! DEFINITION. System instructions but for resets: TRAPI and BRK (12 R363), TLBINV (R364), ACTSET (R365), PARKPOP
(R349), RESUME (R350), HALT (R366), FEATSET (R368). -/

namespace Sys2Proof.Machine

/-! ## Traps -/

/-- TRAPI: it issues, then SWTRAP is taken with PCQ0 after it (12 R334, R363). -/
def execTrapi (o : Si) (s : State) : Out :=
  .next (takeCause (retire s) (causeAt s (failAt .swtrap o.imm.toNat 0)))

/-- BRK: BREAK is taken with PCQ0 at it (12 R363). -/
def execBrk (o : Si) (s : State) : Out := .next (trap s (failAt .brk o.imm.toNat 0))

/-! ## TLBINV (12 R364, 11 R322) -/

/-- Every entry of every TLB of the package that a test names is dropped. -/
def dropTlbs (s : State) (p : TlbEnt → Bool) : State :=
  let f (c : Core) : Core := { c with tlb := c.tlb.filter fun e => !p e }
  { s with
    core := f s.core
    others := s.others.map fun e => (e.1, f e.2)
    dies := s.dies.map fun d => { d with tlb := d.tlb.filter fun e => !p e } }

/-- An access in flight through a page of a context that a test names. -/
def flightsOf (s : State) (p : Fin 64 → Bool) : Bool :=
  let f (c : Core) : Bool := (c.task.any fun t => p t.ctx) && c.regs.ord.flights.any fun x => !bit x.addr.toNat 63
  f s.core || s.others.any fun e => f e.2

/-- TLBINV: it holds until accesses translated before have been performed (12 R364). -/
def tlbinv (s : State) (ctxs : Fin 64 → Bool) (p : TlbEnt → Bool) : State :=
  if flightsOf s ctxs then holds s else retire (dropTlbs s p)

/-- The context operand of a TLBINV. -/
def tlbCtx (s : State) (a : SReg) : Fin 64 := Fin.ofNat 64 (s.sreg a).toNat

/-- TLBINV.ctx (12 R364). -/
def execTlbinvCtx (o : Sa) (s : State) : Out :=
  privileged s fun x => sccOp [o.a] x fun y =>
    if 64 ≤ (y.sreg o.a).toNat then illegal y
    else tlbinv y (· == tlbCtx y o.a) fun e => e.ctx == tlbCtx y o.a

/-- TLBINV.page (12 R364). -/
def execTlbinvPage (o : Sa) (s : State) : Out :=
  privileged s fun x => sccOp [o.a, o.b] x fun y =>
    if 64 ≤ (y.sreg o.a).toNat then illegal y
    else
      let va := (y.sreg o.b).toNat
      tlbinv y (· == tlbCtx y o.a) fun e =>
        e.ctx == tlbCtx y o.a && decide (e.page ≤ va) && decide (va < e.page + e.leaf.pageBytes)

/-- TLBINV.all (12 R364). -/
def execTlbinvAll (_o : Sa) (s : State) : Out :=
  privileged s fun x => .next (tlbinv x (fun _ => true) fun _ => true)

/-! ## ACTSET (12 R365) -/

/-- The entry ACTSET's operands describe. -/
def actOfRegs (a b : Word) : ActEntry :=
  let n := a.toNat
  let act (k : Nat) : Action := match k with | 0 => .kill | 1 => .replay | 2 => .park | _ => .forward
  ⟨act (bits n 0 2), bits n 8 8, act (bits n 16 2), Fin.ofNat 16 (bits n 24 4), b⟩

/-- ACTSET's operands are as they must be: a cause of 12 R336, FALLBACK not REPLAY, zero bits zero, a handler for
FORWARD. -/
def actsetOk (cause : Nat) (a b : Word) : Bool :=
  let n := a.toNat
  decide (1 ≤ cause) && decide (cause ≤ 0x1B) && bits n 16 2 != 1 && (a &&& ~~~(0x3F0F03FF03 : Word) == 0)
    && !((bits n 0 2 == 3 || bits n 16 2 == 3) && b == 0)

/-- The 16 bytes of an action entry (12 R339). -/
def actBytes (e : ActEntry) : List Byte :=
  leBytes 1 e.action.code ++ leBytes 1 e.limit ++ leBytes 1 e.fallback.code ++ leBytes 1 e.queue.val ++ leBytes 4 0
    ++ leBytes 8 e.handler.toNat

/-- ACTSET: the die's copy of the entry and, with ACTBASE.V, the one in the block (12 R365). -/
def execActset (o : Act) (s : State) : Out :=
  privileged s fun x => sccOp [o.a, o.b] x fun y =>
    let a := y.sreg o.a
    let b := y.sreg o.b
    if !actsetOk o.cause.toNat a b then illegal y
    else
      let d := dieOf y.core.agent
      let c : Fin 64 := Fin.ofNat 64 (bits a.toNat 32 6)
      let e := actOfRegs a b
      let r := y.ctxAt d c
      let z := y.setCtxAt d c { r with acts := insertKey o.cause.toNat e r.acts }
      retire (match blockKey z d c with
        | some k => z.store (k + 16 * o.cause.toNat) (actBytes e)
        | none => z)

/-! ## Park queues (12 R348-R350) -/

/-- PARKPOP: the oldest task of a queue is taken (12 R349). -/
def execParkpop (o : Sa) (s : State) : Out :=
  privileged s fun x => sccOp [o.d, o.a] x fun y =>
    let q := (y.sreg o.a).toNat
    if 16 ≤ q then illegal y
    else
      let d := dieOf y.core.agent
      let here : Place := .parked d (Fin.ofNat 16 q)
      match y.tasks.find? fun e => e.place == here with
      | none => retire (y.setS o.d (BitVec.allOnes 64))
      | some e =>
        let l := y.tasks.erase e
        retire ({ y with tasks := l ++ [{ e with place := .taken d }] }.setS o.d (e.task.id.setWidth 64))

/-- STATUS of the record that an abandoned copy still posts: the cause that stopped it (12 R350), or 0 where every byte was
written and only the delivery to its barrier faulted (07 R180). -/
def abandonStatus (c : CopyRun) (x : Raised) : Nat :=
  match c.phase with
  | .lateDeliver _ => 0
  | _ => x.cause.code

/-- The copies without the one of a command index; an abandoned one with NTF still posts its record (12 R350). -/
def abandonCopy (cp : CpRegs) (x : Raised) (ntf : CopyRun → Bool) (major : CopyRun → Nat) : CpRegs :=
  match cp.copies.find? fun c => c.cmd.idx == x.idx with
  | none => cp
  | some c =>
    let rest := { cp with copies := cp.copies.filter fun k => !(k.cmd.idx == x.idx) }
    if ntf c && !c.posted then
      { rest with
        events := rest.events ++ [BitVec.ofNat 64 (2 ^ 56 + abandonStatus c x * 2 ^ 48 + major c * 2 ^ 40 + c.cmd.cseq.toNat)]
        reserved := rest.reserved - 1 }
    else rest

/-- NTF of a copy-class command. -/
def wantsRecord (i : Instr) : Bool :=
  match i with
  | .copy o | .copyf o | .cpb o | .cph o | .atom o | .atomf o | .subs o | .unsub o | .pull o | .rrot o | .pref o | .invc o
  | .wbc o => o.ntf
  | _ => false

/-- The major of a copy-class command (02 R54). -/
def copyMajor (i : Instr) : Nat :=
  match i with
  | .copy _ => 0 | .copyf _ => 1 | .cpb _ => 2 | .cph _ => 3 | .atom _ => 4 | .atomf _ => 5 | .subs _ => 6 | .unsub _ => 7
  | .pull _ => 8 | .rrot _ => 9 | .pref _ => 10 | .invc _ => 11 | .wbc _ => 12
  | _ => 0

/-- The head of a queue is the command that a cause names. -/
def headIs (q : List Cmd) (x : Raised) : Bool := (q.head?.map fun c => c.idx == x.idx).getD false

/-- The registers of a task whose command or access is abandoned (12 R350): an engine's head command is dropped, a
subscription's tile is passed over, an access goes with its wait slot. -/
def abandon (r : TaskRegs) (x : Raised) : TaskRegs :=
  let cp := abandonCopy r.cp x (fun c => wantsRecord c.cmd.instr) fun c => copyMajor c.cmd.instr
  if x.late then { r with ord := { r.ord with held := r.ord.held.filter fun f => !(f.idx == x.idx) }, cp := cp }
  else
    match x.engine with
    | .ve =>
      if headIs r.ve.queue x then { r with ve := { r.ve with queue := r.ve.queue.drop 1 } }
      else { r with ve := { r.ve with loop := r.ve.loop.map fun l => { l with at_ := l.at_ + 1 } } }
    | .me =>
      if headIs r.me.queue x then { r with me := { r.me with queue := r.me.queue.drop 1 } }
      else { r with me := { r.me with run := r.me.run.filter fun m => m.cmd.idx != x.idx } }
    | .copy =>
      { r with cp := { cp with subs := cp.subs.map fun b => b.map fun y =>
          if y.cmd.idx == x.idx then { y with next := y.next + 1 } else y } }
    | _ => r

/-- An image as REPLAY or CONTINUE resumes it. -/
def resumeImage (i : Image) (cont : Bool) : Image :=
  match i.stopped with
  | none => i
  | some x =>
    if cont then
      (if x.engine = .scc ∧ !x.late then { i with skip := x.cause != .swtrap && x.cause != .watchhit }
       else if x.engine = .seq then { i with skip := x.cause != .watchhit }
       else { i with regs := abandon i.regs x })
    else if x.late then { i with regs := replayLate i.regs x } else i

/-- A parked task discarded: its blazes, buffers and save place go, and its join learns of the failure (12 R350). -/
def discardParked (s : State) (e : TaskEnt) (rec_ : Word) : State :=
  let s1 := { s with tasks := s.tasks.erase e }
  let s2 := match e.image with
    | some i =>
      let x := i.regs.ord.z.toList.foldl (fun (y : State) (z : Option BlazeRef) => (z.map (dropRef y)).getD y) s1
      releasePlace (dropLocalHolds (failBlazes x i.regs.cp.copies) e.task.id Cmd.isLocal) i
    | none => s1
  let s3 := s2.setCoreAt e.task.home (e.task.handles.foldl freeBuffer (s2.coreAt e.task.home))
  s3.childEnds e.task.join (some rec_) none

/-- A parked task placed at the tail of its core's ready queue (12 R350). -/
def readyAgain (s : State) (e : TaskEnt) (i : Option Image) : State :=
  let n := if s.disabled e.task.home || (s.coreAt e.task.home).halted then
      coreFor s (dieOf e.task.home) (clearingOf e.task.home) e.task.stage else e.task.home
  yreqScan { s with tasks := s.tasks.erase e ++
      [{ e with place := .ready n s.dies[dieOf n].cycle.toNat 0 e.task.prio, image := i, task := { e.task with home := n } }] }
    (dieOf n)

/-- A mode of RESUME on the taken task (12 R350). -/
def resumeTask (s : State) (e : TaskEnt) (d : Fin 8) (mode q : Nat) : State :=
  match mode with
  | 0 => readyAgain s e (e.image.map fun i => resumeImage i false)
  | 1 => readyAgain s e (e.image.map fun i => resumeImage i true)
  | 2 => discardParked s e ((e.image.map (·.record)).getD 0)
  | _ =>
    let x := { s with tasks := s.tasks.erase e ++ [{ e with place := .parked d (Fin.ofNat 16 q) }] }
    match decide (q < 8), s.launchOf e.task with
    | true, some l => x.signal l.vector
    | _, _ => x

/-- The die where a taken task stands. -/
def TaskEnt.takenOn (e : TaskEnt) : Option (Fin 8) :=
  match e.place with
  | .taken d => some d
  | _ => none

/-- RESUME (12 R350). -/
def execResume (o : Sa) (s : State) : Out :=
  privileged s fun x => sccOp [o.d, o.a, o.b] x fun y =>
    let a := (y.sreg o.a).toNat
    let b := (y.sreg o.b).toNat
    if 2 ^ 32 ≤ a ∨ b % 256 / 4 ≠ 0 ∨ 2 ^ 12 ≤ b then illegal y
    else
      let id : BitVec 32 := BitVec.ofNat 32 a
      match y.tasks.find? fun e => e.task.id == id && e.takenOn.isSome with
      | some e => retire ((resumeTask y e (e.takenOn.getD 0) (b % 4) (bits b 8 4)).setS o.d 0)
      | none => retire (y.setS o.d (if isParked y id then 2 else 1))

/-! ## HALT and FEATSET -/

/-- A halted core's ready tasks move to other cores of its clearing by 09 R259; one that holds a buffer stays. -/
def moveReady (s : State) (n : Fin 512) : State :=
  let go := s.tasks.filter fun e => e.readyOn n && e.task.handles.isEmpty && e.task.inbound == 0
  go.foldl (fun x e =>
    let m := coreFor x (dieOf n) (clearingOf n) e.task.stage
    { x with tasks := x.tasks.erase e ++ [{ e with
        task := { e.task with home := m }
        place := match e.place with
          | .ready _ since passed level => .ready m since passed level
          | p => p }] }) s

/-- HALT (12 R366): the task ends as `DONE` ends it, then the core halts. -/
def execHalt (_o : Sa) (s : State) : Out :=
  privileged s fun x => .next (if !allDone x then holds x
    else
      match x.core.task with
      | none => x
      | some t => moveReady ((finishTask x t).modCore fun c => { c with halted := true }) x.core.agent)

/-- FEATSET (12 R368). -/
def execFeatset (o : Sa) (s : State) : Out :=
  privileged s fun x => sccOp [o.d, o.a] x fun y =>
    let z := acceptFeatures y (dieOf y.core.agent) (y.sreg o.a)
    retire (z.setS o.d z.die.featon)

end Sys2Proof.Machine
end

