-- ==== Sys2Proof/Machine/Tables.lean ====
section
/-! DEFINITION. The scratchpad tag table (08 R227, R228) and the event queue (08 R229-R231). -/

namespace Sys2Proof.Machine

/-! ## The tag table -/

/-- TTCFG.SZ (08 R227). -/
def ttSize (cfg : Word) : Nat := bits cfg.toNat 0 3

/-- U, the number of usable slots (08 R227). -/
def ttSlots (cfg : Word) : Nat := min 1024 ((2 ^ 23 - bits cfg.toNat 12 11 * 4096) / (4096 * 2 ^ ttSize cfg))

/-- The key of a global address (08 R228). -/
def ttKey (cfg a : Word) : BitVec 45 := BitVec.ofNat 45 (bits a.toNat (12 + ttSize cfg) (45 - ttSize cfg))

/-- The tag table: valid entries by slot, each with KEY and REF. -/
abbrev TagTable := List (Nat × (BitVec 45 × Bool))

/-- The search for a victim from the hand on: REF bits are cleared on the way (08 R228). -/
def ttVictim (u : Nat) : Nat → Nat → TagTable → Nat × TagTable
  | 0, i, t => (i, t)
  | fuel + 1, i, t =>
    match lookupKey i t with
    | some (k, true) => ttVictim u fuel ((i + 1) % u) (insertKey i (k, false) t)
    | _ => (i, t)

/-- TLOOK on a table with U slots and a hand: the answer, the table and the hand (08 R228). With no usable slot every
lookup misses at the hand as it stands, and what follows it modulo 0 is stated by no rule (`execTlook`, log 9). -/
def ttLook (u : Nat) (key : BitVec 45) (t : TagTable) (h : Nat) : Word × TagTable × Nat :=
  match t.find? fun e => decide (e.1 < u) && e.2.1 == key with
  | some (i, k, _) => (BitVec.ofNat 64 i, insertKey i (k, true) t, h)
  | none =>
    let r := ttVictim u (2 * u) h t
    (BitVec.ofNat 64 (r.1 * 65536 + 0xFFFF), r.2, (r.1 + 1) % u)

/-- The tag table of the core in focus replaced. -/
def setTable (s : State) (t : TagTable) : State := s.modCore fun c => { c with ttab := t }

/-- TLOOK (08 R228). -/
def execTlook (o : Sa) (s : State) : Out :=
  sccOp [o.d, o.a] s fun x =>
    let c := x.core
    let u := ttSlots c.ttcfg
    let r := ttLook u (ttKey c.ttcfg (x.sreg o.a)) c.ttab c.hand
    let noSlot := u == 0
    let hand := if noSlot then (Config.freeWord x.free).toNat % 1024 else r.2.2
    let y := x.modCore fun y => { y with ttab := r.2.1, hand := hand }
    retire ({ y with free := if noSlot then x.free + 1 else x.free }.setS o.d r.1)

/-- TSET (08 R228). -/
def execTset (o : Sa) (s : State) : Out :=
  sccOp [o.a, o.b] s fun x =>
    let c := x.core
    let n := (x.sreg o.b).toNat
    let key := ttKey c.ttcfg (x.sreg o.a)
    if ttSlots c.ttcfg ≤ n then illegal x
    else retire (setTable x (insertKey n (key, true) (c.ttab.filter fun e => e.2.1 != key)))

/-- TCLR (08 R228). -/
def execTclr (o : Sa) (s : State) : Out :=
  sccOp [o.a] s fun x =>
    let n := x.sreg o.a
    if n = BitVec.allOnes 64 then retire (setTable x [])
    else if ttSlots x.core.ttcfg ≤ n.toNat then illegal x
    else retire (setTable x (eraseKey n.toNat x.core.ttab))

/-! ## The event queue -/

/-- A completion record (08 R229). -/
def eventRecord (status major : Nat) (cseq : BitVec 40) : Word :=
  BitVec.ofNat 64 (2 ^ 56 + status * 2 ^ 48 + major * 2 ^ 40 + cseq.toNat)

/-- EVWAIT (08 R231). -/
def execEvwait (o : Sa) (s : State) : Out :=
  if s.cp.events.isEmpty then .next (holds s) else sccWrite o.d [] s fun x => BitVec.ofNat 64 x.cp.events.length

/-- EVPOP (08 R231). -/
def execEvpop (o : Sa) (s : State) : Out :=
  sccOp [o.d] s fun x =>
    match x.cp.events with
    | [] => holds x
    | e :: rest => retire ((x.modCp fun c => { c with events := rest }).setS o.d e)

/-- EVPEEK (08 R231). -/
def execEvpeek (o : Sa) (s : State) : Out := sccWrite o.d [] s fun x => x.cp.events.headD 0

end Sys2Proof.Machine
end

