-- ==== Sys2Proof/Machine/CopyRun.lean ====
section
/-! DEFINITION. Copy engines at work: completion and records (08 R229, R233), deliveries (R253), PULL (R250), blazes and
held CPHs (07 R193-R199, 12 R358), rotation (08 R251), subscriptions (R247-R249), and cache commands (R252). -/

namespace Sys2Proof.Machine

/-! ## The issuer, wherever it is -/

/-- Flags merged for an issuer (04 R83). -/
def addFlagsOf (s : State) (w : Who) (f : Flags) : State :=
  modOwner s w fun r => { r with fp := { r.fp with fpflags := mergeFlags r.fp.fpflags f } }

/-- The task of an issuer runs on its core. -/
def ownerRuns (s : State) (w : Who) : Bool := (s.coreAt w.actor.agent).task.any fun t => t.id == w.id

/-- The task of an issuer is saved. -/
def ownerSaved (s : State) (w : Who) : Bool := s.tasks.any fun e => e.task.id == w.id && e.image.isSome

/-- A precision D cause of a copy-class command. -/
def lateCopy (c : Cmd) (f : Fail) : Raised := ⟨f.cause, .copy, true, false, c.idx, 0, f.status, f.address⟩

/-- A precision D cause reaches its task: running, saved, or ended, where only its record is written (12 R342). -/
def lateTo (s : State) (w : Who) (r : Raised) : State :=
  if ownerRuns s w then atCore w.actor.agent (fun x => addLate x r) s
  else if ownerSaved s w then modOwner s w fun x => { x with pend := { x.pend with late := x.pend.late ++ [r] } }
  else atCore w.actor.agent (fun x => (writeRecord x w.ctx (recordWith x w.actor.agent w.ctx w.id r (infoByte r .kill) [0, 0, 0])).1) s

/-- Two commands of one task are the same: their command index and copy sequence number agree. -/
def Cmd.same (a b : Cmd) : Bool := a.idx == b.idx && a.cseq == b.cseq

/-- The commands of an issuer's copy engines changed where they are a given one. -/
def modRun (s : State) (w : Who) (c : Cmd) (f : CopyRun → CopyRun) : State :=
  modOwner s w fun r => { r with cp := { r.cp with copies := r.cp.copies.map fun x => if x.cmd.same c then f x else x } }

/-! ## Completion -/

/-- A command that releases (07 R181): REL, or a CPH that carried a blaze (07 R206). -/
def CopyRun.releases (r : CopyRun) : Bool := ((cxOf r.cmd.instr).map (·.rel)).getD false || !r.carried.isEmpty

/-- The copy registers without a command that is complete; with NTF its record is posted (08 R229, R233). -/
def closeRun (p : CpRegs) (r : CopyRun) : CpRegs :=
  let q := { p with copies := p.copies.eraseP fun x => x.cmd.same r.cmd }
  if wantsRecord r.cmd.instr && !r.posted then
    { q with events := q.events ++ [eventRecord 0 (copyMajor r.cmd.instr) r.cmd.cseq], reserved := q.reserved - 1 }
  else q

/-- A command completes: its flags merge, it leaves its engine, a release increments its agent's epoch (07 R206), an
acquire at FABRIC scope drops remote lines (07 R183, 08 R233). -/
def finishRun (s : State) (w : Who) (r : CopyRun) : State :=
  let t := modOwner (addFlagsOf s w r.flags) w fun x =>
    { x with
      scc := { x.scc with replays := eraseKey r.cmd.idx.toNat x.scc.replays }
      cp := closeRun x.cp r }
  let u := if r.releases then
      let c := t.coreAt w.actor.agent
      t.setCoreAt w.actor.agent { c with epoch := c.epoch + 1 }
    else t
  if ((cxOf r.cmd.instr).map (·.acq)).getD false then
    u.modDie (dieOf w.actor.agent) fun d => { d with cached := d.cached.filter fun l => l.ctx != w.ctx }
  else u

/-! ## Deliveries (08 R253) -/

/-- What is counted on the barrier of a command. -/
inductive Counted
  | ok (s : State)
  | late (s : State) (f : Fail)

/-- Bytes counted on the barrier at an address: STAGEOVERRUN names it with the excess; a poisoned object fails as an
atomic does. -/
def countOn (s : State) (w : Who) (a : Word) (bytes : Nat) : Counted :=
  match sideOf s w a with
  | .error e => .late s e
  | .ok (.global _) => .late s (failAt .xmiss 0 a)
  | .ok (.pad n off) =>
    if (spadPoison s (s.coreAt n) off 16).isSome then .late s (failAt .uedata 0 (granuleOf a))
    else
      match deliver s n off bytes with
      | (t, some x) => .late t (stageOverrun x a)
      | (t, none) => .ok t

/-- The arrival of a `PULL` at an address, as `BARARR` makes it (08 R250). -/
def pullArrives (s : State) (w : Who) (a : Word) : Counted :=
  match sideOf s w a with
  | .error e => .late s e
  | .ok (.global _) => .late s (failAt .xmiss 0 a)
  | .ok (.pad n off) =>
    if (spadPoison s (s.coreAt n) off 16).isSome then .late s (failAt .uedata 0 (granuleOf a))
    else
      match arrive s n off with
      | some x => .ok x.1
      | none => .late s (stageOverrun 1 a)

/-- A `PULL`. -/
def isPull : Instr → Bool
  | .pull _ => true
  | _ => false

/-- The delivery of a command whose bytes are written: it completes, or its delivery has failed and may be replayed. -/
def deliverRun (s : State) (w : Who) (r : CopyRun) (bytes : Nat) : State :=
  let a := r.cmd.vals.getD 4 0
  let x : Counted := if a = 0 then .ok s else if isPull r.cmd.instr then pullArrives s w a else countOn s w a bytes
  match x with
  | .ok t => finishRun t w r
  | .late t f => lateTo (modRun t w r.cmd fun y => { y with phase := .lateDeliver bytes }) w (lateCopy r.cmd f)

/-! ## Faults -/

/-- MPC of a copy: running, and its complete units (08 R234). -/
def copyMpc (units : Nat) : Word := BitVec.ofNat 64 (2 ^ 61 + units % 2 ^ 61)

/-- A cause of the copy engines with the command that it stops. -/
def copyCause (c : Cmd) (f : Fail) (mpc : Word) : Raised := ⟨f.cause, .copy, false, true, c.idx, mpc, f.status, f.address⟩

/-- The entry of a CPB takes a state; only one that still has its generation (07 R193). -/
def settleBlaze (s : State) (z : Option BlazeRef) (st : BlazeState) (units : Nat) : State :=
  match z.bind fun r => (blazeOf s r).map fun x => (x.1, r.entry.val) with
  | some (d, e) => modBlaze s d e fun b => { b with state := st, lastUnit := if st = .landed then units - 1 else b.lastUnit }
  | none => s

/-- The `n`-th command of the core in focus replaced. -/
def setRunAt (s : State) (n : Nat) (r : CopyRun) : State := s.modCp fun p => { p with copies := p.copies.set n r }

/-- The `n`-th command stops with a cause, its flags merged (04 R83); its CPB's entry becomes FAILED. While another
cause of the copy engines is pending, it keeps what it met (12 R346). -/
def stopRun (s : State) (n : Nat) (r : CopyRun) (f : Fail) (mpc : Word) : State :=
  let x := copyCause r.cmd f mpc
  let t := settleBlaze ((setRunAt s n { r with flags := 0 }).addFlags r.flags) r.blaze .failed r.units
  if t.core.regs.pend.copy.isSome then setRunAt t n { r with flags := 0, phase := .stalled x }
  else t.modRegs fun y => { y with pend := { y.pend with copy := some x } }

/-- The port notes that a migration holds an access of a copy. -/
def waitRun (s : State) (k : Option Nat) : State :=
  match k with
  | some key => noteHeld s key .copy
  | none => s

/-! ## Copies -/

/-- Every byte of the `n`-th command is written. -/
def writtenRun (s : State) (n : Nat) (r : CopyRun) (bytes : Nat) : State :=
  let t := settleBlaze s r.blaze .landed r.units
  if r.cmd.vals.getD 4 0 = 0 then finishRun t (whoOf t) r else setRunAt t n { r with phase := .deliver bytes }

/-- A REPLAY of a CPB whose entry is FAILED returns it to PENDING (12 R358). -/
def reviveBlaze (s : State) (r : CopyRun) : State :=
  match r.blaze with
  | some z => if blazeState s z = .failed then settleBlaze s (some z) .pending 0 else s
  | none => s

/-- A copy of the core in focus performed from its next unit on, `fuel` units at most. -/
def workCopy (s0 : State) (n : Nat) (r : CopyRun) (fuel : Option Nat) : State :=
  let s := reviveBlaze s0 r
  let w := runCopy (moverOf (whoOf s) r.cmd) r.cmd (copyPlan (moverOf (whoOf s) r.cmd) r.cmd) fuel r.units s
  let q := { r with units := w.units, flags := r.flags ||| w.flags, phase := .run }
  let t := setRunAt w.s n q
  match w.out with
  | .done bytes => writtenRun t n q bytes
  | .more => t
  | .wait k => waitRun t k
  | .fault f => stopRun t n q f (copyMpc w.units)

/-- An atomic of the core in focus. UEDATA is a precision D cause; with NTF its record is posted with it (07 R203,
08 R246). -/
def workAtom (s : State) (n : Nat) (r : CopyRun) (o : Cx) (fetch : Bool) : State :=
  let q := { r with phase := .run }
  match runAtom (moverOf (whoOf s) r.cmd) o fetch r.cmd (s, 0) with
  | .error (.fail f) => stopRun s n q f (copyMpc 0)
  | .error (.held k) => noteHeld s k .copy
  | .error .behind => s
  | .ok (.old _, t, g) => finishRun t (whoOf t) { q with flags := q.flags ||| g }
  | .ok (.error, t, g) =>
    let post := o.ntf && fetch && !r.posted
    let u := setRunAt (t.addFlags g) n { q with phase := .lateRun, posted := q.posted || post }
    let v := if post then u.modCp fun p =>
        { p with events := p.events ++ [eventRecord 0x15 (copyMajor r.cmd.instr) r.cmd.cseq], reserved := p.reserved - 1 }
      else u
    lateTo v (whoOf v) (lateCopy r.cmd (failAt .uedata 0 (granuleOf (r.cmd.vals.getD 0 0))))

/-! ## Cache commands (08 R252) -/

/-- Something done for each 256-byte block of a global range whose page translates; the rest is skipped. -/
def eachLine (w : Who) (f : State → Phys → State) : Nat → Nat → Nat → State → State
  | 0, _, _, s => s
  | fuel + 1, va, hi, s =>
    if hi ≤ va then s
    else
      let t := match classify w.actor.agent (BitVec.ofNat 64 va) with
        | .globalVa _ => (match translate s none (dieOf w.actor.agent) w.ctx w.priv .read va with
          | .ok p => f s p
          | .error _ => s)
        | _ => s
      eachLine w f fuel (va / 256 * 256 + 256) hi t

/-- A die takes a copy of a line of a CACHED page of another die, unless it has one. -/
def fillLine (d : Fin 8) (ctx : Fin 64) (s : State) (p : Phys) : State :=
  let k := forwardKey s p.key / 256 * 256
  if p.leaf.mode = 2 && (ownerDie s p.leaf.peer) != some d && (cachedLine s d ctx k).isNone then
    s.modDie d fun x => { x with cached := x.cached ++ [⟨ctx, k, s.bytes k 256⟩] }
  else s

/-- A die drops its copy of a line. -/
def dropLine (d : Fin 8) (ctx : Fin 64) (s : State) (p : Phys) : State :=
  let k := forwardKey s p.key / 256 * 256
  s.modDie d fun x => { x with cached := x.cached.filter fun l => !(l.ctx == ctx && l.key == k) }

/-- A dirty line is written back to HBM at its owner. -/
def writeBack (s : State) (p : Phys) : State :=
  let k := forwardKey s p.key
  match homeDie s k with
  | some d => s.modDie d fun x => { x with dirty := eraseKey (k / 256) x.dirty }
  | none => s

/-- PREF, INVC or WBC of the core in focus. -/
def workCache (s : State) (r : CopyRun) (f : State → Phys → State) : State :=
  let va := (r.cmd.vals.getD 0 0).toNat
  let n := (r.cmd.vals.getD 2 0).toNat
  finishRun (eachLine (whoOf s) f (n / 256 + 2) va (va + n) s) (whoOf s) r

/-! ## Rotation (08 R251) -/

/-- An RROT reaches the exchange: offsets, length and barrier are checked. -/
def enterRrot (s : State) (n : Nat) (r : CopyRun) : State :=
  let v (i : Nat) : Nat := (r.cmd.vals.getD i 0).toNat
  if s.core.rrot.isSome then s
  else if 2 ^ 23 < v 0 + v 2 ∨ 2 ^ 23 < v 1 + v 2 then stopRun s n r (plainFail .illegal) (copyMpc 0)
  else
    match checkBarrier s (whoOf s) (r.cmd.vals.getD 4 0) with
    | .error e => stopRun s n r e (copyMpc 0)
    | .ok _ => s.modCore fun c => { c with rrot := some ⟨r.cmd, s.ctx, s.now⟩ }

/-- The members of a clearing that are enabled. -/
def enabledMembers (s : State) (cl : Fin 64) : List (Fin 512) :=
  (clearingCores (Fin.ofNat 8 (cl.val / 8)) (cl.val % 8)).filter fun n => !s.disabled n

/-- The waiting RROT of a member. -/
def rrotOf (s : State) (n : Fin 512) : Option RrotWait := (s.coreAt n).rrot

/-- A member's RROT stops with a cause, and no longer waits. -/
def failRrot (n : Fin 512) (f : Fail) (s : State) : State :=
  atCore n (fun x =>
    match x.core.rrot with
    | none => x
    | some w =>
      let y := x.modCore fun c => { c with rrot := none }
      match y.cp.copies.findIdx? fun r => r.cmd.same w.cmd with
      | some i => (match y.cp.copies[i]? with
        | some r => stopRun y i r f (copyMpc 0)
        | none => y)
      | none => y) s

/-- What a member sends: its bytes and flags, or the cause that its source raises. -/
def rrotSource (s : State) (n : Fin 512) (w : RrotWait) : Except Fail (List Byte × Flags) :=
  let off := (w.cmd.vals.getD 1 0).toNat
  let len := (w.cmd.vals.getD 2 0).toNat
  let c := s.coreAt n
  match layoutRead c off len with
  | .error e => .error e
  | .ok f =>
    match spadPoison s c off len with
    | some o => .error (failAt .poison 0 (BitVec.ofNat 64 ((0x8000000000000000 + o) / 64 * 64)))
    | none => .ok (spadBytes s c off len, f)

/-- A member receives the bytes of the member before it; what it received is to be counted on its barrier. -/
def rrotReceive (s : State) (n : Fin 512) (x : List Byte × Flags) : State :=
  match rrotOf s n with
  | none => s
  | some w =>
    let p := putPad s n (w.cmd.vals.getD 0 0).toNat x.1
    atCore n (fun y =>
      let z := y.modCore fun c => { c with rrot := none }
      match z.cp.copies.findIdx? fun r => r.cmd.same w.cmd with
      | some i => (match z.cp.copies[i]? with
        | some r => writtenRun z i { r with flags := r.flags ||| x.2 ||| p.2 } x.1.length
        | none => z)
      | none => z) p.1

/-- The members of a list, each with the one after it, the last with the first. -/
def nextMembers (l : List (Fin 512)) : List (Fin 512) := l.drop 1 ++ l.take 1

/-- STATUS of PEERDENY for a member of a rotation whose contexts differ: kind 1, and the next member in the ring that has
another context, with that context (11 R319, log 12). -/
def rrotDenied (others : List (Fin 512 × RrotWait)) (ctx : Fin 64) : Nat :=
  match others.find? fun o => o.2.ctx != ctx with
  | some o => 2 ^ 60 + memberOf o.1 + o.2.ctx.val * 256
  | none => 2 ^ 60

/-- The exchange once every enabled member waits (08 R251). -/
def exchange (cl : Fin 64) (s : State) : State :=
  let l := enabledMembers s cl
  let ws := l.filterMap fun n => rrotOf s n
  if l.isEmpty || ws.length != l.length then s
  else
    let len (w : RrotWait) : Word := w.cmd.vals.getD 2 0
    let all (p : RrotWait → RrotWait → Bool) : Bool := ws.all fun a => ws.all fun b => p a b
    if !all fun a b => len a == len b then l.foldl (fun x n => failRrot n (plainFail .illegal) x) s
    else if !all fun a b => a.ctx == b.ctx then
      (l.zip ws).zipIdx.foldl (fun x d =>
        failRrot d.1.1 (failAt .peerdeny (rrotDenied ((l.zip ws).drop (d.2 + 1) ++ (l.zip ws).take d.2) d.1.2.ctx) 0) x) s
    else
      let src := l.zip ws |>.map fun x => (x.1, rrotSource s x.1 x.2)
      match src.find? fun x => !x.2.toBool with
      | some (n, .error e) => failRrot n e s
      | _ =>
        (nextMembers l).zip src |>.foldl (fun x d => match d.2.2 with
          | .ok b => rrotReceive x d.1 b
          | .error _ => x) s

/-- The clearing of the core in focus. -/
def ownClearing (s : State) : Fin 64 := Fin.ofNat 64 (s.core.agent.val / 8)

/-- The RROT of the core in focus has waited longer than `BARTMO` (08 R251). -/
def rrotOver (s : State) : State :=
  match s.core.rrot with
  | some w =>
    let t := s.die.bartmo.toNat
    if t ≠ 0 ∧ t < s.now - w.since then failRrot s.core.agent (failAt .stagetimeout 0 (w.cmd.vals.getD 4 0)) s else s
  | none => s

/-! ## Subscriptions (08 R247-R249) -/

/-- COUNT_j of a descriptor. -/
def subCount (d : List Byte) (j : Nat) : Nat := leAt d (0x0C + 8 * j) 4

/-- Tiles of a subscription. -/
def subTiles (d : List Byte) : Nat := (List.range 4).foldl (fun n j => n * subCount d j) 1

/-- The fields of a descriptor are within their limits. -/
def subOk (d : List Byte) : Bool :=
  let slots := leAt d 0x2D 1
  (List.range 4).all (fun j => decide (1 ≤ subCount d j) && decide (subCount d j ≤ 2 ^ 24))
    && decide (64 ≤ leAt d 0x28 4) && decide (leAt d 0x28 4 ≤ 2 ^ 20) && decide (leAt d 0x2C 1 ≤ 7)
    && decide (1 ≤ slots) && decide (slots ≤ 64) && zeroAt d 0x2E 2 && leAt d 0x30 4 % 64 == 0 && leAt d 0x34 4 % 64 == 0
    && leAt d 0x38 4 % 16 == 0 && zeroAt d 0x3C 4
    && decide (leAt d 0x30 4 + slots * leAt d 0x34 4 ≤ 2 ^ 23) && decide (leAt d 0x38 4 + 16 * slots ≤ 2 ^ 23)

/-- The digits of a tile number, counter 0 first (05 R132). -/
def subDigits (d : List Byte) : Nat → Nat → Nat → List Nat
  | 0, _, _ => []
  | fuel + 1, j, n => n % max 1 (subCount d j) :: subDigits d fuel (j + 1) (n / max 1 (subCount d j))

/-- Where tile `n` starts. -/
def tileSource (d : List Byte) (n : Nat) : Word :=
  let off := (subDigits d 4 0 n).zipIdx.foldl (fun (a : Int) x =>
    a + (x.1 : Int) * (BitVec.ofNat 32 (leAt d (8 + 8 * x.2) 4)).toInt) 0
  BitVec.ofInt 64 ((leAt d 0 8 : Int) + off)

/-- The window of a member. -/
def memberWindow (m off : Nat) : Word := BitVec.ofNat 64 ((0x80200000 + m % 8) * 2 ^ 32 + off)

/-- SUBS reads its descriptor and becomes active. -/
def startSubs (s : State) (n : Nat) (r : CopyRun) (o : Cx) : State :=
  let a := r.cmd.vals.getD 0 0
  let id := (r.cmd.vals.getD 1 0).toNat
  if a.toNat % 64 ≠ 0 then stopRun s n r (failAt .align 64 a) (copyMpc 0)
  else
    match readBytes (moverOf (whoOf s) r.cmd) a 64 (s, 0) with
    | .error (.fail f) => stopRun s n r f (copyMpc 0)
    | .error (.held k) => noteHeld s k .copy
    | .error .behind => s
    | .ok (d, t, _) =>
      if h : id < 8 then
        if (t.cp.subs[id]).isSome || !subOk d then stopRun t n r (plainFail .illegal) (copyMpc 0)
        else
          let c : Cmd := { r.cmd with instr := .copy { o with ntf := false, rel := false, acq := false } }
          finishRun (t.modCp fun p => { p with subs := p.subs.set id (some ⟨c, d, 0⟩) }) (whoOf t) r
      else stopRun t n r (plainFail .illegal) (copyMpc 0)

/-- UNSUB: no delivery is in flight between two steps, so it completes. -/
def endSubs (s : State) (n : Nat) (r : CopyRun) : State :=
  let id := (r.cmd.vals.getD 1 0).toNat
  if h : id < 8 then finishRun (s.modCp fun p => { p with subs := p.subs.set id none }) (whoOf s) r
  else stopRun s n r (plainFail .illegal) (copyMpc 0)

/-- The copy of a tile into its slot. -/
def tileCmd (b : Subscription) : Cmd :=
  let k := b.next % max 1 (leAt b.desc 0x2D 1)
  let dst := memberWindow (leAt b.desc 0x2C 1) (leAt b.desc 0x30 4 + k * leAt b.desc 0x34 4)
  { b.cmd with vals := [dst, tileSource b.desc b.next, BitVec.ofNat 64 (leAt b.desc 0x28 4), b.cmd.vals.getD 3 0, 0, b.cmd.vals.getD 5 0] }

/-- The barrier of the slot of the next tile. -/
def tileBarrier (b : Subscription) : Word :=
  memberWindow (leAt b.desc 0x2C 1) (leAt b.desc 0x38 4 + 16 * (b.next % max 1 (leAt b.desc 0x2D 1)))

/-- The plan of a tile: its output fits a slot. -/
def tilePlan (m : Mover) (b : Subscription) : Cpm Plan := do
  let p ← copyPlan m (tileCmd b)
  checkC (decide (p.span ≤ leAt b.desc 0x34 4))
  pure p

/-- A fault on a tile: it names the SUBS and the tile. -/
def tileFault (s : State) (b : Subscription) (f : Fail) : State :=
  s.modRegs fun y => { y with pend := { y.pend with copy := some (copyCause b.cmd f (BitVec.ofNat 64 b.next)) } }

/-- The slot's barrier asks for bytes in its phase. -/
def slotAsks (s : State) (a : Word) : Except Fail Bool :=
  match sideOf s (whoOf s) a with
  | .error e => .error e
  | .ok (.global _) => .error (failAt .xmiss 0 a)
  | .ok (.pad n off) => .ok (decide (0 < (barRead s n off).pending))

/-- The next tile of a subscription of the core in focus, delivered once its slot asks for it (08 R248). -/
def deliverTile (id : Fin 8) (s : State) : State :=
  match s.cp.subs[id], s.core.task, s.core.regs.pend.copy with
  | some b, some _, none =>
    if subTiles b.desc ≤ b.next then s
    else
      let a := tileBarrier b
      let c := tileCmd b
      let m := moverOf (whoOf s) c
      match slotAsks s a with
      | .error f => tileFault s b f
      | .ok false => s
      | .ok true =>
        let w := runCopy m c (tilePlan m b) none 0 s
        match w.out with
        | .more => s
        | .wait k => waitRun s k
        | .fault f => tileFault (w.s.addFlags w.flags) b f
        | .done bytes =>
          let t := (w.s.addFlags w.flags).modCp fun p => { p with subs := p.subs.set id (some { b with next := b.next + 1 }) }
          match countOn t (whoOf t) a bytes with
          | .ok u => u
          | .late u f =>
            let k : Cmd := { c with vals := c.vals.set 4 a }
            lateTo (u.modCp fun p => { p with copies := p.copies ++ [⟨k, 0, .lateDeliver bytes, none, [], true, 0⟩] }) (whoOf u)
              (lateCopy k f)
  | _, _, _ => s

/-! ## CPHs that carry blazes (07 R195-R199) -/

/-- A hold-queue entry replaced. -/
def replaceHold (s : State) (d : Fin 8) (h k : HoldEnt) : State :=
  s.modDie d fun x => { x with hold := x.hold.map fun y => if y = h then k else y }

/-- The die at which a destination address is performed. -/
def destDie (s : State) (w : Who) (a : Word) : Fin 8 :=
  let own := dieOf w.actor.agent
  match classify w.actor.agent a with
  | .globalVa va => (match translate s none own w.ctx w.priv .write va with
    | .ok p => (ownerDie s p.leaf.peer).getD own
    | .error _ => own)
  | _ => own

/-- The blazes of a CPH that are not known to have landed: one whose generation is past has (07 R194), and so has one
of the issuing die whose entry is LANDED (07 R195). -/
def openBlazes (s : State) (own : Fin 8) (l : List (BlazeRef × BitVec 24)) : List (BlazeRef × BitVec 24) :=
  l.filter fun b => match blazeOf s b.1 with
    | none => false
    | some (d, e) => !(d == own && e.state == .landed)

/-- A CPH is registered as a watcher of each of its blazes (07 R195). -/
def watchAll (s : State) (l : List (BlazeRef × BitVec 24)) : State :=
  l.foldl (fun x b => match blazeOf x b.1 with
    | some (d, _) => modBlaze x d b.1.entry.val fun e => { e with watchers := e.watchers + 1 }
    | none => x) s

/-- The `n`-th command, a CPH that carries blazes, is checked, registered, and leaves for its destination. With no blaze
left to wait for it is an ordinary copy. -/
def sendCph (s : State) (n : Nat) (r : CopyRun) : State :=
  let w := whoOf s
  let l := openBlazes s (dieOf s.core.agent) r.carried
  if l.isEmpty then workCopy s n r none
  else
    let m := moverOf w r.cmd
    match copyPlan m r.cmd (s, 0) with
    | .error (.fail f) => stopRun s n r f (copyMpc 0)
    | .error (.held k) => noteHeld s k .copy
    | .error .behind => s
    | .ok (p, t, _) =>
      let a := r.cmd.vals.getD 0 0
      let h : HoldEnt := ⟨w, r.cmd, l.map fun b => (b.1, b.2, none), false, none, a.toNat, a.toNat + p.span⟩
      let u := setRunAt (watchAll t l) n { r with phase := .sent }
      u.modDie (destDie u w a) fun x => { x with hold := x.hold ++ [h] }

/-- The blaze that a TOKENEXPIRED names (12 R358). -/
def namedBlaze (l : List (BlazeRef × BitVec 24 × Option Bool)) : Option (BlazeRef × BitVec 24 × Option Bool) :=
  match l.filter (fun b => b.2.2 == some false), l.filter (fun b => b.2.2 == none) with
  | [x], _ => some x
  | [], [x] => some x
  | _, _ => l.head?

/-- TOKENEXPIRED of a discarded CPH (12 R358). -/
def expiredFail (h : HoldEnt) : Fail :=
  let st : Nat := match namedBlaze h.blazes with
    | some (z, i, _) => z.home.toNat * 2 ^ 49 + z.entry.val * 2 ^ 37 + z.gen.toNat * 2 ^ 32 + i.toNat
    | none => 0
  failAt .tokenexpired st (h.cmd.vals.getD 0 0)

/-- A held CPH is discarded: nothing of it is written, and its issuer receives TOKENEXPIRED (07 R196). The cause arrives
before its watchers are released, so that the entry it names is kept (12 R358). -/
def discardHold (s : State) (d : Fin 8) (h : HoldEnt) : State :=
  let t := modRun (dropHold s d h) h.who h.cmd fun r => { r with phase := .lateRun }
  unwatchAll (lateTo t h.who (lateCopy h.cmd (expiredFail h))) h

/-- The command of a held CPH as its issuer keeps it. -/
def heldRun (s : State) (h : HoldEnt) : CopyRun :=
  let l := if ownerRuns s h.who then (s.coreAt h.who.actor.agent).regs.cp.copies
    else (s.tasks.find? fun e => e.task.id == h.who.id).bind (·.image) |>.map (·.regs.cp.copies) |>.getD []
  (l.find? fun r => r.cmd.same h.cmd).getD ⟨h.cmd, 0, .sent, none, h.blazes.map fun b => (b.1, b.2.1), false, 0⟩

/-- A held CPH is performed (07 R196): it acts for its issuer as it was when the CPH left. It stays where another held
CPH or a migration is before it; a fault at its destination is of precision D. One with a local range waits until its
task runs. -/
def performHold (s : State) (d : Fin 8) (h : HoldEnt) : State :=
  if h.cmd.isLocal && !ownerRuns s h.who then s
  else
    let m := moverOf h.who h.cmd
    let w := runCopy m h.cmd (copyPlan m h.cmd) none 0 (dropHold s d h)
    let r := { heldRun s h with flags := w.flags, units := w.units }
    match w.out with
    | .done bytes =>
      if h.cmd.vals.getD 4 0 = 0 then finishRun w.s h.who r
      else if ownerRuns s h.who || ownerSaved s h.who then modRun w.s h.who h.cmd fun _ => { r with phase := .deliver bytes }
      else deliverRun w.s h.who r bytes
    | .fault f =>
      let t := modRun (addFlagsOf w.s h.who w.flags) h.who h.cmd fun y => { y with phase := .lateRun }
      lateTo t h.who (lateCopy h.cmd f)
    | _ => s

/-- What the home of a blaze answers to its WATCH (07 R195): a free entry or another generation is answered FAILED. -/
def answerOf (s : State) (z : BlazeRef) : Option Bool :=
  match blazeOf s z with
  | none => some false
  | some (_, b) => match b.state with
    | .landed => some true
    | .failed => some false
    | .pending => none

/-- The answers of some kinds reach a held CPH: it is discarded with one FAILED, performed with all LANDED. -/
def answerHold (kinds : Bool → Bool) (s : State) (d : Fin 8) (h : HoldEnt) : State :=
  if !h.watched then s
  else
    let new (b : BlazeRef × BitVec 24 × Option Bool) : Option Bool :=
      if b.2.2.isSome then none else (answerOf s b.1).filter kinds
    let k := { h with blazes := h.blazes.map fun b => (b.1, b.2.1, (new b).or b.2.2) }
    let told (x : State) : State := (h.blazes.filter fun b => (new b).isSome).foldl (fun x b => unwatch x b.1) x
    let t := replaceHold s d h k
    if k.blazes.any fun b => b.2.2 == some false then told (discardHold t d k)
    else if k.blazes.all fun b => b.2.2 == some true then performHold (told t) d k
    else told t

/-- CPHs on their way to a die, in the order they left. -/
def onTheirWay (s : State) (d : Fin 8) : List HoldEnt := s.dies[d].hold.filter fun h => h.since.isNone

/-- The traffic class of a command. -/
def tcOf (c : Cmd) : Fin 4 := ((cxOf c.instr).map (·.tc)).getD 0

/-- A CPH is the first of its flow that is on its way to a die. -/
def firstOfFlow (s : State) (d : Fin 8) (h : HoldEnt) : Bool :=
  ((onTheirWay s d).find? fun x => dieOf x.who.actor.agent == dieOf h.who.actor.agent && tcOf x.cmd == tcOf h.cmd) == some h

/-- A CPH enters the hold queue of its destination; a full one refuses it (07 R195, R198). -/
def arriveHold (s : State) (d : Fin 8) (h : HoldEnt) : State × HoldEnt :=
  if firstOfFlow s d h && decide ((s.dies[d].hold.filter fun x => x.since.isSome).length < 512) then
    let k := { h with since := some s.dies[d].cycle.toNat }
    (replaceHold s d h k, k)
  else (s, h)

/-- The WATCH messages of a held CPH are sent (07 R195). -/
def sendWatch (s : State) (d : Fin 8) (h : HoldEnt) : State × HoldEnt :=
  if h.since.isSome then (replaceHold s d h { h with watched := true }, { h with watched := true }) else (s, h)

/-- The CPHs of the core in focus move on as far as they can (log 5). -/
def advanceHolds (s : State) : State :=
  (List.finRange 8).foldl (fun x d =>
    (x.dies[d].hold.filter fun h => h.who.actor.agent == s.core.agent).foldl (fun y h =>
      let a := if h.since.isNone then arriveHold y d h else (y, h)
      let b := sendWatch a.1 d a.2
      answerHold (fun _ => true) b.1 d b.2) x) s

/-! ## The engines -/

/-- The work of the `n`-th command that the engines of the core in focus hold; `fuel` bounds the units of a copy. -/
def workRun (s : State) (n : Nat) (fuel : Option Nat) : State :=
  match s.cp.copies[n]? with
  | none => s
  | some r =>
    let go : State := match r.cmd.instr with
      | .atom o => workAtom s n r o false
      | .atomf o => workAtom s n r o true
      | .subs o => startSubs s n r o
      | .unsub _ => endSubs s n r
      | .rrot _ => enterRrot s n r
      | .pref _ => workCache s r (fillLine (dieOf s.core.agent) s.ctx)
      | .invc _ => workCache s r (dropLine (dieOf s.core.agent) s.ctx)
      | .wbc _ => workCache s r writeBack
      | _ => if r.carried.isEmpty then workCopy s n r fuel else sendCph s n r
    match r.phase with
    | .run => go
    | .stalled _ => if s.core.regs.pend.copy.isNone then go else s
    | .deliver bytes => if isPull r.cmd.instr && !doneBefore s r.cmd.idx then s else deliverRun s (whoOf s) r bytes
    | _ => s

/-- An earlier release of the SCC is unsent, or an earlier access is not performed (07 R181). -/
def releaseReady (s : State) (c : Cmd) : Bool := doneBefore s c.idx && !(s.ord.release.any fun p => idxBefore p.idx c.idx)

/-- A CPH of this core that precedes a command in its class has not arrived yet. -/
def cphOnItsWay (s : State) (c : Cmd) : Bool :=
  (List.finRange 8).any fun d => (onTheirWay s d).any fun h => h.who.actor.agent == s.core.agent && tcOf h.cmd == tcOf c

/-- The port holds the command at its head (07 R178, R181, R183, R191). -/
def portWaits (s : State) (c : Cmd) (o : Cx) : Bool :=
  cpBlocked s c || (o.rel && !releaseReady s c) || cphOnItsWay s c
    || s.cp.copies.any fun r => ((cxOf r.cmd.instr).map (·.acq)).getD false

/-- The lowest key that a rising list does not hold. -/
def firstGap {α : Type} : Nat → List (Nat × α) → Nat
  | n, [] => n
  | n, e :: es => if e.1 = n then firstGap (n + 1) es else n

/-- A CPB places the blaze of its write in a z-register: a free entry of the die's table, or none with a full table
(07 R193, R194). -/
def placeBlaze (s : State) (c : Cmd) (z : Fin 16) : Option (State × BlazeRef) :=
  let d := dieOf s.core.agent
  let t := dropZ s z
  let x := t.dies[d]
  let e := firstGap 0 x.blazes
  if h : e < 4096 then
    let g := (lookupKey e x.blazeGens).getD 0
    let r : BlazeRef := ⟨peerOf s.pkg d.val, ⟨e, h⟩, g⟩
    let u := t.modDie d fun y => { y with blazes := insertKey e ⟨.pending, g, s.core.agent, c.idx, 0, 0, false⟩ y.blazes }
    some (u.modOrd fun q => { q with z := q.z.set z (some r) }, r)
  else none

/-- The blazes that a CPH takes from its z-registers, each with the index of its CPB where its home is known. -/
def takeBlazes (s : State) (o : Cx) : List (BlazeRef × BitVec 24) :=
  [o.za, o.zb].filterMap fun (z : Fin 16) =>
    if z = 0 then none
    else (s.ord.z[z]).map fun r => (r, ((blazeOf s r).map fun x => x.2.idx).getD 0)

/-- The command at the head of the queue, which the state no longer holds, is handed to a copy engine. -/
def handOver (s : State) (c : Cmd) : Option State :=
  let add (t : State) (b : Option BlazeRef) (l : List (BlazeRef × BitVec 24)) : State :=
    t.modCp fun p => { p with copies := p.copies ++ [⟨c, 0, .run, b, l, false, 0⟩] }
  match c.instr with
  | .setb o => some (s.modCp fun p => { p with b := p.b.set o.idx (c.vals.getD 0 0) })
  | .cpb o =>
    if o.za = 0 then some (add s none [])
    else (placeBlaze s c o.za).map fun x => add x.1 (some x.2) []
  | .cph o => some (add s none (openBlazes s (dieOf s.core.agent) (takeBlazes s o)))
  | _ => some (add s none [])

/-- One step of the copy issue port: its head is handed over unless an order holds it, or a cause of the copy engines is
pending and it has a local range (12 R333, 14 R381). -/
def portHand (s : State) : State :=
  match s.cp.queue with
  | c :: cs =>
    if (s.core.regs.pend.copy.isSome && c.isLocal) || ((cxOf c.instr).map (portWaits s c)).getD false then s
    else (handOver (s.modCp fun p => { p with queue := cs }) c).getD s
  | [] => s

/-- While a cause of the copy engines is pending, or any cause is being taken, only commands with global ranges go on
(12 R333). -/
def mayWork (s : State) (r : CopyRun) : Bool :=
  match s.core.regs.pend.copy with
  | none => s.core.regs.pend.taking.isNone || !r.cmd.isLocal
  | some x => !r.cmd.isLocal && r.cmd.idx != x.idx

/-- Each command held by the engines works, from the `n`-th on, counted from the last. -/
def workFrom : Nat → State → State
  | 0, s => s
  | n + 1, s =>
    let i := s.cp.copies.length - (n + 1)
    let t := match s.cp.copies[i]? with
      | some r => if mayWork s r then workRun s i none else s
      | none => s
    workFrom n t

/-- The copy engines of a core that performs commands at dispatch: what they hold works, held CPHs move on, a rotation
that is complete takes place, subscriptions deliver, and the port hands over its head (log 5). -/
def cpStep (s : State) : State :=
  if s.core.task.isNone then s
  else
    let a := portHand s
    let b := workFrom a.cp.copies.length a
    let c := if b.core.rrot.isSome then exchange (ownClearing b) b else b
    let d := advanceHolds c
    let e := (List.finRange 8).foldl (fun x i => deliverTile i x) d
    workFrom e.cp.copies.length e

end Sys2Proof.Machine
end

