-- ==== Sys2Proof/Machine/CopyExec.lean ====
section
/-! DEFINITION. Dispatch of copy-class commands (08 R230, R232) and the meaning of each, `SETB` (05 R108), and the steps of
the package that belong to copies, atomics, blazes, held CPHs, subscriptions and rotations. -/

namespace Sys2Proof.Machine

/-! ## Dispatch -/

/-- The scalar registers a copy-class form names; AMAX has a size code in sc (08 R246). -/
def cpRegs (i : Instr) (o : Cx) : List SReg :=
  match i with
  | .atom _ | .atomf _ => if o.xf = 7 then [o.sa, o.sb, o.sd] else [o.sa, o.sb, o.sc, o.sd]
  | _ => [o.sa, o.sb, o.sc, o.sd, o.se]

/-- The chain's target is HB4: the parameter block is looked at, where it can be read (02 R50, 08 R236). -/
def targetsHb4 (o : Cx) (s : State) : Bool :=
  let a := s.sreg o.sd
  (o.xf == 2 || o.xf == 5 || o.xf == 11) && a != 0 &&
    match readParams ⟨whoOf s, o.tc, false⟩ a (s, 0) with
    | .ok (bs, _) => leAt bs 1 1 == 15
    | .error _ => false

/-- A copy-class form needs a feature that the die has not accepted (02 R50). -/
def cpMissing (i : Instr) (o : Cx) (s : State) : Bool :=
  match i with
  | .cpb _ | .cph _ => !s.hasFeature 2 || (!s.hasFeature 1 && targetsHb4 o s)
  | .copy _ | .subs _ | .pull _ => !s.hasFeature 1 && targetsHb4 o s
  | _ => false

/-- A command joins the queue of the copy issue port, or is worked on at once; a full queue holds the SCC (02 R38). -/
def queueCp (c : Cmd) (s : State) : State :=
  if 32 ≤ s.cp.queue.length then holds s
  else
    let t := (retire s).modCp fun p => { p with queue := p.queue ++ [c] }
    if t.core.inOrder then cpStep t else t

/-- A copy-class command with its five registers and `FPCTL` captured. -/
def cpCmd (i : Instr) (o : Cx) (s : State) : Cmd :=
  mkCmd i [s.sreg o.sa, s.sreg o.sb, s.sreg o.sc, s.sreg o.sd, s.sreg o.se, s.fp.fpctl] s

/-- A copy-class command takes the next copy sequence number, and with NTF a place in the event queue (08 R229, R230). -/
def takePlace (o : Cx) (s : State) : State :=
  s.modCp fun p => { p with cseq := p.cseq + 1, reserved := p.reserved + (if o.ntf then 1 else 0) }

/-- A copy-class command is dispatched. -/
def dispatchCp (i : Instr) (o : Cx) (s : State) : Out :=
  .next (
    if !ready s (cpRegs i o) then holds s
    else if cpMissing i o s then trap s (plainFail .illfeature)
    else if 32 ≤ s.cp.queue.length then holds s
    else if o.ntf && decide (64 ≤ s.cp.events.length + s.cp.reserved) then illegal s
    else queueCp (cpCmd i o s) (takePlace o s))

/-- COPY (08 R242). -/
def execCopy (o : Cx) (s : State) : Out := dispatchCp (.copy o) o s
/-- COPYF (08 R242). -/
def execCopyf (o : Cx) (s : State) : Out := dispatchCp (.copyf o) o s
/-- CPB (08 R244). -/
def execCpb (o : Cx) (s : State) : Out := dispatchCp (.cpb o) o s
/-- CPH (08 R244). -/
def execCph (o : Cx) (s : State) : Out := dispatchCp (.cph o) o s
/-- ATOM (08 R246). -/
def execAtom (o : Cx) (s : State) : Out := dispatchCp (.atom o) o s
/-- ATOMF (08 R246). -/
def execAtomf (o : Cx) (s : State) : Out := dispatchCp (.atomf o) o s
/-- SUBS (08 R247). -/
def execSubs (o : Cx) (s : State) : Out := dispatchCp (.subs o) o s
/-- UNSUB (08 R249). -/
def execUnsub (o : Cx) (s : State) : Out := dispatchCp (.unsub o) o s
/-- PULL (08 R250). -/
def execPull (o : Cx) (s : State) : Out := dispatchCp (.pull o) o s
/-- RROT (08 R251). -/
def execRrot (o : Cx) (s : State) : Out := dispatchCp (.rrot o) o s
/-- PREF (08 R252). -/
def execPref (o : Cx) (s : State) : Out := dispatchCp (.pref o) o s
/-- INVC (08 R252). -/
def execInvc (o : Cx) (s : State) : Out := dispatchCp (.invc o) o s
/-- WBC (08 R252). -/
def execWbc (o : Cx) (s : State) : Out := dispatchCp (.wbc o) o s

/-- SETB: a bound register is written when the engine reaches it (02 R40, 05 R108). Between `VLOOP` and `VLEND` the VE
takes it before the loop, whose commands name no bound register. -/
def execSetb (o : Se) (s : State) : Out :=
  .next (
    if !ready s [o.a] then holds s
    else
      let c := mkCmd (.setb o) [s.sreg o.a] s
      match o.eng with
      | .ve => queueVe c s
      | .me => queueMe c s
      | .cp => queueCp c s)

/-! ## Steps of the package -/

/-- COPY_COMPLETE: the `n`-th command of a core's engines performs what is left of it (07 R180). -/
def copyComplete (n : Nat) (s : State) : State :=
  match s.cp.copies[n]? with
  | some r =>
    if mayWork s r then
      let t := workRun s n none
      if t.core.regs.pend = s.core.regs.pend then t else s
    else s
  | none => s

/-- COPY_COMPLETE (07 R180). -/
def execCopyComplete (core : Fin 512) (n : Nat) (s : State) : Out := .next (atCore core (copyComplete n) s)

/-- The `n`-th command of a core's engines is delivered to its barrier (08 R253). -/
def deliverStep (n : Nat) (s : State) : State :=
  match s.cp.copies[n]? with
  | some r => (match r.phase with
    | .deliver _ => workRun s n none
    | _ => s)
  | none => s

/-- BARRIER_DELIVERY (08 R253). -/
def execBarrierDelivery (core : Fin 512) (n : Nat) (s : State) : Out := .next (atCore core (deliverStep n) s)

/-- SUBSCRIPTION_TILE_DELIVERY (08 R248). -/
def execSubscriptionTileDelivery (core : Fin 512) (id : Fin 8) (s : State) : Out := .next (atCore core (deliverTile id) s)

/-- RROT_EXCHANGE (08 R251). -/
def execRrotExchange (clearing : Fin 64) (s : State) : Out := .next (exchange clearing s)

/-- RROT_TIMEOUT (08 R251). -/
def execRrotTimeout (core : Fin 512) (s : State) : Out := .next (atCore core rrotOver s)

/-- The `n`-th command of a core's engines is an atomic: its unit performs it (07 R200). -/
def atomStep (n : Nat) (s : State) : State :=
  match s.cp.copies[n]? with
  | some r => (match r.cmd.instr with
    | .atom _ | .atomf _ => if mayWork s r then workRun s n none else s
    | _ => s)
  | none => s

/-- ATOMIC_UNIT_PERFORM (07 R200). -/
def execAtomicUnitPerform (core : Fin 512) (n : Nat) (s : State) : Out := .next (atCore core (atomStep n) s)

/-- The CPB of a blaze entry is performed; `st` is what the entry must become (07 R193). -/
def settleEntry (die : Fin 8) (entry : Fin 4096) (st : BlazeState) (s : State) : State :=
  match lookupKey entry.val s.dies[die].blazes with
  | none => s
  | some b =>
    if b.state = .pending then
      let t := atCore b.agent (fun x =>
        match x.cp.copies.findIdx? fun r => r.blaze.any fun z => z.entry == entry && z.gen == b.gen with
        | some n => (match x.cp.copies[n]? with
          | some r => if mayWork x r then workRun x n none else x
          | none => x)
        | none => x) s
      if blazeState t ⟨peerOf s.pkg die.val, entry, b.gen⟩ = st then t else s
    else s

/-- BLAZE_LANDED (07 R193). -/
def execBlazeLanded (die : Fin 8) (entry : Fin 4096) (s : State) : Out := .next (settleEntry die entry .landed s)
/-- BLAZE_FAILED (07 R193). -/
def execBlazeFailed (die : Fin 8) (entry : Fin 4096) (s : State) : Out := .next (settleEntry die entry .failed s)

/-- The `n`-th command of a core's engines, a CPH that carries blazes, is registered and leaves (07 R195). -/
def registerCph (n : Nat) (s : State) : State :=
  match s.cp.copies[n]? with
  | some r => (match r.phase with
    | .run => if r.carried.isEmpty || !mayWork s r then s else sendCph s n r
    | _ => s)
  | none => s

/-- WATCHER_REGISTER (07 R195). -/
def execWatcherRegister (core : Fin 512) (n : Nat) (s : State) : Out := .next (atCore core (registerCph n) s)

/-- CPH_ARRIVAL: the `n`-th CPH of a core that is on its way enters its hold queue (07 R195, R198). -/
def execCphArrival (core : Fin 512) (n : Nat) (s : State) : Out :=
  let l := (List.finRange 8).flatMap fun d =>
    ((onTheirWay s d).filter fun h => h.who.actor.agent == core).map fun h => (d, h)
  .next (match l[n]? with
    | some (d, h) => (arriveHold s d h).1
    | none => s)

/-- Something done with the `n`-th entry of a die's hold queue. -/
def withHold (die : Fin 8) (n : Nat) (f : HoldEnt → State → State) (s : State) : State :=
  match s.dies[die].hold[n]? with
  | some h => f h s
  | none => s

/-- WATCH (07 R195). -/
def execWatch (die : Fin 8) (n : Nat) (s : State) : Out :=
  .next (withHold die n (fun h x => (sendWatch x die h).1) s)
/-- LANDED (07 R196). -/
def execLanded (die : Fin 8) (n : Nat) (s : State) : Out :=
  .next (withHold die n (fun h x => answerHold (fun b => b) x die h) s)
/-- FAILED (07 R196). -/
def execFailed (die : Fin 8) (n : Nat) (s : State) : Out :=
  .next (withHold die n (fun h x => answerHold (fun b => !b) x die h) s)

/-- HOLDLIM cycles have passed since a CPH entered the queue, with an answer still missing (07 R196). -/
def holdExpired (s : State) (d : Fin 8) (h : HoldEnt) : Bool :=
  let lim := s.dies[d].holdlim.toNat
  lim != 0 && h.blazes.any (fun b => b.2.2.isNone) &&
    (h.since.map fun c => decide (c + lim ≤ s.dies[d].cycle.toNat)).getD false

/-- HOLDLIM_EXPIRY (07 R196). -/
def execHoldlimExpiry (die : Fin 8) (n : Nat) (s : State) : Out :=
  .next (withHold die n (fun h x => if holdExpired x die h then discardHold x die h else x) s)

end Sys2Proof.Machine
end

