-- ==== Sys2Proof/Machine/Fabric.lean ====
section
/-! DEFINITION. The fabric (09 R284-R289, 07 R190, R191, 01 R24-R26): packets of flows on the package ring and the torus,
their routes, marks, refusals and re-sends. Packets carry no data: what an access does is performed at its port, and a
flow keeps its order (07 R191). -/

namespace Sys2Proof.Machine

/-! ## Time and flows -/

/-- The fabric cycle of a die: two in each die cycle (09 R284, log 4). -/
def fabricNow (s : State) (d : Fin 8) : Nat := 2 * s.dies[d].cycle.toNat

/-- The package of a peer. -/
def pkgOf (p : BitVec 15) : BitVec 12 := BitVec.ofNat 12 (p.toNat / 8)

/-- The die of a peer number. -/
def peerDie (p : BitVec 15) : Fin 8 := Fin.ofNat 8 p.toNat

/-- Two packets belong to one flow (07 R190). -/
def Packet.sameFlow (p q : Packet) : Bool := p.src == q.src && p.dst == q.dst && p.tc == q.tc

/-- Flits of a packet: a 32-byte header and its payload (09 R284). -/
def Packet.flits (p : Packet) : Nat := (32 + p.bytes + 63) / 64

/-- The packet with a number. -/
def pktAt (s : State) (num : Nat) : Option Packet := s.packets.find? fun p => p.num == num

/-- A packet replaced. -/
def setPkt (s : State) (p : Packet) : State := { s with packets := s.packets.map fun q => if q.num = p.num then p else q }

/-- Packets of its flow that were injected before it and have not been delivered, in order. -/
def earlierOf (s : State) (p : Packet) : List Packet :=
  s.packets.filter fun q => q.sameFlow p && decide (q.num < p.num) && q.place != .delivered

/-- Packets of its flow that were injected after it and have not been delivered, in order. -/
def laterPkts (s : State) (p : Packet) : List Packet :=
  s.packets.filter fun q => q.sameFlow p && decide (p.num < q.num) && q.place != .delivered

/-! ## Routes (09 R286) -/

/-- A coordinate of a package: X, Y, Z for 0, 1, 2 (01 R25). -/
def coord (pkg : BitVec 12) (dim : Nat) : Nat := bits pkg.toNat (8 - 4 * dim) 4

/-- The extent of a dimension, 1 to 16. -/
def extentOf (s : State) (dim : Nat) : Nat :=
  max 1 (min 16 (match dim with | 0 => s.extent.1 | 1 => s.extent.2.1 | _ => s.extent.2.2))

/-- The dimension order that an entropy selects. -/
def dimOrder (e : Nat) : List Nat := match e / 4 with | 1 => [1, 2, 0] | 2 => [2, 0, 1] | _ => [0, 1, 2]

/-- A code that is never written routes as 0. -/
def routeEntropy (e : Nat) : Nat := if e < 12 then e else 0

/-- The next hop of a packet from a package in a dimension order: the dimension, and whether in + direction. -/
def nextDim (s : State) (pkg dst : BitVec 12) (order : List Nat) : Option (Nat × Bool) :=
  (order.find? fun d => coord pkg d != coord dst d).map fun d =>
    let x := extentOf s d
    let up := (coord dst d + x - coord pkg d % x) % x
    (d, decide (up ≤ x - up))

/-- The port on which a hop leaves: on die 2 (e mod 4), or one more in - direction (01 R26, 09 R286). -/
def torusPort (e : Nat) (hop : Nat × Bool) : Fin 24 := Fin.ofNat 24 (3 * (2 * (e % 4) + (if hop.2 then 0 else 1)) + hop.1)

/-- The neighbour of a package. -/
def neighbour (s : State) (pkg : BitVec 12) (hop : Nat × Bool) : BitVec 12 :=
  let x := extentOf s hop.1
  let c := coord pkg hop.1
  let n := (if hop.2 then c + 1 else c + x - 1) % x
  BitVec.ofNat 12 (pkg.toNat - c * 2 ^ (8 - 4 * hop.1) + n * 2 ^ (8 - 4 * hop.1))

/-- The hop of a packet that stands in a channel of a package; escape channels route in XYZ order (09 R288). -/
def hopOf (s : State) (p : Packet) (pkg : BitVec 12) (escape : Bool) : Option (Nat × Bool) :=
  nextDim s pkg (pkgOf p.dst) (if escape then [0, 1, 2] else dimOrder (routeEntropy p.entropy))

/-! ## Injection (09 R286, R289) -/

/-- The path entropy of a die for a destination: at first the source's peer number mod 12. -/
def entropyFor (s : State) (src dst : BitVec 15) : Nat :=
  ((s.dies[peerDie src].bridge.entropy.find? fun e => e.1 == dst).map (·.2)).getD (src.toNat % 12)

/-- Where a packet starts that has passed its limiter: on the ring, or in the router of its package. -/
def startPlace (s : State) (p : Packet) : PktPlace :=
  if pkgOf p.src = pkgOf p.dst then .ring 0 else .torus (pkgOf p.src) none (fabricNow s (peerDie p.src))

/-- The direction in which a packet leaves its source package. -/
def leaveDir (s : State) (p : Packet) : Option Nat := (hopOf s p (pkgOf p.src) false).map fun h => 2 * h.1 + (if h.2 then 0 else 1)

/-- Class-0 bytes that a die may inject in one direction over 4,096 fabric cycles: `TCLIM` / 1,024 of a port's 70 bytes a
fabric cycle (09 R289, 01 R26, log 4). -/
def injectLimit (d : Die) : Nat := 280 * bits d.tclim.toNat 0 10

/-- The limiter lets a packet pass: only class 0 towards a torus port is limited. -/
def limitAllows (s : State) (p : Packet) : Bool :=
  match leaveDir s p with
  | none => true
  | some dir =>
    let d := peerDie p.src
    let used := (s.dies[d].bridge.injected.filter fun e => e.2.1 == dir && decide (fabricNow s d < e.1 + 4096)).foldl (fun n e => n + e.2.2) 0
    p.tc != 0 || pkgOf p.src != s.pkg || decide (used + 32 + p.bytes ≤ injectLimit s.dies[d])

/-- A packet passes its limiter. -/
def launchPkt (s : State) (p : Packet) : State :=
  let d := peerDie p.src
  let now := fabricNow s d
  let t := setPkt s { p with place := startPlace s p }
  match leaveDir s p with
  | none => t
  | some dir =>
    if p.tc = 0 ∧ pkgOf p.src = s.pkg then
      t.modDie d fun x => { x with bridge := { x.bridge with
        injected := (x.bridge.injected.filter fun e => decide (now < e.1 + 4096)) ++ [(now, dir, 32 + p.bytes)] } }
    else t

/-- A packet of a flow is injected, and waits where the limit stops it or an earlier one of its flow. -/
def injectPkt (s : State) (src dst : BitVec 15) (tc : Fin 4) (bytes answer : Nat) (marked : Bool) (answers : Option Nat) :
    State :=
  let p : Packet :=
    { num := s.packetNum, src := src, dst := dst, tc := tc, entropy := entropyFor s src dst, bytes := min bytes 1024
      marked := marked, badFlit := false, answers := answers, answerBytes := answer, resends := 0, place := .inject }
  let t : State := { s with packets := s.packets ++ [p], packetNum := s.packetNum + 1 }
  if limitAllows t p && (earlierOf t p).all fun q => q.place != .inject then launchPkt t p else t

/-- INJECTION_LIMIT_RELEASE (09 R289). -/
def execInjectionLimitRelease (packet : Nat) (s : State) : Out :=
  .next (match pktAt s packet with
    | some p =>
      if p.place == .inject && limitAllows s p && (earlierOf s p).all (fun q => q.place != .inject) then launchPkt s p else s
    | none => s)

/-! ## Delivery -/

/-- A packet is delivered. A request is answered by a response, which carries its mark back (09 R287); a response
acknowledges its request, and one without a mark has no more to do. -/
def deliverPkt (s : State) (p : Packet) : State :=
  match p.answers with
  | none => injectPkt (setPkt s { p with place := .delivered }) p.dst p.src p.tc p.answerBytes 0 p.marked (some p.num)
  | some n =>
    let t := setPkt s { p with place := .delivered }
    { t with packets := t.packets.filter fun q => q.num != n && (q.num != p.num || p.marked) }

/-- MARKED_RESPONSE: a rotation is scheduled for the destination, one at a time (09 R287). -/
def execMarkedResponse (die : Fin 8) (peer : BitVec 15) (s : State) : Out :=
  .next (match s.packets.find? fun p => p.place == .delivered && p.answers.isSome && p.marked && p.src == peer
      && p.dst == peerOf s.pkg die.val with
    | some p =>
      ({ s with packets := s.packets.filter fun q => q.num != p.num }).modDie die fun x =>
        { x with bridge := { x.bridge with rotate := if x.bridge.rotate.contains peer then x.bridge.rotate else x.bridge.rotate ++ [peer] } }
    | none => s)

/-- No packet of a die to a destination is outstanding (07 R191). -/
def quietPoint (s : State) (die : Fin 8) (peer : BitVec 15) : Bool :=
  s.packets.all fun p => !(p.src == peerOf s.pkg die.val && p.dst == peer && (p.answers.isNone || p.place != .delivered))

/-- ENTROPY_QUIET_POINT: a scheduled rotation takes effect (07 R191, 09 R287). -/
def execEntropyQuietPoint (die : Fin 8) (peer : BitVec 15) (s : State) : Out :=
  .next (
    if s.dies[die].bridge.rotate.contains peer && quietPoint s die peer then
      let e := (entropyFor s (peerOf s.pkg die.val) peer + 5) % 12
      s.modDie die fun x => { x with bridge := { x.bridge with
        entropy := (x.bridge.entropy.filter fun y => y.1 != peer) ++ [(peer, e)]
        rotate := x.bridge.rotate.erase peer } }
    else s)

/-! ## The package ring (01 R24, 09 R285) -/

/-- Bytes of classes 1 to 3 in the overflow store of a destination. -/
def overflowBytes (s : State) (dst : BitVec 15) : Nat :=
  (s.packets.filter fun p => p.dst == dst && p.tc != 0 && (match p.place with | .overflow _ => true | _ => false)).foldl
    (fun n p => n + 32 + p.bytes) 0

/-- The store takes a packet of classes 1 to 3: 64 KiB of its 256 KiB are kept for class 0. -/
def overflowTakes (s : State) (p : Packet) : Bool := decide (overflowBytes s p.dst + 32 + p.bytes ≤ 192 * 1024)

/-- A refusal of a full store: the source will re-send the packet and what follows it in its flow. -/
def refusePkt (s : State) (p : Packet) : State :=
  let n := p.resends + 1
  let t := fabricNow s (peerDie p.src) + 64 * 2 ^ min n 10
  (p :: laterPkts s p).foldl (fun x q => if q.place = .inject then x
    else setPkt x { q with resends := n, place := .retry t }) s

/-- RING_SLOT_ARRIVAL: a slot is taken, goes round once more, enters the overflow store, or is refused. -/
def execRingSlotArrival (packet : Nat) (takes : Bool) (s : State) : Out :=
  .next (match pktAt s packet with
    | some p =>
      (match p.place with
       | .ring laps =>
         let before := earlierOf s p
         if before.isEmpty && (takes || p.tc == 0) then deliverPkt s p
         else if laps = 0 then setPkt s { p with place := .ring 1 }
         else if before.all (fun q => match q.place with | .overflow _ => true | _ => false) then
           if overflowTakes s p then setPkt { s with packetNum := s.packetNum + 1 } { p with place := .overflow s.packetNum }
           else refusePkt s p
         else setPkt s { p with place := .ring (laps + 1) }
       | _ => s)
    | none => s)

/-- A packet of a class stands in the overflow store of a destination. -/
def overflowNum (p : Packet) (dst : BitVec 15) (tc : Fin 4) : Option Nat :=
  match p.place with
  | .overflow n => if p.dst = dst ∧ p.tc = tc then some n else none
  | _ => none

/-- OVERFLOW_STORE_DRAIN: the packet of a class that arrived first is taken. -/
def execOverflowStoreDrain (die : Fin 8) (tc : Fin 4) (s : State) : Out :=
  let dst := peerOf s.pkg die.val
  let first := (s.packets.filterMap fun p => overflowNum p dst tc).foldl (fun m n => match m with
    | none => some n
    | some k => some (min k n)) (none : Option Nat)
  .next (match first.bind fun n => s.packets.find? fun p => overflowNum p dst tc == some n with
    | some p => deliverPkt s p
    | none => s)

/-- RESEND_BACKOFF_EXPIRY: the refused packet and the rest of its flow are sent again, in order. -/
def execResendBackoffExpiry (packet : Nat) (s : State) : Out :=
  .next (match pktAt s packet with
    | some p =>
      (match p.place with
       | .retry t =>
         if t ≤ fabricNow s (peerDie p.src) && (earlierOf s p).isEmpty then
           (p :: laterPkts s p).foldl (fun x q => match q.place with
             | .retry _ => setPkt x { q with place := startPlace x q }
             | _ => x) s
         else s
       | _ => s)
    | none => s)

/-! ## The torus (09 R284, R287, R288) -/

/-- Flits that stand in a channel of a router's link end, by class. -/
def channelFlits (s : State) (pkg : BitVec 12) (port : Fin 24) (tc : Fin 4) (escape : Bool) : Nat :=
  (s.packets.filter fun p => p.tc == tc && (match p.place with
    | .torus g q _ => !escape && g == pkg && q == some port
    | .escape g q => escape && g == pkg && q == some port
    | _ => false)).foldl (fun n p => n + p.flits) 0

/-- The channel of a packet: its package, the port it came over, and whether it is an escape channel. -/
def Packet.channel (p : Packet) : Option (BitVec 12 × Option (Fin 24) × Bool) :=
  match p.place with
  | .torus g q _ => some (g, q, false)
  | .escape g q => some (g, q, true)
  | _ => none

/-- Two packets stand in one channel; each die of a package has an injection channel of its own. -/
def Packet.sameChannel (p q : Packet) : Bool :=
  q.tc == p.tc && q.channel == p.channel && (match p.channel with
    | some (_, none, _) => q.src == p.src
    | _ => true)

/-- The head of the channel of a packet. -/
def headOf (s : State) (p : Packet) : Option Packet := s.packets.find? fun q => p.sameChannel q

/-- The link that a packet takes next is free for it: credits of the next buffer, and on the escape network 34 free
flits where it enters a new dimension (09 R284, R288). -/
def creditFor (s : State) (p : Packet) (pkg : BitVec 12) (port : Option (Fin 24)) (escape : Bool) (hop : Nat × Bool) : Bool :=
  let out := torusPort (routeEntropy p.entropy) hop
  let next := neighbour s pkg hop
  let used := channelFlits s next out p.tc escape
  next == pkgOf p.dst ||
    (if !escape then decide (used + p.flits ≤ 64)
     else if (port.map fun q => q.val % 3) = some hop.1 then decide (used + p.flits ≤ 40)
     else decide (used + 34 ≤ 40))

/-- A packet at the head of its channel can hop now. -/
def canHop (s : State) (p : Packet) : Bool :=
  match p.channel with
  | none => false
  | some (g, q, esc) =>
    !p.badFlit && headOf s p == some p && (match hopOf s p g esc with
      | some h => creditFor s p g q esc h
      | none => true)

/-- The port that a packet leaves on next. -/
def outPort (s : State) (p : Packet) : Option (BitVec 12 × Fin 24) :=
  p.channel.bind fun c => (hopOf s p c.1 c.2.2).map fun h => (c.1, torusPort (routeEntropy p.entropy) h)

/-- A packet of class 0 is served first on the same port. -/
def classZeroFirst (s : State) (p : Packet) : Bool :=
  p.tc != 0 && s.packets.any fun q => q.tc == 0 && canHop s q && outPort s q == outPort s p

/-- The bridge whose router holds a channel: that of the port opposite the sender's, or of the source (01 R26). -/
def channelBridge (p : Packet) (port : Option (Fin 24)) : Fin 8 :=
  match port with
  | some q => Fin.ofNat 8 (if q.val / 3 % 2 = 0 then q.val / 3 + 1 else q.val / 3 - 1)
  | none => peerDie p.src

/-- The head of the channel that a packet has left has stood there since now. -/
def touchHead (s : State) (p : Packet) : State :=
  match headOf s p with
  | some q =>
    (match q.place with
     | .torus g r _ => setPkt s { q with place := .torus g r (fabricNow s (channelBridge q r)) }
     | _ => s)
  | none => s

/-- TORUS_HOP: a packet crosses a link into the next router, or onto the ring of its destination package; one whose
normal channel is more than three-quarters full is marked (09 R287). -/
def execTorusHop (packet : Nat) (full : Bool) (s : State) : Out :=
  .next (match pktAt s packet with
    | some p =>
      (match p.channel with
       | some c =>
         if !canHop s p || classZeroFirst s p then s
         else
           (match hopOf s p c.1 c.2.2 with
            | none => touchHead (setPkt s { p with place := .ring 0 }) p
            | some h =>
              let next := neighbour s c.1 h
              let out := torusPort (routeEntropy p.entropy) h
              let place : PktPlace := if next = pkgOf p.dst then .ring 0
                else if c.2.2 then .escape next (some out) else .torus next (some out) (fabricNow s (channelBridge p (some out)))
              let fills := !c.2.2 && (full || decide (48 < channelFlits s next out p.tc false + p.flits))
              touchHead (setPkt s { p with place := place, marked := p.marked || (p.answers.isNone && fills) }) p)
       | none => s)
    | none => s)

/-- LINK_FLIT_RETRANSMIT: the flit arrives; it is delivered once (09 R284). -/
def execLinkFlitRetransmit (packet : Nat) (s : State) : Out :=
  .next (match pktAt s packet with
    | some p => setPkt s { p with badFlit := false }
    | none => s)

/-- DLR_MOVE: a packet blocked at the head of a normal channel for `DLRTIMER` fabric cycles moves to the escape channel
with what its flow has queued there (09 R288, 07 R191). -/
def execDlrMove (packet : Nat) (s : State) : Out :=
  .next (match pktAt s packet with
    | some p =>
      (match p.place with
       | .torus g q since =>
         let d := channelBridge p q
         let timer := s.dies[d].dlrtimer.toNat
         if g = s.pkg && headOf s p == some p && timer != 0 && since + timer ≤ fabricNow s d then
           let move (x : State) (r : Packet) : State :=
             if r.channel = p.channel then setPkt x { r with place := .escape g q } else x
           let t := (p :: laterPkts s p).foldl move s
           (touchHead t p).modDie d fun x =>
             { x with bridge := { x.bridge with dlrmoves := x.bridge.dlrmoves + 1 } }
         else s
       | _ => s)
    | none => s)

/-- A flit of a packet on a torus link fails its CRC (08 R240). -/
def flitFails (s : State) (packet : Nat) : State :=
  match pktAt s packet with
  | some p => if p.channel.isSome then setPkt s { p with badFlit := true } else s
  | none => s

end Sys2Proof.Machine
end

