-- ==== Sys2Proof/Machine/Firmware.lean ====
section
/-! DEFINITION. The start sequence (11 R327-R330, R332), the mailbox and its launch records (03 R63-R65, 09 R259, R260,
R281), and attestation (11 R331). -/

namespace Sys2Proof.Machine

/-! ## The mailbox (03 R63) -/

/-- Offsets of the control block's words. -/
def mboxHead : Nat := 0
/-- tail. -/
def mboxTail : Nat := 4
/-- mberr. -/
def mboxErr : Nat := 8
/-- piece. -/
def mboxPiece : Nat := 12
/-- bootack. -/
def mboxAck : Nat := 16

/-- A word of the control block. -/
def mboxWord (s : State) (off : Nat) : Nat := s.le (mboxKey off) 4
/-- The state with a word of the control block written. -/
def setMbox (s : State) (off v : Nat) : State := s.storeLe (mboxKey off) 4 v

/-- The offset of a record slot. -/
def slotOff (slot : Nat) : Nat := 0x100 + 128 * slot

/-- Firmware runs: the start sequence has ended well (11 R327). -/
def firmwareRuns (s : State) : Bool := s.boot.step == 7 && !s.boot.failed

/-- HOST_UNSUPPORTED_REQUEST: an access outside the endpoint's windows has no other effect (01 R27). -/
def execHostUnsupportedRequest (_addr : Nat) (s : State) : Out := .next { s with hostAnswer := .unsupported }

/-- MAILBOX_TAIL_WRITE (03 R63). -/
def execMailboxTailWrite (val : BitVec 32) (s : State) : Out :=
  .next { (if 510 ≤ val.toNat then setMbox s mboxErr 1 else setMbox s mboxTail val.toNat) with hostAnswer := .ok }

/-! ## The start sequence (11 R327-R332) -/

/-- The start sequence stops: `mberr`, and MSI-X vector 0. -/
def failBoot (s : State) (err : Nat) : State :=
  let t := (setMbox s mboxErr err).signal 0
  { t with boot := { t.boot with failed := true } }

/-- POWER_ON: steps 1 to 3, and the wait for firmware (11 R327, R330, R332). -/
def execPowerOn (board : BoardInfo) (s : State) : Out :=
  .next (
    if s.boot.step ≠ 0 then s
    else
      let s1 : State := { s with
        pkg := board.pkg
        extent := (board.extX, board.extY, board.extZ)
        boot := { s.boot with step := 2, pufOk := board.pufOk } }
      if !board.pufOk then failBoot s1 4
      else
        let s2 : State := { s1 with boot := { s1.boot with step := 3, harvestRec := board.harvest } }
        if !board.harvestOk then failBoot s2 3
        else
          let s3 := setMbox s2 mboxAck 0
          { s3 with
            harvest := Vector.ofFn fun d : Fin 8 => board.harvest.getD d.val 0
            boot := { s3.boot with
              step := 4
              harvestDigest := Config.sha384 (Config.harvestBytes board.harvest) } })

/-- A list of exactly `n` bytes, cut or filled with zeros. -/
def fitTo (n : Nat) (l : List Byte) : List Byte := (l ++ List.replicate n 0).take n

/-- The image in die 0's HBM verifies: magic, reserved bytes, digest and both signatures (11 R329). -/
def imageVerifies (s : State) (body : Nat) : Bool :=
  let k := hbmKey (peerOf s.pkg 0) 0
  let head := s.bytes k 256
  leAt head 0 4 == 0x57465A48 && leAt head 0x40 192 == 0 && s.le (k + 0x41E0) 32 == 0
    && s.bytes (k + 0x10) 48 == fitTo 48 (Config.sha384 (s.bytes (k + 0x4200) body))
    && Config.rsaVerifies head (s.bytes (k + 0x100) 384) && Config.slhVerifies head (s.bytes (k + 0x280) 16224)

/-- Step 5: the verified image is copied to every die; then firmware runs and takes launches (11 R327, R328). -/
def startFirmware (s : State) : State :=
  let k := hbmKey (peerOf s.pkg 0) 0
  let n := 0x4200 + s.boot.bodyLen
  let img := s.bytes k n
  let t := (List.range 7).foldl (fun x d => x.store (hbmKey (peerOf x.pkg (d + 1)) 0) img) s
  let u := setMbox (setMbox (setMbox t mboxAck 0xFFFFFFFF) mboxHead 0) mboxTail 0
  { u with boot := { u.boot with step := 7, fwVersion := leAt img 4 4, fwDigest := (img.drop 0x10).take 48 } }

/-- The index of an image's last piece (11 R328). -/
def lastPiece (body : Nat) : Nat := (0x4200 + body - 1) / 32768

/-- A piece with the expected index is copied and acknowledged; after the last one the image is verified. -/
def takePiece (s : State) (i : Nat) (last : Bool) : State :=
  let body := if i = 0 then s.le (mboxKey 0x1008) 8 else s.boot.bodyLen
  if 2 ^ 30 < body ∨ (last ∧ i ≠ lastPiece body) then failBoot s 5
  else
    let n := if last then 0x4200 + body - 32768 * i else 32768
    let t := setMbox (s.store (hbmKey (peerOf s.pkg 0) (32768 * i)) (s.bytes (mboxKey 0x1000) n)) mboxAck (i + 1)
    let u : State := { t with boot := { t.boot with pieces := i + 1, bodyLen := body } }
    if !last then u
    else if imageVerifies u body then startFirmware u else failBoot u 2

/-- FIRMWARE_PIECE: the host writes `piece`, which the ROM ignores outside step 4 (11 R328). -/
def execFirmwarePiece (piece : BitVec 32) (s : State) : Out :=
  let t := { setMbox s mboxPiece piece.toNat with hostAnswer := .ok }
  .next (
    if s.boot.step ≠ 4 ∨ s.boot.failed then t
    else
      let i := piece.toNat % 2 ^ 31
      if i ≠ mboxWord t mboxAck then failBoot t 5 else takePiece t i (piece.getLsbD 31))

/-! ## Launch records (03 R64) -/

/-- The bytes of a record slot. -/
def slotBytes (s : State) (slot : Nat) : List Byte := s.bytes (mboxKey (slotOff slot)) 128

/-- A status written to a record slot. -/
def setStatus (s : State) (slot st : Nat) : State := s.storeLe (mboxKey (slotOff slot + 0x64)) 4 st

/-- The vector that firmware signals for a record. -/
def slotVector (r : List Byte) : Nat := if 63 < leAt r 0x62 1 then 0 else leAt r 0x62 1

/-- Firmware takes the record at head, if it runs and the queue is not empty. -/
def takeRecord (s : State) : Option (State × Nat × List Byte) :=
  let h := mboxWord s mboxHead
  if !firmwareRuns s || h == mboxWord s mboxTail then none
  else some (setMbox s mboxHead ((h + 1) % 510), h, slotBytes s h)

/-- Check 1: the record's own fields. -/
def recordOk (r : List Byte) : Bool :=
  leAt r 0x1F 1 < 4 && leAt r 0x60 2 < 64 && leAt r 0x78 8 == 0 && leAt r 0x1C 1 < 64
    && leAt r 0x63 1 != 0 && leAt r 0x62 1 < 64 && leAt r 0 8 % 32 == 0

/-- The dies of a mask, rising. -/
def diesOf (mask : BitVec 8) : List (Fin 8) := (List.finRange 8).filter fun d => mask.getLsbD d.val

/-- A die has accepted some features (11 R326). -/
def accepts (s : State) (d : Fin 8) (features : Word) : Bool :=
  s.dies[d].featon != 0 && (features &&& ~~~s.dies[d].featon == 0)

/-- A launch of a context that runs still. -/
def Launch.runs (l : Launch) (ctx : Fin 64) : Bool := l.ctx == ctx && !l.complete

/-- The launch bounds of a record. -/
def boundsOf (r : List Byte) : List Word := (List.range 8).map fun i => BitVec.ofNat 64 (leAt r (0x20 + 8 * i) 8)

/-- The checks of a record in their order: the status of the first that fails, or the object (03 R64). -/
def checkRecord (s : State) (r : List Byte) : Except Nat CodeObj :=
  if !recordOk r then .error 0x81
  else
    let ctx : Fin 64 := Fin.ofNat 64 (leAt r 0x1C 1)
    let dies := diesOf (BitVec.ofNat 8 (leAt r 0x63 1))
    if dies.any fun d => !(s.ctxAt d ctx).ptbase.getLsbD 0 then .error 0x84
    else
      match readObj s (dies.headD 0) ctx (leAt r 0 8) (boundsOf r) with
      | none => .error 0x81
      | some o =>
        if !(dies.any fun d => accepts s d o.features) then .error 0x82
        else if 2 ^ 23 < poolBytes o + o.spad then .error 0x83
        else if s.launches.any fun l => l.runs ctx && l.serial == BitVec.ofNat 8 (leAt r 0x1D 1) then .error 0x85
        else .ok o

/-- The launch floor: the serial furthest behind the new one among the running launches of the context (07 R208). -/
def floorOf (s : State) (ctx : Fin 64) (serial : BitVec 8) : BitVec 8 :=
  s.launches.foldl (fun f l => if l.runs ctx && decide ((serial - f).toNat < (serial - l.serial).toNat) then l.serial else f) serial

/-- The predecessor that a record fixes (09 R281). -/
def predOf (s : State) (ctx : Fin 64) (serial : BitVec 8) : Option Nat :=
  s.launches.findIdx? fun l => l.runs ctx && l.serial == serial

/-! ## Root tasks (03 R65, 09 R259, R260) -/

/-- The clearing that a task's anchor selects on a die; clearing 0 where it maps to no frame of the package. -/
def anchorClearing (s : State) (d : Fin 8) (t : Task) : Nat :=
  match anchorFrame s d t with
  | some (o, a) => affClearing s.dies[d] (pseudoChannel s.dies[o] a)
  | none => 0

/-- A root task is placed: a part of a cut on its own die, else by its anchor, else on clearing 0 of the lowest die that
has accepted its features (09 R259, R260). -/
def placeRoot (s : State) (mask : BitVec 8) (t : Task) : State :=
  if t.obj.cutsDies then (placeOn s (dieOf t.home) (anchorClearing s (dieOf t.home) t) t).1
  else
    let low := ((diesOf mask).find? fun d => accepts s d t.obj.features).getD 0
    match anchorFrame s ((diesOf mask).headD 0) t with
    | some (o, a) =>
      if mask.getLsbD o.val && accepts s o t.obj.features then
        (placeOn s o (affClearing s.dies[o] (pseudoChannel s.dies[o] a)) t).1
      else (placeOn s low 0 t).1
    | none => (placeOn s low 0 t).1

/-- The parts of a cut from unit `u` on: `left` dies of the list get `q` units each, the first `r` one more. -/
def cutParts (t : Task) (unit q : Nat) : Nat → Nat → List (Fin 8) → List Task
  | _, _, [] => []
  | r, u, d :: ds =>
    let n := q + (if 0 < r then 1 else 0)
    if n = 0 then []
    else { t with lo := u * unit, hi := (u + n) * unit, cur := u * unit, home := Fin.ofNat 512 (d.val * 64) } ::
      cutParts t unit q (r - 1) (u + n) ds

/-- The root tasks of a launch: one, or the parts of a SPATIAL_DIE cut (09 R260). -/
def rootTasks (t : Task) (mask : BitVec 8) (bounds : List Word) : List Task :=
  if t.obj.cutsDies then
    let unit := max 1 (t.obj.dieUnit bounds)
    let units := t.hi / unit
    let c := (diesOf mask).length
    cutParts t unit (units / c) (units % c) 0 (diesOf mask)
  else [t]

/-- A root task is placed at once, or waits for its predecessor; it has a child join of its own. -/
def admitRoot (mask : BitVec 8) (wait : Bool) (s : State) (t : Task) : State :=
  let r := withJoin s t
  if wait then { r.1 with tasks := r.1.tasks ++ [⟨r.2, .waitsPred, none⟩] } else placeRoot r.1 mask r.2

/-- The predecessor has hinted or completed, or there is none (09 R281). -/
def predReady (s : State) (l : Launch) : Bool := !l.hasPred || predDone s l || (match l.pred with
  | some p => ((s.launches[p]?).map (·.hinted)).getD false
  | none => true)

/-- The launch of an accepted record, with its join. -/
def launchOfRecord (s : State) (slot : Nat) (r : List Byte) (join : Nat) : Launch where
  slot := slot
  ctx := Fin.ofNat 64 (leAt r 0x1C 1)
  serial := BitVec.ofNat 8 (leAt r 0x1D 1)
  deadline := leAt r 0x18 4
  bounds := boundsOf r
  dieMask := BitVec.ofNat 8 (leAt r 0x63 1)
  vector := leAt r 0x62 1
  stealx := bit (leAt r 0x60 2) 0
  stealp := bit (leAt r 0x60 2) 1
  fwd := bit (leAt r 0x60 2) 2
  join := join
  hasPred := bit (leAt r 0x60 2) 3
  predSerial := BitVec.ofNat 8 (leAt r 0x1E 1)
  pred := if bit (leAt r 0x60 2) 3 then predOf s (Fin.ofNat 64 (leAt r 0x1C 1)) (BitVec.ofNat 8 (leAt r 0x1E 1)) else none
  hinted := false
  complete := false

/-- The root task of a launch before any cut (03 R65). -/
def rootOf (s : State) (n : Nat) (l : Launch) (r : List Byte) (o : CodeObj) : Task where
  id := 0
  code := BitVec.ofNat 64 (leAt r 0 8)
  stage := 0
  prio := leAt r 0x1F 1
  stealx := l.stealx
  stealp := l.stealp
  fwd := l.fwd
  ctx := l.ctx
  serial := l.serial
  lo := 0
  hi := o.spatial l.bounds
  cur := 0
  anchor := BitVec.ofNat 64 (leAt r 0x10 8)
  arg := BitVec.ofNat 64 (leAt r 8 8)
  join := l.join
  childJoin := 0
  inbound := 0
  taken := false
  handles := []
  privileged := bit (leAt r 0x60 2) 5
  obj := o
  launch := some n
  spawner := none
  floor := floorOf s l.ctx l.serial
  ran := false
  home := 0

/-- A completed launch: the counts, then status 2, then the vector (03 R65). -/
def settleLaunch (s : State) (n : Nat) (l : Launch) : State :=
  let j := s.joinAt l.join
  let k := mboxKey (slotOff l.slot)
  let t := setStatus (((s.storeLe (k + 0x68) 4 j.ended).storeLe (k + 0x6C) 4 j.failed).storeLe (k + 0x70) 8 j.first.toNat) l.slot 2
  ({ t with launches := t.launches.modify n fun x => { x with complete := true } }).signal l.vector

/-- An accepted record: its launch, its join, and its root tasks; with no iterations it completes at once (03 R65). -/
def acceptRecord (s : State) (slot : Nat) (r : List Byte) (o : CodeObj) : State :=
  let j := s.newJoin
  let l := launchOfRecord s slot r j.2
  let n := s.launches.length
  let t := rootOf s n l r o
  let s1 := setStatus { j.1 with launches := j.1.launches ++ [l] } slot 1
  if t.hi = 0 then settleLaunch s1 n l
  else
    let ts := rootTasks t l.dieMask l.bounds
    let s2 := s1.modJoin l.join fun x => { x with expected := ts.length }
    ts.foldl (admitRoot l.dieMask (!predReady s2 l)) s2

/-- A rejected record: its status and the vector; nothing runs (03 R64). -/
def rejectRecord (s : State) (slot st : Nat) (r : List Byte) : State := (setStatus s slot st).signal (slotVector r)

/-- A record asks for an attestation report (03 R64, 11 R331). -/
def isAttest (r : List Byte) : Bool := bit (leAt r 0x60 2) 4

/-- LAUNCH_RECORD: firmware takes the record at head, if it is a launch (03 R64). -/
def execLaunchRecord (s : State) : Out :=
  .next (match takeRecord s with
    | none => s
    | some (t, slot, r) =>
      if isAttest r then s
      else
        match checkRecord t r with
        | .error st => rejectRecord t slot st r
        | .ok o => acceptRecord t slot r o)

/-- LAUNCH_COMPLETE of a launch whose join has settled (03 R65). -/
def execLaunchComplete (launch : Nat) (s : State) : Out :=
  .next (match s.launches[launch]? with
    | some l => if !l.complete && (s.joinAt l.join).settled then settleLaunch s launch l else s
    | none => s)

/-- The root tasks of a launch that wait for its predecessor. -/
def waitingRoots (s : State) (n : Nat) : List TaskEnt :=
  s.tasks.filter fun e => e.place == .waitsPred && e.task.launch == some n

/-- SUCCESSOR_ROOT_PLACE (09 R281). -/
def execSuccessorRootPlace (launch : Nat) (s : State) : Out :=
  .next (match s.launches[launch]? with
    | some l =>
      if predReady s l then
        (waitingRoots s launch).foldl (fun x e => placeRoot { x with tasks := x.tasks.erase e } l.dieMask e.task) s
      else s
    | none => s)

/-! ## Attestation (11 R331) -/

/-- Every byte of a range translates with a permission; 64-byte pieces are translated one by one. -/
def reaches (s : State) (ctx : Fin 64) (need : Need) (va n : Nat) : Bool :=
  decide (va + n ≤ 2 ^ 57) && (List.range (n / 64 + 2)).all fun i =>
    let a := if i = 0 then va else min (va / 64 * 64 + 64 * i) (va + n - 1)
    match translate s none 0 ctx true need a with
    | .ok _ => true
    | .error _ => false

/-- Bytes written to global memory from an address on, each piece within its 64-byte block. -/
def writeVa (s : State) (ctx : Fin 64) : Nat → Nat → List Byte → State
  | 0, _, _ => s
  | fuel + 1, va, bs =>
    if bs.isEmpty then s
    else
      let m := min bs.length (64 - va % 64)
      match translate s none 0 ctx true .write va with
      | .ok p => writeVa (s.store p.key (bs.take m)) ctx fuel (va + m) (bs.drop m)
      | .error _ => s

/-- The first 256 bytes of a report. -/
def reportHead (s : State) (nonce : List Byte) : List Byte :=
  leBytes 4 0x54415A48 ++ leBytes 4 1 ++ fitTo 32 nonce ++ leBytes 2 s.pkg.toNat ++ leBytes 6 0 ++ leBytes 4 s.boot.fwVersion
    ++ leBytes 4 0 ++ fitTo 48 s.boot.fwDigest ++ fitTo 48 s.boot.harvestDigest
    ++ ((List.finRange 8).flatMap fun d => leBytes 8 s.dies[d].featon.toNat) ++ leBytes 40 0

/-- A report. -/
def report (s : State) (nonce : List Byte) : List Byte :=
  let h := reportHead s nonce
  h ++ fitTo 384 (Config.rsaSign h) ++ fitTo 16224 (Config.slhSign h) ++ fitTo 384 Config.rsaModulus
    ++ fitTo 48 Config.slhKey ++ leBytes 16 0

/-- The fields of an ATTEST record: all but those it uses are zero. -/
def attestOk (r : List Byte) : Bool :=
  leAt r 0 8 == 0 && leAt r 0x18 4 == 0 && leAt r 0x1C 1 < 64 && leAt r 0x1D 3 == 0 && leAt r 0x20 64 == 0
    && leAt r 0x60 2 == 16 && leAt r 0x62 1 < 64 && leAt r 0x63 1 == 0 && leAt r 0x64 28 == 0

/-- What an ATTEST record is answered: an error status, or the nonce. -/
def checkAttest (s : State) (r : List Byte) : Except Nat (List Byte) :=
  let ctx : Fin 64 := Fin.ofNat 64 (leAt r 0x1C 1)
  if !attestOk r then .error 0x81
  else if !(s.ctxAt 0 ctx).ptbase.getLsbD 0 then .error 0x84
  else if !(reaches s ctx .read (leAt r 8 8) 32 && reaches s ctx .write (leAt r 0x10 8) 17312) then .error 0x81
  else
    match readVa s 0 ctx true .read 2 (leAt r 8 8) 32 with
    | .ok nonce => .ok nonce
    | .error _ => .error 0x81

/-- ATTEST_RECORD: firmware takes the record at head, if it asks for a report (11 R331). -/
def execAttestRecord (s : State) : Out :=
  .next (match takeRecord s with
    | none => s
    | some (t, slot, r) =>
      if !isAttest r then s
      else
        match checkAttest t r with
        | .error st => rejectRecord t slot st r
        | .ok nonce =>
          let u := writeVa t (Fin.ofNat 64 (leAt r 0x1C 1)) 300 (leAt r 0x10 8) (report t nonce)
          (setStatus u slot 2).signal (leAt r 0x62 1))

end Sys2Proof.Machine
end

