-- ==== Sys2Proof/Machine/Reset.lean ====
section
/-! DEFINITION. Resets (12 R359, R360, 01 R29), the watchdog (12 R361, R367), and the steps that start a reset. -/

namespace Sys2Proof.Machine

/-! ## Core reset -/

/-- A core reset (12 R359): its memories are cleared, its queues, buffers and TLB are empty, and it leaves halt. The
agent's epoch lives until the package is reset (07 R206). -/
def resetCore (s : State) (n : Fin 512) : State :=
  let c := s.coreAt n
  clearCore (s.setCoreAt n { Core.reset n with epoch := c.epoch, inOrder := c.inOrder }) n

/-! ## Die reset (12 R360) -/

/-- The running task of a core ends as a failure with record address 0. -/
def failRunning (s : State) (n : Fin 512) : State :=
  atCore n (fun x => match x.core.task with
    | some t => endTask (parkAnswered x t.id) t (some 0) none
    | none => x) s

/-- A task that does not run stands in a die's store. -/
def TaskEnt.standsOn (e : TaskEnt) (d : Fin 8) : Bool :=
  match e.place with
  | .ready c _ _ _ => dieOf c == d
  | .stage c => dieOf c == d
  | .parked p _ => p == d
  | .taken p => p == d
  | .waitsPred => false

/-- Every task of a die's store ends as a failure with record address 0. -/
def failTasks (s : State) (d : Fin 8) : State :=
  let t := (dieCores d).foldl failRunning s
  (t.tasks.filter fun e => e.standsOn d).foldl (fun x e => discardParked x e 0) t

/-- Every watcher of a die's blaze table is answered FAILED: the CPHs that wait for one of its blazes are discarded. -/
def failWatchers (s : State) (d : Fin 8) : State :=
  let waits (x : State) (b : BlazeRef × BitVec 24 × Option Bool) : Bool := b.2.2.isNone && ownerDie x b.1.home == some d
  (List.finRange 8).foldl (fun x e =>
    (x.dies[e].hold.filter fun h => h.blazes.any (waits x)).foldl (fun y h =>
      let k := { h with blazes := h.blazes.map fun b => if waits y b then (b.1, b.2.1, some false) else b }
      discardHold (replaceHold y e h k) e k) x) s

/-- The hold queue of a die is discarded; CPHs on their way to it wait at its bridge. -/
def discardHolds (s : State) (d : Fin 8) : State :=
  (s.dies[d].hold.filter fun h => h.since.isSome).foldl (fun x h => discardHold x d h) s

/-- A migration holds an access of a copy-class command. -/
def heldCopy (s : State) (r : CopyRun) : Bool :=
  let m := moverOf (whoOf s) r.cmd
  let atom (o : Cx) (fetch : Bool) : Bool := match runAtom m o fetch r.cmd (s, 0) with
    | .error (.held _) => true
    | _ => false
  r.phase == .run && mayWork s r && (match r.cmd.instr with
    | .atom o => atom o false
    | .atomf o => atom o true
    | .copy _ | .copyf _ | .cpb _ | .cph _ | .pull _ =>
      (match (runCopy m r.cmd (copyPlan m r.cmd) none r.units s).out with
       | .wait k => k.isSome
       | _ => false)
    | _ => false)

/-- An access that its port does not perform. -/
def heldFlight (s : State) (f : Flight) : Bool :=
  match portAccess s f with
  | .held _ => true
  | _ => false

/-- The command that the VE stands at: the head of its queue, or one of a loop's body, with its MPC. -/
def veAt (s : State) : Option (Cmd × Word) :=
  match s.ve.queue, s.ve.loop with
  | c :: _, some l => if headFirst s c then some (c, 0) else (l.body[l.at_]?).map fun k => (k, loopMpc l)
  | c :: _, none => some (c, 0)
  | [], some l => (l.body[l.at_]?).map fun k => (k, loopMpc l)
  | [], none => none

/-- An access held at a migration is discarded, and its issuer receives MIGTIMEOUT: precision D for the SCC, else a
cause of the engine whose command waits (11 R324, 12 R336). -/
def migTimeout (s : State) (held : Fin 512 × Engine × Nat) : State :=
  atCore held.1 (fun x =>
    let f := plainFail .migtimeout
    match held.2.1 with
    | .scc => (match x.ord.flights.findIdx? (heldFlight x) with
      | some n => (match x.ord.flights[n]? with
        | some a => portFault (x.modOrd fun o => { o with flights := o.flights.eraseIdx n }) a f
        | none => x)
      | none => x)
    | .ve => (match veAt x with
      | some c => if x.core.regs.pend.ve.isSome then x else veStop x (veCause c.1 f c.2)
      | none => x)
    | .copy => (match x.cp.copies.findIdx? (heldCopy x) with
      | some n => (match x.cp.copies[n]? with
        | some r => stopRun x n r f (copyMpc r.units)
        | none => x)
      | none => x)
    | _ => x) s

/-- The migrations of a die's pages are abandoned. -/
def abandonMigrations (s : State) (d : Fin 8) : State :=
  ((s.dies[d].migs.flatMap (·.held)).foldl migTimeout s).modDie d fun x => { x with migs := [] }

/-- The die cache is lost: HBM holds again what was never written back. -/
def loseCache (s : State) (d : Fin 8) : State :=
  { s with mem := s.dies[d].dirty.foldl (fun m l => memSetList m (256 * l.1) l.2) s.mem }

/-- A die's registers and tables at reset; what stands at its bridge stays there. -/
def resetDieRegs (s : State) (d : Fin 8) : State :=
  s.modDie d fun x => { Die.reset with hold := x.hold, forwarded := x.forwarded }

/-- Die reset (12 R360). -/
def resetDie (s : State) (d : Fin 8) : State :=
  let a := discardHolds (failWatchers (failTasks s d) d) d
  (dieCores d).foldl resetCore (resetDieRegs (loseCache (abandonMigrations a d) d) d)

/-- Package reset and loss of power: all state is lost (12 R359, 01 R29). What the model keeps is its schedule of turns,
its counter of free values, and the signals the host has received. -/
def resetPackage (s : State) : State := { State.reset with turns := s.turns, free := s.free, msix := s.msix }

/-- A die reset; that of die 0 resets the package (12 R359). -/
def resetDieOrPackage (s : State) (d : Fin 8) : State := if d = 0 then resetPackage s else resetDie s d

/-! ## The watchdog (12 R361, R367) -/

/-- An expiry: the first sets STAGE, signals vector 0 and reloads; one while STAGE is set resets the die. -/
def watchdogExpires (s : State) (d : Fin 8) : State :=
  if s.dies[d].wdogctl.getLsbD 1 then resetDieOrPackage s d
  else
    (s.modDie d fun x => { x with wdogctl := x.wdogctl ||| 2, wdogCount := wdogReload x.wdogctl }).signal 0

/-- WDOG.pet. -/
def execWdogPet (_o : Sa) (s : State) : Out :=
  privileged s fun x => .next (retire (x.modDie (dieOf x.core.agent) fun d =>
    { d with wdogctl := d.wdogctl &&& ~~~2, wdogCount := wdogReload d.wdogctl }))

/-- WDOG.expire. -/
def execWdogExpire (_o : Sa) (s : State) : Out :=
  privileged s fun x => .next (watchdogExpires (retire x) (dieOf x.core.agent))

/-- WDOG.corerst: ILLEGAL unless s[a] names an enabled, halted core of this die. -/
def execWdogCorerst (o : Sa) (s : State) : Out :=
  privileged s fun x => sccOp [o.a] x fun y =>
    let v := (y.sreg o.a).toNat
    let n : Fin 512 := Fin.ofNat 512 (y.core.agent.val / 64 * 64 + v % 64)
    if 64 ≤ v || y.disabled n || !(y.coreAt n).halted then illegal y else resetCore (retire y) n

/-- WDOG.dierst. -/
def execWdogDierst (o : Sa) (s : State) : Out :=
  privileged s fun x => sccOp [o.a] x fun y =>
    let v := (y.sreg o.a).toNat
    if 8 ≤ v then illegal y else resetDieOrPackage (retire y) (Fin.ofNat 8 v)

/-! ## Steps of the package -/

/-- DIE_RESET (12 R360). -/
def execDieReset (die : Fin 8) (s : State) : Out := .next (resetDieOrPackage s die)
/-- PACKAGE_RESET (12 R359). -/
def execPackageReset (s : State) : Out := .next (resetPackage s)
/-- POWER_LOSS (01 R29): nothing is kept, signals apart. -/
def execPowerLoss (s : State) : Out := .next (resetPackage s)

/-- WATCHDOG_EXPIRY: the count of a watchdog that is enabled has run out (12 R361). -/
def execWatchdogExpiry (die : Fin 8) (s : State) : Out :=
  let x := s.dies[die]
  .next (if x.wdogctl.getLsbD 0 && x.wdogCount == 0 then watchdogExpires s die else s)

/-! ## ECC (12 R354, R357) -/

/-- SCRUB_PASS: a line of HBM is read: corrected errors are counted, what cannot be corrected becomes poisoned. -/
def execScrubPass (die : Fin 8) (line : Nat) (found : EccFinding) (s : State) : Out :=
  let a := line % 2 ^ 31 * 64
  .next (if bits s.dies[die].chkctl.toNat 8 8 = 0 then s
    else
      match found with
      | .clean => s
      | .corrected => s.modDie die fun x =>
          { x with chkctl := BitVec.ofNat 64 (min (2 ^ 32 - 1) (x.chkctl.toNat / 2 ^ 32 + 1) * 2 ^ 32 + x.chkctl.toNat % 2 ^ 32) }
      | .uncorrectable => poisonKey s 5 (hbmKey (peerOf s.pkg die.val) a))

end Sys2Proof.Machine
end

