-- ==== Sys2Proof/Machine/Issue.lean ====
section
/-! DEFINITION. What stands at `PCQ0` (02 R30-R37, R55) and the fate of a word that is not an instruction. -/

namespace Sys2Proof.Machine

/-- What the SCC finds at `PCQ0`. -/
inductive Fetched
  /-- the line cannot be fetched (02 R35) -/
  | fail (f : Fail)
  /-- the word is not an instruction (02 R55) -/
  | bad (b : BadWord)
  /-- an EMPTY lane: the next instruction stands later (02 R35) -/
  | empty
  /-- it is nullified (05 R89) -/
  | nul
  | instr (i : Instr)
  deriving DecidableEq, Repr

/-- What stands at an address of a line: its structure is checked first, whatever follows (02 R34). -/
def inLine (l : Line) (a : Nat) (nul : Bool) : Fetched :=
  if !lineOk l.header l.words then .bad .badLine
  else if a % 4 ≠ 0 then .bad .notALane
  else
    match l.cls (laneOf a) with
    | some .empty => if laneOf a = 0 then .bad .notALane else .empty
    | some .cont => .bad .notALane
    | none => .bad .badLine
    | some cls =>
      if laneOf a = 0 then .bad .notALane
      else if nul then .nul
      else
        match decode cls (l.word (laneOf a)) (l.word (laneOf a + 1)) with
        | .ok i => .instr i
        | .error b => .bad b

/-- What the running task finds at `PCQ0`, and the line it is in. -/
def atPcq0 (s : State) : Fetched × Option Line :=
  let a := s.scc.pcq0.addr.toNat
  match fetchLine s (lineAddr a) with
  | .error e => (.fail e, none)
  | .ok l => (inLine l a s.scc.pcq0.nul, some l)

/-- The instruction at `PCQ0`, if there is one. -/
def pcInstr (s : State) : Option Instr :=
  match (atPcq0 s).1 with
  | .instr i => some i
  | _ => none

/-- ILLEGAL_ENCODING (02 R55): a lane that no jump may reach is a bad target, every other such word is ILLEGAL. -/
def execIllegalEncoding (bad : BadWord) (s : State) : Out :=
  .next (match bad with
    | .notALane => trap s (failAt .badtarget 0 s.scc.pcq0.addr)
    | _ => illegal s)

end Sys2Proof.Machine
end

