-- ==== Sys2Proof/Machine/Memory.lean ====
section
/-! DEFINITION. SCC loads and stores (08 R219, R220), `WAITW` (R221), `FENCE` (R222), and the steps that perform what
is in flight (07 R175, R191, R396, 12 R334). -/

namespace Sys2Proof.Machine

/-- The effective address of an SM form (02 R48). -/
def smAddr (o : Sm) (size : Nat) (s : State) : Word := s.sreg o.a + o.off.signExtend 64 * BitVec.ofNat 64 size

/-- The access an SM form makes. -/
def smFlight (o : Sm) (size : Nat) (store signed : Bool) (s : State) : Flight :=
  { addr := smAddr o size s, size := size, store := store, data := if store then s.sreg o.t else 0,
    dest := if store then 0 else o.t, signed := signed, slot := if o.sen then some o.slot else none, scope := o.scope,
    idx := s.scc.idx, value := none, acq := false, rel := false }

/-- The checks before an SCC access is performed: alignment, address, and the accumulator's interlock (08 R219, R140). -/
def checkAccess (s : State) (f : Flight) (go : State → State) : State :=
  if f.addr.toNat % f.size ≠ 0 then trap s (failAt .align f.size f.addr)
  else
    match locate s (if f.store then .write else .read) f.addr with
    | .error e => trap s e
    | .ok (.acc off) => if slotBusy s (off / 2 ^ 17) then holds s else go s
    | .ok _ => go s

/-- A checked access issues: it is performed, or goes in flight where accesses wait for turns (log 5). -/
def issueAccess (s : State) (f : Flight) : State :=
  checkAccess s f fun x =>
    if x.core.inOrder then performFlight (retire x) f
    else (retire x).modOrd fun o => { o with flights := o.flights ++ [f] }

/-- A plain load or store. -/
def accessOp (o : Sm) (size : Nat) (store signed : Bool) (s : State) : Out :=
  sccOp [o.t, o.a] s fun x => issueAccess x (smFlight o size store signed x)

/-- LDB (08 R219). -/
def execLdb (o : Sm) (s : State) : Out := accessOp o 1 false true s
/-- LDBN (08 R219). -/
def execLdbn (o : Sm) (s : State) : Out := accessOp o 1 false false s
/-- LDH (08 R219). -/
def execLdh (o : Sm) (s : State) : Out := accessOp o 2 false true s
/-- LDHN (08 R219). -/
def execLdhn (o : Sm) (s : State) : Out := accessOp o 2 false false s
/-- LDW (08 R219). -/
def execLdw (o : Sm) (s : State) : Out := accessOp o 4 false true s
/-- LDWN (08 R219). -/
def execLdwn (o : Sm) (s : State) : Out := accessOp o 4 false false s
/-- LDD (08 R219). -/
def execLdd (o : Sm) (s : State) : Out := accessOp o 8 false false s
/-- STB (08 R219). -/
def execStb (o : Sm) (s : State) : Out := accessOp o 1 true false s
/-- STH (08 R219). -/
def execSth (o : Sm) (s : State) : Out := accessOp o 2 true false s
/-- STW (08 R219). -/
def execStw (o : Sm) (s : State) : Out := accessOp o 4 true false s
/-- STD (08 R219). -/
def execStd (o : Sm) (s : State) : Out := accessOp o 8 true false s

/-- LDA: a load that is an acquire at its scope; nothing issues before its value is fixed, so it is performed at issue
or holds (07 R183, 08 R223). -/
def execLda (o : Sm) (s : State) : Out :=
  sccOp [o.t, o.a] s fun x =>
    let f := { smFlight o 8 false false x with acq := true }
    checkAccess x f fun y =>
      match portAccess y f with
      | .done z v => (retire z).setS f.dest v
      | .fails e => portFault (retire y) f e
      | .held z => holds z

/-- The store of an `STL`. -/
def releaseFlight (p : PendingRel) : Flight :=
  { addr := p.addr, size := 8, store := true, data := p.data, dest := 0, signed := false, slot := p.slot, scope := p.scope,
    idx := p.idx, value := none, acq := false, rel := true }

/-- STL: a store that is a release; it is sent once everything before it is performed, and one that is unsent holds the
next (07 R181, R396). -/
def execStl (o : Sm) (s : State) : Out :=
  sccOp [o.t, o.a] s fun x =>
    if x.ord.release.isSome then holds x
    else
      let f := { smFlight o 8 true false x with rel := true }
      checkAccess x f fun y =>
        if doneBefore y y.scc.idx && y.core.inOrder then performFlight (retire y) f
        else (retire y).modOrd fun r => { r with release := some ⟨false, 0, o.scope, f.addr, f.data, f.idx, f.slot⟩ }

/-- A wait slot is busy (07 R175). -/
def slotIsBusy (s : State) (n : Nat) : Bool :=
  ((s.ord.flights ++ s.ord.held).map (·.slot) ++ s.ord.release.toList.map (·.slot)).any fun x => x.any fun y => y.val == n

/-- WAITW (08 R221): it holds until every slot named is idle. -/
def execWaitw (o : Sw) (s : State) : Out :=
  .next (if (List.range 8).all fun n => !(o.mask.getLsbD n && slotIsBusy s n) then retire s else holds s)

/-- Commands of the array's path among the VE's: `ACCRD` and `ACCWR` (07 R172). -/
def onArrayPath (c : Cmd) : Bool :=
  match c.instr with
  | .accrd _ | .accwr _ => true
  | _ => false

/-- Every access of a path dispatched before has been performed (07 R179, 08 R222). -/
def pathDone (s : State) (p : Path) : Bool :=
  match p with
  | .s => s.ord.flights.isEmpty && s.ord.held.isEmpty && !(s.ord.release.any fun r => !r.arrive)
  | .v => s.ve.queue.isEmpty && s.ve.loop.isNone && s.ve.recording.isNone
  | .c => s.cp.queue.isEmpty && s.cp.copies.isEmpty
  | .m => s.me.queue.isEmpty && s.me.run.isNone && !(veWaiting s).any onArrayPath
      && s.ve.landing.toList.all (fun x => x.all fun l => l.data.isSome)
  | .t => !(s.ord.release.any fun r => r.arrive)

/-- FENCE (08 R222): it holds until every earlier access of path A has been performed. -/
def execFence (o : Sn) (s : State) : Out := .next (if pathDone s o.pathA then retire s else holds s)

/-! ## What is in flight -/

/-- The list without its `n`-th element. -/
def dropAt {α : Type} (l : List α) (n : Nat) : List α := l.take n ++ l.drop (n + 1)

/-- The port of the `n`-th access in flight performs it: a store takes its place in memory, a load's value is fixed and
waits for its acknowledgement (07 R174, R191). An access that fails, or is held, stays. -/
def portStep (n : Nat) (s : State) : State :=
  match s.ord.flights[n]? with
  | none => s
  | some f =>
    if f.value.isSome then s
    else
      match portAccess s f with
      | .done t v => t.modOrd fun o => { o with flights := o.flights.set n { f with value := some v } }
      | .fails _ => s
      | .held t => t

/-- MEMORY_PORT_ACCESS (07 R191). -/
def execMemoryPortAccess (core : Fin 512) (n : Nat) (s : State) : Out := .next (atCore core (portStep n) s)

/-- The acknowledgement of a performed access reaches its core: a load writes its register, its slot becomes idle
(07 R175). -/
def acknowledge (n : Nat) (s : State) : State :=
  match s.ord.flights[n]? with
  | none => s
  | some f =>
    match f.value with
    | none => s
    | some v =>
      let t := s.modOrd fun o => { o with flights := dropAt o.flights n }
      if f.store then t else t.setS f.dest v

/-- ACCESS_ACKNOWLEDGED (07 R175). -/
def execAccessAcknowledged (core : Fin 512) (n : Nat) (s : State) : Out := .next (atCore core (acknowledge n) s)

/-- The failure of the `n`-th access in flight reaches the die scheduler, precision D (12 R334). -/
def learnFault (n : Nat) (s : State) : State :=
  match s.ord.flights[n]? with
  | none => s
  | some f =>
    if f.value.isSome then s
    else
      match portAccess s f with
      | .fails e => portFault (s.modOrd fun o => { o with flights := dropAt o.flights n }) f e
      | _ => s

/-- D_CAUSE_ARRIVAL (12 R334). -/
def execDCauseArrival (core : Fin 512) (n : Nat) (s : State) : Out := .next (atCore core (learnFault n) s)

/-- An access in flight is settled: one that its port has performed is acknowledged, any other is performed. -/
def settleFlight (s : State) (f : Flight) : State :=
  match f.value with
  | some v => if f.store then s else s.setS f.dest v
  | none => performFlight s f

/-- Accesses in flight settle where the core in focus has its cycle: replayed ones, those a migration held, and what
turns have not performed or acknowledged (log 5). -/
def settleFlights (s : State) : State :=
  let l := s.ord.flights
  l.foldl settleFlight (s.modOrd fun o => { o with flights := [] })

/-- The pending release of the core in focus is sent once everything before it has been performed; a failure of the
store is pending like any access's (07 R181, R182, R396). -/
def sendRelease (s : State) : State :=
  match s.ord.release with
  | none => s
  | some p =>
    if doneBefore s p.idx then
      (if p.arrive then sendBararr s p
       else performFlight (s.modOrd fun o => { o with release := none }) (releaseFlight p))
    else s

/-- RELEASE_SEND (07 R396). -/
def execReleaseSend (core : Fin 512) (s : State) : Out := .next (atCore core sendRelease s)

end Sys2Proof.Machine
end

