-- ==== Sys2Proof/Machine/Migrate.lean ====
section
/-! DEFINITION. Migration of pages (11 R323, R324). -/

namespace Sys2Proof.Machine

/-- The key of the leaf entry of an address of a 4 KiB page, by the walk of 11 R314 from a node on. -/
def pteFrom (s : State) (va : Nat) : Nat → Nat → Nat → Option Nat
  | 0, _, _ => none
  | fuel + 1, step, node =>
    let key := node + 16 * walkIndex step va
    let e := s.le key 16
    if !bit e 0 then none
    else if bit e 13 then (if step = 5 then some key else none)
    else if step = 5 then none
    else pteFrom s va fuel (step + 1) (hbmKey (peerOf s.pkg (bits e 64 3)) (bits e 16 40 * 4096))

/-- The key of the leaf entry of an address in a context's page table. -/
def pteKey (s : State) (d : Fin 8) (ctx : Fin 64) (va : Nat) : Option Nat :=
  let pt := (s.ctxAt d ctx).ptbase.toNat
  if bit pt 0 then pteFrom s va 5 1 (hbmKey (peerOf s.pkg (bits pt 61 3)) (bits pt 13 39 * 2 ^ 13)) else none

/-- The threshold of a context that a leaf selects (11 R323). -/
def threshold (s : State) (d : Fin 8) (ctx : Fin 64) (thr : Fin 8) : Nat := bits (s.ctxAt d ctx).migthresh.toNat (8 * thr.val) 8

/-- The counters of a page are reset. -/
def resetCounts (s : State) (d : Fin 8) (page : Nat) : State :=
  s.modDie d fun x => { x with migCounts := x.migCounts.filter fun e => e.page != page }

/-! ## The frame pool -/

/-- The key of a die's frame-pool descriptor. -/
def poolKey (s : State) (d : Fin 8) : Option Nat :=
  let r := s.dies[d].framepool.toNat
  if bit r 0 then some (hbmKey (peerOf s.pkg d.val) (bits r 12 40 * 4096)) else none

/-- A frame popped from a die's pool. -/
def popFrame (s : State) (d : Fin 8) : Option (State × Nat) :=
  (poolKey s d).bind fun k =>
    let n := s.le k 4
    if n = 0 then none else some (s.storeLe k 4 (n - 1), s.le (k + 16 + 8 * (n - 1)) 8)

/-- A frame pushed on a die's pool; onto a full one it is counted as dropped. -/
def pushFrame (s : State) (d : Fin 8) (f : Nat) : State :=
  match poolKey s d with
  | none => s
  | some k =>
    let n := s.le k 4
    if n < s.le (k + 4) 4 then (s.storeLe (k + 16 + 8 * n) 8 f).storeLe k 4 (n + 1)
    else s.storeLe (k + 8) 8 (s.le (k + 8) 8 + 1)

/-! ## A migration -/

/-- The migration of a frame of a die that is in progress. -/
def migAt (s : State) (d : Fin 8) (key : Nat) : Option Migration := s.dies[d].migs.find? fun m => m.oldKey == key

/-- The migration with an old frame is changed, or removed. -/
def setMig (s : State) (d : Fin 8) (key : Nat) (f : Migration → Option Migration) : State :=
  s.modDie d fun x => { x with migs := x.migs.filterMap fun m => if m.oldKey == key then f m else some m }

/-- A counter of a page has reached the threshold of the context that it was counted for. -/
def reached (s : State) (d : Fin 8) (c : MigCount) : Bool :=
  match walk s c.die c.ctx c.va with
  | .error _ => false
  | .ok l =>
    let t := threshold s d c.ctx l.thr
    l.mode == 3 && t != 0 && decide (t ≤ c.count.toNat)

/-- The page is marked MIGRATING: accesses that arrive from now on are held. -/
def beginMig (s : State) (d : Fin 8) (key : Nat) : State :=
  match s.dies[d].migCounts.find? fun c => c.page == key / 4096 && reached s d c with
  | none => s
  | some c => s.modDie d fun x => { x with migs := x.migs ++ [⟨c.ctx, c.va / 4096 * 4096, key, 0, c.die, false, [], []⟩] }

/-- The page's 4 KiB copied, with its poison. -/
def copyPage (s : State) (src dst : Nat) : State :=
  let t := s.store dst (s.bytes src 4096)
  let bad := s.poison.filter fun g => decide (src ≤ 64 * g) && decide (64 * g < src + 4096)
  { t with poison := bad.foldl (fun p g => insertNat (g - src / 64 + dst / 64) p) t.poison }

/-- The page moves: a frame from the destination's pool, the bytes, the entry; with no frame the migration stops. -/
def movePage (s : State) (d : Fin 8) (m : Migration) : State :=
  match popFrame s m.dest, pteKey s m.dest m.ctx m.page with
  | some (t, f), some k =>
    let peer := peerOf s.pkg m.dest.val
    let dst := hbmKey peer (f % 2 ^ 25 * 4096)
    let u := copyPage t m.oldKey dst
    let e := u.le k 16
    let e' := e - bits e 16 40 * 2 ^ 16 - bits e 64 15 * 2 ^ 64 + f % 2 ^ 40 * 2 ^ 16 + peer.toNat * 2 ^ 64
    setMig (u.storeLe k 16 e') d m.oldKey fun x => some { x with newKey := dst, moved := true, waiting := List.finRange 8 }
  | _, _ => resetCounts (setMig s d m.oldKey fun _ => none) d (m.oldKey / 4096)

/-- MIGRATION of a frame of a die: it begins, then it moves (11 R323). -/
def execMigration (die : Fin 8) (page : Nat) (s : State) : Out :=
  let key := hbmKey (peerOf s.pkg die.val) (page % 2 ^ 25 * 4096)
  .next (match migAt s die key with
    | none => beginMig s die key
    | some m => if m.moved then s else movePage s die m)

/-- The translation of a page is dropped from the TLBs of a die. -/
def shootDown (s : State) (d : Fin 8) (ctx : Fin 64) (page : Nat) : State :=
  let keep (l : List TlbEnt) : List TlbEnt := l.filter fun e => !(e.ctx == ctx && decide (e.page ≤ page) && decide (page < e.page + e.leaf.pageBytes))
  let core (c : Core) : Core := if dieOf c.agent = d then { c with tlb := keep c.tlb } else c
  let t : State := { s with core := core s.core, others := s.others.map fun e => (e.1, core e.2) }
  t.modDie d fun x => { x with tlb := keep x.tlb }

/-- Every die has acknowledged: the old frame goes to the owner's pool, the counters are reset. -/
def endMig (s : State) (d : Fin 8) (m : Migration) : State :=
  resetCounts (pushFrame (setMig s d m.oldKey fun _ => none) d (m.oldKey % 2 ^ 37 / 4096)) d (m.oldKey / 4096)

/-- SHOOTDOWN_ACK: a die drops its translations of the first page that waits for it (11 R324). -/
def execShootdownAck (die : Fin 8) (by_ : Fin 8) (s : State) : Out :=
  .next (match s.dies[die].migs.find? fun m => m.moved && m.waiting.contains by_ with
    | none => s
    | some m =>
      let t := shootDown s by_ m.ctx m.page
      let k := { m with waiting := m.waiting.filter (· != by_) }
      if k.waiting.isEmpty then endMig t die k else setMig t die m.oldKey fun _ => some k)

/-- MIGHOLD_EXPIRY: the `n`-th access held at a die has waited longer than `MIGHOLD` (11 R324). -/
def execMigholdExpiry (die : Fin 8) (n : Nat) (s : State) : Out :=
  let x := s.dies[die]
  .next (match (x.migs.flatMap fun m => m.held.map fun h => (m, h))[n]? with
    | none => s
    | some (m, h) =>
      if bits x.mighold.toNat 0 32 < x.cycle.toNat - h.2.2 then
        setMig (migTimeout s h) die m.oldKey fun y => some { y with held := y.held.erase h }
      else s)

end Sys2Proof.Machine
end

