-- ==== Sys2Proof/Machine/Place.lean ====
section
/-! DEFINITION. The die scheduler's steps: work for an idle core (09 R261-R267), aging (R269), YREQ, forced saves
(R270-R273), tasks forwarded to a die (R259), LOAD and STORE stages (R266), queue 15 (12 R348). -/

namespace Sys2Proof.Machine

/-! ## A task starts on a core -/

/-- A task entry leaves the list of those that wait. -/
def takeEnt (s : State) (e : TaskEnt) : State := { s with tasks := s.tasks.erase e }

/-- Ready tasks that could have started here instead have been passed over once more (09 R269). -/
def passOver (s : State) (n : Fin 512) : State :=
  { s with tasks := s.tasks.map fun e => match e.place with
      | .ready c since passed level =>
        if dieOf c = dieOf n ∧ eligible s c n e.task then { e with place := .ready c since (passed + 1) level } else e
      | _ => e }

/-- A saved task cannot be restored: its record is written and it ends as a failure (12 R353). -/
def failImage (s : State) (n : Fin 512) (e : TaskEnt) (c : Cause) : State :=
  atCore n (fun x =>
    let r : Raised := ⟨c, .sched, false, false, 0, 0, 0, 0⟩
    let w := writeRecord x e.task.ctx (recordWith x n e.task.ctx e.task.id r (infoByte r .kill) [0, 0, 0])
    discardParked w.1 e w.2) s

/-- A waiting task starts or resumes on a core that has none: its entry acquires what its spawner released
(02 R41, 09 R264, 07 R183). -/
def startOn (s : State) (n : Fin 512) (e : TaskEnt) : State :=
  match e.image with
  | none => passOver (atCore n (fun x => acquire (startTask x e.task) .package) (takeEnt s e)) n
  | some i =>
    match imageFault s i with
    | some c => failImage s n e c
    | none => passOver (atCore n (fun x => restoreTask x e.task i) (takeEnt s e)) n

/-! ## The stage rule (09 R267) -/

/-- The data of an inbound buffer have landed. -/
def inputReady (c : Core) (t : Task) : Bool := t.inbound == 0 || ((poolBuf c (handleOf t.inbound)).map (·.landed)).getD false

/-- A ready task of a core may start: its die covers it, its input is ready, its stage's successor takes more. -/
def mayStart (s : State) (n : Fin 512) (e : TaskEnt) : Bool :=
  dieCovers s (dieOf n) e.task && inputReady (s.coreAt n) e.task
    && (decide (e.task.obj.stageCount ≤ e.task.stage + 1) || !queueFull s n e.task e.task.stage)

/-- The first task by the stage rule at a priority: later stages first, the oldest of a stage. -/
def byStage (l : List TaskEnt) : Option TaskEnt :=
  (List.range 4).reverse.findSome? fun k => l.find? fun e => e.task.stage == k

/-- The task a core takes from its own queue. -/
def chooseOwn (s : State) (n : Fin 512) : Option TaskEnt :=
  (List.range 4).findSome? fun p =>
    byStage (s.tasks.filter fun e => e.waitsOn == some (n, p) && mayStart s n e)

/-! ## Stealing and splitting (09 R261, R262, R265) -/

/-- A task that another core may take or split: it runs on a core, or waits on one. -/
structure Victim where
  core : Fin 512
  task : Task
  ent : Option TaskEnt
  deriving DecidableEq, Repr

/-- What a victim has left. -/
def Victim.remaining (v : Victim) : Nat := v.task.hi - v.task.cur

/-- Victims on some cores, in core order, running tasks before waiting ones. -/
def victimsOn (s : State) (l : List (Fin 512)) : List Victim :=
  l.flatMap fun n =>
    ((s.coreAt n).task.map fun t => (⟨n, t, none⟩ : Victim)).toList ++
      (s.tasks.filter fun e => e.readyOn n).map fun e => ⟨n, e.task, some e⟩

/-- A victim put into a list ranked by what is left, after those with as much. -/
def rankInsert (v : Victim) : List Victim → List Victim
  | [] => [v]
  | w :: ws => if w.remaining < v.remaining then v :: w :: ws else w :: rankInsert v ws

/-- Victims ranked: the largest remainder first, then the lower core number, then the older task. -/
def ranked (l : List Victim) : List Victim := l.foldl (fun r v => rankInsert v r) []

/-- The granule of a split: that of the last SPATIAL level, and across dies a multiple of D too (09 R265). -/
def splitGranule (s : State) (t : Task) (far : Bool) : Nat :=
  let g := t.obj.granule
  if far then Nat.lcm g (t.obj.dieUnit (((s.launchOf t).map (·.bounds)).getD [])) else g

/-- The running live loop of a victim. -/
def liveLoop (s : State) (v : Victim) : Option LoopRun :=
  match v.ent with
  | some _ => none
  | none => (s.coreAt v.core).regs.ve.loop.filter fun l => l.live && l.t != 0

/-- Where a victim is cut; none where nothing is left to give. -/
def splitPoint (s : State) (v : Victim) (far : Bool) : Option Nat :=
  let c := v.task.cur
  let depth := ((liveLoop s v).map (·.stages)).getD 0
  let g := max 1 (splitGranule s v.task far)
  let mid := (max (c + depth + 1) ((c + v.task.hi + 1) / 2) + g - 1) / g * g
  if v.task.hi ≤ mid then none else some mid

/-- A live loop keeps only the source iterations below the cut: `n` in all. -/
def cutLoop (n : Nat) (l : LoopRun) : LoopRun :=
  let total := min (l.t + l.left) n
  let t := min l.t total
  { l with t := t, left := total - t }

/-- The victim keeps what lies below the cut. -/
def cutVictim (s : State) (v : Victim) (mid : Nat) : State :=
  match v.ent with
  | none =>
    let c := s.coreAt v.core
    let loop (l : LoopRun) : LoopRun := if l.live && l.t != 0 then cutLoop (mid - l.c0) l else l
    s.setCoreAt v.core
      { c with
        task := c.task.map fun t => { t with hi := mid }
        regs := { c.regs with ve := { c.regs.ve with loop := c.regs.ve.loop.map loop } } }
  | some e =>
    let loop (l : LoopRun) : LoopRun := if l.live && l.left != 0 then { l with left := min l.left (mid - v.task.cur) } else l
    let img := e.image.map fun i => { i with regs := { i.regs with ve := { i.regs.ve with loop := i.regs.ve.loop.map loop } } }
    { s with tasks := s.tasks.map fun x =>
        if x = e then { x with task := { x.task with hi := mid }, image := img } else x }

/-- A split: the thief's task starts on its core at once, numbered by the thief's die. -/
def splitFor (s : State) (n : Fin 512) (v : Victim) (mid : Nat) : State :=
  let old := v.task.hi
  let s1 := (cutVictim s v mid).expect v.task.join
  let r := nextNumber s1 (dieOf n) v.task.launch
  let t : Task := { childOf v.task v.task.stage v.task.prio mid old v.task.anchor v.task.arg v.task.join with
    id := taskId v.task.serial (dieOf n) r.2, spawner := v.task.spawner }
  let c := withJoin r.1 t
  startOn c.1 n ⟨c.2, .ready n 0 0 c.2.prio, none⟩

/-- What a thief gets from the first victim that yields work: a part, or a waiting task that has never run and cannot
be split. -/
def stealFrom (s : State) (n : Fin 512) (far : Bool) : List Victim → Option State
  | [] => none
  | v :: vs =>
    match (if storeFree s (dieOf n) then splitPoint s v far else none), v.ent with
    | some mid, _ => some (splitFor s n v mid)
    | none, some e => if !e.task.ran && e.image.isNone then some (startOn s n e) else stealFrom s n far vs
    | none, none => stealFrom s n far vs

/-- The stealList among the victims of some cores (09 R261). -/
def stealList (s : State) (n : Fin 512) (far : Bool) (l : List (Fin 512)) : List Victim :=
  ranked ((victimsOn s (l.filter (· != n))).filter fun v => stealable s (dieOf n) v.task && (!far || v.task.stealx))

/-- One pass of the steal order; torus neighbours are other packages (log 13). -/
def steal (s : State) (n : Fin 512) : Option State :=
  let d := dieOf n
  let own := clearingCores d (clearingOf n)
  let rest := (dieCores d).filter fun m => clearingOf m != clearingOf n
  let others := ((List.finRange 8).filter (· != d)).flatMap dieCores
  (stealFrom s n false (stealList s n false own)).orElse fun _ =>
    (stealFrom s n false (stealList s n false rest)).orElse fun _ =>
      stealFrom s n true (stealList s n true others)

/-- An idle core that may take work. -/
def isIdle (s : State) (n : Fin 512) : Bool := usable s n && (s.coreAt n).task.isNone

/-- An idle core asks for work (09 R261). -/
def idleRequest (n : Fin 512) (s : State) : State :=
  if isIdle s n then
    match chooseOwn s n with
    | some e => yreqScan (startOn s n e) (dieOf n)
    | none => ((steal s n).map fun x => yreqScan x (dieOf n)).getD s
  else s

/-- CORE_IDLE_REQUEST (09 R261). -/
def execCoreIdleRequest (core : Fin 512) (s : State) : Out := .next (idleRequest core s)

/-! ## Aging and YREQ -/

/-- A waiting task that has been passed over `AGEMAX` times moves up one level (09 R269). -/
def agePlace (s : State) (e : TaskEnt) : TaskEnt :=
  match e.place with
  | .ready c since passed level =>
    if 0 < level ∧ 0 < passed ∧ s.dies[dieOf c].agemax.toNat ≤ passed then { e with place := .ready c since 0 (level - 1) } else e
  | _ => e

/-- AGING_PROMOTION of the `task`-th waiting task (09 R269). -/
def execAgingPromotion (task : Nat) (s : State) : Out :=
  .next (match s.tasks[task]? with
    | some e => (match e.waitsOn with
      | some w => yreqScan { s with tasks := s.tasks.set task (agePlace s e) } (dieOf w.1)
      | none => s)
    | none => s)

/-- The running task of a core has the priority of a waiting one, which has waited longer than its deadline (09 R270). -/
def readyWait (s : State) (e : TaskEnt) : State :=
  match e.place with
  | .ready c since _ level =>
    (match (s.coreAt c).task with
     | some x => if x.prio = level ∧ s.deadlineOf x < s.dies[dieOf c].cycle.toNat - since then raiseYreq s c false else s
     | none => s)
  | _ => s

/-- READY_WAIT_EXPIRY of the `task`-th waiting task (09 R270). -/
def execReadyWaitExpiry (task : Nat) (s : State) : Out :=
  .next (((s.tasks[task]?).map (readyWait s)).getD s)

/-! ## Forced saves (09 R271, R272, 12 R337, R351) -/

/-- A DEADLINE record: precision N, of the die scheduler; STATUS holds the deadline, and whether no save could begin. -/
def deadlineRecord (s : State) (t : Task) (a : Action) (noRoom : Bool) : State × Word :=
  let r : Raised := ⟨.deadline, .sched, false, false, s.scc.idx, 0,
    BitVec.ofNat 64 (s.deadlineOf t % 2 ^ 32 + (if noRoom then 2 ^ 32 else 0)), 0⟩
  writeRecord s t.ctx (recordBytes s t r (infoByte r a))

/-- Nothing stands against a save: no cause is pending (12 R346), no forwarded spawn awaits its number. -/
def saveFree (s : State) : Bool := s.core.regs.pend.all.isEmpty && !(s.scc.sent && s.scc.answer.isNone)

/-- A forced save of the core in focus: its parts are told to stop, and once they rest it is saved whole. -/
def forceSave (s : State) (t : Task) : State :=
  if !saveFree s then s
  else
    let x := stopArray (drain s)
    if !(quiet x && veRests x) then x
    else
      let asked := x.core.parkReq
      if (roomFor x (dieOf x.core.agent) (imageSize t.obj true true)).isNone then (deadlineRecord x t .kill true).1
      else
        let w := deadlineRecord x t (if asked then .park else .replay) false
        match saveTask w.1 t true true true 0x18 w.2 none with
        | none => w.1
        | some (y, i) => placeSaved y x.core.agent t i asked

/-- The running task has not yielded by its deadline. -/
def deadlinePassed (s : State) (slack : Nat) : Bool :=
  match s.core.task, s.core.yreq with
  | some t, some c => decide (c + s.deadlineOf t + slack ≤ s.now)
  | _, _ => false

/-- How far past the deadline a forced save may begin: a deadline of 0 asks for it at once (09 R271). -/
def saveSlack (s : State) (t : Task) : Nat := if s.deadlineOf t = 0 then 0 else 2048

/-- The deadline of the core in focus. -/
def deadlineStep (s : State) : State :=
  match s.core.task with
  | some t => if deadlinePassed s 0 then forceSave s t else s
  | none => s

/-- DEADLINE_EXPIRY (09 R271). -/
def execDeadlineExpiry (core : Fin 512) (s : State) : Out := .next (atCore core deadlineStep s)

/-- The running task holds in a `JOINWAIT` or a `WAITPRED`. -/
def holdsForOthers (s : State) : Bool :=
  s.scc.hold.isSome && (match pcInstr s with
    | some (.joinwait _) | some (.waitpred _) => true
    | _ => false)

/-- Another ready task could start on a core. -/
def othersWait (s : State) (n : Fin 512) : Bool :=
  s.tasks.any fun e => e.waitsOn.any fun w => dieOf w.1 == dieOf n && eligible s w.1 n e.task

/-- A holding task is saved whole, with no record, so that another may run (09 R270, 12 R352). -/
def holdingSave (s : State) : State :=
  match s.core.task with
  | some t =>
    if holdsForOthers s && othersWait s s.core.agent && saveFree s then
      let x := stopArray (drain s)
      if !(quiet x && veRests x) then x
      else
        match saveTask x t true true true 0 0 none with
        | none => x
        | some (y, i) => placeSaved y x.core.agent t i x.core.parkReq
    else s
  | none => s

/-- HOLDING_TASK_SAVE (09 R270). -/
def execHoldingTaskSave (core : Fin 512) (s : State) : Out := .next (atCore core holdingSave s)

/-! ## Forwarded tasks (09 R259, R275) -/

/-- TASK_FORWARD_RECEIVE: a die places the first record that has been forwarded to it, and answers its number. -/
def execTaskForwardReceive (die : Fin 8) (s : State) : Out :=
  .next (match s.dies[die].forwarded with
    | [] => s
    | (t, from_) :: rest =>
      let p := placeHere (s.modDie die fun x => { x with forwarded := rest }) die 0 t
      match from_ with
      | none => p.1
      | some n =>
        let c := p.1.coreAt n
        if c.regs.scc.sent then
          p.1.setCoreAt n { c with regs := { c.regs with scc := { c.regs.scc with answer := some (p.2.setWidth 64) } } }
        else p.1)

/-! ## Queue 15 (12 R348) -/

/-- The features that an instruction needs, as a mask; `reg` gives the register that `MCFG` reads (02 R50). -/
def formFeatures (i : Instr) (reg : SReg → Word) : Nat :=
  match i with
  | .mspa _ => 1
  | .mcfg o => if o.fid.val = 5 ∨ o.fid.val = 6 then 1
      else if o.fid.val = 16 then 16
      else if (o.fid.val = 12 ∨ o.fid.val = 15) ∧ bits (reg o.s).toNat 0 4 = 15 then 2 else 0
  | .cpb _ | .cph _ | .zwait _ | .zdrop _ | .ztest _ => 4
  | .copy _ | .subs _ | .pull _ => 2
  | .sqappend _ | .sqconfirm _ | .sqstate _ | .wset _ | .wclr _ | .wget _ | .vtopk _ | .vdraw _ => 8
  | i => (if usesHb4 i then 2 else 0) + (if usesSr i then 16 else 0)

/-- What the instruction at the head of a saved task's PC queue needs. -/
def savedFeatures (s : State) (t : Task) (i : Image) (d : Fin 8) : Nat :=
  let a := i.regs.scc.pcq0.addr.toNat
  match translate s none d t.ctx t.privileged .fetch (lineAddr a) with
  | .error _ => 0
  | .ok p =>
    let l : Line := ⟨lineAddr a, laneWordAt s p.key 0, (List.range 7).map fun k => laneWordAt s p.key (k + 1)⟩
    match inLine l a false with
    | .instr x => formFeatures x fun r => if r = 0 then 0 else i.regs.scc.s[r]
    | _ => 0

/-- The lowest die of a task's launch whose accepted mask covers the object and the form. -/
def featureDie (s : State) (t : Task) (need : Nat) : Option (Fin 8) :=
  (List.finRange 8).find? fun d => dieCovers s d t && (BitVec.ofNat 64 need &&& ~~~s.dies[d].featon == 0)

/-- A task of queue 15 goes, with its save, to a die that can run it; its saved registers are to issue `PCQ0` again. -/
def placeParked (s : State) (d : Fin 8) (e : TaskEnt) (i : Image) : Option State :=
  if !e.task.handles.isEmpty || e.task.inbound != 0 then none
  else
    (featureDie s e.task (savedFeatures s e.task i d)).map fun o =>
      let cl := match anchorFrame s o e.task with
        | some (x, a) => if x = o then affClearing s.dies[o] (pseudoChannel s.dies[o] a) else 0
        | none => 0
      let n := coreFor s o cl e.task.stage
      yreqScan { s with tasks := s.tasks.erase e ++
        [⟨{ e.task with home := n }, .ready n s.dies[o].cycle.toNat 0 e.task.prio, some { i with stopped := none }⟩] } o

/-- FEATURE_PARK_PLACE: the first task of a die's queue 15 that a die can run leaves it (12 R348). -/
def execFeatureParkPlace (die : Fin 8) (s : State) : Out :=
  .next (((s.tasks.filter fun e => e.place == .parked die 15).findSome? fun e =>
    e.image.bind fun i => placeParked s die e i).getD s)

/-! ## LOAD and STORE stages (09 R266) -/

/-- The agent of a stage that copy engines run. -/
def stageWho (s : State) (n : Fin 512) (t : Task) : Who :=
  ⟨t.ctx, t.privileged, t.id, ⟨n, t.serial, (s.coreAt n).epoch, t.spawner.toList, false, t.floor⟩⟩

/-- The descriptor of a LOAD or STORE stage, in the object's data section. -/
def stageDesc (s : State) (d : Fin 8) (t : Task) : Except Fail (List Byte) :=
  match t.obj.stages[t.stage]? with
  | none => .ok []
  | some x => readVa s d t.ctx t.privileged .read 2 (t.code.toNat + t.obj.dataOff + x.target) 64

/-- The walk and tile length of a descriptor are within their limits; its ring fields are ignored. -/
def walkOk (d : List Byte) : Bool :=
  (List.range 4).all (fun j => decide (1 ≤ subCount d j) && decide (subCount d j ≤ 2 ^ 24))
    && decide (64 ≤ leAt d 0x28 4) && decide (leAt d 0x28 4 ≤ 2 ^ 20)

/-- A plain copy for a stage. -/
def stageCopy (dst src : Word) (n : Nat) : Cmd :=
  ⟨.copy ⟨0, 0, 0, 0, false, false, false, 0, 0, 0, 0, 0, false, false⟩, [dst, src, BitVec.ofNat 64 n, 0, 0, 0], 0, 0, .rne⟩

/-- A stage's fault: it has no core to stop, so its record is written and it ends as a failure. -/
def failStage (s : State) (n : Fin 512) (e : TaskEnt) (f : Fail) : State :=
  atCore n (fun x =>
    let r : Raised := ⟨f.cause, .copy, false, true, 0, 0, f.status, f.address⟩
    let w := writeRecord x e.task.ctx (recordWith x n e.task.ctx e.task.id r (infoByte r .kill) [0, 0, 0])
    discardParked w.1 e w.2) s

/-- A stage is complete: it ends as a success. -/
def endStage (s : State) (e : TaskEnt) : State := (takeEnt s e).childEnds e.task.join none none

/-- The core holds the context of a stage's task, or may be scrubbed for it (11 R320). -/
def stageCore (s : State) (n : Fin 512) (t : Task) : Option State :=
  let c := s.coreAt n
  if c.resident = some t.ctx then some (s.setCoreAt n (reservePool c t))
  else if c.task.isSome then none
  else
    let x := atCore n (fun y => scrub y t.ctx) s
    some (x.setCoreAt n (reservePool (x.coreAt n) t))

/-- A LOAD delivers its next tile into a fresh buffer, which becomes a task of stage 1. -/
def loadTile (s0 : State) (e : TaskEnt) (n : Fin 512) : State :=
  let t := e.task
  if t.hi ≤ t.cur then endStage s0 e
  else if queueFull s0 n t 0 || !storeFreeKept s0 (dieOf n) then s0
  else
    match stageCore s0 n t with
    | none => s0
    | some s =>
      match (s.coreAt n).pool.find? fun b => some b.launch == t.launch && b.stage == 0 && b.free with
      | none => s
      | some b =>
        match stageDesc s (dieOf n) t with
        | .error f => failStage s n e f
        | .ok d =>
          if !walkOk d || decide (b.bytes < leAt d 0x28 4) then failStage s n e (plainFail .illegal)
          else
            let c := stageCopy (BitVec.ofNat 64 (0x8000000000000000 + b.off)) (tileSource d t.cur) (leAt d 0x28 4)
            let m := moverOf (stageWho s n t) c
            let w := runCopy m c (copyPlan m c) none 0 s
            match w.out with
            | .done _ =>
              let x := passBuffer w.s n t ⟨b.gen, b.off⟩ t.cur (t.cur + 1) 1 none
              let k := { e with task := { t with cur := t.cur + 1, ran := true } }
              if t.hi ≤ t.cur + 1 then endStage { x with tasks := x.tasks.map fun y => if y = e then k else y } k
              else { x with tasks := x.tasks.map fun y => if y = e then k else y }
            | .fault f => failStage w.s n e f
            | _ => s

/-- LOAD_TILE_DELIVERY of the `task`-th waiting task, a LOAD, on a core (09 R266). -/
def execLoadTileDelivery (task : Nat) (core : Fin 512) (s : State) : Out :=
  .next (match s.tasks[task]? with
    | some e => if e.place = .stage core ∧ e.task.obj.roleOf e.task.stage = .load then loadTile s e core else s
    | none => s)

/-- The tiles of a STORE's interval, each written from its inbound buffer. -/
def storeTiles (n : Fin 512) (t : Task) (d : List Byte) (src : Word) : Nat → Nat → State → State × Option Stop
  | 0, _, s => (s, none)
  | k + 1, i, s =>
    let c := stageCopy (tileSource d i) src (leAt d 0x28 4)
    let m := moverOf (stageWho s n t) c
    let w := runCopy m c (copyPlan m c) none 0 s
    match w.out with
    | .done _ => storeTiles n t d src k (i + 1) w.s
    | .fault f => (w.s, some (.fail f))
    | _ => (w.s, some .behind)

/-- A STORE writes its buffer to the tiles of its interval, then frees it. -/
def storeStage (s : State) (e : TaskEnt) (n : Fin 512) : State :=
  let t := e.task
  if !inputReady (s.coreAt n) t then s
  else
    match stageDesc s (dieOf n) t with
    | .error f => failStage s n e f
    | .ok d =>
      let h := handleOf t.inbound
      let drop (x : State) : State := x.setCoreAt n (freeBuffer (x.coreAt n) h)
      if !walkOk d then failStage (drop s) n e (plainFail .illegal)
      else
        match storeTiles n t d (BitVec.ofNat 64 (0x8000000000000000 + h.off)) (t.hi - t.lo) t.lo s with
        | (x, none) => endStage (drop x) e
        | (x, some (.fail f)) => failStage (drop x) n e f
        | _ => s

/-- STORE_STAGE_WRITE of the `task`-th waiting task (09 R266). -/
def execStoreStageWrite (task : Nat) (s : State) : Out :=
  .next (match s.tasks[task]? with
    | some e => (match e.place with
      | .stage n => if e.task.obj.roleOf e.task.stage = .store then storeStage s e n else s
      | _ => s)
    | none => s)

/-! ## Causes and retries -/

/-- The pending cause of the core in focus is taken; the array is told to stop first (12 R333). -/
def causeStep (s : State) : State := if s.core.regs.pend.all.isEmpty then s else takePending (stopArray s)

/-- CAUSE_TAKEN (12 R333). -/
def execCauseTaken (core : Fin 512) (s : State) : Out := .next (atCore core causeStep s)

/-- CLEARING_RING_RETRY: an access to a member's scratchpad that a scrub had refused is tried again; it is checked
against the member's context as it stands now (11 R320). -/
def retryPeer (n : Nat) (s : State) : State :=
  match s.ord.flights[n]? with
  | none => s
  | some f =>
    match classify s.core.agent f.addr with
    | .peer _ _ =>
      if f.value.isSome then s
      else
        match portAccess s f with
        | .done t v => t.modOrd fun o => { o with flights := o.flights.set n { f with value := some v } }
        | .fails e => portFault (s.modOrd fun o => { o with flights := o.flights.eraseIdx n }) f e
        | .held t => t
    | _ => s

/-- CLEARING_RING_RETRY (11 R320). -/
def execClearingRingRetry (core : Fin 512) (n : Nat) (s : State) : Out := .next (atCore core (retryPeer n) s)

end Sys2Proof.Machine
end

