-- ==== Sys2Proof/Machine/Seq.lean ====
section
/-! DEFINITION. Sequences and token watchpoints (10 R290-R305): the sequence unit's reads and writes, and the SEQ
group. -/

namespace Sys2Proof.Machine

/-! ## What the unit reads and writes (10 R295) -/

/-- The piece of a range that lies in one granule. -/
def unitLen (a n : Nat) : Nat := min n (64 - a % 64)

/-- `n` bytes at an address, translated by the die; `fuel` pieces. -/
def unitRead (s : State) : Nat → Word → Nat → Except Fail (List Byte)
  | 0, _, _ => .ok []
  | fuel + 1, a, n =>
    if n = 0 then .ok []
    else
      let m := unitLen a.toNat n
      let here : Except Fail (List Byte) :=
        match locateBy s none .read a with
        | .error e => .error e
        | .ok (.hbm p) =>
          if (firstPoison s.poison (forwardKey s p.key) m).isSome then .error (failAt .poison 0 (granuleOf a))
          else .ok (readHbm s (dieOf s.core.agent) s.ctx p m true)
        | .ok (.spad c off) =>
          if (spadPoison s (s.coreAt c) off m).isSome then .error (failAt .poison 0 (granuleOf a))
          else .ok (spadBytes s (s.coreAt c) off m)
        | .ok (.acc _) => .error (failAt .xmiss 0 a)
      match here with
      | .error e => .error e
      | .ok bs =>
        match unitRead s fuel (a + BitVec.ofNat 64 m) (n - m) with
        | .error e => .error e
        | .ok rest => .ok (bs ++ rest)

/-- Bytes at an address. -/
def unitBytes (s : State) (a : Word) (n : Nat) : Except Fail (List Byte) := unitRead s (n / 64 + 2) a n

/-- Every location of a range can be written; `fuel` pieces. -/
def unitCheckFrom (s : State) : Nat → Word → Nat → Option Fail
  | 0, _, _ => none
  | fuel + 1, a, n =>
    if n = 0 then none
    else
      let m := unitLen a.toNat n
      match locateBy s none .write a with
      | .error e => some e
      | .ok (.acc _) => some (failAt .xmiss 0 a)
      | .ok _ => unitCheckFrom s fuel (a + BitVec.ofNat 64 m) (n - m)

/-- A write the unit will make. -/
structure UnitWrite where
  addr : Word
  bytes : List Byte
  deriving DecidableEq, Repr

/-- The first fault among the places of some writes. -/
def unitCheck (s : State) : List UnitWrite → Option Fail
  | [] => none
  | w :: ws =>
    match unitCheckFrom s (w.bytes.length / 64 + 2) w.addr w.bytes.length with
    | some e => some e
    | none => unitCheck s ws

/-- A checked write made, piece by piece, with its race tags (07 R205); `fuel` pieces. -/
def unitPut : Nat → State → Word → List Byte → State
  | 0, s, _, _ => s
  | fuel + 1, s, a, bs =>
    if bs.isEmpty then s
    else
      let m := unitLen a.toNat bs.length
      let t := match locateBy s none .write a with
        | .ok (.hbm p) => setTag (writeHbm s (dieOf s.core.agent) s.ctx p (bs.take m)) (actorOf s.core) p
        | .ok (.spad c off) => spadStore s (s.coreAt c) off (bs.take m)
        | _ => s
      unitPut fuel t (a + BitVec.ofNat 64 m) (bs.drop m)

/-- Writes made in order. -/
def unitPutAll (s : State) (l : List UnitWrite) : State :=
  l.foldl (fun x w => unitPut (w.bytes.length / 64 + 2) x w.addr w.bytes) s

/-! ## Descriptors (10 R291) -/

/-- A sequence descriptor. -/
structure SeqDesc where
  tokbuf : Nat
  cap : Nat
  len : Nat
  clen : Nat
  version : Nat
  budget : Nat
  state : Nat
  reason : Nat
  parent : Nat
  deriving DecidableEq, Repr

/-- A descriptor whose fields are in their limits and whose reserved bits are zero. -/
def parseDesc (bs : List Byte) : Option SeqDesc :=
  let fl := leAt bs 0x1C 4
  let d : SeqDesc := ⟨leAt bs 0 8, leAt bs 8 4, leAt bs 0xC 4, leAt bs 0x10 4, leAt bs 0x14 4, leAt bs 0x18 4, bits fl 0 2,
    bits fl 4 4, leAt bs 0x20 4⟩
  if d.tokbuf % 4 = 0 ∧ 1 ≤ d.cap ∧ d.cap ≤ 2 ^ 24 ∧ d.clen ≤ d.len ∧ d.len ≤ d.cap ∧ d.version < 2 ^ 30 ∧ d.state ≠ 3
      ∧ d.reason ≤ 3 ∧ fl < 256 ∧ bits fl 2 2 = 0 ∧ bits d.parent 14 17 = 0 ∧ leAt bs 0x24 28 = 0 then some d
  else none

/-- The 64 bytes of a descriptor. -/
def descBytes (d : SeqDesc) : List Byte :=
  leBytes 8 d.tokbuf ++ leBytes 4 d.cap ++ leBytes 4 d.len ++ leBytes 4 d.clen ++ leBytes 4 d.version ++ leBytes 4 d.budget
    ++ leBytes 4 (d.state + 16 * d.reason) ++ leBytes 4 d.parent ++ leBytes 28 0

/-- The descriptor array and id range of the running task's context on its die (10 R290). -/
def seqBase (s : State) : Word := (s.ctxAt (dieOf s.core.agent) s.ctx).sqbase
/-- The ids [LO, HI) of the context. -/
def seqRange (s : State) : Nat × Nat :=
  let r := (s.ctxAt (dieOf s.core.agent) s.ctx).sqrange.toNat
  (bits r 0 14, bits r 16 15)

/-- The address of a descriptor. -/
def descAddr (s : State) (q : Nat) : Word := seqBase s + BitVec.ofNat 64 (64 * q)
/-- The address of a token position. -/
def tokAddr (d : SeqDesc) (n : Nat) : Word := BitVec.ofNat 64 (d.tokbuf + 4 * n)

/-- XPERM for an id or entry outside the context (11 R317). -/
def seqOutside : Fail := failAt .xperm (2 ^ 60) 0

/-- A descriptor read. -/
def readDesc (s : State) (q : Nat) : Except Fail SeqDesc :=
  match unitBytes s (descAddr s q) 64 with
  | .error e => .error e
  | .ok bs =>
    match parseDesc bs with
    | some d => .ok d
    | none => .error (plainFail .illegal)

/-- The descriptor of an id of the task's range. -/
def ownDesc (s : State) (q : Nat) : Except Fail SeqDesc :=
  let r := seqRange s
  if q < r.1 ∨ r.2 ≤ q then .error seqOutside else readDesc s q

/-- Words of 4 bytes. -/
def wordsOf : Nat → List Byte → List Nat
  | 0, _ => []
  | n + 1, bs => leNat (bs.take 4) :: wordsOf n (bs.drop 4)

/-- Tokens at an address; one with a bit above 19 is ILLEGAL (10 R291, R297). -/
def readTokens (s : State) (a : Word) (n : Nat) : Except Fail (List Nat) :=
  match unitBytes s a (4 * n) with
  | .error e => .error e
  | .ok bs =>
    let l := wordsOf n bs
    if l.all fun t => decide (t < 2 ^ 20) then .ok l else .error (plainFail .illegal)

/-- Tokens as bytes. -/
def tokenBytes (l : List Nat) : List Byte := l.flatMap fun t => leBytes 4 t

/-! ## Watch entries (10 R296) -/

/-- The fields of a watch image. -/
structure Watch where
  seq : Nat
  plen : Nat
  action : Nat
  trap : Bool
  once : Bool
  msix : Bool
  prio : Nat
  ninj : Nat
  budget : Nat
  pat : List Nat
  arg : Word
  value : Nat
  deriving DecidableEq, Repr

/-- The fields of an image. -/
def watchOf (bs : List Byte) : Watch :=
  let a := leAt bs 3 1
  { seq := bits (leAt bs 0 2) 0 14, plen := leAt bs 2 1, action := bits a 0 2, trap := bit a 2, once := bit a 3, msix := bit a 4,
    prio := leAt bs 4 1, ninj := leAt bs 5 1, budget := bits (leAt bs 8 4) 0 24,
    pat := (List.range 4).map fun i => leAt bs (0x10 + 4 * i) 4, arg := BitVec.ofNat 64 (leAt bs 0x20 8),
    value := leAt bs 0x28 8 }

/-- An image whose fields are in their limits and whose reserved bits are zero (10 R296). -/
def watchOk (bs : List Byte) : Bool :=
  let w := watchOf bs
  decide (leAt bs 0 2 < 2 ^ 14) && decide (w.plen ≤ 4) && decide (leAt bs 3 1 < 32) && (!w.msix || w.action == 3)
    && decide (w.prio ≤ 15) && (if w.action = 2 then decide (1 ≤ w.ninj) && decide (w.ninj ≤ 16) else w.ninj == 0)
    && leAt bs 6 2 == 0 && decide (leAt bs 8 4 < 2 ^ 24) && leAt bs 0xC 4 == 0
    && w.pat.zipIdx.all (fun p => if p.2 < w.plen then decide (p.1 < 2 ^ 20) else p.1 == 0)
    && (match w.action with
        | 2 => w.arg.toNat % 4 == 0
        | 3 => w.arg.toNat % 8 == 0
        | _ => w.arg == 0)
    && (w.action == 3 || w.value == 0) && leAt bs 0x30 16 == 0 && !(w.plen == 0 && w.budget == 0)

/-- The watch table of the die in focus. -/
abbrev WatchTable := List (Nat × WatchEnt)

/-- The table replaced. -/
def setWatch (s : State) (t : WatchTable) : State := s.modDie (dieOf s.core.agent) fun d => { d with watch := t }

/-- An entry belongs to a sequence of a context. -/
def watches (ctx : Fin 64) (q : Nat) (e : WatchEnt) : Bool := e.ctx == ctx && (watchOf e.image).seq == q

/-! ## Confirmation (10 R298-R300) -/

/-- The pattern of an entry matches the tokens that end at position `p`; `base` is the position of the first token
listed. -/
def patternAt (w : Watch) (toks : List Nat) (base p : Nat) : Bool :=
  decide (0 < w.plen) && decide (w.plen ≤ p + 1) &&
    (List.range w.plen).all fun i => toks.getD (p + 1 - w.plen + i - base) (2 ^ 32) == w.pat.getD i 0

/-- One position: counters move, and the hits are listed in ascending index. -/
def evalEntries (ctx : Fin 64) (q : Nat) (toks : List Nat) (base p : Nat) : WatchTable → WatchTable × List Nat
  | [] => ([], [])
  | (i, e) :: rest =>
    let r := evalEntries ctx q toks base p rest
    if watches ctx q e then
      let c := if e.counter = 0 then 0 else e.counter - 1
      let hit := patternAt (watchOf e.image) toks base p || (e.counter != 0 && c == 0)
      ((i, { e with counter := c }) :: r.1, if hit then i :: r.2 else r.2)
    else ((i, e) :: r.1, r.2)

/-- The positions confirmed until a hit or the end of the budget: the table, the budget, and where it stopped with
which hits. -/
def evalPositions (ctx : Fin 64) (q : Nat) (toks : List Nat) (base : Nat) :
    Nat → Nat → Nat → WatchTable → WatchTable × Nat × Option (Nat × List Nat)
  | 0, _, budget, t => (t, budget, none)
  | n + 1, p, budget, t =>
    let r := evalEntries ctx q toks base p t
    let b := if budget = 0xFFFFFFFF then budget else budget - 1
    if !r.2.isEmpty || b == 0 then (r.1, b, some (p, r.2)) else evalPositions ctx q toks base n (p + 1) b r.1

/-- What a confirmation does. -/
structure Confirm where
  desc : SeqDesc
  table : WatchTable
  /-- writes beside the own descriptor's, in order -/
  writes : List UnitWrite
  /-- NOTIFY hits that fire: where, what, and the vector signalled -/
  notify : List (UnitWrite × Option Nat)
  outcome : Nat
  entry : Nat
  child : Nat
  /-- the entry and the position of a hit that traps -/
  trap : Option (Nat × Nat)
  deriving DecidableEq, Repr

/-- The better of two hits: lower PRIO, then lower index (10 R299). -/
def winnerOf (t : WatchTable) : List Nat → Option Nat
  | [] => none
  | i :: rest =>
    let prio (j : Nat) : Nat := ((lookupKey j t).map fun e => (watchOf e.image).prio).getD 16
    match winnerOf t rest with
    | none => some i
    | some j => some (if prio j < prio i then j else i)

/-- The lowest FREE id of the context's range whose capacity suffices, with its descriptor (10 R299). -/
def freeSeq (s : State) (need : Nat) : Nat → Nat → Except Fail (Option (Nat × SeqDesc))
  | 0, _ => .ok none
  | n + 1, q =>
    match readDesc s q with
    | .error e => .error e
    | .ok d => if d.state = 0 ∧ need ≤ d.cap then .ok (some (q, d)) else freeSeq s need n (q + 1)

/-- The winner's action (10 R299 step 4). -/
def winnerAction (s : State) (q p : Nat) (w : Watch) (c : Confirm) : Except Fail Confirm :=
  let d := c.desc
  match w.action with
  | 0 => .ok { c with desc := { d with state := 2, reason := 1 }, outcome := 1 }
  | 1 =>
    let r := seqRange s
    (match freeSeq s (p + 1) (r.2 - r.1) r.1 with
     | .error e => .error e
     | .ok none => .ok { c with outcome := 7 }
     | .ok (some (f, fd)) =>
       match readTokens s (tokAddr d 0) (p + 1) with
       | .error e => .error e
       | .ok toks =>
         let nd : SeqDesc := ⟨fd.tokbuf, fd.cap, p + 1, p + 1, (fd.version + 1) % 2 ^ 30, d.budget, 1, 0, 2 ^ 31 + q⟩
         .ok { c with
           outcome := 2
           child := f
           writes := c.writes ++ [⟨tokAddr fd 0, tokenBytes toks⟩, ⟨descAddr s f, descBytes nd⟩] })
  | 2 =>
    if p + 1 + w.ninj ≤ d.cap then
      (match readTokens s w.arg w.ninj with
       | .error e => .error e
       | .ok toks =>
         .ok { c with
           outcome := 3
           desc := { d with len := p + 1 + w.ninj, clen := p + 1 + w.ninj }
           writes := c.writes ++ [⟨tokAddr d (p + 1), tokenBytes toks⟩] })
    else .ok { c with desc := { d with state := 2, reason := 3 }, outcome := 8 }
  | _ => .ok { c with outcome := 4 }

/-- The entries that fire at a hit: every NOTIFY, and the winner (10 R299). -/
def firing (t : WatchTable) (hits : List Nat) (win : Nat) : List Nat :=
  hits.filter fun i => i == win || ((lookupKey i t).map fun e => (watchOf e.image).action == 3).getD false

/-- RESOLVE (10 R299). -/
def resolveHits (s : State) (q p : Nat) (hits : List Nat) (c : Confirm) : Except Fail Confirm :=
  match winnerOf c.table hits with
  | none => .ok { c with desc := { c.desc with state := 2, reason := 2 }, outcome := 5 }
  | some win =>
    let at_ (i : Nat) : Option WatchEnt := lookupKey i c.table
    let field {α : Type} (i : Nat) (f : Watch → α) (z : α) : α := ((at_ i).map fun e => f (watchOf e.image)).getD z
    let fire := firing c.table hits win
    let notes := fire.filterMap fun i => (at_ i).bind fun e =>
      let w := watchOf e.image
      if w.action = 3 then
        some (⟨w.arg, leBytes 8 w.value⟩, if w.msix then e.launch.bind fun n => (s.launches[n]?).map (·.vector) else none)
      else none
    let traps := if field win Watch.trap false then [win] else fire.filter fun i => field i Watch.trap false
    let w := ((at_ win).map fun e => watchOf e.image).getD (watchOf [])
    match winnerAction s q p w { c with entry := win, notify := notes, trap := traps.head?.map fun i => (i, p) } with
    | .error e => .error e
    | .ok r =>
      let d := if r.desc.budget = 0 ∧ r.desc.state = 1 then { r.desc with state := 2, reason := 2 } else r.desc
      .ok { r with desc := d, table := r.table.filter fun e => !(fire.contains e.1 && (watchOf e.2.image).once) }

/-- The longest pattern among the entries of a sequence. -/
def longest (ctx : Fin 64) (q : Nat) (t : WatchTable) : Nat :=
  t.foldl (fun m e => if watches ctx q e.2 then max m (watchOf e.2.image).plen else m) 0

/-- SQCONFIRM of at most `m` drafts of an ACTIVE sequence (10 R298). -/
def confirm (s : State) (q m : Nat) (d : SeqDesc) : Except Fail Confirm :=
  let l0 := d.len - d.clen
  let l1 := if m = 0 then l0 else min l0 m
  let lim := if d.budget = 0xFFFFFFFF then l1 else min l1 d.budget
  let table := s.die.watch
  let base := d.clen - (longest s.ctx q table - 1)
  match readTokens s (tokAddr d base) (if lim = 0 then 0 else d.clen + lim - base) with
  | .error e => .error e
  | .ok toks =>
    let r := evalPositions s.ctx q toks base lim d.clen d.budget table
    let bump (c : Confirm) : Confirm :=
      if c.desc.clen = d.clen ∧ c.desc.len = d.len then c
      else { c with desc := { c.desc with version := (d.version + 1) % 2 ^ 30 } }
    match r.2.2 with
    | none => .ok (bump ⟨{ d with clen := d.clen + lim, budget := r.2.1 }, r.1, [], [], 0, 0, 0, none⟩)
    | some (p, hits) =>
      match resolveHits s q p hits ⟨{ d with clen := p + 1, len := p + 1, budget := r.2.1 }, r.1, [], [], 0, 0, 0, none⟩ with
      | .error e => .error e
      | .ok c => .ok (bump c)

/-- The outcome word (10 R300). -/
def outcomeWord (outcome entry child clen : Nat) : Word :=
  BitVec.ofNat 64 (outcome * 2 ^ 60 + entry * 2 ^ 46 + child * 2 ^ 32 + clen)

/-! ## The SEQ group (10 R302-R304) -/

/-- A cause raised by the sequence unit at the instruction (12 R337). -/
def seqTrap (s : State) (f : Fail) : State := takeCause s { causeAt s f with engine := .seq }

/-- A SEQ member: its feature, its registers, and, where it changes a sequence or an entry, its release (10 R293,
07 R396). -/
def seqOp (rs : List SReg) (releases : Bool) (s : State) (f : State → State) : Out :=
  featured 3 s fun x => sccOp rs x fun y =>
    if (if releases then !allDone y else y.ord.release.any fun p => p.arrive) then holds y else f y

/-- SQAPPEND of tokens to an ACTIVE sequence that has room. -/
def appendTokens (s : State) (o : Sa) (q : Nat) (d : SeqDesc) (toks : List Nat) : State :=
  let nd := { d with len := d.len + toks.length }
  let ws : List UnitWrite := [⟨tokAddr d d.len, tokenBytes toks⟩, ⟨descAddr s q, descBytes nd⟩]
  match unitCheck s ws with
  | some e => seqTrap s e
  | none => retire (bumpEpoch ((unitPutAll s ws).setS o.d (BitVec.ofNat 64 nd.len)))

/-- SQAPPEND (10 R297). -/
def execSqappend (o : Sa) (s : State) : Out :=
  seqOp [o.d, o.a, o.b] true s fun x =>
    let w := (x.sreg o.a).toNat
    let q := bits w 0 14
    let n := bits w 16 16
    if 2 ^ 32 ≤ w ∨ bits w 14 2 ≠ 0 ∨ 1024 < n then seqTrap x (plainFail .illegal)
    else
      match ownDesc x q with
      | .error e => seqTrap x e
      | .ok d =>
        if d.state ≠ 1 then retire (bumpEpoch (x.setS o.d (BitVec.ofNat 64 (2 ^ 56 + d.len))))
        else if d.cap < d.len + max n 1 then retire (bumpEpoch (x.setS o.d (BitVec.ofNat 64 (2 * 2 ^ 56 + d.len))))
        else if n = 0 then appendTokens x o q d [bits (x.sreg o.b).toNat 0 20]
        else if (x.sreg o.b).toNat % 4 ≠ 0 then seqTrap x (failAt .align 4 (x.sreg o.b))
        else
          match readTokens x (x.sreg o.b) n with
          | .error e => seqTrap x e
          | .ok toks => appendTokens x o q d toks

/-- WATCHHIT, taken with PCQ0 after the SQCONFIRM that has completed (10 R301). -/
def watchHit (s : State) (idx : BitVec 24) (q entry p version : Nat) : State :=
  takeCause s ⟨.watchhit, .seq, false, false, idx, 0, BitVec.ofNat 64 (q * 2 ^ 50 + entry * 2 ^ 37 + p),
    BitVec.ofNat 64 version⟩

/-- A confirmation made: every write of the sequence, then each NOTIFY as a release of its own, then the register. -/
def applyConfirm (s : State) (o : Sa) (q : Nat) (c : Confirm) : State :=
  let own : UnitWrite := ⟨descAddr s q, descBytes c.desc⟩
  match unitCheck s (c.writes ++ own :: c.notify.map (·.1)) with
  | some e => seqTrap s e
  | none =>
    let x := bumpEpoch (setWatch (unitPutAll s (c.writes ++ [own])) c.table)
    let y := c.notify.foldl (fun z n =>
      let u := bumpEpoch (unitPutAll z [n.1])
      match n.2 with
      | some v => u.signal v
      | none => u) x
    let z := retire (y.setS o.d (outcomeWord c.outcome c.entry c.child c.desc.clen))
    match c.trap with
    | some (e, p) => watchHit z s.scc.idx q e p c.desc.version
    | none => z

/-- SQCONFIRM (10 R298). -/
def execSqconfirm (o : Sa) (s : State) : Out :=
  seqOp [o.d, o.a] true s fun x =>
    let w := (x.sreg o.a).toNat
    let q := bits w 0 14
    if 2 ^ 32 ≤ w ∨ bits w 14 2 ≠ 0 then seqTrap x (plainFail .illegal)
    else
      match ownDesc x q with
      | .error e => seqTrap x e
      | .ok d =>
        if d.state ≠ 1 then retire (bumpEpoch (x.setS o.d (outcomeWord 6 0 0 d.clen)))
        else
          match confirm x q (bits w 16 16) d with
          | .error e => seqTrap x e
          | .ok c => applyConfirm x o q c

/-- SQSTATE (10 R303). -/
def execSqstate (o : Sa) (s : State) : Out :=
  seqOp [o.d, o.a] false s fun x =>
    let w := (x.sreg o.a).toNat
    if 2 ^ 14 ≤ w then seqTrap x (plainFail .illegal)
    else
      match ownDesc x w with
      | .error e => seqTrap x e
      | .ok d => retire (x.setS o.d (BitVec.ofNat 64 (d.state * 2 ^ 62 + d.version * 2 ^ 32 + d.clen)))

/-- The lowest free entry of the watch table. -/
def freeWatch (t : WatchTable) : Option Nat := (List.range 8192).find? fun i => (lookupKey i t).isNone

/-- The entry an index names is held by another context (10 R304). -/
def foreignEntry (s : State) (i : Nat) : Bool := (lookupKey i s.die.watch).any fun e => e.ctx != s.ctx

/-- An image installed at an index. -/
def installWatch (s : State) (o : Sa) (i : Nat) (bs : List Byte) : State :=
  let e : WatchEnt := ⟨s.ctx, s.core.task.bind (·.launch), bs, BitVec.ofNat 24 (watchOf bs).budget⟩
  retire (bumpEpoch ((setWatch s (insertKey i e s.die.watch)).setS o.d (BitVec.ofNat 64 i)))

/-- WSET (10 R304, R296). -/
def execWset (o : Sa) (s : State) : Out :=
  seqOp [o.d, o.a, o.b] true s fun x =>
    let a := x.sreg o.a
    let b := x.sreg o.b
    if a ≠ BitVec.allOnes 64 ∧ 8192 ≤ a.toNat then seqTrap x (plainFail .illegal)
    else if b.toNat % 64 ≠ 0 then seqTrap x (failAt .align 64 b)
    else
      match unitBytes x b 64 with
      | .error e => seqTrap x e
      | .ok bs =>
        let r := seqRange x
        let q := (watchOf bs).seq
        if !watchOk bs then seqTrap x (plainFail .illegal)
        else if q < r.1 ∨ r.2 ≤ q then seqTrap x seqOutside
        else if a = BitVec.allOnes 64 then
          (match freeWatch x.die.watch with
           | some i => installWatch x o i bs
           | none => retire (bumpEpoch (x.setS o.d (BitVec.allOnes 64))))
        else if foreignEntry x a.toNat then seqTrap x seqOutside
        else installWatch x o a.toNat bs

/-- WCLR (10 R304). -/
def execWclr (o : Sa) (s : State) : Out :=
  seqOp [o.a] true s fun x =>
    let a := (x.sreg o.a).toNat
    let q := bits a 0 14
    let r := seqRange x
    if bit a 63 then
      (if bits a 14 49 ≠ 0 then seqTrap x (plainFail .illegal)
       else if q < r.1 ∨ r.2 ≤ q then seqTrap x seqOutside
       else retire (bumpEpoch (setWatch x (x.die.watch.filter fun e => !watches x.ctx q e.2))))
    else if 8192 ≤ a then seqTrap x (plainFail .illegal)
    else if foreignEntry x a then seqTrap x seqOutside
    else retire (bumpEpoch (setWatch x (eraseKey a x.die.watch)))

/-- The image of an entry with its current counter in BUDGET; zeros for a free entry (10 R304). -/
def watchImage (e : Option WatchEnt) : List Byte :=
  match e with
  | some w => w.image.take 8 ++ leBytes 4 w.counter.toNat ++ w.image.drop 12
  | none => List.replicate 64 0

/-- WGET (10 R304). -/
def execWget (o : Sa) (s : State) : Out :=
  seqOp [o.d, o.a, o.b] false s fun x =>
    let a := (x.sreg o.a).toNat
    let b := x.sreg o.b
    if 8192 ≤ a then seqTrap x (plainFail .illegal)
    else if foreignEntry x a then seqTrap x seqOutside
    else
      let e := lookupKey a x.die.watch
      let v : Word := match e with
        | some w => BitVec.ofNat 64 (2 ^ 63 + w.counter.toNat)
        | none => 0
      if o.b = 0 then retire (x.setS o.d v)
      else if b.toNat % 64 ≠ 0 then seqTrap x (failAt .align 64 b)
      else
        let w : UnitWrite := ⟨b, watchImage e⟩
        match unitCheck x [w] with
        | some f => seqTrap x f
        | none => retire ((unitPutAll x [w]).setS o.d v)

end Sys2Proof.Machine
end

