-- ==== Sys2Proof/Machine/Tokens.lean ====
section
/-! DEFINITION. The ZTOK group (08 R245, 07 R194). -/

namespace Sys2Proof.Machine

/-- A z-register named by an s-field; codes above 15 do not decode (02 R42). -/
def zOf (r : SReg) : Fin 16 := Fin.ofNat 16 r.val

/-- A queued command that will write a z-register when the copy issue port reaches it. -/
def writesZ (n : Fin 16) (c : Cmd) : Bool :=
  match c.instr with
  | .cpb o => o.za == n
  | _ => false

/-- A queued command that will take the blaze of a z-register with it. -/
def carriesZ (n : Fin 16) (c : Cmd) : Bool :=
  match c.instr with
  | .cph o => o.za == n || o.zb == n
  | _ => false

/-- The port has not reached every CPB that writes a z-register. -/
def zBusy (s : State) (n : Fin 16) : Bool := n != 0 && s.cp.queue.any (writesZ n)

/-- What `ZTEST` answers for a z-register (08 R245). -/
def zCode (s : State) (n : Fin 16) : Word :=
  match (if n = 0 then none else s.ord.z[n]) with
  | none => 0
  | some z =>
    match blazeState s z with
    | .pending => 1
    | .landed => 2
    | .failed => 3

/-- ZWAIT (08 R245): completed on LANDED it is an acquire at FABRIC scope. -/
def execZwait (o : Sa) (s : State) : Out :=
  featured 2 s fun x =>
    let n := zOf o.a
    let c := zCode x n
    .next (if zBusy x n || c == 1 then holds x else if c = 2 then acquire (retire x) .fabric else retire x)

/-- ZDROP (08 R245, 07 R194). -/
def execZdrop (o : Sa) (s : State) : Out :=
  featured 2 s fun x =>
    let n := zOf o.a
    .next (if zBusy x n || (n != 0 && x.cp.queue.any (carriesZ n)) then holds x
      else if n = 0 then retire x else retire (dropZ x n))

/-- ZTEST (08 R245). -/
def execZtest (o : Sa) (s : State) : Out :=
  featured 2 s fun x =>
    let n := zOf o.a
    if zBusy x n then .next (holds x) else sccWrite o.d [] x fun y => zCode y n

end Sys2Proof.Machine
end

