-- ==== Sys2Proof/Machine/Dispatch.lean ====
section
/-! DEFINITION. Dispatch: one arm for each instruction of the table. -/

namespace Sys2Proof.Machine

open Sys2Proof

/-- The meaning of an instruction, one arm for each constructor. -/
def exec (i : Instr) (s : State) : Host.Outcome State Fault Refusal :=
  match i with
  | .add o => Sys2Proof.Machine.execAdd o s
  | .sub o => Sys2Proof.Machine.execSub o s
  | .mul o => Sys2Proof.Machine.execMul o s
  | .mulh o => Sys2Proof.Machine.execMulh o s
  | .mulhn o => Sys2Proof.Machine.execMulhn o s
  | .div o => Sys2Proof.Machine.execDiv o s
  | .divn o => Sys2Proof.Machine.execDivn o s
  | .rem o => Sys2Proof.Machine.execRem o s
  | .remn o => Sys2Proof.Machine.execRemn o s
  | .and o => Sys2Proof.Machine.execAnd o s
  | .or o => Sys2Proof.Machine.execOr o s
  | .xor o => Sys2Proof.Machine.execXor o s
  | .andn o => Sys2Proof.Machine.execAndn o s
  | .shl o => Sys2Proof.Machine.execShl o s
  | .shr o => Sys2Proof.Machine.execShr o s
  | .sar o => Sys2Proof.Machine.execSar o s
  | .min o => Sys2Proof.Machine.execMin o s
  | .max o => Sys2Proof.Machine.execMax o s
  | .minn o => Sys2Proof.Machine.execMinn o s
  | .maxn o => Sys2Proof.Machine.execMaxn o s
  | .slt o => Sys2Proof.Machine.execSlt o s
  | .sltn o => Sys2Proof.Machine.execSltn o s
  | .seq o => Sys2Proof.Machine.execSeq o s
  | .sne o => Sys2Proof.Machine.execSne o s
  | .addi o => Sys2Proof.Machine.execAddi o s
  | .andi o => Sys2Proof.Machine.execAndi o s
  | .ori o => Sys2Proof.Machine.execOri o s
  | .xori o => Sys2Proof.Machine.execXori o s
  | .slti o => Sys2Proof.Machine.execSlti o s
  | .sltni o => Sys2Proof.Machine.execSltni o s
  | .ldi o => Sys2Proof.Machine.execLdi o s
  | .ldix o => Sys2Proof.Machine.execLdix o s
  | .ldixHi o => Sys2Proof.Machine.execLdixHi o s
  | .shli o => Sys2Proof.Machine.execShli o s
  | .shri o => Sys2Proof.Machine.execShri o s
  | .sari o => Sys2Proof.Machine.execSari o s
  | .roli o => Sys2Proof.Machine.execRoli o s
  | .ext o => Sys2Proof.Machine.execExt o s
  | .extn o => Sys2Proof.Machine.execExtn o s
  | .ins o => Sys2Proof.Machine.execIns o s
  | .insz o => Sys2Proof.Machine.execInsz o s
  | .insm o => Sys2Proof.Machine.execInsm o s
  | .clz o => Sys2Proof.Machine.execClz o s
  | .ctz o => Sys2Proof.Machine.execCtz o s
  | .popc o => Sys2Proof.Machine.execPopc o s
  | .brev o => Sys2Proof.Machine.execBrev o s
  | .ffcs o => Sys2Proof.Machine.execFfcs o s
  | .bswap o => Sys2Proof.Machine.execBswap o s
  | .fshi o => Sys2Proof.Machine.execFshi o s
  | .fsh o => Sys2Proof.Machine.execFsh o s
  | .plset o => Sys2Proof.Machine.execPlset o s
  | .bc o => Sys2Proof.Machine.execBc o s
  | .bci o => Sys2Proof.Machine.execBci o s
  | .j o => Sys2Proof.Machine.execJ o s
  | .jr o => Sys2Proof.Machine.execJr o s
  | .ldb o => Sys2Proof.Machine.execLdb o s
  | .ldbn o => Sys2Proof.Machine.execLdbn o s
  | .ldh o => Sys2Proof.Machine.execLdh o s
  | .ldhn o => Sys2Proof.Machine.execLdhn o s
  | .ldw o => Sys2Proof.Machine.execLdw o s
  | .ldwn o => Sys2Proof.Machine.execLdwn o s
  | .ldd o => Sys2Proof.Machine.execLdd o s
  | .lda o => Sys2Proof.Machine.execLda o s
  | .stb o => Sys2Proof.Machine.execStb o s
  | .sth o => Sys2Proof.Machine.execSth o s
  | .stw o => Sys2Proof.Machine.execStw o s
  | .std o => Sys2Proof.Machine.execStd o s
  | .stl o => Sys2Proof.Machine.execStl o s
  | .waitw o => Sys2Proof.Machine.execWaitw o s
  | .fence o => Sys2Proof.Machine.execFence o s
  | .tlook o => Sys2Proof.Machine.execTlook o s
  | .tset o => Sys2Proof.Machine.execTset o s
  | .tclr o => Sys2Proof.Machine.execTclr o s
  | .getres o => Sys2Proof.Machine.execGetres o s
  | .evwait o => Sys2Proof.Machine.execEvwait o s
  | .evpop o => Sys2Proof.Machine.execEvpop o s
  | .evpeek o => Sys2Proof.Machine.execEvpeek o s
  | .setb o => Sys2Proof.Machine.execSetb o s
  | .barinit o => Sys2Proof.Machine.execBarinit o s
  | .barexp o => Sys2Proof.Machine.execBarexp o s
  | .bararr o => Sys2Proof.Machine.execBararr o s
  | .barwait o => Sys2Proof.Machine.execBarwait o s
  | .bartest o => Sys2Proof.Machine.execBartest o s
  | .spawn o => Sys2Proof.Machine.execSpawn o s
  | .joinwait o => Sys2Proof.Machine.execJoinwait o s
  | .yield o => Sys2Proof.Machine.execYield o s
  | .done o => Sys2Proof.Machine.execDone o s
  | .tbound o => Sys2Proof.Machine.execTbound o s
  | .hintnext o => Sys2Proof.Machine.execHintnext o s
  | .waitpred o => Sys2Proof.Machine.execWaitpred o s
  | .bufpass o => Sys2Proof.Machine.execBufpass o s
  | .buftake o => Sys2Proof.Machine.execBuftake o s
  | .buffree o => Sys2Proof.Machine.execBuffree o s
  | .spawnx o => Sys2Proof.Machine.execSpawnx o s
  | .sqappend o => Sys2Proof.Machine.execSqappend o s
  | .sqconfirm o => Sys2Proof.Machine.execSqconfirm o s
  | .sqstate o => Sys2Proof.Machine.execSqstate o s
  | .wset o => Sys2Proof.Machine.execWset o s
  | .wclr o => Sys2Proof.Machine.execWclr o s
  | .wget o => Sys2Proof.Machine.execWget o s
  | .zwait o => Sys2Proof.Machine.execZwait o s
  | .zdrop o => Sys2Proof.Machine.execZdrop o s
  | .ztest o => Sys2Proof.Machine.execZtest o s
  | .rdcyc o => Sys2Proof.Machine.execRdcyc o s
  | .rdid o => Sys2Proof.Machine.execRdid o s
  | .rdfeat o => Sys2Proof.Machine.execRdfeat o s
  | .mfcr o => Sys2Proof.Machine.execMfcr o s
  | .mtcr o => Sys2Proof.Machine.execMtcr o s
  | .trapi o => Sys2Proof.Machine.execTrapi o s
  | .brk o => Sys2Proof.Machine.execBrk o s
  | .tlbinvCtx o => Sys2Proof.Machine.execTlbinvCtx o s
  | .tlbinvPage o => Sys2Proof.Machine.execTlbinvPage o s
  | .tlbinvAll o => Sys2Proof.Machine.execTlbinvAll o s
  | .actset o => Sys2Proof.Machine.execActset o s
  | .resume o => Sys2Proof.Machine.execResume o s
  | .halt o => Sys2Proof.Machine.execHalt o s
  | .wdogPet o => Sys2Proof.Machine.execWdogPet o s
  | .wdogExpire o => Sys2Proof.Machine.execWdogExpire o s
  | .wdogCorerst o => Sys2Proof.Machine.execWdogCorerst o s
  | .wdogDierst o => Sys2Proof.Machine.execWdogDierst o s
  | .featset o => Sys2Proof.Machine.execFeatset o s
  | .parkpop o => Sys2Proof.Machine.execParkpop o s
  | .vadd o => Sys2Proof.Machine.execVadd o s
  | .vsub o => Sys2Proof.Machine.execVsub o s
  | .vmul o => Sys2Proof.Machine.execVmul o s
  | .vmin o => Sys2Proof.Machine.execVmin o s
  | .vmax o => Sys2Proof.Machine.execVmax o s
  | .vabs o => Sys2Proof.Machine.execVabs o s
  | .vneg o => Sys2Proof.Machine.execVneg o s
  | .vmov o => Sys2Proof.Machine.execVmov o s
  | .vfma o => Sys2Proof.Machine.execVfma o s
  | .vfms o => Sys2Proof.Machine.execVfms o s
  | .vcmp o => Sys2Proof.Machine.execVcmp o s
  | .vsel o => Sys2Proof.Machine.execVsel o s
  | .vexp2 o => Sys2Proof.Machine.execVexp2 o s
  | .vlog2 o => Sys2Proof.Machine.execVlog2 o s
  | .vrcp o => Sys2Proof.Machine.execVrcp o s
  | .vrsq o => Sys2Proof.Machine.execVrsq o s
  | .vsqrt o => Sys2Proof.Machine.execVsqrt o s
  | .vand o => Sys2Proof.Machine.execVand o s
  | .vor o => Sys2Proof.Machine.execVor o s
  | .vxor o => Sys2Proof.Machine.execVxor o s
  | .vshl o => Sys2Proof.Machine.execVshl o s
  | .vshr o => Sys2Proof.Machine.execVshr o s
  | .vsar o => Sys2Proof.Machine.execVsar o s
  | .vpopc o => Sys2Proof.Machine.execVpopc o s
  | .vimad o => Sys2Proof.Machine.execVimad o s
  | .vcvt o => Sys2Proof.Machine.execVcvt o s
  | .vquant o => Sys2Proof.Machine.execVquant o s
  | .vdeq o => Sys2Proof.Machine.execVdeq o s
  | .vamax o => Sys2Proof.Machine.execVamax o s
  | .vpack o => Sys2Proof.Machine.execVpack o s
  | .vunpk o => Sys2Proof.Machine.execVunpk o s
  | .vshuf o => Sys2Proof.Machine.execVshuf o s
  | .vrot o => Sys2Proof.Machine.execVrot o s
  | .vbcast o => Sys2Proof.Machine.execVbcast o s
  | .vins o => Sys2Proof.Machine.execVins o s
  | .vredAdd o => Sys2Proof.Machine.execVredAdd o s
  | .vredMin o => Sys2Proof.Machine.execVredMin o s
  | .vredMax o => Sys2Proof.Machine.execVredMax o s
  | .vredAmax o => Sys2Proof.Machine.execVredAmax o s
  | .vredAnd o => Sys2Proof.Machine.execVredAnd o s
  | .vredOr o => Sys2Proof.Machine.execVredOr o s
  | .vredXor o => Sys2Proof.Machine.execVredXor o s
  | .vld o => Sys2Proof.Machine.execVld o s
  | .vst o => Sys2Proof.Machine.execVst o s
  | .vgath o => Sys2Proof.Machine.execVgath o s
  | .vscat o => Sys2Proof.Machine.execVscat o s
  | .vldg o => Sys2Proof.Machine.execVldg o s
  | .vstg o => Sys2Proof.Machine.execVstg o s
  | .accrd o => Sys2Proof.Machine.execAccrd o s
  | .accwr o => Sys2Proof.Machine.execAccwr o s
  | .commit o => Sys2Proof.Machine.execCommit o s
  | .gcfg o => Sys2Proof.Machine.execGcfg o s
  | .vloop o => Sys2Proof.Machine.execVloop o s
  | .vlend o => Sys2Proof.Machine.execVlend o s
  | .pset o => Sys2Proof.Machine.execPset o s
  | .pand o => Sys2Proof.Machine.execPand o s
  | .por o => Sys2Proof.Machine.execPor o s
  | .pxor o => Sys2Proof.Machine.execPxor o s
  | .pnot o => Sys2Proof.Machine.execPnot o s
  | .pandn o => Sys2Proof.Machine.execPandn o s
  | .pcnt o => Sys2Proof.Machine.execPcnt o s
  | .vrand o => Sys2Proof.Machine.execVrand o s
  | .vseed o => Sys2Proof.Machine.execVseed o s
  | .vtopk o => Sys2Proof.Machine.execVtopk o s
  | .vdraw o => Sys2Proof.Machine.execVdraw o s
  | .mcfg o => Sys2Proof.Machine.execMcfg o s
  | .mma o => Sys2Proof.Machine.execMma o s
  | .mmaAcca o => Sys2Proof.Machine.execMmaAcca o s
  | .mspa o => Sys2Proof.Machine.execMspa o s
  | .mzero o => Sys2Proof.Machine.execMzero o s
  | .mdrain o => Sys2Proof.Machine.execMdrain o s
  | .mdrainMerge o => Sys2Proof.Machine.execMdrainMerge o s
  | .mstat o => Sys2Proof.Machine.execMstat o s
  | .copy o => Sys2Proof.Machine.execCopy o s
  | .copyf o => Sys2Proof.Machine.execCopyf o s
  | .cpb o => Sys2Proof.Machine.execCpb o s
  | .cph o => Sys2Proof.Machine.execCph o s
  | .atom o => Sys2Proof.Machine.execAtom o s
  | .atomf o => Sys2Proof.Machine.execAtomf o s
  | .subs o => Sys2Proof.Machine.execSubs o s
  | .unsub o => Sys2Proof.Machine.execUnsub o s
  | .pull o => Sys2Proof.Machine.execPull o s
  | .rrot o => Sys2Proof.Machine.execRrot o s
  | .pref o => Sys2Proof.Machine.execPref o s
  | .invc o => Sys2Proof.Machine.execInvc o s
  | .wbc o => Sys2Proof.Machine.execWbc o s
  | .controlRegisterWrite die num val => Sys2Proof.Machine.execControlRegisterWrite die num val s
  | .parkaskWrite die val => Sys2Proof.Machine.execParkaskWrite die val s
  | .featacceptWrite die val => Sys2Proof.Machine.execFeatacceptWrite die val s
  | .actbaseWrite die ctx val => Sys2Proof.Machine.execActbaseWrite die ctx val s
  | .ttcfgWrite core val => Sys2Proof.Machine.execTtcfgWrite core val s
  | .bfmtWrite core bank val => Sys2Proof.Machine.execBfmtWrite core bank val s
  | .fpControlWrite core reg val => Sys2Proof.Machine.execFpControlWrite core reg val s
  | .hashmaskWrite die idx val => Sys2Proof.Machine.execHashmaskWrite die idx val s
  | .chkctlWrite die val => Sys2Proof.Machine.execChkctlWrite die val s
  | .poisonlogWrite die val => Sys2Proof.Machine.execPoisonlogWrite die val s
  | .wdogctlWrite die val => Sys2Proof.Machine.execWdogctlWrite die val s
  | .hostUnsupportedRequest addr => Sys2Proof.Machine.execHostUnsupportedRequest addr s
  | .mailboxTailWrite val => Sys2Proof.Machine.execMailboxTailWrite val s
  | .launchRecord => Sys2Proof.Machine.execLaunchRecord s
  | .attestRecord => Sys2Proof.Machine.execAttestRecord s
  | .launchComplete launch => Sys2Proof.Machine.execLaunchComplete launch s
  | .successorRootPlace launch => Sys2Proof.Machine.execSuccessorRootPlace launch s
  | .powerOn board => Sys2Proof.Machine.execPowerOn board s
  | .firmwarePiece piece => Sys2Proof.Machine.execFirmwarePiece piece s
  | .powerLoss => Sys2Proof.Machine.execPowerLoss s
  | .packageReset => Sys2Proof.Machine.execPackageReset s
  | .dieReset die => Sys2Proof.Machine.execDieReset die s
  | .watchdogExpiry die => Sys2Proof.Machine.execWatchdogExpiry die s
  | .scrubPass die line found => Sys2Proof.Machine.execScrubPass die line found s
  | .taskForwardReceive die => Sys2Proof.Machine.execTaskForwardReceive die s
  | .coreIdleRequest core => Sys2Proof.Machine.execCoreIdleRequest core s
  | .agingPromotion task => Sys2Proof.Machine.execAgingPromotion task s
  | .readyWaitExpiry task => Sys2Proof.Machine.execReadyWaitExpiry task s
  | .deadlineExpiry core => Sys2Proof.Machine.execDeadlineExpiry core s
  | .holdingTaskSave core => Sys2Proof.Machine.execHoldingTaskSave core s
  | .featureParkPlace die => Sys2Proof.Machine.execFeatureParkPlace die s
  | .loadTileDelivery task core => Sys2Proof.Machine.execLoadTileDelivery task core s
  | .storeStageWrite task => Sys2Proof.Machine.execStoreStageWrite task s
  | .causeTaken core => Sys2Proof.Machine.execCauseTaken core s
  | .dCauseArrival core n => Sys2Proof.Machine.execDCauseArrival core n s
  | .releaseSend core => Sys2Proof.Machine.execReleaseSend core s
  | .copyComplete core n => Sys2Proof.Machine.execCopyComplete core n s
  | .barrierDelivery core n => Sys2Proof.Machine.execBarrierDelivery core n s
  | .subscriptionTileDelivery core id => Sys2Proof.Machine.execSubscriptionTileDelivery core id s
  | .rrotExchange clearing => Sys2Proof.Machine.execRrotExchange clearing s
  | .rrotTimeout core => Sys2Proof.Machine.execRrotTimeout core s
  | .barwaitTimeout core => Sys2Proof.Machine.execBarwaitTimeout core s
  | .mergeTileArrival core => Sys2Proof.Machine.execMergeTileArrival core s
  | .mergeRetry core => Sys2Proof.Machine.execMergeRetry core s
  | .mergeWaitTimeout core => Sys2Proof.Machine.execMergeWaitTimeout core s
  | .mergeRefusedTimeout core => Sys2Proof.Machine.execMergeRefusedTimeout core s
  | .arrayStep core => Sys2Proof.Machine.execArrayStep core s
  | .accrdLand core t => Sys2Proof.Machine.execAccrdLand core t s
  | .atomicUnitPerform core n => Sys2Proof.Machine.execAtomicUnitPerform core n s
  | .memoryPortAccess core n => Sys2Proof.Machine.execMemoryPortAccess core n s
  | .migration die page => Sys2Proof.Machine.execMigration die page s
  | .shootdownAck die by_ => Sys2Proof.Machine.execShootdownAck die by_ s
  | .migholdExpiry die n => Sys2Proof.Machine.execMigholdExpiry die n s
  | .blazeLanded die entry => Sys2Proof.Machine.execBlazeLanded die entry s
  | .blazeFailed die entry => Sys2Proof.Machine.execBlazeFailed die entry s
  | .watcherRegister core n => Sys2Proof.Machine.execWatcherRegister core n s
  | .cphArrival core n => Sys2Proof.Machine.execCphArrival core n s
  | .watch die n => Sys2Proof.Machine.execWatch die n s
  | .landed die n => Sys2Proof.Machine.execLanded die n s
  | .failed die n => Sys2Proof.Machine.execFailed die n s
  | .holdlimExpiry die n => Sys2Proof.Machine.execHoldlimExpiry die n s
  | .resendBackoffExpiry packet => Sys2Proof.Machine.execResendBackoffExpiry packet s
  | .ringSlotArrival packet takes => Sys2Proof.Machine.execRingSlotArrival packet takes s
  | .markedResponse die peer => Sys2Proof.Machine.execMarkedResponse die peer s
  | .entropyQuietPoint die peer => Sys2Proof.Machine.execEntropyQuietPoint die peer s
  | .dlrMove packet => Sys2Proof.Machine.execDlrMove packet s
  | .linkFlitRetransmit packet => Sys2Proof.Machine.execLinkFlitRetransmit packet s
  | .illegalEncoding bad => Sys2Proof.Machine.execIllegalEncoding bad s
  | .accessAcknowledged core n => Sys2Proof.Machine.execAccessAcknowledged core n s
  | .overflowStoreDrain die tc => Sys2Proof.Machine.execOverflowStoreDrain die tc s
  | .injectionLimitRelease packet => Sys2Proof.Machine.execInjectionLimitRelease packet s
  | .torusHop packet full => Sys2Proof.Machine.execTorusHop packet full s
  | .clearingRingRetry core n => Sys2Proof.Machine.execClearingRingRetry core n s

end Sys2Proof.Machine
end

