-- ==== Sys2Proof/Machine/Run.lean ====
section
/-! DEFINITION. What a step does around `exec`: the clock (01 R16), the engines of the core in focus, the timeouts, the
scheduler (09 R261-R272), issue at `PCQ0` (02 R35), and the model's own turns (logs 3, 4, 5); and the placing of one
instruction for the next step. -/

namespace Sys2Proof.Machine

/-! ## The clock and the engines -/

/-- A cycle of the die of the core in focus passes, and its watchdog counts down (12 R361, log 4). -/
def tick (s : State) : State :=
  s.modDie (dieOf s.core.agent) fun x =>
    { x with cycle := x.cycle + 1, wdogCount := if x.wdogctl.getLsbD 0 then x.wdogCount - 1 else x.wdogCount }

/-- The watchdog of the die of the core in focus, if it has run out. -/
def watchdogStep (s : State) : State :=
  if s.die.wdogctl.getLsbD 0 && s.die.wdogCount == 0 then watchdogExpires s (dieOf s.core.agent) else s

/-- A cause of the task of the core in focus is being taken: its engines have stopped (12 R333). -/
def taking (s : State) : Bool := s.core.regs.pend.taking.isSome

/-- The engines of the core in focus: a step of the VE, of the ME, of the copy issue port and its copies; its landing
buffers, its accesses in flight and its release. While a cause is being taken only what has been sent goes on. -/
def engineStep (s : State) : State :=
  if s.core.task.isNone then s
  else if taking s then settleFlights (advanceHolds (workFrom s.cp.copies.length s))
  else sendRelease (settleFlights (landAll (cpStep (meStep (veStep s)))))

/-- Held CPHs of a die that have waited `HOLDLIM` cycles (07 R196). -/
def holdTimeouts (s : State) (d : Fin 8) : State :=
  s.dies[d].hold.foldl (fun x h => if x.dies[d].hold.contains h && holdExpired x d h then discardHold x d h else x) s

/-- The timeouts of the core in focus and of its die. -/
def timeoutStep (s : State) : State :=
  if s.core.task.isNone then s
  else holdTimeouts (barTimeout (rrotOver (mergeRefusedOver (mergeWaitOver s)))) (dieOf s.core.agent)

/-- A forced save that would begin in this cycle, the last that 09 R271 allows, finds no room: a DEADLINE record says so and
the task runs on (12 R351). -/
def noRoomStep (s : State) : State :=
  match s.core.task, s.core.yreq with
  | some t, some c =>
    if c + s.deadlineOf t + max 1 (saveSlack s t) = s.now ∧ (roomFor s (dieOf s.core.agent) (imageSize t.obj true true)).isNone then
      (deadlineRecord s t .kill true).1
    else s
  | _, _ => s

/-- What a die scheduler does about waiting tasks: promotions (09 R269) and yield requests (09 R270). -/
def watchTasks (s : State) : State :=
  let a : State := { s with tasks := s.tasks.map (agePlace s) }
  a.tasks.foldl readyWait a

/-- Everything that a step does before the SCC issues. -/
def prepare (s : State) : State := watchTasks (noRoomStep (timeoutStep (engineStep (watchdogStep (tick s)))))

/-! ## Issue -/

/-- A forced save is due and can be made (09 R271). -/
def saveDue (s : State) (t : Task) : Bool :=
  deadlinePassed s (saveSlack s t) && saveFree s && (roomFor s (dieOf s.core.agent) (imageSize t.obj true true)).isSome

/-- A core without a task asks for work (09 R261). -/
def scheduleStep (s : State) : State := idleRequest s.core.agent s

/-- The line being executed is kept (02 R36). -/
def keepLine (s : State) (l : Option Line) : State := s.modCore fun c => { c with line := l }

/-- What the SCC does with what it finds at `PCQ0` (02 R35, R55, 05 R89). -/
def issueFetched (s : State) : Fetched → Out
  | .fail f => .next (trap s f)
  | .bad b => execIllegalEncoding b s
  | .empty => .next (resolveQueue s)
  | .nul => .next (retire s)
  | .instr i => exec i s

/-- A pending cause that the SCC's next boundary takes: its own, one of precision D (12 R334), FIRSTNAN, whose command has
completed, or that of an engine command that lies 64 or more instructions back (log 21). -/
def causeUrgent (s : State) : Bool :=
  let p := s.core.regs.pend
  p.taking.isSome || p.scc.isSome || !p.late.isEmpty ||
    (p.ve.toList ++ p.me.toList ++ p.copy.toList).any fun r =>
      r.cause == .firstnan || decide (64 ≤ (s.scc.idx - r.idx).toNat)

/-- Where the instruction at PCQ0 holds, a pending cause of an engine is taken (13 R372, log 21), and a task that holds in
`JOINWAIT` or `WAITPRED` is saved for another (09 R270). -/
def whereHeld (s : State) (o : Out) : Out :=
  match o with
  | .next t =>
    if t.scc.hold.isSome && t.core.regs.pend == s.core.regs.pend then
      .next (if s.core.regs.pend.all.isEmpty then holdingSave t else causeStep s)
    else .next t
  | x => x

/-- The core in focus issues: an urgent cause comes first, then a save that is due (12 R333, 09 R271). -/
def issueStep (s : State) : Out :=
  match s.core.task with
  | none => .next (scheduleStep s)
  | some t =>
    if causeUrgent s then .next (causeStep s)
    else if saveDue s t then .next (forceSave s t)
    else whereHeld s (issueFetched (keepLine s (atPcq0 s).2) (atPcq0 s).1)

/-! ## Turns -/

/-- A TLB entry for an address of the context of the core in focus, or none. -/
def tlbEntry (s : State) (a : Word) : Option TlbEnt :=
  match walk s (dieOf s.core.agent) s.ctx a.toNat with
  | .ok l => some ⟨s.ctx, a.toNat / l.pageBytes * l.pageBytes, l⟩
  | .error _ => none

/-- A TLB takes the translation of an address, the core's own or its die's; the oldest of 32 or 6,144 entries leaves a
full one (11 R322). -/
def fillTlb (shared : Bool) (a : Word) (s : State) : State :=
  match tlbEntry s a with
  | none => s
  | some e =>
    if shared then
      s.modDie (dieOf s.core.agent) fun x => { x with tlb := (if 6144 ≤ x.tlb.length then x.tlb.drop 1 else x.tlb) ++ [e] }
    else s.modCore fun c => { c with tlb := (if 32 ≤ c.tlb.length then c.tlb.drop 1 else c.tlb) ++ [e] }

/-- A TLB loses the translation of an address. -/
def dropTlb (shared : Bool) (a : Word) (s : State) : State :=
  let keep (e : TlbEnt) : Bool := !(e.ctx == s.ctx && decide (e.page ≤ a.toNat) && decide (a.toNat < e.page + e.leaf.pageBytes))
  if shared then s.modDie (dieOf s.core.agent) fun x => { x with tlb := x.tlb.filter keep }
  else s.modCore fun c => { c with tlb := c.tlb.filter keep }

/-- The die cache of the core in focus takes the line of an address of a CACHED page (07 R188). -/
def fillCache (a : Word) (s : State) : State :=
  match translate s none (dieOf s.core.agent) s.ctx s.isPriv .read a.toNat with
  | .ok p => fillLine (dieOf s.core.agent) s.ctx s p
  | .error _ => s

/-- One unit of the first copy that runs. -/
def copyUnit (s : State) : State :=
  match s.cp.copies.findIdx? fun r => r.phase == .run && mayWork s r with
  | some n => workRun s n (some 1)
  | none => s

/-- An engine of the core in focus runs: the copy issue port hands its head over, or a copy moves a unit. -/
def engineTurn (e : Eng) (s : State) : State :=
  if taking s then copyUnit s
  else
    match e with
    | .ve => veStep s
    | .me => meStep s
    | .cp => let t := portHand s
      if t.cp.queue.length < s.cp.queue.length then t else copyUnit s

/-- `n` cycles of a die pass. -/
def elapse (s : State) (d : Fin 8) (n : Nat) : State :=
  s.modDie d fun x =>
    { x with cycle := x.cycle + BitVec.ofNat 64 n, wdogCount := if x.wdogctl.getLsbD 0 then x.wdogCount - n else x.wdogCount }

/-- An uncorrectable error appears in a byte's granule (12 R354, R357). -/
def eccError (s : State) (key : Nat) : State :=
  if key < 2 ^ 52 then poisonKey s 1 key
  else if key < 2 ^ 53 then poisonPad s (Fin.ofNat 512 (bits key 23 9)) (key / 64 * 64) 3
  else s

/-- The host writes mailbox bytes (01 R27); `tail` and `piece` are written by steps of their own. -/
def hostWrite (s : State) (off : Nat) (bs : List Byte) : State :=
  if 2 ^ 16 < off + bs.length then { s with hostAnswer := .unsupported }
  else if off < 0x100 then { s with hostAnswer := .ok }
  else { s.store (mboxKey off) bs with hostAnswer := .ok }

/-- The host reads eight mailbox bytes; outside the mailbox the answer is an Unsupported Request (01 R27). -/
def hostRead (s : State) (off : Nat) : State :=
  if 2 ^ 16 < off + 8 then { s with hostAnswer := .unsupported }
  else { s with hostAnswer := .value (BitVec.ofNat 64 (s.le (mboxKey off) 8)) }

/-- A core takes the focus for good. -/
def takeFocus (s : State) (n : Fin 512) : State := s.focus n

/-- What a turn does (log 3). -/
def turnStep (t : Turn) (s : State) : Out :=
  match t with
  | .issue n => if s.disabled n then .next s else issueStep (takeFocus s n)
  | .engine n e => .next (atCore n (engineTurn e) s)
  | .event i => if (encode i).isSome then .next s else exec i s
  | .elapse d n => .next (elapse s d n)
  | .tlbFill n sh a => .next (atCore n (fillTlb sh a) s)
  | .tlbDrop n sh a => .next (atCore n (dropTlb sh a) s)
  | .cacheFill n a => .next (atCore n (fillCache a) s)
  | .cacheDrop d k => .next (s.modDie d fun x => { x with cached := x.cached.filter fun l => l.key != k })
  | .setInOrder n on => .next (atCore n (fun x => x.modCore fun c => { c with inOrder := on }) s)
  | .eccError k => .next (eccError s k)
  | .inject a b tc n r => .next (injectPkt s a b tc n r false none)
  | .flitError n => .next (flitFails s n)
  | .hostWrite off bs => .next (hostWrite s off bs)
  | .hostRead off => .next (hostRead s off)
  | .hostReadReg d n => .next { s with hostAnswer := .value (windowReg s d n.toNat) }

/-! ## Placing one instruction -/

/-- The code object of the placed task: it declares every slot, the rotating region and the whole scratchpad. -/
def placedObj : CodeObj := ⟨0, 0, 32, 4, 0, 0, 15, true, 2 ^ 23, [], []⟩

/-- The task that runs the placed instruction: privileged, of context 0. -/
def placedTask : Task where
  id := 1
  code := 0
  stage := 0
  prio := 0
  stealx := false
  stealp := false
  fwd := false
  ctx := 0
  serial := 0
  lo := 0
  hi := 1
  cur := 0
  anchor := 0
  arg := 0
  join := 0
  childJoin := 0
  inbound := 0
  taken := false
  handles := []
  privileged := true
  obj := placedObj
  launch := none
  spawner := none
  floor := 0
  ran := true
  home := 0

/-- The page that holds the placed instruction: the first 64 MiB of the core's die, with every permission. -/
def placedLeaf (s : State) : Leaf :=
  ⟨peerOf s.pkg (dieOf s.core.agent).val, 0, 0, false, false, true, true, true, 0, 2 ^ 21, 2 ^ 26, 4⟩

/-- The header of a line with one instruction in lane 1, 64 bits long or not. -/
def placedHeader (cls : LaneClass) (wide : Bool) : Nat :=
  16 * cls.code + (if wide then 256 * LaneClass.code .cont else 0)

/-- The core in focus runs a task whose `PCQ0` is lane 1 of a line with the words `lo` and, after it, `hi`; the features
are accepted on its die. -/
def placeWords (s : State) (cls : LaneClass) (lo hi : Nat) : State :=
  let wide := opens64 cls lo
  let s1 : State := { s with
    mem := memSetList s.mem (hbmKey (peerOf s.pkg (dieOf s.core.agent).val) 0)
      (leBytes 4 (placedHeader cls wide) ++ leBytes 4 lo ++ leBytes 4 (if wide then hi else 0) ++ leBytes 20 0)
    turns := [] }
  let s2 := s1.modDie (dieOf s1.core.agent) fun d => { d with featon := 31 }
  s2.modCore fun c =>
    { c with
      task := some { placedTask with home := c.agent }
      resident := some 0
      halted := false
      line := none
      tlb := [⟨0, 0, placedLeaf s2⟩]
      regs := { c.regs with scc := { c.regs.scc with
        pcq0 := ⟨4, false⟩, pcq1 := ⟨if wide then 12 else 8, false⟩, pcq2 := ⟨if wide then 16 else 12, false⟩ } } }

/-- The instruction whose bits are `w` placed where the next step fetches; what is no instruction in any class is placed
in a SCAL lane. -/
def placeWord (s : State) (nbits w : Nat) : State :=
  let v := w % 2 ^ nbits
  placeWords s ((tableClass (bits v 0 32) (bits v 32 32) tableOrder).getD .scal) (bits v 0 32) (bits v 32 32)

end Sys2Proof.Machine
end

