-- ==== Sys2Proof/Machine/Step.lean ====
section
/-! DEFINITION. The step of the package (logs 3, 4, 5), and the placing of one instruction (log 11). -/

namespace Sys2Proof.Machine

/-- One step: the next turn of the schedule, or else a cycle of the core in focus. -/
def step (s : State) : Host.Outcome State Fault Refusal :=
  match s.turns with
  | t :: rest => turnStep t { s with turns := rest }
  | [] => issueStep (prepare s)

/-- The state with an instruction placed where `step` fetches next (log 11). -/
def State.withFetchWord (s : State) (nbits w : Nat) : State := placeWord s nbits w

end Sys2Proof.Machine
end

