-- ==== Sys2Proof/Safety.lean ====
section
/-! DEFINITION. The words that statements are written in: the states that instructions leave, field by field, and when an
engine or a core is free to act. Nothing here is part of the machine. -/

namespace Sys2Proof.Safety

open Sys2Proof.Machine

/-! ## What the SCC leaves -/

/-- `s` with other SCC registers; nothing else differs. -/
def withScc (s : State) (r : SccRegs) : State := { s with core := { s.core with regs := { s.core.regs with scc := r } } }

/-- The scalar registers with s[d] written; a write to s0 is discarded (02 R42). -/
def writeReg (s : State) (d : SReg) (v : Word) : Vector Word 32 := if d = 0 then s.scc.s else s.scc.s.set d v

/-- `s` after an SCC instruction that is no taken branch has issued and written `v` to s[d]: the PC queue moves up by one
place and the instruction after its last entry enters (05 R89), the command index counts (12 R335), no replay is held
against the instruction any more. Every other register, all memory and every other core and die are as before. -/
def wrote (s : State) (d : SReg) (v : Word) : State :=
  withScc s { s.scc with
    s := writeReg s d v
    pcq0 := s.scc.pcq1
    pcq1 := s.scc.pcq2
    pcq2 := ⟨BitVec.ofNat 64 (seqOf s s.scc.pcq2.addr.toNat), false⟩
    idx := s.scc.idx + 1
    replays := eraseKey s.scc.idx.toNat s.scc.replays
    hold := none
    barrier := none }

/-- `s` after an SCC instruction that writes no scalar register has issued. -/
def passed (s : State) : State := wrote s 0 0

/-- `s` while the instruction at PCQ0 holds: only the cycle since which it does is kept (08 R223). -/
def waiting (s : State) : State := withScc s { s.scc with hold := some (s.scc.hold.getD s.now) }

/-- A condition of 02 R49 on two words. -/
def condTrue : Cond → Word → Word → Prop
  | .eq, a, b => a = b
  | .ne, a, b => a ≠ b
  | .lt, a, b => a.toInt < b.toInt
  | .ge, a, b => b.toInt ≤ a.toInt
  | .ltn, a, b => a.toNat < b.toNat
  | .gen, a, b => b.toNat ≤ a.toNat
  | .any, a, b => a &&& b ≠ 0
  | .none, a, b => a &&& b = 0

/-- The delay slots of a branch are nullified, given whether it is taken (02 R49, 05 R90). -/
def slotsNull : Nul → Bool → Bool
  | .never, _ => false
  | .notTaken, taken => !taken
  | .taken, taken => taken
  | .always, _ => true

/-- The lane that a target names is a CONT lane of a line that can be fetched (05 R93). -/
def contTarget (s : State) (t : Word) : Prop :=
  ∃ l, fetchLine s (t.toNat / 32 * 32) = .ok l ∧ l.cls (t.toNat % 32 / 4) = some .cont

/-- A target that a taken branch or jump may have (05 R93): in no header lane, aligned, global, and no CONT lane. -/
def goodTarget (s : State) (t : Word) : Prop :=
  t.toNat % 32 ≠ 0 ∧ t.toNat % 4 = 0 ∧ t.toNat < 2 ^ 63 ∧ ¬contTarget s t

/-- `s` after a branch or jump has issued (05 R89, R90): a target enters the queue as the first lane there that is not
EMPTY; `null` says that both delay slots are nullified, a flag already set stays set; `v` is written to s[link]. -/
def branched (s : State) (target : Option Word) (null : Bool) (link : SReg) (v : Word) : State :=
  withScc s { s.scc with
    s := writeReg s link v
    pcq0 := { s.scc.pcq1 with nul := s.scc.pcq1.nul || null }
    pcq1 := { s.scc.pcq2 with nul := s.scc.pcq2.nul || null }
    pcq2 := match target with
      | some t => ⟨BitVec.ofNat 64 (resolveAt s t.toNat), false⟩
      | none => ⟨BitVec.ofNat 64 (seqOf s s.scc.pcq2.addr.toNat), false⟩
    idx := s.scc.idx + 1
    replays := eraseKey s.scc.idx.toNat s.scc.replays
    hold := none
    barrier := none }

/-- The return address (05 R104): the lane after the one in which the jump's second delay slot ends, its own or its CONT
lane; past a line's last lane, lane 1 of the next line. -/
def returnLane (s : State) : Nat :=
  let x := s.scc.pcq2.addr.toNat
  let line := x / 32 * 32
  let lane := x % 32 / 4
  let k := match fetchLine s line with
    | .ok l => if lane < 7 ∧ l.cls (lane + 1) = some .cont then lane + 1 else lane
    | .error _ => lane
  if k < 7 then line + 4 * (k + 1) else line + 32 + 4

/-- The number of one bits of a word. -/
def onesIn (x : Word) : Nat := ((List.range 64).filter fun i => x.getLsbD i).length

/-! ## Memory as one access reaches it -/

/-- The effective address of an SM form: s[a] + off9 × size (08 R219). -/
def smAddress (o : Sm) (size : Nat) (s : State) : Word := s.sreg o.a + BitVec.ofInt 64 (o.off.toInt * size)

/-- Where the bytes of an SCC access lie that reaches memory directly: byte `i` at the key `key i`. Of a global page this
takes in DIRECT and LOCAL pages without race detection, on which no migration and no held CPH acts. -/
inductive Reach (s : State) (need : Need) (size : Nat) (a : Word) : (Nat → Nat) → Prop
  /-- the own scratchpad, by either of its windows (08 R210, R212) -/
  | own (off : Nat) (h : off < 2 ^ 23) (ha : a.toNat = 0x8000000000000000 + off ∨
      a.toNat = 0x8020000000000000 + s.core.agent.val % 8 * 2 ^ 32 + off) :
    Reach s need size a fun i => spadAt s.core (off + i)
  /-- the own accumulator window: a declared slot that no earlier command covers (06 R137, R138, R140) -/
  | acc (off : Nat) (h : off < 2 ^ 19) (ha : a.toNat = 0x8010000000000000 + off) (hd : s.declares (off / 2 ^ 17) = true)
    (hb : slotBusy s (off / 2 ^ 17) = false) : Reach s need size a fun i => accKey s.core.agent.val (off + i)
  /-- the scratchpad of another member of the clearing that serves the same context (08 R211, 11 R319) -/
  | member (m off : Nat) (hm : m < 8) (hn : m ≠ s.core.agent.val % 8) (h : off < 2 ^ 23)
    (ha : a.toNat = 0x8020000000000000 + m * 2 ^ 32 + off) (hd : s.disabled (peerAgent s.core.agent m) = false)
    (hr : (s.coreAt (peerAgent s.core.agent m)).resident = some s.ctx) :
    Reach s need size a fun i => spadAt (s.coreAt (peerAgent s.core.agent m)) (off + i)
  /-- a page (11 R314-R317) -/
  | page (p : Phys) (ha : a.toNat < 2 ^ 57)
    (ht : translate s (some s.core) (dieOf s.core.agent) s.ctx s.isPriv need a.toNat = .ok p) (hm : p.leaf.mode < 2)
    (hc : p.leaf.check = false) (hg : migrationOf s p.key = none)
    (hh : behindHeld s (dieOf s.core.agent) p 1 s.ctx a.toNat size = false) : Reach s need size a fun i => p.key + i

/-- None of the bytes of an access lies in a poisoned granule (12 R354). -/
def Sound (s : State) (size : Nat) (key : Nat → Nat) : Prop := ∀ i < size, key i / 64 ∉ s.poison

/-- The number in `size` bytes of memory, least significant first (00 R7). -/
def memNumber (s : State) (size : Nat) (key : Nat → Nat) : Nat := leNat ((List.range size).map fun i => memGet s.mem (key i))

/-- A load's value from the number it read (08 R219). -/
def loaded (signed : Bool) (size n : Nat) : Word :=
  if signed then (BitVec.ofNat (8 * size) n).signExtend 64 else (BitVec.ofNat (8 * size) n).setWidth 64

/-- The die cache of the core's die without the remote lines of its context, where the scope of an acquire says so
(07 R183). -/
def acquired (s : State) (sc : Scope) : State :=
  if sc = .package ∨ sc = .fabric then
    { s with dies := s.dies.set (dieOf s.core.agent) { s.dies[dieOf s.core.agent] with
        cached := s.dies[dieOf s.core.agent].cached.filter fun l => l.ctx != s.ctx } }
  else s

/-- The core's epoch has counted a release (07 R206). -/
def released (s : State) : State := { s with core := { s.core with epoch := s.core.epoch + 1 } }

/-- `t` is `s` but for `size` bytes of memory at `key 0`, `key 1`, ..., which hold `v` (the low ones first), and for the die
caches' note of lines that HBM does not hold yet: every other byte reads as before, and nothing else differs. -/
def StoredOnly (s t : State) (size : Nat) (key : Nat → Nat) (v : Word) : Prop :=
  (∀ i < size, memGet t.mem (key i) = v.extractLsb' (8 * i) 8) ∧
  (∀ k, (∀ i < size, k ≠ key i) → memGet t.mem k = memGet s.mem k) ∧
  (∀ d : Fin 8, t.dies[d] = { s.dies[d] with dirty := t.dies[d].dirty }) ∧
  t = { s with mem := t.mem, dies := t.dies }

/-- Nothing of a path that was dispatched before is left to do (07 R172, R179, 08 R222): no access or unsent `STL` of the SCC;
no command of the VE; none of the copy port; none of the ME, no `ACCRD` or `ACCWR` in the VE, no landing transfer; no unsent
`BARARR`. -/
def PathDone (s : State) : Path → Prop
  | .s => s.ord.flights = [] ∧ s.ord.held = [] ∧ ∀ p, s.ord.release = some p → p.arrive = true
  | .v => s.ve.queue = [] ∧ s.ve.loop = none ∧ s.ve.recording = none
  | .c => s.cp.queue = [] ∧ s.cp.copies = []
  | .m => s.me.queue = [] ∧ s.me.run = none ∧ (∀ c ∈ veWaiting s, ∀ o, c.instr ≠ .accrd o ∧ c.instr ≠ .accwr o) ∧
      ∀ (n : Fin 16) l, s.ve.landing[n] = some l → l.data ≠ none
  | .t => ∀ p, s.ord.release = some p → p.arrive = false

/-- A wait slot is idle (07 R175): no access in flight, none that a pending cause names and no unsent release has set it. -/
def slotIdle (s : State) (n : Fin 8) : Prop :=
  (∀ f ∈ s.ord.flights ++ s.ord.held, f.slot ≠ some n) ∧ ∀ p, s.ord.release = some p → p.slot ≠ some n

/-! ## Engines that are free -/

/-- The copy engines of the core hold nothing and wait for nothing, and commands are performed at dispatch (log 5). -/
def CpFree (s : State) : Prop :=
  s.core.inOrder = true ∧ s.core.task ≠ none ∧ s.cp.queue = [] ∧ s.cp.copies = [] ∧ s.core.rrot = none ∧
    s.core.regs.pend.copy = none ∧ (∀ i : Fin 8, s.cp.subs[i] = none) ∧
    ∀ d : Fin 8, ∀ h ∈ s.dies[d].hold, h.who.actor.agent ≠ s.core.agent

/-- No command of the vector or matrix engine has work left that the range checker would hold a copy for (07 R178). -/
def UnitsIdle (s : State) : Prop :=
  s.ve.queue = [] ∧ s.ve.loop = none ∧ s.ve.recording = none ∧ (∀ n : Fin 16, s.ve.landing[n] = none) ∧ s.me.queue = [] ∧ s.me.run = none

/-- `s` after a copy-class form has issued and its command has been handed to a copy engine, which has done nothing of it
yet (08 R229, R230, R232): the next copy sequence number is taken, with NTF a place in the event queue. -/
def handed (i : Instr) (o : Cx) (s : State) : State := (passed s).modCp fun p => { p with
  cseq := p.cseq + 1, reserved := p.reserved + (if o.ntf then 1 else 0), copies := [⟨cpCmd i o s, 0, .run, none, [], false, 0⟩] }

/-- `v` once the command of a copy-class form is complete with some flags (08 R229, R233): they are merged, the command
leaves its engine, NTF posts its record, a release counts the epoch, an acquire drops remote lines. -/
def completed (i : Instr) (o : Cx) (s v : State) (units : Nat) (f : Flags) : State :=
  finishRun v (whoOf v) ⟨cpCmd i o s, units, .run, none, [], false, f⟩

/-- A copy-class form may issue, and its command may be worked on at once. -/
def CpAllowed (i : Instr) (o : Cx) (s : State) : Prop :=
  ready s (cpRegs i o) = true ∧ cpMissing i o s = false ∧ (o.ntf = true → s.cp.events.length + s.cp.reserved < 64) ∧
    (o.rel = true → releaseReady (passed s) (cpCmd i o s) = true)

/-! ## Vector commands -/

/-- The VE takes a command and performs it at once (log 5): nothing waits in it, and no command of another engine has work
left that the range checker would hold it for. -/
def VeFree (s : State) : Prop :=
  s.core.inOrder = true ∧ s.ve.queue = [] ∧ s.ve.loop = none ∧ s.ve.recording = none ∧ s.core.regs.pend.ve = none ∧
    s.me.queue = [] ∧ s.me.run = none ∧ s.cp.queue = [] ∧ s.cp.copies = []

/-- A VEC form may be dispatched (02 R50, 06 R138). -/
def VeAllowed (i : Instr) (s : State) : Prop := missingFeature i s = false ∧ slotsDeclared i s = true

/-- `s` after a VE command has issued whose cause has stopped the VE (05 R111): nothing is written, the command stands at
the head of the queue, the cause waits to be taken. -/
def veStopped (i : Instr) (vals : List Word) (s : State) (e : Fail) : State :=
  let t := (passed s).modVe fun r => { r with queue := [mkCmd i vals s] }
  { t with core := { t.core with regs := { t.core.regs with pend := { s.core.regs.pend with
      ve := some ⟨e.cause, .ve, false, true, s.scc.idx, 0, e.status, e.address⟩ } } } }

/-- The ME takes a command and performs it at once (log 5): nothing waits or runs in it, and no command of another engine has
work left that the range checker would hold it for. -/
def MeFree (s : State) : Prop :=
  s.core.inOrder = true ∧ s.me.queue = [] ∧ s.me.run = none ∧ s.core.regs.pend.me = none ∧ s.ve.queue = [] ∧ s.ve.loop = none ∧
    s.ve.recording = none ∧ (∀ n : Fin 16, s.ve.landing[n] = none) ∧ s.cp.queue = [] ∧ s.cp.copies = []

/-- `s` after an ME command has issued whose cause has stopped the ME before its first step (06 R170): nothing is written,
the command stands at the head of the queue, the cause waits to be taken. -/
def meStopped (i : Instr) (vals : List Word) (s : State) (e : Fail) : State :=
  let t := (passed s).modMe fun r => { r with queue := [mkCmd i vals s] }
  { t with core := { t.core with regs := { t.core.regs with pend := { s.core.regs.pend with
      me := some ⟨e.cause, .me, false, true, s.scc.idx, 0, e.status, e.address⟩ } } } }

/-- `s` as an ME command finds it: the SCC has gone on, the shadow configuration is active (06 R144). -/
def activated (s : State) : State := (passed s).modMe fun r => { r with active := r.shadow }

/-- A vector command that makes its destination element by element: its operands, its predicate, the destination's type,
whether it consumes randomness, and the result of destination element `n`, if that is written at all. -/
structure VecOp where
  dst : VCode
  src : List VCode
  pred : Fin 16
  ty : Ty
  random : Bool
  res : List VWord → Nat → Option Conv

/-- Element `n` of source `k`. -/
def sourceElem (t : Ty) (xs : List VWord) (k n : Nat) : Nat := elem t (xs.getD k 0) n

/-- A form with one source element for each destination element. -/
def oneSource (o : Va) (f : Nat → Conv) : VecOp := ⟨o.d, [o.a], o.p, o.ty, false, fun xs n => some (f (sourceElem o.ty xs 0 n))⟩

/-- A form with two source elements for each destination element. -/
def twoSources (o : Va) (f : Nat → Nat → Conv) : VecOp :=
  ⟨o.d, [o.a, o.b], o.p, o.ty, false, fun xs n => some (f (sourceElem o.ty xs 0 n) (sourceElem o.ty xs 1 n))⟩

/-- The rounding of 05 R112: to nearest even, subnormals kept, overflow to infinity or as the type says (04 R79). -/
def nearest (t : Ty) (v : Val × Bool) : Conv := roundResult t .rne false false 0 v

/-- A form whose destination element is a copy of some source element, or is not written. -/
def moved (o : Va) (f : List VWord → Nat → Option Nat) : VecOp :=
  ⟨o.d, [o.a, o.b], o.p, o.ty, false, fun xs n => (f xs n).map fun v => (v, 0)⟩

/-- One step of a fused operation (05 R113): flushed inputs, one rounding. -/
def fused (o : Vx) (s : State) (neg : Bool) : VecOp :=
  let rm := Rm.resolve s.fp.fpctl o.rm
  let x (xs : List VWord) (k n : Nat) : Val := decodeTy o.ty (flushIn o.ty o.fzi (sourceElem o.ty xs k n))
  ⟨o.d, [o.a, o.b, o.c], o.p, o.ty, decide (rm = .sr), fun xs n =>
    some (roundResult o.ty rm o.fzo false (drawVe s.fp.seed s.fp.rngcnt (lanePos o.ty n).1 (lanePos o.ty n).2)
      (Val.fma rm (x xs 0 n) (x xs 1 n) (if neg then (x xs 2 n).negate else x xs 2 n)))⟩

/-- What each vector command makes of its source elements (05 R112, R113, R116, R119-R124, R129, R135). Integer results wrap;
float results are rounded once. -/
inductive ElementOp (s : State) : Instr → VecOp → Prop
  | vaddInt (o) (h : o.ty.isFloat = false) :
    ElementOp s (.vadd o) (twoSources o fun a b => (intBits o.ty (intOf o.ty a + intOf o.ty b), 0))
  | vaddFloat (o) (h : o.ty.isFloat = true) :
    ElementOp s (.vadd o) (twoSources o fun a b => nearest o.ty ((decodeTy o.ty a).add .rne (decodeTy o.ty b)))
  | vsubInt (o) (h : o.ty.isFloat = false) :
    ElementOp s (.vsub o) (twoSources o fun a b => (intBits o.ty (intOf o.ty a - intOf o.ty b), 0))
  | vsubFloat (o) (h : o.ty.isFloat = true) :
    ElementOp s (.vsub o) (twoSources o fun a b => nearest o.ty ((decodeTy o.ty a).add .rne (decodeTy o.ty b).negate))
  | vmulInt (o) (h : o.ty.isFloat = false) :
    ElementOp s (.vmul o) (twoSources o fun a b => (intBits o.ty (intOf o.ty a * intOf o.ty b), 0))
  | vmulFloat (o) (h : o.ty.isFloat = true) :
    ElementOp s (.vmul o) (twoSources o fun a b => nearest o.ty ((decodeTy o.ty a).mul (decodeTy o.ty b)))
  | vminInt (o) (h : o.ty.isFloat = false) :
    ElementOp s (.vmin o) (twoSources o fun a b => (if intOf o.ty b < intOf o.ty a then b else a, 0))
  | vminFloat (o) (h : o.ty.isFloat = true) : ElementOp s (.vmin o) (twoSources o fun a b =>
      (if (decodeTy o.ty a).isNan || (decodeTy o.ty b).isNan then Ty.canonNaN o.ty
        else if beforeVal (decodeTy o.ty b) (decodeTy o.ty a) then b else a, 0))
  | vmaxInt (o) (h : o.ty.isFloat = false) :
    ElementOp s (.vmax o) (twoSources o fun a b => (if intOf o.ty a < intOf o.ty b then b else a, 0))
  | vmaxFloat (o) (h : o.ty.isFloat = true) : ElementOp s (.vmax o) (twoSources o fun a b =>
      (if (decodeTy o.ty a).isNan || (decodeTy o.ty b).isNan then Ty.canonNaN o.ty
        else if beforeVal (decodeTy o.ty a) (decodeTy o.ty b) then b else a, 0))
  | vabsInt (o) (h : o.ty.isFloat = false) : ElementOp s (.vabs o) (oneSource o fun a => (intBits o.ty (intOf o.ty a).natAbs, 0))
  | vabsFloat (o) (h : o.ty.isFloat = true) : ElementOp s (.vabs o) (oneSource o fun a => (a % 2 ^ (o.ty.width - 1), 0))
  | vnegInt (o) (h : o.ty.isFloat = false) : ElementOp s (.vneg o) (oneSource o fun a => (intBits o.ty (-intOf o.ty a), 0))
  | vnegFloat (o) (h : o.ty.isFloat = true) :
    ElementOp s (.vneg o) (oneSource o fun a => ((a + 2 ^ (o.ty.width - 1)) % 2 ^ o.ty.width, 0))
  | vmov (o) : ElementOp s (.vmov o) (oneSource o fun a => (a, 0))
  | vand (o) : ElementOp s (.vand o) (twoSources o fun a b => (a &&& b, 0))
  | vor (o) : ElementOp s (.vor o) (twoSources o fun a b => (a ||| b, 0))
  | vxor (o) : ElementOp s (.vxor o) (twoSources o fun a b => (a ^^^ b, 0))
  | vshl (o) : ElementOp s (.vshl o) (twoSources o fun a b => (a * 2 ^ (b % o.ty.width) % 2 ^ o.ty.width, 0))
  | vshr (o) : ElementOp s (.vshr o) (twoSources o fun a b => (a / 2 ^ (b % o.ty.width), 0))
  | vsar (o) : ElementOp s (.vsar o) (twoSources o fun a b => (intBits o.ty (intOf o.ty a / 2 ^ (b % o.ty.width)), 0))
  | vpopc (o) : ElementOp s (.vpopc o) (oneSource o fun a => (((List.range o.ty.width).filter fun k => bit a k).length, 0))
  | vfma (o) : ElementOp s (.vfma o) (fused o s false)
  | vfms (o) : ElementOp s (.vfms o) (fused o s true)
  | vexp2 (o) : ElementOp s (.vexp2 o) (oneSource o exp2Elem)
  | vlog2 (o) : ElementOp s (.vlog2 o) (oneSource o log2Elem)
  | vrcp (o) : ElementOp s (.vrcp o) (oneSource o rcpElem)
  | vrsq (o) : ElementOp s (.vrsq o) (oneSource o rsqElem)
  | vsqrt (o) : ElementOp s (.vsqrt o) (oneSource o sqrtElem)
  | vcvt (o) : ElementOp s (.vcvt o) ⟨o.d, [o.a], o.p, o.dty, decide (Rm.resolve s.fp.fpctl o.rm = .sr), fun xs n =>
      let ns := o.ty.count
      let nd := o.dty.count
      let h := o.aux.toNat
      let i := if nd ≤ ns then h * nd + n else n - h * ns
      if nd ≤ ns ∨ h * ns ≤ n ∧ n < h * ns + ns then
        some (convertBits o.ty o.dty (Rm.resolve s.fp.fpctl o.rm) o.fzi o.fzo o.sat
          (drawVe s.fp.seed s.fp.rngcnt (lanePos o.dty n).1 (lanePos o.dty n).2) (if i < ns then sourceElem o.ty xs 0 i else 0))
      else none⟩
  | vimad (o) (h : o.dty = .i32 ∨ o.dty = .n32) : ElementOp s (.vimad o) ⟨o.d, [o.a, o.b, o.c], o.p, o.dty, false, fun xs n =>
      let x := intOf o.dty (sourceElem o.dty xs 2 n) + ((List.range (32 / o.ty.width)).map fun k =>
        intOf o.ty (sourceElem o.ty xs 0 (n * (32 / o.ty.width) + k)) * intOf o.ty (sourceElem o.ty xs 1 (n * (32 / o.ty.width) + k))).sum
      let y := max o.dty.range.1 (min o.dty.range.2 x)
      some (if o.sat then (intBits o.dty y, if y = x then 0 else Flags.satf) else (intBits o.dty x, 0))⟩
  | vdeqMx (o) (h : o.ty ≠ .hb4) :
    ElementOp s (.vdeq o) ⟨o.d, [o.a], o.p, o.dty, decide (Rm.resolve s.fp.fpctl o.rm = .sr), fun xs n =>
      let i := o.aux.toNat % 16 * o.dty.count + n
      some (convert o.dty (Rm.resolve s.fp.fpctl o.rm) o.fzo false
        (drawVe s.fp.seed s.fp.rngcnt (lanePos o.dty n).1 (lanePos o.dty n).2)
        (decodeMx o.ty (elem .n8 (s.vreg (Fin.ofNat 56 o.b.val)) (i / 32)) (sourceElem o.ty xs 0 i)))⟩
  | vpack (o) : ElementOp s (.vpack o) (moved o fun xs n => some (
      if n < o.ty.count / 2 then sourceElem o.ty xs 0 (2 * n) else sourceElem o.ty xs 1 (2 * (n - o.ty.count / 2))))
  | vunpk (o) : ElementOp s (.vunpk o) (moved o fun xs n => some (sourceElem o.ty xs (n % 2) (n / 2)))
  | vshuf (o) : ElementOp s (.vshuf o) (moved o fun xs n => some (sourceElem o.ty xs 0 (sourceElem o.ty xs 1 n % o.ty.count)))
  | vrot (o) : ElementOp s (.vrot o) (moved o fun xs n => some (sourceElem o.ty xs 0 ((n + sourceElem .n32 xs 1 0) % o.ty.count)))
  | vbcast (o) : ElementOp s (.vbcast o) (moved o fun xs _ => some (sourceElem o.ty xs 0 (sourceElem .n32 xs 1 0 % o.ty.count)))
  | vins (o) : ElementOp s (.vins o) (moved o fun xs n =>
      if n = sourceElem .n32 xs 1 0 % o.ty.count then some (sourceElem o.ty xs 0 0) else none)
  | vrand (o) : ElementOp s (.vrand o) ⟨o.d, [], o.p, .n32, true, fun _ n => some ((laneWord s.fp.seed s.fp.rngcnt n).toNat / 2 ^ 32, 0)⟩

/-- A condition of VCMP (05 R114). -/
def compared (code : Nat) (a b : Val) : Prop :=
  let unordered := a.isNan = true ∨ b.isNan = true
  match code with
  | 0 => a.beq b = true
  | 1 => unordered ∨ a.beq b = false
  | 2 => a.lt b = true
  | 3 => a.lt b = true ∨ a.beq b = true
  | 4 => b.lt a = true
  | 5 => b.lt a = true ∨ a.beq b = true
  | 6 => unordered
  | _ => ¬unordered

/-- The elements of a source that the predicate enables, ascending. -/
def enabledVals (s : State) (o : Va) (x : VWord) : List Nat :=
  ((List.range o.ty.count).filter fun n => enabled (s.preg o.p) o.ty n).map fun n => elem o.ty x n

/-- `t` is `s` but for memory, the poison that stores clear, and the layout tags of the core's scratchpad. -/
def SpadOnly (s t : State) : Prop := ∃ m p l, t = { s with mem := m, poison := p, core := { s.core with ltags := l } }

/-- `z` is `x` in the lanes that a predicate enables and `y` in the others (02 R43, 08 R226). -/
def laneWise (p : Word) (x y z : VWord) : Prop := ∀ k < 2048, z.getLsbD k = if p.getLsbD (k / 32) then x.getLsbD k else y.getLsbD k

/-- The results of a vector command that its predicate enables, in element order (02 R43). -/
def vecResults (s : State) (w : VecOp) (xs : List VWord) : List (Nat × Conv) :=
  (List.range w.ty.count).filterMap fun n => if enabled (s.preg w.pred) w.ty n then (w.res xs n).map fun r => (n, r) else none

/-- `x` under the mask `m` holds these results, and the mask names no other element. -/
def Placed (t : Ty) (res : List (Nat × Conv)) (x m : VWord) : Prop :=
  (∀ r ∈ res, elem t x r.1 = r.2.1 % 2 ^ t.width ∧ elem t m r.1 = 2 ^ t.width - 1) ∧
  (∀ n < t.count, (∀ r ∈ res, r.1 ≠ n) → elem t m n = 0) ∧ m.toNat < 2 ^ (t.width * t.count)

/-- `v` with the flags of a command merged, and with one more command counted that consumed randomness (04 R77, R83). -/
def counted (v : State) (f : Flags) (random : Bool) : State :=
  { v with core := { v.core with regs := { v.core.regs with fp := { v.core.regs.fp with
      fpflags := (v.core.regs.fp.fpflags ||| f.setWidth 64) &&& 0x7F
      rngcnt := if random then v.core.regs.fp.rngcnt + 1 else v.core.regs.fp.rngcnt } } } }

/-- The flags of all results. -/
def flagsOf (f : Flags) (res : List (Nat × Conv)) : Flags := res.foldl (fun g r => g ||| r.2.2) f

/-! ## Stage barriers and tasks -/

/-- A window address names the barrier object at an offset of a core's scratchpad, its own or another member's that serves
the same context; the object is aligned and no byte of it is poisoned (08 R253, 12 R355). -/
def BarrierAt (s : State) (a : Word) (n : Fin 512) (off : Nat) : Prop :=
  off < 2 ^ 23 ∧ a.toNat % 16 = 0 ∧
    ((n = s.core.agent ∧ (a.toNat = 0x8000000000000000 + off ∨ a.toNat = 0x8020000000000000 + s.core.agent.val % 8 * 2 ^ 32 + off)) ∨
     ∃ m < 8, m ≠ s.core.agent.val % 8 ∧ n = peerAgent s.core.agent m ∧ a.toNat = 0x8020000000000000 + m * 2 ^ 32 + off ∧
       s.disabled n = false ∧ (s.coreAt n).resident = some s.ctx) ∧
    ∀ i < 16, spadAt (s.coreAt n) (off + i) / 64 ∉ s.poison

/-- What a waiter imports at a barrier whose phase is complete (08 R256): with a record, its arrivers; where arrivals of the
next phase may have overwritten them, the horizon counts as lost. -/
def phaseImported (s : State) (n : Fin 512) (b : BarObj) : State :=
  if b.record = 0 then s else if b.arrived = 0 then importAll s (barImports s n b) else s.modOrd fun o => { o with lost := true }

/-- What a spawn that asks for `q` with its number to s[d] makes of a state in which a task runs (09 R275, R276):
ILLEGAL for a request that is malformed, a hold until everything before it is performed and its join and the task store
have room, nothing but the release for an empty range, and else, where its anchor does not forward it, one child more,
placed on this die and numbered, with the join expecting it. -/
def Spawns (i : Instr) (d : SReg) (q : SpawnReq) (t : Task) (s : State) : Prop :=
  let bad : Prop := q.clean = false ∨ t.obj.stageCount ≤ q.stage ∨ q.hi < q.lo ∨ 2 ^ 48 < q.hi
  let ready : Prop := allDone s = true ∧ storeFree s (dieOf s.core.agent) = true ∧
    (s.joinAt t.childJoin).expected < 2 ^ 24 - 1
  (bad → exec i s = .next (trap s ⟨.illegal, 0, 0⟩)) ∧
  (¬bad → ¬ready → exec i s = .next (waiting s)) ∧
  (¬bad → ready → q.lo = q.hi → exec i s = .next (wrote (released s) d 0)) ∧
  (¬bad → ready → q.lo ≠ q.hi → q.fwd = false → ∃ x e id place, exec i s = .next (wrote x d (BitVec.setWidth 64 id)) ∧
    x.tasks = s.tasks ++ [⟨e, place, none⟩] ∧ x.mem = s.mem ∧ x.core.regs = s.core.regs ∧ x.core.epoch = s.core.epoch + 1 ∧
    x.joins = (s.joins.modify t.childJoin fun j => { j with expected := j.expected + 1 }) ++ [⟨0, 0, 0, 0, []⟩] ∧
    (∃ n, id = BitVec.ofNat 32 (t.serial.toNat * 2 ^ 24 + s.core.agent.val / 64 * 2 ^ 21 + n % 2 ^ 21)) ∧
    (e.id, e.code, e.stage, e.prio, e.lo, e.hi, e.anchor, e.arg, e.join, e.childJoin) =
      (id, t.code, q.stage, q.prio, q.lo, q.hi, q.anchor, q.arg, t.childJoin, s.joins.length) ∧
    (e.ctx, e.serial, e.launch, e.stealx, e.stealp, e.fwd, e.inbound, e.handles, e.ran) =
      (t.ctx, t.serial, t.launch, q.stealx, q.stealp, false, 0, [], false))

/-- `u` is `s` with its task gone from the core (09 R279): the core has none, its registers read as at entry, the die keeps
no park request for it, and no byte of memory has changed. -/
def TaskGone (s u : State) (t : Task) : Prop :=
  u.core.task = none ∧ u.core.regs = TaskRegs.entry ∧ u.core.yreq = none ∧ u.mem = s.mem ∧ u.poison = s.poison ∧
    ∀ d : Fin 8, t.id ∉ u.dies[d].parkReqs

/-! ## Fetch -/

/-- The line that the core in focus reads at an address (02 R35, R36): the one it keeps, or else the 32 bytes there of a page
that may be fetched, none of them in a poisoned granule. -/
def LineAt (s : State) (a : Nat) (l : Line) : Prop :=
  (s.core.line = some l ∧ l.addr = a) ∨
  ((∀ k, s.core.line = some k → k.addr ≠ a) ∧
    ∃ p, translate s (some s.core) (dieOf s.core.agent) s.ctx s.isPriv .fetch a = .ok p ∧ Sound s 32 (fun i => p.key + i) ∧
      l.addr = a ∧ l.header = memNumber s 4 (fun i => p.key + i) ∧
      l.words = (List.range 7).map fun n => memNumber s 4 fun i => p.key + 4 * (n + 1) + i)

/-! ## Control registers -/

/-- 11 R310-R313, R325, R326, 12 R338, R357, R361: a write of a die's or a context's register `n` makes `t` of `s`. A write that
leaves a reserved bit nonzero changes nothing; a hash mask stays one-to-one; FEATACCEPT takes one write per die reset; CHKCTL's
count and POISONLOG are cleared; the watchdog's count reloads when EN rises; a sequence range lies in order below 16,384. -/
def DieRegisterWrite (s : State) (die : Fin 8) (n : Nat) (v : Word) (t : State) : Prop :=
  let clean (mask : Word) : Prop := v &&& ~~~mask = 0
  let sets (ok : Prop) (f : Die → Die) : Prop := (ok → t = s.modDie die f) ∧ (¬ok → t = s)
  let d := s.dies[die]
  (∀ i : Fin 8, n = 0x100 + i.val → sets (clean 0x7777777777777777) fun x => { x with afftab := x.afftab.set i v }) ∧
  (n = 0x108 ∨ n = 0x119 ∨ n = 0x11A → t = s) ∧
  (n = 0x109 → sets (d.featWritten = false) fun x => { x with featWritten := true, featon := v &&& 0x1F }) ∧
  (∀ i : Fin 6, n = 0x10A + i.val → sets (v.toNat % 2 ^ 8 = 0 ∧ v.toNat / 2 ^ 8 % 2 ^ 6 = 2 ^ i.val ∧ v.toNat < 2 ^ 36)
    fun x => { x with hashmask := x.hashmask.set i v }) ∧
  (n = 0x110 → sets True fun x => { x with dlrtimer := v }) ∧ (n = 0x111 → sets True fun x => { x with holdlim := v }) ∧
  (n = 0x112 → sets True fun x => { x with bartmo := v }) ∧ (n = 0x113 → sets True fun x => { x with agemax := v }) ∧
  (n = 0x114 → sets True fun x => { x with tclim := v &&& 0x3FF }) ∧
  (n = 0x115 → sets (clean 0xFFFFFFFF) fun x => { x with mighold := v }) ∧
  (n = 0x116 → sets True fun x => { x with chkctl := v &&& 0xFF01 }) ∧
  (n = 0x117 → sets True fun x => { x with poisonlog := 0 }) ∧
  (n = 0x118 → sets True fun x => { x with
    wdogctl := (v &&& 0xFFFFFFFF00000001) ||| (x.wdogctl &&& 2)
    wdogCount := if v.getLsbD 0 = true ∧ x.wdogctl.getLsbD 0 = false then v.toNat / 2 ^ 32 * 2 ^ 16 else x.wdogCount }) ∧
  (n = 0x11B → sets (clean 0x000FFFFFFFFFF001) fun x => { x with framepool := v }) ∧
  (n = 0x11D → sets (clean 0x000FFFFFFFC00001) fun x => { x with taskstore := v }) ∧
  (n = 0x11E → sets (clean 0x000FFFFFFFFF0000) fun x => { x with savearea := v }) ∧
  (n = 0x11F → sets (clean 0x000000FFFFFF0000) fun x => { x with savelen := v }) ∧
  (n = 0x120 → sets (clean 0x000FFFFFFFFFF00F ∧ v.toNat % 16 ≤ 10) fun x => { x with dielog := v }) ∧
  (n = 0x121 → sets (clean 0x000FFFFFFFFFF001) fun x => { x with rtagbase := v }) ∧
  (n = 0x122 → sets (clean 0x0000FFFF0000FFFF ∧ v.toNat % 2 ^ 16 + v.toNat / 2 ^ 32 ≤ 65536) fun x => { x with rtagwin := v }) ∧
  (∀ c : Fin 64,
    let ctx (i : Nat) (ok : Prop) (f : CtxRegs → CtxRegs) : Prop :=
      n = 0x4000 + 0x40 * c.val + i → (ok → t = s.setCtxAt die c (f (s.ctxAt die c))) ∧ (¬ok → t = s.setCtxAt die c (s.ctxAt die c) ∨ t = s)
    ctx 0 (clean 0xE00FFFFFFFFFE001) (fun r => { r with ptbase := v }) ∧
    ctx 2 (clean 0xFFFF7FFFFFFF7FFF) (fun r => { r with peermask := v }) ∧
    ctx 3 True (fun r => { r with migthresh := v }) ∧
    ctx 4 (clean 0xFFFFFFFFFFFFFFC0) (fun r => { r with sqbase := v }) ∧
    ctx 5 (clean 0x7FFF3FFF ∧ v.toNat / 2 ^ 16 ≤ 16384 ∧ v.toNat % 2 ^ 16 ≤ v.toNat / 2 ^ 16) (fun r => { r with sqrange := v }))

end Sys2Proof.Safety
end

