-- ==== Sys2Proof/Certificates/Slice0/Obligations.lean ====
section
/-! DEFINITION. The statements for the provers, each after the rules of the spec that it comes from. -/

section

open Sys2Proof Sys2Proof.Machine Sys2Proof.Safety

/-! ## Scalar arithmetic (05 R94-R102) -/

/-- 05 R94: each member of the ALU group is encoded in SA with major 0x00 and its fn, and writes s[d]. Division by zero gives
all ones and the dividend; a signed -2^63 by -1 gives -2^63 and 0; no member traps and none sets a flag. -/
def Obligations.AluGroup : Prop :=
  ∀ (o : Sa) (s : State), ready s [o.d, o.a, o.b] = true →
    let a := s.sreg o.a
    let b := s.sreg o.b
    let n := b.toNat % 64
    let quotS : Word := if b = 0 then 0xFFFFFFFFFFFFFFFF else BitVec.ofInt 64 (a.toInt.tdiv b.toInt)
    let quotN : Word := if b = 0 then 0xFFFFFFFFFFFFFFFF else BitVec.ofNat 64 (a.toNat / b.toNat)
    ∀ x ∈ ([(.add, 0, a + b), (.sub, 1, a - b), (.mul, 2, a * b),
        (.mulh, 3, BitVec.ofInt 64 (a.toInt * b.toInt / 2 ^ 64)), (.mulhn, 4, BitVec.ofNat 64 (a.toNat * b.toNat / 2 ^ 64)),
        (.div, 5, quotS), (.divn, 6, quotN), (.rem, 7, if b = 0 then a else a - b * quotS),
        (.remn, 8, if b = 0 then a else a - b * quotN),
        (.and, 9, a &&& b), (.or, 10, a ||| b), (.xor, 11, a ^^^ b), (.andn, 12, a &&& ~~~b),
        (.shl, 13, a <<< n), (.shr, 14, a >>> n), (.sar, 15, a.sshiftRight n),
        (.min, 16, if a.toInt ≤ b.toInt then a else b), (.max, 17, if a.toInt < b.toInt then b else a),
        (.minn, 18, if a.toNat ≤ b.toNat then a else b), (.maxn, 19, if a.toNat < b.toNat then b else a),
        (.slt, 20, if a.toInt < b.toInt then 1 else 0), (.sltn, 21, if a.toNat < b.toNat then 1 else 0),
        (.seq, 22, if a = b then 1 else 0), (.sne, 23, if a = b then 0 else 1)] : List ((Sa → Instr) × Nat × Word)),
      encode (x.1 o) = some ⟨.scal, wordSa 0 x.2.1 o, none⟩ ∧ exec (x.1 o) s = .next (wrote s o.d x.2.2)

/-- 05 R95, R96: the immediate forms write s[d] from s[a] and an immediate of 16 bits, sign- or zero-extended; LDIX writes 32
bits sign-extended, and with h = 1 the high half of s[d] only. -/
def Obligations.ImmediateForms : Prop :=
  ∀ (o : Si) (l : Sl) (s : State),
    (ready s [o.d, o.a] = true →
      let a := s.sreg o.a
      let i : Int := o.imm.toInt
      ∀ x ∈ ([(.addi, 1, a + BitVec.ofInt 64 i), (.andi, 2, a &&& BitVec.ofNat 64 o.imm.toNat),
          (.ori, 3, a ||| BitVec.ofNat 64 o.imm.toNat), (.xori, 4, a ^^^ BitVec.ofNat 64 o.imm.toNat),
          (.slti, 5, if a.toInt < i then 1 else 0), (.sltni, 6, if a.toNat < (BitVec.ofInt 64 i).toNat then 1 else 0)] :
          List ((Si → Instr) × Nat × Word)),
        encode (x.1 o) = some ⟨.scal, wordSi x.2.1 o, none⟩ ∧ exec (x.1 o) s = .next (wrote s o.d x.2.2)) ∧
    (ready s [o.d] = true → encode (.ldi o) = some ⟨.scal, wordSi 7 o, none⟩ ∧
      exec (.ldi o) s = .next (wrote s o.d (BitVec.ofInt 64 o.imm.toInt))) ∧
    (ready s [l.d] = true →
      encode (.ldix l) = some ⟨.scal, wordSl 8 0 l, some l.imm.toNat⟩ ∧
      exec (.ldix l) s = .next (wrote s l.d (BitVec.ofInt 64 l.imm.toInt)) ∧
      encode (.ldixHi l) = some ⟨.scal, wordSl 8 1 l, some l.imm.toNat⟩ ∧
      exec (.ldixHi l) s = .next (wrote s l.d (BitVec.ofNat 64 (l.imm.toNat * 2 ^ 32 + (s.sreg l.d).toNat % 2 ^ 32))))

/-- 05 R98-R102: shifts by a constant, and the bit-field forms, with the field [pos + len - 1 : pos] of 1 to 64 bits; a field
that ends above bit 63 is ILLEGAL, at issue, since its word is no instruction. INSM, the counts, the bit and byte reversals and
FFCS; the forms without b have it 0. The funnel shifts write the low 64 bits of a : b shifted right; PLSET offers the bits of b in
ascending order until the population is lim, and leaves a as it is where it has that many already. -/
def Obligations.ShiftsFieldsAndBits : Prop :=
  (∀ (o : Sf) (s : State),
     let a := s.sreg o.a
     let n := o.pos.val
     let len := o.len6.val + 1
     (ready s [o.d, o.a] = true → o.len6 = 0 →
       ∀ x ∈ ([(.shli, 0, a <<< n), (.shri, 1, a >>> n), (.sari, 2, a.sshiftRight n),
           (.roli, 3, if n = 0 then a else (a <<< n) ||| (a >>> (64 - n)))] : List ((Sf → Instr) × Nat × Word)),
         encode (x.1 o) = some ⟨.scal, wordSf 9 x.2.1 o, none⟩ ∧ exec (x.1 o) s = .next (wrote s o.d x.2.2)) ∧
     (ready s [o.d, o.a] = true → n + len ≤ 64 →
       ∀ x ∈ ([(.ext, 0, (a.extractLsb' n len).signExtend 64), (.extn, 1, (a.extractLsb' n len).setWidth 64),
           (.ins, 2, BitVec.ofNat 64 ((s.sreg o.d).toNat % 2 ^ n + a.toNat % 2 ^ len * 2 ^ n +
             (s.sreg o.d).toNat / 2 ^ (n + len) * 2 ^ (n + len))),
           (.insz, 3, BitVec.ofNat 64 (a.toNat % 2 ^ len * 2 ^ n))] : List ((Sf → Instr) × Nat × Word)),
         encode (x.1 o) = some ⟨.scal, wordSf 10 x.2.1 o, none⟩ ∧ exec (x.1 o) s = .next (wrote s o.d x.2.2)) ∧
     (64 < n + len → ∀ fn < 4, decode .scal (wordSf 10 fn o) 0 = .error (.badOperand .scal 10) ∧
       exec (.illegalEncoding (.badOperand .scal 10)) s = .next (trap s ⟨.illegal, 0, 0⟩))) ∧
  (∀ (o : Sa) (s : State),
     let a := s.sreg o.a
     let b := s.sreg o.b
     (ready s [o.d, o.a, o.b] = true → encode (.insm o) = some ⟨.scal, wordSa 11 0 o, none⟩ ∧
       exec (.insm o) s = .next (wrote s o.d ((s.sreg o.d &&& ~~~b) ||| (a &&& b)))) ∧
     (ready s [o.d, o.a] = true → o.b = 0 → ∃ lead trail rev swap,
       (lead ≤ 64 ∧ a.toNat < 2 ^ (64 - lead) ∧ (lead < 64 → a.getLsbD (63 - lead) = true)) ∧
       (trail ≤ 64 ∧ (∀ i < trail, a.getLsbD i = false) ∧ (trail < 64 → a.getLsbD trail = true)) ∧
       (∀ i < 64, rev.getLsbD (63 - i) = a.getLsbD i) ∧
       (∀ i < 8, swap.extractLsb' (8 * (7 - i)) 8 = a.extractLsb' (8 * i) 8) ∧
       ∀ x ∈ ([(.clz, 1, BitVec.ofNat 64 lead), (.ctz, 2, BitVec.ofNat 64 trail), (.popc, 3, BitVec.ofNat 64 (onesIn a)),
           (.brev, 4, rev), (.ffcs, 5, a ||| (a + 1)), (.bswap, 6, swap)] : List ((Sa → Instr) × Nat × Word)),
         encode (x.1 o) = some ⟨.scal, wordSa 11 x.2.1 o, none⟩ ∧ exec (x.1 o) s = .next (wrote s o.d x.2.2))) ∧
  (∀ (o : Sf2) (c : Sac) (s : State),
     let a := s.sreg o.a
     let b := s.sreg o.b
     (ready s [o.d, o.a, o.b] = true →
       encode (.fshi o) = some ⟨.scal, wordSf2 12 0 o, none⟩ ∧
       exec (.fshi o) s = .next (wrote s o.d (((a ++ b) >>> o.sh.val).extractLsb' 0 64))) ∧
     (ready s [c.d, c.a, c.b, c.c] = true →
       encode (.fsh c) = some ⟨.scal, wordSac 13 c, some (contSac c)⟩ ∧
       exec (.fsh c) s = .next (wrote s c.d
         (((s.sreg c.a ++ s.sreg c.b) >>> ((s.sreg c.c).toNat % 64)).extractLsb' 0 64))) ∧
     (ready s [o.d, o.a, o.b] = true → encode (.plset o) = some ⟨.scal, wordSf2 14 0 o, none⟩ ∧
       ∃ x : Nat → Word, x 0 = a ∧
         (∀ i < 64, x (i + 1) = if b.getLsbD i = true ∧ (x i).getLsbD i = false ∧ onesIn (x i) < o.sh.val
           then x i ||| BitVec.twoPow 64 i else x i) ∧
         (o.sh.val ≤ onesIn a → x 64 = a) ∧ exec (.plset o) s = .next (wrote s o.d (x 64))))

/-- 02 R42, 05 R97: what a scalar register reads after one was written; s0 reads as zero and a write to it is discarded. An
instruction of the ALU, immediate, shift, field and bit groups whose register awaits an earlier access's value holds. -/
def Obligations.RegistersAndInterlock : Prop :=
  (∀ (s : State) (d r : SReg) (v : Word), s.sreg 0 = 0 ∧ (wrote s d v).sreg r = if r = d ∧ d ≠ 0 then v else s.sreg r) ∧
  (∀ (o : Sa) (s : State), ready s [o.d, o.a, o.b] = false →
    ∀ f ∈ [Instr.add, .sub, .mul, .mulh, .mulhn, .div, .divn, .rem, .remn, .and, .or, .xor, .andn, .shl, .shr, .sar, .min, .max,
      .minn, .maxn, .slt, .sltn, .seq, .sne, .insm], exec (f o) s = .next (waiting s)) ∧
  (∀ (o : Sa) (s : State), ready s [o.d, o.a] = false →
    ∀ f ∈ [Instr.clz, .ctz, .popc, .brev, .ffcs, .bswap], exec (f o) s = .next (waiting s)) ∧
  (∀ (o : Si) (s : State), ready s [o.d, o.a] = false →
    ∀ f ∈ [Instr.addi, .andi, .ori, .xori, .slti, .sltni], exec (f o) s = .next (waiting s)) ∧
  (∀ (o : Sf) (s : State), ready s [o.d, o.a] = false →
    ∀ f ∈ [Instr.shli, .shri, .sari, .roli, .ext, .extn, .ins, .insz], exec (f o) s = .next (waiting s)) ∧
  (∀ (o : Sf2) (s : State), ready s [o.d, o.a, o.b] = false → ∀ f ∈ [Instr.fshi, .plset], exec (f o) s = .next (waiting s))

/-! ## Branches and jumps (05 R89, R90, R93, R103, R104) -/

/-- 05 R89, R90, R93, R103: BC compares two registers, BCI a register with five bits sign-extended. Not taken, it checks
nothing; taken, its target enters the queue, or raises BADTARGET at the branch. Either way its delay slots are nullified as
nul2 says, and nothing else changes. -/
def Obligations.ConditionalBranches : Prop :=
  ∀ (o : Sb) (s : State) (x : Instr × List SReg × Word),
    x ∈ [(.bc o, [o.a, o.b.toFin], s.sreg o.b.toFin), (.bci o, [o.a], BitVec.ofInt 64 o.b.toInt)] →
    ready s x.2.1 = true →
    let cond := condTrue o.cond (s.sreg o.a) x.2.2
    let target := s.scc.pcq0.addr + BitVec.ofInt 64 (4 * o.disp.toInt)
    (¬cond → exec x.1 s = .next (branched s none (slotsNull o.nul false) 0 0)) ∧
    (cond → goodTarget s target → exec x.1 s = .next (branched s (some target) (slotsNull o.nul true) 0 0)) ∧
    (cond → ¬goodTarget s target → exec x.1 s = .next (trap s ⟨.badtarget, 0, target⟩))

/-- 05 R89, R93, R104: J and JR are always taken and nullify nothing; JR reads its target before the link register is
written; the link is the lane that follows the second delay slot; a bad target raises BADTARGET at the jump. -/
def Obligations.JumpsAndLinks : Prop :=
  (∀ (o : Sj) (s : State), ready s [o.link] = true →
    let target := s.scc.pcq0.addr + BitVec.ofInt 64 (4 * o.disp.toInt)
    (goodTarget s target → exec (.j o) s = .next (branched s (some target) false o.link (BitVec.ofNat 64 (returnLane s)))) ∧
    (¬goodTarget s target → exec (.j o) s = .next (trap s ⟨.badtarget, 0, target⟩))) ∧
  (∀ (o : Sa) (s : State), ready s [o.d, o.a] = true →
    let target := s.sreg o.a
    (goodTarget s target → exec (.jr o) s = .next (branched s (some target) false o.d (BitVec.ofNat 64 (returnLane s)))) ∧
    (¬goodTarget s target → exec (.jr o) s = .next (trap s ⟨.badtarget, 0, target⟩)))

/-! ## SCC loads and stores (08 R219-R222) -/

/-- 08 R219: a load that is aligned and reaches bytes no poison covers writes s[t] with them, extended as its form says; it
changes nothing else. Accesses are performed at issue (log 5). -/
def Obligations.ScalarLoads : Prop :=
  ∀ (o : Sm) (s : State) (key : Nat → Nat) (x : (Sm → Instr) × Nat × Bool),
    x ∈ [(.ldb, 1, true), (.ldbn, 1, false), (.ldh, 2, true), (.ldhn, 2, false), (.ldw, 4, true), (.ldwn, 4, false), (.ldd, 8, false)] →
    ready s [o.t, o.a] = true → s.core.inOrder = true → (smAddress o x.2.1 s).toNat % x.2.1 = 0 →
    Reach s .read x.2.1 (smAddress o x.2.1 s) key → Sound s x.2.1 key →
    exec (x.1 o) s = .next (wrote s o.t (loaded x.2.2 x.2.1 (memNumber s x.2.1 key)))

/-- 07 R183, 08 R219: LDA loads as LDD does, and is an acquire at its scope: at PACKAGE and FABRIC scope the die's cache loses
the remote lines of the context. -/
def Obligations.AcquireLoad : Prop :=
  ∀ (o : Sm) (s : State) (key : Nat → Nat),
    ready s [o.t, o.a] = true → (smAddress o 8 s).toNat % 8 = 0 → Reach s .read 8 (smAddress o 8 s) key → Sound s 8 key →
    exec (.lda o) s = .next (wrote (acquired s o.scope) o.t (loaded false 8 (memNumber s 8 key)))

/-- 08 R219: a store that is aligned changes exactly the bytes it reaches, to the low bytes of s[t], and no register. Accesses
are performed at issue (log 5). -/
def Obligations.ScalarStores : Prop :=
  ∀ (o : Sm) (s : State) (key : Nat → Nat) (x : (Sm → Instr) × Nat),
    x ∈ [(.stb, 1), (.sth, 2), (.stw, 4), (.std, 8)] → Memory.wf s.mem = true →
    ready s [o.t, o.a] = true → s.core.inOrder = true → (smAddress o x.2 s).toNat % x.2 = 0 →
    Reach s .write x.2 (smAddress o x.2 s) key →
    ∃ t, exec (x.1 o) s = .next t ∧ StoredOnly (passed s) t x.2 key (s.sreg o.t)

/-- 07 R181, R396, 08 R219: STL waits at its issue while an earlier release is unsent. Else it issues: once everything before
it has been performed it is sent, a store of s[t] that counts the epoch; until then it is the pending release. -/
def Obligations.ReleaseStore : Prop :=
  ∀ (o : Sm) (s : State) (key : Nat → Nat),
    Memory.wf s.mem = true → ready s [o.t, o.a] = true → (smAddress o 8 s).toNat % 8 = 0 → Reach s .write 8 (smAddress o 8 s) key →
    (s.ord.release ≠ none → exec (.stl o) s = .next (waiting s)) ∧
    (s.ord.release = none → s.core.inOrder = true → doneBefore s s.scc.idx = true →
      ∃ t, exec (.stl o) s = .next (released t) ∧ StoredOnly (passed s) t 8 key (s.sreg o.t)) ∧
    (s.ord.release = none → s.core.inOrder = false ∨ doneBefore s s.scc.idx = false → exec (.stl o) s = .next ((passed s).modOrd fun r => { r with
      release := some ⟨false, 0, o.scope, smAddress o 8 s, s.sreg o.t, s.scc.idx, if o.sen then some o.slot else none⟩ }))

/-- 08 R210, R211, R219, 11 R319: where an SCC load or store raises its cause, precision I, with nothing performed: ALIGN
first; XMISS where nothing lies; XPERM in an accumulator slot that is not declared; PEERDENY at a disabled member and at one
that serves no context or another one; for a page whatever its translation says. -/
def Obligations.AccessCauses : Prop :=
  ∀ (o : Sm) (s : State) (x : (Sm → Instr) × Nat × Bool),
    x ∈ [(.ldb, 1, false), (.ldbn, 1, false), (.ldh, 2, false), (.ldhn, 2, false), (.ldw, 4, false), (.ldwn, 4, false), (.ldd, 8, false),
      (.lda, 8, false), (.stb, 1, true), (.sth, 2, true), (.stw, 4, true), (.std, 8, true), (.stl, 8, true)] →
    ready s [o.t, o.a] = true → s.ord.release = none →
    let a := smAddress o x.2.1 s
    let causes (e : Fail) : Prop := exec (x.1 o) s = .next (trap s e)
    (a.toNat % x.2.1 ≠ 0 → causes ⟨.align, BitVec.ofNat 64 x.2.1, a⟩) ∧
    (a.toNat % x.2.1 = 0 →
      (2 ^ 57 ≤ a.toNat → a.toNat < 2 ^ 63 → causes ⟨.xmiss, 0, a⟩) ∧
      (∀ off < 2 ^ 19, a.toNat = 0x8010000000000000 + off → s.declares (off / 2 ^ 17) = false →
        causes ⟨.xperm, 0x1000000000000000, a⟩) ∧
      (∀ m < 8, ∀ off < 2 ^ 23, m ≠ s.core.agent.val % 8 → a.toNat = 0x8020000000000000 + m * 2 ^ 32 + off →
        let n := peerAgent s.core.agent m
        (s.disabled n = true → causes ⟨.peerdeny, BitVec.ofNat 64 (2 ^ 61 + m), a⟩) ∧
        (s.disabled n = false → (s.coreAt n).resident = none → causes ⟨.peerdeny, BitVec.ofNat 64 (2 ^ 60 + 2 ^ 14 + m), a⟩) ∧
        (∀ c, s.disabled n = false → (s.coreAt n).resident = some c → c ≠ s.ctx →
          causes ⟨.peerdeny, BitVec.ofNat 64 (2 ^ 60 + c.val * 256 + m), a⟩)) ∧
      (∀ e, a.toNat < 2 ^ 57 → translate s (some s.core) (dieOf s.core.agent) s.ctx s.isPriv (if x.2.2 then .write else .read)
        a.toNat = .error e → causes e))

/-- 07 R174, R175, R191, 12 R334: where accesses wait for turns (log 5), a load or store that is checked goes in flight, and its
slot is busy. Its port then performs it: a load's value is fixed, a store's bytes are in memory. Its acknowledgement writes the
load's register and takes it out of flight. One whose page faults at its port keeps its wait slot busy and leaves a cause of
precision D pending, with no register and no byte of memory changed. -/
def Obligations.AccessesInFlight : Prop :=
  ((∀ (o : Sm) (s : State) (key : Nat → Nat) (x : (Sm → Instr) × Nat × Bool × Bool),
     x ∈ [(.ldb, 1, false, true), (.ldbn, 1, false, false), (.ldh, 2, false, true), (.ldhn, 2, false, false), (.ldw, 4, false, true),
       (.ldwn, 4, false, false), (.ldd, 8, false, false), (.stb, 1, true, false), (.sth, 2, true, false), (.stw, 4, true, false),
       (.std, 8, true, false)] →
     ready s [o.t, o.a] = true → s.core.inOrder = false → (smAddress o x.2.1 s).toNat % x.2.1 = 0 →
     Reach s (if x.2.2.1 then .write else .read) x.2.1 (smAddress o x.2.1 s) key →
     exec (x.1 o) s = .next ((passed s).modOrd fun r => { r with flights := r.flights ++
       [⟨smAddress o x.2.1 s, x.2.1, x.2.2.1, if x.2.2.1 then s.sreg o.t else 0, if x.2.2.1 then 0 else o.t, x.2.2.2,
         if o.sen then some o.slot else none, o.scope, s.scc.idx, none, false, false⟩] })) ∧
   (∀ (n : Fin 512) (i : Nat) (f : Flight) (s : State) (key : Nat → Nat),
     let u := s.focus n
     u.ord.flights[i]? = some f → f.value = none → f.acq = false → f.rel = false → f.size ∈ [1, 2, 4, 8] → f.addr.toNat % f.size = 0 →
     (f.store = false → Reach u .read f.size f.addr key → Sound u f.size key →
       exec (.memoryPortAccess n i) s = .next ((u.modOrd fun r => { r with
         flights := r.flights.set i { f with value := some (loaded f.signed f.size (memNumber u f.size key)) } }).focus s.core.agent)) ∧
     (f.store = true → Memory.wf u.mem = true → Reach u .write f.size f.addr key →
       ∃ t, StoredOnly u t f.size key f.data ∧ exec (.memoryPortAccess n i) s = .next ((t.modOrd fun r => { r with
         flights := r.flights.set i { f with value := some 0 } }).focus s.core.agent))) ∧
   (∀ (n : Fin 512) (i : Nat) (f : Flight) (v : Word) (s : State),
     let u := s.focus n
     u.ord.flights[i]? = some f → f.value = some v →
     exec (.accessAcknowledged n i) s = .next ((withScc (u.modOrd fun r => { r with flights := r.flights.eraseIdx i })
       { u.scc with s := writeReg u (if f.store then 0 else f.dest) v }).focus s.core.agent))) ∧
  (∀ (n : Fin 512) (i : Nat) (f : Flight) (e : Fail) (s : State),
     let u := s.focus n
     u.ord.flights[i]? = some f → f.value = none → f.addr.toNat < 2 ^ 57 → u.core.task ≠ none → u.core.regs.pend.late.length < 16 →
     translate u (some u.core) (dieOf u.core.agent) u.ctx u.isPriv (if f.store then .write else .read) f.addr.toNat = .error e →
     exec (.dCauseArrival n i) s = .next ((u.modRegs fun r => { r with
       ord := { r.ord with flights := r.ord.flights.eraseIdx i, held := r.ord.held ++ [f] }
       pend := { r.pend with late := r.pend.late ++ [⟨e.cause, .scc, true, false, f.idx, 0, e.status, e.address⟩] } }).focus s.core.agent))

/-- 07 R175, R179, 08 R221, R222: WAITW holds while a slot that it names is busy, FENCE while anything of its path A is left
to do; else each issues, with no other effect. -/
def Obligations.WaitsAndFences : Prop :=
  ∀ (w : Sw) (f : Sn) (s : State),
    ((∀ n : Fin 8, w.mask.getLsbD n = true → slotIdle s n) → exec (.waitw w) s = .next (passed s)) ∧
    (∀ n : Fin 8, w.mask.getLsbD n = true → ¬slotIdle s n → exec (.waitw w) s = .next (waiting s)) ∧
    (PathDone s f.pathA → exec (.fence f) s = .next (passed s)) ∧
    (¬PathDone s f.pathA → exec (.fence f) s = .next (waiting s))

/-! ## The tag table, the event queue, results, bound registers -/

/-- 08 R227, R228: TLOOK of a key that a usable slot holds sets its REF and answers the slot; of one that none holds it clears
the REF bits from the hand on up to the first slot without one, answers that slot over 0xFFFF and moves the hand past it.
With no usable slot it answers the hand, and what the hand becomes is free (log 9). TSET and TCLR change one slot or all, and
are ILLEGAL for a slot that is not usable. -/
def Obligations.TagTable : Prop :=
  ∀ (o : Sa) (s : State),
    let c := s.core
    let size := 4096 * 2 ^ (c.ttcfg.toNat % 8)
    let usable := min 1024 ((2 ^ 23 - c.ttcfg.toNat / 2 ^ 12 % 2 ^ 11 * 4096) / size)
    let key : BitVec 45 := BitVec.ofNat 45 ((s.sreg o.a).toNat % 2 ^ 57 / size)
    let holds (e : Nat × (BitVec 45 × Bool)) : Prop := e.1 < usable ∧ e.2.1 = key
    let table (t : List (Nat × (BitVec 45 × Bool))) (h : Nat) : State := s.modCore fun c => { c with ttab := t, hand := h }
    (ready s [o.d, o.a] = true →
      (∀ i, (∃ e ∈ c.ttab, holds e ∧ e.1 = i) → (∀ e ∈ c.ttab, holds e → e.1 = i) →
        exec (.tlook o) s = .next (wrote (table (insertKey i (key, true) c.ttab) c.hand) o.d (BitVec.ofNat 64 i))) ∧
      ((∀ e ∈ c.ttab, ¬holds e) → 0 < usable → ∃ n t',
        (let slot (m : Nat) : Nat := if m = 0 then c.hand else (c.hand + m) % usable
         (∀ m < n, ∃ k, lookupKey (slot m) c.ttab = some (k, true)) ∧ (∀ k, lookupKey (slot n) t' ≠ some (k, true)) ∧
         (∀ m < n, ∀ k, lookupKey (slot m) c.ttab = some (k, true) → lookupKey (slot m) t' = some (k, false)) ∧
         (∀ j, (∀ m < n, j ≠ slot m) → lookupKey j t' = lookupKey j c.ttab) ∧
         exec (.tlook o) s = .next (wrote (table t' ((slot n + 1) % usable)) o.d (BitVec.ofNat 64 (slot n * 2 ^ 16 + 0xFFFF))))) ∧
      ((∀ e ∈ c.ttab, ¬holds e) → usable = 0 → ∃ h, exec (.tlook o) s =
        .next (wrote { table c.ttab h with free := s.free + 1 } o.d (BitVec.ofNat 64 (c.hand * 2 ^ 16 + 0xFFFF))))) ∧
    (ready s [o.a, o.b] = true →
      ((s.sreg o.b).toNat < usable → exec (.tset o) s =
        .next (passed (table (insertKey (s.sreg o.b).toNat (key, true) (c.ttab.filter fun e => e.2.1 != key)) c.hand))) ∧
      (usable ≤ (s.sreg o.b).toNat → exec (.tset o) s = .next (trap s ⟨.illegal, 0, 0⟩))) ∧
    (ready s [o.a] = true →
      (s.sreg o.a = BitVec.allOnes 64 → exec (.tclr o) s = .next (passed (table [] c.hand))) ∧
      ((s.sreg o.a).toNat < usable →
        exec (.tclr o) s = .next (passed (table (c.ttab.filter fun e => e.1 != (s.sreg o.a).toNat) c.hand))) ∧
      (usable ≤ (s.sreg o.a).toNat → s.sreg o.a ≠ BitVec.allOnes 64 → exec (.tclr o) s = .next (trap s ⟨.illegal, 0, 0⟩)))

/-- 02 R40, 05 R106-R108, 08 R229, R231: EVWAIT and EVPOP hold while no record is queued; EVWAIT answers how many are, EVPOP takes
the oldest out, EVPEEK answers it or 0 and leaves it. RDCYC, RDID and RDFEAT read the die's cycle, the package, die and core
number, and the accepted features; GETRES holds until the VE and the ME have completed everything, then reads RES. SETB issues,
and its engine, which is free, writes the bound register with the value captured at dispatch; nothing else changes. Commands are
performed at issue (log 5). -/
def Obligations.EventsResultsAndBounds : Prop :=
  (∀ (o : Sa) (s : State), ready s [o.d] = true →
     (s.cp.events = [] → exec (.evwait o) s = .next (waiting s) ∧ exec (.evpop o) s = .next (waiting s) ∧
       exec (.evpeek o) s = .next (wrote s o.d 0)) ∧
     (∀ e rest, s.cp.events = e :: rest →
       exec (.evwait o) s = .next (wrote s o.d (BitVec.ofNat 64 (rest.length + 1))) ∧
       exec (.evpop o) s = .next (wrote (s.modCp fun c => { c with events := rest }) o.d e) ∧
       exec (.evpeek o) s = .next (wrote s o.d e))) ∧
  (∀ (o : Sa) (s : State), ready s [o.d] = true →
     let d := s.dies[dieOf s.core.agent]
     exec (.rdcyc o) s = .next (wrote s o.d d.cycle) ∧
     exec (.rdid o) s = .next (wrote s o.d (BitVec.ofNat 64 (s.pkg.toNat * 2 ^ 9 + s.core.agent.val / 64 * 2 ^ 6 + s.core.agent.val % 64))) ∧
     exec (.rdfeat o) s = .next (wrote s o.d d.featon) ∧
     (s.ve.queue = [] ∧ s.ve.recording = none ∧ s.ve.loop = none ∧ s.me.queue = [] ∧ s.me.run = none →
       exec (.getres o) s = .next (wrote s o.d s.scc.res)) ∧
     (¬(s.ve.queue = [] ∧ s.ve.recording = none ∧ s.ve.loop = none ∧ s.me.queue = [] ∧ s.me.run = none) →
       exec (.getres o) s = .next (waiting s))) ∧
  (∀ (o : Se) (s : State), ready s [o.a] = true →
     let v := s.sreg o.a
     (o.eng = .ve → VeFree s → exec (.setb o) s = .next ((passed s).modVe fun r => { r with b := r.b.set o.idx v })) ∧
     (o.eng = .me → MeFree s → exec (.setb o) s = .next ((passed s).modMe fun r => { r with b := r.b.set o.idx v })) ∧
     (o.eng = .cp → CpFree s → exec (.setb o) s = .next ((passed s).modCp fun r => { r with b := r.b.set o.idx v })))

/-! ## Control registers (11 R310-R313, 12 R362) -/

/-- 11 R310, R311, 12 R362: MFCR of a register of the unprivileged view. SEED and RNGCNT wait for the VE, FPFLAGS for both
engines. STATUS shows PARKREQ in the privileged view only. A register of the privileged view is read there and raises PRIV in the
other view; a number in no row raises ILLEGAL in both. -/
def Obligations.ControlRegisterReads : Prop :=
  (∀ (o : Si) (s : State) (t : Task), ready s [o.d] = true → s.core.task = some t →
     let n := o.imm.toNat
     let agent := s.core.agent.val
     let d := s.dies[dieOf s.core.agent]
     let status : Nat := (if s.core.parkReq = true ∧ t.privileged = true then 256 else 0) + (if t.privileged then 2 else 0) +
       (if s.core.yreq = none then 0 else 1)
     let veRests : Prop := s.ve.queue = [] ∧ s.ve.recording = none ∧ s.ve.loop = none
     let meRests : Prop := s.me.queue = [] ∧ s.me.run = none
     let reads (v : Word) : Prop := exec (.mfcr o) s = .next (wrote s o.d v)
     (∀ x ∈ ([(0x00, BitVec.ofNat 64 t.id.toNat), (0x01, BitVec.ofNat 64 t.lo), (0x02, BitVec.ofNat 64 t.hi), (0x03, BitVec.ofNat 64 t.stage),
         (0x04, BitVec.ofNat 64 (agent % 64)), (0x05, BitVec.ofNat 64 (agent / 64)), (0x06, BitVec.ofNat 64 s.pkg.toNat),
         (0x07, BitVec.ofNat 64 status), (0x0A, s.fp.fpctl), (0x0C, BitVec.ofNat 64 s.cp.events.length),
         (0x0D, BitVec.ofNat 64 s.scc.resseq.toNat), (0x0E, d.cycle), (0x0F, d.featon), (0x10, s.core.ttcfg)] : List (Nat × Word)),
       n = x.1 → reads x.2) ∧
     (∀ b : Fin 32, n = 0x20 + b.val → reads s.core.bfmt[b]) ∧
     (∀ x ∈ ([(0x08, s.fp.seed), (0x09, s.fp.rngcnt)] : List (Nat × Word)), n = x.1 → (veRests → reads x.2) ∧
       (¬veRests → exec (.mfcr o) s = .next (waiting s))) ∧
     (n = 0x0B → (veRests ∧ meRests → reads s.fp.fpflags) ∧ (¬(veRests ∧ meRests) → exec (.mfcr o) s = .next (waiting s)))) ∧
  (∀ (o : Si) (s : State), ready s [o.d] = true →
     let n := o.imm.toNat
     let d := s.dies[dieOf s.core.agent]
     let reads (v : Word) : Prop := (s.isPriv = true → exec (.mfcr o) s = .next (wrote s o.d v)) ∧
       (s.isPriv = false → exec (.mfcr o) s = .next (trap s ⟨.priv, 0, 0⟩))
     let parked (q : Fin 16) : Prop := ∃ e ∈ s.tasks, e.place = .parked (dieOf s.core.agent) q
     (∀ x ∈ ([(0x40, BitVec.ofNat 64 s.ctx.val), (0x108, 0x1F), (0x109, d.featon), (0x110, d.dlrtimer), (0x111, d.holdlim),
         (0x112, d.bartmo), (0x113, d.agemax), (0x114, d.tclim), (0x115, d.mighold), (0x116, d.chkctl), (0x117, d.poisonlog),
         (0x118, d.wdogctl), (0x11A, d.bridge.dlrmoves), (0x11B, d.framepool), (0x11D, d.taskstore), (0x11E, d.savearea),
         (0x11F, d.savelen), (0x120, d.dielog), (0x121, d.rtagbase), (0x122, d.rtagwin)] : List (Nat × Word)), n = x.1 → reads x.2) ∧
     (∀ i : Fin 8, n = 0x100 + i.val → reads d.afftab[i]) ∧
     (∀ i : Fin 6, n = 0x10A + i.val → reads d.hashmask[i]) ∧
     (n = 0x119 → ∃ v : Word, (∀ q : Fin 16, v.getLsbD q.val = true ↔ parked q) ∧ v.toNat < 2 ^ 16 ∧ reads v) ∧
     (n = 0x11C → reads (d.parkask ||| (if d.parkask.setWidth 32 ∈ d.parkReqs then 0x100000000 else 0))) ∧
     (∀ c : Fin 64, let r := s.ctxAt (dieOf s.core.agent) c
       ∀ x ∈ ([(0, r.ptbase), (1, r.actbase), (2, r.peermask), (3, r.migthresh), (4, r.sqbase), (5, r.sqrange)] : List (Nat × Word)),
         n = 0x4000 + 0x40 * c.val + x.1 → reads x.2) ∧
     (0x10 < n ∧ n < 0x20 ∨ 0x40 < n ∧ n < 0x100 ∨ 0x122 < n ∧ n < 0x4000 ∨ 0x4000 ≤ n ∧ n < 0x5000 ∧ 5 < n % 64 ∨ 0x5000 ≤ n →
       exec (.mfcr o) s = .next (trap s ⟨.illegal, 0, 0⟩)))

/-- 04 R77, R82, 08 R213, R227, 11 R310, 12 R362: MTCR of a register of the unprivileged view: read-only ones ignore it; FPCTL
keeps its DRM for a reserved one; TTCFG clears the tag table; what the engines must have completed first is waited for. -/
def Obligations.WritesUnprivileged : Prop :=
  ∀ (o : Si) (s : State), ready s [o.a] = true →
    let n := o.imm.toNat
    let v := s.sreg o.a
    let veRests : Prop := s.ve.queue = [] ∧ s.ve.recording = none ∧ s.ve.loop = none
    let meRests : Prop := s.me.queue = [] ∧ s.me.run = none
    let local_ : Prop := s.cp.queue = [] ∧ ∀ c ∈ s.cp.copies, c.cmd.isLocal = false
    let after (cond : Prop) (t : State) : Prop := (cond → exec (.mtcr o) s = .next (passed t)) ∧
      (¬cond → exec (.mtcr o) s = .next (waiting s))
    (n ≤ 7 ∨ 0x0C ≤ n ∧ n ≤ 0x0F → exec (.mtcr o) s = .next (passed s)) ∧
    (n = 0x08 → after veRests (s.modFp fun f => { f with seed := v })) ∧
    (n = 0x09 → after veRests (s.modFp fun f => { f with rngcnt := v })) ∧
    (n = 0x0A → after (veRests ∧ meRests) (s.modFp fun f => { f with fpctl := BitVec.ofNat 64 (v.toNat / 8 % 4 * 8 +
      (if v.toNat % 8 < 5 then v.toNat % 8 else f.fpctl.toNat % 8)) })) ∧
    (n = 0x0B → after (veRests ∧ meRests) (s.modFp fun f => { f with fpflags := v &&& 0x7F })) ∧
    (n = 0x10 → exec (.mtcr o) s = .next (passed (s.modCore fun c => { c with
      ttcfg := BitVec.ofNat 64 (v.toNat / 2 ^ 12 % 2 ^ 11 * 2 ^ 12 + (if v.toNat % 8 < 7 then v.toNat % 8 else c.ttcfg.toNat % 8))
      ttab := []
      hand := 0 }))) ∧
    (∀ b : Fin 32, n = 0x20 + b.val →
      after (veRests ∧ meRests ∧ local_) (s.modCore fun c => { c with bfmt := c.bfmt.set b (v &&& 0x7F) })) ∧
    (0x10 < n ∧ n < 0x20 ∨ 0x40 < n ∧ n < 0x100 ∨ 0x122 < n ∧ n < 0x4000 ∨ 0x4000 ≤ n ∧ n < 0x5000 ∧ 5 < n % 64 ∨ 0x5000 ≤ n →
      exec (.mtcr o) s = .next (trap s ⟨.illegal, 0, 0⟩))

/-- 11 R310-R313, 12 R362: MTCR writes a die's or a context's register in the privileged view and raises PRIV in the other; the
host's window writes the same registers of any die, and no task's or core's; the steps that write one register write it so. -/
def Obligations.WritesPrivileged : Prop :=
  (∀ (o : Si) (s : State), ready s [o.a] = true → 0x40 ≤ o.imm.toNat ∧ o.imm.toNat ≤ 0x122 ∨ 0x4000 ≤ o.imm.toNat ∧
      o.imm.toNat < 0x5000 ∧ o.imm.toNat % 64 < 6 → ¬(0x40 < o.imm.toNat ∧ o.imm.toNat < 0x100) →
    (s.isPriv = false → exec (.mtcr o) s = .next (trap s ⟨.priv, 0, 0⟩)) ∧
    (s.isPriv = true → ∃ t, exec (.mtcr o) s = .next (passed t) ∧ (o.imm.toNat = 0x40 → t = s) ∧
      DieRegisterWrite s (dieOf s.core.agent) o.imm.toNat (s.sreg o.a) t)) ∧
  (∀ (die : Fin 8) (n : BitVec 16) (v : Word) (s : State),
    (n.toNat < 0x100 → exec (.controlRegisterWrite die n v) s = .next s) ∧
    ∃ t, exec (.controlRegisterWrite die n v) s = .next t ∧ DieRegisterWrite s die n.toNat v t) ∧
  (∀ (die : Fin 8) (v : Word) (s : State),
    (∃ t, exec (.featacceptWrite die v) s = .next t ∧ DieRegisterWrite s die 0x109 v t) ∧
    (∃ t, exec (.chkctlWrite die v) s = .next t ∧ DieRegisterWrite s die 0x116 v t) ∧
    (∃ t, exec (.poisonlogWrite die v) s = .next t ∧ DieRegisterWrite s die 0x117 v t) ∧
    (∃ t, exec (.wdogctlWrite die v) s = .next t ∧ DieRegisterWrite s die 0x118 v t) ∧
    ∀ i : Fin 6, ∃ t, exec (.hashmaskWrite die i v) s = .next t ∧ DieRegisterWrite s die (0x10A + i.val) v t)

/-! ## Stage barriers (08 R253-R256) -/

/-- 08 R253, R254, R256: BARINIT writes a fresh object and BAREXP adds to what is pending; each is ILLEGAL for other values.
BARTEST answers whether the phase differs from s[b][0], BARWAIT holds until it does; each then imports the arrivers. An object
that has overrun raises STAGEOVERRUN. The object is the 16 bytes at its offset, and a write changes no other byte. -/
def Obligations.BarrierObjects : Prop :=
  ∀ (o : Sa) (s : State) (n : Fin 512) (off : Nat),
    BarrierAt s (s.sreg o.a) n off → (∀ p, s.ord.release = some p → p.arrive = false) →
    let b := barRead s n off
    let v := s.sreg o.b
    let overruns (i : Instr) : Prop := b.overrun = true → exec i s = .next (trap s ⟨.stageoverrun, 0, s.sreg o.a⟩)
    (ready s [o.a, o.b] = true →
      (v.toNat < 2 ^ 32 → v.toNat % 2 ^ 16 ≠ 0 → exec (.barinit o) s =
        .next (passed (barWrite s n off ⟨v.toNat % 2 ^ 16, 0, false, false, v.toNat / 2 ^ 16, 0⟩))) ∧
      (2 ^ 32 ≤ v.toNat ∨ v.toNat % 2 ^ 16 = 0 → exec (.barinit o) s = .next (trap s ⟨.illegal, 0, 0⟩)) ∧
      (v.toNat < 2 ^ 40 → exec (.barexp o) s = .next (passed (barWrite s n off { b with pending := b.pending + v.toNat }))) ∧
      (2 ^ 40 ≤ v.toNat → exec (.barexp o) s = .next (trap s ⟨.illegal, 0, 0⟩)) ∧
      (∀ l, s.scc.barrier = some (n, off, some l) → exec (.barwait o) s = .next (passed (importAll s l))) ∧
      ((∀ l, s.scc.barrier ≠ some (n, off, some l)) →
        overruns (.barwait o) ∧
        (b.overrun = false → b.phase ≠ v.getLsbD 0 → exec (.barwait o) s = .next (passed (phaseImported s n b))) ∧
        (b.overrun = false → b.phase = v.getLsbD 0 → exec (.barwait o) s =
          .next (withScc (waiting s) { (waiting s).scc with barrier := some (n, off, none) })))) ∧
    (ready s [o.d, o.a, o.b] = true →
      overruns (.bartest o) ∧
      (b.overrun = false → b.phase ≠ v.getLsbD 0 → exec (.bartest o) s = .next (wrote (phaseImported s n b) o.d 1)) ∧
      (b.overrun = false → b.phase = v.getLsbD 0 → exec (.bartest o) s = .next (wrote s o.d 0))) ∧
    (∀ c : BarObj, Memory.wf s.mem = true → c.expect < 2 ^ 16 → c.arrived < 2 ^ 16 → c.record < 2 ^ 16 → -(2 ^ 63) ≤ c.pending →
      c.pending < 2 ^ 63 → barRead (barWrite s n off c) n off = c ∧
        ∀ k, (∀ i < 16, k ≠ spadAt (s.coreAt n) (off + i)) → memGet (barWrite s n off c).mem k = memGet s.mem k)

/-- 08 R253-R256, 07 R206, R396: BARARR, with everything before it performed, adds one to ARRIVED, records its arriver, counts
the epoch and answers the phase to which the arrival was given; the arrival that completes the phase flips it. One that would
exceed EXPECT raises STAGEOVERRUN. While an earlier release is unsent BARARR holds; with something before it to do it is the
pending release, and RELEASE_SEND arrives for it later. A BARWAIT that has held for more than BARTMO cycles raises STAGETIMEOUT
with EXPECT, ARRIVED and what is pending, clamped to 32 bits, in STATUS and the barrier's window address in ADDRESS; one that has
not, and any with BARTMO 0, goes on. -/
def Obligations.BarrierArrivals : Prop :=
  (let arrived (x : State) (n : Fin 512) (off : Nat) : State := let b := barRead x n off
     bumpEpoch (completeCheck (barWrite (recordArrival x n b x.core.agent x.core.epoch) n off { b with arrived := b.arrived + 1 }) n off)
   (∀ (o : Sa) (s : State) (n : Fin 512) (off : Nat), BarrierAt s (s.sreg o.a) n off → ready s [o.d, o.a] = true →
     let b := barRead s n off
     (s.ord.release ≠ none → exec (.bararr o) s = .next (waiting s)) ∧
     (s.ord.release = none → doneBefore s s.scc.idx = true → s.core.inOrder = true →
       (b.arrived + 1 ≤ b.expect → exec (.bararr o) s = .next (wrote (arrived s n off) o.d (if b.phase then 1 else 0))) ∧
       (b.expect < b.arrived + 1 → exec (.bararr o) s = .next (trap s ⟨.stageoverrun, 1, s.sreg o.a⟩))) ∧
     (s.ord.release = none → doneBefore s s.scc.idx = false ∨ s.core.inOrder = false → exec (.bararr o) s =
       .next ((passed s).modOrd fun r => { r with release := some ⟨true, o.d, .clearing, s.sreg o.a, 0, s.scc.idx, none⟩ }))) ∧
   (∀ (core : Fin 512) (p : PendingRel) (s : State) (n : Fin 512) (off : Nat),
     let u := s.focus core
     let x := u.modOrd fun r => { r with release := none }
     u.ord.release = some p → p.arrive = true → doneBefore u p.idx = true → BarrierAt u p.addr n off →
     (barRead u n off).arrived + 1 ≤ (barRead u n off).expect → exec (.releaseSend core) s =
       .next ((withScc (arrived x n off) { (arrived x n off).scc with
         s := writeReg (arrived x n off) p.reg (if (barRead u n off).phase then 1 else 0) }).focus s.core.agent)) ∧
   ∀ (x : State) (n : Fin 512) (off : Nat), let c := barRead x n off
     (c.arrived = c.expect ∧ c.pending = 0 ∧ c.overrun = false → (completeCheck x n off).mem =
       (barWrite x n off { c with phase := !c.phase, arrived := 0 }).mem) ∧
     (¬(c.arrived = c.expect ∧ c.pending = 0 ∧ c.overrun = false) → completeCheck x n off = x)) ∧
  (∀ (core : Fin 512) (s : State) (n : Fin 512) (off : Nat) (since : Nat),
     let u := s.focus core
     let b := barRead u n off
     let pending : Int := max (-(2 ^ 31)) (min (2 ^ 31 - 1) b.pending)
     let late : Prop := u.die.bartmo.toNat ≠ 0 ∧ u.die.bartmo.toNat < u.die.cycle.toNat - since
     u.scc.barrier = some (n, off, none) → u.scc.hold = some since →
     (late → exec (.barwaitTimeout core) s = .next ((trap u ⟨.stagetimeout,
       BitVec.ofNat 64 (b.expect * 2 ^ 48 + b.arrived * 2 ^ 32 + (pending % 2 ^ 32).toNat),
       if n = u.core.agent then BitVec.ofNat 64 (0x8000000000000000 + off)
         else BitVec.ofNat 64 (0x8020000000000000 + n.val % 8 * 2 ^ 32 + off)⟩).focus s.core.agent)) ∧
     (¬late → exec (.barwaitTimeout core) s = .next (u.focus s.core.agent)))

/-! ## Tasks (09 R275-R283) -/

/-- 09 R275, R276: SPAWN reads its request from a record image at an aligned address, SPAWNX from registers; both make the
child that `Spawns` describes. A forwarded spawn waits for the number that the other die gives. -/
def Obligations.Spawning : Prop :=
  ∀ (o : Sa) (x : Sac) (s : State) (t : Task), s.core.task = some t →
    (ready s [o.d, o.a] = true → s.scc.sent = false →
      ((s.sreg o.a).toNat % 64 ≠ 0 → exec (.spawn o) s = .next (trap s ⟨.align, 64, s.sreg o.a⟩)) ∧
      (∀ key, (s.sreg o.a).toNat % 64 = 0 → Reach s .read 64 (s.sreg o.a) key → Sound s 64 key →
        ¬(∃ off < 2 ^ 19, (s.sreg o.a).toNat = 0x8010000000000000 + off) →
        let bs := (List.range 64).map fun i => memGet s.mem (key i)
        let w := leAt bs 0x0A 2
        let flags : Bool × Bool × Bool := ((s.launchOf t).map fun l => (l.stealx, l.stealp, l.fwd)).getD (false, false, false)
        Spawns (.spawn o) o.d
          { stage := leAt bs 8 1, prio := leAt bs 9 1 % 4, stealx := w.testBit 0 && flags.1, stealp := w.testBit 1 && flags.2.1
            fwd := w.testBit 2 && flags.2.2, lo := leAt bs 0x10 8, hi := leAt bs 0x18 8, anchor := BitVec.ofNat 64 (leAt bs 0x20 8)
            arg := BitVec.ofNat 64 (leAt bs 0x28 8)
            clean := leAt bs 0 8 == t.code.toNat && decide (leAt bs 9 1 < 4) && decide (w < 8) && leAt bs 0x0E 2 == 0 && leAt bs 0x38 8 == 0 }
          t s)) ∧
    (ready s [x.d, x.a, x.b, x.c, x.e] = true → s.scc.sent = false →
      let f := x.fl6.val
      Spawns (.spawnx x) x.d
        { stage := f % 4, prio := f / 4 % 4, stealx := t.stealx, stealp := t.stealp
          fwd := f.testBit 4 && ((s.launchOf t).map (·.fwd)).getD false, lo := (s.sreg x.a).toNat, hi := (s.sreg x.b).toNat
          anchor := s.sreg x.c, arg := s.sreg x.e, clean := !f.testBit 5 } t s) ∧
    (ready s [o.d, o.a] = true → s.scc.sent = true →
      (s.scc.answer = none → exec (.spawn o) s = .next (waiting s)) ∧
      (∀ id, s.scc.answer = some id →
        exec (.spawn o) s = .next (wrote (withScc s { s.scc with sent := false, answer := none }) o.d id)))

/-- 09 R277, R280-R282: JOINWAIT holds until every child has ended; then it answers the counts and the first failed record,
starts the join anew and imports the enders. TBOUND moves the cursor up to a claim and answers the bound. HINTNEXT marks its
launch. WAITPRED holds until the predecessor has completed, then raises the floor above its serial. -/
def Obligations.JoinsAndLaunches : Prop :=
  ∀ (o : Sa) (s : State) (t : Task), s.core.task = some t →
    let j := s.joinAt t.childJoin
    let claim := (s.sreg o.a).toNat
    let live : Prop := ∃ l, s.ve.loop = some l ∧ l.live = true
    (ready s [o.d, o.a] = true →
      (j.ended ≠ j.expected → exec (.joinwait o) s = .next (waiting s)) ∧
      (j.ended = j.expected →
        let x := importAll (s.modJoin t.childJoin fun _ => ⟨0, 0, 0, 0, []⟩) (j.enders.take 16)
        let y := x.modOrd fun r => { r with lost := r.lost || decide (16 < j.enders.length) }
        exec (.joinwait o) s = .next (acquired (wrote (withScc y { y.scc with
          s := writeReg y o.d (BitVec.ofNat 64 (j.failed % 2 ^ 32 * 2 ^ 32 + j.ended % 2 ^ 32)) }) o.a
            (if j.failed = 0 then 0 else j.first)) .package)) ∧
      (claim ≠ 0 → live → exec (.tbound o) s = .next (trap s ⟨.illegal, 0, 0⟩)) ∧
      (claim = 0 ∨ ¬live → exec (.tbound o) s = .next (wrote (s.modCore fun c => { c with
        task := some { t with cur := if claim ≤ t.hi then max t.cur claim else t.cur } }) o.d (BitVec.ofNat 64 t.hi)))) ∧
    (t.launch = none → exec (.hintnext o) s = .next (passed s) ∧ exec (.waitpred o) s = .next (passed s)) ∧
    (∀ n l, t.launch = some n → s.launches[n]? = some l →
      exec (.hintnext o) s = .next (passed { s with launches := s.launches.set n { l with hinted := true } }) ∧
      (l.hasPred = false → exec (.waitpred o) s = .next (passed s)) ∧
      (l.hasPred = true → (∃ p q, l.pred = some p ∧ s.launches[p]? = some q ∧ q.complete = false) →
        exec (.waitpred o) s = .next (waiting s)) ∧
      (l.hasPred = true → (∀ p q, l.pred = some p → s.launches[p]? = some q → q.complete = true) → exec (.waitpred o) s =
        .next (acquired (passed (s.modOrd fun r => { r with floor := l.predSerial + 1 })) .package)))

/-- 09 R278, R279, 12 R366: YIELD goes on while YREQ is clear, and is ILLEGAL with a selection above 3. With YREQ set and all
done it saves what it selects and leaves the core without a task, where the save area has room, and goes on where it has none.
DONE, once everything is performed, ends the task, which its join counts; HALT, in the privileged view alone, does the same and
halts the core. -/
def Obligations.EndsOfTasks : Prop :=
  ∀ (o : Sa) (s : State) (t : Task), s.core.task = some t →
    let sel := (s.sreg o.a).toNat
    let slots : Bool := (s.sreg o.a).getLsbD 1 && decide (t.obj.slots ≠ 0)
    let ended (u : State) : Prop := TaskGone s u t ∧ u.core.epoch = s.core.epoch + 1 ∧
      u.joins = s.joins.modify t.join fun j => { j with
        ended := j.ended + 1, enders := j.enders ++ [⟨BitVec.ofNat 9 s.core.agent.val, s.core.epoch⟩] }
    (ready s [o.a] = true →
      (4 ≤ sel → exec (.yield o) s = .next (trap s ⟨.illegal, 0, 0⟩)) ∧
      (sel < 4 → s.core.yreq = none → exec (.yield o) s = .next (passed s)) ∧
      (sel < 4 → s.core.yreq ≠ none → yieldReady s = false → exec (.yield o) s = .next (waiting s)) ∧
      (sel < 4 → s.core.yreq ≠ none → yieldReady s = true →
        let room := roomFor s (dieOf s.core.agent) (imageSize t.obj ((s.sreg o.a).getLsbD 0) slots)
        (room = none → exec (.yield o) s = .next (passed s)) ∧
        (∀ base, room = some base → ∃ u e i, exec (.yield o) s = .next u ∧ u.tasks = s.tasks ++ [e] ∧ e.task = t ∧
          e.image = some i ∧ i.base = base ∧ i.vec = (s.sreg o.a).getLsbD 0 ∧ i.acc = slots ∧
          i.regs = keptRegs (passed s).core.regs i.vec ∧ u.core.task = none ∧ u.core.regs = TaskRegs.entry ∧ u.core.yreq = none ∧
          (s.core.parkReq = true → e.place = .parked (dieOf s.core.agent) 14) ∧
          (s.core.parkReq = false → e.place = .ready s.core.agent s.die.cycle.toNat 0 t.prio)))) ∧
    (allDone s = false → exec (.done o) s = .next (waiting s)) ∧
    (allDone s = true → ∃ u, exec (.done o) s = .next u ∧ ended u) ∧
    (t.privileged = false → exec (.halt o) s = .next (trap s ⟨.priv, 0, 0⟩)) ∧
    (t.privileged = true →
      (allDone s = false → exec (.halt o) s = .next (waiting s)) ∧
      (allDone s = true → ∃ u, exec (.halt o) s = .next u ∧ ended u ∧ u.core.halted = true))

/-- 09 R266, R283: BUFTAKE of 0 takes a free buffer of the task's stage and answers its handle, or holds; of the inbound handle
it answers the buffer's address once its data have landed. BUFFREE returns a held buffer, its generation moved on. BUFPASS makes
of it the input of a task of the next stage, or holds while that stage's queue is at its bound. A handle that the task does not
hold is ILLEGAL. -/
def Obligations.StageBuffers : Prop :=
  ∀ (o : Sa) (s : State) (t : Task), s.core.task = some t →
    let w := s.sreg o.a
    let mine (b : PoolBuf) : Prop := some b.launch = t.launch ∧ b.stage = t.stage ∧ b.free = true
    let named (b : PoolBuf) : Prop := b.off = w.toNat % 2 ^ 23 ∧ b.gen = BitVec.ofNat 32 (w.toNat / 2 ^ 32)
    let held : Prop := (∃ h ∈ t.handles, BitVec.ofNat 64 (h.gen.toNat * 2 ^ 32 + h.off) = w) ∧ ∃ b ∈ s.core.pool, named b
    let others : List Handle := t.handles.filter fun h => BitVec.ofNat 64 (h.gen.toNat * 2 ^ 32 + h.off) != w
    (ready s [o.d, o.a] = true →
      (16 ≤ t.handles.length → exec (.buftake o) s = .next (trap s ⟨.illegal, 0, 0⟩)) ∧
      (t.handles.length < 16 → w = 0 → (∀ b ∈ s.core.pool, ¬mine b) → exec (.buftake o) s = .next (waiting s)) ∧
      (∀ i (b : PoolBuf), t.handles.length < 16 → w = 0 → s.core.pool[i]? = some b → mine b →
        (∀ j c, s.core.pool[j]? = some c → mine c → i ≤ j) →
        (∀ j c, s.core.pool[j]? = some c → c.off = b.off → c.gen = b.gen → j = i) →
        exec (.buftake o) s = .next (wrote (s.modCore fun c => { c with
          pool := c.pool.set i { b with free := false }
          task := some { t with handles := t.handles ++ [⟨b.gen, b.off⟩] } }) o.d (BitVec.ofNat 64 (b.gen.toNat * 2 ^ 32 + b.off)))) ∧
      (t.handles.length < 16 → w ≠ 0 → w ≠ t.inbound ∨ t.taken = true → exec (.buftake o) s = .next (trap s ⟨.illegal, 0, 0⟩)) ∧
      (∀ b ∈ s.core.pool, t.handles.length < 16 → w ≠ 0 → w = t.inbound → t.taken = false → named b →
        (∀ c ∈ s.core.pool, named c → c = b) →
        (b.landed = false → exec (.buftake o) s = .next (waiting s)) ∧
        (b.landed = true → exec (.buftake o) s = .next (wrote (importAll (s.modCore fun c => { c with
          task := some { t with taken := true, handles := t.handles ++ [⟨b.gen, b.off⟩] } }) b.passer.toList) o.d
            (BitVec.ofNat 64 (0x8000000000000000 + b.off)))))) ∧
    (ready s [o.a] = true →
      (¬held → exec (.buffree o) s = .next (trap s ⟨.illegal, 0, 0⟩) ∧ exec (.bufpass o) s = .next (trap s ⟨.illegal, 0, 0⟩)) ∧
      (held → exec (.buffree o) s = .next (passed (s.modCore fun c => { c with
        task := some { t with handles := others }
        pool := c.pool.map fun b => if b.off = w.toNat % 2 ^ 23 ∧ b.gen = BitVec.ofNat 32 (w.toNat / 2 ^ 32) then
          { b with free := true, landed := false, passer := none, gen := b.gen + 1 } else b }))) ∧
      (∀ x y, held → t.obj.stages[t.stage]? = some x → t.obj.stages[t.stage + 1]? = some y →
        (y.role = .store ∧ y.bufBytes ≠ x.bufBytes → exec (.bufpass o) s = .next (trap s ⟨.illegal, 0, 0⟩)) ∧
        (y.role ≠ .store ∨ y.bufBytes = x.bufBytes →
          (x.bound ≤ queuedHandles s s.core.agent t.launch (t.stage + 1) → exec (.bufpass o) s = .next (waiting s)) ∧
          (queuedHandles s s.core.agent t.launch (t.stage + 1) < x.bound → allDone s = true →
            storeFreeKept s (dieOf s.core.agent) = true → ∃ u e place, exec (.bufpass o) s = .next (passed u) ∧
              u.tasks = s.tasks ++ [⟨e, place, none⟩] ∧ u.mem = s.mem ∧ u.core.epoch = s.core.epoch + 1 ∧
              u.core.task = some { t with handles := others } ∧
              (e.stage, e.prio, e.lo, e.hi, e.inbound, e.code, e.ctx, e.launch, e.join) =
                (t.stage + 1, t.prio, t.lo, t.hi, BitVec.ofNat 64 (w.toNat / 2 ^ 32 * 2 ^ 32 + w.toNat % 2 ^ 23), t.code, t.ctx, t.launch, t.join) ∧
              ∀ b ∈ u.core.pool, named b → b.free = false ∧ b.landed = true ∧
                b.passer = some ⟨BitVec.ofNat 9 s.core.agent.val, s.core.epoch⟩))))

/-! ## Sequences and watch entries (10 R290-R304) -/

/-- 10 R293, R297, R298, R300, R303: SQAPPEND of tokens that fit writes them after LEN and then the descriptor, and answers the
new LEN; SQCONFIRM of drafts that no watch entry looks at, with budget left, moves CLEN on and answers it; each is a release.
SQSTATE answers STATE, VERSION and CLEN. What is malformed is ILLEGAL and a foreign id XPERM, of the sequence unit. -/
def Obligations.Sequences : Prop :=
  ∀ (o : Sa) (s : State), s.hasFeature 3 = true → ready s [o.d, o.a, o.b] = true →
    let w := (s.sreg o.a).toNat
    let q := w % 2 ^ 14
    let n := w / 2 ^ 16 % 2 ^ 16
    let own := (s.ctxAt (dieOf s.core.agent) s.ctx).sqrange.toNat
    let base := (s.ctxAt (dieOf s.core.agent) s.ctx).sqbase
    let inside : Prop := own % 2 ^ 14 ≤ q ∧ q < own / 2 ^ 16 % 2 ^ 15
    let raises (i : Instr) (c : Cause) (status : Word) : Prop :=
      exec i s = .next (takeCause s ⟨c, .seq, false, false, s.scc.idx, 0, status, 0⟩)
    let answers (i : Instr) (writes : List UnitWrite) (v : Nat) : Prop := unitCheck s writes = none →
      exec i s = .next (wrote (released (unitPutAll s writes)) o.d (BitVec.ofNat 64 v))
    (allDone s = false → exec (.sqappend o) s = .next (waiting s) ∧ exec (.sqconfirm o) s = .next (waiting s)) ∧
    (allDone s = true →
      (2 ^ 32 ≤ w ∨ w / 2 ^ 14 % 4 ≠ 0 → raises (.sqappend o) .illegal 0 ∧ raises (.sqconfirm o) .illegal 0) ∧
      (1024 < n → raises (.sqappend o) .illegal 0) ∧
      (w < 2 ^ 32 → w / 2 ^ 14 % 4 = 0 →
        (¬inside → n ≤ 1024 → raises (.sqappend o) .xperm (2 ^ 60)) ∧ (¬inside → raises (.sqconfirm o) .xperm (2 ^ 60)) ∧
        (∀ d, inside → readDesc s q = .ok d → d.state ≠ 1 →
          (n ≤ 1024 → answers (.sqappend o) [] (2 ^ 56 + d.len)) ∧ answers (.sqconfirm o) [] (6 * 2 ^ 60 + d.clen)) ∧
        (∀ d toks, inside → n ≤ 1024 → readDesc s q = .ok d → d.state = 1 → (n = 0 → toks = [(s.sreg o.b).toNat % 2 ^ 20]) →
          (n ≠ 0 → (s.sreg o.b).toNat % 4 = 0 ∧ readTokens s (s.sreg o.b) n = .ok toks) →
          (d.cap < d.len + toks.length → answers (.sqappend o) [] (2 * 2 ^ 56 + d.len)) ∧
          (d.len + toks.length ≤ d.cap → answers (.sqappend o)
            [⟨BitVec.ofNat 64 (d.tokbuf + 4 * d.len), toks.flatMap (leBytes 4)⟩,
             ⟨base + BitVec.ofNat 64 (64 * q), descBytes { d with len := d.len + toks.length }⟩] (d.len + toks.length))) ∧
        (∀ d toks, inside → readDesc s q = .ok d → d.state = 1 → (∀ e ∈ s.die.watch, watches s.ctx q e.2 = false) →
          let drafts := if n = 0 then d.len - d.clen else min (d.len - d.clen) n
          let k := if d.budget = 0xFFFFFFFF then drafts else min drafts d.budget
          readTokens s (BitVec.ofNat 64 (d.tokbuf + 4 * d.clen)) k = .ok toks → d.budget = 0xFFFFFFFF ∨ k < d.budget ∨ k = 0 →
          answers (.sqconfirm o) [⟨base + BitVec.ofNat 64 (64 * q), descBytes { d with
            clen := d.clen + k
            budget := if d.budget = 0xFFFFFFFF then d.budget else d.budget - k
            version := if k = 0 then d.version else (d.version + 1) % 2 ^ 30 }⟩] (d.clen + k)))) ∧
    ((∀ p, s.ord.release = some p → p.arrive = false) →
      (2 ^ 14 ≤ w → raises (.sqstate o) .illegal 0) ∧ (w < 2 ^ 14 → ¬inside → raises (.sqstate o) .xperm (2 ^ 60)) ∧
      ∀ d, w < 2 ^ 14 → inside → readDesc s q = .ok d →
        exec (.sqstate o) s = .next (wrote s o.d (BitVec.ofNat 64 (d.state * 2 ^ 62 + d.version * 2 ^ 32 + d.clen))))

/-- 10 R296, R304: WSET installs a well-formed image of a sequence of the context at the index it names, or at the lowest free
one, and answers the index, all ones with none free; WCLR frees one entry or all of a sequence; WGET answers V and the counter
and, where rb is not s0, stores the image with its counter. An index held by another context is XPERM. -/
def Obligations.WatchEntries : Prop :=
  ∀ (o : Sa) (s : State), s.hasFeature 3 = true → ready s [o.d, o.a, o.b] = true → s.ord.release = none →
    let a := s.sreg o.a
    let b := s.sreg o.b
    let table := s.die.watch
    let own := (s.ctxAt (dieOf s.core.agent) s.ctx).sqrange.toNat
    let inside (q : Nat) : Prop := own % 2 ^ 14 ≤ q ∧ q < own / 2 ^ 16 % 2 ^ 15
    let foreign (i : Nat) : Prop := ∃ e, lookupKey i table = some e ∧ e.ctx ≠ s.ctx
    let raises (i : Instr) (c : Cause) (status : Word) : Prop :=
      exec i s = .next (takeCause s ⟨c, .seq, false, false, s.scc.idx, 0, status, 0⟩)
    let set (t : List (Nat × WatchEnt)) : State := released (s.modDie (dieOf s.core.agent) fun x => { x with watch := t })
    (allDone s = true → ∀ bs, b.toNat % 64 = 0 → unitBytes s b 64 = .ok bs →
      let q := leAt bs 0 2 % 2 ^ 14
      let entry : WatchEnt := ⟨s.ctx, s.core.task.bind (·.launch), bs, BitVec.ofNat 24 (leAt bs 8 4 % 2 ^ 24)⟩
      (watchOk bs = false → a = BitVec.allOnes 64 ∨ a.toNat < 8192 → raises (.wset o) .illegal 0) ∧
      (watchOk bs = true → ¬inside q → a = BitVec.allOnes 64 ∨ a.toNat < 8192 → raises (.wset o) .xperm (2 ^ 60)) ∧
      (watchOk bs = true → inside q →
        (∀ i < 8192, a = BitVec.allOnes 64 → lookupKey i table = none → (∀ j < i, lookupKey j table ≠ none) →
          exec (.wset o) s = .next (wrote (set (insertKey i entry table)) o.d (BitVec.ofNat 64 i))) ∧
        (a = BitVec.allOnes 64 → (∀ i < 8192, lookupKey i table ≠ none) →
          exec (.wset o) s = .next (wrote (released s) o.d (BitVec.allOnes 64))) ∧
        (a.toNat < 8192 → foreign a.toNat → raises (.wset o) .xperm (2 ^ 60)) ∧
        (a.toNat < 8192 → ¬foreign a.toNat → exec (.wset o) s = .next (wrote (set (insertKey a.toNat entry table)) o.d a)))) ∧
    (allDone s = true →
      (a.toNat < 2 ^ 63 → 8192 ≤ a.toNat → raises (.wclr o) .illegal 0) ∧
      (a.toNat < 8192 → foreign a.toNat → raises (.wclr o) .xperm (2 ^ 60)) ∧
      (a.toNat < 8192 → ¬foreign a.toNat →
        exec (.wclr o) s = .next (passed (set (table.filter fun e => e.1 != a.toNat)))) ∧
      (∀ q < 2 ^ 14, a.toNat = 2 ^ 63 + q → ¬inside q → raises (.wclr o) .xperm (2 ^ 60)) ∧
      (∀ q < 2 ^ 14, a.toNat = 2 ^ 63 + q → inside q → exec (.wclr o) s = .next (passed (set
        (table.filter fun e => !(e.2.ctx == s.ctx && leAt e.2.image 0 2 % 2 ^ 14 == q)))))) ∧
    (8192 ≤ a.toNat → raises (.wget o) .illegal 0) ∧
    (a.toNat < 8192 → foreign a.toNat → raises (.wget o) .xperm (2 ^ 60)) ∧
    (a.toNat < 8192 → ¬foreign a.toNat →
      let v : Word := ((lookupKey a.toNat table).map fun e => BitVec.ofNat 64 (2 ^ 63 + e.counter.toNat)).getD 0
      let image : List Byte := ((lookupKey a.toNat table).map fun e => e.image.take 8 ++ leBytes 4 e.counter.toNat ++
        e.image.drop 12).getD (List.replicate 64 0)
      (o.b = 0 → exec (.wget o) s = .next (wrote s o.d v)) ∧
      (o.b ≠ 0 → b.toNat % 64 = 0 → unitCheck s [⟨b, image⟩] = none →
        exec (.wget o) s = .next (wrote (unitPutAll s [⟨b, image⟩]) o.d v)))

/-! ## Blaze registers (07 R194, 08 R245) -/

/-- 07 R194, 08 R245: with BLAZE accepted, ZTEST answers 0 for an empty z-register, else 1, 2 or 3 for its blaze PENDING, LANDED
or FAILED; ZWAIT holds while it is PENDING, and on LANDED is an acquire at FABRIC scope; ZDROP empties the register and tells
the home. All three hold while a CPB that the port has not reached will write it. -/
def Obligations.BlazeRegisters : Prop :=
  ∀ (o : Sa) (s : State), s.hasFeature 2 = true →
    let n : Fin 16 := Fin.ofNat 16 o.a.val
    let written : Prop := n ≠ 0 ∧ ∃ c ∈ s.cp.queue, ∃ x, c.instr = .cpb x ∧ x.za = n
    let carried : Prop := n ≠ 0 ∧ ∃ c ∈ s.cp.queue, ∃ x, c.instr = .cph x ∧ (x.za = n ∨ x.zb = n)
    let empty : Prop := n = 0 ∨ s.ord.z[n] = none
    let is (st : BlazeState) : Prop := n ≠ 0 ∧ ∃ z, s.ord.z[n] = some z ∧ blazeState s z = st
    (written → exec (.zwait o) s = .next (waiting s) ∧ exec (.zdrop o) s = .next (waiting s) ∧ exec (.ztest o) s = .next (waiting s)) ∧
    (¬written →
      (is .pending → exec (.zwait o) s = .next (waiting s)) ∧
      (empty ∨ is .failed → exec (.zwait o) s = .next (passed s)) ∧
      (is .landed → exec (.zwait o) s = .next (acquired (passed s) .fabric)) ∧
      (carried → exec (.zdrop o) s = .next (waiting s)) ∧
      (¬carried → empty → exec (.zdrop o) s = .next (passed s)) ∧
      (∀ z, ¬carried → n ≠ 0 → s.ord.z[n] = some z → ∃ dies, exec (.zdrop o) s =
          .next (passed ({ s with dies := dies }.modOrd fun r => { r with z := r.z.set n none })) ∧
        ∀ (d : Fin 8) b, ownerDie s z.home = some d → lookupKey z.entry.val s.dies[d].blazes = some b → b.gen = z.gen →
          (b.state = .pending → lookupKey z.entry.val dies[d].blazes = some { b with dropped := true }) ∧
          (b.state = .landed → b.watchers = 0 → lookupKey z.entry.val dies[d].blazes = none)) ∧
      (ready s [o.d] = true →
        (empty → exec (.ztest o) s = .next (wrote s o.d 0)) ∧ (is .pending → exec (.ztest o) s = .next (wrote s o.d 1)) ∧
        (is .landed → exec (.ztest o) s = .next (wrote s o.d 2)) ∧ (is .failed → exec (.ztest o) s = .next (wrote s o.d 3))))

/-! ## Traps and causes (12 R333-R346, R363) -/

/-- 12 R334, R363: TRAPI issues, then SWTRAP is taken with the PC queue after it; BRK is taken with the PC queue at it; each has
its immediate in STATUS. 02 R50, R52, R55, 12 R337: a privileged form in the unprivileged view raises PRIV, a form whose feature
is not accepted ILLFEATURE, a word that is no instruction ILLEGAL, a lane that no target may name BADTARGET. -/
def Obligations.Traps : Prop :=
  ∀ (i : Si) (o : Sa) (r : Act) (m : Mm) (c : Cx) (bad : BadWord) (s : State),
    exec (.trapi i) s = .next (takeCause (passed s) ⟨.swtrap, .scc, false, false, s.scc.idx, 0, BitVec.ofNat 64 i.imm.toNat, 0⟩) ∧
    exec (.brk i) s = .next (takeCause s ⟨.brk, .scc, false, false, s.scc.idx, 0, BitVec.ofNat 64 i.imm.toNat, 0⟩) ∧
    (s.isPriv = false → ∀ x ∈ [Instr.tlbinvCtx o, .tlbinvPage o, .tlbinvAll o, .actset r, .resume o, .halt o, .wdogPet o, .wdogExpire o,
      .wdogCorerst o, .wdogDierst o, .featset o, .parkpop o], exec x s = .next (trap s ⟨.priv, 0, 0⟩)) ∧
    (s.hasFeature 0 = false → exec (.mspa m) s = .next (trap s ⟨.illfeature, 0, 0⟩)) ∧
    (s.hasFeature 2 = false → ∀ x ∈ [Instr.zwait o, .zdrop o, .ztest o], exec x s = .next (trap s ⟨.illfeature, 0, 0⟩)) ∧
    (s.hasFeature 2 = false → ∀ x ∈ [Instr.cpb c, .cph c], ready s [c.sa, c.sb, c.sc, c.sd, c.se] = true →
      exec x s = .next (trap s ⟨.illfeature, 0, 0⟩)) ∧
    (s.hasFeature 3 = false → ∀ x ∈ [Instr.sqappend o, .sqconfirm o, .sqstate o, .wset o, .wclr o, .wget o],
      exec x s = .next (trap s ⟨.illfeature, 0, 0⟩)) ∧
    (bad ≠ .notALane → exec (.illegalEncoding bad) s = .next (trap s ⟨.illegal, 0, 0⟩)) ∧
    exec (.illegalEncoding .notALane) s = .next (trap s ⟨.badtarget, 0, s.scc.pcq0.addr⟩)

/-- 12 R337, R341: a record of a cause is 64 bytes: its code, INFO, context, core, task id, command index with die and cycle,
MPC, STATUS, ADDRESS and the three places of the PC queue; where the context has a recovery block whose ring is usable it goes to
the ring's next slot and the count goes up; with no block and no die log no byte is written. -/
def Obligations.FaultRecords : Prop :=
  ∀ (s : State) (t : Task) (r : Raised) (a : Action),
    let n := s.core.agent.val
    let d := dieOf s.core.agent
    let bs := recordBytes s t r (infoByte r a)
    bs.length = 64 ∧ leAt bs 0 1 = r.cause.code ∧ leAt bs 1 1 = r.engine.code + 16 * a.code + (if r.late then 64 else 0) ∧
    leAt bs 2 1 = t.ctx.val ∧ leAt bs 3 1 = n % 64 ∧ leAt bs 4 4 = t.id.toNat ∧
    leAt bs 8 8 = r.idx.toNat * 2 ^ 40 + n / 64 * 2 ^ 37 + s.dies[d].cycle.toNat % 2 ^ 37 ∧ leAt bs 0x10 8 = r.mpc.toNat ∧
    leAt bs 0x18 8 = r.status.toNat ∧ leAt bs 0x20 8 = r.address.toNat ∧
    leAt bs 0x28 8 = s.scc.pcq0.addr.toNat / 4 * 4 + (if s.scc.pcq0.nul then 1 else 0) ∧
    leAt bs 0x30 8 = s.scc.pcq1.addr.toNat / 4 * 4 + (if s.scc.pcq1.nul then 1 else 0) ∧
    leAt bs 0x38 8 = s.scc.pcq2.addr.toNat / 4 * 4 + (if s.scc.pcq2.nul then 1 else 0) ∧
    ((s.ctxAt d t.ctx).actbase.getLsbD 0 = false → s.dies[d].dielog = 0 → writeRecord s t.ctx bs = (s, 0)) ∧
    (∀ k lg, blockKey s d t.ctx = some k → s.le (k + 0x210) 4 = lg → 6 ≤ lg → lg ≤ 16 →
      let ring := s.le (k + 0x200) 8
      let va := s.le (k + 0x208) 8
      let slot := 64 * (s.le (k + 0x218) 8 % 2 ^ lg)
      ring / 2 ^ 52 % 2 ^ 9 = 0 → ring % 2 ^ 12 = 0 →
      writeRecord s t.ctx bs =
        ((s.store (hbmKey (peerOf s.pkg (ring / 2 ^ 61 % 8)) (ring / 2 ^ 12 % 2 ^ 40 * 4096 + slot)) bs).storeLe (k + 0x218) 8
          (s.le (k + 0x218) 8 + 1), if va = 0 then 0 else BitVec.ofNat 64 (va + slot)))

/-- 12 R333, R340-R344, 09 R268: a cause of a task at rest writes its record; then its action runs. REPLAY below its limit keeps
the task at the same place and counts; KILL ends it as a failure whose record its join keeps; PARK, where the save area has
room, saves it whole at the tail of its queue, and kills it where there is none. -/
def Obligations.CauseActions : Prop :=
  ∀ (s : State) (t : Task) (r : Raised), s.core.task = some t → quiet s = true → veRests s = true → s.core.regs.pend = ⟨none, none, none, none, [], none⟩ →
    r.cause ≠ .firstnan → r.cause ≠ .tokenexpired → r.late = false → (∀ c ∈ s.cp.copies, ∀ x, c.phase ≠ .stalled x) →
    let e := entryFor s t.ctx r.cause
    let room := roomFor s (dieOf s.core.agent) (imageSize t.obj true (decide (t.obj.slots ≠ 0)))
    let wrec (a : Action) : State × Word := writeRecord s t.ctx (recordBytes s t r (infoByte r a))
    let killed : Prop := ∃ u, takeCause s r = u ∧ u.core.task = none ∧ u.core.regs = TaskRegs.entry ∧ u.core.yreq = none ∧
      u.mem = (wrec .kill).1.mem ∧ u.joins = s.joins.modify t.join fun j => { j with
        ended := j.ended + 1, failed := j.failed + 1, first := if j.failed = 0 then (wrec .kill).2 else j.first }
    (e.action = .replay → e.limit = 0 ∨ (lookupKey r.idx.toNat s.scc.replays).getD 0 < e.limit →
      takeCause s r = withScc (wrec .replay).1 { s.scc with
        replays := insertKey r.idx.toNat ((lookupKey r.idx.toNat s.scc.replays).getD 0 + 1) s.scc.replays
        hold := none
        barrier := none }) ∧
    (e.action = .kill → killed) ∧
    (e.action = .park → roomFor s (dieOf s.core.agent) (imageSize t.obj true true) = none → killed) ∧
    (e.action = .park → roomFor s (dieOf s.core.agent) (imageSize t.obj true true) ≠ none → room ≠ none →
      ∃ u img, takeCause s r = u ∧ u.core.task = none ∧ u.core.regs = TaskRegs.entry ∧ u.core.yreq = none ∧
        u.tasks = s.tasks ++ [⟨t, .parked (dieOf s.core.agent) e.queue, some img⟩] ∧ img.vec = true ∧ img.forced = true ∧
        img.cause = r.cause.code ∧ img.record = (wrec .park).2 ∧ img.regs = keptRegs s.core.regs true)

/-! ## System instructions (12 R348-R350, R364-R368) -/

/-- 12 R339, R340, R364, R365: a TLBINV, in the privileged view, drops from every TLB of the package the entries of its context,
those of them that hold its address, or all, once no access of such a context is in flight to a page; a context above 63 is
ILLEGAL. ACTSET, in the privileged view, writes the die's copy of a cause's action entry for the context it names, and, with
ACTBASE.V, the entry's 16 bytes in the recovery block. A code out of range, FALLBACK REPLAY, a reserved bit, and FORWARD without a
handler are ILLEGAL. -/
def Obligations.TlbAndActionEntries : Prop :=
  (∀ (o : Sa) (s : State), s.isPriv = true → ready s [o.a, o.b] = true →
     let c := s.sreg o.a
     let va := (s.sreg o.b).toNat
     let drop (p : TlbEnt → Bool) : State := { s with
       core := { s.core with tlb := s.core.tlb.filter fun e => !p e }
       others := s.others.map fun x => (x.1, { x.2 with tlb := x.2.tlb.filter fun e => !p e })
       dies := s.dies.map fun d => { d with tlb := d.tlb.filter fun e => !p e } }
     let flies (q : Fin 64 → Prop) : Prop := ∃ k, (k = s.core ∨ ∃ x ∈ s.others, k = x.2) ∧
       (∃ t, k.task = some t ∧ q t.ctx) ∧ ∃ f ∈ k.regs.ord.flights, f.addr.toNat < 2 ^ 63
     (64 ≤ c.toNat → exec (.tlbinvCtx o) s = .next (trap s ⟨.illegal, 0, 0⟩) ∧
       exec (.tlbinvPage o) s = .next (trap s ⟨.illegal, 0, 0⟩)) ∧
     (c.toNat < 64 →
       (flies (fun x => x.val = c.toNat) → exec (.tlbinvCtx o) s = .next (waiting s) ∧ exec (.tlbinvPage o) s = .next (waiting s)) ∧
       (¬flies (fun x => x.val = c.toNat) →
         exec (.tlbinvCtx o) s = .next (passed (drop fun e => decide (e.ctx.val = c.toNat))) ∧
         exec (.tlbinvPage o) s = .next (passed (drop fun e =>
           decide (e.ctx.val = c.toNat ∧ e.page ≤ va ∧ va < e.page + e.leaf.pageBytes))))) ∧
     (flies (fun _ => True) → exec (.tlbinvAll o) s = .next (waiting s)) ∧
     (¬flies (fun _ => True) → exec (.tlbinvAll o) s = .next (passed (drop fun _ => true)))) ∧
  (∀ (o : Act) (s : State), s.isPriv = true → ready s [o.a, o.b] = true →
     let a := s.sreg o.a
     let b := s.sreg o.b
     let n := a.toNat
     let c : Fin 64 := Fin.ofNat 64 (n / 2 ^ 32 % 64)
     let d := dieOf s.core.agent
     let act (k : Nat) : Action := if k = 0 then .kill else if k = 1 then .replay else if k = 2 then .park else .forward
     let entry : ActEntry := ⟨act (n % 4), n / 2 ^ 8 % 2 ^ 8, act (n / 2 ^ 16 % 4), Fin.ofNat 16 (n / 2 ^ 24 % 16), b⟩
     let good : Prop := 1 ≤ o.cause.toNat ∧ o.cause.toNat ≤ 0x1B ∧ n / 2 ^ 16 % 4 ≠ 1 ∧ a &&& ~~~0x3F0F03FF03 = 0 ∧
       (n % 4 = 3 ∨ n / 2 ^ 16 % 4 = 3 → b ≠ 0)
     let r := s.ctxAt d c
     let t := s.setCtxAt d c { r with acts := insertKey o.cause.toNat entry r.acts }
     let block := hbmKey (peerOf s.pkg (r.actbase.toNat / 2 ^ 61 % 8)) (r.actbase.toNat / 2 ^ 10 % 2 ^ 42 * 1024)
     (¬good → exec (.actset o) s = .next (trap s ⟨.illegal, 0, 0⟩)) ∧
     (good → r.actbase.getLsbD 0 = false → exec (.actset o) s = .next (passed t)) ∧
     (good → r.actbase.getLsbD 0 = true → exec (.actset o) s = .next (passed (t.store (block + 16 * o.cause.toNat)
       (leBytes 1 (n % 4) ++ leBytes 1 (n / 2 ^ 8 % 2 ^ 8) ++ leBytes 1 (n / 2 ^ 16 % 4) ++ leBytes 1 (n / 2 ^ 24 % 16) ++ leBytes 4 0 ++
         leBytes 8 b.toNat)))))

/-- 12 R348-R350: PARKPOP takes the oldest task of a park queue of this die and answers its id, all ones from an empty one. RESUME
of a task so taken makes it ready again (REPLAY, CONTINUE), ends it as a failure (KILL), or parks it again; of a parked task that
was not taken it answers 2, of any other 1. -/
def Obligations.ParkQueues : Prop :=
  ∀ (o : Sa) (s : State), s.isPriv = true → ready s [o.d, o.a, o.b] = true →
    let d := dieOf s.core.agent
    let a := (s.sreg o.a).toNat
    let b := (s.sreg o.b).toNat
    let here (e : TaskEnt) : Prop := e.place = .parked d (Fin.ofNat 16 a)
    let taken (e : TaskEnt) : Prop := e.task.id.toNat = a ∧ ∃ x, e.place = .taken x
    let parked (e : TaskEnt) : Prop := e.task.id.toNat = a ∧ ∃ x q, e.place = .parked x q
    let illegal_ : Prop := 2 ^ 32 ≤ a ∨ b % 256 / 4 ≠ 0 ∨ 2 ^ 12 ≤ b
    (16 ≤ a → exec (.parkpop o) s = .next (trap s ⟨.illegal, 0, 0⟩)) ∧
    (a < 16 → (∀ e ∈ s.tasks, ¬here e) → exec (.parkpop o) s = .next (wrote s o.d (BitVec.allOnes 64))) ∧
    (∀ l e rest, a < 16 → s.tasks = l ++ e :: rest → here e → (∀ x ∈ l, ¬here x) → exec (.parkpop o) s =
      .next (wrote { s with tasks := l ++ rest ++ [{ e with place := .taken d }] } o.d (e.task.id.setWidth 64))) ∧
    (illegal_ → exec (.resume o) s = .next (trap s ⟨.illegal, 0, 0⟩)) ∧
    (¬illegal_ → (∀ e ∈ s.tasks, ¬taken e) →
      ((∃ e ∈ s.tasks, parked e) → exec (.resume o) s = .next (wrote s o.d 2)) ∧
      ((∀ e ∈ s.tasks, ¬parked e) → exec (.resume o) s = .next (wrote s o.d 1))) ∧
    (∀ l e rest, ¬illegal_ → s.tasks = l ++ e :: rest → taken e → (∀ x ∈ l, ¬taken x ∧ x ≠ e) →
      (b % 4 < 2 → s.disabled e.task.home = false → (s.coreAt e.task.home).halted = false → ∃ u, exec (.resume o) s = .next (wrote u o.d 0) ∧
        u.core.regs = s.core.regs ∧ u.mem = s.mem ∧ u.tasks = l ++ rest ++ [{ e with
          place := .ready e.task.home s.dies[dieOf e.task.home].cycle.toNat 0 e.task.prio
          image := e.image.map fun i => resumeImage i (b % 4 = 1) }]) ∧
      (b % 4 = 2 → ∃ u, exec (.resume o) s = .next (wrote u o.d 0) ∧ u.core.regs = s.core.regs ∧ u.mem = s.mem ∧ u.tasks = l ++ rest ∧
        let rec_ : Word := (e.image.map (·.record)).getD 0
        u.joins = s.joins.modify e.task.join fun j => { j with
          ended := j.ended + 1, failed := j.failed + 1, first := if j.failed = 0 then rec_ else j.first }) ∧
      (∀ dd, b % 4 = 3 → e.place = .taken dd → ∃ signals, exec (.resume o) s = .next (wrote { s with
        tasks := l ++ rest ++ [{ e with place := .parked dd (Fin.ofNat 16 (b / 2 ^ 8 % 16)) }], msix := s.msix ++ signals } o.d 0)))

/-- 11 R326, 12 R361, R367, R368: WDOG.pet clears STAGE and reloads the count; WDOG.expire is an expiry: the first sets STAGE,
signals vector 0 and reloads, the next resets the die. WDOG.corerst resets a halted, enabled core of the die, WDOG.dierst a die;
each is ILLEGAL for other values. FEATSET writes the accepted features once per die reset and answers what holds. -/
def Obligations.WatchdogAndFeatures : Prop :=
  ∀ (o : Sa) (s : State), s.isPriv = true → ready s [o.d, o.a] = true →
    let d := dieOf s.core.agent
    let x := s.dies[d]
    let v := (s.sreg o.a).toNat
    let reload (c : Word) : Nat := c.toNat / 2 ^ 32 * 65536
    let n : Fin 512 := Fin.ofNat 512 (s.core.agent.val / 64 * 64 + v % 64)
    let good : Prop := v < 64 ∧ s.disabled n = false ∧ (s.coreAt n).halted = true
    let features : Word := if x.featWritten then x.featon else s.sreg o.a &&& 0x1F
    exec (.wdogPet o) s = .next (passed (s.modDie d fun y => { y with wdogctl := y.wdogctl &&& ~~~2, wdogCount := reload y.wdogctl })) ∧
    (x.wdogctl.getLsbD 1 = false →
      let t := (passed s).modDie d fun y => { y with wdogctl := y.wdogctl ||| 2, wdogCount := reload y.wdogctl }
      exec (.wdogExpire o) s = .next { t with msix := s.msix ++ [0] }) ∧
    (x.wdogctl.getLsbD 1 = true → exec (.wdogExpire o) s = exec (.dieReset d) (passed s)) ∧
    (¬good → exec (.wdogCorerst o) s = .next (trap s ⟨.illegal, 0, 0⟩)) ∧
    (good → ∃ t, exec (.wdogCorerst o) s = .next t ∧
      t.coreAt n = { Core.reset n with epoch := (s.coreAt n).epoch, inOrder := (s.coreAt n).inOrder } ∧
      (∀ k, k ≠ n → t.coreAt k = (passed s).coreAt k) ∧ (∀ off < 2 ^ 23, memGet t.mem (spadKey n.val off) = 0) ∧
      t.dies = s.dies ∧ t.tasks = s.tasks) ∧
    (8 ≤ v → exec (.wdogDierst o) s = .next (trap s ⟨.illegal, 0, 0⟩)) ∧
    (v < 8 → exec (.wdogDierst o) s = exec (.dieReset (Fin.ofNat 8 v)) (passed s)) ∧
    exec (.featset o) s = .next (wrote (s.modDie d fun y => { y with featWritten := true, featon := features }) o.d features)

/-- 04 R77, R82, 08 R213, R227, 11 R311, 12 R338, R340, R348: the steps that write PARKASK, ACTBASE, TTCFG, a bank's format and
the FP control registers. A park request for a task that the die numbered parks it where it waits, or raises YREQ where it runs;
for no such task it is refused. ACTBASE keeps its reserved bits 0 and, without V, all actions at their defaults. What waits for
engines leaves the machine as it is until they rest. -/
def Obligations.RegisterSteps : Prop :=
  (∀ (die : Fin 8) (v : Word) (s : State),
    let id : BitVec 32 := v.setWidth 32
    let mine (e : TaskEnt) : Prop := e.task.id = id
    let runs (n : Fin 512) : Prop := ∃ t, (s.coreAt n).task = some t ∧ t.id = id
    let asked : State := s.modDie die fun x => { x with parkask := v }
    (2 ^ 32 ≤ v.toNat → exec (.parkaskWrite die v) s = .next s) ∧
    (v.toNat < 2 ^ 32 → v.toNat / 2 ^ 21 % 8 ≠ die.val ∨ ((∀ n, ¬runs n) ∧ ∀ e ∈ s.tasks, ¬mine e) →
      exec (.parkaskWrite die v) s = .next (s.modDie die fun x => { x with parkask := v ||| 0x200000000 })) ∧
    (∀ l e rest n since k level, v.toNat < 2 ^ 32 → v.toNat / 2 ^ 21 % 8 = die.val → s.tasks = l ++ e :: rest → mine e →
      (∀ x ∈ l ++ rest, ¬mine x) → e.place = .ready n since k level → exec (.parkaskWrite die v) s =
        .next { asked with tasks := l ++ rest ++ [{ e with place := .parked (dieOf n) 14 }] }) ∧
    (∀ n, v.toNat < 2 ^ 32 → v.toNat / 2 ^ 21 % 8 = die.val → runs n → (∀ m, runs m → m = n) → (∀ e ∈ s.tasks, ¬mine e) →
      ∃ t, exec (.parkaskWrite die v) s = .next t ∧ (t.coreAt n).parkReq = true ∧ (t.coreAt n).yreq ≠ none ∧
        (t.coreAt n).regs = (s.coreAt n).regs ∧ id ∈ t.dies[die].parkReqs ∧ t.tasks = s.tasks ∧ t.mem = s.mem)) ∧
  (∀ (die : Fin 8) (c : Fin 64) (v : Word) (s : State),
    let w := v &&& 0xE00FFFFFFFFFFC01
    ∃ t acts, exec (.actbaseWrite die c v) s = .next t ∧ t.ctxAt die c = { s.ctxAt die c with actbase := w, acts := acts } ∧
      (v.getLsbD 0 = false → acts = []) ∧ (∀ e, e ≠ c → t.ctxAt die e = s.ctxAt die e) ∧ t.mem = s.mem ∧ t.core = s.core) ∧
  (∀ (core : Fin 512) (v : Word) (s : State), let u := s.focus core
    exec (.ttcfgWrite core v) s = .next ((u.modCore fun c => { c with
      ttcfg := BitVec.ofNat 64 (v.toNat / 2 ^ 12 % 2 ^ 11 * 2 ^ 12 + (if v.toNat % 8 < 7 then v.toNat % 8 else c.ttcfg.toNat % 8))
      ttab := []
      hand := 0 }).focus s.core.agent)) ∧
  (∀ (core : Fin 512) (b : Fin 32) (v : Word) (s : State), let u := s.focus core
    let veRests : Prop := u.ve.queue = [] ∧ u.ve.recording = none ∧ u.ve.loop = none
    let meRests : Prop := u.me.queue = [] ∧ u.me.run = none
    let localRests : Prop := u.cp.queue = [] ∧ ∀ c ∈ u.cp.copies, c.cmd.isLocal = false
    let after (i : Instr) (cond : Prop) (t : State) : Prop := (cond → exec i s = .next (t.focus s.core.agent)) ∧
      (¬cond → exec i s = .next (u.focus s.core.agent))
    after (.bfmtWrite core b v) (veRests ∧ meRests ∧ localRests) (u.modCore fun c => { c with bfmt := c.bfmt.set b (v &&& 0x7F) }) ∧
    after (.fpControlWrite core .seed v) veRests (u.modFp fun f => { f with seed := v }) ∧
    after (.fpControlWrite core .rngcnt v) veRests (u.modFp fun f => { f with rngcnt := v }) ∧
    after (.fpControlWrite core .fpctl v) (veRests ∧ meRests) (u.modFp fun f => { f with
      fpctl := BitVec.ofNat 64 (v.toNat / 8 % 4 * 8 + (if v.toNat % 8 < 5 then v.toNat % 8 else f.fpctl.toNat % 8)) }) ∧
    after (.fpControlWrite core .fpflags v) (veRests ∧ meRests) (u.modFp fun f => { f with fpflags := v &&& 0x7F }))

/-! ## Start and resets (01 R29, 11 R327-R330, 12 R354-R361) -/

/-- 01 R29, 12 R359-R361: loss of power and a package reset, which a reset of die 0 is too, leave the machine as it is after
reset; a reset of another die leaves its registers, its cores and its scratchpads as at reset. A watchdog that is enabled and has
run out expires: STAGE and vector 0 first, then the reset of its die. (What the model keeps of its own across a package reset:
the schedule, the free-value counter, the signals sent; logs 3 and 9.) -/
def Obligations.Resets : Prop :=
  ∀ (d : Fin 8) (s : State),
    let fresh : State := { State.reset with turns := s.turns, free := s.free, msix := s.msix }
    let x := s.dies[d]
    exec .powerLoss s = .next fresh ∧ exec .packageReset s = .next fresh ∧ exec (.dieReset 0) s = .next fresh ∧
    (d ≠ 0 → ∃ t hold forwarded, exec (.dieReset d) s = .next t ∧
      t.dies[d] = { Die.reset with hold := hold, forwarded := forwarded } ∧ (∀ h ∈ hold, h.since = none) ∧
      ∀ n : Fin 512, dieOf n = d → (∃ e b, t.coreAt n = { Core.reset n with epoch := e, inOrder := b }) ∧
        ∀ off < 2 ^ 23, memGet t.mem (spadKey n.val off) = 0) ∧
    (x.wdogctl.getLsbD 0 = false ∨ x.wdogCount ≠ 0 → exec (.watchdogExpiry d) s = .next s) ∧
    (x.wdogctl.getLsbD 0 = true → x.wdogCount = 0 → x.wdogctl.getLsbD 1 = false →
      let t := s.modDie d fun y => { y with wdogctl := y.wdogctl ||| 2, wdogCount := y.wdogctl.toNat / 2 ^ 32 * 65536 }
      exec (.watchdogExpiry d) s = .next { t with msix := s.msix ++ [0] }) ∧
    (x.wdogctl.getLsbD 0 = true → x.wdogCount = 0 → x.wdogctl.getLsbD 1 = true →
      exec (.watchdogExpiry d) s = exec (.dieReset d) s)

/-- 11 R327-R330, 12 R354, R357: POWER_ON takes the package number, extents and harvest from the board, and waits for firmware at
step 4; a PUF or a harvest record that fails stops the start with its error and vector 0. Out of step 4 a piece is only kept in
the mailbox; one out of order stops the start with 5; one in order, not the last, goes to die 0's HBM and is acknowledged. A
scrub pass, where CHKCTL asks for it, counts a corrected error and poisons what cannot be corrected. -/
def Obligations.StartAndScrub : Prop :=
  (∀ (board : BoardInfo) (s : State),
    (s.boot.step ≠ 0 → exec (.powerOn board) s = .next s) ∧
    (s.boot.step = 0 → ∃ t, exec (.powerOn board) s = .next t ∧ t.pkg = board.pkg ∧ t.extent = (board.extX, board.extY, board.extZ) ∧
      t.core = s.core ∧ t.tasks = s.tasks ∧
      (board.pufOk = false → t.boot.step = 2 ∧ t.boot.failed = true ∧ t.msix = s.msix ++ [0]) ∧
      (board.pufOk = true → board.harvestOk = false → t.boot.step = 3 ∧ t.boot.failed = true ∧ t.msix = s.msix ++ [0]) ∧
      (board.pufOk = true → board.harvestOk = true → t.boot.step = 4 ∧ t.boot.failed = s.boot.failed ∧ t.msix = s.msix ∧
        ∀ d : Fin 8, t.harvest[d] = board.harvest.getD d.val 0))) ∧
  (∀ (piece : BitVec 32) (s : State),
    let t : State := { s.storeLe (mboxKey 12) 4 piece.toNat with hostAnswer := .ok }
    let i := piece.toNat % 2 ^ 31
    let body := if i = 0 then t.le (mboxKey 0x1008) 8 else t.boot.bodyLen
    (s.boot.step ≠ 4 ∨ s.boot.failed = true → exec (.firmwarePiece piece) s = .next t) ∧
    (s.boot.step = 4 → s.boot.failed = false → i ≠ t.le (mboxKey 16) 4 → let u := t.storeLe (mboxKey 8) 4 5
      exec (.firmwarePiece piece) s = .next { u with msix := s.msix ++ [0], boot := { s.boot with failed := true } }) ∧
    (s.boot.step = 4 → s.boot.failed = false → i = t.le (mboxKey 16) 4 → piece.getLsbD 31 = false → body ≤ 2 ^ 30 →
      let u := (t.store (hbmKey (peerOf s.pkg 0) (32768 * i)) (t.bytes (mboxKey 0x1000) 32768)).storeLe (mboxKey 16) 4 (i + 1)
      exec (.firmwarePiece piece) s = .next { u with boot := { s.boot with pieces := i + 1, bodyLen := body } })) ∧
  ∀ (die : Fin 8) (line : Nat) (s : State),
    let c := s.dies[die].chkctl.toNat
    (c / 2 ^ 8 % 2 ^ 8 = 0 → ∀ f, exec (.scrubPass die line f) s = .next s) ∧
    (c / 2 ^ 8 % 2 ^ 8 ≠ 0 → exec (.scrubPass die line .clean) s = .next s ∧
      exec (.scrubPass die line .corrected) s = .next (s.modDie die fun x => { x with
        chkctl := BitVec.ofNat 64 (min (2 ^ 32 - 1) (c / 2 ^ 32 + 1) * 2 ^ 32 + c % 2 ^ 32) }) ∧
      ∃ t, exec (.scrubPass die line .uncorrectable) s = .next t ∧ t.mem = s.mem ∧ t.core.regs = s.core.regs ∧
        hbmKey (peerOf s.pkg die.val) (line % 2 ^ 31 * 64) / 64 ∈ t.poison)

/-! ## Vector commands (05 R111-R136, 06 R166-R169, 08 R224-R226, 10 R306-R308) -/

/-- 02 R43, 04 R76, R77, R83, R88, 05 R111-R113, R116, R117, R119-R124, R127, R129, R135: a command that makes its destination
element by element reads all of its sources before it writes, computes one result for each element that its predicate enables,
leaves every other element as it was, merges all flags, and counts one more draw if it consumes randomness. A cause (an
unconfigured port, the poison of a source, a first NaN under NANTRAP) stops it with nothing written. -/
def Obligations.ElementCommands : Prop :=
  ∀ (s : State) (i : Instr) (w : VecOp), ElementOp s i w → VeFree s → VeAllowed i s →
    (∀ e, readSrcs (passed s) w.src = .error e → exec i s = .next (veStopped i [] s e)) ∧
    (∀ xs u f, readSrcs (passed s) w.src = .ok (xs, u, f) →
      let res := vecResults s w xs
      (∀ e, writeDst u w.dst 0 0 = .error e → exec i s = .next (veStopped i [] s e)) ∧
      ∀ y, writeDst u w.dst 0 0 = .ok y →
        (∀ e, firstNan s w.ty res = some e → exec i s = .next (veStopped i [] s e)) ∧
        (firstNan s w.ty res = none → ∃ x m v g, writeDst u w.dst x m = .ok (v, g) ∧ Placed w.ty res x m ∧
          exec i s = .next (counted v (flagsOf (f ||| g) res) w.random))) ∧
    ((∀ c ∈ w.dst :: w.src, c.val < 56) →
      let res := vecResults s w (w.src.map fun c => s.vreg (regNum c))
      (∀ e, firstNan s w.ty res = some e → exec i s = .next (veStopped i [] s e)) ∧
      (firstNan s w.ty res = none → ∃ y, exec i s = .next (counted ((passed s).setV (regNum w.dst) y) (flagsOf 0 res) w.random) ∧
        (∀ r ∈ res, elem w.ty y r.1 = r.2.1 % 2 ^ w.ty.width) ∧
        ∀ n < w.ty.count, (∀ r ∈ res, r.1 ≠ n) → elem w.ty y n = elem w.ty (s.vreg (regNum w.dst)) n))

/-- 05 R114, R115, R125-R128: VCMP gathers its condition lane by lane into a predicate, VSEL takes lanes of one source or the
other, VQUANT makes codes and block scales and may append escapes to a burl register, VDEQ of HB4 reads escapes from one,
VAMAX raises the maxima of the blocks of a register. -/
def Obligations.CompareSelectQuantise : Prop :=
  ∀ (o : Vx) (q : Va) (s : State), VeFree s →
    -- VCMP
    (let lanes (xs : List VWord) (j : Nat) : Prop :=
      let val (k n : Nat) : Val := decodeTy o.ty (flushIn o.ty o.fzi (sourceElem o.ty xs k n))
      let test (k : Nat) : Prop := compared (o.aux.toNat % 8) (val 0 (j * (32 / o.ty.width) + k)) (val 1 (j * (32 / o.ty.width) + k))
      if o.aux.getLsbD 3 then ∃ k < 32 / o.ty.width, test k else ∀ k < 32 / o.ty.width, test k
    (∀ e, readSrcs (passed s) [o.a, o.b] = .error e → exec (.vcmp o) s = .next (veStopped (.vcmp o) [] s e)) ∧
    ∀ xs u f, readSrcs (passed s) [o.a, o.b] = .ok (xs, u, f) →
      ∃ p, exec (.vcmp o) s = .next (counted (u.setP (Fin.ofNat 16 o.d.val) p) f false) ∧
        ∀ j < 64, (p.getLsbD j = true ↔
          if (s.preg o.p).getLsbD j then lanes xs j else (s.preg (Fin.ofNat 16 o.d.val)).getLsbD j = true)) ∧
    -- VSEL
    ((∀ e, readSrcs (passed s) [q.a, q.b] = .error e → exec (.vsel q) s = .next (veStopped (.vsel q) [] s e)) ∧
    ∀ xs u f, readSrcs (passed s) [q.a, q.b] = .ok (xs, u, f) → ∃ y, laneWise (s.preg q.p) (xs.getD 0 0) (xs.getD 1 0) y ∧
      (∀ e, writeDst u q.d y (BitVec.allOnes 2048) = .error e → exec (.vsel q) s = .next (veStopped (.vsel q) [] s e)) ∧
      ∀ v g, writeDst u q.d y (BitVec.allOnes 2048) = .ok (v, g) → exec (.vsel q) s = .next (counted v (f ||| g) false)) ∧
    -- VQUANT
    ((Instr.vquant o).wf = true → VeAllowed (.vquant o) s →
      let rm := Rm.resolve s.fp.fpctl o.rm
      let burl := s.vreg (regNum o.b)
      let h := o.aux.toNat % 16
      (∀ e, readSrcs (passed s) [o.a] = .error e → exec (.vquant o) s = .next (veStopped (.vquant o) [] s e)) ∧
      ∀ xs u f, readSrcs (passed s) [o.a] = .ok (xs, u, f) →
        (o.dty = .hb4 → burlBad burl = true →
          exec (.vquant o) s = .next (veStopped (.vquant o) [] s ⟨.burlcount, BitVec.ofNat 64 (vHalf burl 0), 0⟩)) ∧
        ((o.dty = .hb4 → burlBad burl = false) →
          (quantBlocks o s rm (xs.getD 0 0) (o.ty.count / 32) 0 burl = none →
            exec (.vquant o) s = .next (veStopped (.vquant o) [] s ⟨.burlovf, 0, 0⟩)) ∧
          ∀ scales codes b g, quantBlocks o s rm (xs.getD 0 0) (o.ty.count / 32) 0 burl = some (scales, codes, b, g) →
            (∀ e, writeDst u o.d 0 0 = .error e → exec (.vquant o) s = .next (veStopped (.vquant o) [] s e)) ∧
            ∀ y, writeDst u o.d 0 0 = .ok y → ∃ x m v k t, writeDst u o.d x m = .ok (v, k) ∧
              Placed o.dty (codes.zipIdx.map fun c => (h * o.ty.count + c.2, (c.1, 0))) x m ∧
              (∀ n < 256, elem .n8 t n = if h * (o.ty.count / 32) ≤ n ∧ n < h * (o.ty.count / 32) + scales.length
                then scales.getD (n - h * (o.ty.count / 32)) 0 % 256 else elem .n8 (v.vreg (regNum o.c)) n) ∧
              let z := v.setV (regNum o.c) t
              exec (.vquant o) s = .next (counted (if o.dty = .hb4 then z.setV (regNum o.b) b else z) (f ||| g ||| k) (decide (rm = .sr))))) ∧
    -- VDEQ of HB4
    (o.ty = .hb4 → VeAllowed (.vdeq o) s →
      let rm := Rm.resolve s.fp.fpctl o.rm
      let burl := s.vreg (regNum o.c)
      let burlcount (count escapes : Nat) : Fail := ⟨.burlcount, BitVec.ofNat 64 (count + 2 ^ 32 * escapes), 0⟩
      (∀ e, readSrcs (passed s) [o.a] = .error e → exec (.vdeq o) s = .next (veStopped (.vdeq o) [] s e)) ∧
      ∀ xs u f, readSrcs (passed s) [o.a] = .ok (xs, u, f) →
        (burlBad burl = true → exec (.vdeq o) s = .next (veStopped (.vdeq o) [] s (burlcount (vHalf burl 0) 0))) ∧
        (burlBad burl = false →
          let dec := deqHb4 (xs.getD 0 0) (s.vreg (regNum o.b)) burl (vHalf burl 0)
            ((List.range o.dty.count).map fun n => o.aux.toNat % 16 * o.dty.count + n) (vHalf burl 136)
          (∀ c n, dec = .error (c, n) → exec (.vdeq o) s = .next (veStopped (.vdeq o) [] s (burlcount c n))) ∧
          ∀ vs cur, dec = .ok (vs, cur) →
            (o.aux.getLsbD 4 = true → cur ≠ vHalf burl 0 →
              exec (.vdeq o) s = .next (veStopped (.vdeq o) [] s (burlcount (vHalf burl 0) cur))) ∧
            ((o.aux.getLsbD 4 = true → cur = vHalf burl 0) →
              let res : List (Nat × Conv) := ((List.range o.dty.count).filter fun n => enabled (s.preg o.p) o.dty n).map fun n =>
                (n, convert o.dty rm o.fzo false (drawVe s.fp.seed s.fp.rngcnt (lanePos o.dty n).1 (lanePos o.dty n).2) (vs.getD n .nan))
              (∀ e, writeDst u o.d 0 0 = .error e → exec (.vdeq o) s = .next (veStopped (.vdeq o) [] s e)) ∧
              ∀ y, writeDst u o.d 0 0 = .ok y →
                (∀ e, firstNan s o.dty res = some e → exec (.vdeq o) s = .next (veStopped (.vdeq o) [] s e)) ∧
                (firstNan s o.dty res = none → ∃ x m v g, writeDst u o.d x m = .ok (v, g) ∧ Placed o.dty res x m ∧
                  exec (.vdeq o) s = .next (counted (v.setV (regNum o.c) (putHalf burl 136 cur)) (flagsOf (f ||| g) res)
                    (decide (rm = .sr))))))) ∧
    -- VAMAX
    ((56 ≤ q.d.val → exec (.vamax q) s = .next (veStopped (.vamax q) [] s ⟨.illegal, 0, 0⟩)) ∧
    (q.d.val < 56 →
      (∀ e, readSrcs (passed s) [q.a] = .error e → exec (.vamax q) s = .next (veStopped (.vamax q) [] s e)) ∧
      ∀ xs u f, readSrcs (passed s) [q.a] = .ok (xs, u, f) →
        let old := s.vreg (regNum q.d)
        let block (k : Nat) : Nat := maxAbs q.ty ((List.range 32).map fun n => sourceElem q.ty xs 0 (32 * k + n))
        ∃ y, exec (.vamax q) s = .next (counted (u.setV (regNum q.d) y) f false) ∧
          ∀ n < q.ty.count, elem q.ty y n =
            if n < q.ty.count / 32 then (maxElem q.ty (elem q.ty old n) (block n)).1 % 2 ^ q.ty.width else elem q.ty old n))

/-- 05 R130: a reduction folds the enabled elements of its source, ascending, into RES: integers as 64-bit numbers, floats
widened to FP32 with one rounding for each addition; the first NaN that an addition creates stops it under NANTRAP. -/
def Obligations.Reductions : Prop :=
  ∀ (o : Va) (s : State), VeFree s →
    let gives (i : Instr) (r : List Nat → Word × Flags) : Prop :=
      (∀ e, readSrcs (passed s) [o.a] = .error e → exec i s = .next (veStopped i [] s e)) ∧
      ∀ xs u f, readSrcs (passed s) [o.a] = .ok (xs, u, f) →
        let v := r (enabledVals s o (xs.getD 0 0))
        exec i s = .next (counted (u.setRes v.1) (f ||| v.2) false)
    let ext (x : Nat) : Word := BitVec.ofInt 64 (intOf o.ty x)
    let wide (l : List Nat) : List Nat := l.map (widen o.ty)
    (o.ty.isFloat = false → o.ty ≠ .hb4 →
      gives (.vredAdd o) (fun l => (BitVec.ofInt 64 (l.map (intOf o.ty)).sum, 0)) ∧
      gives (.vredMin o) (fun l => (BitVec.ofInt 64 ((l.map (intOf o.ty)).foldl min o.ty.range.2), 0)) ∧
      gives (.vredMax o) (fun l => (BitVec.ofInt 64 ((l.map (intOf o.ty)).foldl max o.ty.range.1), 0)) ∧
      gives (.vredAnd o) (fun l => (l.foldl (fun a x => a &&& ext x) (BitVec.allOnes 64), 0)) ∧
      gives (.vredOr o) (fun l => (l.foldl (fun a x => a ||| ext x) 0, 0)) ∧
      gives (.vredXor o) (fun l => (l.foldl (fun a x => a ^^^ ext x) 0, 0))) ∧
    (o.ty.isFloat = true →
      gives (.vredMin o) (fun l => (canon32 ((wide l).foldl (fun m x => (minElem .f32 m x).1) (inf32 false)), 0)) ∧
      gives (.vredMax o) (fun l => (canon32 ((wide l).foldl (fun m x => (maxElem .f32 m x).1) (inf32 true)), 0)) ∧
      gives (.vredAmax o) (fun l => (canon32 (maxAbs .f32 (wide l)), 0)) ∧
      let add (c : Nat × Flags) (x : Nat) : Nat × Flags := ((addElem .f32 c.1 x).1, c.2 ||| (addElem .f32 c.1 x).2)
      (nanTrap s = false → gives (.vredAdd o) (fun l => match wide l with
        | [] => (0, 0)
        | x :: xs => (canon32 (xs.foldl add (x, 0)).1, (xs.foldl add (x, 0)).2))) ∧
      (nanTrap s = true → ∀ xs u f, readSrcs (passed s) [o.a] = .ok (xs, u, f) →
        let es := (List.range o.ty.count).filter fun n => enabled (s.preg o.p) o.ty n
        let vs (k : Nat) : List Nat := (es.take k).map fun n => widen o.ty (elem o.ty (xs.getD 0 0) n)
        let sum (k : Nat) : Nat × Flags := match vs k with
          | [] => (0, 0)
          | y :: ys => ys.foldl add (y, 0)
        let nan (k : Nat) : Prop := (sum k).2.hasNv = true
        (¬nan es.length → exec (.vredAdd o) s =
          .next (counted (u.setRes (if es = [] then 0 else canon32 (sum es.length).1)) (f ||| (sum es.length).2) false)) ∧
        ∀ k < es.length, ¬nan k → nan (k + 1) →
          exec (.vredAdd o) s = .next (veStopped (.vredAdd o) [] s ⟨.firstnan, BitVec.ofNat 64 (nanStatus o.ty (es.getD k 0)), 0⟩)))

/-- 08 R224-R226: VLD and VST move 64 lanes at a 64-aligned offset of the own scratchpad, VGATH and VSCAT one word of each
enabled lane at its own 4-aligned offset, VLDG and VSTG 256 bytes of a page at a 256-aligned address; lanes that the predicate
disables are neither written nor stored. Anything else is ILLEGAL. -/
def Obligations.VectorMemory : Prop :=
  ∀ (o : Va) (g : Vg) (s : State), VeFree s → Memory.wf s.mem = true →
    let on (p : Fin 16) (j : Nat) : Bool := (s.preg p).getLsbD j
    let a := s.sreg (sregOf o.a)
    let spad (k : Nat) : Nat := spadAt s.core k
    (ready s [sregOf o.a] = true →
      let ill (i : Instr) : Prop := exec i s = .next (veStopped i [a] s ⟨.illegal, 0, 0⟩)
      -- VLD
      (¬(a.toNat % 64 = 0 ∧ a.toNat ≤ 2 ^ 23 - 256) → ill (.vld o) ∧ ill (.vst o)) ∧
      (a.toNat % 64 = 0 ∧ a.toNat ≤ 2 ^ 23 - 256 →
        (∀ e, engineRead (passed s) a.toNat 256 = .error e → exec (.vld o) s = .next (veStopped (.vld o) [a] s e)) ∧
        (∀ bs f, engineRead (passed s) a.toNat 256 = .ok (bs, f) → ∃ m : VWord, (∀ k < 2048, m.getLsbD k = on o.p (k / 32)) ∧
          (∀ e, writeDst (passed s) o.d (BitVec.ofNat 2048 (leNat bs)) m = .error e →
            exec (.vld o) s = .next (veStopped (.vld o) [a] s e)) ∧
          ∀ v h, writeDst (passed s) o.d (BitVec.ofNat 2048 (leNat bs)) m = .ok (v, h) →
            exec (.vld o) s = .next (counted v (f ||| h) false)) ∧
        (s.poison = [] → (∀ off n, layoutRead s.core off n = .ok 0) → o.d.val < 56 →
          ∃ x y, exec (.vld o) s = .next (counted ((passed s).setV (regNum o.d) y) 0 false) ∧ laneWise (s.preg o.p) x (s.vreg (regNum o.d)) y ∧
            ∀ i < 256, vByte x i = memGet s.mem (spad (a.toNat + i))) ∧
        -- VST
        (∀ e, readSrcs (passed s) [o.b] = .error e → exec (.vst o) s = .next (veStopped (.vst o) [a] s e)) ∧
        ∀ xs u f, readSrcs (passed s) [o.b] = .ok (xs, u, f) →
          ∃ t h, exec (.vst o) s = .next (counted t (f ||| h) false) ∧ SpadOnly u t ∧
            (∀ i < 256, on o.p (i / 4) = true → memGet t.mem (spad (a.toNat + i)) = vByte (xs.getD 0 0) i) ∧
            ∀ k, (∀ i < 256, on o.p (i / 4) = true → k ≠ spad (a.toNat + i)) → memGet t.mem k = memGet s.mem k) ∧
      -- VGATH
      (let at_ (j : Nat) : Nat := (a.toNat + elem .n32 (s.vreg (regNum o.b)) j) % 2 ^ 23
      let lanes := (List.range 64).filter fun j => on o.p j
      ((∃ j < 64, on o.p j = true ∧ at_ j % 4 ≠ 0) → ill (.vgath o) ∧ ill (.vscat o)) ∧
      ((∀ j < 64, on o.p j = true → at_ j % 4 = 0) →
        (∀ e, gatherLanes (passed s) a (s.vreg (regNum o.b)) lanes = .error e →
          exec (.vgath o) s = .next (veStopped (.vgath o) [a] s e)) ∧
        (∀ xs f, gatherLanes (passed s) a (s.vreg (regNum o.b)) lanes = .ok (xs, f) → ∃ x m,
          Placed .n32 (xs.map fun e => (e.1, (e.2, 0))) x m ∧ xs.map (·.1) = lanes ∧
          (∀ e, writeDst (passed s) o.d x m = .error e → exec (.vgath o) s = .next (veStopped (.vgath o) [a] s e)) ∧
          ∀ v h, writeDst (passed s) o.d x m = .ok (v, h) → exec (.vgath o) s = .next (counted v (f ||| h) false)) ∧
        (s.poison = [] → (∀ off n, layoutRead s.core off n = .ok 0) → ∃ xs, gatherLanes (passed s) a (s.vreg (regNum o.b)) lanes = .ok (xs, 0) ∧
          ∀ e ∈ xs, e.2 = memNumber s 4 fun i => spad (at_ e.1 + i)) ∧
        -- VSCAT
        ∃ t h, exec (.vscat o) s = .next (counted t h false) ∧ SpadOnly (passed s) t ∧
          (∀ j < 64, on o.p j = true → (∀ l < 64, j < l → on o.p l = true → at_ l ≠ at_ j) → ∀ i < 4,
            memGet t.mem (spad (at_ j + i)) = BitVec.ofNat 8 (elem .n32 (s.vreg (regNum o.d)) j / 2 ^ (8 * i))) ∧
          ∀ k, (∀ j < 64, on o.p j = true → ∀ i < 4, k ≠ spad (at_ j + i)) → memGet t.mem k = memGet s.mem k))) ∧
    -- VLDG and VSTG
    (ready s [sregOf g.a] = true →
      let b := s.sreg (sregOf g.a)
      let good : Prop := b.toNat < 2 ^ 57 ∧ b.toNat % 256 = 0
      (¬good → exec (.vldg g) s = .next (veStopped (.vldg g) [b] s ⟨.illegal, 0, 0⟩) ∧
        exec (.vstg g) s = .next (veStopped (.vstg g) [b] s ⟨.illegal, 0, 0⟩)) ∧
      (good →
        (∀ e, translate s (some s.core) (dieOf s.core.agent) s.ctx s.isPriv .read b.toNat = .error e →
          exec (.vldg g) s = .next (veStopped (.vldg g) [b] s e)) ∧
        (∀ e, translate s (some s.core) (dieOf s.core.agent) s.ctx s.isPriv .write b.toNat = .error e →
          exec (.vstg g) s = .next (veStopped (.vstg g) [b] s e)) ∧
        (∀ key, Reach s .read 256 b key → Sound s 256 key → ∃ x m : VWord,
          (∀ i < 256, vByte x i = memGet s.mem (key i)) ∧ (∀ k < 2048, m.getLsbD k = on g.p (k / 32)) ∧
          (∀ e, writeDst (passed s) g.d x m = .error e → exec (.vldg g) s = .next (veStopped (.vldg g) [b] s e)) ∧
          ∀ v h, writeDst (passed s) g.d x m = .ok (v, h) → exec (.vldg g) s = .next v) ∧
        ∀ key, Reach s .write 256 b key → Sound s 256 key →
          (∀ e, readSrcs (passed s) [g.b] = .error e → exec (.vstg g) s = .next (veStopped (.vstg g) [b] s e)) ∧
          ∀ xs u f, readSrcs (passed s) [g.b] = .ok (xs, u, f) → ∃ t, exec (.vstg g) s = .next t ∧
            (∀ i < 256, on g.p (i / 4) = true → memGet t.mem (key i) = vByte (xs.getD 0 0) i) ∧
            (∀ k, (∀ i < 256, on g.p (i / 4) = true → k ≠ key i) → memGet t.mem k = memGet s.mem k) ∧
            (∀ d : Fin 8, t.dies[d] = { s.dies[d] with dirty := t.dies[d].dirty }) ∧
            t = { counted u f false with mem := t.mem, dies := t.dies }))

/-- 06 R166-R169: ACCRD opens a transfer of one row segment of a slot, whose elements are converted as they land; COMMIT moves a
landed transfer to its register and waits for one that has not landed; ACCWR converts the enabled elements of its source into
the slot's row and writes no other byte. A transfer still open at ACCRD, or none at COMMIT, is ILLEGAL. -/
def Obligations.AccumulatorTransfers : Prop :=
  ∀ (o : Vx) (c : Va) (s : State), VeFree s → Memory.wf s.mem = true →
    let rm := Rm.resolve s.fp.fpctl o.rm
    let slot := o.aux.toNat / 2 ^ 10 % 4
    let row := o.aux.toNat / 2 ^ 3 % 128
    let n := accXfer o
    let st : Ty := if s.me.intSlot.toList.getD slot false then .i32 else .f32
    let key (col i : Nat) : Nat := accKey s.core.agent.val (2 ^ 17 * slot + 1024 * row + 4 * col + i)
    (VeAllowed (.accrd o) s →
      let res : List (Nat × Conv) := (List.range o.dty.count).map fun k =>
        (k, convertBits st o.dty rm false o.fzo o.sat (drawVe s.fp.seed s.fp.rngcnt (lanePos o.dty k).1 (lanePos o.dty k).2)
          (memNumber s 4 (key (o.aux.toNat % 8 * o.dty.count + k))))
      (s.ve.landing[n] ≠ none → exec (.accrd o) s = .next (veStopped (.accrd o) [] s ⟨.illegal, 0, 0⟩)) ∧
      (s.ve.landing[n] = none →
        (∀ e, firstNan s o.dty res = some e → exec (.accrd o) s = .next (veStopped (.accrd o) [] s e)) ∧
        (firstNan s o.dty res = none → ∃ x, exec (.accrd o) s = .next (counted ((passed s).setLanding n
            (some ⟨physV s.ve.vrb (regNum o.d), o, s.scc.idx, s.fp.seed, s.fp.rngcnt, some x⟩)) (flagsOf 0 res) (decide (rm = .sr))) ∧
          ∀ r ∈ res, elem o.dty x r.1 = r.2.1 % 2 ^ o.dty.width))) ∧
    (let l := s.ve.landing[(Fin.ofNat 16 c.a.val : Fin 16)]
    (l = none → exec (.commit c) s = .next (veStopped (.commit c) [] s ⟨.illegal, 0, 0⟩)) ∧
    (∀ t, l = some t → t.data = none → exec (.commit c) s = .next ((passed s).modVe fun r => { r with
      queue := [⟨.commit c, [], s.scc.idx, s.cp.cseq, Rm.resolve s.fp.fpctl .dyn⟩] })) ∧
    ∀ t x, l = some t → t.data = some x → exec (.commit c) s = .next ((passed s).modVe fun r => { r with
      landing := r.landing.set (Fin.ofNat 16 c.a.val : Fin 16) none, v := r.v.set t.dest x })) ∧
    (VeAllowed (.accwr o) s →
      (∀ e, readSrcs (passed s) [o.a] = .error e → exec (.accwr o) s = .next (veStopped (.accwr o) [] s e)) ∧
      ∀ xs u f, readSrcs (passed s) [o.a] = .ok (xs, u, f) →
        let res : List (Nat × Conv) := ((List.range o.ty.count).filter fun k => enabled (s.preg o.p) o.ty k).map fun k =>
          (k, convertBits o.ty st rm o.fzi false o.sat (drawVe s.fp.seed s.fp.rngcnt (lanePos o.ty k).1 (lanePos o.ty k).2)
            (sourceElem o.ty xs 0 k))
        let at_ (r : Nat × Conv) (i : Nat) : Nat := key (o.aux.toNat % 8 * o.ty.count + r.1) i
        (∀ e, firstNan s o.ty res = some e → exec (.accwr o) s = .next (veStopped (.accwr o) [] s e)) ∧
        (firstNan s o.ty res = none → ∃ m, exec (.accwr o) s = .next (counted { u with mem := m } (flagsOf f res) (decide (rm = .sr))) ∧
          (∀ r ∈ res, ∀ i < 4, memGet m (at_ r i) = BitVec.ofNat 8 (r.2.1 / 2 ^ (8 * i))) ∧
          ∀ k, (∀ r ∈ res, ∀ i < 4, k ≠ at_ r i) → memGet m k = memGet s.mem k))

/-- 02 R38, 05 R132-R134: GCFG describes a port's walk in a parameter block of its source; a block beyond its limits is ILLEGAL.
VLOOP begins to record a loop's body, where the object declares rotation and no body is being recorded; VLEND ends it and hands
the loop to the VE, once an earlier loop is complete. -/
def Obligations.PortsAndLoops : Prop :=
  (∀ (o : Vx) (s : State), VeFree s →
    (∀ e, readSrcs (passed s) [o.a] = .error e → exec (.gcfg o) s = .next (veStopped (.gcfg o) [] s e)) ∧
    ∀ xs u f, readSrcs (passed s) [o.a] = .ok (xs, u, f) →
      let field (i n : Nat) : Nat := (xs.getD 0 0).toNat / 2 ^ (8 * i) % 2 ^ (8 * n)
      let good : Prop := field 0 8 < 2 ^ 23 ∧ field 0 8 % 64 = 0 ∧ field 40 216 = 0 ∧
        ∀ j < 4, field (8 + 8 * j) 4 % 64 = 0 ∧ 1 ≤ field (12 + 8 * j) 4 ∧ field (12 + 8 * j) 4 ≤ 2 ^ 24
      (¬good → exec (.gcfg o) s = .next (veStopped (.gcfg o) [] s ⟨.illegal, 0, 0⟩)) ∧
      (good → exec (.gcfg o) s = .next (counted (u.setPort (portNum o.d) (some ⟨o.aux.getLsbD 0, o.aux.getLsbD 1, field 0 8,
        [8, 16, 24, 32].map fun i => BitVec.ofNat 32 (field i 4), [12, 20, 28, 36].map fun i => field i 4, 0⟩)) f false))) ∧
  (∀ (o : Vl) (s : State),
    let rotates : Prop := ∃ t, s.core.task = some t ∧ t.obj.rotates = true
    (¬rotates ∨ s.ve.recording ≠ none → exec (.vloop o) s = .next (trap s ⟨.illegal, 0, 0⟩)) ∧
    (rotates → s.ve.recording = none →
      (32 ≤ s.ve.queue.length → exec (.vloop o) s = .next (waiting s)) ∧
      let fresh : LoopRun := ⟨o.live, o.s.val, [], ⟨.vloop o, [], s.scc.idx, s.cp.cseq, Rm.resolve s.fp.fpctl .dyn⟩, 0, 0, 0, 0, 0⟩
      (s.ve.queue.length < 32 → exec (.vloop o) s = .next ((passed s).modVe fun r => { r with recording := some fresh })))) ∧
  (∀ (o : Va) (s : State),
    (s.ve.recording = none → exec (.vlend o) s = .next (trap s ⟨.illegal, 0, 0⟩)) ∧
    ∀ l, s.ve.recording = some l →
      (s.ve.loop ≠ none → exec (.vlend o) s = .next (waiting s)) ∧
      (s.ve.loop = none → exec (.vlend o) s = .next ((passed s).modVe fun r => { r with recording := none, loop := some l }))) ∧
  ∀ (i : Instr) (w : VecOp) (s : State) (l : LoopRun), ElementOp s i w → VeAllowed i s → s.ve.recording = some l →
    (l.body.length < 64 → exec i s = .next ((passed s).modVe fun r => { r with
      recording := some { l with body := l.body ++ [⟨i, [], s.scc.idx, s.cp.cseq, Rm.resolve s.fp.fpctl .dyn⟩] } })) ∧
    (64 ≤ l.body.length → exec i s = .next (trap s ⟨.illegal, 0, 0⟩))

/-- 02 R42, 04 R77, 05 R131, R136, 10 R306-R308: the predicate operations, VSEED, and the two commands over a candidate list.
VTOPK inserts its enabled values with their tokens and keeps the best; VDRAW draws a token with the mass of its entries, counts
one draw and leaves the list. -/
def Obligations.PredicatesAndSampling : Prop :=
  (∀ (o : Pr) (v : Va) (s : State), VeFree s →
    let a := s.preg o.a
    let b := s.preg o.b
    (∀ x ∈ ([(.pset o, BitVec.allOnes 64), (.pand o, a &&& b), (.por o, a ||| b), (.pxor o, a ^^^ b), (.pnot o, ~~~a),
        (.pandn o, a &&& ~~~b)] : List (Instr × Word)), exec x.1 s = .next ((passed s).setP o.d x.2)) ∧
    exec (.pcnt v) s = .next ((passed s).setRes (BitVec.ofNat 64 (onesIn (s.preg (Fin.ofNat 16 v.a.val))))) ∧
    (VeAllowed (.vseed v) s →
      (∀ e, readSrcs (passed s) [v.a] = .error e → exec (.vseed v) s = .next (veStopped (.vseed v) [] s e)) ∧
      ∀ xs u f, readSrcs (passed s) [v.a] = .ok (xs, u, f) → exec (.vseed v) s = .next (counted (u.modFp fun r => { r with
        seed := (xs.getD 0 0).extractLsb' 0 64, rngcnt := (xs.getD 0 0).extractLsb' 64 64 }) f false))) ∧
  ∀ (o : Vx) (s : State), VeFree s →
    let list := s.sreg (sregOf o.d)
    (VeAllowed (.vtopk o) s → ready s [sregOf o.d, sregOf o.b] = true →
      let token (n : Nat) : Nat := (s.sreg (sregOf o.b)).toNat + n
      let stops (e : Fail) : Prop := exec (.vtopk o) s = .next (veStopped (.vtopk o) [list, s.sreg (sregOf o.b)] s e)
      (list.toNat % 64 ≠ 0 → stops ⟨.align, 64, list⟩) ∧
      (list.toNat % 64 = 0 →
        (∀ e, startList o list (passed s) = .error e → stops e) ∧
        ∀ l, startList o list (passed s) = .ok l →
          (∀ e, readSrcs (passed s) [o.a] = .error e → stops e) ∧
          ∀ xs u f, readSrcs (passed s) [o.a] = .ok (xs, u, f) →
            let es := (List.range o.ty.count).filter fun n => enabled (s.preg o.p) o.ty n
            let wide (n : Nat) : Nat := widen o.ty (flushIn o.ty o.fzi (sourceElem o.ty xs 0 n))
            let cand := (es.filter fun n => !(decodeTy .f32 (wide n)).isNan).map fun n =>
              (if (decodeTy .f32 (wide n)).isZero then 0 else wide n, token n)
            let l2 : CandList := ⟨l.cap, insertAll l.cap l.entries cand⟩
            ((∃ n ∈ es, 2 ^ 20 ≤ token n) → stops ⟨.illegal, 0, 0⟩) ∧
            ((∀ n ∈ es, token n < 2 ^ 20) → exec (.vtopk o) s = .next
              (counted ((engineWrite u list.toNat (listBytes l2)).1.setRes (BitVec.ofNat 64 l2.entries.length)) f false)))) ∧
    (VeAllowed (.vdraw o) s → ready s [sregOf o.d] = true →
      let beta := sourceElem .n32 [s.vreg (regNum o.a)] 0 0
      let mass := sourceElem .n32 [s.vreg (regNum o.a)] 0 1
      let stops (e : Fail) : Prop := exec (.vdraw o) s = .next (veStopped (.vdraw o) [list] s e)
      let one : Val := .fin false 1 0
      let nought : Val := .fin false 0 0
      let good : Prop := (decodeTy .f32 beta).isNan = false ∧ (decodeTy .f32 beta).lt nought = false ∧
        (decodeTy .f32 mass).isNan = false ∧ nought.lt (decodeTy .f32 mass) = true ∧ one.lt (decodeTy .f32 mass) = false
      (list.toNat % 64 ≠ 0 → stops ⟨.align, 64, list⟩) ∧
      (list.toNat % 64 = 0 → (¬good → stops ⟨.illegal, 0, 0⟩) ∧
        (good → (∀ e, readList (passed s) list = .error e → stops e) ∧
          ∀ l, readList (passed s) list = .ok l →
            let drawn (v : Word) : State := ((passed s).setRes v).modFp fun r => { r with rngcnt := r.rngcnt + 1 }
            (l.entries = [] → exec (.vdraw o) s = .next (drawn 0x0100000000000000)) ∧
            ∀ ws : List Nat, l.entries ≠ [] → l.entries.map (fun x => drawWeight (l.entries.getD 0 (0, 0)).1 beta x.1) = ws.map some →
              let sum (k : Nat) : Nat := (ws.take k).sum
              let u := (laneWord s.fp.seed s.fp.rngcnt 0).toNat / 2 ^ 24
              ∀ n, 1 ≤ n → n ≤ ws.length → ceilMass mass (sum ws.length) ≤ sum n →
                (∀ m, 1 ≤ m → m < n → sum m < ceilMass mass (sum ws.length)) →
                ∀ j, j < ws.length → u * sum n / 2 ^ 40 < sum (j + 1) → sum j ≤ u * sum n / 2 ^ 40 →
                  exec (.vdraw o) s = .next (drawn (BitVec.ofNat 64 (l.entries.getD j (0, 0)).2)))))

/-! ## Matrix commands (06 R139-R170) -/

/-- 06 R139, R144, R145, R152, R165, 02 R50: MCFG writes a field of the shadow configuration, and is ILLEGAL for a value beyond the
field's limits; MZERO clears a slot and gives it a class; MSTAT writes a counter to RES and may clear it. CYCLES is a free
value (log 9). A slot that the object does not declare is ILLEGAL. -/
def Obligations.MatrixConfiguration : Prop :=
  ∀ (o : Mm) (s : State), MeFree s →
    (ready s [o.s] = true → ∀ h : o.fid.val < 18,
      let v := (s.sreg o.s).toNat
      let f := o.fid.val
      let missing : Prop := ((f = 5 ∨ f = 6) ∧ v ≠ 0 ∧ s.hasFeature 0 = false) ∨
        ((f = 12 ∨ f = 15) ∧ v % 16 = 15 ∧ s.hasFeature 1 = false) ∨ (f = 16 ∧ s.hasFeature 4 = false)
      let limits : Prop := match f with
        | 0 => 1 ≤ v ∧ v ≤ 128
        | 1 => 1 ≤ v ∧ v ≤ 256
        | 2 => 1 ≤ v ∧ v ≤ 65536
        | 3 => v % 64 = 0 ∧ v / 2 ^ 23 % 2 = 0
        | 4 => v % 64 = 0
        | 5 => v = 0 ∨ v / 2 ^ 55 = 256 ∧ v / 2 ^ 23 % 512 = 0 ∧ v % 4 = 0
        | 6 => v = 0 ∨ v / 2 ^ 23 = 2 ^ 40
        | 7 => 1 ≤ v ∧ v ≤ 16
        | 8 => 1 ≤ v ∧ v ≤ 63
        | 9 => v ≤ 1
        | 10 => v < 16 ∧ v % 4 ≠ 3
        | 11 => v ≤ 1
        | 12 => v < 1024 ∧ v / 32 % 8 ≤ 5 ∧ (v / 16 % 2 = 1 → (tyOfCode (v % 16)).isMx = true)
        | 13 => v < 4096 ∧ v % 8 ≤ 4
        | 14 => v < 2 ^ 23 ∧ v % 64 = 0
        | 15 => v < 512 ∧ v / 16 % 8 ≤ 5 ∧ tyOfCode (v % 16) ∈ ([.e5m2, .e4m3, .e3m2, .e2m3, .e2m1, .bf16, .f16, .hb4, .i8, .i4] : List Ty)
        | 16 => True
        | _ => v < 256
      (missing → exec (.mcfg o) s = .next (trap s ⟨.illfeature, 0, 0⟩)) ∧
      (¬missing → ¬limits → exec (.mcfg o) s = .next (trap s ⟨.illegal, 0, 0⟩)) ∧
      (¬missing → limits → exec (.mcfg o) s = .next ((passed s).modMe fun r => { r with shadow := r.shadow.set f (s.sreg o.s) h }))) ∧
    (s.declares o.acc.val = false → ∀ i ∈ ([.mzero o, .mma o, .mdrain o, .mdrainMerge o] : List Instr),
      exec i s = .next (trap s ⟨.illegal, 0, 0⟩)) ∧
    (s.declares o.acc.val = true → ∃ m, exec (.mzero o) s = .next { (passed s).modMe fun r => { r with
        intSlot := r.intSlot.set o.acc (o.fl.getLsbD 0) } with mem := m } ∧
      ∀ k, memGet m k = if accKey s.core.agent.val (2 ^ 17 * o.acc.val) ≤ k ∧ k < accKey s.core.agent.val (2 ^ 17 * (o.acc.val + 1)) then 0
        else memGet s.mem k) ∧
    (let i : Fin 7 := Fin.ofNat 7 o.fid.val
    let value : Word := if o.fid.val = 6 then Config.meCycles s.free else s.me.counters[i]
    let t : State := ((passed s).setRes value).modMe fun r => { r with counters := if o.fl.getLsbD 0 then r.counters.set i 0 else r.counters }
    exec (.mstat o) s = .next { t with free := if o.fid.val = 6 then s.free + 1 else s.free })

/-- 02 R50, 06 R138, R144-R151, R163, R170: a matrix command that a check of its configuration turns away stops the ME with nothing
written. Any other runs under the shadow configuration, which becomes the active one, and changes only its own accumulator slot,
the registers of the ME, the merged flags and a pending cause of the ME. With one position (K = 1), plain operands of no HB4
type and no merge, each element of the result gains one product. -/
def Obligations.MatrixProducts : Prop :=
  ∀ (o : Mm) (s : State) (i : Instr), MeFree s → Memory.wf s.mem = true →
    i = .mma o ∨ i = .mmaAcca o ∨ i = .mspa o → (i = .mspa o → s.hasFeature 0 = true) →
    s.declares o.acc.val = true → (i = .mmaAcca o → s.declares (o.fl.toNat / 2 % 4) = true) →
    let t := activated s
    let x := meCtx t ⟨i, [], s.scc.idx, s.cp.cseq, Rm.resolve s.fp.fpctl .dyn⟩
    let slot (k : Nat) : Prop := accKey s.core.agent.val (2 ^ 17 * o.acc.val) ≤ k ∧ k < accKey s.core.agent.val (2 ^ 17 * (o.acc.val + 1))
    (∀ e, meCheck t x = .error e → exec i s = .next (meStopped i [] s e)) ∧
    ∀ f, meCheck t x = .ok f → x.m ≤ 128 → x.n ≤ 256 → ∃ u, exec i s = .next u ∧
      (∀ k, ¬slot k → memGet u.mem k = memGet s.mem k) ∧
      (u.me.shadow, u.me.active, u.me.intSlot, u.me.b, u.me.queue) = (s.me.shadow, s.me.shadow, s.me.intSlot, s.me.b, []) ∧
      (let p := passed s
      u = { p with mem := u.mem, free := u.free, core := { p.core with regs := { p.core.regs with
        me := u.core.regs.me
        fp := { s.core.regs.fp with fpflags := u.core.regs.fp.fpflags }
        pend := { s.core.regs.pend with me := u.core.regs.pend.me } } } }) ∧
      (i = .mma o → x.k = 1 → x.pair = false → x.ta ≠ .hb4 → x.tb ≠ .hb4 → 1 ≤ x.n → s.poison = [] →
        bits (s.me.shadow[17]).toNat 0 8 = 0 → 1 ≤ (s.me.shadow[7]).toNat → 1 ≤ (s.me.shadow[8]).toNat →
        u.me.run = none ∧
        ∀ r < 128, ∀ c < 256, accGet u o.acc.val r c =
          if r < x.m ∧ c < x.n then
            (addTerm (s.me.intSlot[o.acc]) x.fzo (accGet s o.acc.val r c)
              ((aElem t x r 0 0).1.term.mul (bElem t x 0 c 0 (allSegs x) 0).term)).1 % 2 ^ 32
          else accGet s o.acc.val r c)

/-- 06 R158, R159, R164, R170, 08 R218: MDRAIN writes the converted matrix of a slot to the own scratchpad, row by row with each row
padded to 64 bytes, and clears the slot with .z; MDRAIN.merge hands the slot to another member, or waits while that member has
no room for it. A bad offset or target, and a layout that does not accept the format, stop the ME. -/
def Obligations.MatrixDrains : Prop :=
  ∀ (o : Mm) (s : State), MeFree s → Memory.wf s.mem = true → s.declares o.acc.val = true → ready s [o.s] = true →
    let v := (s.sreg o.s).toNat
    let t := activated s
    let cfg (i : Fin 18) : Nat := (s.me.shadow[i]).toNat
    let c : Cmd := ⟨.mdrain o, [s.sreg o.s], s.scc.idx, s.cp.cseq, Rm.resolve s.fp.fpctl .dyn⟩
    let stops (e : Fail) : Prop := exec (.mdrain o) s = .next (meStopped (.mdrain o) [s.sreg o.s] s e)
    (v % 64 ≠ 0 ∨ 2 ^ 23 ≤ v → stops ⟨.illegal, 0, 0⟩) ∧
    (v % 64 = 0 → v < 2 ^ 23 →
      (∀ e, drainFmt t c v = .error e → stops e) ∧
      (∀ f h e, drainFmt t c v = .ok (f, h) → o.fl.getLsbD 0 = true → drainFmt t c (cfg 14) = .error e → stops e) ∧
      ∀ f h, drainFmt t c v = .ok (f, h) → (∀ g k, o.fl.getLsbD 0 = true → drainFmt t c (cfg 14) = .ok (g, k) →
        let a := drainOut t f o.acc.val (cfg 0) (cfg 1) 0 (accGet t o.acc.val) fun i j => (i, j)
        let b := drainOut t g o.acc.val (cfg 1) (cfg 0) (2 ^ 40) (fun i j => accGet t o.acc.val j i) fun i j => (j, i)
        (cfg 13 / 2 ^ 11 % 2 = 1 → 0 < a.beyond + b.beyond → stops ⟨.burlovf, 0, 0⟩) ∧
        ((cfg 13 / 2 ^ 11 % 2 = 1 → a.beyond + b.beyond = 0) → nanTrap s = false →
          exec (.mdrain o) s = .next (drainWrite t o v (cfg 14) a (some b) (h ||| k)))) ∧
        (o.fl.getLsbD 0 = false →
          let a := drainOut t f o.acc.val (cfg 0) (cfg 1) 0 (accGet t o.acc.val) fun i j => (i, j)
          (cfg 13 / 2 ^ 11 % 2 = 1 → 0 < a.beyond → stops ⟨.burlovf, 0, 0⟩) ∧
          ((cfg 13 / 2 ^ 11 % 2 = 1 → a.beyond = 0) → nanTrap s = false →
            exec (.mdrain o) s = .next (drainWrite t o v (cfg 14) a none h) ∧
            (f.ty ≠ .hb4 → f.mx = false → cfg 0 ≤ 128 → cfg 1 ≤ 256 → ∃ u g, exec (.mdrain o) s = .next (counted u g false) ∧ SpadOnly t u ∧
              let st : Ty := if s.me.intSlot[o.acc] then .i32 else .f32
              let row := (cfg 1 * f.ty.width + 511) / 512 * 64
              let place (i b : Nat) : Nat := spadAt s.core ((v + row * i + b) % 2 ^ 23)
              let cleared (k : Nat) : Prop := o.fl.getLsbD 2 = true ∧ accKey s.core.agent.val (2 ^ 17 * o.acc.val) ≤ k ∧
                k < accKey s.core.agent.val (2 ^ 17 * (o.acc.val + 1))
              (∀ i < cfg 0, ∀ j < cfg 1, bits (memNumber u row (place i)) (f.ty.width * j) f.ty.width =
                (convertBits st f.ty f.rm false f.fzo f.sat (drawXfer (s.me.shadow[16]) (i * cfg 1 + j)) (accGet s o.acc.val i j)).1 %
                  2 ^ f.ty.width) ∧
              (∀ k, cleared k → memGet u.mem k = 0) ∧
              ∀ k, ¬cleared k → (∀ i < cfg 0, ∀ b < row, k ≠ place i b) → memGet u.mem k = memGet s.mem k)))) ∧
    (let n := peerAgent s.core.agent (v % 8)
    let d : Cmd := ⟨.mdrainMerge o, [s.sreg o.s], s.scc.idx, s.cp.cseq, Rm.resolve s.fp.fpctl .dyn⟩
    let ends (e : Fail) : Prop := exec (.mdrainMerge o) s = .next (meStopped (.mdrainMerge o) [s.sreg o.s] s e)
    let tile : MergeTile := ⟨Fin.ofNat 8 (s.core.agent.val % 8), Fin.ofNat 4 (v / 16), s.me.intSlot[o.acc], slotElems s o.acc.val⟩
    (v / 8 % 2 ≠ 0 ∨ 64 ≤ v → ends ⟨.illegal, 0, 0⟩) ∧
    (v / 8 % 2 = 0 → v < 64 →
      (∀ e, peerCheck s n s.ctx 0 = .error e → ends e) ∧
      (peerCheck s n s.ctx 0 = .ok () → n ≠ s.core.agent →
        let k := s.coreAt n
        (k.task = none ∨ (k.regs.me.run = none ∧ 2 ≤ k.regs.me.mergeBuf.length) →
          exec (.mdrainMerge o) s = .next (((passed s).modMe fun r => { r with queue := [d] }).modCore fun y => { y with
            refused := some (s.core.refused.getD s.now) })) ∧
        (k.task ≠ none → k.regs.me.run = none → k.regs.me.mergeBuf.length < 2 →
          exec (.mdrainMerge o) s = .next (((passed s).setCoreAt n { k with regs := { k.regs with me := { k.regs.me with
            mergeBuf := k.regs.me.mergeBuf ++ [tile] } } }).modCore fun y => { y with refused := none })))))

/-! ## Copy-class commands (08 R229-R253, 07 R193, R200-R203) -/

/-- 07 R193, 08 R229, R230, R233-R242, R250, R253: a copy that may be worked on at once runs its units in order. Complete, it merges
its flags and leaves its engine, or first counts its bytes on its barrier; a cause stops it where it stands. Between two places of
the own scratchpad that share a format, bytes move unchanged; COPYF repeats its pattern. A CPB of a z-register opens a blaze
that its completion lands. -/
def Obligations.Copies : Prop :=
  ∀ (o : Cx) (i : Instr) (s : State), CpFree s → UnitsIdle s → CpAllowed i o s →
    let c := cpCmd i o s
    let h := handed i o s
    let m := moverOf (whoOf h) c
    let at_ (v : State) (r : CopyRun) : State := v.modCp fun p => { p with copies := [r] }
    let stopped (v : State) (r : CopyRun) (f : Fail) : State := (at_ (v.addFlags r.flags) { r with flags := 0 }).modRegs fun y => { y with
      pend := { y.pend with copy := some ⟨f.cause, .copy, false, true, c.idx, BitVec.ofNat 64 (2 ^ 61 + r.units % 2 ^ 61), f.status, f.address⟩ } }
    (i = .copy o ∨ i = .copyf o ∨ i = .pull o ∨ (i = .cpb o ∧ o.za = 0) ∨
        (i = .cph o ∧ openBlazes (passed s) (dieOf s.core.agent) (takeBlazes (passed s) o) = []) →
      let w := runCopy m c (copyPlan m c) none 0 h
      (∀ f, w.out = .fault f → exec i s = .next (stopped w.s ⟨c, w.units, .run, none, [], false, w.flags⟩ f)) ∧
      (∀ b, w.out = .done b →
        (s.sreg o.se = 0 → exec i s = .next (completed i o s w.s w.units w.flags)) ∧
        (s.sreg o.se ≠ 0 → i ≠ .pull o → ∀ u, countOn (at_ w.s ⟨c, w.units, .deliver b, none, [], false, w.flags⟩) (whoOf w.s) (s.sreg o.se) b = .ok u →
          exec i s = .next (completed i o s u w.units w.flags)) ∧
        (s.sreg o.se ≠ 0 → i = .pull o → doneBefore (at_ w.s ⟨c, w.units, .deliver b, none, [], false, w.flags⟩) c.idx = true → ∀ u,
          pullArrives (at_ w.s ⟨c, w.units, .deliver b, none, [], false, w.flags⟩) (whoOf w.s) (s.sreg o.se) = .ok u →
          exec i s = .next (completed i o s u w.units w.flags))) ∧
      -- plain bytes within the own scratchpad
      (∀ x n : Nat, s.sreg o.sa = BitVec.ofNat 64 (0x8000000000000000 + x) → (s.sreg o.sc).toNat = n → 0 < n → x + n ≤ 2 ^ 23 →
        s.sreg o.se = 0 → s.poison = [] → Memory.wf s.mem = true → (∀ b : Fin 32, bankFmt s.core b = bankFmt s.core 0) →
        (bankFmt s.core 0).2.2 = false →
        let result (byte : Nat → Byte) : Prop := ∃ u g, exec i s = .next (completed i o s u 0 g) ∧ SpadOnly h u ∧
          (∀ j < n, memGet u.mem (spadAt s.core (x + j)) = byte j) ∧
          ∀ k, (∀ j < n, k ≠ spadAt s.core (x + j)) → memGet u.mem k = memGet s.mem k
        (i = .copyf o → result fun j => (s.sreg o.sb).extractLsb' (8 * (j % 8)) 8) ∧
        (i ≠ .copyf o → o.xf = 0 → ∀ y : Nat, s.sreg o.sb = BitVec.ofNat 64 (0x8000000000000000 + y) → y + n ≤ 2 ^ 23 →
          x + n ≤ y ∨ y + n ≤ x → result fun j => memGet s.mem (spadAt s.core (y + j))))) ∧
    (i = .cpb o → o.za ≠ 0 → ∀ t z, placeBlaze (h.modCp fun p => { p with copies := [] }) c o.za = some (t, z) →
      let w := runCopy m c (copyPlan m c) none 0 (at_ t ⟨c, 0, .run, some z, [], false, 0⟩)
      let r : CopyRun := ⟨c, w.units, .run, some z, [], false, w.flags⟩
      (∀ b, w.out = .done b → s.sreg o.se = 0 → exec i s = .next (finishRun (settleBlaze w.s (some z) .landed w.units) (whoOf w.s) r)) ∧
      ∀ f, w.out = .fault f → exec i s = .next (settleBlaze (stopped w.s r f) (some z) .failed w.units))

/-- 07 R200-R203, 08 R246: an atomic reads its word, writes the value of its operation, and with ATOMF stores the old word where its
fourth operand says; nothing else changes. A misaligned word or result is ALIGN, with nothing read. -/
def Obligations.Atomics : Prop :=
  ∀ (o : Cx) (i : Instr) (s : State), CpFree s → UnitsIdle s → CpAllowed i o s → i = .atom o ∨ i = .atomf o →
    let h := handed i o s
    let op := o.xf.toNat
    let a := s.sreg o.sa
    let size : Nat := if op = 1 ∨ op = 2 ∨ op = 6 then 4 else if op = 3 then 2 else if op = 7 then (if o.sc.val = 1 then 1 else 4) else 8
    let stopped (e : Fail) : State := (h.addFlags 0).modRegs fun y => { y with pend := { y.pend with
      copy := some ⟨e.cause, .copy, false, true, s.scc.idx, 0x2000000000000000, e.status, e.address⟩ } }
    (a.toNat % size ≠ 0 → exec i s = .next (stopped ⟨.align, BitVec.ofNat 64 size, a⟩)) ∧
    (a.toNat % size = 0 → i = .atomf o → (s.sreg o.sd).toNat % 8 ≠ 0 → exec i s = .next (stopped ⟨.align, 8, s.sreg o.sd⟩)) ∧
    ∀ (key out : Nat → Nat), a.toNat % size = 0 → s.poison = [] → Memory.wf s.mem = true → (∀ b : Fin 32, (bankFmt s.core b).2.2 = false) →
      let d := dieOf s.core.agent
      let page (need : Need) (x n : Nat) (k : Nat → Nat) : Prop := ∃ p, x < 2 ^ 57 ∧ translate s none d s.ctx s.isPriv need x = .ok p ∧
        p.leaf.mode < 2 ∧ p.leaf.check = false ∧ migrationOf s p.key = none ∧ behindHeld s d p o.tc s.ctx x n = false ∧ ∀ j, k j = p.key + j
      let own (x : Nat) (k : Nat → Nat) : Prop := ∃ off < 2 ^ 23, x = 0x8000000000000000 + off ∧ ∀ j, k j = spadAt s.core (off + j)
      own a.toNat key ∨ page .atomic a.toNat size key →
      (i = .atomf o → (s.sreg o.sd).toNat % 8 = 0 ∧ (own (s.sreg o.sd).toNat out ∨ page .write (s.sreg o.sd).toNat 8 out)) →
      let old : Word := BitVec.ofNat 64 (memNumber s size key)
      let v := s.sreg o.sb
      let third := if op = 7 then BitVec.ofNat 64 o.sc.val else s.sreg o.sc
      let new : Nat := match op with
        | 0 => (old + v).toNat
        | 1 => (old + v).toNat % 2 ^ 32
        | 4 => (if old.toInt < v.toInt then v else old).toNat
        | 5 => (if v.toInt < old.toInt then v else old).toNat
        | 8 => v.toNat
        | 9 => (if old = third then v else old).toNat
        | 10 => (old &&& v).toNat
        | 11 => (old ||| v).toNat
        | 12 => (old ^^^ v).toNat
        | 13 => ((old &&& ~~~third) ||| (v &&& third)).toNat
        | 14 => (old ||| (old + 1)).toNat
        | _ => (atomValue op old v third).1
      let stored (j : Nat) : Prop := i = .atomf o ∧ ∃ n < 8, j = out n
      ∃ u g, exec i s = .next (completed i o s u 0 g) ∧
        (∃ l, u = { h with mem := u.mem, dies := u.dies, core := { h.core with ltags := l } }) ∧
        (∀ e : Fin 8, u.dies[e] = { s.dies[e] with dirty := u.dies[e].dirty }) ∧
        (∀ n < size, ¬stored (key n) → memGet u.mem (key n) = BitVec.ofNat 8 (new / 2 ^ (8 * n))) ∧
        (i = .atomf o → ∀ n < 8, memGet u.mem (out n) = old.extractLsb' (8 * n) 8) ∧
        ∀ k, ¬stored k → (∀ n < size, k ≠ key n) → memGet u.mem k = memGet s.mem k

/-- 08 R247-R249, R251, R252: SUBS reads its descriptor and opens a subscription, UNSUB closes one; PREF takes a copy of a line of
another die, INVC drops it, WBC writes a dirty line back, and none of them stores anything; RROT waits for the other members of
its clearing, and the last of them performs the exchange. -/
def Obligations.SubscriptionsAndCaches : Prop :=
  ∀ (o : Cx) (s : State), CpFree s → UnitsIdle s →
    let stopped (i : Instr) (v : State) (e : Fail) : State := (v.addFlags 0).modRegs fun y => { y with pend := { y.pend with
      copy := some ⟨e.cause, .copy, false, true, (cpCmd i o s).idx, 0x2000000000000000, e.status, e.address⟩ } }
    let v (k : Nat) : Word := (cpCmd (.subs o) o s).vals.getD k 0
    (CpAllowed (.subs o) o s →
      let i : Instr := .subs o
      let h := handed i o s
      let m := moverOf (whoOf h) (cpCmd i o s)
      ((v 0).toNat % 64 ≠ 0 → exec i s = .next (stopped i h ⟨.align, 64, v 0⟩)) ∧
      ((v 0).toNat % 64 = 0 →
        (∀ f, readBytes m (v 0) 64 (h, 0) = .error (.fail f) → exec i s = .next (stopped i h f)) ∧
        ∀ d t g, readBytes m (v 0) 64 (h, 0) = .ok (d, t, g) →
          (8 ≤ (v 1).toNat ∨ subOk d = false → exec i s = .next (stopped i t ⟨.illegal, 0, 0⟩)) ∧
          (∀ hn : (v 1).toNat < 8, subOk d = true →
            let b : Subscription := ⟨{ cpCmd i o s with instr := .copy { o with ntf := false, rel := false, acq := false } }, d, 0⟩
            let u := completed i o s (t.modCp fun p => { p with subs := p.subs.set (v 1).toNat (some b) }) 0 0
            slotAsks u (tileBarrier b) = .ok false → exec i s = .next u))) ∧
    (let i : Instr := .unsub o
    (CpAllowed i o s → 8 ≤ (v 1).toNat → exec i s = .next (stopped i (handed i o s) ⟨.illegal, 0, 0⟩)) ∧
    ∀ (b : Option Subscription) (hn : (v 1).toNat < 8),
      let t := s.modCp fun p => { p with subs := p.subs.set (v 1).toNat b }
      CpAllowed i o t → exec i t = .next (completed i o t ((handed i o t).modCp fun p => { p with subs := p.subs.set (v 1).toNat none }) 0 0)) ∧
    (let va := (v 0).toNat
    let d := dieOf s.core.agent
    let one (i : Instr) (f : State → Phys → State) : Prop := CpAllowed i o s →
      ((v 2).toNat = 0 → exec i s = .next (completed i o s (handed i o s) 0 0)) ∧
      (0 < (v 2).toNat → va % 256 + (v 2).toNat ≤ 256 → va < 2 ^ 57 →
        (∀ e, translate s none d s.ctx s.isPriv .read va = .error e → exec i s = .next (completed i o s (handed i o s) 0 0)) ∧
        ∀ p, translate s none d s.ctx s.isPriv .read va = .ok p → exec i s = .next (completed i o s (f (handed i o s) p) 0 0))
    one (.pref o) (fun t p =>
      let k := forwardKey s p.key / 256 * 256
      if p.leaf.mode = 2 ∧ ownerDie s p.leaf.peer ≠ some d ∧ (s.dies[d].cached.all fun l => l.ctx != s.ctx || l.key != k) = true then
        t.modDie d fun x => { x with cached := x.cached ++ [⟨s.ctx, k, s.bytes k 256⟩] }
      else t) ∧
    one (.invc o) (fun t p => t.modDie d fun x => { x with
      cached := x.cached.filter fun l => !(l.ctx == s.ctx && l.key == forwardKey s p.key / 256 * 256) }) ∧
    one (.wbc o) (fun t p => match homeDie s (forwardKey s p.key) with
      | some e => t.modDie e fun x => { x with dirty := eraseKey (forwardKey s p.key / 256) x.dirty }
      | none => t)) ∧
    (CpAllowed (.rrot o) o s →
      let i : Instr := .rrot o
      let h := handed i o s
      let n := (v 2).toNat
      let far : Prop := 2 ^ 23 < (v 0).toNat + n ∨ 2 ^ 23 < (v 1).toNat + n
      let t := h.modCore fun c => { c with rrot := some ⟨cpCmd i o s, s.ctx, s.now⟩ }
      (far → exec i s = .next (stopped i h ⟨.illegal, 0, 0⟩)) ∧
      (¬far → (∀ e, checkBarrier h (whoOf h) (v 4) = .error e → exec i s = .next (stopped i h e)) ∧
        (checkBarrier h (whoOf h) (v 4) = .ok () →
          let cl : Fin 64 := Fin.ofNat 64 (s.core.agent.val / 8)
          ((∃ k ∈ enabledMembers s cl, k ≠ s.core.agent ∧ (s.coreAt k).rrot = none) → exec i s = .next t) ∧
          ((∀ k ∈ enabledMembers s cl, k ≠ s.core.agent → (s.coreAt k).rrot ≠ none) → (exchange cl t).cp.copies = [] →
            (exchange cl t).core.regs.pend.copy = none → exec i s = .next (exchange cl t)))))

/-! ## Steps that no word encodes -/

/-- 01 R27, 03 R63-R65, 09 R281, 11 R331: what the host and firmware do. An access outside the windows is an unsupported request. A
tail of 510 or more sets mberr. Firmware takes the record at head: a launch that a check turns away gets its status and its
vector, in the order of the checks; a launch with no iterations completes at once; an ATTEST record is answered with a report. -/
def Obligations.HostSteps : Prop :=
  ∀ s : State,
    let head := mboxWord s 0
    let r := slotBytes s head
    let empty : Prop := ¬(s.boot.step = 7 ∧ s.boot.failed = false ∧ head ≠ mboxWord s 4)
    let t := setMbox s 0 ((head + 1) % 510)
    let turned (st : Nat) : State := (setStatus t head st).signal (if 63 < leAt r 0x62 1 then 0 else leAt r 0x62 1)
    let attest : Prop := leAt r 0x60 2 / 16 % 2 = 1
    (∀ a, exec (.hostUnsupportedRequest a) s = .next { s with hostAnswer := .unsupported }) ∧
    (∀ v : BitVec 32, exec (.mailboxTailWrite v) s =
      .next { (if 510 ≤ v.toNat then setMbox s 8 1 else setMbox s 4 v.toNat) with hostAnswer := .ok }) ∧
    (empty → exec .launchRecord s = .next s ∧ exec .attestRecord s = .next s) ∧
    (¬empty → attest → exec .launchRecord s = .next s ∧
      (attestOk r = false → exec .attestRecord s = .next (turned 0x81)) ∧
      ∀ nonce, checkAttest t r = .ok nonce → exec .attestRecord s = .next ((setStatus
        (writeVa t (Fin.ofNat 64 (leAt r 0x1C 1)) 300 (leAt r 0x10 8) (report t nonce)) head 2).signal (leAt r 0x62 1))) ∧
    (¬empty → ¬attest → exec .attestRecord s = .next s ∧
      let ctx : Fin 64 := Fin.ofNat 64 (leAt r 0x1C 1)
      let dies := (List.finRange 8).filter fun d => (leAt r 0x63 1).testBit d.val
      let ok : Prop := leAt r 0x1F 1 < 4 ∧ leAt r 0x60 2 < 64 ∧ leAt r 0x78 8 = 0 ∧ leAt r 0x1C 1 < 64 ∧ leAt r 0x63 1 ≠ 0 ∧
        leAt r 0x62 1 < 64 ∧ leAt r 0 8 % 32 = 0
      let mapped : Prop := ∀ d ∈ dies, (s.ctxAt d ctx).ptbase.getLsbD 0 = true
      let obj := readObj t (dies.headD 0) ctx (leAt r 0 8) (boundsOf r)
      (¬ok → exec .launchRecord s = .next (turned 0x81)) ∧
      (ok → ¬mapped → exec .launchRecord s = .next (turned 0x84)) ∧
      (ok → mapped → obj = none → exec .launchRecord s = .next (turned 0x81)) ∧
      ∀ o, ok → mapped → obj = some o →
        let covered : Prop := ∃ d ∈ dies, s.dies[d].featon ≠ 0 ∧ o.features &&& ~~~s.dies[d].featon = 0
        let fits : Prop := poolBytes o + o.spad ≤ 2 ^ 23
        let serial : Prop := ∃ l ∈ s.launches, l.ctx = ctx ∧ l.complete = false ∧ l.serial = BitVec.ofNat 8 (leAt r 0x1D 1)
        (¬covered → exec .launchRecord s = .next (turned 0x82)) ∧
        (covered → ¬fits → exec .launchRecord s = .next (turned 0x83)) ∧
        (covered → fits → serial → exec .launchRecord s = .next (turned 0x85)) ∧
        (covered → fits → ¬serial → exec .launchRecord s = .next (acceptRecord t head r o))) ∧
    (∀ n, (s.launches[n]? = none → exec (.launchComplete n) s = .next s ∧ exec (.successorRootPlace n) s = .next s) ∧
      ∀ l, s.launches[n]? = some l →
        let j := s.joinAt l.join
        let k := mboxKey (0x100 + 128 * l.slot)
        (l.complete = true ∨ j.settled = false → exec (.launchComplete n) s = .next s) ∧
        (l.complete = false → j.settled = true → exec (.launchComplete n) s = .next
          (let u := ((((s.storeLe (k + 0x68) 4 j.ended).storeLe (k + 0x6C) 4 j.failed).storeLe (k + 0x70) 8 j.first.toNat).storeLe (k + 0x64) 4 2)
          { u with launches := u.launches.modify n (fun x => { x with complete := true }), msix := u.msix ++ [l.vector] })) ∧
        (predReady s l = false → exec (.successorRootPlace n) s = .next s) ∧
        (predReady s l = true → ∀ e, (s.tasks.filter fun e => e.place == .waitsPred && e.task.launch == some n) = [e] →
          exec (.successorRootPlace n) s = .next (placeRoot { s with tasks := s.tasks.erase e } l.dieMask e.task)))

/-- 09 R259, R261, R266, R267, R269-R271, 12 R333, R348: what the die schedulers do. A step that does not apply changes nothing. An idle
core takes the first waiting task of its own queue by the stage rule; a task passed over AGEMAX times moves up one level; a task
that overstays its deadline is stopped and saved whole under a DEADLINE record; a pending cause is taken. -/
def Obligations.SchedulerSteps : Prop :=
  ∀ s : State,
    let back (u : State) : State := u.focus s.core.agent
    (∀ n, (usable s n = false ∨ (s.coreAt n).task ≠ none → exec (.coreIdleRequest n) s = .next s) ∧
      (usable s n = true → (s.coreAt n).task = none → chooseOwn s n = none → steal s n = none → exec (.coreIdleRequest n) s = .next s) ∧
      ∀ pre e post, usable s n = true → (s.coreAt n).task = none → s.tasks = pre ++ e :: post → e.task.stage < 4 →
        let waits (x : TaskEnt) (p : Nat) : Prop := (∃ c since k, x.place = .ready c since k p ∧ c = n) ∧ mayStart s n x = true
        ∀ p < 4, waits e p → (∀ x ∈ s.tasks, ∀ q < p, ¬waits x q) →
          (∀ x ∈ s.tasks, waits x p → x.task.stage < 4 → x.task.stage ≤ e.task.stage) →
          (∀ x ∈ pre, waits x p → x.task.stage ≠ e.task.stage) →
          exec (.coreIdleRequest n) s = .next (yreqScan (startOn s n e) (dieOf n))) ∧
    (∀ k, (s.tasks[k]? = none → exec (.agingPromotion k) s = .next s ∧ exec (.readyWaitExpiry k) s = .next s ∧
        exec (.storeStageWrite k) s = .next s ∧ ∀ n, exec (.loadTileDelivery k n) s = .next s) ∧
      ∀ e, s.tasks[k]? = some e →
        (∀ c since passed level, e.place = .ready c since passed level →
          let due : Prop := 0 < level ∧ 0 < passed ∧ s.dies[dieOf c].agemax.toNat ≤ passed
          (¬due → exec (.agingPromotion k) s = .next (yreqScan s (dieOf c))) ∧
          (due → exec (.agingPromotion k) s =
            .next (yreqScan { s with tasks := s.tasks.set k { e with place := .ready c since 0 (level - 1) } } (dieOf c))) ∧
          let over_ (x : Task) : Prop := x.prio = level ∧ s.deadlineOf x < s.dies[dieOf c].cycle.toNat - since
          ((∀ x, (s.coreAt c).task = some x → ¬over_ x) → exec (.readyWaitExpiry k) s = .next s) ∧
          (∀ x, (s.coreAt c).task = some x → over_ x → exec (.readyWaitExpiry k) s = .next (raiseYreq s c false))) ∧
        ∀ n, e.place = .stage n →
          (e.task.obj.roleOf e.task.stage = .load → e.task.hi ≤ e.task.cur →
            exec (.loadTileDelivery k n) s = .next ((takeEnt s e).childEnds e.task.join none none)) ∧
          (e.task.obj.roleOf e.task.stage = .load → e.task.cur < e.task.hi → queueFull s n e.task 0 = true →
            exec (.loadTileDelivery k n) s = .next s) ∧
          (e.task.obj.roleOf e.task.stage = .load → e.task.cur < e.task.hi → queueFull s n e.task 0 = false →
            storeFreeKept s (dieOf n) = true → ∀ x b d y, stageCore s n e.task = some x →
            ((x.coreAt n).pool.find? fun b => some b.launch == e.task.launch && b.stage == 0 && b.free) = some b →
            stageDesc x (dieOf n) e.task = .ok d → walkOk d = true → leAt d 0x28 4 ≤ b.bytes →
            (let c := stageCopy (BitVec.ofNat 64 (0x8000000000000000 + b.off)) (tileSource d e.task.cur) (leAt d 0x28 4)
            let m := moverOf (stageWho x n e.task) c
            ∃ k g b, runCopy m c (copyPlan m c) none 0 x = ⟨y, k, g, .done b⟩) →
            let z := passBuffer y n e.task ⟨b.gen, b.off⟩ e.task.cur (e.task.cur + 1) 1 none
            let f : TaskEnt := { e with task := { e.task with cur := e.task.cur + 1, ran := true } }
            let v : State := { z with tasks := z.tasks.map fun w => if w = e then f else w }
            exec (.loadTileDelivery k n) s =
              .next (if e.task.hi ≤ e.task.cur + 1 then (takeEnt v f).childEnds e.task.join none none else v)) ∧
          (e.task.obj.roleOf e.task.stage = .store → inputReady (s.coreAt n) e.task = false →
            exec (.storeStageWrite k) s = .next s) ∧
          (e.task.obj.roleOf e.task.stage = .store → inputReady (s.coreAt n) e.task = true → ∀ d,
            stageDesc s (dieOf n) e.task = .ok d → walkOk d = true → ∀ x,
            storeTiles n e.task d (BitVec.ofNat 64 (0x8000000000000000 + (handleOf e.task.inbound).off)) (e.task.hi - e.task.lo) e.task.lo s =
              (x, none) →
            let y := x.setCoreAt n (freeBuffer (x.coreAt n) (handleOf e.task.inbound))
            exec (.storeStageWrite k) s = .next ((takeEnt y e).childEnds e.task.join none none))) ∧
    (∀ n, let u := s.focus n
      let x := stopArray (drain u)
      (u.core.task = none → exec (.deadlineExpiry n) s = .next (back u) ∧ exec (.holdingTaskSave n) s = .next (back u)) ∧
      (∀ t, u.core.task = some t →
        let due : Prop := ∃ c, u.core.yreq = some c ∧ c + u.deadlineOf t ≤ u.now
        (¬due ∨ saveFree u = false → exec (.deadlineExpiry n) s = .next (back u)) ∧
        (due → saveFree u = true →
          (quiet x = false ∨ veRests x = false → exec (.deadlineExpiry n) s = .next (back x)) ∧
          (quiet x = true → veRests x = true → roomFor x (dieOf x.core.agent) (imageSize t.obj true true) ≠ none →
            let w := deadlineRecord x t (if x.core.parkReq then .park else .replay) false
            ∀ y i, saveTask w.1 t true true true 0x18 w.2 none = some (y, i) →
              exec (.deadlineExpiry n) s = .next (back (placeSaved y x.core.agent t i x.core.parkReq)))) ∧
        let held : Prop := holdsForOthers u = true ∧ othersWait u u.core.agent = true ∧ saveFree u = true
        (¬held → exec (.holdingTaskSave n) s = .next (back u)) ∧
        (held → quiet x = true → veRests x = true → ∀ y i, saveTask x t true true true 0 0 none = some (y, i) →
          exec (.holdingTaskSave n) s = .next (back (placeSaved y x.core.agent t i x.core.parkReq)))) ∧
      (u.core.regs.pend.all = [] → exec (.causeTaken n) s = .next (back u)) ∧
      (u.core.regs.pend.all ≠ [] → exec (.causeTaken n) s = .next (back (takePending (stopArray u))))) ∧
    ∀ d : Fin 8,
      (s.dies[d].forwarded = [] → exec (.taskForwardReceive d) s = .next s) ∧
      (∀ t f rest, s.dies[d].forwarded = (t, f) :: rest →
        let p := placeHere (s.modDie d fun x => { x with forwarded := rest }) d 0 t
        (f = none → exec (.taskForwardReceive d) s = .next p.1) ∧
        ∀ n, f = some n →
          let c := p.1.coreAt n
          (c.regs.scc.sent = false → exec (.taskForwardReceive d) s = .next p.1) ∧
          (c.regs.scc.sent = true → exec (.taskForwardReceive d) s = .next (p.1.setCoreAt n { c with regs := { c.regs with
            scc := { c.regs.scc with answer := some (p.2.setWidth 64) } } }))) ∧
      ((∀ e ∈ s.tasks, e.place = .parked d 15 → ∀ i, e.image = some i → placeParked s d e i = none) →
        exec (.featureParkPlace d) s = .next s) ∧
      ∀ pre e post i t, s.tasks = pre ++ e :: post → e.place = .parked d 15 → e.image = some i → placeParked s d e i = some t →
        (∀ x ∈ pre, x.place = .parked d 15 → ∀ j, x.image = some j → placeParked s d x j = none) → exec (.featureParkPlace d) s = .next t

/-- 06 R151, R159, R160, R166, 07 R180, R200, 08 R248, R251, R253, 11 R320: what the engines of a core do in a step of their own. A step
that does not apply to the core changes nothing of it; one that does advances its engine by one command, tile or merge. -/
def Obligations.EngineSteps : Prop :=
  ∀ (s : State) (n : Fin 512),
    let u := s.focus n
    let does (i : Instr) (v : State) : Prop := exec i s = .next (v.focus s.core.agent)
    -- copies, deliveries and atomics
    (∀ k, (u.cp.copies[k]? = none → does (.copyComplete n k) u ∧ does (.barrierDelivery n k) u ∧ does (.atomicUnitPerform n k) u) ∧
      ∀ r, u.cp.copies[k]? = some r →
        (mayWork u r = false → does (.copyComplete n k) u) ∧
        (mayWork u r = true → (workRun u k none).core.regs.pend = u.core.regs.pend → does (.copyComplete n k) (workRun u k none)) ∧
        (mayWork u r = true → (workRun u k none).core.regs.pend ≠ u.core.regs.pend → does (.copyComplete n k) u) ∧
        (∀ b, r.phase = .deliver b → isPull r.cmd.instr = false → does (.barrierDelivery n k) (deliverRun u (whoOf u) r b)) ∧
        ((∀ b, r.phase ≠ .deliver b) → does (.barrierDelivery n k) u) ∧
        (∀ o f, (r.cmd.instr = .atom o ∧ f = false) ∨ (r.cmd.instr = .atomf o ∧ f = true) → r.phase = .run → mayWork u r = true →
          does (.atomicUnitPerform n k) (workAtom u k r o f)) ∧
        ((∀ o, r.cmd.instr ≠ .atom o ∧ r.cmd.instr ≠ .atomf o) → does (.atomicUnitPerform n k) u)) ∧
    -- subscriptions
    (∀ id : Fin 8, (u.cp.subs[id] = none ∨ u.core.task = none ∨ u.core.regs.pend.copy ≠ none → does (.subscriptionTileDelivery n id) u) ∧
      ∀ b, u.cp.subs[id] = some b → u.core.task ≠ none → u.core.regs.pend.copy = none →
        (subTiles b.desc ≤ b.next → does (.subscriptionTileDelivery n id) u) ∧
        (b.next < subTiles b.desc →
          (slotAsks u (tileBarrier b) = .ok false → does (.subscriptionTileDelivery n id) u) ∧
          (slotAsks u (tileBarrier b) = .ok true →
            let m := moverOf (whoOf u) (tileCmd b)
            let w := runCopy m (tileCmd b) (tilePlan m b) none 0 u
            ∀ k, w.out = .done k →
              let t := (w.s.addFlags w.flags).modCp fun p => { p with subs := p.subs.set id (some { b with next := b.next + 1 }) }
              ∀ v, countOn t (whoOf t) (tileBarrier b) k = .ok v → does (.subscriptionTileDelivery n id) v))) ∧
    -- rotation
    (∀ cl, let l := enabledMembers s cl
      let ws := l.filterMap fun k => (s.coreAt k).rrot
      (l = [] ∨ ws.length ≠ l.length → exec (.rrotExchange cl) s = .next s) ∧
      (l ≠ [] → ws.length = l.length →
        let len (w : RrotWait) : Word := w.cmd.vals.getD 2 0
        ((∃ a ∈ ws, ∃ b ∈ ws, len a ≠ len b) →
          exec (.rrotExchange cl) s = .next (l.foldl (fun x k => failRrot k ⟨.illegal, 0, 0⟩ x) s)) ∧
        ((∀ a ∈ ws, ∀ b ∈ ws, len a = len b ∧ a.ctx = b.ctx) →
          ∀ data : List (List Byte × Flags), (l.zip ws).map (fun x => rrotSource s x.1 x.2) = data.map Except.ok →
            exec (.rrotExchange cl) s =
              .next (((l.drop 1 ++ l.take 1).zip data).foldl (fun x d => rrotReceive x d.1 d.2) s)))) ∧
    (let t := u.die.bartmo.toNat
    ((∀ w, u.core.rrot = some w → t = 0 ∨ u.now - w.since ≤ t) → does (.rrotTimeout n) u) ∧
      ∀ w, u.core.rrot = some w → t ≠ 0 → t < u.now - w.since →
        does (.rrotTimeout n) (failRrot u.core.agent ⟨.stagetimeout, 0, w.cmd.vals.getD 4 0⟩ u)) ∧
    -- the array and its merges
    (let lim := u.die.bartmo.toNat
      let sends : Prop := u.core.regs.pend.me = none ∧ u.me.run = none ∧ ∃ c cs o, u.me.queue = c :: cs ∧ c.instr = .mdrainMerge o
      (¬sends → does (.mergeTileArrival n) u ∧ does (.mergeRetry n) u ∧ does (.mergeRefusedTimeout n) u) ∧
      (sends → u.core.refused = none → does (.mergeTileArrival n) (meStep u) ∧ does (.mergeRetry n) u ∧ does (.mergeRefusedTimeout n) u) ∧
      (∀ t c cs, sends → u.me.queue = c :: cs → u.core.refused = some t → does (.mergeTileArrival n) u ∧ does (.mergeRetry n) (meStep u) ∧
        (lim = 0 ∨ u.now < t + lim → does (.mergeRefusedTimeout n) u) ∧
        (lim ≠ 0 → t + lim ≤ u.now → does (.mergeRefusedTimeout n) (meStop (u.modCore fun k => { k with refused := some u.now })
          ⟨.stagetimeout, .me, false, true, c.idx, 0, BitVec.ofNat 64 ((c.vals.getD 0 0).toNat % 8), 0⟩))) ∧
      (u.me.run = none → does (.arrayStep n) u ∧ does (.mergeWaitTimeout n) u) ∧
      ∀ r, u.me.run = some r →
        (u.core.regs.pend.me ≠ none → does (.arrayStep n) u ∧ does (.mergeWaitTimeout n) u) ∧
        (u.core.regs.pend.me = none →
          (r.phase = 1 → does (.arrayStep n) (runStep u r)) ∧ (r.phase ≠ 1 → does (.arrayStep n) u) ∧
          let late : Prop := r.phase = 2 ∧ awaitedMembers u r ≠ [] ∧ lim ≠ 0 ∧ r.since + lim ≤ u.now
          (¬late → does (.mergeWaitTimeout n) u) ∧
          (late → does (.mergeWaitTimeout n) (meStop (((mergeRun u { r with since := u.now }).1).setRun (some (mergeRun u { r with since := u.now }).2))
            ⟨.stagetimeout, .me, false, true, r.cmd.idx, meMpc 2 0 0 r.merged.toNat,
              BitVec.ofNat 64 (((awaitedMembers u r).map fun k => 2 ^ k).sum), 0⟩)))) ∧
    -- transfers and refused accesses
    (∀ k : Fin 16, ((∀ l, u.ve.landing[k] = some l → l.data ≠ none) → does (.accrdLand n k) u) ∧
      ∀ l, u.ve.landing[k] = some l → l.data = none → veBlocked u ⟨.accrd l.cmd, [], l.idx, 0, .rne⟩ = false →
        let res := landResults u l
        firstNan u l.cmd.dty res = none → ∃ x,
          does (.accrdLand n k) (counted (u.setLanding k (some { l with data := some x })) (flagsOf 0 res) false) ∧
            ∀ e ∈ res, elem l.cmd.dty x e.1 = e.2.1 % 2 ^ l.cmd.dty.width) ∧
    ∀ k, (u.ord.flights[k]? = none → does (.clearingRingRetry n k) u) ∧
      ∀ f, u.ord.flights[k]? = some f → f.value = none → (∃ m off, classify u.core.agent f.addr = .peer m off) →
        (∀ t v, portAccess u f = .done t v → does (.clearingRingRetry n k)
          (t.modOrd fun o => { o with flights := o.flights.set k { f with value := some v } })) ∧
        (∀ e, portAccess u f = .fails e → does (.clearingRingRetry n k)
          (portFault (u.modOrd fun o => { o with flights := o.flights.eraseIdx k }) f e))

/-- 07 R193-R198, 11 R323, R324: blazes, held CPHs and migrations. A blaze that is not pending does not change. A CPH enters the
hold queue of its destination while that has room; an answer FAILED or HOLDLIM cycles without an answer discards it, the last
LANDED performs it. A migration begins at a threshold, moves its page with a frame of the destination's pool, and ends with the
last acknowledgement, which gives the old frame back. -/
def Obligations.BlazesAndMigrations : Prop :=
  ∀ s : State,
    (∀ (d : Fin 8) (e : Fin 4096),
      ((∀ b, lookupKey e.val s.dies[d].blazes = some b → b.state ≠ .pending) →
        exec (.blazeLanded d e) s = .next s ∧ exec (.blazeFailed d e) s = .next s) ∧
      ∀ b n r, lookupKey e.val s.dies[d].blazes = some b → b.state = .pending →
        let u := s.focus b.agent
        let z : BlazeRef := ⟨peerOf s.pkg d.val, e, b.gen⟩
        let t := (workRun u n none).focus s.core.agent
        (u.cp.copies.findIdx? fun x => x.blaze.any fun y => y.entry == e && y.gen == b.gen) = some n → u.cp.copies[n]? = some r →
        mayWork u r = true →
          (blazeState t z = .landed → exec (.blazeLanded d e) s = .next t) ∧ (blazeState t z ≠ .landed → exec (.blazeLanded d e) s = .next s) ∧
          (blazeState t z = .failed → exec (.blazeFailed d e) s = .next t) ∧ (blazeState t z ≠ .failed → exec (.blazeFailed d e) s = .next s)) ∧
    (∀ (a : Fin 512) n,
      let u := s.focus a
      (∀ r, u.cp.copies[n]? = some r → r.phase = .run → r.carried ≠ [] → mayWork u r = true →
        exec (.watcherRegister a n) s = .next ((sendCph u n r).focus s.core.agent)) ∧
      (u.cp.copies[n]? = none → exec (.watcherRegister a n) s = .next (u.focus s.core.agent)) ∧
      let l := (List.finRange 8).flatMap fun d => (s.dies[d].hold.filter fun h => h.since.isNone && h.who.actor.agent == a).map fun h => (d, h)
      (l[n]? = none → exec (.cphArrival a n) s = .next s) ∧
      ∀ d h, l[n]? = some (d, h) →
        let room : Prop := firstOfFlow s d h = true ∧ (s.dies[d].hold.filter fun x => x.since.isSome).length < 512
        (¬room → exec (.cphArrival a n) s = .next s) ∧
        (room → exec (.cphArrival a n) s = .next (replaceHold s d h { h with since := some s.dies[d].cycle.toNat }))) ∧
    (∀ (d : Fin 8) n,
      (s.dies[d].hold[n]? = none → exec (.watch d n) s = .next s ∧ exec (.landed d n) s = .next s ∧ exec (.failed d n) s = .next s ∧
        exec (.holdlimExpiry d n) s = .next s) ∧
      ∀ h, s.dies[d].hold[n]? = some h →
        (h.since = none → exec (.watch d n) s = .next s) ∧
        (h.since ≠ none → exec (.watch d n) s = .next (replaceHold s d h { h with watched := true })) ∧
        (h.watched = false → exec (.landed d n) s = .next s ∧ exec (.failed d n) s = .next s) ∧
        (h.watched = true →
          let told (b : Bool) : HoldEnt := { h with blazes := h.blazes.map fun x =>
            (x.1, x.2.1, if x.2.2 = none ∧ answerOf s x.1 = some b then some b else x.2.2) }
          let heard (b : Bool) (t : State) : State :=
            (h.blazes.filter fun x => x.2.2 == none && answerOf s x.1 == some b).foldl (fun y x => unwatch y x.1) t
          let step (b : Bool) (i : Instr) : Prop :=
            let k := told b
            let t := replaceHold s d h k
            ((∃ x ∈ k.blazes, x.2.2 = some false) → exec i s = .next (heard b (discardHold t d k))) ∧
            ((∀ x ∈ k.blazes, x.2.2 = some true) → exec i s = .next (performHold (heard b t) d k)) ∧
            ((∀ x ∈ k.blazes, x.2.2 ≠ some false) → (∃ x ∈ k.blazes, x.2.2 ≠ some true) → exec i s = .next (heard b t))
          step true (.landed d n) ∧ step false (.failed d n)) ∧
        let late : Prop := s.dies[d].holdlim.toNat ≠ 0 ∧ (∃ x ∈ h.blazes, x.2.2 = none) ∧
          ∃ c, h.since = some c ∧ c + s.dies[d].holdlim.toNat ≤ s.dies[d].cycle.toNat
        (¬late → exec (.holdlimExpiry d n) s = .next s) ∧
        (late → exec (.holdlimExpiry d n) s = .next (discardHold s d h))) ∧
    (∀ (d : Fin 8) (page : Nat),
      let key := hbmKey (peerOf s.pkg d.val) (page % 2 ^ 25 * 4096)
      (migAt s d key = none →
        ((∀ c ∈ s.dies[d].migCounts, c.page = key / 4096 → reached s d c = false) → exec (.migration d page) s = .next s) ∧
        ∀ pre c post, s.dies[d].migCounts = pre ++ c :: post → c.page = key / 4096 → reached s d c = true →
          (∀ x ∈ pre, x.page = key / 4096 → reached s d x = false) →
          exec (.migration d page) s = .next (s.modDie d fun x => { x with migs := x.migs ++ [⟨c.ctx, c.va / 4096 * 4096, key, 0, c.die, false, [], []⟩] })) ∧
      ∀ m, migAt s d key = some m →
        (m.moved = true → exec (.migration d page) s = .next s) ∧
        (m.moved = false → (popFrame s m.dest = none ∨ pteKey s m.dest m.ctx m.page = none) →
          exec (.migration d page) s = .next (resetCounts (setMig s d m.oldKey fun _ => none) d (m.oldKey / 4096))) ∧
        (m.moved = false → ∀ t f k, popFrame s m.dest = some (t, f) → pteKey s m.dest m.ctx m.page = some k →
          let peer := peerOf s.pkg m.dest.val
          let dst := hbmKey peer (f % 2 ^ 25 * 4096)
          let u := copyPage t m.oldKey dst
          let e := u.le k 16
          exec (.migration d page) s = .next (setMig (u.storeLe k 16
            (e - e / 2 ^ 16 % 2 ^ 40 * 2 ^ 16 - e / 2 ^ 64 % 2 ^ 15 * 2 ^ 64 + f % 2 ^ 40 * 2 ^ 16 + peer.toNat * 2 ^ 64)) d m.oldKey fun x =>
              some { x with newKey := dst, moved := true, waiting := List.finRange 8 }))) ∧
    (∀ d b : Fin 8,
      ((∀ m ∈ s.dies[d].migs, m.moved = true → b ∉ m.waiting) → exec (.shootdownAck d b) s = .next s) ∧
      ∀ pre m post, s.dies[d].migs = pre ++ m :: post → m.moved = true → b ∈ m.waiting →
        (∀ x ∈ pre, x.moved = true → b ∉ x.waiting) →
        let t := shootDown s b m.ctx m.page
        let k : Migration := { m with waiting := m.waiting.filter (· != b) }
        (k.waiting = [] → exec (.shootdownAck d b) s = .next (resetCounts
          (pushFrame (setMig t d m.oldKey fun _ => none) d (m.oldKey % 2 ^ 37 / 4096)) d (m.oldKey / 4096))) ∧
        (k.waiting ≠ [] → exec (.shootdownAck d b) s = .next (setMig t d m.oldKey fun _ => some k))) ∧
    ∀ (d : Fin 8) n,
      let l := s.dies[d].migs.flatMap fun m => m.held.map fun h => (m, h)
      (l[n]? = none → exec (.migholdExpiry d n) s = .next s) ∧
      ∀ m h, l[n]? = some (m, h) →
        let late : Prop := s.dies[d].mighold.toNat % 2 ^ 32 < s.dies[d].cycle.toNat - h.2.2
        (¬late → exec (.migholdExpiry d n) s = .next s) ∧
        (late → exec (.migholdExpiry d n) s = .next (setMig (migTimeout s h) d m.oldKey fun y => some { y with held := y.held.erase h }))

/-- 07 R190, R191, 09 R284-R289: what the fabric does with packets. A packet that is not where a step finds it does not change. On
the ring a packet is delivered in the order of its flow, goes round once more, enters the overflow store or is refused with
everything behind it; a refused one starts again at its back-off; a hop follows the dimension order, takes a credit and may mark
the packet; a packet blocked too long takes the escape channel; a marked response schedules one rotation of the path. -/
def Obligations.FabricSteps : Prop :=
  ∀ s : State,
    (∀ n, pktAt s n = none → ∀ i ∈ ([.injectionLimitRelease n, .ringSlotArrival n true, .ringSlotArrival n false, .resendBackoffExpiry n,
      .torusHop n true, .torusHop n false, .linkFlitRetransmit n, .dlrMove n] : List Instr), exec i s = .next s) ∧
    (∀ n p, pktAt s n = some p →
      let before := earlierOf s p
      exec (.linkFlitRetransmit n) s = .next (setPkt s { p with badFlit := false }) ∧
      (let free : Prop := p.place = .inject ∧ limitAllows s p = true ∧ ∀ q ∈ before, q.place ≠ .inject
      (free → exec (.injectionLimitRelease n) s = .next (launchPkt s p)) ∧ (¬free → exec (.injectionLimitRelease n) s = .next s)) ∧
      (∀ laps takes, p.place = .ring laps →
        let i : Instr := .ringSlotArrival n takes
        let taken : Prop := before = [] ∧ (takes = true ∨ p.tc = 0)
        let stored (q : Packet) : Prop := ∃ k, q.place = .overflow k
        (taken → exec i s = .next (deliverPkt s p)) ∧
        (¬taken → laps = 0 → exec i s = .next (setPkt s { p with place := .ring 1 })) ∧
        (¬taken → laps ≠ 0 → (∃ q ∈ before, ¬stored q) → exec i s = .next (setPkt s { p with place := .ring (laps + 1) })) ∧
        (¬taken → laps ≠ 0 → (∀ q ∈ before, stored q) →
          (overflowBytes s p.dst + 32 + p.bytes ≤ 196608 → exec i s =
            .next (setPkt { s with packetNum := s.packetNum + 1 } { p with place := .overflow s.packetNum })) ∧
          (196608 < overflowBytes s p.dst + 32 + p.bytes → exec i s = .next (refusePkt s p)))) ∧
      (∀ t, p.place = .retry t →
        let due : Prop := t ≤ 2 * s.dies[peerDie p.src].cycle.toNat ∧ before = []
        (¬due → exec (.resendBackoffExpiry n) s = .next s) ∧
        (due → exec (.resendBackoffExpiry n) s = .next ((p :: laterPkts s p).foldl (fun x q => match q.place with
          | .retry _ => setPkt x { q with place := startPlace x q }
          | _ => x) s))) ∧
      (∀ c full, p.channel = some c →
        let i : Instr := .torusHop n full
        let goes : Prop := canHop s p = true ∧ classZeroFirst s p = false
        (¬goes → exec i s = .next s) ∧
        (goes → hopOf s p c.1 c.2.2 = none → exec i s = .next (touchHead (setPkt s { p with place := .ring 0 }) p)) ∧
        (goes → ∀ h, hopOf s p c.1 c.2.2 = some h →
          let next := neighbour s c.1 h
          let out := torusPort (routeEntropy p.entropy) h
          let fills : Prop := c.2.2 = false ∧ (full = true ∨ 48 < channelFlits s next out p.tc false + p.flits)
          ∃ place marked, exec i s = .next (touchHead (setPkt s { p with place := place, marked := marked }) p) ∧
            (place = if next = pkgOf p.dst then .ring 0 else if c.2.2 then .escape next (some out)
              else .torus next (some out) (2 * s.dies[channelBridge p (some out)].cycle.toNat)) ∧
            (marked = true ↔ p.marked = true ∨ p.answers = none ∧ fills))) ∧
      (∀ g q since, p.place = .torus g q since →
        let d := channelBridge p q
        let timer := s.dies[d].dlrtimer.toNat
        let blocked : Prop := g = s.pkg ∧ headOf s p = some p ∧ timer ≠ 0 ∧ since + timer ≤ 2 * s.dies[d].cycle.toNat
        (¬blocked → exec (.dlrMove n) s = .next s) ∧
        (blocked → exec (.dlrMove n) s = .next ((touchHead ((p :: laterPkts s p).foldl (fun x r =>
            if r.channel = p.channel then setPkt x { r with place := .escape g q } else x) s) p).modDie d fun x =>
          { x with bridge := { x.bridge with dlrmoves := x.bridge.dlrmoves + 1 } })))) ∧
    (∀ (d : Fin 8) (tc : Fin 4),
      let dst := peerOf s.pkg d.val
      ((∀ p ∈ s.packets, ∀ k, p.place = .overflow k → p.dst = dst → p.tc ≠ tc) → exec (.overflowStoreDrain d tc) s = .next s) ∧
      ∀ pre p post k, s.packets = pre ++ p :: post → p.place = .overflow k → p.dst = dst → p.tc = tc →
        (∀ q ∈ s.packets, ∀ j, q.place = .overflow j → q.dst = dst → q.tc = tc → k ≤ j) →
        (∀ q ∈ pre, q.place = .overflow k → q.dst = dst → q.tc ≠ tc) → exec (.overflowStoreDrain d tc) s = .next (deliverPkt s p)) ∧
    ∀ (d : Fin 8) (peer : BitVec 15),
      let own := peerOf s.pkg d.val
      let answer (p : Packet) : Prop := p.place = .delivered ∧ p.answers ≠ none ∧ p.marked = true ∧ p.src = peer ∧ p.dst = own
      ((∀ p ∈ s.packets, ¬answer p) → exec (.markedResponse d peer) s = .next s) ∧
      (∀ pre p post, s.packets = pre ++ p :: post → answer p → (∀ q ∈ pre, ¬answer q) → exec (.markedResponse d peer) s =
        .next (({ s with packets := s.packets.filter fun q => q.num != p.num }).modDie d fun x => { x with bridge := { x.bridge with
          rotate := if peer ∈ x.bridge.rotate then x.bridge.rotate else x.bridge.rotate ++ [peer] } })) ∧
      let quiet_ : Prop := ∀ p ∈ s.packets, p.src = own → p.dst = peer → p.answers ≠ none ∧ p.place = .delivered
      (peer ∉ s.dies[d].bridge.rotate ∨ ¬quiet_ → exec (.entropyQuietPoint d peer) s = .next s) ∧
      (peer ∈ s.dies[d].bridge.rotate → quiet_ → exec (.entropyQuietPoint d peer) s = .next (s.modDie d fun x => { x with bridge := { x.bridge with
        entropy := (x.bridge.entropy.filter fun y => y.1 != peer) ++ [(peer, (entropyFor s own peer + 5) % 12)]
        rotate := x.bridge.rotate.erase peer } }))

/-! ## The machine as a whole -/

/-- 02 R31-R56: whatever well-formed instruction is encoded, its word and its CONT word, read in a lane of its class, decode to
that instruction, with every operand at every value that the encoding admits. -/
def Obligations.EncodeDecode : Prop :=
  ∀ (i : Instr) (e : Encoded), i.wf = true → encode i = some e → e.decode = .ok i

/-- The canonical form of memory (logs 1 and 2): no step of the package, by a core, an engine, a scheduler, the fabric, the host
or a reset, leaves a byte listed twice, out of order, or listed with the value that an unlisted byte reads as. -/
def Obligations.StepKeepsMemoryForm : Prop :=
  ∀ s t : State, Memory.wf s.mem = true → step s = .next t → Memory.wf t.mem = true

/-- 04 R82, 06 R145, 07 R196, 08 R213, R255, 09 R269, R288, R289, 11 R311, R313, R325, R326, 12 R338, R357, R361: the values that the
spec gives registers at reset, and that memory has its canonical form. -/
def Obligations.ResetState : Prop :=
  let s := State.reset
  Memory.wf s.mem = true ∧ s.boot.step = 0 ∧ s.core.task = none ∧
  (∀ b : Fin 32, s.core.bfmt[b] = 0) ∧ s.core.ttcfg = 0 ∧ s.core.ttab = [] ∧
  s.me.shadow = #v[128, 256, 32, 0, 0, 0, 0, 16, 63, 0, 0, 1, 0, 0x7FC, 0, 1, 0, 0] ∧ s.fp = ⟨0, 0, 0, 0⟩ ∧
  (∀ r : SReg, s.sreg r = 0) ∧ s.preg 0 = BitVec.allOnes 64 ∧
  ∀ d : Fin 8, let x := s.dies[d]
    (∀ n : Fin 8, ∀ j < 16, x.afftab[n].toNat / 2 ^ (4 * j) % 16 = (16 * n.val + j) / 16) ∧
    x.hashmask = #v[0x104104100, 0x208208200, 0x410410400, 0x820820800, 0x41041000, 0x82082000] ∧
    x.featon = 0 ∧ x.featWritten = false ∧ x.dlrtimer = 65536 ∧ x.holdlim = 2 ^ 20 ∧ x.bartmo = 2 ^ 24 ∧ x.agemax = 64 ∧
    x.tclim = 51 ∧ x.mighold = 262144 ∧ x.chkctl = 0x1000 ∧ x.poisonlog = 0 ∧ x.wdogctl = 0 ∧ x.framepool = 0 ∧ x.parkask = 0 ∧
    x.taskstore = 0 ∧ x.savearea = 0 ∧ x.savelen = 0 ∧ x.dielog = 0 ∧ x.rtagbase = 0 ∧ x.rtagwin = 0 ∧
    ∀ c : Fin 64, s.ctxAt d c = ⟨0, 0, BitVec.ofNat 64 (2 ^ 31 + 0x7FF8 * 2 ^ 16 + 8 * s.pkg.toNat), 0, 0, 0, []⟩

/-- 02 R34-R36, R55, 05 R89 (logs 3, 4, 5, 21): with no turn waiting, a step is a cycle of the core in focus: its engines and its die's
timeouts act, and then, if no cause and no save comes first, the SCC runs what stands in the lane that PCQ0 names: the instruction
that the lane's class and words decode to, an EMPTY lane as a search for the next one, a nullified lane as no operation; what cannot be
fetched or is no instruction traps. Where the instruction holds, a pending cause is taken, or a save that waits for it. With a turn waiting,
the step is that turn. -/
def Obligations.StepRunsDecoded : Prop :=
  (∀ (s : State) (t : Turn) (rest : List Turn), s.turns = t :: rest → let u : State := { s with turns := rest }
    (step s = turnStep t u) ∧
    (∀ n, t = .issue n → u.disabled n = false → step s = issueStep (u.focus n)) ∧
    (∀ i, t = .event i → encode i = none → step s = exec i u)) ∧
  (∀ s : State, s.turns = [] → step s = issueStep (prepare s)) ∧
  (∀ s : State, s.core.task = none → issueStep s = .next (idleRequest s.core.agent s)) ∧
  ∀ (s : State) (t : Task) (l : Line),
    let a := s.scc.pcq0.addr.toNat
    let lane := a % 32 / 4
    let u := keepLine s (some l)
    let act (o : Host.Outcome State Fault Refusal) : Prop :=
      (∀ v, o = .next v → v.scc.hold = none ∨ v.core.regs.pend ≠ s.core.regs.pend → issueStep s = .next v) ∧
      (∀ v, o = .next v → v.scc.hold ≠ none → v.core.regs.pend = s.core.regs.pend →
        (s.core.regs.pend.all = [] → issueStep s = .next (holdingSave v)) ∧
        (s.core.regs.pend.all ≠ [] → issueStep s = .next (causeStep s)))
    s.core.task = some t → causeUrgent s = false → saveDue s t = false →
    (∀ e, fetchLine s (a - a % 32) = .error e → act (.next (trap (keepLine s none) e))) ∧
    (LineAt s (a - a % 32) l → lineOk l.header l.words = false → act (.next (trap u ⟨.illegal, 0, 0⟩))) ∧
    (LineAt s (a - a % 32) l → lineOk l.header l.words = true → a % 4 ≠ 0 ∨ lane = 0 → act (.next (trap u ⟨.badtarget, 0, s.scc.pcq0.addr⟩))) ∧
    (LineAt s (a - a % 32) l → lineOk l.header l.words = true → a % 4 = 0 → 0 < lane →
      (l.cls lane = some .empty → act (.next (resolveQueue u))) ∧
      (l.cls lane = some .cont → act (.next (trap u ⟨.badtarget, 0, s.scc.pcq0.addr⟩))) ∧
      ∀ c, l.cls lane = some c → c ≠ .empty → c ≠ .cont →
        (s.scc.pcq0.nul = true → act (.next (passed u))) ∧
        (∀ i, s.scc.pcq0.nul = false → decode c (l.word lane) (l.word (lane + 1)) = .ok i → act (exec i u)) ∧
        (∀ b, s.scc.pcq0.nul = false → decode c (l.word lane) (l.word (lane + 1)) = .error b → b ≠ .notALane →
          act (.next (trap u ⟨.illegal, 0, 0⟩))))

/-- The words that the spec's own examples give, read in a lane of their class, are the instructions that it prints beside them
(02 'A line worked through', 06 R145, R170, 08 R220, R236, 10 R298, 12 R362, R365, and the programs of 14 and 15). -/
def Obligations.DecodedWords : Prop :=
  decode .scal 0x04630010 0 = .ok (.addi ⟨3, 3, 16⟩) ∧
  decode .scal 0x00A32000 0 = .ok (.add ⟨5, 3, 4⟩) ∧
  decode .scal 0x1CC0000E 0 = .ok (.ldi ⟨6, 0, 14⟩) ∧
  decode .scal 0x35283800 0xA0000000 = .ok (.fsh ⟨9, 8, 7, 20, 0, 0⟩) ∧
  decode .scal 0x406427F4 0 = .ok (.bc ⟨3, 4, .ne, .never, 0x7F4⟩) ∧
  decode .scal 0x78C50153 0 = .ok (.ldd ⟨6, 5, 2, true, 2, .package⟩) ∧
  decode .scal 0x98200000 0 = .ok (.fence ⟨.s, .c, .core⟩) ∧
  decode .scal 0xB9463800 0 = .ok (.sqappend ⟨10, 6, 7⟩) ∧
  decode .vec 0x00414600 0 = .ok (.vadd ⟨4, 5, 6, 0, .f32⟩) ∧
  decode .vec 0x20824A00 0x2C000000 = .ok (.vfma ⟨8, 9, 10, 0, .f32, 11, .rne, false, false, false, .f32, 0⟩) ∧
  decode .vec 0xA012C003 0 = .ok (.vldg ⟨1, 11, 0, 0, .package⟩) ∧
  decode .mat 0x00003838 0 = .ok (.mcfg ⟨0, 0, 7, 7⟩) ∧
  decode .mat 0x09060000 0 = .ok (.mspa ⟨1, 6, 0, 0⟩) ∧
  decode .copy 0x0004C741 0x48000000 = .ok (.copy ⟨1, 6, 7, 8, false, false, true, 9, 0, 0, 0, 0, false, false⟩) ∧
  decode .sys 0x00C0000B 0 = .ok (.mfcr ⟨6, 0, 0x0B⟩) ∧
  decode .sys 0x0407000A 0 = .ok (.mtcr ⟨0, 7, 0x0A⟩) ∧
  decode .sys 0x1406380F 0 = .ok (.actset ⟨6, 7, 0x0F⟩)

end
end

