-- ==== Sys2Proof/Laws/State.lean ====
section
/-! SUPPORT. What each update of a state leaves as it was, and what it writes: one lemma for each field. -/

namespace Sys2Proof.Machine

/-! ## modCore -/

@[simp] theorem modCore_others (s : State) (f : Core → Core) : (s.modCore f).others = s.others := rfl
@[simp] theorem modCore_dies (s : State) (f : Core → Core) : (s.modCore f).dies = s.dies := rfl
@[simp] theorem modCore_mem (s : State) (f : Core → Core) : (s.modCore f).mem = s.mem := rfl
@[simp] theorem modCore_poison (s : State) (f : Core → Core) : (s.modCore f).poison = s.poison := rfl
@[simp] theorem modCore_pkg (s : State) (f : Core → Core) : (s.modCore f).pkg = s.pkg := rfl
@[simp] theorem modCore_extent (s : State) (f : Core → Core) : (s.modCore f).extent = s.extent := rfl
@[simp] theorem modCore_harvest (s : State) (f : Core → Core) : (s.modCore f).harvest = s.harvest := rfl
@[simp] theorem modCore_boot (s : State) (f : Core → Core) : (s.modCore f).boot = s.boot := rfl
@[simp] theorem modCore_msix (s : State) (f : Core → Core) : (s.modCore f).msix = s.msix := rfl
@[simp] theorem modCore_hostAnswer (s : State) (f : Core → Core) : (s.modCore f).hostAnswer = s.hostAnswer := rfl
@[simp] theorem modCore_tasks (s : State) (f : Core → Core) : (s.modCore f).tasks = s.tasks := rfl
@[simp] theorem modCore_joins (s : State) (f : Core → Core) : (s.modCore f).joins = s.joins := rfl
@[simp] theorem modCore_launches (s : State) (f : Core → Core) : (s.modCore f).launches = s.launches := rfl
@[simp] theorem modCore_packets (s : State) (f : Core → Core) : (s.modCore f).packets = s.packets := rfl
@[simp] theorem modCore_packetNum (s : State) (f : Core → Core) : (s.modCore f).packetNum = s.packetNum := rfl
@[simp] theorem modCore_turns (s : State) (f : Core → Core) : (s.modCore f).turns = s.turns := rfl
@[simp] theorem modCore_free (s : State) (f : Core → Core) : (s.modCore f).free = s.free := rfl
@[simp] theorem modCore_core (s : State) (f : Core → Core) : (s.modCore f).core = f s.core := rfl
/-! ## modRegs -/

@[simp] theorem modRegs_others (s : State) (f : TaskRegs → TaskRegs) : (s.modRegs f).others = s.others := rfl
@[simp] theorem modRegs_dies (s : State) (f : TaskRegs → TaskRegs) : (s.modRegs f).dies = s.dies := rfl
@[simp] theorem modRegs_mem (s : State) (f : TaskRegs → TaskRegs) : (s.modRegs f).mem = s.mem := rfl
@[simp] theorem modRegs_poison (s : State) (f : TaskRegs → TaskRegs) : (s.modRegs f).poison = s.poison := rfl
@[simp] theorem modRegs_pkg (s : State) (f : TaskRegs → TaskRegs) : (s.modRegs f).pkg = s.pkg := rfl
@[simp] theorem modRegs_extent (s : State) (f : TaskRegs → TaskRegs) : (s.modRegs f).extent = s.extent := rfl
@[simp] theorem modRegs_harvest (s : State) (f : TaskRegs → TaskRegs) : (s.modRegs f).harvest = s.harvest := rfl
@[simp] theorem modRegs_boot (s : State) (f : TaskRegs → TaskRegs) : (s.modRegs f).boot = s.boot := rfl
@[simp] theorem modRegs_msix (s : State) (f : TaskRegs → TaskRegs) : (s.modRegs f).msix = s.msix := rfl
@[simp] theorem modRegs_hostAnswer (s : State) (f : TaskRegs → TaskRegs) : (s.modRegs f).hostAnswer = s.hostAnswer := rfl
@[simp] theorem modRegs_tasks (s : State) (f : TaskRegs → TaskRegs) : (s.modRegs f).tasks = s.tasks := rfl
@[simp] theorem modRegs_joins (s : State) (f : TaskRegs → TaskRegs) : (s.modRegs f).joins = s.joins := rfl
@[simp] theorem modRegs_launches (s : State) (f : TaskRegs → TaskRegs) : (s.modRegs f).launches = s.launches := rfl
@[simp] theorem modRegs_packets (s : State) (f : TaskRegs → TaskRegs) : (s.modRegs f).packets = s.packets := rfl
@[simp] theorem modRegs_packetNum (s : State) (f : TaskRegs → TaskRegs) : (s.modRegs f).packetNum = s.packetNum := rfl
@[simp] theorem modRegs_turns (s : State) (f : TaskRegs → TaskRegs) : (s.modRegs f).turns = s.turns := rfl
@[simp] theorem modRegs_free (s : State) (f : TaskRegs → TaskRegs) : (s.modRegs f).free = s.free := rfl
@[simp] theorem modRegs_core_agent (s : State) (f : TaskRegs → TaskRegs) : (s.modRegs f).core.agent = s.core.agent := rfl
@[simp] theorem modRegs_core_task (s : State) (f : TaskRegs → TaskRegs) : (s.modRegs f).core.task = s.core.task := rfl
@[simp] theorem modRegs_core_resident (s : State) (f : TaskRegs → TaskRegs) : (s.modRegs f).core.resident = s.core.resident := rfl
@[simp] theorem modRegs_core_halted (s : State) (f : TaskRegs → TaskRegs) : (s.modRegs f).core.halted = s.core.halted := rfl
@[simp] theorem modRegs_core_bfmt (s : State) (f : TaskRegs → TaskRegs) : (s.modRegs f).core.bfmt = s.core.bfmt := rfl
@[simp] theorem modRegs_core_ttcfg (s : State) (f : TaskRegs → TaskRegs) : (s.modRegs f).core.ttcfg = s.core.ttcfg := rfl
@[simp] theorem modRegs_core_ttab (s : State) (f : TaskRegs → TaskRegs) : (s.modRegs f).core.ttab = s.core.ttab := rfl
@[simp] theorem modRegs_core_hand (s : State) (f : TaskRegs → TaskRegs) : (s.modRegs f).core.hand = s.core.hand := rfl
@[simp] theorem modRegs_core_ltags (s : State) (f : TaskRegs → TaskRegs) : (s.modRegs f).core.ltags = s.core.ltags := rfl
@[simp] theorem modRegs_core_line (s : State) (f : TaskRegs → TaskRegs) : (s.modRegs f).core.line = s.core.line := rfl
@[simp] theorem modRegs_core_tlb (s : State) (f : TaskRegs → TaskRegs) : (s.modRegs f).core.tlb = s.core.tlb := rfl
@[simp] theorem modRegs_core_epoch (s : State) (f : TaskRegs → TaskRegs) : (s.modRegs f).core.epoch = s.core.epoch := rfl
@[simp] theorem modRegs_core_yreq (s : State) (f : TaskRegs → TaskRegs) : (s.modRegs f).core.yreq = s.core.yreq := rfl
@[simp] theorem modRegs_core_parkReq (s : State) (f : TaskRegs → TaskRegs) : (s.modRegs f).core.parkReq = s.core.parkReq := rfl
@[simp] theorem modRegs_core_pool (s : State) (f : TaskRegs → TaskRegs) : (s.modRegs f).core.pool = s.core.pool := rfl
@[simp] theorem modRegs_core_rrot (s : State) (f : TaskRegs → TaskRegs) : (s.modRegs f).core.rrot = s.core.rrot := rfl
@[simp] theorem modRegs_core_refused (s : State) (f : TaskRegs → TaskRegs) : (s.modRegs f).core.refused = s.core.refused := rfl
@[simp] theorem modRegs_core_inOrder (s : State) (f : TaskRegs → TaskRegs) : (s.modRegs f).core.inOrder = s.core.inOrder := rfl
@[simp] theorem modRegs_regs (s : State) (f : TaskRegs → TaskRegs) : (s.modRegs f).core.regs = f s.core.regs := rfl

/-! ## modScc -/

@[simp] theorem modScc_others (s : State) (f : SccRegs → SccRegs) : (s.modScc f).others = s.others := rfl
@[simp] theorem modScc_dies (s : State) (f : SccRegs → SccRegs) : (s.modScc f).dies = s.dies := rfl
@[simp] theorem modScc_mem (s : State) (f : SccRegs → SccRegs) : (s.modScc f).mem = s.mem := rfl
@[simp] theorem modScc_poison (s : State) (f : SccRegs → SccRegs) : (s.modScc f).poison = s.poison := rfl
@[simp] theorem modScc_pkg (s : State) (f : SccRegs → SccRegs) : (s.modScc f).pkg = s.pkg := rfl
@[simp] theorem modScc_extent (s : State) (f : SccRegs → SccRegs) : (s.modScc f).extent = s.extent := rfl
@[simp] theorem modScc_harvest (s : State) (f : SccRegs → SccRegs) : (s.modScc f).harvest = s.harvest := rfl
@[simp] theorem modScc_boot (s : State) (f : SccRegs → SccRegs) : (s.modScc f).boot = s.boot := rfl
@[simp] theorem modScc_msix (s : State) (f : SccRegs → SccRegs) : (s.modScc f).msix = s.msix := rfl
@[simp] theorem modScc_hostAnswer (s : State) (f : SccRegs → SccRegs) : (s.modScc f).hostAnswer = s.hostAnswer := rfl
@[simp] theorem modScc_tasks (s : State) (f : SccRegs → SccRegs) : (s.modScc f).tasks = s.tasks := rfl
@[simp] theorem modScc_joins (s : State) (f : SccRegs → SccRegs) : (s.modScc f).joins = s.joins := rfl
@[simp] theorem modScc_launches (s : State) (f : SccRegs → SccRegs) : (s.modScc f).launches = s.launches := rfl
@[simp] theorem modScc_packets (s : State) (f : SccRegs → SccRegs) : (s.modScc f).packets = s.packets := rfl
@[simp] theorem modScc_packetNum (s : State) (f : SccRegs → SccRegs) : (s.modScc f).packetNum = s.packetNum := rfl
@[simp] theorem modScc_turns (s : State) (f : SccRegs → SccRegs) : (s.modScc f).turns = s.turns := rfl
@[simp] theorem modScc_free (s : State) (f : SccRegs → SccRegs) : (s.modScc f).free = s.free := rfl
@[simp] theorem modScc_core_agent (s : State) (f : SccRegs → SccRegs) : (s.modScc f).core.agent = s.core.agent := rfl
@[simp] theorem modScc_core_task (s : State) (f : SccRegs → SccRegs) : (s.modScc f).core.task = s.core.task := rfl
@[simp] theorem modScc_core_resident (s : State) (f : SccRegs → SccRegs) : (s.modScc f).core.resident = s.core.resident := rfl
@[simp] theorem modScc_core_halted (s : State) (f : SccRegs → SccRegs) : (s.modScc f).core.halted = s.core.halted := rfl
@[simp] theorem modScc_core_bfmt (s : State) (f : SccRegs → SccRegs) : (s.modScc f).core.bfmt = s.core.bfmt := rfl
@[simp] theorem modScc_core_ttcfg (s : State) (f : SccRegs → SccRegs) : (s.modScc f).core.ttcfg = s.core.ttcfg := rfl
@[simp] theorem modScc_core_ttab (s : State) (f : SccRegs → SccRegs) : (s.modScc f).core.ttab = s.core.ttab := rfl
@[simp] theorem modScc_core_hand (s : State) (f : SccRegs → SccRegs) : (s.modScc f).core.hand = s.core.hand := rfl
@[simp] theorem modScc_core_ltags (s : State) (f : SccRegs → SccRegs) : (s.modScc f).core.ltags = s.core.ltags := rfl
@[simp] theorem modScc_core_line (s : State) (f : SccRegs → SccRegs) : (s.modScc f).core.line = s.core.line := rfl
@[simp] theorem modScc_core_tlb (s : State) (f : SccRegs → SccRegs) : (s.modScc f).core.tlb = s.core.tlb := rfl
@[simp] theorem modScc_core_epoch (s : State) (f : SccRegs → SccRegs) : (s.modScc f).core.epoch = s.core.epoch := rfl
@[simp] theorem modScc_core_yreq (s : State) (f : SccRegs → SccRegs) : (s.modScc f).core.yreq = s.core.yreq := rfl
@[simp] theorem modScc_core_parkReq (s : State) (f : SccRegs → SccRegs) : (s.modScc f).core.parkReq = s.core.parkReq := rfl
@[simp] theorem modScc_core_pool (s : State) (f : SccRegs → SccRegs) : (s.modScc f).core.pool = s.core.pool := rfl
@[simp] theorem modScc_core_rrot (s : State) (f : SccRegs → SccRegs) : (s.modScc f).core.rrot = s.core.rrot := rfl
@[simp] theorem modScc_core_refused (s : State) (f : SccRegs → SccRegs) : (s.modScc f).core.refused = s.core.refused := rfl
@[simp] theorem modScc_core_inOrder (s : State) (f : SccRegs → SccRegs) : (s.modScc f).core.inOrder = s.core.inOrder := rfl
@[simp] theorem modScc_regs_scc (s : State) (f : SccRegs → SccRegs) : (s.modScc f).core.regs.scc = f s.core.regs.scc := rfl
@[simp] theorem modScc_regs_ve (s : State) (f : SccRegs → SccRegs) : (s.modScc f).core.regs.ve = s.core.regs.ve := rfl
@[simp] theorem modScc_regs_me (s : State) (f : SccRegs → SccRegs) : (s.modScc f).core.regs.me = s.core.regs.me := rfl
@[simp] theorem modScc_regs_cp (s : State) (f : SccRegs → SccRegs) : (s.modScc f).core.regs.cp = s.core.regs.cp := rfl
@[simp] theorem modScc_regs_fp (s : State) (f : SccRegs → SccRegs) : (s.modScc f).core.regs.fp = s.core.regs.fp := rfl
@[simp] theorem modScc_regs_ord (s : State) (f : SccRegs → SccRegs) : (s.modScc f).core.regs.ord = s.core.regs.ord := rfl
@[simp] theorem modScc_regs_pend (s : State) (f : SccRegs → SccRegs) : (s.modScc f).core.regs.pend = s.core.regs.pend := rfl
@[simp] theorem modScc_scc (s : State) (f : SccRegs → SccRegs) : (s.modScc f).scc = f s.scc := rfl
@[simp] theorem modScc_ve (s : State) (f : SccRegs → SccRegs) : (s.modScc f).ve = s.ve := rfl
@[simp] theorem modScc_me (s : State) (f : SccRegs → SccRegs) : (s.modScc f).me = s.me := rfl
@[simp] theorem modScc_cp (s : State) (f : SccRegs → SccRegs) : (s.modScc f).cp = s.cp := rfl
@[simp] theorem modScc_fp (s : State) (f : SccRegs → SccRegs) : (s.modScc f).fp = s.fp := rfl
@[simp] theorem modScc_ord (s : State) (f : SccRegs → SccRegs) : (s.modScc f).ord = s.ord := rfl

/-! ## modVe -/

@[simp] theorem modVe_others (s : State) (f : VeRegs → VeRegs) : (s.modVe f).others = s.others := rfl
@[simp] theorem modVe_dies (s : State) (f : VeRegs → VeRegs) : (s.modVe f).dies = s.dies := rfl
@[simp] theorem modVe_mem (s : State) (f : VeRegs → VeRegs) : (s.modVe f).mem = s.mem := rfl
@[simp] theorem modVe_poison (s : State) (f : VeRegs → VeRegs) : (s.modVe f).poison = s.poison := rfl
@[simp] theorem modVe_pkg (s : State) (f : VeRegs → VeRegs) : (s.modVe f).pkg = s.pkg := rfl
@[simp] theorem modVe_extent (s : State) (f : VeRegs → VeRegs) : (s.modVe f).extent = s.extent := rfl
@[simp] theorem modVe_harvest (s : State) (f : VeRegs → VeRegs) : (s.modVe f).harvest = s.harvest := rfl
@[simp] theorem modVe_boot (s : State) (f : VeRegs → VeRegs) : (s.modVe f).boot = s.boot := rfl
@[simp] theorem modVe_msix (s : State) (f : VeRegs → VeRegs) : (s.modVe f).msix = s.msix := rfl
@[simp] theorem modVe_hostAnswer (s : State) (f : VeRegs → VeRegs) : (s.modVe f).hostAnswer = s.hostAnswer := rfl
@[simp] theorem modVe_tasks (s : State) (f : VeRegs → VeRegs) : (s.modVe f).tasks = s.tasks := rfl
@[simp] theorem modVe_joins (s : State) (f : VeRegs → VeRegs) : (s.modVe f).joins = s.joins := rfl
@[simp] theorem modVe_launches (s : State) (f : VeRegs → VeRegs) : (s.modVe f).launches = s.launches := rfl
@[simp] theorem modVe_packets (s : State) (f : VeRegs → VeRegs) : (s.modVe f).packets = s.packets := rfl
@[simp] theorem modVe_packetNum (s : State) (f : VeRegs → VeRegs) : (s.modVe f).packetNum = s.packetNum := rfl
@[simp] theorem modVe_turns (s : State) (f : VeRegs → VeRegs) : (s.modVe f).turns = s.turns := rfl
@[simp] theorem modVe_free (s : State) (f : VeRegs → VeRegs) : (s.modVe f).free = s.free := rfl
@[simp] theorem modVe_core_agent (s : State) (f : VeRegs → VeRegs) : (s.modVe f).core.agent = s.core.agent := rfl
@[simp] theorem modVe_core_task (s : State) (f : VeRegs → VeRegs) : (s.modVe f).core.task = s.core.task := rfl
@[simp] theorem modVe_core_resident (s : State) (f : VeRegs → VeRegs) : (s.modVe f).core.resident = s.core.resident := rfl
@[simp] theorem modVe_core_halted (s : State) (f : VeRegs → VeRegs) : (s.modVe f).core.halted = s.core.halted := rfl
@[simp] theorem modVe_core_bfmt (s : State) (f : VeRegs → VeRegs) : (s.modVe f).core.bfmt = s.core.bfmt := rfl
@[simp] theorem modVe_core_ttcfg (s : State) (f : VeRegs → VeRegs) : (s.modVe f).core.ttcfg = s.core.ttcfg := rfl
@[simp] theorem modVe_core_ttab (s : State) (f : VeRegs → VeRegs) : (s.modVe f).core.ttab = s.core.ttab := rfl
@[simp] theorem modVe_core_hand (s : State) (f : VeRegs → VeRegs) : (s.modVe f).core.hand = s.core.hand := rfl
@[simp] theorem modVe_core_ltags (s : State) (f : VeRegs → VeRegs) : (s.modVe f).core.ltags = s.core.ltags := rfl
@[simp] theorem modVe_core_line (s : State) (f : VeRegs → VeRegs) : (s.modVe f).core.line = s.core.line := rfl
@[simp] theorem modVe_core_tlb (s : State) (f : VeRegs → VeRegs) : (s.modVe f).core.tlb = s.core.tlb := rfl
@[simp] theorem modVe_core_epoch (s : State) (f : VeRegs → VeRegs) : (s.modVe f).core.epoch = s.core.epoch := rfl
@[simp] theorem modVe_core_yreq (s : State) (f : VeRegs → VeRegs) : (s.modVe f).core.yreq = s.core.yreq := rfl
@[simp] theorem modVe_core_parkReq (s : State) (f : VeRegs → VeRegs) : (s.modVe f).core.parkReq = s.core.parkReq := rfl
@[simp] theorem modVe_core_pool (s : State) (f : VeRegs → VeRegs) : (s.modVe f).core.pool = s.core.pool := rfl
@[simp] theorem modVe_core_rrot (s : State) (f : VeRegs → VeRegs) : (s.modVe f).core.rrot = s.core.rrot := rfl
@[simp] theorem modVe_core_refused (s : State) (f : VeRegs → VeRegs) : (s.modVe f).core.refused = s.core.refused := rfl
@[simp] theorem modVe_core_inOrder (s : State) (f : VeRegs → VeRegs) : (s.modVe f).core.inOrder = s.core.inOrder := rfl
@[simp] theorem modVe_regs_scc (s : State) (f : VeRegs → VeRegs) : (s.modVe f).core.regs.scc = s.core.regs.scc := rfl
@[simp] theorem modVe_regs_ve (s : State) (f : VeRegs → VeRegs) : (s.modVe f).core.regs.ve = f s.core.regs.ve := rfl
@[simp] theorem modVe_regs_me (s : State) (f : VeRegs → VeRegs) : (s.modVe f).core.regs.me = s.core.regs.me := rfl
@[simp] theorem modVe_regs_cp (s : State) (f : VeRegs → VeRegs) : (s.modVe f).core.regs.cp = s.core.regs.cp := rfl
@[simp] theorem modVe_regs_fp (s : State) (f : VeRegs → VeRegs) : (s.modVe f).core.regs.fp = s.core.regs.fp := rfl
@[simp] theorem modVe_regs_ord (s : State) (f : VeRegs → VeRegs) : (s.modVe f).core.regs.ord = s.core.regs.ord := rfl
@[simp] theorem modVe_regs_pend (s : State) (f : VeRegs → VeRegs) : (s.modVe f).core.regs.pend = s.core.regs.pend := rfl
@[simp] theorem modVe_scc (s : State) (f : VeRegs → VeRegs) : (s.modVe f).scc = s.scc := rfl
@[simp] theorem modVe_ve (s : State) (f : VeRegs → VeRegs) : (s.modVe f).ve = f s.ve := rfl
@[simp] theorem modVe_me (s : State) (f : VeRegs → VeRegs) : (s.modVe f).me = s.me := rfl
@[simp] theorem modVe_cp (s : State) (f : VeRegs → VeRegs) : (s.modVe f).cp = s.cp := rfl
@[simp] theorem modVe_fp (s : State) (f : VeRegs → VeRegs) : (s.modVe f).fp = s.fp := rfl
@[simp] theorem modVe_ord (s : State) (f : VeRegs → VeRegs) : (s.modVe f).ord = s.ord := rfl

/-! ## modMe -/

@[simp] theorem modMe_others (s : State) (f : MeRegs → MeRegs) : (s.modMe f).others = s.others := rfl
@[simp] theorem modMe_dies (s : State) (f : MeRegs → MeRegs) : (s.modMe f).dies = s.dies := rfl
@[simp] theorem modMe_mem (s : State) (f : MeRegs → MeRegs) : (s.modMe f).mem = s.mem := rfl
@[simp] theorem modMe_poison (s : State) (f : MeRegs → MeRegs) : (s.modMe f).poison = s.poison := rfl
@[simp] theorem modMe_pkg (s : State) (f : MeRegs → MeRegs) : (s.modMe f).pkg = s.pkg := rfl
@[simp] theorem modMe_extent (s : State) (f : MeRegs → MeRegs) : (s.modMe f).extent = s.extent := rfl
@[simp] theorem modMe_harvest (s : State) (f : MeRegs → MeRegs) : (s.modMe f).harvest = s.harvest := rfl
@[simp] theorem modMe_boot (s : State) (f : MeRegs → MeRegs) : (s.modMe f).boot = s.boot := rfl
@[simp] theorem modMe_msix (s : State) (f : MeRegs → MeRegs) : (s.modMe f).msix = s.msix := rfl
@[simp] theorem modMe_hostAnswer (s : State) (f : MeRegs → MeRegs) : (s.modMe f).hostAnswer = s.hostAnswer := rfl
@[simp] theorem modMe_tasks (s : State) (f : MeRegs → MeRegs) : (s.modMe f).tasks = s.tasks := rfl
@[simp] theorem modMe_joins (s : State) (f : MeRegs → MeRegs) : (s.modMe f).joins = s.joins := rfl
@[simp] theorem modMe_launches (s : State) (f : MeRegs → MeRegs) : (s.modMe f).launches = s.launches := rfl
@[simp] theorem modMe_packets (s : State) (f : MeRegs → MeRegs) : (s.modMe f).packets = s.packets := rfl
@[simp] theorem modMe_packetNum (s : State) (f : MeRegs → MeRegs) : (s.modMe f).packetNum = s.packetNum := rfl
@[simp] theorem modMe_turns (s : State) (f : MeRegs → MeRegs) : (s.modMe f).turns = s.turns := rfl
@[simp] theorem modMe_free (s : State) (f : MeRegs → MeRegs) : (s.modMe f).free = s.free := rfl
@[simp] theorem modMe_core_agent (s : State) (f : MeRegs → MeRegs) : (s.modMe f).core.agent = s.core.agent := rfl
@[simp] theorem modMe_core_task (s : State) (f : MeRegs → MeRegs) : (s.modMe f).core.task = s.core.task := rfl
@[simp] theorem modMe_core_resident (s : State) (f : MeRegs → MeRegs) : (s.modMe f).core.resident = s.core.resident := rfl
@[simp] theorem modMe_core_halted (s : State) (f : MeRegs → MeRegs) : (s.modMe f).core.halted = s.core.halted := rfl
@[simp] theorem modMe_core_bfmt (s : State) (f : MeRegs → MeRegs) : (s.modMe f).core.bfmt = s.core.bfmt := rfl
@[simp] theorem modMe_core_ttcfg (s : State) (f : MeRegs → MeRegs) : (s.modMe f).core.ttcfg = s.core.ttcfg := rfl
@[simp] theorem modMe_core_ttab (s : State) (f : MeRegs → MeRegs) : (s.modMe f).core.ttab = s.core.ttab := rfl
@[simp] theorem modMe_core_hand (s : State) (f : MeRegs → MeRegs) : (s.modMe f).core.hand = s.core.hand := rfl
@[simp] theorem modMe_core_ltags (s : State) (f : MeRegs → MeRegs) : (s.modMe f).core.ltags = s.core.ltags := rfl
@[simp] theorem modMe_core_line (s : State) (f : MeRegs → MeRegs) : (s.modMe f).core.line = s.core.line := rfl
@[simp] theorem modMe_core_tlb (s : State) (f : MeRegs → MeRegs) : (s.modMe f).core.tlb = s.core.tlb := rfl
@[simp] theorem modMe_core_epoch (s : State) (f : MeRegs → MeRegs) : (s.modMe f).core.epoch = s.core.epoch := rfl
@[simp] theorem modMe_core_yreq (s : State) (f : MeRegs → MeRegs) : (s.modMe f).core.yreq = s.core.yreq := rfl
@[simp] theorem modMe_core_parkReq (s : State) (f : MeRegs → MeRegs) : (s.modMe f).core.parkReq = s.core.parkReq := rfl
@[simp] theorem modMe_core_pool (s : State) (f : MeRegs → MeRegs) : (s.modMe f).core.pool = s.core.pool := rfl
@[simp] theorem modMe_core_rrot (s : State) (f : MeRegs → MeRegs) : (s.modMe f).core.rrot = s.core.rrot := rfl
@[simp] theorem modMe_core_refused (s : State) (f : MeRegs → MeRegs) : (s.modMe f).core.refused = s.core.refused := rfl
@[simp] theorem modMe_core_inOrder (s : State) (f : MeRegs → MeRegs) : (s.modMe f).core.inOrder = s.core.inOrder := rfl
@[simp] theorem modMe_regs_scc (s : State) (f : MeRegs → MeRegs) : (s.modMe f).core.regs.scc = s.core.regs.scc := rfl
@[simp] theorem modMe_regs_ve (s : State) (f : MeRegs → MeRegs) : (s.modMe f).core.regs.ve = s.core.regs.ve := rfl
@[simp] theorem modMe_regs_me (s : State) (f : MeRegs → MeRegs) : (s.modMe f).core.regs.me = f s.core.regs.me := rfl
@[simp] theorem modMe_regs_cp (s : State) (f : MeRegs → MeRegs) : (s.modMe f).core.regs.cp = s.core.regs.cp := rfl
@[simp] theorem modMe_regs_fp (s : State) (f : MeRegs → MeRegs) : (s.modMe f).core.regs.fp = s.core.regs.fp := rfl
@[simp] theorem modMe_regs_ord (s : State) (f : MeRegs → MeRegs) : (s.modMe f).core.regs.ord = s.core.regs.ord := rfl
@[simp] theorem modMe_regs_pend (s : State) (f : MeRegs → MeRegs) : (s.modMe f).core.regs.pend = s.core.regs.pend := rfl
@[simp] theorem modMe_scc (s : State) (f : MeRegs → MeRegs) : (s.modMe f).scc = s.scc := rfl
@[simp] theorem modMe_ve (s : State) (f : MeRegs → MeRegs) : (s.modMe f).ve = s.ve := rfl
@[simp] theorem modMe_me (s : State) (f : MeRegs → MeRegs) : (s.modMe f).me = f s.me := rfl
@[simp] theorem modMe_cp (s : State) (f : MeRegs → MeRegs) : (s.modMe f).cp = s.cp := rfl
@[simp] theorem modMe_fp (s : State) (f : MeRegs → MeRegs) : (s.modMe f).fp = s.fp := rfl
@[simp] theorem modMe_ord (s : State) (f : MeRegs → MeRegs) : (s.modMe f).ord = s.ord := rfl

/-! ## modCp -/

@[simp] theorem modCp_others (s : State) (f : CpRegs → CpRegs) : (s.modCp f).others = s.others := rfl
@[simp] theorem modCp_dies (s : State) (f : CpRegs → CpRegs) : (s.modCp f).dies = s.dies := rfl
@[simp] theorem modCp_mem (s : State) (f : CpRegs → CpRegs) : (s.modCp f).mem = s.mem := rfl
@[simp] theorem modCp_poison (s : State) (f : CpRegs → CpRegs) : (s.modCp f).poison = s.poison := rfl
@[simp] theorem modCp_pkg (s : State) (f : CpRegs → CpRegs) : (s.modCp f).pkg = s.pkg := rfl
@[simp] theorem modCp_extent (s : State) (f : CpRegs → CpRegs) : (s.modCp f).extent = s.extent := rfl
@[simp] theorem modCp_harvest (s : State) (f : CpRegs → CpRegs) : (s.modCp f).harvest = s.harvest := rfl
@[simp] theorem modCp_boot (s : State) (f : CpRegs → CpRegs) : (s.modCp f).boot = s.boot := rfl
@[simp] theorem modCp_msix (s : State) (f : CpRegs → CpRegs) : (s.modCp f).msix = s.msix := rfl
@[simp] theorem modCp_hostAnswer (s : State) (f : CpRegs → CpRegs) : (s.modCp f).hostAnswer = s.hostAnswer := rfl
@[simp] theorem modCp_tasks (s : State) (f : CpRegs → CpRegs) : (s.modCp f).tasks = s.tasks := rfl
@[simp] theorem modCp_joins (s : State) (f : CpRegs → CpRegs) : (s.modCp f).joins = s.joins := rfl
@[simp] theorem modCp_launches (s : State) (f : CpRegs → CpRegs) : (s.modCp f).launches = s.launches := rfl
@[simp] theorem modCp_packets (s : State) (f : CpRegs → CpRegs) : (s.modCp f).packets = s.packets := rfl
@[simp] theorem modCp_packetNum (s : State) (f : CpRegs → CpRegs) : (s.modCp f).packetNum = s.packetNum := rfl
@[simp] theorem modCp_turns (s : State) (f : CpRegs → CpRegs) : (s.modCp f).turns = s.turns := rfl
@[simp] theorem modCp_free (s : State) (f : CpRegs → CpRegs) : (s.modCp f).free = s.free := rfl
@[simp] theorem modCp_core_agent (s : State) (f : CpRegs → CpRegs) : (s.modCp f).core.agent = s.core.agent := rfl
@[simp] theorem modCp_core_task (s : State) (f : CpRegs → CpRegs) : (s.modCp f).core.task = s.core.task := rfl
@[simp] theorem modCp_core_resident (s : State) (f : CpRegs → CpRegs) : (s.modCp f).core.resident = s.core.resident := rfl
@[simp] theorem modCp_core_halted (s : State) (f : CpRegs → CpRegs) : (s.modCp f).core.halted = s.core.halted := rfl
@[simp] theorem modCp_core_bfmt (s : State) (f : CpRegs → CpRegs) : (s.modCp f).core.bfmt = s.core.bfmt := rfl
@[simp] theorem modCp_core_ttcfg (s : State) (f : CpRegs → CpRegs) : (s.modCp f).core.ttcfg = s.core.ttcfg := rfl
@[simp] theorem modCp_core_ttab (s : State) (f : CpRegs → CpRegs) : (s.modCp f).core.ttab = s.core.ttab := rfl
@[simp] theorem modCp_core_hand (s : State) (f : CpRegs → CpRegs) : (s.modCp f).core.hand = s.core.hand := rfl
@[simp] theorem modCp_core_ltags (s : State) (f : CpRegs → CpRegs) : (s.modCp f).core.ltags = s.core.ltags := rfl
@[simp] theorem modCp_core_line (s : State) (f : CpRegs → CpRegs) : (s.modCp f).core.line = s.core.line := rfl
@[simp] theorem modCp_core_tlb (s : State) (f : CpRegs → CpRegs) : (s.modCp f).core.tlb = s.core.tlb := rfl
@[simp] theorem modCp_core_epoch (s : State) (f : CpRegs → CpRegs) : (s.modCp f).core.epoch = s.core.epoch := rfl
@[simp] theorem modCp_core_yreq (s : State) (f : CpRegs → CpRegs) : (s.modCp f).core.yreq = s.core.yreq := rfl
@[simp] theorem modCp_core_parkReq (s : State) (f : CpRegs → CpRegs) : (s.modCp f).core.parkReq = s.core.parkReq := rfl
@[simp] theorem modCp_core_pool (s : State) (f : CpRegs → CpRegs) : (s.modCp f).core.pool = s.core.pool := rfl
@[simp] theorem modCp_core_rrot (s : State) (f : CpRegs → CpRegs) : (s.modCp f).core.rrot = s.core.rrot := rfl
@[simp] theorem modCp_core_refused (s : State) (f : CpRegs → CpRegs) : (s.modCp f).core.refused = s.core.refused := rfl
@[simp] theorem modCp_core_inOrder (s : State) (f : CpRegs → CpRegs) : (s.modCp f).core.inOrder = s.core.inOrder := rfl
@[simp] theorem modCp_regs_scc (s : State) (f : CpRegs → CpRegs) : (s.modCp f).core.regs.scc = s.core.regs.scc := rfl
@[simp] theorem modCp_regs_ve (s : State) (f : CpRegs → CpRegs) : (s.modCp f).core.regs.ve = s.core.regs.ve := rfl
@[simp] theorem modCp_regs_me (s : State) (f : CpRegs → CpRegs) : (s.modCp f).core.regs.me = s.core.regs.me := rfl
@[simp] theorem modCp_regs_cp (s : State) (f : CpRegs → CpRegs) : (s.modCp f).core.regs.cp = f s.core.regs.cp := rfl
@[simp] theorem modCp_regs_fp (s : State) (f : CpRegs → CpRegs) : (s.modCp f).core.regs.fp = s.core.regs.fp := rfl
@[simp] theorem modCp_regs_ord (s : State) (f : CpRegs → CpRegs) : (s.modCp f).core.regs.ord = s.core.regs.ord := rfl
@[simp] theorem modCp_regs_pend (s : State) (f : CpRegs → CpRegs) : (s.modCp f).core.regs.pend = s.core.regs.pend := rfl
@[simp] theorem modCp_scc (s : State) (f : CpRegs → CpRegs) : (s.modCp f).scc = s.scc := rfl
@[simp] theorem modCp_ve (s : State) (f : CpRegs → CpRegs) : (s.modCp f).ve = s.ve := rfl
@[simp] theorem modCp_me (s : State) (f : CpRegs → CpRegs) : (s.modCp f).me = s.me := rfl
@[simp] theorem modCp_cp (s : State) (f : CpRegs → CpRegs) : (s.modCp f).cp = f s.cp := rfl
@[simp] theorem modCp_fp (s : State) (f : CpRegs → CpRegs) : (s.modCp f).fp = s.fp := rfl
@[simp] theorem modCp_ord (s : State) (f : CpRegs → CpRegs) : (s.modCp f).ord = s.ord := rfl

/-! ## modFp -/

@[simp] theorem modFp_others (s : State) (f : FpRegs → FpRegs) : (s.modFp f).others = s.others := rfl
@[simp] theorem modFp_dies (s : State) (f : FpRegs → FpRegs) : (s.modFp f).dies = s.dies := rfl
@[simp] theorem modFp_mem (s : State) (f : FpRegs → FpRegs) : (s.modFp f).mem = s.mem := rfl
@[simp] theorem modFp_poison (s : State) (f : FpRegs → FpRegs) : (s.modFp f).poison = s.poison := rfl
@[simp] theorem modFp_pkg (s : State) (f : FpRegs → FpRegs) : (s.modFp f).pkg = s.pkg := rfl
@[simp] theorem modFp_extent (s : State) (f : FpRegs → FpRegs) : (s.modFp f).extent = s.extent := rfl
@[simp] theorem modFp_harvest (s : State) (f : FpRegs → FpRegs) : (s.modFp f).harvest = s.harvest := rfl
@[simp] theorem modFp_boot (s : State) (f : FpRegs → FpRegs) : (s.modFp f).boot = s.boot := rfl
@[simp] theorem modFp_msix (s : State) (f : FpRegs → FpRegs) : (s.modFp f).msix = s.msix := rfl
@[simp] theorem modFp_hostAnswer (s : State) (f : FpRegs → FpRegs) : (s.modFp f).hostAnswer = s.hostAnswer := rfl
@[simp] theorem modFp_tasks (s : State) (f : FpRegs → FpRegs) : (s.modFp f).tasks = s.tasks := rfl
@[simp] theorem modFp_joins (s : State) (f : FpRegs → FpRegs) : (s.modFp f).joins = s.joins := rfl
@[simp] theorem modFp_launches (s : State) (f : FpRegs → FpRegs) : (s.modFp f).launches = s.launches := rfl
@[simp] theorem modFp_packets (s : State) (f : FpRegs → FpRegs) : (s.modFp f).packets = s.packets := rfl
@[simp] theorem modFp_packetNum (s : State) (f : FpRegs → FpRegs) : (s.modFp f).packetNum = s.packetNum := rfl
@[simp] theorem modFp_turns (s : State) (f : FpRegs → FpRegs) : (s.modFp f).turns = s.turns := rfl
@[simp] theorem modFp_free (s : State) (f : FpRegs → FpRegs) : (s.modFp f).free = s.free := rfl
@[simp] theorem modFp_core_agent (s : State) (f : FpRegs → FpRegs) : (s.modFp f).core.agent = s.core.agent := rfl
@[simp] theorem modFp_core_task (s : State) (f : FpRegs → FpRegs) : (s.modFp f).core.task = s.core.task := rfl
@[simp] theorem modFp_core_resident (s : State) (f : FpRegs → FpRegs) : (s.modFp f).core.resident = s.core.resident := rfl
@[simp] theorem modFp_core_halted (s : State) (f : FpRegs → FpRegs) : (s.modFp f).core.halted = s.core.halted := rfl
@[simp] theorem modFp_core_bfmt (s : State) (f : FpRegs → FpRegs) : (s.modFp f).core.bfmt = s.core.bfmt := rfl
@[simp] theorem modFp_core_ttcfg (s : State) (f : FpRegs → FpRegs) : (s.modFp f).core.ttcfg = s.core.ttcfg := rfl
@[simp] theorem modFp_core_ttab (s : State) (f : FpRegs → FpRegs) : (s.modFp f).core.ttab = s.core.ttab := rfl
@[simp] theorem modFp_core_hand (s : State) (f : FpRegs → FpRegs) : (s.modFp f).core.hand = s.core.hand := rfl
@[simp] theorem modFp_core_ltags (s : State) (f : FpRegs → FpRegs) : (s.modFp f).core.ltags = s.core.ltags := rfl
@[simp] theorem modFp_core_line (s : State) (f : FpRegs → FpRegs) : (s.modFp f).core.line = s.core.line := rfl
@[simp] theorem modFp_core_tlb (s : State) (f : FpRegs → FpRegs) : (s.modFp f).core.tlb = s.core.tlb := rfl
@[simp] theorem modFp_core_epoch (s : State) (f : FpRegs → FpRegs) : (s.modFp f).core.epoch = s.core.epoch := rfl
@[simp] theorem modFp_core_yreq (s : State) (f : FpRegs → FpRegs) : (s.modFp f).core.yreq = s.core.yreq := rfl
@[simp] theorem modFp_core_parkReq (s : State) (f : FpRegs → FpRegs) : (s.modFp f).core.parkReq = s.core.parkReq := rfl
@[simp] theorem modFp_core_pool (s : State) (f : FpRegs → FpRegs) : (s.modFp f).core.pool = s.core.pool := rfl
@[simp] theorem modFp_core_rrot (s : State) (f : FpRegs → FpRegs) : (s.modFp f).core.rrot = s.core.rrot := rfl
@[simp] theorem modFp_core_refused (s : State) (f : FpRegs → FpRegs) : (s.modFp f).core.refused = s.core.refused := rfl
@[simp] theorem modFp_core_inOrder (s : State) (f : FpRegs → FpRegs) : (s.modFp f).core.inOrder = s.core.inOrder := rfl
@[simp] theorem modFp_regs_scc (s : State) (f : FpRegs → FpRegs) : (s.modFp f).core.regs.scc = s.core.regs.scc := rfl
@[simp] theorem modFp_regs_ve (s : State) (f : FpRegs → FpRegs) : (s.modFp f).core.regs.ve = s.core.regs.ve := rfl
@[simp] theorem modFp_regs_me (s : State) (f : FpRegs → FpRegs) : (s.modFp f).core.regs.me = s.core.regs.me := rfl
@[simp] theorem modFp_regs_cp (s : State) (f : FpRegs → FpRegs) : (s.modFp f).core.regs.cp = s.core.regs.cp := rfl
@[simp] theorem modFp_regs_fp (s : State) (f : FpRegs → FpRegs) : (s.modFp f).core.regs.fp = f s.core.regs.fp := rfl
@[simp] theorem modFp_regs_ord (s : State) (f : FpRegs → FpRegs) : (s.modFp f).core.regs.ord = s.core.regs.ord := rfl
@[simp] theorem modFp_regs_pend (s : State) (f : FpRegs → FpRegs) : (s.modFp f).core.regs.pend = s.core.regs.pend := rfl
@[simp] theorem modFp_scc (s : State) (f : FpRegs → FpRegs) : (s.modFp f).scc = s.scc := rfl
@[simp] theorem modFp_ve (s : State) (f : FpRegs → FpRegs) : (s.modFp f).ve = s.ve := rfl
@[simp] theorem modFp_me (s : State) (f : FpRegs → FpRegs) : (s.modFp f).me = s.me := rfl
@[simp] theorem modFp_cp (s : State) (f : FpRegs → FpRegs) : (s.modFp f).cp = s.cp := rfl
@[simp] theorem modFp_fp (s : State) (f : FpRegs → FpRegs) : (s.modFp f).fp = f s.fp := rfl
@[simp] theorem modFp_ord (s : State) (f : FpRegs → FpRegs) : (s.modFp f).ord = s.ord := rfl

/-! ## modOrd -/

@[simp] theorem modOrd_others (s : State) (f : OrdRegs → OrdRegs) : (s.modOrd f).others = s.others := rfl
@[simp] theorem modOrd_dies (s : State) (f : OrdRegs → OrdRegs) : (s.modOrd f).dies = s.dies := rfl
@[simp] theorem modOrd_mem (s : State) (f : OrdRegs → OrdRegs) : (s.modOrd f).mem = s.mem := rfl
@[simp] theorem modOrd_poison (s : State) (f : OrdRegs → OrdRegs) : (s.modOrd f).poison = s.poison := rfl
@[simp] theorem modOrd_pkg (s : State) (f : OrdRegs → OrdRegs) : (s.modOrd f).pkg = s.pkg := rfl
@[simp] theorem modOrd_extent (s : State) (f : OrdRegs → OrdRegs) : (s.modOrd f).extent = s.extent := rfl
@[simp] theorem modOrd_harvest (s : State) (f : OrdRegs → OrdRegs) : (s.modOrd f).harvest = s.harvest := rfl
@[simp] theorem modOrd_boot (s : State) (f : OrdRegs → OrdRegs) : (s.modOrd f).boot = s.boot := rfl
@[simp] theorem modOrd_msix (s : State) (f : OrdRegs → OrdRegs) : (s.modOrd f).msix = s.msix := rfl
@[simp] theorem modOrd_hostAnswer (s : State) (f : OrdRegs → OrdRegs) : (s.modOrd f).hostAnswer = s.hostAnswer := rfl
@[simp] theorem modOrd_tasks (s : State) (f : OrdRegs → OrdRegs) : (s.modOrd f).tasks = s.tasks := rfl
@[simp] theorem modOrd_joins (s : State) (f : OrdRegs → OrdRegs) : (s.modOrd f).joins = s.joins := rfl
@[simp] theorem modOrd_launches (s : State) (f : OrdRegs → OrdRegs) : (s.modOrd f).launches = s.launches := rfl
@[simp] theorem modOrd_packets (s : State) (f : OrdRegs → OrdRegs) : (s.modOrd f).packets = s.packets := rfl
@[simp] theorem modOrd_packetNum (s : State) (f : OrdRegs → OrdRegs) : (s.modOrd f).packetNum = s.packetNum := rfl
@[simp] theorem modOrd_turns (s : State) (f : OrdRegs → OrdRegs) : (s.modOrd f).turns = s.turns := rfl
@[simp] theorem modOrd_free (s : State) (f : OrdRegs → OrdRegs) : (s.modOrd f).free = s.free := rfl
@[simp] theorem modOrd_core_agent (s : State) (f : OrdRegs → OrdRegs) : (s.modOrd f).core.agent = s.core.agent := rfl
@[simp] theorem modOrd_core_task (s : State) (f : OrdRegs → OrdRegs) : (s.modOrd f).core.task = s.core.task := rfl
@[simp] theorem modOrd_core_resident (s : State) (f : OrdRegs → OrdRegs) : (s.modOrd f).core.resident = s.core.resident := rfl
@[simp] theorem modOrd_core_halted (s : State) (f : OrdRegs → OrdRegs) : (s.modOrd f).core.halted = s.core.halted := rfl
@[simp] theorem modOrd_core_bfmt (s : State) (f : OrdRegs → OrdRegs) : (s.modOrd f).core.bfmt = s.core.bfmt := rfl
@[simp] theorem modOrd_core_ttcfg (s : State) (f : OrdRegs → OrdRegs) : (s.modOrd f).core.ttcfg = s.core.ttcfg := rfl
@[simp] theorem modOrd_core_ttab (s : State) (f : OrdRegs → OrdRegs) : (s.modOrd f).core.ttab = s.core.ttab := rfl
@[simp] theorem modOrd_core_hand (s : State) (f : OrdRegs → OrdRegs) : (s.modOrd f).core.hand = s.core.hand := rfl
@[simp] theorem modOrd_core_ltags (s : State) (f : OrdRegs → OrdRegs) : (s.modOrd f).core.ltags = s.core.ltags := rfl
@[simp] theorem modOrd_core_line (s : State) (f : OrdRegs → OrdRegs) : (s.modOrd f).core.line = s.core.line := rfl
@[simp] theorem modOrd_core_tlb (s : State) (f : OrdRegs → OrdRegs) : (s.modOrd f).core.tlb = s.core.tlb := rfl
@[simp] theorem modOrd_core_epoch (s : State) (f : OrdRegs → OrdRegs) : (s.modOrd f).core.epoch = s.core.epoch := rfl
@[simp] theorem modOrd_core_yreq (s : State) (f : OrdRegs → OrdRegs) : (s.modOrd f).core.yreq = s.core.yreq := rfl
@[simp] theorem modOrd_core_parkReq (s : State) (f : OrdRegs → OrdRegs) : (s.modOrd f).core.parkReq = s.core.parkReq := rfl
@[simp] theorem modOrd_core_pool (s : State) (f : OrdRegs → OrdRegs) : (s.modOrd f).core.pool = s.core.pool := rfl
@[simp] theorem modOrd_core_rrot (s : State) (f : OrdRegs → OrdRegs) : (s.modOrd f).core.rrot = s.core.rrot := rfl
@[simp] theorem modOrd_core_refused (s : State) (f : OrdRegs → OrdRegs) : (s.modOrd f).core.refused = s.core.refused := rfl
@[simp] theorem modOrd_core_inOrder (s : State) (f : OrdRegs → OrdRegs) : (s.modOrd f).core.inOrder = s.core.inOrder := rfl
@[simp] theorem modOrd_regs_scc (s : State) (f : OrdRegs → OrdRegs) : (s.modOrd f).core.regs.scc = s.core.regs.scc := rfl
@[simp] theorem modOrd_regs_ve (s : State) (f : OrdRegs → OrdRegs) : (s.modOrd f).core.regs.ve = s.core.regs.ve := rfl
@[simp] theorem modOrd_regs_me (s : State) (f : OrdRegs → OrdRegs) : (s.modOrd f).core.regs.me = s.core.regs.me := rfl
@[simp] theorem modOrd_regs_cp (s : State) (f : OrdRegs → OrdRegs) : (s.modOrd f).core.regs.cp = s.core.regs.cp := rfl
@[simp] theorem modOrd_regs_fp (s : State) (f : OrdRegs → OrdRegs) : (s.modOrd f).core.regs.fp = s.core.regs.fp := rfl
@[simp] theorem modOrd_regs_ord (s : State) (f : OrdRegs → OrdRegs) : (s.modOrd f).core.regs.ord = f s.core.regs.ord := rfl
@[simp] theorem modOrd_regs_pend (s : State) (f : OrdRegs → OrdRegs) : (s.modOrd f).core.regs.pend = s.core.regs.pend := rfl
@[simp] theorem modOrd_scc (s : State) (f : OrdRegs → OrdRegs) : (s.modOrd f).scc = s.scc := rfl
@[simp] theorem modOrd_ve (s : State) (f : OrdRegs → OrdRegs) : (s.modOrd f).ve = s.ve := rfl
@[simp] theorem modOrd_me (s : State) (f : OrdRegs → OrdRegs) : (s.modOrd f).me = s.me := rfl
@[simp] theorem modOrd_cp (s : State) (f : OrdRegs → OrdRegs) : (s.modOrd f).cp = s.cp := rfl
@[simp] theorem modOrd_fp (s : State) (f : OrdRegs → OrdRegs) : (s.modOrd f).fp = s.fp := rfl
@[simp] theorem modOrd_ord (s : State) (f : OrdRegs → OrdRegs) : (s.modOrd f).ord = f s.ord := rfl

/-! ## modTask -/

@[simp] theorem modTask_others (s : State) (f : Task → Task) : (s.modTask f).others = s.others := rfl
@[simp] theorem modTask_dies (s : State) (f : Task → Task) : (s.modTask f).dies = s.dies := rfl
@[simp] theorem modTask_mem (s : State) (f : Task → Task) : (s.modTask f).mem = s.mem := rfl
@[simp] theorem modTask_poison (s : State) (f : Task → Task) : (s.modTask f).poison = s.poison := rfl
@[simp] theorem modTask_pkg (s : State) (f : Task → Task) : (s.modTask f).pkg = s.pkg := rfl
@[simp] theorem modTask_extent (s : State) (f : Task → Task) : (s.modTask f).extent = s.extent := rfl
@[simp] theorem modTask_harvest (s : State) (f : Task → Task) : (s.modTask f).harvest = s.harvest := rfl
@[simp] theorem modTask_boot (s : State) (f : Task → Task) : (s.modTask f).boot = s.boot := rfl
@[simp] theorem modTask_msix (s : State) (f : Task → Task) : (s.modTask f).msix = s.msix := rfl
@[simp] theorem modTask_hostAnswer (s : State) (f : Task → Task) : (s.modTask f).hostAnswer = s.hostAnswer := rfl
@[simp] theorem modTask_tasks (s : State) (f : Task → Task) : (s.modTask f).tasks = s.tasks := rfl
@[simp] theorem modTask_joins (s : State) (f : Task → Task) : (s.modTask f).joins = s.joins := rfl
@[simp] theorem modTask_launches (s : State) (f : Task → Task) : (s.modTask f).launches = s.launches := rfl
@[simp] theorem modTask_packets (s : State) (f : Task → Task) : (s.modTask f).packets = s.packets := rfl
@[simp] theorem modTask_packetNum (s : State) (f : Task → Task) : (s.modTask f).packetNum = s.packetNum := rfl
@[simp] theorem modTask_turns (s : State) (f : Task → Task) : (s.modTask f).turns = s.turns := rfl
@[simp] theorem modTask_free (s : State) (f : Task → Task) : (s.modTask f).free = s.free := rfl
@[simp] theorem modTask_core_agent (s : State) (f : Task → Task) : (s.modTask f).core.agent = s.core.agent := rfl
@[simp] theorem modTask_core_regs (s : State) (f : Task → Task) : (s.modTask f).core.regs = s.core.regs := rfl
@[simp] theorem modTask_core_resident (s : State) (f : Task → Task) : (s.modTask f).core.resident = s.core.resident := rfl
@[simp] theorem modTask_core_halted (s : State) (f : Task → Task) : (s.modTask f).core.halted = s.core.halted := rfl
@[simp] theorem modTask_core_bfmt (s : State) (f : Task → Task) : (s.modTask f).core.bfmt = s.core.bfmt := rfl
@[simp] theorem modTask_core_ttcfg (s : State) (f : Task → Task) : (s.modTask f).core.ttcfg = s.core.ttcfg := rfl
@[simp] theorem modTask_core_ttab (s : State) (f : Task → Task) : (s.modTask f).core.ttab = s.core.ttab := rfl
@[simp] theorem modTask_core_hand (s : State) (f : Task → Task) : (s.modTask f).core.hand = s.core.hand := rfl
@[simp] theorem modTask_core_ltags (s : State) (f : Task → Task) : (s.modTask f).core.ltags = s.core.ltags := rfl
@[simp] theorem modTask_core_line (s : State) (f : Task → Task) : (s.modTask f).core.line = s.core.line := rfl
@[simp] theorem modTask_core_tlb (s : State) (f : Task → Task) : (s.modTask f).core.tlb = s.core.tlb := rfl
@[simp] theorem modTask_core_epoch (s : State) (f : Task → Task) : (s.modTask f).core.epoch = s.core.epoch := rfl
@[simp] theorem modTask_core_yreq (s : State) (f : Task → Task) : (s.modTask f).core.yreq = s.core.yreq := rfl
@[simp] theorem modTask_core_parkReq (s : State) (f : Task → Task) : (s.modTask f).core.parkReq = s.core.parkReq := rfl
@[simp] theorem modTask_core_pool (s : State) (f : Task → Task) : (s.modTask f).core.pool = s.core.pool := rfl
@[simp] theorem modTask_core_rrot (s : State) (f : Task → Task) : (s.modTask f).core.rrot = s.core.rrot := rfl
@[simp] theorem modTask_core_refused (s : State) (f : Task → Task) : (s.modTask f).core.refused = s.core.refused := rfl
@[simp] theorem modTask_core_inOrder (s : State) (f : Task → Task) : (s.modTask f).core.inOrder = s.core.inOrder := rfl
@[simp] theorem modTask_task (s : State) (f : Task → Task) : (s.modTask f).core.task = s.core.task.map f := rfl

/-! ## modDie -/

@[simp] theorem modDie_core (s : State) (d : Fin 8) (f : Die → Die) : (s.modDie d f).core = s.core := rfl
@[simp] theorem modDie_others (s : State) (d : Fin 8) (f : Die → Die) : (s.modDie d f).others = s.others := rfl
@[simp] theorem modDie_mem (s : State) (d : Fin 8) (f : Die → Die) : (s.modDie d f).mem = s.mem := rfl
@[simp] theorem modDie_poison (s : State) (d : Fin 8) (f : Die → Die) : (s.modDie d f).poison = s.poison := rfl
@[simp] theorem modDie_pkg (s : State) (d : Fin 8) (f : Die → Die) : (s.modDie d f).pkg = s.pkg := rfl
@[simp] theorem modDie_extent (s : State) (d : Fin 8) (f : Die → Die) : (s.modDie d f).extent = s.extent := rfl
@[simp] theorem modDie_harvest (s : State) (d : Fin 8) (f : Die → Die) : (s.modDie d f).harvest = s.harvest := rfl
@[simp] theorem modDie_boot (s : State) (d : Fin 8) (f : Die → Die) : (s.modDie d f).boot = s.boot := rfl
@[simp] theorem modDie_msix (s : State) (d : Fin 8) (f : Die → Die) : (s.modDie d f).msix = s.msix := rfl
@[simp] theorem modDie_hostAnswer (s : State) (d : Fin 8) (f : Die → Die) : (s.modDie d f).hostAnswer = s.hostAnswer := rfl
@[simp] theorem modDie_tasks (s : State) (d : Fin 8) (f : Die → Die) : (s.modDie d f).tasks = s.tasks := rfl
@[simp] theorem modDie_joins (s : State) (d : Fin 8) (f : Die → Die) : (s.modDie d f).joins = s.joins := rfl
@[simp] theorem modDie_launches (s : State) (d : Fin 8) (f : Die → Die) : (s.modDie d f).launches = s.launches := rfl
@[simp] theorem modDie_packets (s : State) (d : Fin 8) (f : Die → Die) : (s.modDie d f).packets = s.packets := rfl
@[simp] theorem modDie_packetNum (s : State) (d : Fin 8) (f : Die → Die) : (s.modDie d f).packetNum = s.packetNum := rfl
@[simp] theorem modDie_turns (s : State) (d : Fin 8) (f : Die → Die) : (s.modDie d f).turns = s.turns := rfl
@[simp] theorem modDie_free (s : State) (d : Fin 8) (f : Die → Die) : (s.modDie d f).free = s.free := rfl

/-- The die written. -/
@[simp] theorem modDie_dies (s : State) (d : Fin 8) (f : Die → Die) : (s.modDie d f).dies[d] = f s.dies[d] := by
  simp [State.modDie]

/-- Every other die is as it was. -/
theorem modDie_dies_ne (s : State) (d e : Fin 8) (f : Die → Die) (h : d ≠ e) : (s.modDie d f).dies[e] = s.dies[e] := by
  have hv : d.val ≠ e.val := fun hv => h (Fin.ext hv)
  simp only [State.modDie, Fin.getElem_fin]
  exact Vector.getElem_set_ne _ _ hv

/-! ## Scalar registers -/

/-- s0 reads as zero (02 R41). -/
@[simp] theorem sreg_zero (s : State) : s.sreg 0 = 0 := rfl

/-- A write to s0 is discarded (02 R41). -/
@[simp] theorem setS_zero (s : State) (v : Word) : s.setS 0 v = s := by simp [State.setS]

/-- The register written reads back, but for s0. -/
theorem sreg_setS (s : State) (r : SReg) (v : Word) (h : r ≠ 0) : (s.setS r v).sreg r = v := by
  simp [State.setS, State.sreg, State.scc, State.modScc, State.modRegs, h]

/-- Every other register is as it was. -/
theorem sreg_setS_ne (s : State) (r q : SReg) (v : Word) (h : q ≠ r) : (s.setS r v).sreg q = s.sreg q := by
  by_cases h0 : r = 0
  · simp [h0]
  · by_cases hq : q = 0
    · simp [hq]
    · have hv : r.val ≠ q.val := fun e => h (Fin.ext e.symm)
      simp only [State.setS, State.sreg, State.scc, State.modScc, State.modRegs, h0, hq, if_false, Fin.getElem_fin]
      exact Vector.getElem_set_ne _ _ hv

@[simp] theorem setS_others (s : State) (r : SReg) (v : Word) : (s.setS r v).others = s.others := by
  unfold State.setS; split <;> rfl
@[simp] theorem setS_dies (s : State) (r : SReg) (v : Word) : (s.setS r v).dies = s.dies := by
  unfold State.setS; split <;> rfl
@[simp] theorem setS_mem (s : State) (r : SReg) (v : Word) : (s.setS r v).mem = s.mem := by
  unfold State.setS; split <;> rfl
@[simp] theorem setS_poison (s : State) (r : SReg) (v : Word) : (s.setS r v).poison = s.poison := by
  unfold State.setS; split <;> rfl
@[simp] theorem setS_pkg (s : State) (r : SReg) (v : Word) : (s.setS r v).pkg = s.pkg := by
  unfold State.setS; split <;> rfl
@[simp] theorem setS_extent (s : State) (r : SReg) (v : Word) : (s.setS r v).extent = s.extent := by
  unfold State.setS; split <;> rfl
@[simp] theorem setS_harvest (s : State) (r : SReg) (v : Word) : (s.setS r v).harvest = s.harvest := by
  unfold State.setS; split <;> rfl
@[simp] theorem setS_boot (s : State) (r : SReg) (v : Word) : (s.setS r v).boot = s.boot := by
  unfold State.setS; split <;> rfl
@[simp] theorem setS_msix (s : State) (r : SReg) (v : Word) : (s.setS r v).msix = s.msix := by
  unfold State.setS; split <;> rfl
@[simp] theorem setS_hostAnswer (s : State) (r : SReg) (v : Word) : (s.setS r v).hostAnswer = s.hostAnswer := by
  unfold State.setS; split <;> rfl
@[simp] theorem setS_tasks (s : State) (r : SReg) (v : Word) : (s.setS r v).tasks = s.tasks := by
  unfold State.setS; split <;> rfl
@[simp] theorem setS_joins (s : State) (r : SReg) (v : Word) : (s.setS r v).joins = s.joins := by
  unfold State.setS; split <;> rfl
@[simp] theorem setS_launches (s : State) (r : SReg) (v : Word) : (s.setS r v).launches = s.launches := by
  unfold State.setS; split <;> rfl
@[simp] theorem setS_packets (s : State) (r : SReg) (v : Word) : (s.setS r v).packets = s.packets := by
  unfold State.setS; split <;> rfl
@[simp] theorem setS_packetNum (s : State) (r : SReg) (v : Word) : (s.setS r v).packetNum = s.packetNum := by
  unfold State.setS; split <;> rfl
@[simp] theorem setS_turns (s : State) (r : SReg) (v : Word) : (s.setS r v).turns = s.turns := by
  unfold State.setS; split <;> rfl
@[simp] theorem setS_free (s : State) (r : SReg) (v : Word) : (s.setS r v).free = s.free := by
  unfold State.setS; split <;> rfl
@[simp] theorem setS_core_agent (s : State) (r : SReg) (v : Word) : (s.setS r v).core.agent = s.core.agent := by
  unfold State.setS; split <;> rfl
@[simp] theorem setS_core_task (s : State) (r : SReg) (v : Word) : (s.setS r v).core.task = s.core.task := by
  unfold State.setS; split <;> rfl
@[simp] theorem setS_core_resident (s : State) (r : SReg) (v : Word) : (s.setS r v).core.resident = s.core.resident := by
  unfold State.setS; split <;> rfl
@[simp] theorem setS_core_halted (s : State) (r : SReg) (v : Word) : (s.setS r v).core.halted = s.core.halted := by
  unfold State.setS; split <;> rfl
@[simp] theorem setS_core_bfmt (s : State) (r : SReg) (v : Word) : (s.setS r v).core.bfmt = s.core.bfmt := by
  unfold State.setS; split <;> rfl
@[simp] theorem setS_core_ttcfg (s : State) (r : SReg) (v : Word) : (s.setS r v).core.ttcfg = s.core.ttcfg := by
  unfold State.setS; split <;> rfl
@[simp] theorem setS_core_ttab (s : State) (r : SReg) (v : Word) : (s.setS r v).core.ttab = s.core.ttab := by
  unfold State.setS; split <;> rfl
@[simp] theorem setS_core_hand (s : State) (r : SReg) (v : Word) : (s.setS r v).core.hand = s.core.hand := by
  unfold State.setS; split <;> rfl
@[simp] theorem setS_core_ltags (s : State) (r : SReg) (v : Word) : (s.setS r v).core.ltags = s.core.ltags := by
  unfold State.setS; split <;> rfl
@[simp] theorem setS_core_line (s : State) (r : SReg) (v : Word) : (s.setS r v).core.line = s.core.line := by
  unfold State.setS; split <;> rfl
@[simp] theorem setS_core_tlb (s : State) (r : SReg) (v : Word) : (s.setS r v).core.tlb = s.core.tlb := by
  unfold State.setS; split <;> rfl
@[simp] theorem setS_core_epoch (s : State) (r : SReg) (v : Word) : (s.setS r v).core.epoch = s.core.epoch := by
  unfold State.setS; split <;> rfl
@[simp] theorem setS_core_yreq (s : State) (r : SReg) (v : Word) : (s.setS r v).core.yreq = s.core.yreq := by
  unfold State.setS; split <;> rfl
@[simp] theorem setS_core_parkReq (s : State) (r : SReg) (v : Word) : (s.setS r v).core.parkReq = s.core.parkReq := by
  unfold State.setS; split <;> rfl
@[simp] theorem setS_core_pool (s : State) (r : SReg) (v : Word) : (s.setS r v).core.pool = s.core.pool := by
  unfold State.setS; split <;> rfl
@[simp] theorem setS_core_rrot (s : State) (r : SReg) (v : Word) : (s.setS r v).core.rrot = s.core.rrot := by
  unfold State.setS; split <;> rfl
@[simp] theorem setS_core_refused (s : State) (r : SReg) (v : Word) : (s.setS r v).core.refused = s.core.refused := by
  unfold State.setS; split <;> rfl
@[simp] theorem setS_core_inOrder (s : State) (r : SReg) (v : Word) : (s.setS r v).core.inOrder = s.core.inOrder := by
  unfold State.setS; split <;> rfl
@[simp] theorem setS_regs_ve (s : State) (r : SReg) (v : Word) :
    (s.setS r v).core.regs.ve = s.core.regs.ve := by
  unfold State.setS; split <;> rfl
@[simp] theorem setS_regs_me (s : State) (r : SReg) (v : Word) :
    (s.setS r v).core.regs.me = s.core.regs.me := by
  unfold State.setS; split <;> rfl
@[simp] theorem setS_regs_cp (s : State) (r : SReg) (v : Word) :
    (s.setS r v).core.regs.cp = s.core.regs.cp := by
  unfold State.setS; split <;> rfl
@[simp] theorem setS_regs_fp (s : State) (r : SReg) (v : Word) :
    (s.setS r v).core.regs.fp = s.core.regs.fp := by
  unfold State.setS; split <;> rfl
@[simp] theorem setS_regs_ord (s : State) (r : SReg) (v : Word) :
    (s.setS r v).core.regs.ord = s.core.regs.ord := by
  unfold State.setS; split <;> rfl
@[simp] theorem setS_regs_pend (s : State) (r : SReg) (v : Word) :
    (s.setS r v).core.regs.pend = s.core.regs.pend := by
  unfold State.setS; split <;> rfl

end Sys2Proof.Machine
end

