-- ==== Sys2Proof/Laws/Ops.lean ====
section
/-! SUPPORT. The shared operations of the SCC: what issuing, holding and taking the step of an instruction can do. -/

namespace Sys2Proof.Machine

/-! ## An instruction has issued -/

@[simp] theorem retire_others (s : State) : (retire s).others = s.others := rfl
@[simp] theorem retire_dies (s : State) : (retire s).dies = s.dies := rfl
@[simp] theorem retire_mem (s : State) : (retire s).mem = s.mem := rfl
@[simp] theorem retire_poison (s : State) : (retire s).poison = s.poison := rfl
@[simp] theorem retire_pkg (s : State) : (retire s).pkg = s.pkg := rfl
@[simp] theorem retire_extent (s : State) : (retire s).extent = s.extent := rfl
@[simp] theorem retire_harvest (s : State) : (retire s).harvest = s.harvest := rfl
@[simp] theorem retire_boot (s : State) : (retire s).boot = s.boot := rfl
@[simp] theorem retire_msix (s : State) : (retire s).msix = s.msix := rfl
@[simp] theorem retire_hostAnswer (s : State) : (retire s).hostAnswer = s.hostAnswer := rfl
@[simp] theorem retire_tasks (s : State) : (retire s).tasks = s.tasks := rfl
@[simp] theorem retire_joins (s : State) : (retire s).joins = s.joins := rfl
@[simp] theorem retire_launches (s : State) : (retire s).launches = s.launches := rfl
@[simp] theorem retire_packets (s : State) : (retire s).packets = s.packets := rfl
@[simp] theorem retire_packetNum (s : State) : (retire s).packetNum = s.packetNum := rfl
@[simp] theorem retire_turns (s : State) : (retire s).turns = s.turns := rfl
@[simp] theorem retire_free (s : State) : (retire s).free = s.free := rfl
@[simp] theorem retire_core_agent (s : State) : (retire s).core.agent = s.core.agent := rfl
@[simp] theorem retire_core_task (s : State) : (retire s).core.task = s.core.task := rfl
@[simp] theorem retire_core_resident (s : State) : (retire s).core.resident = s.core.resident := rfl
@[simp] theorem retire_core_halted (s : State) : (retire s).core.halted = s.core.halted := rfl
@[simp] theorem retire_core_bfmt (s : State) : (retire s).core.bfmt = s.core.bfmt := rfl
@[simp] theorem retire_core_ttcfg (s : State) : (retire s).core.ttcfg = s.core.ttcfg := rfl
@[simp] theorem retire_core_ttab (s : State) : (retire s).core.ttab = s.core.ttab := rfl
@[simp] theorem retire_core_hand (s : State) : (retire s).core.hand = s.core.hand := rfl
@[simp] theorem retire_core_ltags (s : State) : (retire s).core.ltags = s.core.ltags := rfl
@[simp] theorem retire_core_line (s : State) : (retire s).core.line = s.core.line := rfl
@[simp] theorem retire_core_tlb (s : State) : (retire s).core.tlb = s.core.tlb := rfl
@[simp] theorem retire_core_epoch (s : State) : (retire s).core.epoch = s.core.epoch := rfl
@[simp] theorem retire_core_yreq (s : State) : (retire s).core.yreq = s.core.yreq := rfl
@[simp] theorem retire_core_parkReq (s : State) : (retire s).core.parkReq = s.core.parkReq := rfl
@[simp] theorem retire_core_pool (s : State) : (retire s).core.pool = s.core.pool := rfl
@[simp] theorem retire_core_rrot (s : State) : (retire s).core.rrot = s.core.rrot := rfl
@[simp] theorem retire_core_refused (s : State) : (retire s).core.refused = s.core.refused := rfl
@[simp] theorem retire_core_inOrder (s : State) : (retire s).core.inOrder = s.core.inOrder := rfl
@[simp] theorem retire_regs_ve (s : State) : (retire s).core.regs.ve = s.core.regs.ve := rfl
@[simp] theorem retire_regs_me (s : State) : (retire s).core.regs.me = s.core.regs.me := rfl
@[simp] theorem retire_regs_cp (s : State) : (retire s).core.regs.cp = s.core.regs.cp := rfl
@[simp] theorem retire_regs_fp (s : State) : (retire s).core.regs.fp = s.core.regs.fp := rfl
@[simp] theorem retire_regs_ord (s : State) : (retire s).core.regs.ord = s.core.regs.ord := rfl
@[simp] theorem retire_regs_pend (s : State) : (retire s).core.regs.pend = s.core.regs.pend := rfl
@[simp] theorem retire_scc_s (s : State) : (retire s).scc.s = s.scc.s := rfl
@[simp] theorem retire_scc_res (s : State) : (retire s).scc.res = s.scc.res := rfl
@[simp] theorem retire_scc_resseq (s : State) : (retire s).scc.resseq = s.scc.resseq := rfl
@[simp] theorem retire_sreg (s : State) (r : SReg) : (retire s).sreg r = s.sreg r := rfl

/-! ## An instruction holds -/

@[simp] theorem holds_others (s : State) : (holds s).others = s.others := rfl
@[simp] theorem holds_dies (s : State) : (holds s).dies = s.dies := rfl
@[simp] theorem holds_mem (s : State) : (holds s).mem = s.mem := rfl
@[simp] theorem holds_poison (s : State) : (holds s).poison = s.poison := rfl
@[simp] theorem holds_pkg (s : State) : (holds s).pkg = s.pkg := rfl
@[simp] theorem holds_extent (s : State) : (holds s).extent = s.extent := rfl
@[simp] theorem holds_harvest (s : State) : (holds s).harvest = s.harvest := rfl
@[simp] theorem holds_boot (s : State) : (holds s).boot = s.boot := rfl
@[simp] theorem holds_msix (s : State) : (holds s).msix = s.msix := rfl
@[simp] theorem holds_hostAnswer (s : State) : (holds s).hostAnswer = s.hostAnswer := rfl
@[simp] theorem holds_tasks (s : State) : (holds s).tasks = s.tasks := rfl
@[simp] theorem holds_joins (s : State) : (holds s).joins = s.joins := rfl
@[simp] theorem holds_launches (s : State) : (holds s).launches = s.launches := rfl
@[simp] theorem holds_packets (s : State) : (holds s).packets = s.packets := rfl
@[simp] theorem holds_packetNum (s : State) : (holds s).packetNum = s.packetNum := rfl
@[simp] theorem holds_turns (s : State) : (holds s).turns = s.turns := rfl
@[simp] theorem holds_free (s : State) : (holds s).free = s.free := rfl
@[simp] theorem holds_core_agent (s : State) : (holds s).core.agent = s.core.agent := rfl
@[simp] theorem holds_core_task (s : State) : (holds s).core.task = s.core.task := rfl
@[simp] theorem holds_core_resident (s : State) : (holds s).core.resident = s.core.resident := rfl
@[simp] theorem holds_core_halted (s : State) : (holds s).core.halted = s.core.halted := rfl
@[simp] theorem holds_core_bfmt (s : State) : (holds s).core.bfmt = s.core.bfmt := rfl
@[simp] theorem holds_core_ttcfg (s : State) : (holds s).core.ttcfg = s.core.ttcfg := rfl
@[simp] theorem holds_core_ttab (s : State) : (holds s).core.ttab = s.core.ttab := rfl
@[simp] theorem holds_core_hand (s : State) : (holds s).core.hand = s.core.hand := rfl
@[simp] theorem holds_core_ltags (s : State) : (holds s).core.ltags = s.core.ltags := rfl
@[simp] theorem holds_core_line (s : State) : (holds s).core.line = s.core.line := rfl
@[simp] theorem holds_core_tlb (s : State) : (holds s).core.tlb = s.core.tlb := rfl
@[simp] theorem holds_core_epoch (s : State) : (holds s).core.epoch = s.core.epoch := rfl
@[simp] theorem holds_core_yreq (s : State) : (holds s).core.yreq = s.core.yreq := rfl
@[simp] theorem holds_core_parkReq (s : State) : (holds s).core.parkReq = s.core.parkReq := rfl
@[simp] theorem holds_core_pool (s : State) : (holds s).core.pool = s.core.pool := rfl
@[simp] theorem holds_core_rrot (s : State) : (holds s).core.rrot = s.core.rrot := rfl
@[simp] theorem holds_core_refused (s : State) : (holds s).core.refused = s.core.refused := rfl
@[simp] theorem holds_core_inOrder (s : State) : (holds s).core.inOrder = s.core.inOrder := rfl
@[simp] theorem holds_regs_ve (s : State) : (holds s).core.regs.ve = s.core.regs.ve := rfl
@[simp] theorem holds_regs_me (s : State) : (holds s).core.regs.me = s.core.regs.me := rfl
@[simp] theorem holds_regs_cp (s : State) : (holds s).core.regs.cp = s.core.regs.cp := rfl
@[simp] theorem holds_regs_fp (s : State) : (holds s).core.regs.fp = s.core.regs.fp := rfl
@[simp] theorem holds_regs_ord (s : State) : (holds s).core.regs.ord = s.core.regs.ord := rfl
@[simp] theorem holds_regs_pend (s : State) : (holds s).core.regs.pend = s.core.regs.pend := rfl
@[simp] theorem holds_scc_s (s : State) : (holds s).scc.s = s.scc.s := rfl
@[simp] theorem holds_scc_res (s : State) : (holds s).scc.res = s.scc.res := rfl
@[simp] theorem holds_scc_resseq (s : State) : (holds s).scc.resseq = s.scc.resseq := rfl
@[simp] theorem holds_sreg (s : State) (r : SReg) : (holds s).sreg r = s.sreg r := rfl

/-- The queue moves up by one place, and the instruction after it enters (05 R89). -/
theorem retire_pcq (s : State) : (retire s).scc.pcq0 = s.scc.pcq1 ∧ (retire s).scc.pcq1 = s.scc.pcq2 ∧
    (retire s).scc.pcq2 = ⟨BitVec.ofNat 64 (seqOf s s.scc.pcq2.addr.toNat), false⟩ := ⟨rfl, rfl, rfl⟩

/-- The instruction counts (12 R335). -/
theorem retire_idx (s : State) : (retire s).scc.idx = s.scc.idx + 1 := rfl

/-- A held instruction has not issued. -/
theorem holds_pcq (s : State) : (holds s).scc.pcq0 = s.scc.pcq0 ∧ (holds s).scc.pcq1 = s.scc.pcq1 ∧
    (holds s).scc.pcq2 = s.scc.pcq2 ∧ (holds s).scc.idx = s.scc.idx := ⟨rfl, rfl, rfl, rfl⟩

/-! ## Operations on scalar registers -/

/-- With its registers ready an operation takes its step. -/
theorem sccOp_ready {rs : List SReg} {s : State} (h : ready s rs = true) (f : State → State) : sccOp rs s f = .next (f s) := by
  simp [sccOp, h]

/-- With a register awaited it holds. -/
theorem sccOp_waits {rs : List SReg} {s : State} (h : ready s rs = false) (f : State → State) :
    sccOp rs s f = .next (holds s) := by simp [sccOp, h]

/-- A register write with its registers ready. -/
theorem sccWrite_ready {d : SReg} {rs : List SReg} {s : State} (h : ready s (d :: rs) = true) (v : State → Word) :
    sccWrite d rs s v = .next (retire (s.setS d (v s))) := sccOp_ready h _

/-- A register write issues with the value, or holds: nothing else can come of it. -/
theorem sccWrite_cases (d : SReg) (rs : List SReg) (s : State) (v : State → Word) :
    sccWrite d rs s v = .next (retire (s.setS d (v s))) ∨ sccWrite d rs s v = .next (holds s) := by
  unfold sccWrite sccOp; split
  · exact .inl rfl
  · exact .inr rfl

/-- In the privileged view a privileged form has its effect. -/
theorem privileged_on {s : State} (h : s.isPriv = true) (f : State → Out) : privileged s f = f s := by simp [privileged, h]

/-- In the unprivileged view it raises PRIV. -/
theorem privileged_off {s : State} (h : s.isPriv = false) (f : State → Out) :
    privileged s f = .next (trap s (plainFail .priv)) := by simp [privileged, h]

/-- A feature that the die has accepted lets a gated form through. -/
theorem featured_on {s : State} {b : Nat} (h : s.hasFeature b = true) (f : State → Out) : featured b s f = f s := by
  simp [featured, h]

/-- Without it the form raises ILLFEATURE. -/
theorem featured_off {s : State} {b : Nat} (h : s.hasFeature b = false) (f : State → Out) :
    featured b s f = .next (trap s (plainFail .illfeature)) := by simp [featured, h]

end Sys2Proof.Machine
end

