-- ==== Sys2Proof/Laws/Issue.lean ====
section
/-! SUPPORT. What issue depends on and leaves: the next instruction in program order reads only what fetch reads, and an
instruction that writes a scalar register leaves `Safety.wrote`. -/

namespace Sys2Proof.Machine

open Sys2Proof.Safety

/-- Two states in which fetch finds the same: the line, the agent, the core's TLB, the task, the dies, memory, poison and
the package number agree. -/
structure SameFetch (s t : State) : Prop where
  line : t.core.line = s.core.line
  agent : t.core.agent = s.core.agent
  tlb : t.core.tlb = s.core.tlb
  task : t.core.task = s.core.task
  dies : t.dies = s.dies
  mem : t.mem = s.mem
  poison : t.poison = s.poison
  pkg : t.pkg = s.pkg

section
variable {s t : State} (h : SameFetch s t)
include h

theorem SameFetch.le : t.le = s.le := by
  funext k n
  simp only [State.le, State.bytes, h.mem]

theorem SameFetch.ctxAt : t.ctxAt = s.ctxAt := by
  funext d c
  simp only [State.ctxAt, h.dies, h.pkg]

theorem SameFetch.walkFrom (mask : Word) (va : Nat) : ∀ fuel step node,
    Machine.walkFrom t mask va fuel step node = Machine.walkFrom s mask va fuel step node := by
  intro fuel
  induction fuel with
  | zero => intros; rfl
  | succ n ih =>
    intro step node
    simp only [Machine.walkFrom, h.le, h.poison, h.pkg, ih]

theorem SameFetch.walk (d : Fin 8) (c : Fin 64) (va : Nat) : Machine.walk t d c va = Machine.walk s d c va := by
  simp only [Machine.walk, h.walkFrom, h.ctxAt, h.pkg]

theorem SameFetch.ownerDie (p : BitVec 15) : Machine.ownerDie t p = Machine.ownerDie s p := by
  simp only [Machine.ownerDie, h.pkg]

theorem SameFetch.checkLeaf (d : Fin 8) (c : Fin 64) (priv : Bool) (need : Need) (va : Nat) (l : Leaf) :
    Machine.checkLeaf t d c priv need va l = Machine.checkLeaf s d c priv need va l := by
  have hp : checkedPage t l = checkedPage s l := by
    unfold checkedPage
    rw [h.ownerDie]
    cases Machine.ownerDie s l.peer <;> simp only [h.dies]
  simp only [Machine.checkLeaf, hp, h.ownerDie, h.ctxAt, h.dies]

theorem SameFetch.translate (c c' : Core) (hc : c'.tlb = c.tlb) (d : Fin 8) (x : Fin 64) (priv : Bool) (need : Need) (va : Nat) :
    Machine.translate t (some c') d x priv need va = Machine.translate s (some c) d x priv need va := by
  simp only [Machine.translate, leafFor, Option.bind_some, hc, h.dies, h.walk, h.checkLeaf]

theorem SameFetch.ctx : t.ctx = s.ctx := by simp only [State.ctx, h.task]

theorem SameFetch.isPriv : t.isPriv = s.isPriv := by simp only [State.isPriv, h.task]

theorem SameFetch.fetchLine (a : Nat) : Machine.fetchLine t a = Machine.fetchLine s a := by
  have hn : fetchLine.fetchNew t a = fetchLine.fetchNew s a := by
    simp only [fetchLine.fetchNew, h.agent, h.ctx, h.isPriv, h.poison, laneWordAt, h.le,
      h.translate s.core t.core h.tlb]
  simp only [Machine.fetchLine, h.line, hn]

theorem SameFetch.resolveFrom : ∀ fuel a i, Machine.resolveFrom t fuel a i = Machine.resolveFrom s fuel a i := by
  intro fuel
  induction fuel with
  | zero => intros; rfl
  | succ n ih => intro a i; simp only [Machine.resolveFrom, h.fetchLine, ih]

theorem SameFetch.resolveAt (x : Nat) : Machine.resolveAt t x = Machine.resolveAt s x := by
  simp only [Machine.resolveAt, h.resolveFrom]

theorem SameFetch.afterLane (x : Nat) : Machine.afterLane t x = Machine.afterLane s x := by
  simp only [Machine.afterLane, h.fetchLine]

/-- The next instruction in program order depends on what fetch reads only. -/
theorem SameFetch.seqOf (x : Nat) : Machine.seqOf t x = Machine.seqOf s x := by
  simp only [Machine.seqOf, h.resolveAt, h.afterLane]

end

theorem sameFetch_withScc (s : State) (r : SccRegs) : SameFetch s (withScc s r) := ⟨rfl, rfl, rfl, rfl, rfl, rfl, rfl, rfl⟩

theorem sameFetch_modRegs (s : State) (f : TaskRegs → TaskRegs) : SameFetch s (s.modRegs f) :=
  ⟨rfl, rfl, rfl, rfl, rfl, rfl, rfl, rfl⟩

theorem modScc_eq (s : State) (f : SccRegs → SccRegs) : s.modScc f = withScc s (f s.scc) := rfl

theorem retire_eq_passed (s : State) : retire s = passed s := rfl

theorem holds_eq_waiting (s : State) : holds s = waiting s := rfl

/-- A register written by an instruction that issues. -/
theorem retire_setS (s : State) (d : SReg) (v : Word) : retire (s.setS d v) = wrote s d v := by
  unfold State.setS wrote writeReg
  by_cases h : d = 0
  · rw [if_pos h, if_pos h]; rfl
  · rw [if_neg h, if_neg h, modScc_eq, retire_eq_passed, passed, wrote, (sameFetch_withScc _ _).seqOf]; rfl

/-- An operation that writes one register, with its registers ready. -/
theorem sccWrite_wrote {d : SReg} {rs : List SReg} {s : State} (h : ready s (d :: rs) = true) (v : State → Word) :
    sccWrite d rs s v = .next (wrote s d (v s)) := by rw [← retire_setS]; exact sccWrite_ready h v

/-- What s[r] reads after a register was written. -/
theorem wrote_sreg (s : State) (d r : SReg) (v : Word) : (wrote s d v).sreg r = if r = d ∧ d ≠ 0 then v else s.sreg r := by
  by_cases hr : r = 0
  · subst hr
    by_cases hd : (0 : SReg) = d
    · simp [State.sreg, hd]
    · simp [State.sreg, hd]
  · by_cases hd : d = 0
    · subst hd
      simp only [State.sreg, if_neg hr, ne_eq, not_true_eq_false, and_false, if_false]
      rfl
    · have e : (wrote s d v).scc.s = s.scc.s.set d v := by
        show writeReg s d v = _
        simp only [writeReg, if_neg hd]
      simp only [State.sreg, if_neg hr, e, ne_eq, hd, not_false_eq_true, and_true]
      by_cases hrd : r = d
      · subst hrd; simp
      · rw [if_neg hrd]
        have : (d : Nat) ≠ r := fun q => hrd (Fin.ext q.symm)
        simp [Vector.getElem_set_ne, this]

end Sys2Proof.Machine
end

