-- ==== Sys2Proof/Laws/Memory.lean ====
section
/-! SUPPORT. Memory: every operation keeps the canonical form, a byte written reads back, every other byte is as it was. -/

namespace Sys2Proof.Machine

open Sys2Proof

/-! ## The canonical form -/

theorem wfFrom_mono {m : List Host.Cell} {lo lo' : Nat} (h : Memory.wfFrom lo m = true) (hl : lo' ≤ lo) :
    Memory.wfFrom lo' m = true := by
  cases m with
  | nil => rfl
  | cons c m =>
    obtain ⟨k, b⟩ := c
    simp only [Memory.wfFrom, Bool.and_eq_true, decide_eq_true_eq] at h ⊢
    exact ⟨⟨by omega, h.1.2⟩, h.2⟩

theorem wfFrom_cons {k lo : Nat} {b : Byte} {m : List Host.Cell} (h : Memory.wfFrom lo ((k, b) :: m) = true) :
    lo ≤ k ∧ b ≠ emptyByte ∧ Memory.wfFrom (k + 1) m = true := by
  simp only [Memory.wfFrom, Bool.and_eq_true, decide_eq_true_eq] at h
  exact ⟨h.1.1, h.1.2, h.2⟩

theorem consCell_wfFrom {a lo : Nat} {v : Byte} {m : List Host.Cell} (h : Memory.wfFrom (a + 1) m = true) (hl : lo ≤ a) :
    Memory.wfFrom lo (consCell a v m) = true := by
  unfold consCell
  split
  · exact wfFrom_mono h (by omega)
  · simp only [Memory.wfFrom, Bool.and_eq_true, decide_eq_true_eq]; exact ⟨⟨hl, by assumption⟩, h⟩

theorem memSet_wfFrom {m : List Host.Cell} {lo : Nat} (h : Memory.wfFrom lo m = true) (a : Nat) (v : Byte) (hl : lo ≤ a) :
    Memory.wfFrom lo (memSet m a v) = true := by
  induction m generalizing lo with
  | nil => exact consCell_wfFrom rfl hl
  | cons c m ih =>
    obtain ⟨k, b⟩ := c
    have hc := wfFrom_cons h
    unfold memSet
    split
    · refine consCell_wfFrom ?_ hl
      simp only [Memory.wfFrom, Bool.and_eq_true, decide_eq_true_eq]; exact ⟨⟨by omega, hc.2.1⟩, hc.2.2⟩
    · split
      · exact consCell_wfFrom (wfFrom_mono hc.2.2 (by omega)) hl
      · simp only [Memory.wfFrom, Bool.and_eq_true, decide_eq_true_eq]
        exact ⟨⟨hc.1, hc.2.1⟩, ih hc.2.2 (by omega)⟩

/-- A write of one byte keeps the canonical form. -/
theorem memSet_wf {m : List Host.Cell} (h : Memory.wf m = true) (a : Nat) (v : Byte) : Memory.wf (memSet m a v) = true :=
  memSet_wfFrom h a v (Nat.zero_le a)

/-- A write of some bytes keeps the canonical form. -/
theorem memSetList_wf {m : List Host.Cell} (h : Memory.wf m = true) (a : Nat) (bs : List Byte) :
    Memory.wf (memSetList m a bs) = true := by
  induction bs generalizing m a with
  | nil => exact h
  | cons b bs ih => exact ih (memSet_wf h a b) (a + 1)

theorem filter_wfFrom {m : List Host.Cell} {lo : Nat} (h : Memory.wfFrom lo m = true) (p : Host.Cell → Bool) :
    Memory.wfFrom lo (m.filter p) = true := by
  induction m generalizing lo with
  | nil => rfl
  | cons c m ih =>
    obtain ⟨k, b⟩ := c
    have hc := wfFrom_cons h
    rw [List.filter_cons]
    split
    · simp only [Memory.wfFrom, Bool.and_eq_true, decide_eq_true_eq]; exact ⟨⟨hc.1, hc.2.1⟩, ih hc.2.2⟩
    · exact wfFrom_mono (ih hc.2.2) (by omega)

/-- Clearing a range keeps the canonical form. -/
theorem memClear_wf {m : List Host.Cell} (h : Memory.wf m = true) (lo hi : Nat) : Memory.wf (memClear m lo hi) = true :=
  filter_wfFrom h _

/-- A write to a scratchpad keeps the canonical form. -/
theorem spadSet_wf {m : List Host.Cell} (h : Memory.wf m = true) (c : Core) (off : Nat) (bs : List Byte) :
    Memory.wf (spadSet m c off bs) = true := by
  induction bs generalizing m off with
  | nil => exact h
  | cons b bs ih => exact ih (memSet_wf h _ b) (off + 1)

/-- Bytes put back into a range keep the canonical form. -/
theorem putCells_wf {m : List Host.Cell} (h : Memory.wf m = true) (lo n : Nat) (cs : List (Nat × Byte)) :
    Memory.wf (putCells m lo n cs) = true := by
  unfold putCells
  suffices ∀ l : List (Nat × Byte), ∀ x : List Host.Cell, Memory.wf x = true →
      Memory.wf (l.foldl (fun m c => memSet m (lo + c.1) c.2) x) = true from this cs _ (memClear_wf h _ _)
  intro l
  induction l with
  | nil => exact fun x hx => hx
  | cons c l ih => exact fun x hx => ih _ (memSet_wf hx _ _)

/-! ## Reading and writing -/

theorem memGet_below {m : List Host.Cell} {lo a : Nat} (h : Memory.wfFrom lo m = true) (ha : a < lo) :
    memGet m a = emptyByte := by
  cases m with
  | nil => rfl
  | cons c m =>
    obtain ⟨k, b⟩ := c
    have hc := wfFrom_cons h
    unfold memGet
    rw [if_neg (by omega), if_pos (by omega)]

theorem memGet_consCell {m : List Host.Cell} {k a : Nat} {v : Byte} (h : Memory.wfFrom (k + 1) m = true) :
    memGet (consCell k v m) a = if a = k then v else memGet m a := by
  unfold consCell
  by_cases hv : v = emptyByte
  · rw [if_pos hv]
    split
    · subst a; rw [memGet_below h (by omega), hv]
    · rfl
  · rw [if_neg hv]
    conv_lhs => unfold memGet
    by_cases hk : k = a
    · simp [hk]
    · rw [if_neg hk]
      by_cases hl : a < k
      · rw [if_pos hl, if_neg (by omega), memGet_below h (by omega)]
      · rw [if_neg hl, if_neg (by omega)]

theorem memGet_memSet_from {m : List Host.Cell} {lo : Nat} (h : Memory.wfFrom lo m = true) (a b : Nat) (v : Byte)
    (hl : lo ≤ a) : memGet (memSet m a v) b = if b = a then v else memGet m b := by
  induction m generalizing lo with
  | nil => exact memGet_consCell rfl
  | cons c m ih =>
    obtain ⟨k, x⟩ := c
    have hc := wfFrom_cons h
    unfold memSet
    by_cases h1 : a < k
    · rw [if_pos h1]
      refine memGet_consCell ?_
      simp only [Memory.wfFrom, Bool.and_eq_true, decide_eq_true_eq]; exact ⟨⟨by omega, hc.2.1⟩, hc.2.2⟩
    · rw [if_neg h1]
      by_cases h2 : a = k
      · rw [if_pos h2, memGet_consCell (wfFrom_mono hc.2.2 (by omega))]
        split
        · rfl
        · conv_rhs => unfold memGet
          rw [if_neg (by omega)]
          by_cases h3 : b < k
          · rw [if_pos h3, memGet_below hc.2.2 (by omega)]
          · rw [if_neg h3]
      · rw [if_neg h2]
        conv_lhs => unfold memGet
        conv_rhs => rw [memGet.eq_def (_ :: _)]
        simp only
        by_cases h3 : k = b
        · rw [if_pos h3, if_neg (by omega), if_pos h3]
        · rw [if_neg h3]
          by_cases h4 : b < k
          · rw [if_pos h4, if_neg (by omega), if_neg h3, if_pos h4]
          · rw [if_neg h4, ih hc.2.2 (by omega), if_neg h3, if_neg h4]

/-- A byte written reads back, every other byte is as it was. -/
theorem memGet_memSet {m : List Host.Cell} (h : Memory.wf m = true) (a b : Nat) (v : Byte) :
    memGet (memSet m a v) b = if b = a then v else memGet m b := memGet_memSet_from h a b v (Nat.zero_le a)

/-- A write of some bytes leaves every byte outside them as it was. -/
theorem memGet_memSetList_out {m : List Host.Cell} (h : Memory.wf m = true) (a b : Nat) (bs : List Byte)
    (hb : b < a ∨ a + bs.length ≤ b) : memGet (memSetList m a bs) b = memGet m b := by
  induction bs generalizing m a with
  | nil => rfl
  | cons x bs ih =>
    simp only [List.length_cons] at hb
    rw [memSetList, ih (memSet_wf h a x) (a + 1) (by omega), memGet_memSet h, if_neg (by omega)]

/-- Each byte written reads back. -/
theorem memGet_memSetList_in {m : List Host.Cell} (h : Memory.wf m = true) (a i : Nat) (bs : List Byte) (hi : i < bs.length) :
    memGet (memSetList m a bs) (a + i) = bs[i] := by
  induction bs generalizing m a i with
  | nil => simp at hi
  | cons x bs ih =>
    cases i with
    | zero => rw [memSetList, memGet_memSetList_out (memSet_wf h a x) _ _ _ (by omega), memGet_memSet h]; simp
    | succ i =>
      have := ih (memSet_wf h a x) (a + 1) i (by simpa using hi)
      rw [memSetList, show a + (i + 1) = a + 1 + i by omega, this]; rfl

/-- Reading as many bytes as have just been written gives them back. -/
theorem memGetList_memSetList {m : List Host.Cell} (h : Memory.wf m = true) (a : Nat) (bs : List Byte) :
    memGetList (memSetList m a bs) a bs.length = bs := by
  have key : ∀ n (m : List Host.Cell) a, memGetList m a n = (List.range n).map fun i => memGet m (a + i) := by
    intro n
    induction n with
    | zero => intros; rfl
    | succ n ih =>
      intro m a
      rw [memGetList, ih, List.range_succ_eq_map, List.map_cons, List.map_map]
      congr 1
      apply List.map_congr_left
      intro i _
      simp [Nat.add_assoc, Nat.add_comm 1 i]
  rw [key]
  apply List.ext_getElem
  · simp
  · intro i h1 h2
    simp only [List.getElem_map, List.getElem_range]
    exact memGet_memSetList_in h a i bs h2

/-- A number's bytes read back as the number (00 R7). -/
theorem leNat_leBytes (n v : Nat) : leNat (leBytes n v) = v % 256 ^ n := by
  induction n generalizing v with
  | zero => simp [leBytes, leNat, Nat.mod_one]
  | succ n ih =>
    simp only [leBytes, leNat, ih, BitVec.toNat_ofNat]
    have e : 256 ^ (n + 1) = 256 * 256 ^ n := Nat.pow_succ'
    rw [e, Nat.mod_mul]

/-- A number's bytes are as many as asked for. -/
@[simp] theorem leBytes_length (n v : Nat) : (leBytes n v).length = n := by
  induction n generalizing v with
  | zero => rfl
  | succ n ih => simp [leBytes, ih]

/-! ## States -/

/-- Marking lines dirty leaves memory as it was. -/
theorem markDirty_mem (s : State) (k n : Nat) : (markDirty s k n).mem = s.mem := by
  have line : ∀ (s : State) d l, (markDirtyLine s d l).mem = s.mem := by
    intro s d l; unfold markDirtyLine; dsimp only; split <;> rfl
  have fold : ∀ (ls : List Nat) (s : State) d, (ls.foldl (fun s l => markDirtyLine s d l) s).mem = s.mem := by
    intro ls
    induction ls with
    | nil => intros; rfl
    | cons l ls ih => intro s d; rw [List.foldl_cons, ih, line]
  unfold markDirty
  split
  · rfl
  · split
    · rfl
    · exact fold _ _ _

/-- What a store makes of memory. -/
theorem store_mem (s : State) (k : Nat) (bs : List Byte) : (s.store k bs).mem = memSetList s.mem k bs := by
  simp only [State.store, markDirty_mem]

/-- A store keeps the canonical form. -/
theorem store_wf {s : State} (h : Memory.wf s.mem = true) (k : Nat) (bs : List Byte) : Memory.wf (s.store k bs).mem = true := by
  rw [store_mem]; exact memSetList_wf h k bs

/-- Reset lists nothing, which is in canonical form. -/
theorem reset_mem_wf : Memory.wf State.reset.mem = true := rfl

end Sys2Proof.Machine
end

