-- ==== Sys2Proof/Laws/Spad.lean ====
section
/-! SUPPORT. The scratchpad: a swizzle is its own inverse within 4 KiB (08 R214), so that each logical offset has a byte of its
own, and what a store makes of memory and poison (08 R212, 12 R354). -/

namespace Sys2Proof.Machine

open Sys2Proof

/-! ## Swizzles -/

theorem swizzle_high (w h l : Nat) (hl : l < 4096) : swizzle w (4096 * h + l) = 4096 * h + swizzle w l := by
  unfold swizzle bits
  split
  · rfl
  · rw [show (4096 * h + l) / 2 ^ 7 % 2 ^ 2 = l / 2 ^ 7 % 2 ^ 2 by omega,
      show (4096 * h + l) / 2 ^ 10 % 2 ^ 2 = l / 2 ^ 10 % 2 ^ 2 by omega]
    have : l / 2 ^ 7 % 2 ^ 2 * 128 ≤ l := by omega
    omega
  · rw [show (4096 * h + l) / 2 ^ 9 % 2 ^ 2 = l / 2 ^ 9 % 2 ^ 2 by omega,
      show (4096 * h + l) / 2 ^ 7 % 2 ^ 2 = l / 2 ^ 7 % 2 ^ 2 by omega]
    have : l / 2 ^ 9 % 2 ^ 2 * 512 ≤ l := by omega
    omega
  · omega

/-- A swizzle on the offsets of one 4 KiB unit. -/
theorem swizzle_unit : ∀ w < 4, ((List.range 4096).all fun l => decide (swizzle w l < 4096) && swizzle w (swizzle w l) == l) = true := by
  decide +kernel

theorem swizzle_other {w : Nat} (h : 4 ≤ w) (off : Nat) : swizzle w off = swizzle 3 off := by
  obtain ⟨k, rfl⟩ : ∃ k, w = k + 4 := ⟨w - 4, by omega⟩
  rfl

theorem swizzle_low (w l : Nat) (hl : l < 4096) : swizzle w l < 4096 ∧ swizzle w (swizzle w l) = l := by
  by_cases hw : w < 4
  · have := swizzle_unit w hw
    rw [List.all_eq_true] at this
    have := this l (List.mem_range.mpr hl)
    rw [Bool.and_eq_true, decide_eq_true_eq, beq_iff_eq] at this
    exact this
  · simp only [swizzle_other (Nat.le_of_not_lt hw)]
    have := swizzle_unit 3 (by decide)
    rw [List.all_eq_true] at this
    have := this l (List.mem_range.mpr hl)
    rw [Bool.and_eq_true, decide_eq_true_eq, beq_iff_eq] at this
    exact this

/-- A swizzle keeps the unit and is its own inverse. -/
theorem swizzle_inv (w off : Nat) : swizzle w off / 4096 = off / 4096 ∧ swizzle w (swizzle w off) = off := by
  have e : off = 4096 * (off / 4096) + off % 4096 := by omega
  have hl : off % 4096 < 4096 := by omega
  have h := swizzle_low w (off % 4096) hl
  have h1 := swizzle_high w (off / 4096) (off % 4096) hl
  have h2 := swizzle_high w (off / 4096) (swizzle w (off % 4096)) h.1
  rw [← e] at h1
  rw [h1, h2, h.2]
  omega

/-- Each logical offset of a core's scratchpad has a byte of its own. -/
theorem spadAt_inj {c : Core} {a b : Nat} (h : spadAt c a = spadAt c b) : a = b := by
  unfold spadAt spadKey at h
  have ha := swizzle_inv (bankFmt c (bankOf a)).2.1 a
  have hb := swizzle_inv (bankFmt c (bankOf b)).2.1 b
  have e : swizzle (bankFmt c (bankOf a)).2.1 a = swizzle (bankFmt c (bankOf b)).2.1 b := by omega
  have hu : a / 4096 = b / 4096 := by rw [← ha.1, ← hb.1, e]
  have hk : bankOf a = bankOf b := by unfold bankOf; congr 1; omega
  rw [hk] at e ha
  exact ha.2.symm.trans ((congrArg _ e).trans hb.2)

/-! ## Stores -/

/-- A byte of memory after bytes were written from a logical offset on. -/
theorem spadSet_out {m : List Host.Cell} (h : Memory.wf m = true) (c : Core) (off : Nat) (bs : List Byte) (k : Nat)
    (hk : ∀ i < bs.length, k ≠ spadAt c (off + i)) : memGet (spadSet m c off bs) k = memGet m k := by
  induction bs generalizing m off with
  | nil => rfl
  | cons b bs ih =>
    rw [spadSet, ih (memSet_wf h _ _) (off + 1), memGet_memSet h, if_neg]
    · exact hk 0 (by simp)
    · intro i hi
      have := hk (i + 1) (by simpa using hi)
      rwa [show off + (i + 1) = off + 1 + i by omega] at this

theorem spadSet_in {m : List Host.Cell} (h : Memory.wf m = true) (c : Core) (off : Nat) (bs : List Byte) (i : Nat)
    (hi : i < bs.length) : memGet (spadSet m c off bs) (spadAt c (off + i)) = bs[i] := by
  induction bs generalizing m off i with
  | nil => simp at hi
  | cons b bs ih =>
    cases i with
    | zero =>
      rw [spadSet, spadSet_out (memSet_wf h _ _), memGet_memSet h, if_pos (by rw [Nat.add_zero])]
      · rfl
      · intro i _ e
        have := spadAt_inj e
        omega
    | succ i =>
      have := ih (memSet_wf h (spadAt c off) b) (off + 1) i (by simpa using hi)
      rw [spadSet, show off + (i + 1) = off + 1 + i by omega, this]; rfl

theorem leBytes_get (n v i : Nat) (h : i < (leBytes n v).length) : (leBytes n v)[i] = BitVec.ofNat 8 (v / 256 ^ i) := by
  induction n generalizing v i with
  | zero => simp [leBytes] at h
  | succ n ih =>
    cases i with
    | zero => simp [leBytes]
    | succ i =>
      simp only [leBytes, List.getElem_cons_succ]
      rw [ih, Nat.div_div_eq_div_mul, Nat.pow_succ, Nat.mul_comm]

/-- Byte `i` of a word's low bytes. -/
theorem leBytes_word (n : Nat) (w : Word) (i : Nat) (h : i < (leBytes n w.toNat).length) :
    (leBytes n w.toNat)[i] = w.extractLsb' (8 * i) 8 := by
  rw [leBytes_get]
  apply BitVec.eq_of_toNat_eq
  rw [BitVec.toNat_ofNat, BitVec.extractLsb'_toNat, Nat.shiftRight_eq_div_pow, Nat.pow_mul]

/-- Fewer than 64 bytes cover no granule. -/
theorem spadStore_poison (s : State) (c : Core) (off : Nat) (bs : List Byte) (h : bs.length < 64) :
    (spadStore s c off bs).poison = s.poison := by
  unfold spadStore
  dsimp only
  split
  · rename_i e; rw [List.isEmpty_iff.mp e]
  · rw [List.filter_eq_self]
    intro g _
    have : ((List.map (fun i => spadAt c (off + i)) (List.range bs.length)).filter fun k => k / 64 == g).length ≤ bs.length :=
      Nat.le_trans (List.length_filter_le _ _) (by simp)
    simp only [coveredBy, Bool.not_eq_true', decide_eq_false_iff_not, Nat.not_le]
    omega

end Sys2Proof.Machine
end

