-- ==== Sys2Proof/Laws/Access.lean ====
section
/-! SUPPORT. Accesses of the SCC: where an address lies (08 R210-R212), what its memory port answers (07 R174), and what a
load leaves. -/

namespace Sys2Proof.Machine

open Sys2Proof.Safety

/-- The address of an SM form. -/
theorem smAddr_eq (o : Sm) (size : Nat) (s : State) : smAddr o size s = smAddress o size s := by
  unfold smAddr smAddress
  congr 1
  apply BitVec.eq_of_toInt_eq
  rw [BitVec.toInt_mul, BitVec.toInt_ofInt, BitVec.toInt_signExtend_of_le (by decide)]
  rw [show (BitVec.ofNat 64 size).toInt = ((size : Nat) : Int).bmod (2^64) from BitVec.toInt_ofNat .., Int.mul_bmod_bmod]

/-- An address of the own scratchpad, by either window. -/
theorem locate_own {s : State} {need : Need} {a : Word} {off : Nat} (h : off < 2 ^ 23) (ha : a.toNat = 0x8000000000000000 + off ∨
      a.toNat = 0x8020000000000000 + s.core.agent.val % 8 * 2 ^ 32 + off) : locate s need a = .ok (.spad s.core.agent off) := by
  have hc : classify s.core.agent a = .spad off := by
    unfold classify memberOf
    dsimp only
    rcases ha with ha | ha
    · rw [if_neg (by omega), if_pos (by omega)]
      congr 1; omega
    · rw [if_neg (by omega), if_neg (by omega), if_neg (by omega), if_pos (by omega), if_pos (by omega)]
      congr 1; omega
  rw [locate, locateBy, hc]

/-- An address of the own accumulator window. -/
theorem locate_acc {s : State} {need : Need} {a : Word} {off : Nat} (h : off < 2 ^ 19) (ha : a.toNat = 0x8010000000000000 + off) :
    locate s need a = if s.declares (off / 2 ^ 17) then .ok (.acc off) else .error (failAt .xperm (2 ^ 60) a) := by
  have hc : classify s.core.agent a = .acc off := by
    unfold classify
    dsimp only
    rw [if_neg (by omega), if_neg (by omega), if_pos (by omega)]
    congr 1; omega
  rw [locate, locateBy, hc]

/-- An address of another member's scratchpad. -/
theorem locate_member {s : State} {need : Need} {a : Word} {m off : Nat} (hm : m < 8) (hn : m ≠ s.core.agent.val % 8) (h : off < 2 ^ 23)
    (ha : a.toNat = 0x8020000000000000 + m * 2 ^ 32 + off) :
    locate s need a = match peerCheck s (peerAgent s.core.agent m) s.ctx a with
      | .ok _ => .ok (.spad (peerAgent s.core.agent m) off)
      | .error e => .error e := by
  have hc : classify s.core.agent a = .peer m off := by
    unfold classify memberOf
    dsimp only
    rw [if_neg (by omega), if_neg (by omega), if_neg (by omega), if_pos (by omega), if_neg (by omega)]
    congr 1 <;> omega
  rw [locate, locateBy, hc]
  all_goals rfl

/-- A global address. -/
theorem locate_global {s : State} {need : Need} {a : Word} (ha : a.toNat < 2 ^ 57) :
    locate s need a = match translate s (some s.core) (dieOf s.core.agent) s.ctx s.isPriv need a.toNat with
      | .ok p => .ok (.hbm p)
      | .error e => .error e := by
  have hc : classify s.core.agent a = .globalVa a.toNat := by
    unfold classify
    dsimp only
    rw [if_pos ha]
  rw [locate, locateBy, hc]
  all_goals rfl

/-- An address that belongs to nothing. -/
theorem locate_nowhere {s : State} {need : Need} {a : Word} (h1 : 2^57 ≤ a.toNat) (h2 : a.toNat < 0x8000000000000000) :
    locate s need a = .error (failAt .xmiss 0 a) := by
  have hc : classify s.core.agent a = .nowhere := by
    unfold classify
    dsimp only
    rw [if_neg (by omega), if_neg (by omega), if_neg (by omega), if_neg (by omega)]
  rw [locate, locateBy, hc]

/-- A member that an access may reach. -/
theorem peer_ok {s : State} {n : Fin 512} {a : Word} (hd : s.disabled n = false) (hr : (s.coreAt n).resident = some s.ctx) :
    peerCheck s n s.ctx a = .ok () := by
  unfold peerCheck
  rw [hd, hr]
  simp

/-- A member that an access may not reach. -/
theorem peer_err {s : State} {n : Fin 512} {a : Word} (h : s.disabled n = true ∨ (s.coreAt n).resident ≠ some s.ctx) :
    ∃ st, peerCheck s n s.ctx a = .error ⟨.peerdeny, st, a⟩ := by
  unfold peerCheck
  by_cases hd : s.disabled n = true
  · rw [if_pos hd]; exact ⟨_, rfl⟩
  · rw [if_neg hd]
    have hr : (s.coreAt n).resident ≠ some s.ctx := h.resolve_left hd
    cases hq : (s.coreAt n).resident with
    | none => exact ⟨_, rfl⟩
    | some c =>
      have : c ≠ s.ctx := fun e => hr (by rw [hq, e])
      dsimp only
      rw [if_neg this]; exact ⟨_, rfl⟩

/-- What the place of an access says of its address. -/
theorem reach_locate {s : State} {need : Need} {size : Nat} {a : Word} {key : Nat → Nat} (h : Reach s need size a key) :
    (∃ n off, locate s need a = .ok (.spad n off) ∧ (∀ i, key i = spadAt (s.coreAt n) (off + i)) ∧ off < 2^23 ∧ a.toNat % 8 = off % 8) ∨
    (∃ off, locate s need a = .ok (.acc off) ∧ (∀ i, key i = accKey s.core.agent.val (off + i)) ∧ slotBusy s (off / 2^17) = false) ∨
    ∃ p, locate s need a = .ok (.hbm p) ∧ (∀ i, key i = p.key + i) ∧ p.leaf.mode < 2 ∧ p.leaf.check = false ∧ migrationOf s p.key = none ∧
      behindHeld s (dieOf s.core.agent) p 1 s.ctx a.toNat size = false := by
  cases h with
  | own off h ha =>
    refine .inl ⟨s.core.agent, off, locate_own h ha, fun i => ?_, h, ?_⟩
    · rw [State.coreAt, if_pos rfl]
    · omega
  | acc off h ha hd hb => exact .inr (.inl ⟨off, by rw [locate_acc h ha, if_pos hd], fun _ => rfl, hb⟩)
  | member m off hm hn h ha hd hr =>
    exact .inl ⟨_, off, by rw [locate_member hm hn h ha, peer_ok hd hr], fun _ => rfl, h, by omega⟩
  | page p ha ht hm hc hg hh => exact .inr (.inr ⟨p, by rw [locate_global ha, ht], fun _ => rfl, hm, hc, hg, hh⟩)

/-- Bytes in a row, one by one. -/
theorem bytes_eq (m : List Host.Cell) : ∀ n k, memGetList m k n = (List.range n).map fun i => memGet m (k + i) := by
  intro n
  induction n with
  | zero => intro k; rfl
  | succ n ih =>
    intro k
    rw [memGetList, ih, List.range_succ_eq_map, List.map_cons, List.map_map]
    congr 1
    apply List.map_congr_left; intro i _; simp only [Function.comp]; congr 1; omega

/-- Bytes of a scratchpad, one by one. -/
theorem spadBytes_eq (s : State) (c : Core) : ∀ n off, spadBytes s c off n = (List.range n).map fun i => memGet s.mem (spadAt c (off + i)) := by
  intro n
  induction n with
  | zero => intro k; rfl
  | succ n ih =>
    intro k
    rw [spadBytes, ih, List.range_succ_eq_map, List.map_cons, List.map_map]
    congr 1
    apply List.map_congr_left; intro i _; simp only [Function.comp]; congr 2; omega

/-- No byte of a range is poisoned. -/
theorem spadPoison_none (s : State) (c : Core) : ∀ n off, (∀ i < n, spadAt c (off + i) / 64 ∉ s.poison) → spadPoison s c off n = none := by
  intro n
  induction n with
  | zero => intros; rfl
  | succ n ih =>
    intro off h
    rw [spadPoison, if_neg (by simpa using h 0 (by omega)), ih]
    intro i hi
    have := h (i + 1) (by omega)
    rwa [show off + 1 + i = off + (i + 1) by omega]

/-- A number is below what its bytes can hold. -/
theorem leNat_lt (l : List Byte) : leNat l < 2 ^ (8 * l.length) := by
  induction l with
  | nil => simp [leNat]
  | cons b bs ih =>
    have := b.isLt
    rw [leNat, List.length_cons, show 8 * (bs.length + 1) = 8 + 8 * bs.length by omega, Nat.pow_add]
    omega

/-- What a load makes of the number it read. -/
theorem extend_eq (signed : Bool) (size n : Nat) (h : size = 1 ∨ size = 2 ∨ size = 4 ∨ size = 8) (hn : n < 2^(8*size)) : extendValue signed size n = loaded signed size n := by
  unfold extendValue loaded
  dsimp only
  rw [Nat.mod_eq_of_lt hn]
  cases signed
  · simp
    apply BitVec.eq_of_toNat_eq
    rw [BitVec.toNat_setWidth, BitVec.toNat_ofNat, BitVec.toNat_ofNat, Nat.mod_eq_of_lt hn]
  · simp only [Bool.true_and, if_true]
    rw [← BitVec.ofInt_toInt (x := (BitVec.ofNat (8*size) n).signExtend 64), BitVec.toInt_signExtend_of_le (by omega), BitVec.toInt_eq_toNat_cond, BitVec.toNat_ofNat, Nat.mod_eq_of_lt hn]
    have hp : 2 ^ (8 * size) = 2 * 2 ^ (8 * size - 1) := by rw [← Nat.pow_succ']; congr 1; omega
    by_cases c : 2 ^ (8 * size - 1) ≤ n
    · rw [if_pos (by simpa using c), if_neg (by omega)]
    · rw [if_neg (by simpa using c), if_pos (by omega)]
      apply BitVec.eq_of_toNat_eq; simp

/-- A number read is below what its bytes can hold. -/
theorem memNumber_lt (s : State) (size : Nat) (key : Nat → Nat) : memNumber s size key < 2^(8*size) := by
  have := leNat_lt ((List.range size).map fun i => memGet s.mem (key i))
  simpa [memNumber] using this
theorem sameFetch_passed (s : State) : SameFetch s (passed s) := sameFetch_withScc _ _
theorem coreAt_passed (s : State) (n : Fin 512) : ((passed s).coreAt n).resident = (s.coreAt n).resident ∧
    ((passed s).coreAt n).agent = (s.coreAt n).agent ∧ ((passed s).coreAt n).bfmt = (s.coreAt n).bfmt := by
  unfold State.coreAt
  have h1 : (passed s).core.agent = s.core.agent := rfl
  have h2 : (passed s).others = s.others := rfl
  rw [h1, h2]
  split
  · exact ⟨rfl, rfl, rfl⟩
  · exact ⟨rfl, rfl, rfl⟩
theorem spadAt_passed (s : State) (n : Fin 512) (o : Nat) : spadAt ((passed s).coreAt n) o = spadAt (s.coreAt n) o := by
  obtain ⟨_, h2, h3⟩ := coreAt_passed s n
  unfold spadAt bankFmt
  rw [h2, h3]
theorem locate_passed (s : State) (need : Need) (a : Word) : locate (passed s) need a = locate s need a := by
  have h := sameFetch_passed s
  unfold locate locateBy
  have h1 : (passed s).core.agent = s.core.agent := rfl
  rw [h1]
  cases classify s.core.agent a with
  | globalVa va => simp only [h.ctx, h.isPriv, h.translate s.core (passed s).core rfl]
  | spad o => rfl
  | acc o => rfl
  | peer m o =>
    have h2 : peerCheck (passed s) = peerCheck s := by
      funext t c x
      have h3 : (passed s).disabled t = s.disabled t := rfl
      simp only [peerCheck, (coreAt_passed s t).1, h3]
    simp only [h.ctx, h2]
  | nowhere => rfl

/-- A page without race detection raises no race. -/
theorem raceCheck_off (s : State) (a : Actor) (p : Phys) (va : Word) (h : p.leaf.check = false) : raceCheck s a p va = .ok () := by
  unfold raceCheck tagKeyFor checkedPage
  rw [h]; rfl

/-- A page without race detection has no tags. -/
theorem tag_off (s : State) (p : Phys) (h : p.leaf.check = false) : tagKeyFor s p = none := by
  unfold tagKeyFor checkedPage
  rw [h]; rfl
theorem migrationOf_passed (s : State) (k : Nat) : migrationOf (passed s) k = migrationOf s k := rfl
theorem behindHeld_passed (s : State) (d : Fin 8) (p : Phys) (c : Fin 64) (a n : Nat) : behindHeld (passed s) d p 1 c a n = behindHeld s d p 1 c a n := rfl

/-- A load at its port. -/
theorem port_load {s : State} {key : Nat → Nat} {f : Flight} (hs : f.size = 1 ∨ f.size = 2 ∨ f.size = 4 ∨ f.size = 8)
    (_hal : f.addr.toNat % f.size = 0) (hst : f.store = false)
    (hr : Reach s .read f.size f.addr key) (hp : Sound s f.size key) (hq : f.acq = false) :
    portAccess s f = .done s (loaded f.signed f.size (memNumber s f.size key)) := by
  unfold portAccess
  simp only [hst, Bool.false_eq_true, if_false]
  rcases reach_locate hr with ⟨n, off, hl, hk, h1, h2⟩ | ⟨off, hl, hk, hb⟩ | ⟨p, hl, hk, hm, hc, hg, hh⟩
  · rw [hl]
    dsimp only
    rw [spadPoison_none _ _ _ _ (fun i hi => by rw [← hk]; exact hp i hi)]
    simp only [hq]
    have : leNat (spadBytes s (s.coreAt n) off f.size) = memNumber s f.size key := by
      rw [spadBytes_eq, memNumber]; congr 1; apply List.map_congr_left; intro i _; rw [hk]
    rw [this, extend_eq _ _ _ hs (memNumber_lt _ _ _)]; rfl
  · rw [hl]
    dsimp only
    simp only [hq]
    have : leNat (s.bytes (accKey s.core.agent.val off) f.size) = memNumber s f.size key := by
      rw [State.bytes, bytes_eq, memNumber]; congr 1; apply List.map_congr_left; intro i _; rw [hk]; unfold accKey; congr 1; omega
    rw [this, extend_eq _ _ _ hs (memNumber_lt _ _ _)]; rfl
  · rw [hl]
    dsimp only
    have m2 : p.leaf.mode ≠ 2 := by omega
    have m3 : p.leaf.mode ≠ 3 := by omega
    have fk : forwardKey s p.key = p.key := by unfold forwardKey; rw [hg]
    have hm0 : heldByMigration s p.key = false := by unfold heldByMigration; rw [hg]
    have cm : countMigration s (dieOf s.core.agent) p = s := by unfold countMigration; rw [if_neg m3]
    have np : firstPoison s.poison p.key f.size = none := by
      unfold firstPoison
      split
      · rfl
      · rw [List.find?_eq_none]
        intro g hg
        simp only [Bool.and_eq_true, decide_eq_true_eq, not_and, Nat.not_le]
        intro hl2
        by_contra hcon
        have := hp (64 * g - p.key) 
        rcases Nat.lt_or_ge (p.key + f.size - 1) (64*g) with hx | hx
        · have h0 := hp 0 (by omega)
          rw [hk] at h0
          apply h0
          have : (p.key + 0) / 64 = g := by omega
          rw [this]; exact hg
        · rcases Nat.lt_or_ge p.key (64 * g) with hy | hy
          · have h0 := hp (64 * g - p.key) (by omega)
            rw [hk] at h0
            apply h0
            have : (p.key + (64 * g - p.key)) / 64 = g := by omega
            rw [this]; exact hg
          · have h0 := hp 0 (by omega)
            rw [hk] at h0
            apply h0
            have : (p.key + 0) / 64 = g := by omega
            rw [this]; exact hg
    unfold portHbm
    dsimp only
    simp only [hm0, hh, hq, raceCheck_off s _ p _ hc, cm, hst, fk, np, m2, Bool.false_eq_true, if_false, decide_false, Bool.and_false,
      Option.isSome_none]
    have : leNat (readHbm s (dieOf s.core.agent) s.ctx p f.size (readsOwner f.scope)) = memNumber s f.size key := by
      unfold readHbm
      dsimp only
      have hmm : (p.leaf.mode != 2) = true := by simp [m2]
      rw [hmm, Bool.or_true, if_pos rfl, fk]
      dsimp only
      rw [State.bytes, bytes_eq, memNumber]; congr 1; apply List.map_congr_left; intro i _; rw [hk]
    rw [this, extend_eq _ _ _ hs (memNumber_lt _ _ _)]

/-- An instruction that has issued reaches what it would have reached. -/
theorem reach_passed {s : State} {need : Need} {size : Nat} {a : Word} {key : Nat → Nat} (h : Reach s need size a key) :
    Reach (passed s) need size a key := by
  have fs := sameFetch_passed s
  cases h with
  | own off h ha => exact Reach.own (s := passed s) off h ha
  | acc off h ha hd hb => exact Reach.acc (s := passed s) off h ha hd hb
  | member m off hm hn h ha hd hr =>
    have e : (fun i => spadAt (s.coreAt (peerAgent s.core.agent m)) (off + i)) =
        fun i => spadAt ((passed s).coreAt (peerAgent (passed s).core.agent m)) (off + i) := by
      funext i; exact (spadAt_passed s _ _).symm
    rw [e]
    exact Reach.member (s := passed s) m off hm hn h ha hd (((coreAt_passed s _).1).trans hr)
  | page p ha ht hm hc hg hh =>
    exact Reach.page (s := passed s) p ha (by
      rw [fs.ctx, fs.isPriv]
      exact (fs.translate s.core (passed s).core rfl _ _ _ _ _).trans ht) hm hc hg hh

/-- The checks before an access that reaches memory. -/
theorem check_ok {s : State} {f : Flight} {key : Nat → Nat} (go : State → State) (hal : f.addr.toNat % f.size = 0)
    (hr : Reach s (if f.store then .write else .read) f.size f.addr key) : checkAccess s f go = go s := by
  unfold checkAccess
  rw [if_neg (by simpa using hal)]
  rcases reach_locate hr with ⟨n, off, hl, _⟩ | ⟨off, hl, hk, hb⟩ | ⟨p, hl, _⟩
  · rw [hl]
  · rw [hl]; dsimp only; rw [hb]; rfl
  · rw [hl]

/-- A load of the SCC, performed at issue. -/
theorem load_op {o : Sm} {size : Nat} {signed : Bool} {s : State} {key : Nat → Nat} (hs : size = 1 ∨ size = 2 ∨ size = 4 ∨ size = 8)
    (h : ready s [o.t, o.a] = true) (hi : s.core.inOrder = true) (hal : (smAddress o size s).toNat % size = 0)
    (hr : Reach s .read size (smAddress o size s) key) (hp : Sound s size key) :
    accessOp o size false signed s = .next (wrote s o.t (loaded signed size (memNumber s size key))) := by
  rw [accessOp, sccOp_ready h, issueAccess]
  have ea := smAddr_eq o size s
  rw [check_ok (key := key) _ (by simp only [smFlight, ea]; exact hal) (by simp only [smFlight, ea]; exact hr)]
  rw [hi, if_pos rfl, retire_eq_passed, performFlight, port_load (key := key) (f := smFlight o size false signed s) hs (by simp only [smFlight, ea]; exact hal) rfl (by simp only [smFlight, ea]; exact reach_passed hr) (by exact hp) rfl]
  simp only [smFlight, Bool.false_eq_true, if_false]
  rw [← retire_setS]
  have e : memNumber (passed s) size key = memNumber s size key := rfl
  rw [e, retire_setS]
  unfold State.setS wrote writeReg
  by_cases hd : o.t = 0
  · rw [if_pos hd, if_pos hd]; rfl
  · rw [if_neg hd, if_neg hd]; rfl

/-- What an acquire drops. -/
theorem acquire_eq (s : State) (sc : Scope) : acquire s sc = acquired s sc := by
  unfold acquire acquired
  cases sc <;> simp <;> rfl
theorem wrote_comm (s : State) (d : SReg) (v : Word) : (passed s).setS d v = wrote s d v := by
  unfold State.setS wrote writeReg
  by_cases hd : d = 0
  · rw [if_pos hd, if_pos hd]; rfl
  · rw [if_neg hd, if_neg hd]; rfl

/-- A load that acquires, at its port. -/
theorem port_acq {s t : State} {f : Flight} {v : Word} (hq : f.acq = false) (hs : f.store = false)
    (hc : ∀ p, locate s .read f.addr = .ok (.hbm p) → p.leaf.check = false)
    (h : portAccess s f = .done t v) : portAccess s { f with acq := true } = .done (acquire t f.scope) v := by
  unfold portAccess at h ⊢
  simp only [hs, Bool.false_eq_true, if_false] at h ⊢
  cases hl : locate s .read f.addr with
  | error e => rw [hl] at h; cases h
  | ok sp =>
    rw [hl] at h
    cases sp with
    | spad n off =>
      dsimp only at h ⊢
      cases hp : (spadPoison s (s.coreAt n) off f.size).isSome
      · simp only [hp, hq, Bool.false_eq_true, if_false, if_true] at h ⊢; injection h with h1 h2; rw [← h1, ← h2]
      · simp only [hp, if_true] at h; cases h
    | acc off =>
      dsimp only at h ⊢
      simp only [hq, Bool.false_eq_true, if_false, if_true] at h ⊢; injection h with h1 h2; rw [← h1, ← h2]
    | hbm p =>
      dsimp only at h ⊢
      have ht : (tagImport s p) = none := by unfold tagImport; rw [tag_off s p (hc p hl)]; rfl
      unfold portHbm at h ⊢
      simp only [hq, hs, Bool.false_eq_true, if_false, if_true, ht, Option.toList_none, importAll, List.foldl_nil] at h ⊢
      have hm : s.modOrd (fun o => o) = s := rfl
      rw [hm]
      split at h
      · cases h
      · rename_i c1
        rw [if_neg c1]
        split at h
        · cases h
        · rename_i c2
          rw [if_neg c2]
          split at h
          · cases h
          · rename_i c3
            split at h
            · cases h
            · rename_i c4
              rw [if_neg c4]
              injection h with h1 h2
              rw [← h1, ← h2]

/-- Marking lines dirty changes the dies' notes of dirty lines only. -/
theorem markDirty_dirty (s : State) (k n : Nat) : (markDirty s k n).mem = s.mem ∧
    (∀ d : Fin 8, (markDirty s k n).dies[d] = { s.dies[d] with dirty := (markDirty s k n).dies[d].dirty }) ∧
    markDirty s k n = { s with dies := (markDirty s k n).dies } := by
  have line : ∀ (s : State) d l, (∀ e : Fin 8, (markDirtyLine s d l).dies[e] = { s.dies[e] with dirty := (markDirtyLine s d l).dies[e].dirty }) ∧
      markDirtyLine s d l = { s with dies := (markDirtyLine s d l).dies } := by
    intro s d l
    unfold markDirtyLine
    dsimp only
    split
    · exact ⟨fun _ => rfl, rfl⟩
    · refine ⟨fun e => ?_, rfl⟩
      by_cases h : d = e
      · subst h; simp
      · have : (d : Nat) ≠ e := fun q => h (Fin.ext q)
        simp [Vector.getElem_set_ne, this]
  have fold : ∀ (ls : List Nat) (s : State) d, (∀ e : Fin 8, (ls.foldl (fun s l => markDirtyLine s d l) s).dies[e] = { s.dies[e] with dirty := (ls.foldl (fun s l => markDirtyLine s d l) s).dies[e].dirty }) ∧
      ls.foldl (fun s l => markDirtyLine s d l) s = { s with dies := (ls.foldl (fun s l => markDirtyLine s d l) s).dies } := by
    intro ls
    induction ls with
    | nil => intros; exact ⟨fun _ => rfl, rfl⟩
    | cons l ls ih =>
      intro s d
      rw [List.foldl_cons]
      have h1 := ih (markDirtyLine s d l) d
      have h2 := line s d l
      refine ⟨fun e => ?_, ?_⟩
      · rw [h1.1 e, h2.1 e]
      · rw [h1.2, h2.2]
  refine ⟨markDirty_mem s k n, ?_⟩
  unfold markDirty
  split
  · exact ⟨fun _ => rfl, rfl⟩
  · split
    · exact ⟨fun _ => rfl, rfl⟩
    · exact fold _ _ _
theorem storedOnly_bump {s t : State} {n : Nat} {k : Nat → Nat} {v : Word} (h : StoredOnly s t n k v) :
    StoredOnly (released s) (released t) n k v := by
  obtain ⟨h1, h2, h3, h4⟩ := h
  refine ⟨h1, h2, h3, ?_⟩
  have e1 : (released t).core = { t.core with epoch := t.core.epoch + 1 } := rfl
  have := congrArg State.core h4
  show { t with core := { t.core with epoch := t.core.epoch + 1 } } = _
  rw [h4]; rfl

/-- A store at its port. -/
theorem port_store {s : State} {key : Nat → Nat} {f : Flight} (hw : Memory.wf s.mem = true) (hs : f.size < 64)
    (hst : f.store = true)
    (hr : Reach s .write f.size f.addr key) (hq : f.acq = false) :
    ∃ t, portAccess s f = .done (if f.rel then bumpEpoch t else t) 0 ∧ StoredOnly s t f.size key f.data := by
  unfold portAccess
  simp only [hst, if_true]
  rcases reach_locate hr with ⟨n, off, hl, hk, h1, h2⟩ | ⟨off, hl, hk, hb⟩ | ⟨p, hl, hk, hm, hc, hg, hh⟩
  · rw [hl]
    dsimp only
    refine ⟨_, rfl, ?_, ?_, fun _ => rfl, ?_⟩
    · intro i hi
      rw [hk]
      exact (spadSet_in hw _ _ _ i (by simpa using hi)).trans (leBytes_word _ _ _ _)
    · intro k h
      exact spadSet_out hw _ _ _ k (fun i hi => by rw [← hk]; exact h i (by simpa using hi))
    · have := spadStore_poison s (s.coreAt n) off (leBytes f.size f.data.toNat) (by simpa using hs)
      have e : spadStore s (s.coreAt n) off (leBytes f.size f.data.toNat) =
        { s with mem := (spadStore s (s.coreAt n) off (leBytes f.size f.data.toNat)).mem, poison := (spadStore s (s.coreAt n) off (leBytes f.size f.data.toNat)).poison } := rfl
      rw [this] at e; exact e
  · rw [hl]
    dsimp only
    refine ⟨_, rfl, ?_, ?_, fun _ => rfl, rfl⟩
    · intro i hi
      rw [hk, show accKey s.core.agent.val (off + i) = accKey s.core.agent.val off + i by unfold accKey; omega]
      exact (memGet_memSetList_in hw _ i _ (by simpa using hi)).trans (leBytes_word _ _ _ _)
    · intro k h
      refine memGet_memSetList_out hw _ _ _ ?_
      by_contra hcon
      simp only [leBytes_length] at hcon
      apply h (k - accKey s.core.agent.val off) (by omega)
      rw [hk]; unfold accKey at *; omega
  · rw [hl]
    dsimp only
    have m2 : p.leaf.mode ≠ 2 := by omega
    have m3 : p.leaf.mode ≠ 3 := by omega
    have fk : forwardKey s p.key = p.key := by unfold forwardKey; rw [hg]
    have hm0 : heldByMigration s p.key = false := by unfold heldByMigration; rw [hg]
    have cm : countMigration s (dieOf s.core.agent) p = s := by unfold countMigration; rw [if_neg m3]
    have st : ∀ x a, setTag x a p = x := fun x a => by unfold setTag; rw [tag_off x p hc]
    unfold portHbm
    dsimp only
    simp only [hm0, hh, hq, raceCheck_off s _ p _ hc, cm, hst, Bool.false_eq_true, if_false, if_true, st]
    refine ⟨_, rfl, ?_⟩
    unfold writeHbm
    dsimp only
    rw [if_neg m2, fk]
    have md := markDirty_dirty s p.key (leBytes f.size f.data.toNat).length
    refine ⟨?_, ?_, ?_, ?_⟩
    · intro i hi
      rw [hk, store_mem]
      exact (memGet_memSetList_in hw _ i _ (by simpa using hi)).trans (leBytes_word _ _ _ _)
    · intro k h
      rw [store_mem]
      refine memGet_memSetList_out hw _ _ _ ?_
      by_contra hcon
      simp only [leBytes_length] at hcon
      apply h (k - p.key) (by omega)
      rw [hk]; omega
    · exact md.2.1
    · have e : (s.store p.key (leBytes f.size f.data.toNat)).poison = s.poison := by
        show clearCovered (markDirty s p.key (leBytes f.size f.data.toNat).length).poison _ _ = _
        rw [md.2.2]
        unfold clearCovered
        rw [List.filter_eq_self]
        intro g _
        simp only [leBytes_length, decide_eq_true_eq]
        omega
      show s.store p.key (leBytes f.size f.data.toNat) = _
      conv_lhs => unfold State.store
      have e2 : clearCovered (markDirty s p.key (leBytes f.size f.data.toNat).length).poison p.key (leBytes f.size f.data.toNat).length = s.poison := e
      dsimp only
      rw [e2]
      rw [store_mem]
      have hg : (markDirty s p.key (leBytes f.size f.data.toNat).length) = { s with dies := (markDirty s p.key (leBytes f.size f.data.toNat).length).dies } := md.2.2
      have hh : (s.store p.key (leBytes f.size f.data.toNat)).dies = (markDirty s p.key (leBytes f.size f.data.toNat).length).dies := rfl
      rw [hh]
      generalize markDirty s p.key (leBytes f.size f.data.toNat).length = u at hg ⊢
      rw [hg]
theorem performFlight_store (s t : State) (f : Flight) (h : portAccess s f = .done t 0) (hst : f.store = true) : performFlight s f = t := by
  unfold performFlight
  rw [h]; simp [hst]

/-- A store of the SCC, performed at issue. -/
theorem store_op {o : Sm} {size : Nat} {s : State} {key : Nat → Nat} (hz : size < 64) (hw : Memory.wf s.mem = true)
    (h : ready s [o.t, o.a] = true) (hi : s.core.inOrder = true) (hal : (smAddress o size s).toNat % size = 0)
    (hr : Reach s .write size (smAddress o size s) key) :
    ∃ t, accessOp o size true false s = .next t ∧ StoredOnly (passed s) t size key (s.sreg o.t) := by
  rw [accessOp, sccOp_ready h, issueAccess]
  have ea := smAddr_eq o size s
  rw [check_ok (key := key) _ (by simp only [smFlight, ea]; exact hal) (by simp only [smFlight, ea]; exact hr)]
  rw [hi, if_pos rfl, retire_eq_passed]
  obtain ⟨t, h1, h2⟩ := port_store (s := passed s) (key := key) (f := smFlight o size true false s) hw hz rfl (by simp only [smFlight, ea]; exact reach_passed hr) rfl
  exact ⟨t, congrArg _ (performFlight_store _ _ _ h1 rfl), h2⟩

/-- An SCC access that raises its cause. -/
theorem trap_op {o : Sm} {size : Nat} {store signed : Bool} {s : State} (h : ready s [o.t, o.a] = true) {e : Fail}
    (hl : (smAddress o size s).toNat % size ≠ 0 ∧ e = ⟨.align, BitVec.ofNat 64 size, smAddress o size s⟩ ∨
      (smAddress o size s).toNat % size = 0 ∧ locate s (if store then .write else .read) (smAddress o size s) = .error e) :
    accessOp o size store signed s = .next (trap s e) := by
  rw [accessOp, sccOp_ready h, issueAccess, checkAccess]
  have ea := smAddr_eq o size s
  simp only [smFlight, ea]
  rcases hl with ⟨h1, rfl⟩ | ⟨h1, h2⟩
  · rw [if_pos h1]; rfl
  · rw [if_neg (by simpa using h1), h2]

/-- An SCC access that goes in flight. -/
theorem flight_op {o : Sm} {size : Nat} {store signed : Bool} {s : State} {key : Nat → Nat} (h : ready s [o.t, o.a] = true) (hi : s.core.inOrder = false)
   (hal : (smAddress o size s).toNat % size = 0) (hr : Reach s (if store then .write else .read) size (smAddress o size s) key) :
   accessOp o size store signed s = .next ((passed s).modOrd fun r => { r with flights := r.flights ++
        [⟨smAddress o size s, size, store, if store then s.sreg o.t else 0, if store then 0 else o.t, signed,
          if o.sen then some o.slot else none, o.scope, s.scc.idx, none, false, false⟩] }) := by
  rw [accessOp, sccOp_ready h, issueAccess]
  have ea := smAddr_eq o size s
  rw [check_ok (key := key) _ (by simp only [smFlight, ea]; exact hal) (by simp only [smFlight, ea]; exact hr)]
  rw [hi]
  simp only [smFlight, ea]
  rfl

end Sys2Proof.Machine
end

