-- ==== Sys2Proof/Laws/Engines.lean ====
section
/-! SUPPORT. What an engine that is free does with the one command it is given. -/

namespace Sys2Proof.Machine

open Sys2Proof.Safety

/-- Nothing that the copy engines of the core hold is left to do. -/
structure CpQuiet (s : State) : Prop where
  copies : s.cp.copies = []
  rrot : s.core.rrot = none
  subs : ∀ i : Fin 8, s.cp.subs[i] = none
  hold : ∀ d : Fin 8, ∀ h ∈ s.dies[d].hold, h.who.actor.agent ≠ s.core.agent

theorem foldl_same {α β : Type} (f : β → α → β) (b : β) : ∀ l : List α, (∀ a ∈ l, f b a = b) → l.foldl f b = b
  | [], _ => rfl
  | a :: l, h => by
    rw [List.foldl_cons, h a (List.mem_cons_self ..)]
    exact foldl_same f b l fun x hx => h x (List.mem_cons_of_mem _ hx)

/-- Held CPHs of other cores do not concern this one. -/
theorem advanceHolds_quiet {s : State} (h : ∀ d : Fin 8, ∀ x ∈ s.dies[d].hold, x.who.actor.agent ≠ s.core.agent) :
    advanceHolds s = s := by
  refine foldl_same _ _ _ fun d _ => ?_
  have e : (s.dies[d].hold.filter fun x => x.who.actor.agent == s.core.agent) = [] :=
    List.filter_eq_nil_iff.mpr fun x hx => by simpa using h d x hx
  simp only [e, List.foldl_nil]

/-- Without subscriptions no tile is delivered. -/
theorem deliverTile_none {s : State} {i : Fin 8} (h : s.cp.subs[i] = none) : deliverTile i s = s := by
  simp only [deliverTile, h]

/-- The copy engines of a core whose work leaves them quiet have done just that work. -/
theorem cpStep_quiet {s a b : State} (ht : s.core.task ≠ none) (ha : portHand s = a) (hb : workFrom a.cp.copies.length a = b)
    (q : CpQuiet b) : cpStep s = b := by
  have e1 : s.core.task.isNone = false := by cases h : s.core.task <;> simp_all
  have e4 : (List.finRange 8).foldl (fun x i => deliverTile i x) b = b :=
    foldl_same _ _ _ fun i _ => deliverTile_none (q.subs i)
  simp only [cpStep, e1, Bool.false_eq_true, if_false, ha, hb, q.rrot, Option.isSome_none, advanceHolds_quiet q.hold, e4,
    q.copies, List.length_nil, workFrom]

/-- A free port hands over a command that writes a bound register, and nothing else happens. -/
theorem cpStep_setb {s : State} (h : CpFree s) (o : Se) (c : Cmd) (hc : c.instr = .setb o) :
    cpStep ((passed s).modCp fun p => { p with queue := p.queue ++ [c] }) =
      (passed s).modCp fun p => { p with b := s.cp.b.set o.idx (c.vals.getD 0 0) } := by
  obtain ⟨_, ht, hq, hcp, hr, hp, hs, hh⟩ := h
  refine cpStep_quiet ht (a := (passed s).modCp fun p => { p with b := s.cp.b.set o.idx (c.vals.getD 0 0) }) ?_ ?_
    ⟨hcp, hr, hs, hh⟩
  · have e : ((passed s).modCp fun p => { p with queue := p.queue ++ [c] }).cp.queue = [c] := by
      show s.cp.queue ++ [c] = [c]; rw [hq]; rfl
    have e2 : ((passed s).modCp fun p => { p with queue := p.queue ++ [c] }).core.regs.pend.copy = none := hp
    simp only [portHand, e, e2, Option.isSome_none, Bool.false_and, hc, cxOf, Option.map_none, Option.getD_none, Bool.or_self,
      Bool.false_eq_true, if_false, handOver, Option.getD_some]
    have e3 : s.core.regs.cp.queue = [] := hq
    simp only [State.modCp, State.modRegs, passed, wrote, withScc, State.cp, e3]
  · show workFrom s.cp.copies.length _ = _
    rw [hcp]; rfl

/-- A command that accesses no range is not blocked. -/
theorem veBlocked_none {s : State} {c : Cmd} (h : veRanges s true c = []) : veBlocked s c = false := by
  simp only [veBlocked, h, List.isEmpty_nil, Bool.not_true, Bool.false_and]

theorem meBlocked_none {s : State} {c : Cmd} (h : meRangesWith s s.me.shadow c = []) : meBlocked s c = false := by
  simp only [meBlocked, h, List.isEmpty_nil, Bool.not_true, Bool.false_and]

/-- A free VE performs a command at once: its meaning is `veTry`'s, in the state that the issue leaves. -/
theorem queueVe_idle {s : State} (h : veIdle s = true) (c : Cmd) : queueVe c s = vePerform c (passed s) := by
  have hq : s.ve.queue = [] := by
    simp only [veIdle, Bool.and_eq_true, List.isEmpty_iff] at h; exact h.1.1.1.2
  rw [queueVe, hq, if_neg (by simp), h, if_pos rfl, retire_eq_passed]

/-- A free ME takes a command at once. -/
theorem queueMe_idle {s : State} (h : meIdle s = true) (c : Cmd) :
    queueMe c s = meSettle (meFuel (mePerform c (passed s))) (mePerform c (passed s)) := by
  have hq : s.me.queue = [] := by
    simp only [meIdle, Bool.and_eq_true, List.isEmpty_iff] at h; exact h.1.1.2
  rw [queueMe, hq, if_neg (by simp), h, if_pos rfl, retire_eq_passed]

/-- A command that leaves nothing running is complete. -/
theorem meSettle_done {s : State} (h : s.me.run = none) : ∀ n, meSettle n s = s
  | 0 => rfl
  | n + 1 => by simp only [meSettle, h]

end Sys2Proof.Machine
end

