-- ==== Sys2Proof/Laws/Exec.lean ====
section
/-! SUPPORT. Each arm of `exec`: the meaning that it calls. -/

namespace Sys2Proof.Machine

theorem exec_add (o : Sa) (s : State) : exec (.add o) s = execAdd o s := rfl
theorem exec_sub (o : Sa) (s : State) : exec (.sub o) s = execSub o s := rfl
theorem exec_mul (o : Sa) (s : State) : exec (.mul o) s = execMul o s := rfl
theorem exec_mulh (o : Sa) (s : State) : exec (.mulh o) s = execMulh o s := rfl
theorem exec_mulhn (o : Sa) (s : State) : exec (.mulhn o) s = execMulhn o s := rfl
theorem exec_div (o : Sa) (s : State) : exec (.div o) s = execDiv o s := rfl
theorem exec_divn (o : Sa) (s : State) : exec (.divn o) s = execDivn o s := rfl
theorem exec_rem (o : Sa) (s : State) : exec (.rem o) s = execRem o s := rfl
theorem exec_remn (o : Sa) (s : State) : exec (.remn o) s = execRemn o s := rfl
theorem exec_and (o : Sa) (s : State) : exec (.and o) s = execAnd o s := rfl
theorem exec_or (o : Sa) (s : State) : exec (.or o) s = execOr o s := rfl
theorem exec_xor (o : Sa) (s : State) : exec (.xor o) s = execXor o s := rfl
theorem exec_andn (o : Sa) (s : State) : exec (.andn o) s = execAndn o s := rfl
theorem exec_shl (o : Sa) (s : State) : exec (.shl o) s = execShl o s := rfl
theorem exec_shr (o : Sa) (s : State) : exec (.shr o) s = execShr o s := rfl
theorem exec_sar (o : Sa) (s : State) : exec (.sar o) s = execSar o s := rfl
theorem exec_min (o : Sa) (s : State) : exec (.min o) s = execMin o s := rfl
theorem exec_max (o : Sa) (s : State) : exec (.max o) s = execMax o s := rfl
theorem exec_minn (o : Sa) (s : State) : exec (.minn o) s = execMinn o s := rfl
theorem exec_maxn (o : Sa) (s : State) : exec (.maxn o) s = execMaxn o s := rfl
theorem exec_slt (o : Sa) (s : State) : exec (.slt o) s = execSlt o s := rfl
theorem exec_sltn (o : Sa) (s : State) : exec (.sltn o) s = execSltn o s := rfl
theorem exec_seq (o : Sa) (s : State) : exec (.seq o) s = execSeq o s := rfl
theorem exec_sne (o : Sa) (s : State) : exec (.sne o) s = execSne o s := rfl
theorem exec_addi (o : Si) (s : State) : exec (.addi o) s = execAddi o s := rfl
theorem exec_andi (o : Si) (s : State) : exec (.andi o) s = execAndi o s := rfl
theorem exec_ori (o : Si) (s : State) : exec (.ori o) s = execOri o s := rfl
theorem exec_xori (o : Si) (s : State) : exec (.xori o) s = execXori o s := rfl
theorem exec_slti (o : Si) (s : State) : exec (.slti o) s = execSlti o s := rfl
theorem exec_sltni (o : Si) (s : State) : exec (.sltni o) s = execSltni o s := rfl
theorem exec_ldi (o : Si) (s : State) : exec (.ldi o) s = execLdi o s := rfl
theorem exec_ldix (o : Sl) (s : State) : exec (.ldix o) s = execLdix o s := rfl
theorem exec_ldixHi (o : Sl) (s : State) : exec (.ldixHi o) s = execLdixHi o s := rfl
theorem exec_shli (o : Sf) (s : State) : exec (.shli o) s = execShli o s := rfl
theorem exec_shri (o : Sf) (s : State) : exec (.shri o) s = execShri o s := rfl
theorem exec_sari (o : Sf) (s : State) : exec (.sari o) s = execSari o s := rfl
theorem exec_roli (o : Sf) (s : State) : exec (.roli o) s = execRoli o s := rfl
theorem exec_ext (o : Sf) (s : State) : exec (.ext o) s = execExt o s := rfl
theorem exec_extn (o : Sf) (s : State) : exec (.extn o) s = execExtn o s := rfl
theorem exec_ins (o : Sf) (s : State) : exec (.ins o) s = execIns o s := rfl
theorem exec_insz (o : Sf) (s : State) : exec (.insz o) s = execInsz o s := rfl
theorem exec_insm (o : Sa) (s : State) : exec (.insm o) s = execInsm o s := rfl
theorem exec_clz (o : Sa) (s : State) : exec (.clz o) s = execClz o s := rfl
theorem exec_ctz (o : Sa) (s : State) : exec (.ctz o) s = execCtz o s := rfl
theorem exec_popc (o : Sa) (s : State) : exec (.popc o) s = execPopc o s := rfl
theorem exec_brev (o : Sa) (s : State) : exec (.brev o) s = execBrev o s := rfl
theorem exec_ffcs (o : Sa) (s : State) : exec (.ffcs o) s = execFfcs o s := rfl
theorem exec_bswap (o : Sa) (s : State) : exec (.bswap o) s = execBswap o s := rfl
theorem exec_fshi (o : Sf2) (s : State) : exec (.fshi o) s = execFshi o s := rfl
theorem exec_fsh (o : Sac) (s : State) : exec (.fsh o) s = execFsh o s := rfl
theorem exec_plset (o : Sf2) (s : State) : exec (.plset o) s = execPlset o s := rfl
theorem exec_bc (o : Sb) (s : State) : exec (.bc o) s = execBc o s := rfl
theorem exec_bci (o : Sb) (s : State) : exec (.bci o) s = execBci o s := rfl
theorem exec_j (o : Sj) (s : State) : exec (.j o) s = execJ o s := rfl
theorem exec_jr (o : Sa) (s : State) : exec (.jr o) s = execJr o s := rfl
theorem exec_ldb (o : Sm) (s : State) : exec (.ldb o) s = execLdb o s := rfl
theorem exec_ldbn (o : Sm) (s : State) : exec (.ldbn o) s = execLdbn o s := rfl
theorem exec_ldh (o : Sm) (s : State) : exec (.ldh o) s = execLdh o s := rfl
theorem exec_ldhn (o : Sm) (s : State) : exec (.ldhn o) s = execLdhn o s := rfl
theorem exec_ldw (o : Sm) (s : State) : exec (.ldw o) s = execLdw o s := rfl
theorem exec_ldwn (o : Sm) (s : State) : exec (.ldwn o) s = execLdwn o s := rfl
theorem exec_ldd (o : Sm) (s : State) : exec (.ldd o) s = execLdd o s := rfl
theorem exec_lda (o : Sm) (s : State) : exec (.lda o) s = execLda o s := rfl
theorem exec_stb (o : Sm) (s : State) : exec (.stb o) s = execStb o s := rfl
theorem exec_sth (o : Sm) (s : State) : exec (.sth o) s = execSth o s := rfl
theorem exec_stw (o : Sm) (s : State) : exec (.stw o) s = execStw o s := rfl
theorem exec_std (o : Sm) (s : State) : exec (.std o) s = execStd o s := rfl
theorem exec_stl (o : Sm) (s : State) : exec (.stl o) s = execStl o s := rfl
theorem exec_waitw (o : Sw) (s : State) : exec (.waitw o) s = execWaitw o s := rfl
theorem exec_fence (o : Sn) (s : State) : exec (.fence o) s = execFence o s := rfl
theorem exec_tlook (o : Sa) (s : State) : exec (.tlook o) s = execTlook o s := rfl
theorem exec_tset (o : Sa) (s : State) : exec (.tset o) s = execTset o s := rfl
theorem exec_tclr (o : Sa) (s : State) : exec (.tclr o) s = execTclr o s := rfl
theorem exec_getres (o : Sa) (s : State) : exec (.getres o) s = execGetres o s := rfl
theorem exec_evwait (o : Sa) (s : State) : exec (.evwait o) s = execEvwait o s := rfl
theorem exec_evpop (o : Sa) (s : State) : exec (.evpop o) s = execEvpop o s := rfl
theorem exec_evpeek (o : Sa) (s : State) : exec (.evpeek o) s = execEvpeek o s := rfl
theorem exec_setb (o : Se) (s : State) : exec (.setb o) s = execSetb o s := rfl
theorem exec_barinit (o : Sa) (s : State) : exec (.barinit o) s = execBarinit o s := rfl
theorem exec_barexp (o : Sa) (s : State) : exec (.barexp o) s = execBarexp o s := rfl
theorem exec_bararr (o : Sa) (s : State) : exec (.bararr o) s = execBararr o s := rfl
theorem exec_barwait (o : Sa) (s : State) : exec (.barwait o) s = execBarwait o s := rfl
theorem exec_bartest (o : Sa) (s : State) : exec (.bartest o) s = execBartest o s := rfl
theorem exec_spawn (o : Sa) (s : State) : exec (.spawn o) s = execSpawn o s := rfl
theorem exec_joinwait (o : Sa) (s : State) : exec (.joinwait o) s = execJoinwait o s := rfl
theorem exec_yield (o : Sa) (s : State) : exec (.yield o) s = execYield o s := rfl
theorem exec_done (o : Sa) (s : State) : exec (.done o) s = execDone o s := rfl
theorem exec_tbound (o : Sa) (s : State) : exec (.tbound o) s = execTbound o s := rfl
theorem exec_hintnext (o : Sa) (s : State) : exec (.hintnext o) s = execHintnext o s := rfl
theorem exec_waitpred (o : Sa) (s : State) : exec (.waitpred o) s = execWaitpred o s := rfl
theorem exec_bufpass (o : Sa) (s : State) : exec (.bufpass o) s = execBufpass o s := rfl
theorem exec_buftake (o : Sa) (s : State) : exec (.buftake o) s = execBuftake o s := rfl
theorem exec_buffree (o : Sa) (s : State) : exec (.buffree o) s = execBuffree o s := rfl
theorem exec_spawnx (o : Sac) (s : State) : exec (.spawnx o) s = execSpawnx o s := rfl
theorem exec_sqappend (o : Sa) (s : State) : exec (.sqappend o) s = execSqappend o s := rfl
theorem exec_sqconfirm (o : Sa) (s : State) : exec (.sqconfirm o) s = execSqconfirm o s := rfl
theorem exec_sqstate (o : Sa) (s : State) : exec (.sqstate o) s = execSqstate o s := rfl
theorem exec_wset (o : Sa) (s : State) : exec (.wset o) s = execWset o s := rfl
theorem exec_wclr (o : Sa) (s : State) : exec (.wclr o) s = execWclr o s := rfl
theorem exec_wget (o : Sa) (s : State) : exec (.wget o) s = execWget o s := rfl
theorem exec_zwait (o : Sa) (s : State) : exec (.zwait o) s = execZwait o s := rfl
theorem exec_zdrop (o : Sa) (s : State) : exec (.zdrop o) s = execZdrop o s := rfl
theorem exec_ztest (o : Sa) (s : State) : exec (.ztest o) s = execZtest o s := rfl
theorem exec_rdcyc (o : Sa) (s : State) : exec (.rdcyc o) s = execRdcyc o s := rfl
theorem exec_rdid (o : Sa) (s : State) : exec (.rdid o) s = execRdid o s := rfl
theorem exec_rdfeat (o : Sa) (s : State) : exec (.rdfeat o) s = execRdfeat o s := rfl
theorem exec_mfcr (o : Si) (s : State) : exec (.mfcr o) s = execMfcr o s := rfl
theorem exec_mtcr (o : Si) (s : State) : exec (.mtcr o) s = execMtcr o s := rfl
theorem exec_trapi (o : Si) (s : State) : exec (.trapi o) s = execTrapi o s := rfl
theorem exec_brk (o : Si) (s : State) : exec (.brk o) s = execBrk o s := rfl
theorem exec_tlbinvCtx (o : Sa) (s : State) : exec (.tlbinvCtx o) s = execTlbinvCtx o s := rfl
theorem exec_tlbinvPage (o : Sa) (s : State) : exec (.tlbinvPage o) s = execTlbinvPage o s := rfl
theorem exec_tlbinvAll (o : Sa) (s : State) : exec (.tlbinvAll o) s = execTlbinvAll o s := rfl
theorem exec_actset (o : Act) (s : State) : exec (.actset o) s = execActset o s := rfl
theorem exec_resume (o : Sa) (s : State) : exec (.resume o) s = execResume o s := rfl
theorem exec_halt (o : Sa) (s : State) : exec (.halt o) s = execHalt o s := rfl
theorem exec_wdogPet (o : Sa) (s : State) : exec (.wdogPet o) s = execWdogPet o s := rfl
theorem exec_wdogExpire (o : Sa) (s : State) : exec (.wdogExpire o) s = execWdogExpire o s := rfl
theorem exec_wdogCorerst (o : Sa) (s : State) : exec (.wdogCorerst o) s = execWdogCorerst o s := rfl
theorem exec_wdogDierst (o : Sa) (s : State) : exec (.wdogDierst o) s = execWdogDierst o s := rfl
theorem exec_featset (o : Sa) (s : State) : exec (.featset o) s = execFeatset o s := rfl
theorem exec_parkpop (o : Sa) (s : State) : exec (.parkpop o) s = execParkpop o s := rfl
theorem exec_vadd (o : Va) (s : State) : exec (.vadd o) s = execVadd o s := rfl
theorem exec_vsub (o : Va) (s : State) : exec (.vsub o) s = execVsub o s := rfl
theorem exec_vmul (o : Va) (s : State) : exec (.vmul o) s = execVmul o s := rfl
theorem exec_vmin (o : Va) (s : State) : exec (.vmin o) s = execVmin o s := rfl
theorem exec_vmax (o : Va) (s : State) : exec (.vmax o) s = execVmax o s := rfl
theorem exec_vabs (o : Va) (s : State) : exec (.vabs o) s = execVabs o s := rfl
theorem exec_vneg (o : Va) (s : State) : exec (.vneg o) s = execVneg o s := rfl
theorem exec_vmov (o : Va) (s : State) : exec (.vmov o) s = execVmov o s := rfl
theorem exec_vfma (o : Vx) (s : State) : exec (.vfma o) s = execVfma o s := rfl
theorem exec_vfms (o : Vx) (s : State) : exec (.vfms o) s = execVfms o s := rfl
theorem exec_vcmp (o : Vx) (s : State) : exec (.vcmp o) s = execVcmp o s := rfl
theorem exec_vsel (o : Va) (s : State) : exec (.vsel o) s = execVsel o s := rfl
theorem exec_vexp2 (o : Va) (s : State) : exec (.vexp2 o) s = execVexp2 o s := rfl
theorem exec_vlog2 (o : Va) (s : State) : exec (.vlog2 o) s = execVlog2 o s := rfl
theorem exec_vrcp (o : Va) (s : State) : exec (.vrcp o) s = execVrcp o s := rfl
theorem exec_vrsq (o : Va) (s : State) : exec (.vrsq o) s = execVrsq o s := rfl
theorem exec_vsqrt (o : Va) (s : State) : exec (.vsqrt o) s = execVsqrt o s := rfl
theorem exec_vand (o : Va) (s : State) : exec (.vand o) s = execVand o s := rfl
theorem exec_vor (o : Va) (s : State) : exec (.vor o) s = execVor o s := rfl
theorem exec_vxor (o : Va) (s : State) : exec (.vxor o) s = execVxor o s := rfl
theorem exec_vshl (o : Va) (s : State) : exec (.vshl o) s = execVshl o s := rfl
theorem exec_vshr (o : Va) (s : State) : exec (.vshr o) s = execVshr o s := rfl
theorem exec_vsar (o : Va) (s : State) : exec (.vsar o) s = execVsar o s := rfl
theorem exec_vpopc (o : Va) (s : State) : exec (.vpopc o) s = execVpopc o s := rfl
theorem exec_vimad (o : Vx) (s : State) : exec (.vimad o) s = execVimad o s := rfl
theorem exec_vcvt (o : Vx) (s : State) : exec (.vcvt o) s = execVcvt o s := rfl
theorem exec_vquant (o : Vx) (s : State) : exec (.vquant o) s = execVquant o s := rfl
theorem exec_vdeq (o : Vx) (s : State) : exec (.vdeq o) s = execVdeq o s := rfl
theorem exec_vamax (o : Va) (s : State) : exec (.vamax o) s = execVamax o s := rfl
theorem exec_vpack (o : Va) (s : State) : exec (.vpack o) s = execVpack o s := rfl
theorem exec_vunpk (o : Va) (s : State) : exec (.vunpk o) s = execVunpk o s := rfl
theorem exec_vshuf (o : Va) (s : State) : exec (.vshuf o) s = execVshuf o s := rfl
theorem exec_vrot (o : Va) (s : State) : exec (.vrot o) s = execVrot o s := rfl
theorem exec_vbcast (o : Va) (s : State) : exec (.vbcast o) s = execVbcast o s := rfl
theorem exec_vins (o : Va) (s : State) : exec (.vins o) s = execVins o s := rfl
theorem exec_vredAdd (o : Va) (s : State) : exec (.vredAdd o) s = execVredAdd o s := rfl
theorem exec_vredMin (o : Va) (s : State) : exec (.vredMin o) s = execVredMin o s := rfl
theorem exec_vredMax (o : Va) (s : State) : exec (.vredMax o) s = execVredMax o s := rfl
theorem exec_vredAmax (o : Va) (s : State) : exec (.vredAmax o) s = execVredAmax o s := rfl
theorem exec_vredAnd (o : Va) (s : State) : exec (.vredAnd o) s = execVredAnd o s := rfl
theorem exec_vredOr (o : Va) (s : State) : exec (.vredOr o) s = execVredOr o s := rfl
theorem exec_vredXor (o : Va) (s : State) : exec (.vredXor o) s = execVredXor o s := rfl
theorem exec_vld (o : Va) (s : State) : exec (.vld o) s = execVld o s := rfl
theorem exec_vst (o : Va) (s : State) : exec (.vst o) s = execVst o s := rfl
theorem exec_vgath (o : Va) (s : State) : exec (.vgath o) s = execVgath o s := rfl
theorem exec_vscat (o : Va) (s : State) : exec (.vscat o) s = execVscat o s := rfl
theorem exec_vldg (o : Vg) (s : State) : exec (.vldg o) s = execVldg o s := rfl
theorem exec_vstg (o : Vg) (s : State) : exec (.vstg o) s = execVstg o s := rfl
theorem exec_accrd (o : Vx) (s : State) : exec (.accrd o) s = execAccrd o s := rfl
theorem exec_accwr (o : Vx) (s : State) : exec (.accwr o) s = execAccwr o s := rfl
theorem exec_commit (o : Va) (s : State) : exec (.commit o) s = execCommit o s := rfl
theorem exec_gcfg (o : Vx) (s : State) : exec (.gcfg o) s = execGcfg o s := rfl
theorem exec_vloop (o : Vl) (s : State) : exec (.vloop o) s = execVloop o s := rfl
theorem exec_vlend (o : Va) (s : State) : exec (.vlend o) s = execVlend o s := rfl
theorem exec_pset (o : Pr) (s : State) : exec (.pset o) s = execPset o s := rfl
theorem exec_pand (o : Pr) (s : State) : exec (.pand o) s = execPand o s := rfl
theorem exec_por (o : Pr) (s : State) : exec (.por o) s = execPor o s := rfl
theorem exec_pxor (o : Pr) (s : State) : exec (.pxor o) s = execPxor o s := rfl
theorem exec_pnot (o : Pr) (s : State) : exec (.pnot o) s = execPnot o s := rfl
theorem exec_pandn (o : Pr) (s : State) : exec (.pandn o) s = execPandn o s := rfl
theorem exec_pcnt (o : Va) (s : State) : exec (.pcnt o) s = execPcnt o s := rfl
theorem exec_vrand (o : Va) (s : State) : exec (.vrand o) s = execVrand o s := rfl
theorem exec_vseed (o : Va) (s : State) : exec (.vseed o) s = execVseed o s := rfl
theorem exec_vtopk (o : Vx) (s : State) : exec (.vtopk o) s = execVtopk o s := rfl
theorem exec_vdraw (o : Vx) (s : State) : exec (.vdraw o) s = execVdraw o s := rfl
theorem exec_mcfg (o : Mm) (s : State) : exec (.mcfg o) s = execMcfg o s := rfl
theorem exec_mma (o : Mm) (s : State) : exec (.mma o) s = execMma o s := rfl
theorem exec_mmaAcca (o : Mm) (s : State) : exec (.mmaAcca o) s = execMmaAcca o s := rfl
theorem exec_mspa (o : Mm) (s : State) : exec (.mspa o) s = execMspa o s := rfl
theorem exec_mzero (o : Mm) (s : State) : exec (.mzero o) s = execMzero o s := rfl
theorem exec_mdrain (o : Mm) (s : State) : exec (.mdrain o) s = execMdrain o s := rfl
theorem exec_mdrainMerge (o : Mm) (s : State) : exec (.mdrainMerge o) s = execMdrainMerge o s := rfl
theorem exec_mstat (o : Mm) (s : State) : exec (.mstat o) s = execMstat o s := rfl
theorem exec_copy (o : Cx) (s : State) : exec (.copy o) s = execCopy o s := rfl
theorem exec_copyf (o : Cx) (s : State) : exec (.copyf o) s = execCopyf o s := rfl
theorem exec_cpb (o : Cx) (s : State) : exec (.cpb o) s = execCpb o s := rfl
theorem exec_cph (o : Cx) (s : State) : exec (.cph o) s = execCph o s := rfl
theorem exec_atom (o : Cx) (s : State) : exec (.atom o) s = execAtom o s := rfl
theorem exec_atomf (o : Cx) (s : State) : exec (.atomf o) s = execAtomf o s := rfl
theorem exec_subs (o : Cx) (s : State) : exec (.subs o) s = execSubs o s := rfl
theorem exec_unsub (o : Cx) (s : State) : exec (.unsub o) s = execUnsub o s := rfl
theorem exec_pull (o : Cx) (s : State) : exec (.pull o) s = execPull o s := rfl
theorem exec_rrot (o : Cx) (s : State) : exec (.rrot o) s = execRrot o s := rfl
theorem exec_pref (o : Cx) (s : State) : exec (.pref o) s = execPref o s := rfl
theorem exec_invc (o : Cx) (s : State) : exec (.invc o) s = execInvc o s := rfl
theorem exec_wbc (o : Cx) (s : State) : exec (.wbc o) s = execWbc o s := rfl
theorem exec_controlRegisterWrite (die : Fin 8) (num : BitVec 16) (val : Word) (s : State) : exec (.controlRegisterWrite die num val) s = execControlRegisterWrite die num val s := rfl
theorem exec_parkaskWrite (die : Fin 8) (val : Word) (s : State) : exec (.parkaskWrite die val) s = execParkaskWrite die val s := rfl
theorem exec_featacceptWrite (die : Fin 8) (val : Word) (s : State) : exec (.featacceptWrite die val) s = execFeatacceptWrite die val s := rfl
theorem exec_actbaseWrite (die : Fin 8) (ctx : Fin 64) (val : Word) (s : State) : exec (.actbaseWrite die ctx val) s = execActbaseWrite die ctx val s := rfl
theorem exec_ttcfgWrite (core : Fin 512) (val : Word) (s : State) : exec (.ttcfgWrite core val) s = execTtcfgWrite core val s := rfl
theorem exec_bfmtWrite (core : Fin 512) (bank : Fin 32) (val : Word) (s : State) : exec (.bfmtWrite core bank val) s = execBfmtWrite core bank val s := rfl
theorem exec_fpControlWrite (core : Fin 512) (reg : FpReg) (val : Word) (s : State) : exec (.fpControlWrite core reg val) s = execFpControlWrite core reg val s := rfl
theorem exec_hashmaskWrite (die : Fin 8) (i : Fin 6) (val : Word) (s : State) : exec (.hashmaskWrite die i val) s = execHashmaskWrite die i val s := rfl
theorem exec_chkctlWrite (die : Fin 8) (val : Word) (s : State) : exec (.chkctlWrite die val) s = execChkctlWrite die val s := rfl
theorem exec_poisonlogWrite (die : Fin 8) (val : Word) (s : State) : exec (.poisonlogWrite die val) s = execPoisonlogWrite die val s := rfl
theorem exec_wdogctlWrite (die : Fin 8) (val : Word) (s : State) : exec (.wdogctlWrite die val) s = execWdogctlWrite die val s := rfl
theorem exec_hostUnsupportedRequest (addr : Nat) (s : State) : exec (.hostUnsupportedRequest addr) s = execHostUnsupportedRequest addr s := rfl
theorem exec_mailboxTailWrite (val : BitVec 32) (s : State) : exec (.mailboxTailWrite val) s = execMailboxTailWrite val s := rfl
theorem exec_launchRecord (s : State) : exec .launchRecord s = execLaunchRecord s := rfl
theorem exec_attestRecord (s : State) : exec .attestRecord s = execAttestRecord s := rfl
theorem exec_launchComplete (launch : Nat) (s : State) : exec (.launchComplete launch) s = execLaunchComplete launch s := rfl
theorem exec_successorRootPlace (launch : Nat) (s : State) : exec (.successorRootPlace launch) s = execSuccessorRootPlace launch s := rfl
theorem exec_powerOn (board : BoardInfo) (s : State) : exec (.powerOn board) s = execPowerOn board s := rfl
theorem exec_firmwarePiece (piece : BitVec 32) (s : State) : exec (.firmwarePiece piece) s = execFirmwarePiece piece s := rfl
theorem exec_powerLoss (s : State) : exec .powerLoss s = execPowerLoss s := rfl
theorem exec_packageReset (s : State) : exec .packageReset s = execPackageReset s := rfl
theorem exec_dieReset (die : Fin 8) (s : State) : exec (.dieReset die) s = execDieReset die s := rfl
theorem exec_watchdogExpiry (die : Fin 8) (s : State) : exec (.watchdogExpiry die) s = execWatchdogExpiry die s := rfl
theorem exec_scrubPass (die : Fin 8) (line : Nat) (found : EccFinding) (s : State) : exec (.scrubPass die line found) s = execScrubPass die line found s := rfl
theorem exec_taskForwardReceive (die : Fin 8) (s : State) : exec (.taskForwardReceive die) s = execTaskForwardReceive die s := rfl
theorem exec_coreIdleRequest (core : Fin 512) (s : State) : exec (.coreIdleRequest core) s = execCoreIdleRequest core s := rfl
theorem exec_agingPromotion (task : Nat) (s : State) : exec (.agingPromotion task) s = execAgingPromotion task s := rfl
theorem exec_readyWaitExpiry (task : Nat) (s : State) : exec (.readyWaitExpiry task) s = execReadyWaitExpiry task s := rfl
theorem exec_deadlineExpiry (core : Fin 512) (s : State) : exec (.deadlineExpiry core) s = execDeadlineExpiry core s := rfl
theorem exec_holdingTaskSave (core : Fin 512) (s : State) : exec (.holdingTaskSave core) s = execHoldingTaskSave core s := rfl
theorem exec_featureParkPlace (die : Fin 8) (s : State) : exec (.featureParkPlace die) s = execFeatureParkPlace die s := rfl
theorem exec_loadTileDelivery (task : Nat) (core : Fin 512) (s : State) : exec (.loadTileDelivery task core) s = execLoadTileDelivery task core s := rfl
theorem exec_storeStageWrite (task : Nat) (s : State) : exec (.storeStageWrite task) s = execStoreStageWrite task s := rfl
theorem exec_causeTaken (core : Fin 512) (s : State) : exec (.causeTaken core) s = execCauseTaken core s := rfl
theorem exec_dCauseArrival (core : Fin 512) (n : Nat) (s : State) : exec (.dCauseArrival core n) s = execDCauseArrival core n s := rfl
theorem exec_releaseSend (core : Fin 512) (s : State) : exec (.releaseSend core) s = execReleaseSend core s := rfl
theorem exec_copyComplete (core : Fin 512) (n : Nat) (s : State) : exec (.copyComplete core n) s = execCopyComplete core n s := rfl
theorem exec_barrierDelivery (core : Fin 512) (n : Nat) (s : State) : exec (.barrierDelivery core n) s = execBarrierDelivery core n s := rfl
theorem exec_subscriptionTileDelivery (core : Fin 512) (id : Fin 8) (s : State) : exec (.subscriptionTileDelivery core id) s = execSubscriptionTileDelivery core id s := rfl
theorem exec_rrotExchange (clearing : Fin 64) (s : State) : exec (.rrotExchange clearing) s = execRrotExchange clearing s := rfl
theorem exec_rrotTimeout (core : Fin 512) (s : State) : exec (.rrotTimeout core) s = execRrotTimeout core s := rfl
theorem exec_barwaitTimeout (core : Fin 512) (s : State) : exec (.barwaitTimeout core) s = execBarwaitTimeout core s := rfl
theorem exec_mergeTileArrival (core : Fin 512) (s : State) : exec (.mergeTileArrival core) s = execMergeTileArrival core s := rfl
theorem exec_mergeRetry (core : Fin 512) (s : State) : exec (.mergeRetry core) s = execMergeRetry core s := rfl
theorem exec_mergeWaitTimeout (core : Fin 512) (s : State) : exec (.mergeWaitTimeout core) s = execMergeWaitTimeout core s := rfl
theorem exec_mergeRefusedTimeout (core : Fin 512) (s : State) : exec (.mergeRefusedTimeout core) s = execMergeRefusedTimeout core s := rfl
theorem exec_arrayStep (core : Fin 512) (s : State) : exec (.arrayStep core) s = execArrayStep core s := rfl
theorem exec_accrdLand (core : Fin 512) (t : Fin 16) (s : State) : exec (.accrdLand core t) s = execAccrdLand core t s := rfl
theorem exec_atomicUnitPerform (core : Fin 512) (n : Nat) (s : State) : exec (.atomicUnitPerform core n) s = execAtomicUnitPerform core n s := rfl
theorem exec_memoryPortAccess (core : Fin 512) (n : Nat) (s : State) : exec (.memoryPortAccess core n) s = execMemoryPortAccess core n s := rfl
theorem exec_migration (die : Fin 8) (page : Nat) (s : State) : exec (.migration die page) s = execMigration die page s := rfl
theorem exec_shootdownAck (die : Fin 8) (by_ : Fin 8) (s : State) : exec (.shootdownAck die by_) s = execShootdownAck die by_ s := rfl
theorem exec_migholdExpiry (die : Fin 8) (n : Nat) (s : State) : exec (.migholdExpiry die n) s = execMigholdExpiry die n s := rfl
theorem exec_blazeLanded (die : Fin 8) (entry : Fin 4096) (s : State) : exec (.blazeLanded die entry) s = execBlazeLanded die entry s := rfl
theorem exec_blazeFailed (die : Fin 8) (entry : Fin 4096) (s : State) : exec (.blazeFailed die entry) s = execBlazeFailed die entry s := rfl
theorem exec_watcherRegister (core : Fin 512) (n : Nat) (s : State) : exec (.watcherRegister core n) s = execWatcherRegister core n s := rfl
theorem exec_cphArrival (core : Fin 512) (n : Nat) (s : State) : exec (.cphArrival core n) s = execCphArrival core n s := rfl
theorem exec_watch (die : Fin 8) (n : Nat) (s : State) : exec (.watch die n) s = execWatch die n s := rfl
theorem exec_landed (die : Fin 8) (n : Nat) (s : State) : exec (.landed die n) s = execLanded die n s := rfl
theorem exec_failed (die : Fin 8) (n : Nat) (s : State) : exec (.failed die n) s = execFailed die n s := rfl
theorem exec_holdlimExpiry (die : Fin 8) (n : Nat) (s : State) : exec (.holdlimExpiry die n) s = execHoldlimExpiry die n s := rfl
theorem exec_resendBackoffExpiry (packet : Nat) (s : State) : exec (.resendBackoffExpiry packet) s = execResendBackoffExpiry packet s := rfl
theorem exec_ringSlotArrival (packet : Nat) (takes : Bool) (s : State) : exec (.ringSlotArrival packet takes) s = execRingSlotArrival packet takes s := rfl
theorem exec_markedResponse (die : Fin 8) (peer : BitVec 15) (s : State) : exec (.markedResponse die peer) s = execMarkedResponse die peer s := rfl
theorem exec_entropyQuietPoint (die : Fin 8) (peer : BitVec 15) (s : State) : exec (.entropyQuietPoint die peer) s = execEntropyQuietPoint die peer s := rfl
theorem exec_dlrMove (packet : Nat) (s : State) : exec (.dlrMove packet) s = execDlrMove packet s := rfl
theorem exec_linkFlitRetransmit (packet : Nat) (s : State) : exec (.linkFlitRetransmit packet) s = execLinkFlitRetransmit packet s := rfl
theorem exec_illegalEncoding (bad : BadWord) (s : State) : exec (.illegalEncoding bad) s = execIllegalEncoding bad s := rfl
theorem exec_accessAcknowledged (core : Fin 512) (n : Nat) (s : State) : exec (.accessAcknowledged core n) s = execAccessAcknowledged core n s := rfl
theorem exec_overflowStoreDrain (die : Fin 8) (tc : Fin 4) (s : State) : exec (.overflowStoreDrain die tc) s = execOverflowStoreDrain die tc s := rfl
theorem exec_injectionLimitRelease (packet : Nat) (s : State) : exec (.injectionLimitRelease packet) s = execInjectionLimitRelease packet s := rfl
theorem exec_torusHop (packet : Nat) (full : Bool) (s : State) : exec (.torusHop packet full) s = execTorusHop packet full s := rfl
theorem exec_clearingRingRetry (core : Fin 512) (n : Nat) (s : State) : exec (.clearingRingRetry core n) s = execClearingRingRetry core n s := rfl

end Sys2Proof.Machine
end

