-- ==== Sys2Proof/Laws/Formats.lean ====
section
/-! SUPPORT. Each instruction format read back from the word its encoder writes: the major, the code that selects the
instruction, and every field. -/

namespace Sys2Proof

/-! ## Cuts of numbers -/

/-- A field between what stands above it and what stands below. -/
theorem cut_eq {w hi mid lo : Nat} (p n : Nat) (h : w = hi * 2 ^ (p + n) + mid * 2 ^ p + lo) (hl : lo < 2 ^ p)
    (hm : mid < 2 ^ n) : w / 2 ^ p % 2 ^ n = mid := by
  have e : w = lo + 2 ^ p * (mid + 2 ^ n * hi) := by rw [h, pow_add]; ring
  rw [e, Nat.add_mul_div_left _ _ (Nat.two_pow_pos p), Nat.div_eq_of_lt hl, Nat.zero_add, Nat.add_mul_mod_self_left,
    Nat.mod_eq_of_lt hm]

/-- A cut of a number below its modulus. -/
theorem fin_val {n : Nat} [NeZero n] {w lo : Nat} (x : Fin n) (h : w / 2 ^ lo % n = x.val) : fin n w lo = x :=
  Fin.ext (by simpa [fin, Fin.ofNat] using h)

/-- A cut of bits. -/
theorem field_val {len w lo : Nat} (x : BitVec len) (h : w / 2 ^ lo % 2 ^ len = x.toNat) : field len w lo = x :=
  BitVec.eq_of_toNat_eq (by simpa [field] using h)

/-- A Boolean bit. -/
theorem bit_val {w lo : Nat} (b : Bool) (h : w / 2 ^ lo % 2 ^ 1 = flag b) : bit w lo = b := by
  cases b <;> simp_all [bit, flag]

/-- A Boolean field takes one bit. -/
theorem flag_lt (b : Bool) : flag b < 2 := by cases b <;> decide

theorem scope_code_lt (x : Scope) : x.code < 5 := by cases x <;> decide
theorem rm_code_lt (x : Rm) : x.code < 6 := by cases x <;> decide
theorem cond_code_lt (x : Cond) : x.code < 8 := by cases x <;> decide
theorem nul_code_lt (x : Nul) : x.code < 4 := by cases x <;> decide
theorem path_code_lt (x : Path) : x.code < 5 := by cases x <;> decide
theorem eng_code_lt (x : Eng) : x.code < 3 := by cases x <;> decide
theorem ty_code_lt (x : Ty) : x.code < 16 := by cases x <;> decide
@[simp] theorem scope_of_code (x : Scope) : Scope.ofCode x.code = some x := by cases x <;> rfl
@[simp] theorem rm_of_code (x : Rm) : Rm.ofCode x.code = some x := by cases x <;> rfl
@[simp] theorem cond_of_code (x : Cond) : Cond.ofCode x.code = x := by cases x <;> rfl
@[simp] theorem nul_of_code (x : Nul) : Nul.ofCode x.code = x := by cases x <;> rfl
@[simp] theorem path_of_code (x : Path) : Path.ofCode x.code = some x := by cases x <;> rfl
@[simp] theorem eng_of_code (x : Eng) : Eng.ofCode x.code = some x := by cases x <;> rfl
@[simp] theorem ty_of_code (x : Ty) : Ty.ofCode x.code = x := by cases x <;> rfl
theorem scope_at {n : Nat} (x : Scope) (h : n = x.code) : Scope.ofCode n = some x := by rw [h]; exact scope_of_code x
theorem rm_at {n : Nat} (x : Rm) (h : n = x.code) : Rm.ofCode n = some x := by rw [h]; exact rm_of_code x
theorem cond_at {n : Nat} (x : Cond) (h : n = x.code) : Cond.ofCode n = x := by rw [h]; exact cond_of_code x
theorem nul_at {n : Nat} (x : Nul) (h : n = x.code) : Nul.ofCode n = x := by rw [h]; exact nul_of_code x
theorem path_at {n : Nat} (x : Path) (h : n = x.code) : Path.ofCode n = some x := by rw [h]; exact path_of_code x
theorem eng_at {n : Nat} (x : Eng) (h : n = x.code) : Eng.ofCode n = some x := by rw [h]; exact eng_of_code x
theorem ty_at {n : Nat} (x : Ty) (h : n = x.code) : Ty.ofCode n = x := by rw [h]; exact ty_of_code x

/-! ## Sa -/

theorem sa_major (k fn : Nat) (o : Sa) (hk : k < 2 ^ 6) (hfn : fn < 2 ^ 11) :
    wordSa k fn o / 2 ^ 26 % 2 ^ 6 = k := by
  have bd := o.d.isLt
  have ba := o.a.isLt
  have bb := o.b.isLt
  refine cut_eq 26 6 (hi := 0) (lo := o.d.val * 2 ^ 21 + o.a.val * 2 ^ 16 + o.b.val * 2 ^ 11 + fn) ?_ ?_ ?_ <;> (try simp only [wordSa]) <;> omega

theorem sa_d (k fn : Nat) (o : Sa) (hfn : fn < 2 ^ 11) : wordSa k fn o / 2 ^ 21 % 2 ^ 5 = o.d.val := by
  have ba := o.a.isLt
  have bb := o.b.isLt
  have bd := o.d.isLt
  refine cut_eq 21 5 (hi := k) (lo := o.a.val * 2 ^ 16 + o.b.val * 2 ^ 11 + fn) ?_ ?_ ?_ <;> (try simp only [wordSa]) <;> omega

theorem sa_a (k fn : Nat) (o : Sa) (hfn : fn < 2 ^ 11) : wordSa k fn o / 2 ^ 16 % 2 ^ 5 = o.a.val := by
  have bb := o.b.isLt
  have ba := o.a.isLt
  refine cut_eq 16 5 (hi := k * 2 ^ 5 + o.d.val) (lo := o.b.val * 2 ^ 11 + fn) ?_ ?_ ?_ <;> (try simp only [wordSa]) <;> omega

theorem sa_b (k fn : Nat) (o : Sa) (hfn : fn < 2 ^ 11) : wordSa k fn o / 2 ^ 11 % 2 ^ 5 = o.b.val := by
  have bb := o.b.isLt
  refine cut_eq 11 5 (hi := k * 2 ^ 10 + o.d.val * 2 ^ 5 + o.a.val) (lo := fn) ?_ ?_ ?_ <;> (try simp only [wordSa]) <;> omega

theorem sa_fn (k fn : Nat) (o : Sa) (hfn : fn < 2 ^ 11) : wordSa k fn o / 2 ^ 0 % 2 ^ 11 = fn := by
  refine cut_eq 0 11 (hi := k * 2 ^ 15 + o.d.val * 2 ^ 10 + o.a.val * 2 ^ 5 + o.b.val) (lo := 0) ?_ ?_ ?_ <;> (try simp only [wordSa]) <;> omega

theorem sa_read_of (w : Nat) (o : Sa)
    (q0 : fin 32 w 21 = o.d)
    (q1 : fin 32 w 16 = o.a)
    (q2 : fin 32 w 11 = o.b) :
    readSa w = o := by
  simp only [readSa, q0, q1, q2]

theorem sa_read (k fn : Nat) (o : Sa) (hfn : fn < 2 ^ 11) : readSa (wordSa k fn o) = o :=
  sa_read_of _ o
    (fin_val o.d (sa_d k fn o hfn))
    (fin_val o.a (sa_a k fn o hfn))
    (fin_val o.b (sa_b k fn o hfn))

/-! ## Si -/

theorem si_major (k : Nat) (o : Si) (hk : k < 2 ^ 6) : wordSi k o / 2 ^ 26 % 2 ^ 6 = k := by
  have bd := o.d.isLt
  have ba := o.a.isLt
  have bimm := o.imm.isLt
  refine cut_eq 26 6 (hi := 0) (lo := o.d.val * 2 ^ 21 + o.a.val * 2 ^ 16 + o.imm.toNat) ?_ ?_ ?_ <;> (try simp only [wordSi]) <;> omega

theorem si_d (k : Nat) (o : Si) : wordSi k o / 2 ^ 21 % 2 ^ 5 = o.d.val := by
  have ba := o.a.isLt
  have bimm := o.imm.isLt
  have bd := o.d.isLt
  refine cut_eq 21 5 (hi := k) (lo := o.a.val * 2 ^ 16 + o.imm.toNat) ?_ ?_ ?_ <;> (try simp only [wordSi]) <;> omega

theorem si_a (k : Nat) (o : Si) : wordSi k o / 2 ^ 16 % 2 ^ 5 = o.a.val := by
  have bimm := o.imm.isLt
  have ba := o.a.isLt
  refine cut_eq 16 5 (hi := k * 2 ^ 5 + o.d.val) (lo := o.imm.toNat) ?_ ?_ ?_ <;> (try simp only [wordSi]) <;> omega

theorem si_imm (k : Nat) (o : Si) : wordSi k o / 2 ^ 0 % 2 ^ 16 = o.imm.toNat := by
  have bimm := o.imm.isLt
  refine cut_eq 0 16 (hi := k * 2 ^ 10 + o.d.val * 2 ^ 5 + o.a.val) (lo := 0) ?_ ?_ ?_ <;> (try simp only [wordSi]) <;> omega

theorem si_read_of (w : Nat) (o : Si)
    (q0 : fin 32 w 21 = o.d)
    (q1 : fin 32 w 16 = o.a)
    (q2 : field 16 w 0 = o.imm) :
    readSi w = o := by
  simp only [readSi, q0, q1, q2]

theorem si_read (k : Nat) (o : Si) : readSi (wordSi k o) = o :=
  si_read_of _ o
    (fin_val o.d (si_d k o))
    (fin_val o.a (si_a k o))
    (field_val o.imm (si_imm k o))

/-! ## Sf -/

theorem sf_major (k fn : Nat) (o : Sf) (hk : k < 2 ^ 6) (hfn : fn < 2 ^ 4) : wordSf k fn o / 2 ^ 26 % 2 ^ 6 = k := by
  have bd := o.d.isLt
  have ba := o.a.isLt
  have bpos := o.pos.isLt
  have blen6 := o.len6.isLt
  refine cut_eq 26 6 (hi := 0) (lo := o.d.val * 2 ^ 21 + o.a.val * 2 ^ 16 + o.pos.val * 2 ^ 10 + o.len6.val * 2 ^ 4 + fn) ?_ ?_ ?_ <;> (try simp only [wordSf]) <;> omega

theorem sf_d (k fn : Nat) (o : Sf) (hfn : fn < 2 ^ 4) : wordSf k fn o / 2 ^ 21 % 2 ^ 5 = o.d.val := by
  have ba := o.a.isLt
  have bpos := o.pos.isLt
  have blen6 := o.len6.isLt
  have bd := o.d.isLt
  refine cut_eq 21 5 (hi := k) (lo := o.a.val * 2 ^ 16 + o.pos.val * 2 ^ 10 + o.len6.val * 2 ^ 4 + fn) ?_ ?_ ?_ <;> (try simp only [wordSf]) <;> omega

theorem sf_a (k fn : Nat) (o : Sf) (hfn : fn < 2 ^ 4) : wordSf k fn o / 2 ^ 16 % 2 ^ 5 = o.a.val := by
  have bpos := o.pos.isLt
  have blen6 := o.len6.isLt
  have ba := o.a.isLt
  refine cut_eq 16 5 (hi := k * 2 ^ 5 + o.d.val) (lo := o.pos.val * 2 ^ 10 + o.len6.val * 2 ^ 4 + fn) ?_ ?_ ?_ <;> (try simp only [wordSf]) <;> omega

theorem sf_pos (k fn : Nat) (o : Sf) (hfn : fn < 2 ^ 4) : wordSf k fn o / 2 ^ 10 % 2 ^ 6 = o.pos.val := by
  have blen6 := o.len6.isLt
  have bpos := o.pos.isLt
  refine cut_eq 10 6 (hi := k * 2 ^ 10 + o.d.val * 2 ^ 5 + o.a.val) (lo := o.len6.val * 2 ^ 4 + fn) ?_ ?_ ?_ <;> (try simp only [wordSf]) <;> omega

theorem sf_len6 (k fn : Nat) (o : Sf) (hfn : fn < 2 ^ 4) : wordSf k fn o / 2 ^ 4 % 2 ^ 6 = o.len6.val := by
  have blen6 := o.len6.isLt
  refine cut_eq 4 6 (hi := k * 2 ^ 16 + o.d.val * 2 ^ 11 + o.a.val * 2 ^ 6 + o.pos.val) (lo := fn) ?_ ?_ ?_ <;> (try simp only [wordSf]) <;> omega

theorem sf_fn (k fn : Nat) (o : Sf) (hfn : fn < 2 ^ 4) : wordSf k fn o / 2 ^ 0 % 2 ^ 4 = fn := by
  refine cut_eq 0 4 (hi := k * 2 ^ 22 + o.d.val * 2 ^ 17 + o.a.val * 2 ^ 12 + o.pos.val * 2 ^ 6 + o.len6.val) (lo := 0) ?_ ?_ ?_ <;> (try simp only [wordSf]) <;> omega

theorem sf_read_of (w : Nat) (o : Sf)
    (q0 : fin 32 w 21 = o.d)
    (q1 : fin 32 w 16 = o.a)
    (q2 : fin 64 w 10 = o.pos)
    (q3 : fin 64 w 4 = o.len6) :
    readSf w = o := by
  simp only [readSf, q0, q1, q2, q3]

theorem sf_read (k fn : Nat) (o : Sf) (hfn : fn < 2 ^ 4) : readSf (wordSf k fn o) = o :=
  sf_read_of _ o
    (fin_val o.d (sf_d k fn o hfn))
    (fin_val o.a (sf_a k fn o hfn))
    (fin_val o.pos (sf_pos k fn o hfn))
    (fin_val o.len6 (sf_len6 k fn o hfn))

/-! ## Sf2 -/

theorem sf2_major (k fn : Nat) (o : Sf2) (hk : k < 2 ^ 6) (hfn : fn < 2 ^ 5) :
    wordSf2 k fn o / 2 ^ 26 % 2 ^ 6 = k := by
  have bd := o.d.isLt
  have ba := o.a.isLt
  have bb := o.b.isLt
  have bsh := o.sh.isLt
  refine cut_eq 26 6 (hi := 0) (lo := o.d.val * 2 ^ 21 + o.a.val * 2 ^ 16 + o.b.val * 2 ^ 11 + o.sh.val * 2 ^ 5 + fn) ?_ ?_ ?_ <;> (try simp only [wordSf2]) <;> omega

theorem sf2_d (k fn : Nat) (o : Sf2) (hfn : fn < 2 ^ 5) : wordSf2 k fn o / 2 ^ 21 % 2 ^ 5 = o.d.val := by
  have ba := o.a.isLt
  have bb := o.b.isLt
  have bsh := o.sh.isLt
  have bd := o.d.isLt
  refine cut_eq 21 5 (hi := k) (lo := o.a.val * 2 ^ 16 + o.b.val * 2 ^ 11 + o.sh.val * 2 ^ 5 + fn) ?_ ?_ ?_ <;> (try simp only [wordSf2]) <;> omega

theorem sf2_a (k fn : Nat) (o : Sf2) (hfn : fn < 2 ^ 5) : wordSf2 k fn o / 2 ^ 16 % 2 ^ 5 = o.a.val := by
  have bb := o.b.isLt
  have bsh := o.sh.isLt
  have ba := o.a.isLt
  refine cut_eq 16 5 (hi := k * 2 ^ 5 + o.d.val) (lo := o.b.val * 2 ^ 11 + o.sh.val * 2 ^ 5 + fn) ?_ ?_ ?_ <;> (try simp only [wordSf2]) <;> omega

theorem sf2_b (k fn : Nat) (o : Sf2) (hfn : fn < 2 ^ 5) : wordSf2 k fn o / 2 ^ 11 % 2 ^ 5 = o.b.val := by
  have bsh := o.sh.isLt
  have bb := o.b.isLt
  refine cut_eq 11 5 (hi := k * 2 ^ 10 + o.d.val * 2 ^ 5 + o.a.val) (lo := o.sh.val * 2 ^ 5 + fn) ?_ ?_ ?_ <;> (try simp only [wordSf2]) <;> omega

theorem sf2_sh (k fn : Nat) (o : Sf2) (hfn : fn < 2 ^ 5) : wordSf2 k fn o / 2 ^ 5 % 2 ^ 6 = o.sh.val := by
  have bsh := o.sh.isLt
  refine cut_eq 5 6 (hi := k * 2 ^ 15 + o.d.val * 2 ^ 10 + o.a.val * 2 ^ 5 + o.b.val) (lo := fn) ?_ ?_ ?_ <;> (try simp only [wordSf2]) <;> omega

theorem sf2_fn (k fn : Nat) (o : Sf2) (hfn : fn < 2 ^ 5) : wordSf2 k fn o / 2 ^ 0 % 2 ^ 5 = fn := by
  refine cut_eq 0 5 (hi := k * 2 ^ 21 + o.d.val * 2 ^ 16 + o.a.val * 2 ^ 11 + o.b.val * 2 ^ 6 + o.sh.val) (lo := 0) ?_ ?_ ?_ <;> (try simp only [wordSf2]) <;> omega

theorem sf2_read_of (w : Nat) (o : Sf2)
    (q0 : fin 32 w 21 = o.d)
    (q1 : fin 32 w 16 = o.a)
    (q2 : fin 32 w 11 = o.b)
    (q3 : fin 64 w 5 = o.sh) :
    readSf2 w = o := by
  simp only [readSf2, q0, q1, q2, q3]

theorem sf2_read (k fn : Nat) (o : Sf2) (hfn : fn < 2 ^ 5) : readSf2 (wordSf2 k fn o) = o :=
  sf2_read_of _ o
    (fin_val o.d (sf2_d k fn o hfn))
    (fin_val o.a (sf2_a k fn o hfn))
    (fin_val o.b (sf2_b k fn o hfn))
    (fin_val o.sh (sf2_sh k fn o hfn))

/-! ## Sj -/

theorem sj_major (k : Nat) (o : Sj) (hk : k < 2 ^ 6) : wordSj k o / 2 ^ 26 % 2 ^ 6 = k := by
  have blink := o.link.isLt
  have bdisp := o.disp.isLt
  refine cut_eq 26 6 (hi := 0) (lo := o.link.val * 2 ^ 21 + o.disp.toNat) ?_ ?_ ?_ <;> (try simp only [wordSj]) <;> omega

theorem sj_link (k : Nat) (o : Sj) : wordSj k o / 2 ^ 21 % 2 ^ 5 = o.link.val := by
  have bdisp := o.disp.isLt
  have blink := o.link.isLt
  refine cut_eq 21 5 (hi := k) (lo := o.disp.toNat) ?_ ?_ ?_ <;> (try simp only [wordSj]) <;> omega

theorem sj_disp (k : Nat) (o : Sj) : wordSj k o / 2 ^ 0 % 2 ^ 21 = o.disp.toNat := by
  have bdisp := o.disp.isLt
  refine cut_eq 0 21 (hi := k * 2 ^ 5 + o.link.val) (lo := 0) ?_ ?_ ?_ <;> (try simp only [wordSj]) <;> omega

theorem sj_read_of (w : Nat) (o : Sj)
    (q0 : fin 32 w 21 = o.link)
    (q1 : field 21 w 0 = o.disp) :
    readSj w = o := by
  simp only [readSj, q0, q1]

theorem sj_read (k : Nat) (o : Sj) : readSj (wordSj k o) = o :=
  sj_read_of _ o
    (fin_val o.link (sj_link k o))
    (field_val o.disp (sj_disp k o))

/-! ## Sl -/

theorem sl_major (k h : Nat) (o : Sl) (hk : k < 2 ^ 6) (hh : h < 2 ^ 1) : wordSl k h o / 2 ^ 26 % 2 ^ 6 = k := by
  have bd := o.d.isLt
  refine cut_eq 26 6 (hi := 0) (lo := o.d.val * 2 ^ 21 + h * 2 ^ 20) ?_ ?_ ?_ <;> (try simp only [wordSl]) <;> omega

theorem sl_d (k h : Nat) (o : Sl) (hh : h < 2 ^ 1) : wordSl k h o / 2 ^ 21 % 2 ^ 5 = o.d.val := by
  have bd := o.d.isLt
  refine cut_eq 21 5 (hi := k) (lo := h * 2 ^ 20) ?_ ?_ ?_ <;> (try simp only [wordSl]) <;> omega

theorem sl_h (k h : Nat) (o : Sl) (hh : h < 2 ^ 1) : wordSl k h o / 2 ^ 20 % 2 ^ 1 = h := by
  refine cut_eq 20 1 (hi := k * 2 ^ 5 + o.d.val) (lo := 0) ?_ ?_ ?_ <;> (try simp only [wordSl]) <;> omega

theorem sl_zero0 (k h : Nat) (o : Sl) (hh : h < 2 ^ 1) : wordSl k h o / 2 ^ 0 % 2 ^ 20 = 0 := by
  refine cut_eq 0 20 (hi := k * 2 ^ 6 + o.d.val * 2 ^ 1 + h) (lo := 0) ?_ ?_ ?_ <;> (try simp only [wordSl]) <;> omega

theorem sl_c_imm (o : Sl) : contSl o / 2 ^ 0 % 2 ^ 32 = o.imm.toNat := by
  have bimm := o.imm.isLt
  refine cut_eq 0 32 (hi := 0) (lo := 0) ?_ ?_ ?_ <;> (try simp only [contSl]) <;> omega

theorem sl_read_of (w c : Nat) (o : Sl)
    (q0 : fin 32 w 21 = o.d)
    (q1 : bits w 0 20 = 0)
    (q2 : field 32 c 0 = o.imm) :
    readSl w c = .ok o := by
  simp only [readSl, q0, q1, q2, if_true]

theorem sl_read (k h : Nat) (o : Sl) (hh : h < 2 ^ 1) : readSl (wordSl k h o) (contSl o) = .ok o :=
  sl_read_of _ _ o
    (fin_val o.d (sl_d k h o hh))
    (sl_zero0 k h o hh)
    (field_val o.imm (sl_c_imm o))

/-! ## Sac -/

theorem sac_major (k : Nat) (o : Sac) (hk : k < 2 ^ 6) : wordSac k o / 2 ^ 26 % 2 ^ 6 = k := by
  have bd := o.d.isLt
  have ba := o.a.isLt
  have bb := o.b.isLt
  refine cut_eq 26 6 (hi := 0) (lo := o.d.val * 2 ^ 21 + o.a.val * 2 ^ 16 + o.b.val * 2 ^ 11) ?_ ?_ ?_ <;> (try simp only [wordSac]) <;> omega

theorem sac_d (k : Nat) (o : Sac) : wordSac k o / 2 ^ 21 % 2 ^ 5 = o.d.val := by
  have ba := o.a.isLt
  have bb := o.b.isLt
  have bd := o.d.isLt
  refine cut_eq 21 5 (hi := k) (lo := o.a.val * 2 ^ 16 + o.b.val * 2 ^ 11) ?_ ?_ ?_ <;> (try simp only [wordSac]) <;> omega

theorem sac_a (k : Nat) (o : Sac) : wordSac k o / 2 ^ 16 % 2 ^ 5 = o.a.val := by
  have bb := o.b.isLt
  have ba := o.a.isLt
  refine cut_eq 16 5 (hi := k * 2 ^ 5 + o.d.val) (lo := o.b.val * 2 ^ 11) ?_ ?_ ?_ <;> (try simp only [wordSac]) <;> omega

theorem sac_b (k : Nat) (o : Sac) : wordSac k o / 2 ^ 11 % 2 ^ 5 = o.b.val := by
  have bb := o.b.isLt
  refine cut_eq 11 5 (hi := k * 2 ^ 10 + o.d.val * 2 ^ 5 + o.a.val) (lo := 0) ?_ ?_ ?_ <;> (try simp only [wordSac]) <;> omega

theorem sac_zero0 (k : Nat) (o : Sac) : wordSac k o / 2 ^ 0 % 2 ^ 11 = 0 := by
  refine cut_eq 0 11 (hi := k * 2 ^ 15 + o.d.val * 2 ^ 10 + o.a.val * 2 ^ 5 + o.b.val) (lo := 0) ?_ ?_ ?_ <;> (try simp only [wordSac]) <;> omega

theorem sac_c_c (o : Sac) : contSac o / 2 ^ 27 % 2 ^ 5 = o.c.val := by
  have be := o.e.isLt
  have bfl6 := o.fl6.isLt
  have bc := o.c.isLt
  refine cut_eq 27 5 (hi := 0) (lo := o.e.val * 2 ^ 22 + o.fl6.val * 2 ^ 16) ?_ ?_ ?_ <;> (try simp only [contSac]) <;> omega

theorem sac_c_e (o : Sac) : contSac o / 2 ^ 22 % 2 ^ 5 = o.e.val := by
  have bfl6 := o.fl6.isLt
  have be := o.e.isLt
  refine cut_eq 22 5 (hi := o.c.val) (lo := o.fl6.val * 2 ^ 16) ?_ ?_ ?_ <;> (try simp only [contSac]) <;> omega

theorem sac_c_fl6 (o : Sac) : contSac o / 2 ^ 16 % 2 ^ 6 = o.fl6.val := by
  have bfl6 := o.fl6.isLt
  refine cut_eq 16 6 (hi := o.c.val * 2 ^ 5 + o.e.val) (lo := 0) ?_ ?_ ?_ <;> (try simp only [contSac]) <;> omega

theorem sac_c_zero0 (o : Sac) : contSac o / 2 ^ 0 % 2 ^ 16 = 0 := by
  refine cut_eq 0 16 (hi := o.c.val * 2 ^ 11 + o.e.val * 2 ^ 6 + o.fl6.val) (lo := 0) ?_ ?_ ?_ <;> (try simp only [contSac]) <;> omega

theorem sac_read_of (w c : Nat) (o : Sac)
    (q0 : fin 32 w 21 = o.d)
    (q1 : fin 32 w 16 = o.a)
    (q2 : fin 32 w 11 = o.b)
    (q3 : bits w 0 11 = 0)
    (q4 : fin 32 c 27 = o.c)
    (q5 : fin 32 c 22 = o.e)
    (q6 : fin 64 c 16 = o.fl6)
    (q7 : bits c 0 16 = 0) :
    readSac w c = .ok o := by
  simp only [readSac, q0, q1, q2, q3, q4, q5, q6, q7, and_self, if_true]

theorem sac_read (k : Nat) (o : Sac) : readSac (wordSac k o) (contSac o) = .ok o :=
  sac_read_of _ _ o
    (fin_val o.d (sac_d k o))
    (fin_val o.a (sac_a k o))
    (fin_val o.b (sac_b k o))
    (sac_zero0 k o)
    (fin_val o.c (sac_c_c o))
    (fin_val o.e (sac_c_e o))
    (fin_val o.fl6 (sac_c_fl6 o))
    (sac_c_zero0 o)

/-! ## Sb -/

theorem sb_major (k : Nat) (o : Sb) (hk : k < 2 ^ 6) : wordSb k o / 2 ^ 26 % 2 ^ 6 = k := by
  have ba := o.a.isLt
  have bb := o.b.isLt
  have bcond := cond_code_lt o.cond
  have bnul := nul_code_lt o.nul
  have bdisp := o.disp.isLt
  refine cut_eq 26 6 (hi := 0) (lo := o.a.val * 2 ^ 21 + o.b.toNat * 2 ^ 16 + o.cond.code * 2 ^ 13 + o.nul.code * 2 ^ 11 + o.disp.toNat) ?_ ?_ ?_ <;> (try simp only [wordSb]) <;> omega

theorem sb_a (k : Nat) (o : Sb) : wordSb k o / 2 ^ 21 % 2 ^ 5 = o.a.val := by
  have bb := o.b.isLt
  have bcond := cond_code_lt o.cond
  have bnul := nul_code_lt o.nul
  have bdisp := o.disp.isLt
  have ba := o.a.isLt
  refine cut_eq 21 5 (hi := k) (lo := o.b.toNat * 2 ^ 16 + o.cond.code * 2 ^ 13 + o.nul.code * 2 ^ 11 + o.disp.toNat) ?_ ?_ ?_ <;> (try simp only [wordSb]) <;> omega

theorem sb_b (k : Nat) (o : Sb) : wordSb k o / 2 ^ 16 % 2 ^ 5 = o.b.toNat := by
  have bcond := cond_code_lt o.cond
  have bnul := nul_code_lt o.nul
  have bdisp := o.disp.isLt
  have bb := o.b.isLt
  refine cut_eq 16 5 (hi := k * 2 ^ 5 + o.a.val) (lo := o.cond.code * 2 ^ 13 + o.nul.code * 2 ^ 11 + o.disp.toNat) ?_ ?_ ?_ <;> (try simp only [wordSb]) <;> omega

theorem sb_cond (k : Nat) (o : Sb) : wordSb k o / 2 ^ 13 % 2 ^ 3 = o.cond.code := by
  have bnul := nul_code_lt o.nul
  have bdisp := o.disp.isLt
  have bcond := cond_code_lt o.cond
  refine cut_eq 13 3 (hi := k * 2 ^ 10 + o.a.val * 2 ^ 5 + o.b.toNat) (lo := o.nul.code * 2 ^ 11 + o.disp.toNat) ?_ ?_ ?_ <;> (try simp only [wordSb]) <;> omega

theorem sb_nul (k : Nat) (o : Sb) : wordSb k o / 2 ^ 11 % 2 ^ 2 = o.nul.code := by
  have bdisp := o.disp.isLt
  have bnul := nul_code_lt o.nul
  refine cut_eq 11 2 (hi := k * 2 ^ 13 + o.a.val * 2 ^ 8 + o.b.toNat * 2 ^ 3 + o.cond.code) (lo := o.disp.toNat) ?_ ?_ ?_ <;> (try simp only [wordSb]) <;> omega

theorem sb_disp (k : Nat) (o : Sb) : wordSb k o / 2 ^ 0 % 2 ^ 11 = o.disp.toNat := by
  have bdisp := o.disp.isLt
  refine cut_eq 0 11 (hi := k * 2 ^ 15 + o.a.val * 2 ^ 10 + o.b.toNat * 2 ^ 5 + o.cond.code * 2 ^ 2 + o.nul.code) (lo := 0) ?_ ?_ ?_ <;> (try simp only [wordSb]) <;> omega

theorem sb_read_of (w : Nat) (o : Sb)
    (q0 : fin 32 w 21 = o.a)
    (q1 : field 5 w 16 = o.b)
    (q2 : Cond.ofCode (bits w 13 3) = o.cond)
    (q3 : Nul.ofCode (bits w 11 2) = o.nul)
    (q4 : field 11 w 0 = o.disp) :
    readSb w = .ok o := by
  simp only [readSb, q0, q1, q2, q3, q4]

theorem sb_read (k : Nat) (o : Sb) : readSb (wordSb k o) = .ok o :=
  sb_read_of _ o
    (fin_val o.a (sb_a k o))
    (field_val o.b (sb_b k o))
    (cond_at _ (sb_cond k o))
    (nul_at _ (sb_nul k o))
    (field_val o.disp (sb_disp k o))

/-! ## Sm -/

theorem sm_major (k : Nat) (o : Sm) (hk : k < 2 ^ 6) : wordSm k o / 2 ^ 26 % 2 ^ 6 = k := by
  have bt := o.t.isLt
  have ba := o.a.isLt
  have boff := o.off.isLt
  have bsen := flag_lt o.sen
  have bslot := o.slot.isLt
  have bscope := scope_code_lt o.scope
  refine cut_eq 26 6 (hi := 0) (lo := o.t.val * 2 ^ 21 + o.a.val * 2 ^ 16 + o.off.toNat * 2 ^ 7 + flag o.sen * 2 ^ 6 + o.slot.val * 2 ^ 3 + o.scope.code) ?_ ?_ ?_ <;> (try simp only [wordSm]) <;> omega

theorem sm_t (k : Nat) (o : Sm) : wordSm k o / 2 ^ 21 % 2 ^ 5 = o.t.val := by
  have ba := o.a.isLt
  have boff := o.off.isLt
  have bsen := flag_lt o.sen
  have bslot := o.slot.isLt
  have bscope := scope_code_lt o.scope
  have bt := o.t.isLt
  refine cut_eq 21 5 (hi := k) (lo := o.a.val * 2 ^ 16 + o.off.toNat * 2 ^ 7 + flag o.sen * 2 ^ 6 + o.slot.val * 2 ^ 3 + o.scope.code) ?_ ?_ ?_ <;> (try simp only [wordSm]) <;> omega

theorem sm_a (k : Nat) (o : Sm) : wordSm k o / 2 ^ 16 % 2 ^ 5 = o.a.val := by
  have boff := o.off.isLt
  have bsen := flag_lt o.sen
  have bslot := o.slot.isLt
  have bscope := scope_code_lt o.scope
  have ba := o.a.isLt
  refine cut_eq 16 5 (hi := k * 2 ^ 5 + o.t.val) (lo := o.off.toNat * 2 ^ 7 + flag o.sen * 2 ^ 6 + o.slot.val * 2 ^ 3 + o.scope.code) ?_ ?_ ?_ <;> (try simp only [wordSm]) <;> omega

theorem sm_off (k : Nat) (o : Sm) : wordSm k o / 2 ^ 7 % 2 ^ 9 = o.off.toNat := by
  have bsen := flag_lt o.sen
  have bslot := o.slot.isLt
  have bscope := scope_code_lt o.scope
  have boff := o.off.isLt
  refine cut_eq 7 9 (hi := k * 2 ^ 10 + o.t.val * 2 ^ 5 + o.a.val) (lo := flag o.sen * 2 ^ 6 + o.slot.val * 2 ^ 3 + o.scope.code) ?_ ?_ ?_ <;> (try simp only [wordSm]) <;> omega

theorem sm_sen (k : Nat) (o : Sm) : wordSm k o / 2 ^ 6 % 2 ^ 1 = flag o.sen := by
  have bslot := o.slot.isLt
  have bscope := scope_code_lt o.scope
  have bsen := flag_lt o.sen
  refine cut_eq 6 1 (hi := k * 2 ^ 19 + o.t.val * 2 ^ 14 + o.a.val * 2 ^ 9 + o.off.toNat) (lo := o.slot.val * 2 ^ 3 + o.scope.code) ?_ ?_ ?_ <;> (try simp only [wordSm]) <;> omega

theorem sm_slot (k : Nat) (o : Sm) : wordSm k o / 2 ^ 3 % 2 ^ 3 = o.slot.val := by
  have bscope := scope_code_lt o.scope
  have bslot := o.slot.isLt
  refine cut_eq 3 3 (hi := k * 2 ^ 20 + o.t.val * 2 ^ 15 + o.a.val * 2 ^ 10 + o.off.toNat * 2 ^ 1 + flag o.sen) (lo := o.scope.code) ?_ ?_ ?_ <;> (try simp only [wordSm]) <;> omega

theorem sm_scope (k : Nat) (o : Sm) : wordSm k o / 2 ^ 0 % 2 ^ 3 = o.scope.code := by
  have bscope := scope_code_lt o.scope
  refine cut_eq 0 3 (hi := k * 2 ^ 23 + o.t.val * 2 ^ 18 + o.a.val * 2 ^ 13 + o.off.toNat * 2 ^ 4 + flag o.sen * 2 ^ 3 + o.slot.val) (lo := 0) ?_ ?_ ?_ <;> (try simp only [wordSm]) <;> omega

theorem sm_read_of (w : Nat) (o : Sm)
    (q0 : fin 32 w 21 = o.t)
    (q1 : fin 32 w 16 = o.a)
    (q2 : field 9 w 7 = o.off)
    (q3 : bit w 6 = o.sen)
    (q4 : fin 8 w 3 = o.slot)
    (q5 : Scope.ofCode (bits w 0 3) = some o.scope) :
    readSm w = .ok o := by
  simp only [readSm, q0, q1, q2, q3, q4, q5]

theorem sm_read (k : Nat) (o : Sm) : readSm (wordSm k o) = .ok o :=
  sm_read_of _ o
    (fin_val o.t (sm_t k o))
    (fin_val o.a (sm_a k o))
    (field_val o.off (sm_off k o))
    (bit_val o.sen (sm_sen k o))
    (fin_val o.slot (sm_slot k o))
    (scope_at _ (sm_scope k o))

/-! ## Sw -/

theorem sw_major (k : Nat) (o : Sw) (hk : k < 2 ^ 6) : wordSw k o / 2 ^ 26 % 2 ^ 6 = k := by
  have bmask := o.mask.isLt
  refine cut_eq 26 6 (hi := 0) (lo := o.mask.toNat) ?_ ?_ ?_ <;> (try simp only [wordSw]) <;> omega

theorem sw_zero8 (k : Nat) (o : Sw) : wordSw k o / 2 ^ 8 % 2 ^ 18 = 0 := by
  have bmask := o.mask.isLt
  refine cut_eq 8 18 (hi := k) (lo := o.mask.toNat) ?_ ?_ ?_ <;> (try simp only [wordSw]) <;> omega

theorem sw_mask (k : Nat) (o : Sw) : wordSw k o / 2 ^ 0 % 2 ^ 8 = o.mask.toNat := by
  have bmask := o.mask.isLt
  refine cut_eq 0 8 (hi := k * 2 ^ 18) (lo := 0) ?_ ?_ ?_ <;> (try simp only [wordSw]) <;> omega

theorem sw_read_of (w : Nat) (o : Sw)
    (q0 : bits w 8 18 = 0)
    (q1 : field 8 w 0 = o.mask) :
    readSw w = .ok o := by
  simp only [readSw, q0, q1, if_true]

theorem sw_read (k : Nat) (o : Sw) : readSw (wordSw k o) = .ok o :=
  sw_read_of _ o
    (sw_zero8 k o)
    (field_val o.mask (sw_mask k o))

/-! ## Sn -/

theorem sn_major (k : Nat) (o : Sn) (hk : k < 2 ^ 6) : wordSn k o / 2 ^ 26 % 2 ^ 6 = k := by
  have bpathA := path_code_lt o.pathA
  have bpathB := path_code_lt o.pathB
  have bscope := scope_code_lt o.scope
  refine cut_eq 26 6 (hi := 0) (lo := o.pathA.code * 2 ^ 23 + o.pathB.code * 2 ^ 20 + o.scope.code) ?_ ?_ ?_ <;> (try simp only [wordSn]) <;> omega

theorem sn_pathA (k : Nat) (o : Sn) : wordSn k o / 2 ^ 23 % 2 ^ 3 = o.pathA.code := by
  have bpathB := path_code_lt o.pathB
  have bscope := scope_code_lt o.scope
  have bpathA := path_code_lt o.pathA
  refine cut_eq 23 3 (hi := k) (lo := o.pathB.code * 2 ^ 20 + o.scope.code) ?_ ?_ ?_ <;> (try simp only [wordSn]) <;> omega

theorem sn_pathB (k : Nat) (o : Sn) : wordSn k o / 2 ^ 20 % 2 ^ 3 = o.pathB.code := by
  have bscope := scope_code_lt o.scope
  have bpathB := path_code_lt o.pathB
  refine cut_eq 20 3 (hi := k * 2 ^ 3 + o.pathA.code) (lo := o.scope.code) ?_ ?_ ?_ <;> (try simp only [wordSn]) <;> omega

theorem sn_zero3 (k : Nat) (o : Sn) : wordSn k o / 2 ^ 3 % 2 ^ 17 = 0 := by
  have bscope := scope_code_lt o.scope
  refine cut_eq 3 17 (hi := k * 2 ^ 6 + o.pathA.code * 2 ^ 3 + o.pathB.code) (lo := o.scope.code) ?_ ?_ ?_ <;> (try simp only [wordSn]) <;> omega

theorem sn_scope (k : Nat) (o : Sn) : wordSn k o / 2 ^ 0 % 2 ^ 3 = o.scope.code := by
  have bscope := scope_code_lt o.scope
  refine cut_eq 0 3 (hi := k * 2 ^ 23 + o.pathA.code * 2 ^ 20 + o.pathB.code * 2 ^ 17) (lo := 0) ?_ ?_ ?_ <;> (try simp only [wordSn]) <;> omega

theorem sn_read_of (w : Nat) (o : Sn)
    (q0 : Path.ofCode (bits w 23 3) = some o.pathA)
    (q1 : Path.ofCode (bits w 20 3) = some o.pathB)
    (q2 : bits w 3 17 = 0)
    (q3 : Scope.ofCode (bits w 0 3) = some o.scope) :
    readSn w = .ok o := by
  simp only [readSn, q0, q1, q2, q3, if_true]

theorem sn_read (k : Nat) (o : Sn) : readSn (wordSn k o) = .ok o :=
  sn_read_of _ o
    (path_at _ (sn_pathA k o))
    (path_at _ (sn_pathB k o))
    (sn_zero3 k o)
    (scope_at _ (sn_scope k o))

/-! ## Se -/

theorem se_major (k : Nat) (o : Se) (hk : k < 2 ^ 6) : wordSe k o / 2 ^ 26 % 2 ^ 6 = k := by
  have beng := eng_code_lt o.eng
  have bidx := o.idx.isLt
  have ba := o.a.isLt
  refine cut_eq 26 6 (hi := 0) (lo := o.eng.code * 2 ^ 24 + o.idx.val * 2 ^ 21 + o.a.val * 2 ^ 16) ?_ ?_ ?_ <;> (try simp only [wordSe]) <;> omega

theorem se_eng (k : Nat) (o : Se) : wordSe k o / 2 ^ 24 % 2 ^ 2 = o.eng.code := by
  have bidx := o.idx.isLt
  have ba := o.a.isLt
  have beng := eng_code_lt o.eng
  refine cut_eq 24 2 (hi := k) (lo := o.idx.val * 2 ^ 21 + o.a.val * 2 ^ 16) ?_ ?_ ?_ <;> (try simp only [wordSe]) <;> omega

theorem se_idx (k : Nat) (o : Se) : wordSe k o / 2 ^ 21 % 2 ^ 3 = o.idx.val := by
  have ba := o.a.isLt
  have bidx := o.idx.isLt
  refine cut_eq 21 3 (hi := k * 2 ^ 2 + o.eng.code) (lo := o.a.val * 2 ^ 16) ?_ ?_ ?_ <;> (try simp only [wordSe]) <;> omega

theorem se_a (k : Nat) (o : Se) : wordSe k o / 2 ^ 16 % 2 ^ 5 = o.a.val := by
  have ba := o.a.isLt
  refine cut_eq 16 5 (hi := k * 2 ^ 5 + o.eng.code * 2 ^ 3 + o.idx.val) (lo := 0) ?_ ?_ ?_ <;> (try simp only [wordSe]) <;> omega

theorem se_zero0 (k : Nat) (o : Se) : wordSe k o / 2 ^ 0 % 2 ^ 16 = 0 := by
  refine cut_eq 0 16 (hi := k * 2 ^ 10 + o.eng.code * 2 ^ 8 + o.idx.val * 2 ^ 5 + o.a.val) (lo := 0) ?_ ?_ ?_ <;> (try simp only [wordSe]) <;> omega

theorem se_read_of (w : Nat) (o : Se)
    (q0 : Eng.ofCode (bits w 24 2) = some o.eng)
    (q1 : fin 8 w 21 = o.idx)
    (q2 : fin 32 w 16 = o.a)
    (q3 : bits w 0 16 = 0) :
    readSe w = .ok o := by
  simp only [readSe, q0, q1, q2, q3, if_true]

theorem se_read (k : Nat) (o : Se) : readSe (wordSe k o) = .ok o :=
  se_read_of _ o
    (eng_at _ (se_eng k o))
    (fin_val o.idx (se_idx k o))
    (fin_val o.a (se_a k o))
    (se_zero0 k o)

/-! ## Act -/

theorem act_major (k : Nat) (o : Act) (hk : k < 2 ^ 6) : wordAct k o / 2 ^ 26 % 2 ^ 6 = k := by
  have ba := o.a.isLt
  have bb := o.b.isLt
  have bcause := o.cause.isLt
  refine cut_eq 26 6 (hi := 0) (lo := o.a.val * 2 ^ 16 + o.b.val * 2 ^ 11 + o.cause.toNat) ?_ ?_ ?_ <;> (try simp only [wordAct]) <;> omega

theorem act_zero21 (k : Nat) (o : Act) : wordAct k o / 2 ^ 21 % 2 ^ 5 = 0 := by
  have ba := o.a.isLt
  have bb := o.b.isLt
  have bcause := o.cause.isLt
  refine cut_eq 21 5 (hi := k) (lo := o.a.val * 2 ^ 16 + o.b.val * 2 ^ 11 + o.cause.toNat) ?_ ?_ ?_ <;> (try simp only [wordAct]) <;> omega

theorem act_a (k : Nat) (o : Act) : wordAct k o / 2 ^ 16 % 2 ^ 5 = o.a.val := by
  have bb := o.b.isLt
  have bcause := o.cause.isLt
  have ba := o.a.isLt
  refine cut_eq 16 5 (hi := k * 2 ^ 5) (lo := o.b.val * 2 ^ 11 + o.cause.toNat) ?_ ?_ ?_ <;> (try simp only [wordAct]) <;> omega

theorem act_b (k : Nat) (o : Act) : wordAct k o / 2 ^ 11 % 2 ^ 5 = o.b.val := by
  have bcause := o.cause.isLt
  have bb := o.b.isLt
  refine cut_eq 11 5 (hi := k * 2 ^ 10 + o.a.val) (lo := o.cause.toNat) ?_ ?_ ?_ <;> (try simp only [wordAct]) <;> omega

theorem act_zero8 (k : Nat) (o : Act) : wordAct k o / 2 ^ 8 % 2 ^ 3 = 0 := by
  have bcause := o.cause.isLt
  refine cut_eq 8 3 (hi := k * 2 ^ 15 + o.a.val * 2 ^ 5 + o.b.val) (lo := o.cause.toNat) ?_ ?_ ?_ <;> (try simp only [wordAct]) <;> omega

theorem act_cause (k : Nat) (o : Act) : wordAct k o / 2 ^ 0 % 2 ^ 8 = o.cause.toNat := by
  have bcause := o.cause.isLt
  refine cut_eq 0 8 (hi := k * 2 ^ 18 + o.a.val * 2 ^ 8 + o.b.val * 2 ^ 3) (lo := 0) ?_ ?_ ?_ <;> (try simp only [wordAct]) <;> omega

theorem act_read_of (w : Nat) (o : Act)
    (q0 : bits w 21 5 = 0)
    (q1 : fin 32 w 16 = o.a)
    (q2 : fin 32 w 11 = o.b)
    (q3 : bits w 8 3 = 0)
    (q4 : field 8 w 0 = o.cause) :
    readAct w = .ok o := by
  simp only [readAct, q0, q1, q2, q3, q4, and_self, if_true]

theorem act_read (k : Nat) (o : Act) : readAct (wordAct k o) = .ok o :=
  act_read_of _ o
    (act_zero21 k o)
    (fin_val o.a (act_a k o))
    (fin_val o.b (act_b k o))
    (act_zero8 k o)
    (field_val o.cause (act_cause k o))

/-! ## Va -/

theorem va_major (k : Nat) (o : Va) (hk : k < 2 ^ 6) : wordVa k o / 2 ^ 26 % 2 ^ 6 = k := by
  have bd := o.d.isLt
  have ba := o.a.isLt
  have bb := o.b.isLt
  have bp := o.p.isLt
  have bty := ty_code_lt o.ty
  refine cut_eq 26 6 (hi := 0) (lo := o.d.val * 2 ^ 20 + o.a.val * 2 ^ 14 + o.b.val * 2 ^ 8 + o.p.val * 2 ^ 4 + o.ty.code) ?_ ?_ ?_ <;> (try simp only [wordVa]) <;> omega

theorem va_d (k : Nat) (o : Va) : wordVa k o / 2 ^ 20 % 2 ^ 6 = o.d.val := by
  have ba := o.a.isLt
  have bb := o.b.isLt
  have bp := o.p.isLt
  have bty := ty_code_lt o.ty
  have bd := o.d.isLt
  refine cut_eq 20 6 (hi := k) (lo := o.a.val * 2 ^ 14 + o.b.val * 2 ^ 8 + o.p.val * 2 ^ 4 + o.ty.code) ?_ ?_ ?_ <;> (try simp only [wordVa]) <;> omega

theorem va_a (k : Nat) (o : Va) : wordVa k o / 2 ^ 14 % 2 ^ 6 = o.a.val := by
  have bb := o.b.isLt
  have bp := o.p.isLt
  have bty := ty_code_lt o.ty
  have ba := o.a.isLt
  refine cut_eq 14 6 (hi := k * 2 ^ 6 + o.d.val) (lo := o.b.val * 2 ^ 8 + o.p.val * 2 ^ 4 + o.ty.code) ?_ ?_ ?_ <;> (try simp only [wordVa]) <;> omega

theorem va_b (k : Nat) (o : Va) : wordVa k o / 2 ^ 8 % 2 ^ 6 = o.b.val := by
  have bp := o.p.isLt
  have bty := ty_code_lt o.ty
  have bb := o.b.isLt
  refine cut_eq 8 6 (hi := k * 2 ^ 12 + o.d.val * 2 ^ 6 + o.a.val) (lo := o.p.val * 2 ^ 4 + o.ty.code) ?_ ?_ ?_ <;> (try simp only [wordVa]) <;> omega

theorem va_p (k : Nat) (o : Va) : wordVa k o / 2 ^ 4 % 2 ^ 4 = o.p.val := by
  have bty := ty_code_lt o.ty
  have bp := o.p.isLt
  refine cut_eq 4 4 (hi := k * 2 ^ 18 + o.d.val * 2 ^ 12 + o.a.val * 2 ^ 6 + o.b.val) (lo := o.ty.code) ?_ ?_ ?_ <;> (try simp only [wordVa]) <;> omega

theorem va_ty (k : Nat) (o : Va) : wordVa k o / 2 ^ 0 % 2 ^ 4 = o.ty.code := by
  have bty := ty_code_lt o.ty
  refine cut_eq 0 4 (hi := k * 2 ^ 22 + o.d.val * 2 ^ 16 + o.a.val * 2 ^ 10 + o.b.val * 2 ^ 4 + o.p.val) (lo := 0) ?_ ?_ ?_ <;> (try simp only [wordVa]) <;> omega

theorem va_read_of (w : Nat) (o : Va)
    (q0 : fin 64 w 20 = o.d)
    (q1 : fin 64 w 14 = o.a)
    (q2 : fin 64 w 8 = o.b)
    (q3 : fin 16 w 4 = o.p)
    (q4 : Ty.ofCode (bits w 0 4) = o.ty) :
    readVa w = o := by
  simp only [readVa, q0, q1, q2, q3, q4]

theorem va_read (k : Nat) (o : Va) : readVa (wordVa k o) = o :=
  va_read_of _ o
    (fin_val o.d (va_d k o))
    (fin_val o.a (va_a k o))
    (fin_val o.b (va_b k o))
    (fin_val o.p (va_p k o))
    (ty_at _ (va_ty k o))

/-! ## Vg -/

theorem vg_major (k : Nat) (o : Vg) (hk : k < 2 ^ 6) : wordVg k o / 2 ^ 26 % 2 ^ 6 = k := by
  have bd := o.d.isLt
  have ba := o.a.isLt
  have bb := o.b.isLt
  have bp := o.p.isLt
  have bscope := scope_code_lt o.scope
  refine cut_eq 26 6 (hi := 0) (lo := o.d.val * 2 ^ 20 + o.a.val * 2 ^ 14 + o.b.val * 2 ^ 8 + o.p.val * 2 ^ 4 + o.scope.code) ?_ ?_ ?_ <;> (try simp only [wordVg]) <;> omega

theorem vg_d (k : Nat) (o : Vg) : wordVg k o / 2 ^ 20 % 2 ^ 6 = o.d.val := by
  have ba := o.a.isLt
  have bb := o.b.isLt
  have bp := o.p.isLt
  have bscope := scope_code_lt o.scope
  have bd := o.d.isLt
  refine cut_eq 20 6 (hi := k) (lo := o.a.val * 2 ^ 14 + o.b.val * 2 ^ 8 + o.p.val * 2 ^ 4 + o.scope.code) ?_ ?_ ?_ <;> (try simp only [wordVg]) <;> omega

theorem vg_a (k : Nat) (o : Vg) : wordVg k o / 2 ^ 14 % 2 ^ 6 = o.a.val := by
  have bb := o.b.isLt
  have bp := o.p.isLt
  have bscope := scope_code_lt o.scope
  have ba := o.a.isLt
  refine cut_eq 14 6 (hi := k * 2 ^ 6 + o.d.val) (lo := o.b.val * 2 ^ 8 + o.p.val * 2 ^ 4 + o.scope.code) ?_ ?_ ?_ <;> (try simp only [wordVg]) <;> omega

theorem vg_b (k : Nat) (o : Vg) : wordVg k o / 2 ^ 8 % 2 ^ 6 = o.b.val := by
  have bp := o.p.isLt
  have bscope := scope_code_lt o.scope
  have bb := o.b.isLt
  refine cut_eq 8 6 (hi := k * 2 ^ 12 + o.d.val * 2 ^ 6 + o.a.val) (lo := o.p.val * 2 ^ 4 + o.scope.code) ?_ ?_ ?_ <;> (try simp only [wordVg]) <;> omega

theorem vg_p (k : Nat) (o : Vg) : wordVg k o / 2 ^ 4 % 2 ^ 4 = o.p.val := by
  have bscope := scope_code_lt o.scope
  have bp := o.p.isLt
  refine cut_eq 4 4 (hi := k * 2 ^ 18 + o.d.val * 2 ^ 12 + o.a.val * 2 ^ 6 + o.b.val) (lo := o.scope.code) ?_ ?_ ?_ <;> (try simp only [wordVg]) <;> omega

theorem vg_scope (k : Nat) (o : Vg) : wordVg k o / 2 ^ 0 % 2 ^ 4 = o.scope.code := by
  have bscope := scope_code_lt o.scope
  refine cut_eq 0 4 (hi := k * 2 ^ 22 + o.d.val * 2 ^ 16 + o.a.val * 2 ^ 10 + o.b.val * 2 ^ 4 + o.p.val) (lo := 0) ?_ ?_ ?_ <;> (try simp only [wordVg]) <;> omega

theorem vg_read_of (w : Nat) (o : Vg)
    (q0 : fin 64 w 20 = o.d)
    (q1 : fin 64 w 14 = o.a)
    (q2 : fin 64 w 8 = o.b)
    (q3 : fin 16 w 4 = o.p)
    (q4 : Scope.ofCode (bits w 0 4) = some o.scope) :
    readVg w = .ok o := by
  simp only [readVg, q0, q1, q2, q3, q4]

theorem vg_read (k : Nat) (o : Vg) : readVg (wordVg k o) = .ok o :=
  vg_read_of _ o
    (fin_val o.d (vg_d k o))
    (fin_val o.a (vg_a k o))
    (fin_val o.b (vg_b k o))
    (fin_val o.p (vg_p k o))
    (scope_at _ (vg_scope k o))

/-! ## Pr -/

theorem pr_major (k fn : Nat) (o : Pr) (hk : k < 2 ^ 6) (hfn : fn < 2 ^ 4) : wordPr k fn o / 2 ^ 26 % 2 ^ 6 = k := by
  have bd := o.d.isLt
  have ba := o.a.isLt
  have bb := o.b.isLt
  refine cut_eq 26 6 (hi := 0) (lo := o.d.val * 2 ^ 20 + o.a.val * 2 ^ 14 + o.b.val * 2 ^ 8 + fn) ?_ ?_ ?_ <;> (try simp only [wordPr]) <;> omega

theorem pr_zero24 (k fn : Nat) (o : Pr) (hfn : fn < 2 ^ 4) : wordPr k fn o / 2 ^ 24 % 2 ^ 2 = 0 := by
  have bd := o.d.isLt
  have ba := o.a.isLt
  have bb := o.b.isLt
  refine cut_eq 24 2 (hi := k) (lo := o.d.val * 2 ^ 20 + o.a.val * 2 ^ 14 + o.b.val * 2 ^ 8 + fn) ?_ ?_ ?_ <;> (try simp only [wordPr]) <;> omega

theorem pr_d (k fn : Nat) (o : Pr) (hfn : fn < 2 ^ 4) : wordPr k fn o / 2 ^ 20 % 2 ^ 4 = o.d.val := by
  have ba := o.a.isLt
  have bb := o.b.isLt
  have bd := o.d.isLt
  refine cut_eq 20 4 (hi := k * 2 ^ 2) (lo := o.a.val * 2 ^ 14 + o.b.val * 2 ^ 8 + fn) ?_ ?_ ?_ <;> (try simp only [wordPr]) <;> omega

theorem pr_zero18 (k fn : Nat) (o : Pr) (hfn : fn < 2 ^ 4) : wordPr k fn o / 2 ^ 18 % 2 ^ 2 = 0 := by
  have ba := o.a.isLt
  have bb := o.b.isLt
  refine cut_eq 18 2 (hi := k * 2 ^ 6 + o.d.val) (lo := o.a.val * 2 ^ 14 + o.b.val * 2 ^ 8 + fn) ?_ ?_ ?_ <;> (try simp only [wordPr]) <;> omega

theorem pr_a (k fn : Nat) (o : Pr) (hfn : fn < 2 ^ 4) : wordPr k fn o / 2 ^ 14 % 2 ^ 4 = o.a.val := by
  have bb := o.b.isLt
  have ba := o.a.isLt
  refine cut_eq 14 4 (hi := k * 2 ^ 8 + o.d.val * 2 ^ 2) (lo := o.b.val * 2 ^ 8 + fn) ?_ ?_ ?_ <;> (try simp only [wordPr]) <;> omega

theorem pr_zero12 (k fn : Nat) (o : Pr) (hfn : fn < 2 ^ 4) : wordPr k fn o / 2 ^ 12 % 2 ^ 2 = 0 := by
  have bb := o.b.isLt
  refine cut_eq 12 2 (hi := k * 2 ^ 12 + o.d.val * 2 ^ 6 + o.a.val) (lo := o.b.val * 2 ^ 8 + fn) ?_ ?_ ?_ <;> (try simp only [wordPr]) <;> omega

theorem pr_b (k fn : Nat) (o : Pr) (hfn : fn < 2 ^ 4) : wordPr k fn o / 2 ^ 8 % 2 ^ 4 = o.b.val := by
  have bb := o.b.isLt
  refine cut_eq 8 4 (hi := k * 2 ^ 14 + o.d.val * 2 ^ 8 + o.a.val * 2 ^ 2) (lo := fn) ?_ ?_ ?_ <;> (try simp only [wordPr]) <;> omega

theorem pr_zero4 (k fn : Nat) (o : Pr) (hfn : fn < 2 ^ 4) : wordPr k fn o / 2 ^ 4 % 2 ^ 4 = 0 := by
  refine cut_eq 4 4 (hi := k * 2 ^ 18 + o.d.val * 2 ^ 12 + o.a.val * 2 ^ 6 + o.b.val) (lo := fn) ?_ ?_ ?_ <;> (try simp only [wordPr]) <;> omega

theorem pr_fn (k fn : Nat) (o : Pr) (hfn : fn < 2 ^ 4) : wordPr k fn o / 2 ^ 0 % 2 ^ 4 = fn := by
  refine cut_eq 0 4 (hi := k * 2 ^ 22 + o.d.val * 2 ^ 16 + o.a.val * 2 ^ 10 + o.b.val * 2 ^ 4) (lo := 0) ?_ ?_ ?_ <;> (try simp only [wordPr]) <;> omega

theorem pr_read_of (w : Nat) (o : Pr)
    (q0 : bits w 24 2 = 0)
    (q1 : fin 16 w 20 = o.d)
    (q2 : bits w 18 2 = 0)
    (q3 : fin 16 w 14 = o.a)
    (q4 : bits w 12 2 = 0)
    (q5 : fin 16 w 8 = o.b)
    (q6 : bits w 4 4 = 0) :
    readPr w = .ok o := by
  simp only [readPr, q0, q1, q2, q3, q4, q5, q6, and_self, if_true]

theorem pr_read (k fn : Nat) (o : Pr) (hfn : fn < 2 ^ 4) : readPr (wordPr k fn o) = .ok o :=
  pr_read_of _ o
    (pr_zero24 k fn o hfn)
    (fin_val o.d (pr_d k fn o hfn))
    (pr_zero18 k fn o hfn)
    (fin_val o.a (pr_a k fn o hfn))
    (pr_zero12 k fn o hfn)
    (fin_val o.b (pr_b k fn o hfn))
    (pr_zero4 k fn o hfn)

/-! ## Vl -/

theorem vl_major (k : Nat) (o : Vl) (hk : k < 2 ^ 6) : wordVl k o / 2 ^ 26 % 2 ^ 6 = k := by
  have blive := flag_lt o.live
  have bk := o.k.isLt
  have bs := o.s.isLt
  refine cut_eq 26 6 (hi := 0) (lo := flag o.live * 2 ^ 20 + o.k.val * 2 ^ 14 + o.s.val * 2 ^ 8) ?_ ?_ ?_ <;> (try simp only [wordVl]) <;> omega

theorem vl_zero21 (k : Nat) (o : Vl) : wordVl k o / 2 ^ 21 % 2 ^ 5 = 0 := by
  have blive := flag_lt o.live
  have bk := o.k.isLt
  have bs := o.s.isLt
  refine cut_eq 21 5 (hi := k) (lo := flag o.live * 2 ^ 20 + o.k.val * 2 ^ 14 + o.s.val * 2 ^ 8) ?_ ?_ ?_ <;> (try simp only [wordVl]) <;> omega

theorem vl_live (k : Nat) (o : Vl) : wordVl k o / 2 ^ 20 % 2 ^ 1 = flag o.live := by
  have bk := o.k.isLt
  have bs := o.s.isLt
  have blive := flag_lt o.live
  refine cut_eq 20 1 (hi := k * 2 ^ 5) (lo := o.k.val * 2 ^ 14 + o.s.val * 2 ^ 8) ?_ ?_ ?_ <;> (try simp only [wordVl]) <;> omega

theorem vl_zero17 (k : Nat) (o : Vl) : wordVl k o / 2 ^ 17 % 2 ^ 3 = 0 := by
  have bk := o.k.isLt
  have bs := o.s.isLt
  refine cut_eq 17 3 (hi := k * 2 ^ 6 + flag o.live) (lo := o.k.val * 2 ^ 14 + o.s.val * 2 ^ 8) ?_ ?_ ?_ <;> (try simp only [wordVl]) <;> omega

theorem vl_kk (k : Nat) (o : Vl) : wordVl k o / 2 ^ 14 % 2 ^ 3 = o.k.val := by
  have bs := o.s.isLt
  have bk := o.k.isLt
  refine cut_eq 14 3 (hi := k * 2 ^ 9 + flag o.live * 2 ^ 3) (lo := o.s.val * 2 ^ 8) ?_ ?_ ?_ <;> (try simp only [wordVl]) <;> omega

theorem vl_s (k : Nat) (o : Vl) : wordVl k o / 2 ^ 8 % 2 ^ 6 = o.s.val := by
  have bs := o.s.isLt
  refine cut_eq 8 6 (hi := k * 2 ^ 12 + flag o.live * 2 ^ 6 + o.k.val) (lo := 0) ?_ ?_ ?_ <;> (try simp only [wordVl]) <;> omega

theorem vl_zero0 (k : Nat) (o : Vl) : wordVl k o / 2 ^ 0 % 2 ^ 8 = 0 := by
  refine cut_eq 0 8 (hi := k * 2 ^ 18 + flag o.live * 2 ^ 12 + o.k.val * 2 ^ 6 + o.s.val) (lo := 0) ?_ ?_ ?_ <;> (try simp only [wordVl]) <;> omega

theorem vl_read_of (w : Nat) (o : Vl)
    (q0 : bits w 21 5 = 0)
    (q1 : bit w 20 = o.live)
    (q2 : bits w 17 3 = 0)
    (q3 : fin 8 w 14 = o.k)
    (q4 : fin 64 w 8 = o.s)
    (q5 : bits w 0 8 = 0) :
    readVl w = .ok o := by
  simp only [readVl, q0, q1, q2, q3, q4, q5, and_self, if_true]

theorem vl_read (k : Nat) (o : Vl) : readVl (wordVl k o) = .ok o :=
  vl_read_of _ o
    (vl_zero21 k o)
    (bit_val o.live (vl_live k o))
    (vl_zero17 k o)
    (fin_val o.k (vl_kk k o))
    (fin_val o.s (vl_s k o))
    (vl_zero0 k o)

/-! ## Vx -/

theorem vx_major (k : Nat) (o : Vx) (hk : k < 2 ^ 6) : wordVx k o / 2 ^ 26 % 2 ^ 6 = k := by
  have bd := o.d.isLt
  have ba := o.a.isLt
  have bb := o.b.isLt
  have bp := o.p.isLt
  have bty := ty_code_lt o.ty
  refine cut_eq 26 6 (hi := 0) (lo := o.d.val * 2 ^ 20 + o.a.val * 2 ^ 14 + o.b.val * 2 ^ 8 + o.p.val * 2 ^ 4 + o.ty.code) ?_ ?_ ?_ <;> (try simp only [wordVx]) <;> omega

theorem vx_d (k : Nat) (o : Vx) : wordVx k o / 2 ^ 20 % 2 ^ 6 = o.d.val := by
  have ba := o.a.isLt
  have bb := o.b.isLt
  have bp := o.p.isLt
  have bty := ty_code_lt o.ty
  have bd := o.d.isLt
  refine cut_eq 20 6 (hi := k) (lo := o.a.val * 2 ^ 14 + o.b.val * 2 ^ 8 + o.p.val * 2 ^ 4 + o.ty.code) ?_ ?_ ?_ <;> (try simp only [wordVx]) <;> omega

theorem vx_a (k : Nat) (o : Vx) : wordVx k o / 2 ^ 14 % 2 ^ 6 = o.a.val := by
  have bb := o.b.isLt
  have bp := o.p.isLt
  have bty := ty_code_lt o.ty
  have ba := o.a.isLt
  refine cut_eq 14 6 (hi := k * 2 ^ 6 + o.d.val) (lo := o.b.val * 2 ^ 8 + o.p.val * 2 ^ 4 + o.ty.code) ?_ ?_ ?_ <;> (try simp only [wordVx]) <;> omega

theorem vx_b (k : Nat) (o : Vx) : wordVx k o / 2 ^ 8 % 2 ^ 6 = o.b.val := by
  have bp := o.p.isLt
  have bty := ty_code_lt o.ty
  have bb := o.b.isLt
  refine cut_eq 8 6 (hi := k * 2 ^ 12 + o.d.val * 2 ^ 6 + o.a.val) (lo := o.p.val * 2 ^ 4 + o.ty.code) ?_ ?_ ?_ <;> (try simp only [wordVx]) <;> omega

theorem vx_p (k : Nat) (o : Vx) : wordVx k o / 2 ^ 4 % 2 ^ 4 = o.p.val := by
  have bty := ty_code_lt o.ty
  have bp := o.p.isLt
  refine cut_eq 4 4 (hi := k * 2 ^ 18 + o.d.val * 2 ^ 12 + o.a.val * 2 ^ 6 + o.b.val) (lo := o.ty.code) ?_ ?_ ?_ <;> (try simp only [wordVx]) <;> omega

theorem vx_ty (k : Nat) (o : Vx) : wordVx k o / 2 ^ 0 % 2 ^ 4 = o.ty.code := by
  have bty := ty_code_lt o.ty
  refine cut_eq 0 4 (hi := k * 2 ^ 22 + o.d.val * 2 ^ 16 + o.a.val * 2 ^ 10 + o.b.val * 2 ^ 4 + o.p.val) (lo := 0) ?_ ?_ ?_ <;> (try simp only [wordVx]) <;> omega

theorem vx_c_c (o : Vx) : contVx o / 2 ^ 26 % 2 ^ 6 = o.c.val := by
  have brm := rm_code_lt o.rm
  have bfzi := flag_lt o.fzi
  have bfzo := flag_lt o.fzo
  have bsat := flag_lt o.sat
  have bdty := ty_code_lt o.dty
  have baux := o.aux.isLt
  have bc := o.c.isLt
  refine cut_eq 26 6 (hi := 0) (lo := o.rm.code * 2 ^ 23 + flag o.fzi * 2 ^ 22 + flag o.fzo * 2 ^ 21 + flag o.sat * 2 ^ 20 + o.dty.code * 2 ^ 16 + o.aux.toNat) ?_ ?_ ?_ <;> (try simp only [contVx]) <;> omega

theorem vx_c_rm (o : Vx) : contVx o / 2 ^ 23 % 2 ^ 3 = o.rm.code := by
  have bfzi := flag_lt o.fzi
  have bfzo := flag_lt o.fzo
  have bsat := flag_lt o.sat
  have bdty := ty_code_lt o.dty
  have baux := o.aux.isLt
  have brm := rm_code_lt o.rm
  refine cut_eq 23 3 (hi := o.c.val) (lo := flag o.fzi * 2 ^ 22 + flag o.fzo * 2 ^ 21 + flag o.sat * 2 ^ 20 + o.dty.code * 2 ^ 16 + o.aux.toNat) ?_ ?_ ?_ <;> (try simp only [contVx]) <;> omega

theorem vx_c_fzi (o : Vx) : contVx o / 2 ^ 22 % 2 ^ 1 = flag o.fzi := by
  have bfzo := flag_lt o.fzo
  have bsat := flag_lt o.sat
  have bdty := ty_code_lt o.dty
  have baux := o.aux.isLt
  have bfzi := flag_lt o.fzi
  refine cut_eq 22 1 (hi := o.c.val * 2 ^ 3 + o.rm.code) (lo := flag o.fzo * 2 ^ 21 + flag o.sat * 2 ^ 20 + o.dty.code * 2 ^ 16 + o.aux.toNat) ?_ ?_ ?_ <;> (try simp only [contVx]) <;> omega

theorem vx_c_fzo (o : Vx) : contVx o / 2 ^ 21 % 2 ^ 1 = flag o.fzo := by
  have bsat := flag_lt o.sat
  have bdty := ty_code_lt o.dty
  have baux := o.aux.isLt
  have bfzo := flag_lt o.fzo
  refine cut_eq 21 1 (hi := o.c.val * 2 ^ 4 + o.rm.code * 2 ^ 1 + flag o.fzi) (lo := flag o.sat * 2 ^ 20 + o.dty.code * 2 ^ 16 + o.aux.toNat) ?_ ?_ ?_ <;> (try simp only [contVx]) <;> omega

theorem vx_c_sat (o : Vx) : contVx o / 2 ^ 20 % 2 ^ 1 = flag o.sat := by
  have bdty := ty_code_lt o.dty
  have baux := o.aux.isLt
  have bsat := flag_lt o.sat
  refine cut_eq 20 1 (hi := o.c.val * 2 ^ 5 + o.rm.code * 2 ^ 2 + flag o.fzi * 2 ^ 1 + flag o.fzo) (lo := o.dty.code * 2 ^ 16 + o.aux.toNat) ?_ ?_ ?_ <;> (try simp only [contVx]) <;> omega

theorem vx_c_dty (o : Vx) : contVx o / 2 ^ 16 % 2 ^ 4 = o.dty.code := by
  have baux := o.aux.isLt
  have bdty := ty_code_lt o.dty
  refine cut_eq 16 4 (hi := o.c.val * 2 ^ 6 + o.rm.code * 2 ^ 3 + flag o.fzi * 2 ^ 2 + flag o.fzo * 2 ^ 1 + flag o.sat) (lo := o.aux.toNat) ?_ ?_ ?_ <;> (try simp only [contVx]) <;> omega

theorem vx_c_aux (o : Vx) : contVx o / 2 ^ 0 % 2 ^ 16 = o.aux.toNat := by
  have baux := o.aux.isLt
  refine cut_eq 0 16 (hi := o.c.val * 2 ^ 10 + o.rm.code * 2 ^ 7 + flag o.fzi * 2 ^ 6 + flag o.fzo * 2 ^ 5 + flag o.sat * 2 ^ 4 + o.dty.code) (lo := 0) ?_ ?_ ?_ <;> (try simp only [contVx]) <;> omega

theorem vx_read_of (w c : Nat) (o : Vx)
    (q0 : fin 64 w 20 = o.d)
    (q1 : fin 64 w 14 = o.a)
    (q2 : fin 64 w 8 = o.b)
    (q3 : fin 16 w 4 = o.p)
    (q4 : Ty.ofCode (bits w 0 4) = o.ty)
    (q5 : fin 64 c 26 = o.c)
    (q6 : Rm.ofCode (bits c 23 3) = some o.rm)
    (q7 : bit c 22 = o.fzi)
    (q8 : bit c 21 = o.fzo)
    (q9 : bit c 20 = o.sat)
    (q10 : Ty.ofCode (bits c 16 4) = o.dty)
    (q11 : field 16 c 0 = o.aux) :
    readVx w c = .ok o := by
  simp only [readVx, q0, q1, q2, q3, q4, q5, q6, q7, q8, q9, q10, q11]

theorem vx_read (k : Nat) (o : Vx) : readVx (wordVx k o) (contVx o) = .ok o :=
  vx_read_of _ _ o
    (fin_val o.d (vx_d k o))
    (fin_val o.a (vx_a k o))
    (fin_val o.b (vx_b k o))
    (fin_val o.p (vx_p k o))
    (ty_at _ (vx_ty k o))
    (fin_val o.c (vx_c_c o))
    (rm_at _ (vx_c_rm o))
    (bit_val o.fzi (vx_c_fzi o))
    (bit_val o.fzo (vx_c_fzo o))
    (bit_val o.sat (vx_c_sat o))
    (ty_at _ (vx_c_dty o))
    (field_val o.aux (vx_c_aux o))

/-! ## Mm -/

theorem mm_major (k : Nat) (o : Mm) (hk : k < 2 ^ 6) : wordMm k o / 2 ^ 26 % 2 ^ 6 = k := by
  have bacc := o.acc.isLt
  have bfl := o.fl.isLt
  have bs := o.s.isLt
  have bfid := o.fid.isLt
  refine cut_eq 26 6 (hi := 0) (lo := o.acc.val * 2 ^ 24 + o.fl.toNat * 2 ^ 16 + o.s.val * 2 ^ 11 + o.fid.val * 2 ^ 3) ?_ ?_ ?_ <;> (try simp only [wordMm]) <;> omega

theorem mm_acc (k : Nat) (o : Mm) : wordMm k o / 2 ^ 24 % 2 ^ 2 = o.acc.val := by
  have bfl := o.fl.isLt
  have bs := o.s.isLt
  have bfid := o.fid.isLt
  have bacc := o.acc.isLt
  refine cut_eq 24 2 (hi := k) (lo := o.fl.toNat * 2 ^ 16 + o.s.val * 2 ^ 11 + o.fid.val * 2 ^ 3) ?_ ?_ ?_ <;> (try simp only [wordMm]) <;> omega

theorem mm_fl (k : Nat) (o : Mm) : wordMm k o / 2 ^ 16 % 2 ^ 8 = o.fl.toNat := by
  have bs := o.s.isLt
  have bfid := o.fid.isLt
  have bfl := o.fl.isLt
  refine cut_eq 16 8 (hi := k * 2 ^ 2 + o.acc.val) (lo := o.s.val * 2 ^ 11 + o.fid.val * 2 ^ 3) ?_ ?_ ?_ <;> (try simp only [wordMm]) <;> omega

theorem mm_s (k : Nat) (o : Mm) : wordMm k o / 2 ^ 11 % 2 ^ 5 = o.s.val := by
  have bfid := o.fid.isLt
  have bs := o.s.isLt
  refine cut_eq 11 5 (hi := k * 2 ^ 10 + o.acc.val * 2 ^ 8 + o.fl.toNat) (lo := o.fid.val * 2 ^ 3) ?_ ?_ ?_ <;> (try simp only [wordMm]) <;> omega

theorem mm_fid (k : Nat) (o : Mm) : wordMm k o / 2 ^ 3 % 2 ^ 8 = o.fid.val := by
  have bfid := o.fid.isLt
  refine cut_eq 3 8 (hi := k * 2 ^ 15 + o.acc.val * 2 ^ 13 + o.fl.toNat * 2 ^ 5 + o.s.val) (lo := 0) ?_ ?_ ?_ <;> (try simp only [wordMm]) <;> omega

theorem mm_zero0 (k : Nat) (o : Mm) : wordMm k o / 2 ^ 0 % 2 ^ 3 = 0 := by
  refine cut_eq 0 3 (hi := k * 2 ^ 23 + o.acc.val * 2 ^ 21 + o.fl.toNat * 2 ^ 13 + o.s.val * 2 ^ 8 + o.fid.val) (lo := 0) ?_ ?_ ?_ <;> (try simp only [wordMm]) <;> omega

theorem mm_read_of (w : Nat) (o : Mm)
    (q0 : fin 4 w 24 = o.acc)
    (q1 : field 8 w 16 = o.fl)
    (q2 : fin 32 w 11 = o.s)
    (q3 : fin 256 w 3 = o.fid)
    (q4 : bits w 0 3 = 0) :
    readMm w = .ok o := by
  simp only [readMm, q0, q1, q2, q3, q4, if_true]

theorem mm_read (k : Nat) (o : Mm) : readMm (wordMm k o) = .ok o :=
  mm_read_of _ o
    (fin_val o.acc (mm_acc k o))
    (field_val o.fl (mm_fl k o))
    (fin_val o.s (mm_s k o))
    (fin_val o.fid (mm_fid k o))
    (mm_zero0 k o)

/-! ## Cx -/

theorem cx_major (k : Nat) (o : Cx) (hk : k < 2 ^ 6) : wordCx k o / 2 ^ 26 % 2 ^ 6 = k := by
  have bxf := o.xf.isLt
  have bsa := o.sa.isLt
  have bsb := o.sb.isLt
  have bsc := o.sc.isLt
  have brel := flag_lt o.rel
  have bacq := flag_lt o.acq
  have bntf := flag_lt o.ntf
  refine cut_eq 26 6 (hi := 0) (lo := o.xf.toNat * 2 ^ 18 + o.sa.val * 2 ^ 13 + o.sb.val * 2 ^ 8 + o.sc.val * 2 ^ 3 + flag o.rel * 2 ^ 2 + flag o.acq * 2 ^ 1 + flag o.ntf) ?_ ?_ ?_ <;> (try simp only [wordCx]) <;> omega

theorem cx_xf (k : Nat) (o : Cx) : wordCx k o / 2 ^ 18 % 2 ^ 8 = o.xf.toNat := by
  have bsa := o.sa.isLt
  have bsb := o.sb.isLt
  have bsc := o.sc.isLt
  have brel := flag_lt o.rel
  have bacq := flag_lt o.acq
  have bntf := flag_lt o.ntf
  have bxf := o.xf.isLt
  refine cut_eq 18 8 (hi := k) (lo := o.sa.val * 2 ^ 13 + o.sb.val * 2 ^ 8 + o.sc.val * 2 ^ 3 + flag o.rel * 2 ^ 2 + flag o.acq * 2 ^ 1 + flag o.ntf) ?_ ?_ ?_ <;> (try simp only [wordCx]) <;> omega

theorem cx_sa (k : Nat) (o : Cx) : wordCx k o / 2 ^ 13 % 2 ^ 5 = o.sa.val := by
  have bsb := o.sb.isLt
  have bsc := o.sc.isLt
  have brel := flag_lt o.rel
  have bacq := flag_lt o.acq
  have bntf := flag_lt o.ntf
  have bsa := o.sa.isLt
  refine cut_eq 13 5 (hi := k * 2 ^ 8 + o.xf.toNat) (lo := o.sb.val * 2 ^ 8 + o.sc.val * 2 ^ 3 + flag o.rel * 2 ^ 2 + flag o.acq * 2 ^ 1 + flag o.ntf) ?_ ?_ ?_ <;> (try simp only [wordCx]) <;> omega

theorem cx_sb (k : Nat) (o : Cx) : wordCx k o / 2 ^ 8 % 2 ^ 5 = o.sb.val := by
  have bsc := o.sc.isLt
  have brel := flag_lt o.rel
  have bacq := flag_lt o.acq
  have bntf := flag_lt o.ntf
  have bsb := o.sb.isLt
  refine cut_eq 8 5 (hi := k * 2 ^ 13 + o.xf.toNat * 2 ^ 5 + o.sa.val) (lo := o.sc.val * 2 ^ 3 + flag o.rel * 2 ^ 2 + flag o.acq * 2 ^ 1 + flag o.ntf) ?_ ?_ ?_ <;> (try simp only [wordCx]) <;> omega

theorem cx_sc (k : Nat) (o : Cx) : wordCx k o / 2 ^ 3 % 2 ^ 5 = o.sc.val := by
  have brel := flag_lt o.rel
  have bacq := flag_lt o.acq
  have bntf := flag_lt o.ntf
  have bsc := o.sc.isLt
  refine cut_eq 3 5 (hi := k * 2 ^ 18 + o.xf.toNat * 2 ^ 10 + o.sa.val * 2 ^ 5 + o.sb.val) (lo := flag o.rel * 2 ^ 2 + flag o.acq * 2 ^ 1 + flag o.ntf) ?_ ?_ ?_ <;> (try simp only [wordCx]) <;> omega

theorem cx_rel (k : Nat) (o : Cx) : wordCx k o / 2 ^ 2 % 2 ^ 1 = flag o.rel := by
  have bacq := flag_lt o.acq
  have bntf := flag_lt o.ntf
  have brel := flag_lt o.rel
  refine cut_eq 2 1 (hi := k * 2 ^ 23 + o.xf.toNat * 2 ^ 15 + o.sa.val * 2 ^ 10 + o.sb.val * 2 ^ 5 + o.sc.val) (lo := flag o.acq * 2 ^ 1 + flag o.ntf) ?_ ?_ ?_ <;> (try simp only [wordCx]) <;> omega

theorem cx_acq (k : Nat) (o : Cx) : wordCx k o / 2 ^ 1 % 2 ^ 1 = flag o.acq := by
  have bntf := flag_lt o.ntf
  have bacq := flag_lt o.acq
  refine cut_eq 1 1 (hi := k * 2 ^ 24 + o.xf.toNat * 2 ^ 16 + o.sa.val * 2 ^ 11 + o.sb.val * 2 ^ 6 + o.sc.val * 2 ^ 1 + flag o.rel) (lo := flag o.ntf) ?_ ?_ ?_ <;> (try simp only [wordCx]) <;> omega

theorem cx_ntf (k : Nat) (o : Cx) : wordCx k o / 2 ^ 0 % 2 ^ 1 = flag o.ntf := by
  have bntf := flag_lt o.ntf
  refine cut_eq 0 1 (hi := k * 2 ^ 25 + o.xf.toNat * 2 ^ 17 + o.sa.val * 2 ^ 12 + o.sb.val * 2 ^ 7 + o.sc.val * 2 ^ 2 + flag o.rel * 2 ^ 1 + flag o.acq) (lo := 0) ?_ ?_ ?_ <;> (try simp only [wordCx]) <;> omega

theorem cx_c_sd (o : Cx) : contCx o / 2 ^ 27 % 2 ^ 5 = o.sd.val := by
  have bse := o.se.isLt
  have bza := o.za.isLt
  have bzb := o.zb.isLt
  have btc := o.tc.isLt
  have bfol := flag_lt o.fol
  have bchk := flag_lt o.chk
  have bsd := o.sd.isLt
  refine cut_eq 27 5 (hi := 0) (lo := o.se.val * 2 ^ 22 + o.za.val * 2 ^ 17 + o.zb.val * 2 ^ 12 + o.tc.val * 2 ^ 10 + flag o.fol * 2 ^ 9 + flag o.chk * 2 ^ 8) ?_ ?_ ?_ <;> (try simp only [contCx]) <;> omega

theorem cx_c_se (o : Cx) : contCx o / 2 ^ 22 % 2 ^ 5 = o.se.val := by
  have bza := o.za.isLt
  have bzb := o.zb.isLt
  have btc := o.tc.isLt
  have bfol := flag_lt o.fol
  have bchk := flag_lt o.chk
  have bse := o.se.isLt
  refine cut_eq 22 5 (hi := o.sd.val) (lo := o.za.val * 2 ^ 17 + o.zb.val * 2 ^ 12 + o.tc.val * 2 ^ 10 + flag o.fol * 2 ^ 9 + flag o.chk * 2 ^ 8) ?_ ?_ ?_ <;> (try simp only [contCx]) <;> omega

theorem cx_c_zero21 (o : Cx) : contCx o / 2 ^ 21 % 2 ^ 1 = 0 := by
  have bza := o.za.isLt
  have bzb := o.zb.isLt
  have btc := o.tc.isLt
  have bfol := flag_lt o.fol
  have bchk := flag_lt o.chk
  refine cut_eq 21 1 (hi := o.sd.val * 2 ^ 5 + o.se.val) (lo := o.za.val * 2 ^ 17 + o.zb.val * 2 ^ 12 + o.tc.val * 2 ^ 10 + flag o.fol * 2 ^ 9 + flag o.chk * 2 ^ 8) ?_ ?_ ?_ <;> (try simp only [contCx]) <;> omega

theorem cx_c_za (o : Cx) : contCx o / 2 ^ 17 % 2 ^ 4 = o.za.val := by
  have bzb := o.zb.isLt
  have btc := o.tc.isLt
  have bfol := flag_lt o.fol
  have bchk := flag_lt o.chk
  have bza := o.za.isLt
  refine cut_eq 17 4 (hi := o.sd.val * 2 ^ 6 + o.se.val * 2 ^ 1) (lo := o.zb.val * 2 ^ 12 + o.tc.val * 2 ^ 10 + flag o.fol * 2 ^ 9 + flag o.chk * 2 ^ 8) ?_ ?_ ?_ <;> (try simp only [contCx]) <;> omega

theorem cx_c_zero16 (o : Cx) : contCx o / 2 ^ 16 % 2 ^ 1 = 0 := by
  have bzb := o.zb.isLt
  have btc := o.tc.isLt
  have bfol := flag_lt o.fol
  have bchk := flag_lt o.chk
  refine cut_eq 16 1 (hi := o.sd.val * 2 ^ 10 + o.se.val * 2 ^ 5 + o.za.val) (lo := o.zb.val * 2 ^ 12 + o.tc.val * 2 ^ 10 + flag o.fol * 2 ^ 9 + flag o.chk * 2 ^ 8) ?_ ?_ ?_ <;> (try simp only [contCx]) <;> omega

theorem cx_c_zb (o : Cx) : contCx o / 2 ^ 12 % 2 ^ 4 = o.zb.val := by
  have btc := o.tc.isLt
  have bfol := flag_lt o.fol
  have bchk := flag_lt o.chk
  have bzb := o.zb.isLt
  refine cut_eq 12 4 (hi := o.sd.val * 2 ^ 11 + o.se.val * 2 ^ 6 + o.za.val * 2 ^ 1) (lo := o.tc.val * 2 ^ 10 + flag o.fol * 2 ^ 9 + flag o.chk * 2 ^ 8) ?_ ?_ ?_ <;> (try simp only [contCx]) <;> omega

theorem cx_c_tc (o : Cx) : contCx o / 2 ^ 10 % 2 ^ 2 = o.tc.val := by
  have bfol := flag_lt o.fol
  have bchk := flag_lt o.chk
  have btc := o.tc.isLt
  refine cut_eq 10 2 (hi := o.sd.val * 2 ^ 15 + o.se.val * 2 ^ 10 + o.za.val * 2 ^ 5 + o.zb.val) (lo := flag o.fol * 2 ^ 9 + flag o.chk * 2 ^ 8) ?_ ?_ ?_ <;> (try simp only [contCx]) <;> omega

theorem cx_c_fol (o : Cx) : contCx o / 2 ^ 9 % 2 ^ 1 = flag o.fol := by
  have bchk := flag_lt o.chk
  have bfol := flag_lt o.fol
  refine cut_eq 9 1 (hi := o.sd.val * 2 ^ 17 + o.se.val * 2 ^ 12 + o.za.val * 2 ^ 7 + o.zb.val * 2 ^ 2 + o.tc.val) (lo := flag o.chk * 2 ^ 8) ?_ ?_ ?_ <;> (try simp only [contCx]) <;> omega

theorem cx_c_chk (o : Cx) : contCx o / 2 ^ 8 % 2 ^ 1 = flag o.chk := by
  have bchk := flag_lt o.chk
  refine cut_eq 8 1 (hi := o.sd.val * 2 ^ 18 + o.se.val * 2 ^ 13 + o.za.val * 2 ^ 8 + o.zb.val * 2 ^ 3 + o.tc.val * 2 ^ 1 + flag o.fol) (lo := 0) ?_ ?_ ?_ <;> (try simp only [contCx]) <;> omega

theorem cx_c_zero0 (o : Cx) : contCx o / 2 ^ 0 % 2 ^ 8 = 0 := by
  refine cut_eq 0 8 (hi := o.sd.val * 2 ^ 19 + o.se.val * 2 ^ 14 + o.za.val * 2 ^ 9 + o.zb.val * 2 ^ 4 + o.tc.val * 2 ^ 2 + flag o.fol * 2 ^ 1 + flag o.chk) (lo := 0) ?_ ?_ ?_ <;> (try simp only [contCx]) <;> omega

theorem cx_read_of (w c : Nat) (o : Cx)
    (q0 : field 8 w 18 = o.xf)
    (q1 : fin 32 w 13 = o.sa)
    (q2 : fin 32 w 8 = o.sb)
    (q3 : fin 32 w 3 = o.sc)
    (q4 : bit w 2 = o.rel)
    (q5 : bit w 1 = o.acq)
    (q6 : bit w 0 = o.ntf)
    (q7 : fin 32 c 27 = o.sd)
    (q8 : fin 32 c 22 = o.se)
    (q9 : bits c 21 1 = 0)
    (q10 : fin 16 c 17 = o.za)
    (q11 : bits c 16 1 = 0)
    (q12 : fin 16 c 12 = o.zb)
    (q13 : fin 4 c 10 = o.tc)
    (q14 : bit c 9 = o.fol)
    (q15 : bit c 8 = o.chk)
    (q16 : bits c 0 8 = 0) :
    readCx w c = .ok o := by
  simp only [readCx, q0, q1, q2, q3, q4, q5, q6, q7, q8, q9, q10, q11, q12, q13, q14, q15, q16, and_self, if_true]

theorem cx_read (k : Nat) (o : Cx) : readCx (wordCx k o) (contCx o) = .ok o :=
  cx_read_of _ _ o
    (field_val o.xf (cx_xf k o))
    (fin_val o.sa (cx_sa k o))
    (fin_val o.sb (cx_sb k o))
    (fin_val o.sc (cx_sc k o))
    (bit_val o.rel (cx_rel k o))
    (bit_val o.acq (cx_acq k o))
    (bit_val o.ntf (cx_ntf k o))
    (fin_val o.sd (cx_c_sd o))
    (fin_val o.se (cx_c_se o))
    (cx_c_zero21 o)
    (fin_val o.za (cx_c_za o))
    (cx_c_zero16 o)
    (fin_val o.zb (cx_c_zb o))
    (fin_val o.tc (cx_c_tc o))
    (bit_val o.fol (cx_c_fol o))
    (bit_val o.chk (cx_c_chk o))
    (cx_c_zero0 o)
/-- A flag bit of an MM word. -/
theorem mm_flag (k : Nat) (o : Mm) (i : Nat) (hi : i < 8) : bit (wordMm k o) (16 + i) = bit o.fl.toNat i := by
  have h : wordMm k o / 2 ^ (16 + i) % 2 = o.fl.toNat / 2 ^ i % 2 := by
    rw [pow_add, ← Nat.div_div_eq_div_mul, ← mm_fl k o]
    interval_cases i <;> omega
  simp only [bit, h]

end Sys2Proof
end

