-- ==== Sys2Proof/Laws/PerInstr.lean ====
section
/-! SUPPORT. Family `Encoding`: of each instruction, that its encoding decodes to it (02 R47-R55). -/

namespace Sys2Proof.Laws.Encoding

open Sys2Proof

/-- A well-formed instruction's encoding decodes to it; the steps of the package have none. -/
def Statement (i : Instr) : Prop := ∀ e : Encoded, i.wf = true → encode i = some e → e.decode = .ok i

theorem decode_scal {w c : Nat} {i : Instr} (h : parseScal w c = .ok i) (hw : i.wf = true) : decode .scal w c = .ok i := by
  simp only [decode, h, hw, if_true]

theorem decode_sys {w c : Nat} {i : Instr} (h : parseSys w = .ok i) (hw : i.wf = true) : decode .sys w c = .ok i := by
  simp only [decode, h, hw, if_true]

theorem decode_vec {w c : Nat} {i : Instr} (h : parseVec w c = .ok i) (hw : i.wf = true) : decode .vec w c = .ok i := by
  simp only [decode, h, hw, if_true]

theorem decode_mat {w c : Nat} {i : Instr} (h : parseMat w = .ok i) (hw : i.wf = true) : decode .mat w c = .ok i := by
  simp only [decode, h, hw, if_true]

theorem decode_copy {w c : Nat} {i : Instr} (h : parseCopy w c = .ok i) (hw : i.wf = true) : decode .copy w c = .ok i := by
  simp only [decode, h, hw, if_true]

theorem parse_add (w c : Nat) (o : Sa) (h1 : bits w 26 6 = 0) (h2 : bits w 0 11 = 0) (h3 : readSa w = o) :
    parseScal w c = .ok (.add o) := by
  unfold parseScal; rw [h1, h2, h3]; rfl

theorem add (o : Sa) : Statement (.add o) := by
  intro e hw he
  obtain rfl := Option.some.inj he
  exact decode_scal (parse_add _ _ o (sa_major 0 0 o (by decide) (by decide)) (sa_fn 0 0 o (by decide)) (sa_read 0 0 o (by decide))) hw

theorem parse_sub (w c : Nat) (o : Sa) (h1 : bits w 26 6 = 0) (h2 : bits w 0 11 = 1) (h3 : readSa w = o) :
    parseScal w c = .ok (.sub o) := by
  unfold parseScal; rw [h1, h2, h3]; rfl

theorem sub (o : Sa) : Statement (.sub o) := by
  intro e hw he
  obtain rfl := Option.some.inj he
  exact decode_scal (parse_sub _ _ o (sa_major 0 1 o (by decide) (by decide)) (sa_fn 0 1 o (by decide)) (sa_read 0 1 o (by decide))) hw

theorem parse_mul (w c : Nat) (o : Sa) (h1 : bits w 26 6 = 0) (h2 : bits w 0 11 = 2) (h3 : readSa w = o) :
    parseScal w c = .ok (.mul o) := by
  unfold parseScal; rw [h1, h2, h3]; rfl

theorem mul (o : Sa) : Statement (.mul o) := by
  intro e hw he
  obtain rfl := Option.some.inj he
  exact decode_scal (parse_mul _ _ o (sa_major 0 2 o (by decide) (by decide)) (sa_fn 0 2 o (by decide)) (sa_read 0 2 o (by decide))) hw

theorem parse_mulh (w c : Nat) (o : Sa) (h1 : bits w 26 6 = 0) (h2 : bits w 0 11 = 3) (h3 : readSa w = o) :
    parseScal w c = .ok (.mulh o) := by
  unfold parseScal; rw [h1, h2, h3]; rfl

theorem mulh (o : Sa) : Statement (.mulh o) := by
  intro e hw he
  obtain rfl := Option.some.inj he
  exact decode_scal (parse_mulh _ _ o (sa_major 0 3 o (by decide) (by decide)) (sa_fn 0 3 o (by decide)) (sa_read 0 3 o (by decide))) hw

theorem parse_mulhn (w c : Nat) (o : Sa) (h1 : bits w 26 6 = 0) (h2 : bits w 0 11 = 4) (h3 : readSa w = o) :
    parseScal w c = .ok (.mulhn o) := by
  unfold parseScal; rw [h1, h2, h3]; rfl

theorem mulhn (o : Sa) : Statement (.mulhn o) := by
  intro e hw he
  obtain rfl := Option.some.inj he
  exact decode_scal (parse_mulhn _ _ o (sa_major 0 4 o (by decide) (by decide)) (sa_fn 0 4 o (by decide)) (sa_read 0 4 o (by decide))) hw

theorem parse_div (w c : Nat) (o : Sa) (h1 : bits w 26 6 = 0) (h2 : bits w 0 11 = 5) (h3 : readSa w = o) :
    parseScal w c = .ok (.div o) := by
  unfold parseScal; rw [h1, h2, h3]; rfl

theorem div (o : Sa) : Statement (.div o) := by
  intro e hw he
  obtain rfl := Option.some.inj he
  exact decode_scal (parse_div _ _ o (sa_major 0 5 o (by decide) (by decide)) (sa_fn 0 5 o (by decide)) (sa_read 0 5 o (by decide))) hw

theorem parse_divn (w c : Nat) (o : Sa) (h1 : bits w 26 6 = 0) (h2 : bits w 0 11 = 6) (h3 : readSa w = o) :
    parseScal w c = .ok (.divn o) := by
  unfold parseScal; rw [h1, h2, h3]; rfl

theorem divn (o : Sa) : Statement (.divn o) := by
  intro e hw he
  obtain rfl := Option.some.inj he
  exact decode_scal (parse_divn _ _ o (sa_major 0 6 o (by decide) (by decide)) (sa_fn 0 6 o (by decide)) (sa_read 0 6 o (by decide))) hw

theorem parse_rem (w c : Nat) (o : Sa) (h1 : bits w 26 6 = 0) (h2 : bits w 0 11 = 7) (h3 : readSa w = o) :
    parseScal w c = .ok (.rem o) := by
  unfold parseScal; rw [h1, h2, h3]; rfl

theorem rem (o : Sa) : Statement (.rem o) := by
  intro e hw he
  obtain rfl := Option.some.inj he
  exact decode_scal (parse_rem _ _ o (sa_major 0 7 o (by decide) (by decide)) (sa_fn 0 7 o (by decide)) (sa_read 0 7 o (by decide))) hw

theorem parse_remn (w c : Nat) (o : Sa) (h1 : bits w 26 6 = 0) (h2 : bits w 0 11 = 8) (h3 : readSa w = o) :
    parseScal w c = .ok (.remn o) := by
  unfold parseScal; rw [h1, h2, h3]; rfl

theorem remn (o : Sa) : Statement (.remn o) := by
  intro e hw he
  obtain rfl := Option.some.inj he
  exact decode_scal (parse_remn _ _ o (sa_major 0 8 o (by decide) (by decide)) (sa_fn 0 8 o (by decide)) (sa_read 0 8 o (by decide))) hw

theorem parse_and (w c : Nat) (o : Sa) (h1 : bits w 26 6 = 0) (h2 : bits w 0 11 = 9) (h3 : readSa w = o) :
    parseScal w c = .ok (.and o) := by
  unfold parseScal; rw [h1, h2, h3]; rfl

theorem and (o : Sa) : Statement (.and o) := by
  intro e hw he
  obtain rfl := Option.some.inj he
  exact decode_scal (parse_and _ _ o (sa_major 0 9 o (by decide) (by decide)) (sa_fn 0 9 o (by decide)) (sa_read 0 9 o (by decide))) hw

theorem parse_or (w c : Nat) (o : Sa) (h1 : bits w 26 6 = 0) (h2 : bits w 0 11 = 10) (h3 : readSa w = o) :
    parseScal w c = .ok (.or o) := by
  unfold parseScal; rw [h1, h2, h3]; rfl

theorem or (o : Sa) : Statement (.or o) := by
  intro e hw he
  obtain rfl := Option.some.inj he
  exact decode_scal (parse_or _ _ o (sa_major 0 10 o (by decide) (by decide)) (sa_fn 0 10 o (by decide)) (sa_read 0 10 o (by decide))) hw

theorem parse_xor (w c : Nat) (o : Sa) (h1 : bits w 26 6 = 0) (h2 : bits w 0 11 = 11) (h3 : readSa w = o) :
    parseScal w c = .ok (.xor o) := by
  unfold parseScal; rw [h1, h2, h3]; rfl

theorem xor (o : Sa) : Statement (.xor o) := by
  intro e hw he
  obtain rfl := Option.some.inj he
  exact decode_scal (parse_xor _ _ o (sa_major 0 11 o (by decide) (by decide)) (sa_fn 0 11 o (by decide)) (sa_read 0 11 o (by decide))) hw

theorem parse_andn (w c : Nat) (o : Sa) (h1 : bits w 26 6 = 0) (h2 : bits w 0 11 = 12) (h3 : readSa w = o) :
    parseScal w c = .ok (.andn o) := by
  unfold parseScal; rw [h1, h2, h3]; rfl

theorem andn (o : Sa) : Statement (.andn o) := by
  intro e hw he
  obtain rfl := Option.some.inj he
  exact decode_scal (parse_andn _ _ o (sa_major 0 12 o (by decide) (by decide)) (sa_fn 0 12 o (by decide)) (sa_read 0 12 o (by decide))) hw

theorem parse_shl (w c : Nat) (o : Sa) (h1 : bits w 26 6 = 0) (h2 : bits w 0 11 = 13) (h3 : readSa w = o) :
    parseScal w c = .ok (.shl o) := by
  unfold parseScal; rw [h1, h2, h3]; rfl

theorem shl (o : Sa) : Statement (.shl o) := by
  intro e hw he
  obtain rfl := Option.some.inj he
  exact decode_scal (parse_shl _ _ o (sa_major 0 13 o (by decide) (by decide)) (sa_fn 0 13 o (by decide)) (sa_read 0 13 o (by decide))) hw

theorem parse_shr (w c : Nat) (o : Sa) (h1 : bits w 26 6 = 0) (h2 : bits w 0 11 = 14) (h3 : readSa w = o) :
    parseScal w c = .ok (.shr o) := by
  unfold parseScal; rw [h1, h2, h3]; rfl

theorem shr (o : Sa) : Statement (.shr o) := by
  intro e hw he
  obtain rfl := Option.some.inj he
  exact decode_scal (parse_shr _ _ o (sa_major 0 14 o (by decide) (by decide)) (sa_fn 0 14 o (by decide)) (sa_read 0 14 o (by decide))) hw

theorem parse_sar (w c : Nat) (o : Sa) (h1 : bits w 26 6 = 0) (h2 : bits w 0 11 = 15) (h3 : readSa w = o) :
    parseScal w c = .ok (.sar o) := by
  unfold parseScal; rw [h1, h2, h3]; rfl

theorem sar (o : Sa) : Statement (.sar o) := by
  intro e hw he
  obtain rfl := Option.some.inj he
  exact decode_scal (parse_sar _ _ o (sa_major 0 15 o (by decide) (by decide)) (sa_fn 0 15 o (by decide)) (sa_read 0 15 o (by decide))) hw

theorem parse_min (w c : Nat) (o : Sa) (h1 : bits w 26 6 = 0) (h2 : bits w 0 11 = 16) (h3 : readSa w = o) :
    parseScal w c = .ok (.min o) := by
  unfold parseScal; rw [h1, h2, h3]; rfl

theorem min (o : Sa) : Statement (.min o) := by
  intro e hw he
  obtain rfl := Option.some.inj he
  exact decode_scal (parse_min _ _ o (sa_major 0 16 o (by decide) (by decide)) (sa_fn 0 16 o (by decide)) (sa_read 0 16 o (by decide))) hw

theorem parse_max (w c : Nat) (o : Sa) (h1 : bits w 26 6 = 0) (h2 : bits w 0 11 = 17) (h3 : readSa w = o) :
    parseScal w c = .ok (.max o) := by
  unfold parseScal; rw [h1, h2, h3]; rfl

theorem max (o : Sa) : Statement (.max o) := by
  intro e hw he
  obtain rfl := Option.some.inj he
  exact decode_scal (parse_max _ _ o (sa_major 0 17 o (by decide) (by decide)) (sa_fn 0 17 o (by decide)) (sa_read 0 17 o (by decide))) hw

theorem parse_minn (w c : Nat) (o : Sa) (h1 : bits w 26 6 = 0) (h2 : bits w 0 11 = 18) (h3 : readSa w = o) :
    parseScal w c = .ok (.minn o) := by
  unfold parseScal; rw [h1, h2, h3]; rfl

theorem minn (o : Sa) : Statement (.minn o) := by
  intro e hw he
  obtain rfl := Option.some.inj he
  exact decode_scal (parse_minn _ _ o (sa_major 0 18 o (by decide) (by decide)) (sa_fn 0 18 o (by decide)) (sa_read 0 18 o (by decide))) hw

theorem parse_maxn (w c : Nat) (o : Sa) (h1 : bits w 26 6 = 0) (h2 : bits w 0 11 = 19) (h3 : readSa w = o) :
    parseScal w c = .ok (.maxn o) := by
  unfold parseScal; rw [h1, h2, h3]; rfl

theorem maxn (o : Sa) : Statement (.maxn o) := by
  intro e hw he
  obtain rfl := Option.some.inj he
  exact decode_scal (parse_maxn _ _ o (sa_major 0 19 o (by decide) (by decide)) (sa_fn 0 19 o (by decide)) (sa_read 0 19 o (by decide))) hw

theorem parse_slt (w c : Nat) (o : Sa) (h1 : bits w 26 6 = 0) (h2 : bits w 0 11 = 20) (h3 : readSa w = o) :
    parseScal w c = .ok (.slt o) := by
  unfold parseScal; rw [h1, h2, h3]; rfl

theorem slt (o : Sa) : Statement (.slt o) := by
  intro e hw he
  obtain rfl := Option.some.inj he
  exact decode_scal (parse_slt _ _ o (sa_major 0 20 o (by decide) (by decide)) (sa_fn 0 20 o (by decide)) (sa_read 0 20 o (by decide))) hw

theorem parse_sltn (w c : Nat) (o : Sa) (h1 : bits w 26 6 = 0) (h2 : bits w 0 11 = 21) (h3 : readSa w = o) :
    parseScal w c = .ok (.sltn o) := by
  unfold parseScal; rw [h1, h2, h3]; rfl

theorem sltn (o : Sa) : Statement (.sltn o) := by
  intro e hw he
  obtain rfl := Option.some.inj he
  exact decode_scal (parse_sltn _ _ o (sa_major 0 21 o (by decide) (by decide)) (sa_fn 0 21 o (by decide)) (sa_read 0 21 o (by decide))) hw

theorem parse_seq (w c : Nat) (o : Sa) (h1 : bits w 26 6 = 0) (h2 : bits w 0 11 = 22) (h3 : readSa w = o) :
    parseScal w c = .ok (.seq o) := by
  unfold parseScal; rw [h1, h2, h3]; rfl

theorem seq (o : Sa) : Statement (.seq o) := by
  intro e hw he
  obtain rfl := Option.some.inj he
  exact decode_scal (parse_seq _ _ o (sa_major 0 22 o (by decide) (by decide)) (sa_fn 0 22 o (by decide)) (sa_read 0 22 o (by decide))) hw

theorem parse_sne (w c : Nat) (o : Sa) (h1 : bits w 26 6 = 0) (h2 : bits w 0 11 = 23) (h3 : readSa w = o) :
    parseScal w c = .ok (.sne o) := by
  unfold parseScal; rw [h1, h2, h3]; rfl

theorem sne (o : Sa) : Statement (.sne o) := by
  intro e hw he
  obtain rfl := Option.some.inj he
  exact decode_scal (parse_sne _ _ o (sa_major 0 23 o (by decide) (by decide)) (sa_fn 0 23 o (by decide)) (sa_read 0 23 o (by decide))) hw

theorem parse_addi (w c : Nat) (o : Si) (h1 : bits w 26 6 = 1) (h3 : readSi w = o) :
    parseScal w c = .ok (.addi o) := by
  unfold parseScal; rw [h1, h3]; rfl

theorem addi (o : Si) : Statement (.addi o) := by
  intro e hw he
  obtain rfl := Option.some.inj he
  exact decode_scal (parse_addi _ _ o (si_major 1 o (by decide)) (si_read 1 o)) hw

theorem parse_andi (w c : Nat) (o : Si) (h1 : bits w 26 6 = 2) (h3 : readSi w = o) :
    parseScal w c = .ok (.andi o) := by
  unfold parseScal; rw [h1, h3]; rfl

theorem andi (o : Si) : Statement (.andi o) := by
  intro e hw he
  obtain rfl := Option.some.inj he
  exact decode_scal (parse_andi _ _ o (si_major 2 o (by decide)) (si_read 2 o)) hw

theorem parse_ori (w c : Nat) (o : Si) (h1 : bits w 26 6 = 3) (h3 : readSi w = o) :
    parseScal w c = .ok (.ori o) := by
  unfold parseScal; rw [h1, h3]; rfl

theorem ori (o : Si) : Statement (.ori o) := by
  intro e hw he
  obtain rfl := Option.some.inj he
  exact decode_scal (parse_ori _ _ o (si_major 3 o (by decide)) (si_read 3 o)) hw

theorem parse_xori (w c : Nat) (o : Si) (h1 : bits w 26 6 = 4) (h3 : readSi w = o) :
    parseScal w c = .ok (.xori o) := by
  unfold parseScal; rw [h1, h3]; rfl

theorem xori (o : Si) : Statement (.xori o) := by
  intro e hw he
  obtain rfl := Option.some.inj he
  exact decode_scal (parse_xori _ _ o (si_major 4 o (by decide)) (si_read 4 o)) hw

theorem parse_slti (w c : Nat) (o : Si) (h1 : bits w 26 6 = 5) (h3 : readSi w = o) :
    parseScal w c = .ok (.slti o) := by
  unfold parseScal; rw [h1, h3]; rfl

theorem slti (o : Si) : Statement (.slti o) := by
  intro e hw he
  obtain rfl := Option.some.inj he
  exact decode_scal (parse_slti _ _ o (si_major 5 o (by decide)) (si_read 5 o)) hw

theorem parse_sltni (w c : Nat) (o : Si) (h1 : bits w 26 6 = 6) (h3 : readSi w = o) :
    parseScal w c = .ok (.sltni o) := by
  unfold parseScal; rw [h1, h3]; rfl

theorem sltni (o : Si) : Statement (.sltni o) := by
  intro e hw he
  obtain rfl := Option.some.inj he
  exact decode_scal (parse_sltni _ _ o (si_major 6 o (by decide)) (si_read 6 o)) hw

theorem parse_ldi (w c : Nat) (o : Si) (h1 : bits w 26 6 = 7) (h3 : readSi w = o) :
    parseScal w c = .ok (.ldi o) := by
  unfold parseScal; rw [h1, h3]; rfl

theorem ldi (o : Si) : Statement (.ldi o) := by
  intro e hw he
  obtain rfl := Option.some.inj he
  exact decode_scal (parse_ldi _ _ o (si_major 7 o (by decide)) (si_read 7 o)) hw

theorem parse_ldix (w c : Nat) (o : Sl) (h1 : bits w 26 6 = 8) (h2 : bit w 20 = false) (h3 : readSl w c = .ok o) :
    parseScal w c = .ok (.ldix o) := by
  unfold parseScal; rw [h1]; simp only [h2, h3]; rfl

theorem ldix (o : Sl) : Statement (.ldix o) := by
  intro e hw he
  obtain rfl := Option.some.inj he
  exact decode_scal (parse_ldix _ _ o (sl_major 8 0 o (by decide) (by decide)) (bit_val (b := false) (sl_h 8 0 o (by decide))) (sl_read 8 0 o (by decide))) hw

theorem parse_ldixHi (w c : Nat) (o : Sl) (h1 : bits w 26 6 = 8) (h2 : bit w 20 = true) (h3 : readSl w c = .ok o) :
    parseScal w c = .ok (.ldixHi o) := by
  unfold parseScal; rw [h1]; simp only [h2, h3]; rfl

theorem ldixHi (o : Sl) : Statement (.ldixHi o) := by
  intro e hw he
  obtain rfl := Option.some.inj he
  exact decode_scal (parse_ldixHi _ _ o (sl_major 8 1 o (by decide) (by decide)) (bit_val (b := true) (sl_h 8 1 o (by decide))) (sl_read 8 1 o (by decide))) hw

theorem parse_shli (w c : Nat) (o : Sf) (h1 : bits w 26 6 = 9) (h2 : bits w 0 4 = 0) (h3 : readSf w = o) :
    parseScal w c = .ok (.shli o) := by
  unfold parseScal; rw [h1, h2, h3]; rfl

theorem shli (o : Sf) : Statement (.shli o) := by
  intro e hw he
  obtain rfl := Option.some.inj he
  exact decode_scal (parse_shli _ _ o (sf_major 9 0 o (by decide) (by decide)) (sf_fn 9 0 o (by decide)) (sf_read 9 0 o (by decide))) hw

theorem parse_shri (w c : Nat) (o : Sf) (h1 : bits w 26 6 = 9) (h2 : bits w 0 4 = 1) (h3 : readSf w = o) :
    parseScal w c = .ok (.shri o) := by
  unfold parseScal; rw [h1, h2, h3]; rfl

theorem shri (o : Sf) : Statement (.shri o) := by
  intro e hw he
  obtain rfl := Option.some.inj he
  exact decode_scal (parse_shri _ _ o (sf_major 9 1 o (by decide) (by decide)) (sf_fn 9 1 o (by decide)) (sf_read 9 1 o (by decide))) hw

theorem parse_sari (w c : Nat) (o : Sf) (h1 : bits w 26 6 = 9) (h2 : bits w 0 4 = 2) (h3 : readSf w = o) :
    parseScal w c = .ok (.sari o) := by
  unfold parseScal; rw [h1, h2, h3]; rfl

theorem sari (o : Sf) : Statement (.sari o) := by
  intro e hw he
  obtain rfl := Option.some.inj he
  exact decode_scal (parse_sari _ _ o (sf_major 9 2 o (by decide) (by decide)) (sf_fn 9 2 o (by decide)) (sf_read 9 2 o (by decide))) hw

theorem parse_roli (w c : Nat) (o : Sf) (h1 : bits w 26 6 = 9) (h2 : bits w 0 4 = 3) (h3 : readSf w = o) :
    parseScal w c = .ok (.roli o) := by
  unfold parseScal; rw [h1, h2, h3]; rfl

theorem roli (o : Sf) : Statement (.roli o) := by
  intro e hw he
  obtain rfl := Option.some.inj he
  exact decode_scal (parse_roli _ _ o (sf_major 9 3 o (by decide) (by decide)) (sf_fn 9 3 o (by decide)) (sf_read 9 3 o (by decide))) hw

theorem parse_ext (w c : Nat) (o : Sf) (h1 : bits w 26 6 = 10) (h2 : bits w 0 4 = 0) (h3 : readSf w = o) :
    parseScal w c = .ok (.ext o) := by
  unfold parseScal; rw [h1, h2, h3]; rfl

theorem ext (o : Sf) : Statement (.ext o) := by
  intro e hw he
  obtain rfl := Option.some.inj he
  exact decode_scal (parse_ext _ _ o (sf_major 10 0 o (by decide) (by decide)) (sf_fn 10 0 o (by decide)) (sf_read 10 0 o (by decide))) hw

theorem parse_extn (w c : Nat) (o : Sf) (h1 : bits w 26 6 = 10) (h2 : bits w 0 4 = 1) (h3 : readSf w = o) :
    parseScal w c = .ok (.extn o) := by
  unfold parseScal; rw [h1, h2, h3]; rfl

theorem extn (o : Sf) : Statement (.extn o) := by
  intro e hw he
  obtain rfl := Option.some.inj he
  exact decode_scal (parse_extn _ _ o (sf_major 10 1 o (by decide) (by decide)) (sf_fn 10 1 o (by decide)) (sf_read 10 1 o (by decide))) hw

theorem parse_ins (w c : Nat) (o : Sf) (h1 : bits w 26 6 = 10) (h2 : bits w 0 4 = 2) (h3 : readSf w = o) :
    parseScal w c = .ok (.ins o) := by
  unfold parseScal; rw [h1, h2, h3]; rfl

theorem ins (o : Sf) : Statement (.ins o) := by
  intro e hw he
  obtain rfl := Option.some.inj he
  exact decode_scal (parse_ins _ _ o (sf_major 10 2 o (by decide) (by decide)) (sf_fn 10 2 o (by decide)) (sf_read 10 2 o (by decide))) hw

theorem parse_insz (w c : Nat) (o : Sf) (h1 : bits w 26 6 = 10) (h2 : bits w 0 4 = 3) (h3 : readSf w = o) :
    parseScal w c = .ok (.insz o) := by
  unfold parseScal; rw [h1, h2, h3]; rfl

theorem insz (o : Sf) : Statement (.insz o) := by
  intro e hw he
  obtain rfl := Option.some.inj he
  exact decode_scal (parse_insz _ _ o (sf_major 10 3 o (by decide) (by decide)) (sf_fn 10 3 o (by decide)) (sf_read 10 3 o (by decide))) hw

theorem parse_insm (w c : Nat) (o : Sa) (h1 : bits w 26 6 = 11) (h2 : bits w 0 11 = 0) (h3 : readSa w = o) :
    parseScal w c = .ok (.insm o) := by
  unfold parseScal; rw [h1, h2, h3]; rfl

theorem insm (o : Sa) : Statement (.insm o) := by
  intro e hw he
  obtain rfl := Option.some.inj he
  exact decode_scal (parse_insm _ _ o (sa_major 11 0 o (by decide) (by decide)) (sa_fn 11 0 o (by decide)) (sa_read 11 0 o (by decide))) hw

theorem parse_clz (w c : Nat) (o : Sa) (h1 : bits w 26 6 = 11) (h2 : bits w 0 11 = 1) (h3 : readSa w = o) :
    parseScal w c = .ok (.clz o) := by
  unfold parseScal; rw [h1, h2, h3]; rfl

theorem clz (o : Sa) : Statement (.clz o) := by
  intro e hw he
  obtain rfl := Option.some.inj he
  exact decode_scal (parse_clz _ _ o (sa_major 11 1 o (by decide) (by decide)) (sa_fn 11 1 o (by decide)) (sa_read 11 1 o (by decide))) hw

theorem parse_ctz (w c : Nat) (o : Sa) (h1 : bits w 26 6 = 11) (h2 : bits w 0 11 = 2) (h3 : readSa w = o) :
    parseScal w c = .ok (.ctz o) := by
  unfold parseScal; rw [h1, h2, h3]; rfl

theorem ctz (o : Sa) : Statement (.ctz o) := by
  intro e hw he
  obtain rfl := Option.some.inj he
  exact decode_scal (parse_ctz _ _ o (sa_major 11 2 o (by decide) (by decide)) (sa_fn 11 2 o (by decide)) (sa_read 11 2 o (by decide))) hw

theorem parse_popc (w c : Nat) (o : Sa) (h1 : bits w 26 6 = 11) (h2 : bits w 0 11 = 3) (h3 : readSa w = o) :
    parseScal w c = .ok (.popc o) := by
  unfold parseScal; rw [h1, h2, h3]; rfl

theorem popc (o : Sa) : Statement (.popc o) := by
  intro e hw he
  obtain rfl := Option.some.inj he
  exact decode_scal (parse_popc _ _ o (sa_major 11 3 o (by decide) (by decide)) (sa_fn 11 3 o (by decide)) (sa_read 11 3 o (by decide))) hw

theorem parse_brev (w c : Nat) (o : Sa) (h1 : bits w 26 6 = 11) (h2 : bits w 0 11 = 4) (h3 : readSa w = o) :
    parseScal w c = .ok (.brev o) := by
  unfold parseScal; rw [h1, h2, h3]; rfl

theorem brev (o : Sa) : Statement (.brev o) := by
  intro e hw he
  obtain rfl := Option.some.inj he
  exact decode_scal (parse_brev _ _ o (sa_major 11 4 o (by decide) (by decide)) (sa_fn 11 4 o (by decide)) (sa_read 11 4 o (by decide))) hw

theorem parse_ffcs (w c : Nat) (o : Sa) (h1 : bits w 26 6 = 11) (h2 : bits w 0 11 = 5) (h3 : readSa w = o) :
    parseScal w c = .ok (.ffcs o) := by
  unfold parseScal; rw [h1, h2, h3]; rfl

theorem ffcs (o : Sa) : Statement (.ffcs o) := by
  intro e hw he
  obtain rfl := Option.some.inj he
  exact decode_scal (parse_ffcs _ _ o (sa_major 11 5 o (by decide) (by decide)) (sa_fn 11 5 o (by decide)) (sa_read 11 5 o (by decide))) hw

theorem parse_bswap (w c : Nat) (o : Sa) (h1 : bits w 26 6 = 11) (h2 : bits w 0 11 = 6) (h3 : readSa w = o) :
    parseScal w c = .ok (.bswap o) := by
  unfold parseScal; rw [h1, h2, h3]; rfl

theorem bswap (o : Sa) : Statement (.bswap o) := by
  intro e hw he
  obtain rfl := Option.some.inj he
  exact decode_scal (parse_bswap _ _ o (sa_major 11 6 o (by decide) (by decide)) (sa_fn 11 6 o (by decide)) (sa_read 11 6 o (by decide))) hw

theorem parse_fshi (w c : Nat) (o : Sf2) (h1 : bits w 26 6 = 12) (h2 : bits w 0 5 = 0) (h3 : readSf2 w = o) :
    parseScal w c = .ok (.fshi o) := by
  unfold parseScal; rw [h1, h2, h3]; rfl

theorem fshi (o : Sf2) : Statement (.fshi o) := by
  intro e hw he
  obtain rfl := Option.some.inj he
  exact decode_scal (parse_fshi _ _ o (sf2_major 12 0 o (by decide) (by decide)) (sf2_fn 12 0 o (by decide)) (sf2_read 12 0 o (by decide))) hw

theorem parse_fsh (w c : Nat) (o : Sac) (h1 : bits w 26 6 = 13) (h3 : readSac w c = .ok o) :
    parseScal w c = .ok (.fsh o) := by
  unfold parseScal; rw [h1, h3]; rfl

theorem fsh (o : Sac) : Statement (.fsh o) := by
  intro e hw he
  obtain rfl := Option.some.inj he
  exact decode_scal (parse_fsh _ _ o (sac_major 13 o (by decide)) (sac_read 13 o)) hw

theorem parse_plset (w c : Nat) (o : Sf2) (h1 : bits w 26 6 = 14) (h2 : bits w 0 5 = 0) (h3 : readSf2 w = o) :
    parseScal w c = .ok (.plset o) := by
  unfold parseScal; rw [h1, h2, h3]; rfl

theorem plset (o : Sf2) : Statement (.plset o) := by
  intro e hw he
  obtain rfl := Option.some.inj he
  exact decode_scal (parse_plset _ _ o (sf2_major 14 0 o (by decide) (by decide)) (sf2_fn 14 0 o (by decide)) (sf2_read 14 0 o (by decide))) hw

theorem parse_bc (w c : Nat) (o : Sb) (h1 : bits w 26 6 = 16) (h3 : readSb w = .ok o) :
    parseScal w c = .ok (.bc o) := by
  unfold parseScal; rw [h1, h3]; rfl

theorem bc (o : Sb) : Statement (.bc o) := by
  intro e hw he
  obtain rfl := Option.some.inj he
  exact decode_scal (parse_bc _ _ o (sb_major 16 o (by decide)) (sb_read 16 o)) hw

theorem parse_bci (w c : Nat) (o : Sb) (h1 : bits w 26 6 = 17) (h3 : readSb w = .ok o) :
    parseScal w c = .ok (.bci o) := by
  unfold parseScal; rw [h1, h3]; rfl

theorem bci (o : Sb) : Statement (.bci o) := by
  intro e hw he
  obtain rfl := Option.some.inj he
  exact decode_scal (parse_bci _ _ o (sb_major 17 o (by decide)) (sb_read 17 o)) hw

theorem parse_j (w c : Nat) (o : Sj) (h1 : bits w 26 6 = 18) (h3 : readSj w = o) :
    parseScal w c = .ok (.j o) := by
  unfold parseScal; rw [h1, h3]; rfl

theorem j (o : Sj) : Statement (.j o) := by
  intro e hw he
  obtain rfl := Option.some.inj he
  exact decode_scal (parse_j _ _ o (sj_major 18 o (by decide)) (sj_read 18 o)) hw

theorem parse_jr (w c : Nat) (o : Sa) (h1 : bits w 26 6 = 19) (h2 : bits w 0 11 = 0) (h3 : readSa w = o) :
    parseScal w c = .ok (.jr o) := by
  unfold parseScal; rw [h1, h2, h3]; rfl

theorem jr (o : Sa) : Statement (.jr o) := by
  intro e hw he
  obtain rfl := Option.some.inj he
  exact decode_scal (parse_jr _ _ o (sa_major 19 0 o (by decide) (by decide)) (sa_fn 19 0 o (by decide)) (sa_read 19 0 o (by decide))) hw

theorem parse_ldb (w c : Nat) (o : Sm) (h1 : bits w 26 6 = 24) (h3 : readSm w = .ok o) :
    parseScal w c = .ok (.ldb o) := by
  unfold parseScal; rw [h1, h3]; rfl

theorem ldb (o : Sm) : Statement (.ldb o) := by
  intro e hw he
  obtain rfl := Option.some.inj he
  exact decode_scal (parse_ldb _ _ o (sm_major 24 o (by decide)) (sm_read 24 o)) hw

theorem parse_ldbn (w c : Nat) (o : Sm) (h1 : bits w 26 6 = 25) (h3 : readSm w = .ok o) :
    parseScal w c = .ok (.ldbn o) := by
  unfold parseScal; rw [h1, h3]; rfl

theorem ldbn (o : Sm) : Statement (.ldbn o) := by
  intro e hw he
  obtain rfl := Option.some.inj he
  exact decode_scal (parse_ldbn _ _ o (sm_major 25 o (by decide)) (sm_read 25 o)) hw

theorem parse_ldh (w c : Nat) (o : Sm) (h1 : bits w 26 6 = 26) (h3 : readSm w = .ok o) :
    parseScal w c = .ok (.ldh o) := by
  unfold parseScal; rw [h1, h3]; rfl

theorem ldh (o : Sm) : Statement (.ldh o) := by
  intro e hw he
  obtain rfl := Option.some.inj he
  exact decode_scal (parse_ldh _ _ o (sm_major 26 o (by decide)) (sm_read 26 o)) hw

theorem parse_ldhn (w c : Nat) (o : Sm) (h1 : bits w 26 6 = 27) (h3 : readSm w = .ok o) :
    parseScal w c = .ok (.ldhn o) := by
  unfold parseScal; rw [h1, h3]; rfl

theorem ldhn (o : Sm) : Statement (.ldhn o) := by
  intro e hw he
  obtain rfl := Option.some.inj he
  exact decode_scal (parse_ldhn _ _ o (sm_major 27 o (by decide)) (sm_read 27 o)) hw

theorem parse_ldw (w c : Nat) (o : Sm) (h1 : bits w 26 6 = 28) (h3 : readSm w = .ok o) :
    parseScal w c = .ok (.ldw o) := by
  unfold parseScal; rw [h1, h3]; rfl

theorem ldw (o : Sm) : Statement (.ldw o) := by
  intro e hw he
  obtain rfl := Option.some.inj he
  exact decode_scal (parse_ldw _ _ o (sm_major 28 o (by decide)) (sm_read 28 o)) hw

theorem parse_ldwn (w c : Nat) (o : Sm) (h1 : bits w 26 6 = 29) (h3 : readSm w = .ok o) :
    parseScal w c = .ok (.ldwn o) := by
  unfold parseScal; rw [h1, h3]; rfl

theorem ldwn (o : Sm) : Statement (.ldwn o) := by
  intro e hw he
  obtain rfl := Option.some.inj he
  exact decode_scal (parse_ldwn _ _ o (sm_major 29 o (by decide)) (sm_read 29 o)) hw

theorem parse_ldd (w c : Nat) (o : Sm) (h1 : bits w 26 6 = 30) (h3 : readSm w = .ok o) :
    parseScal w c = .ok (.ldd o) := by
  unfold parseScal; rw [h1, h3]; rfl

theorem ldd (o : Sm) : Statement (.ldd o) := by
  intro e hw he
  obtain rfl := Option.some.inj he
  exact decode_scal (parse_ldd _ _ o (sm_major 30 o (by decide)) (sm_read 30 o)) hw

theorem parse_lda (w c : Nat) (o : Sm) (h1 : bits w 26 6 = 31) (h3 : readSm w = .ok o) :
    parseScal w c = .ok (.lda o) := by
  unfold parseScal; rw [h1, h3]; rfl

theorem lda (o : Sm) : Statement (.lda o) := by
  intro e hw he
  obtain rfl := Option.some.inj he
  exact decode_scal (parse_lda _ _ o (sm_major 31 o (by decide)) (sm_read 31 o)) hw

theorem parse_stb (w c : Nat) (o : Sm) (h1 : bits w 26 6 = 32) (h3 : readSm w = .ok o) :
    parseScal w c = .ok (.stb o) := by
  unfold parseScal; rw [h1, h3]; rfl

theorem stb (o : Sm) : Statement (.stb o) := by
  intro e hw he
  obtain rfl := Option.some.inj he
  exact decode_scal (parse_stb _ _ o (sm_major 32 o (by decide)) (sm_read 32 o)) hw

theorem parse_sth (w c : Nat) (o : Sm) (h1 : bits w 26 6 = 33) (h3 : readSm w = .ok o) :
    parseScal w c = .ok (.sth o) := by
  unfold parseScal; rw [h1, h3]; rfl

theorem sth (o : Sm) : Statement (.sth o) := by
  intro e hw he
  obtain rfl := Option.some.inj he
  exact decode_scal (parse_sth _ _ o (sm_major 33 o (by decide)) (sm_read 33 o)) hw

theorem parse_stw (w c : Nat) (o : Sm) (h1 : bits w 26 6 = 34) (h3 : readSm w = .ok o) :
    parseScal w c = .ok (.stw o) := by
  unfold parseScal; rw [h1, h3]; rfl

theorem stw (o : Sm) : Statement (.stw o) := by
  intro e hw he
  obtain rfl := Option.some.inj he
  exact decode_scal (parse_stw _ _ o (sm_major 34 o (by decide)) (sm_read 34 o)) hw

theorem parse_std (w c : Nat) (o : Sm) (h1 : bits w 26 6 = 35) (h3 : readSm w = .ok o) :
    parseScal w c = .ok (.std o) := by
  unfold parseScal; rw [h1, h3]; rfl

theorem std (o : Sm) : Statement (.std o) := by
  intro e hw he
  obtain rfl := Option.some.inj he
  exact decode_scal (parse_std _ _ o (sm_major 35 o (by decide)) (sm_read 35 o)) hw

theorem parse_stl (w c : Nat) (o : Sm) (h1 : bits w 26 6 = 36) (h3 : readSm w = .ok o) :
    parseScal w c = .ok (.stl o) := by
  unfold parseScal; rw [h1, h3]; rfl

theorem stl (o : Sm) : Statement (.stl o) := by
  intro e hw he
  obtain rfl := Option.some.inj he
  exact decode_scal (parse_stl _ _ o (sm_major 36 o (by decide)) (sm_read 36 o)) hw

theorem parse_waitw (w c : Nat) (o : Sw) (h1 : bits w 26 6 = 37) (h3 : readSw w = .ok o) :
    parseScal w c = .ok (.waitw o) := by
  unfold parseScal; rw [h1, h3]; rfl

theorem waitw (o : Sw) : Statement (.waitw o) := by
  intro e hw he
  obtain rfl := Option.some.inj he
  exact decode_scal (parse_waitw _ _ o (sw_major 37 o (by decide)) (sw_read 37 o)) hw

theorem parse_fence (w c : Nat) (o : Sn) (h1 : bits w 26 6 = 38) (h3 : readSn w = .ok o) :
    parseScal w c = .ok (.fence o) := by
  unfold parseScal; rw [h1, h3]; rfl

theorem fence (o : Sn) : Statement (.fence o) := by
  intro e hw he
  obtain rfl := Option.some.inj he
  exact decode_scal (parse_fence _ _ o (sn_major 38 o (by decide)) (sn_read 38 o)) hw

theorem parse_tlook (w c : Nat) (o : Sa) (h1 : bits w 26 6 = 39) (h2 : bits w 0 11 = 0) (h3 : readSa w = o) :
    parseScal w c = .ok (.tlook o) := by
  unfold parseScal; rw [h1, h2, h3]; rfl

theorem tlook (o : Sa) : Statement (.tlook o) := by
  intro e hw he
  obtain rfl := Option.some.inj he
  exact decode_scal (parse_tlook _ _ o (sa_major 39 0 o (by decide) (by decide)) (sa_fn 39 0 o (by decide)) (sa_read 39 0 o (by decide))) hw

theorem parse_tset (w c : Nat) (o : Sa) (h1 : bits w 26 6 = 39) (h2 : bits w 0 11 = 1) (h3 : readSa w = o) :
    parseScal w c = .ok (.tset o) := by
  unfold parseScal; rw [h1, h2, h3]; rfl

theorem tset (o : Sa) : Statement (.tset o) := by
  intro e hw he
  obtain rfl := Option.some.inj he
  exact decode_scal (parse_tset _ _ o (sa_major 39 1 o (by decide) (by decide)) (sa_fn 39 1 o (by decide)) (sa_read 39 1 o (by decide))) hw

theorem parse_tclr (w c : Nat) (o : Sa) (h1 : bits w 26 6 = 39) (h2 : bits w 0 11 = 2) (h3 : readSa w = o) :
    parseScal w c = .ok (.tclr o) := by
  unfold parseScal; rw [h1, h2, h3]; rfl

theorem tclr (o : Sa) : Statement (.tclr o) := by
  intro e hw he
  obtain rfl := Option.some.inj he
  exact decode_scal (parse_tclr _ _ o (sa_major 39 2 o (by decide) (by decide)) (sa_fn 39 2 o (by decide)) (sa_read 39 2 o (by decide))) hw

theorem parse_getres (w c : Nat) (o : Sa) (h1 : bits w 26 6 = 40) (h2 : bits w 0 11 = 0) (h3 : readSa w = o) :
    parseScal w c = .ok (.getres o) := by
  unfold parseScal; rw [h1, h2, h3]; rfl

theorem getres (o : Sa) : Statement (.getres o) := by
  intro e hw he
  obtain rfl := Option.some.inj he
  exact decode_scal (parse_getres _ _ o (sa_major 40 0 o (by decide) (by decide)) (sa_fn 40 0 o (by decide)) (sa_read 40 0 o (by decide))) hw

theorem parse_evwait (w c : Nat) (o : Sa) (h1 : bits w 26 6 = 41) (h2 : bits w 0 11 = 0) (h3 : readSa w = o) :
    parseScal w c = .ok (.evwait o) := by
  unfold parseScal; rw [h1, h2, h3]; rfl

theorem evwait (o : Sa) : Statement (.evwait o) := by
  intro e hw he
  obtain rfl := Option.some.inj he
  exact decode_scal (parse_evwait _ _ o (sa_major 41 0 o (by decide) (by decide)) (sa_fn 41 0 o (by decide)) (sa_read 41 0 o (by decide))) hw

theorem parse_evpop (w c : Nat) (o : Sa) (h1 : bits w 26 6 = 41) (h2 : bits w 0 11 = 1) (h3 : readSa w = o) :
    parseScal w c = .ok (.evpop o) := by
  unfold parseScal; rw [h1, h2, h3]; rfl

theorem evpop (o : Sa) : Statement (.evpop o) := by
  intro e hw he
  obtain rfl := Option.some.inj he
  exact decode_scal (parse_evpop _ _ o (sa_major 41 1 o (by decide) (by decide)) (sa_fn 41 1 o (by decide)) (sa_read 41 1 o (by decide))) hw

theorem parse_evpeek (w c : Nat) (o : Sa) (h1 : bits w 26 6 = 41) (h2 : bits w 0 11 = 2) (h3 : readSa w = o) :
    parseScal w c = .ok (.evpeek o) := by
  unfold parseScal; rw [h1, h2, h3]; rfl

theorem evpeek (o : Sa) : Statement (.evpeek o) := by
  intro e hw he
  obtain rfl := Option.some.inj he
  exact decode_scal (parse_evpeek _ _ o (sa_major 41 2 o (by decide) (by decide)) (sa_fn 41 2 o (by decide)) (sa_read 41 2 o (by decide))) hw

theorem parse_setb (w c : Nat) (o : Se) (h1 : bits w 26 6 = 42) (h3 : readSe w = .ok o) :
    parseScal w c = .ok (.setb o) := by
  unfold parseScal; rw [h1, h3]; rfl

theorem setb (o : Se) : Statement (.setb o) := by
  intro e hw he
  obtain rfl := Option.some.inj he
  exact decode_scal (parse_setb _ _ o (se_major 42 o (by decide)) (se_read 42 o)) hw

theorem parse_barinit (w c : Nat) (o : Sa) (h1 : bits w 26 6 = 43) (h2 : bits w 0 11 = 0) (h3 : readSa w = o) :
    parseScal w c = .ok (.barinit o) := by
  unfold parseScal; rw [h1, h2, h3]; rfl

theorem barinit (o : Sa) : Statement (.barinit o) := by
  intro e hw he
  obtain rfl := Option.some.inj he
  exact decode_scal (parse_barinit _ _ o (sa_major 43 0 o (by decide) (by decide)) (sa_fn 43 0 o (by decide)) (sa_read 43 0 o (by decide))) hw

theorem parse_barexp (w c : Nat) (o : Sa) (h1 : bits w 26 6 = 43) (h2 : bits w 0 11 = 1) (h3 : readSa w = o) :
    parseScal w c = .ok (.barexp o) := by
  unfold parseScal; rw [h1, h2, h3]; rfl

theorem barexp (o : Sa) : Statement (.barexp o) := by
  intro e hw he
  obtain rfl := Option.some.inj he
  exact decode_scal (parse_barexp _ _ o (sa_major 43 1 o (by decide) (by decide)) (sa_fn 43 1 o (by decide)) (sa_read 43 1 o (by decide))) hw

theorem parse_bararr (w c : Nat) (o : Sa) (h1 : bits w 26 6 = 43) (h2 : bits w 0 11 = 2) (h3 : readSa w = o) :
    parseScal w c = .ok (.bararr o) := by
  unfold parseScal; rw [h1, h2, h3]; rfl

theorem bararr (o : Sa) : Statement (.bararr o) := by
  intro e hw he
  obtain rfl := Option.some.inj he
  exact decode_scal (parse_bararr _ _ o (sa_major 43 2 o (by decide) (by decide)) (sa_fn 43 2 o (by decide)) (sa_read 43 2 o (by decide))) hw

theorem parse_barwait (w c : Nat) (o : Sa) (h1 : bits w 26 6 = 43) (h2 : bits w 0 11 = 3) (h3 : readSa w = o) :
    parseScal w c = .ok (.barwait o) := by
  unfold parseScal; rw [h1, h2, h3]; rfl

theorem barwait (o : Sa) : Statement (.barwait o) := by
  intro e hw he
  obtain rfl := Option.some.inj he
  exact decode_scal (parse_barwait _ _ o (sa_major 43 3 o (by decide) (by decide)) (sa_fn 43 3 o (by decide)) (sa_read 43 3 o (by decide))) hw

theorem parse_bartest (w c : Nat) (o : Sa) (h1 : bits w 26 6 = 43) (h2 : bits w 0 11 = 4) (h3 : readSa w = o) :
    parseScal w c = .ok (.bartest o) := by
  unfold parseScal; rw [h1, h2, h3]; rfl

theorem bartest (o : Sa) : Statement (.bartest o) := by
  intro e hw he
  obtain rfl := Option.some.inj he
  exact decode_scal (parse_bartest _ _ o (sa_major 43 4 o (by decide) (by decide)) (sa_fn 43 4 o (by decide)) (sa_read 43 4 o (by decide))) hw

theorem parse_spawn (w c : Nat) (o : Sa) (h1 : bits w 26 6 = 44) (h2 : bits w 0 11 = 0) (h3 : readSa w = o) :
    parseScal w c = .ok (.spawn o) := by
  unfold parseScal; rw [h1, h2, h3]; rfl

theorem spawn (o : Sa) : Statement (.spawn o) := by
  intro e hw he
  obtain rfl := Option.some.inj he
  exact decode_scal (parse_spawn _ _ o (sa_major 44 0 o (by decide) (by decide)) (sa_fn 44 0 o (by decide)) (sa_read 44 0 o (by decide))) hw

theorem parse_joinwait (w c : Nat) (o : Sa) (h1 : bits w 26 6 = 44) (h2 : bits w 0 11 = 1) (h3 : readSa w = o) :
    parseScal w c = .ok (.joinwait o) := by
  unfold parseScal; rw [h1, h2, h3]; rfl

theorem joinwait (o : Sa) : Statement (.joinwait o) := by
  intro e hw he
  obtain rfl := Option.some.inj he
  exact decode_scal (parse_joinwait _ _ o (sa_major 44 1 o (by decide) (by decide)) (sa_fn 44 1 o (by decide)) (sa_read 44 1 o (by decide))) hw

theorem parse_yield (w c : Nat) (o : Sa) (h1 : bits w 26 6 = 44) (h2 : bits w 0 11 = 2) (h3 : readSa w = o) :
    parseScal w c = .ok (.yield o) := by
  unfold parseScal; rw [h1, h2, h3]; rfl

theorem yield (o : Sa) : Statement (.yield o) := by
  intro e hw he
  obtain rfl := Option.some.inj he
  exact decode_scal (parse_yield _ _ o (sa_major 44 2 o (by decide) (by decide)) (sa_fn 44 2 o (by decide)) (sa_read 44 2 o (by decide))) hw

theorem parse_done (w c : Nat) (o : Sa) (h1 : bits w 26 6 = 44) (h2 : bits w 0 11 = 3) (h3 : readSa w = o) :
    parseScal w c = .ok (.done o) := by
  unfold parseScal; rw [h1, h2, h3]; rfl

theorem done (o : Sa) : Statement (.done o) := by
  intro e hw he
  obtain rfl := Option.some.inj he
  exact decode_scal (parse_done _ _ o (sa_major 44 3 o (by decide) (by decide)) (sa_fn 44 3 o (by decide)) (sa_read 44 3 o (by decide))) hw

theorem parse_tbound (w c : Nat) (o : Sa) (h1 : bits w 26 6 = 44) (h2 : bits w 0 11 = 4) (h3 : readSa w = o) :
    parseScal w c = .ok (.tbound o) := by
  unfold parseScal; rw [h1, h2, h3]; rfl

theorem tbound (o : Sa) : Statement (.tbound o) := by
  intro e hw he
  obtain rfl := Option.some.inj he
  exact decode_scal (parse_tbound _ _ o (sa_major 44 4 o (by decide) (by decide)) (sa_fn 44 4 o (by decide)) (sa_read 44 4 o (by decide))) hw

theorem parse_hintnext (w c : Nat) (o : Sa) (h1 : bits w 26 6 = 44) (h2 : bits w 0 11 = 5) (h3 : readSa w = o) :
    parseScal w c = .ok (.hintnext o) := by
  unfold parseScal; rw [h1, h2, h3]; rfl

theorem hintnext (o : Sa) : Statement (.hintnext o) := by
  intro e hw he
  obtain rfl := Option.some.inj he
  exact decode_scal (parse_hintnext _ _ o (sa_major 44 5 o (by decide) (by decide)) (sa_fn 44 5 o (by decide)) (sa_read 44 5 o (by decide))) hw

theorem parse_waitpred (w c : Nat) (o : Sa) (h1 : bits w 26 6 = 44) (h2 : bits w 0 11 = 6) (h3 : readSa w = o) :
    parseScal w c = .ok (.waitpred o) := by
  unfold parseScal; rw [h1, h2, h3]; rfl

theorem waitpred (o : Sa) : Statement (.waitpred o) := by
  intro e hw he
  obtain rfl := Option.some.inj he
  exact decode_scal (parse_waitpred _ _ o (sa_major 44 6 o (by decide) (by decide)) (sa_fn 44 6 o (by decide)) (sa_read 44 6 o (by decide))) hw

theorem parse_bufpass (w c : Nat) (o : Sa) (h1 : bits w 26 6 = 44) (h2 : bits w 0 11 = 7) (h3 : readSa w = o) :
    parseScal w c = .ok (.bufpass o) := by
  unfold parseScal; rw [h1, h2, h3]; rfl

theorem bufpass (o : Sa) : Statement (.bufpass o) := by
  intro e hw he
  obtain rfl := Option.some.inj he
  exact decode_scal (parse_bufpass _ _ o (sa_major 44 7 o (by decide) (by decide)) (sa_fn 44 7 o (by decide)) (sa_read 44 7 o (by decide))) hw

theorem parse_buftake (w c : Nat) (o : Sa) (h1 : bits w 26 6 = 44) (h2 : bits w 0 11 = 8) (h3 : readSa w = o) :
    parseScal w c = .ok (.buftake o) := by
  unfold parseScal; rw [h1, h2, h3]; rfl

theorem buftake (o : Sa) : Statement (.buftake o) := by
  intro e hw he
  obtain rfl := Option.some.inj he
  exact decode_scal (parse_buftake _ _ o (sa_major 44 8 o (by decide) (by decide)) (sa_fn 44 8 o (by decide)) (sa_read 44 8 o (by decide))) hw

theorem parse_buffree (w c : Nat) (o : Sa) (h1 : bits w 26 6 = 44) (h2 : bits w 0 11 = 9) (h3 : readSa w = o) :
    parseScal w c = .ok (.buffree o) := by
  unfold parseScal; rw [h1, h2, h3]; rfl

theorem buffree (o : Sa) : Statement (.buffree o) := by
  intro e hw he
  obtain rfl := Option.some.inj he
  exact decode_scal (parse_buffree _ _ o (sa_major 44 9 o (by decide) (by decide)) (sa_fn 44 9 o (by decide)) (sa_read 44 9 o (by decide))) hw

theorem parse_spawnx (w c : Nat) (o : Sac) (h1 : bits w 26 6 = 45) (h3 : readSac w c = .ok o) :
    parseScal w c = .ok (.spawnx o) := by
  unfold parseScal; rw [h1, h3]; rfl

theorem spawnx (o : Sac) : Statement (.spawnx o) := by
  intro e hw he
  obtain rfl := Option.some.inj he
  exact decode_scal (parse_spawnx _ _ o (sac_major 45 o (by decide)) (sac_read 45 o)) hw

theorem parse_sqappend (w c : Nat) (o : Sa) (h1 : bits w 26 6 = 46) (h2 : bits w 0 11 = 0) (h3 : readSa w = o) :
    parseScal w c = .ok (.sqappend o) := by
  unfold parseScal; rw [h1, h2, h3]; rfl

theorem sqappend (o : Sa) : Statement (.sqappend o) := by
  intro e hw he
  obtain rfl := Option.some.inj he
  exact decode_scal (parse_sqappend _ _ o (sa_major 46 0 o (by decide) (by decide)) (sa_fn 46 0 o (by decide)) (sa_read 46 0 o (by decide))) hw

theorem parse_sqconfirm (w c : Nat) (o : Sa) (h1 : bits w 26 6 = 46) (h2 : bits w 0 11 = 1) (h3 : readSa w = o) :
    parseScal w c = .ok (.sqconfirm o) := by
  unfold parseScal; rw [h1, h2, h3]; rfl

theorem sqconfirm (o : Sa) : Statement (.sqconfirm o) := by
  intro e hw he
  obtain rfl := Option.some.inj he
  exact decode_scal (parse_sqconfirm _ _ o (sa_major 46 1 o (by decide) (by decide)) (sa_fn 46 1 o (by decide)) (sa_read 46 1 o (by decide))) hw

theorem parse_sqstate (w c : Nat) (o : Sa) (h1 : bits w 26 6 = 46) (h2 : bits w 0 11 = 2) (h3 : readSa w = o) :
    parseScal w c = .ok (.sqstate o) := by
  unfold parseScal; rw [h1, h2, h3]; rfl

theorem sqstate (o : Sa) : Statement (.sqstate o) := by
  intro e hw he
  obtain rfl := Option.some.inj he
  exact decode_scal (parse_sqstate _ _ o (sa_major 46 2 o (by decide) (by decide)) (sa_fn 46 2 o (by decide)) (sa_read 46 2 o (by decide))) hw

theorem parse_wset (w c : Nat) (o : Sa) (h1 : bits w 26 6 = 46) (h2 : bits w 0 11 = 3) (h3 : readSa w = o) :
    parseScal w c = .ok (.wset o) := by
  unfold parseScal; rw [h1, h2, h3]; rfl

theorem wset (o : Sa) : Statement (.wset o) := by
  intro e hw he
  obtain rfl := Option.some.inj he
  exact decode_scal (parse_wset _ _ o (sa_major 46 3 o (by decide) (by decide)) (sa_fn 46 3 o (by decide)) (sa_read 46 3 o (by decide))) hw

theorem parse_wclr (w c : Nat) (o : Sa) (h1 : bits w 26 6 = 46) (h2 : bits w 0 11 = 4) (h3 : readSa w = o) :
    parseScal w c = .ok (.wclr o) := by
  unfold parseScal; rw [h1, h2, h3]; rfl

theorem wclr (o : Sa) : Statement (.wclr o) := by
  intro e hw he
  obtain rfl := Option.some.inj he
  exact decode_scal (parse_wclr _ _ o (sa_major 46 4 o (by decide) (by decide)) (sa_fn 46 4 o (by decide)) (sa_read 46 4 o (by decide))) hw

theorem parse_wget (w c : Nat) (o : Sa) (h1 : bits w 26 6 = 46) (h2 : bits w 0 11 = 5) (h3 : readSa w = o) :
    parseScal w c = .ok (.wget o) := by
  unfold parseScal; rw [h1, h2, h3]; rfl

theorem wget (o : Sa) : Statement (.wget o) := by
  intro e hw he
  obtain rfl := Option.some.inj he
  exact decode_scal (parse_wget _ _ o (sa_major 46 5 o (by decide) (by decide)) (sa_fn 46 5 o (by decide)) (sa_read 46 5 o (by decide))) hw

theorem parse_zwait (w c : Nat) (o : Sa) (h1 : bits w 26 6 = 47) (h2 : bits w 0 11 = 0) (h3 : readSa w = o) :
    parseScal w c = .ok (.zwait o) := by
  unfold parseScal; rw [h1, h2, h3]; rfl

theorem zwait (o : Sa) : Statement (.zwait o) := by
  intro e hw he
  obtain rfl := Option.some.inj he
  exact decode_scal (parse_zwait _ _ o (sa_major 47 0 o (by decide) (by decide)) (sa_fn 47 0 o (by decide)) (sa_read 47 0 o (by decide))) hw

theorem parse_zdrop (w c : Nat) (o : Sa) (h1 : bits w 26 6 = 47) (h2 : bits w 0 11 = 1) (h3 : readSa w = o) :
    parseScal w c = .ok (.zdrop o) := by
  unfold parseScal; rw [h1, h2, h3]; rfl

theorem zdrop (o : Sa) : Statement (.zdrop o) := by
  intro e hw he
  obtain rfl := Option.some.inj he
  exact decode_scal (parse_zdrop _ _ o (sa_major 47 1 o (by decide) (by decide)) (sa_fn 47 1 o (by decide)) (sa_read 47 1 o (by decide))) hw

theorem parse_ztest (w c : Nat) (o : Sa) (h1 : bits w 26 6 = 47) (h2 : bits w 0 11 = 2) (h3 : readSa w = o) :
    parseScal w c = .ok (.ztest o) := by
  unfold parseScal; rw [h1, h2, h3]; rfl

theorem ztest (o : Sa) : Statement (.ztest o) := by
  intro e hw he
  obtain rfl := Option.some.inj he
  exact decode_scal (parse_ztest _ _ o (sa_major 47 2 o (by decide) (by decide)) (sa_fn 47 2 o (by decide)) (sa_read 47 2 o (by decide))) hw

theorem parse_rdcyc (w c : Nat) (o : Sa) (h1 : bits w 26 6 = 48) (h2 : bits w 0 11 = 0) (h3 : readSa w = o) :
    parseScal w c = .ok (.rdcyc o) := by
  unfold parseScal; rw [h1, h2, h3]; rfl

theorem rdcyc (o : Sa) : Statement (.rdcyc o) := by
  intro e hw he
  obtain rfl := Option.some.inj he
  exact decode_scal (parse_rdcyc _ _ o (sa_major 48 0 o (by decide) (by decide)) (sa_fn 48 0 o (by decide)) (sa_read 48 0 o (by decide))) hw

theorem parse_rdid (w c : Nat) (o : Sa) (h1 : bits w 26 6 = 48) (h2 : bits w 0 11 = 1) (h3 : readSa w = o) :
    parseScal w c = .ok (.rdid o) := by
  unfold parseScal; rw [h1, h2, h3]; rfl

theorem rdid (o : Sa) : Statement (.rdid o) := by
  intro e hw he
  obtain rfl := Option.some.inj he
  exact decode_scal (parse_rdid _ _ o (sa_major 48 1 o (by decide) (by decide)) (sa_fn 48 1 o (by decide)) (sa_read 48 1 o (by decide))) hw

theorem parse_rdfeat (w c : Nat) (o : Sa) (h1 : bits w 26 6 = 48) (h2 : bits w 0 11 = 2) (h3 : readSa w = o) :
    parseScal w c = .ok (.rdfeat o) := by
  unfold parseScal; rw [h1, h2, h3]; rfl

theorem rdfeat (o : Sa) : Statement (.rdfeat o) := by
  intro e hw he
  obtain rfl := Option.some.inj he
  exact decode_scal (parse_rdfeat _ _ o (sa_major 48 2 o (by decide) (by decide)) (sa_fn 48 2 o (by decide)) (sa_read 48 2 o (by decide))) hw

theorem parse_mfcr (w : Nat) (o : Si) (h1 : bits w 26 6 = 0) (h3 : readSi w = o) :
    parseSys w = .ok (.mfcr o) := by
  unfold parseSys; rw [h1, h3]; rfl

theorem mfcr (o : Si) : Statement (.mfcr o) := by
  intro e hw he
  obtain rfl := Option.some.inj he
  exact decode_sys (parse_mfcr _ o (si_major 0 o (by decide)) (si_read 0 o)) hw

theorem parse_mtcr (w : Nat) (o : Si) (h1 : bits w 26 6 = 1) (h3 : readSi w = o) :
    parseSys w = .ok (.mtcr o) := by
  unfold parseSys; rw [h1, h3]; rfl

theorem mtcr (o : Si) : Statement (.mtcr o) := by
  intro e hw he
  obtain rfl := Option.some.inj he
  exact decode_sys (parse_mtcr _ o (si_major 1 o (by decide)) (si_read 1 o)) hw

theorem parse_trapi (w : Nat) (o : Si) (h1 : bits w 26 6 = 2) (h3 : readSi w = o) :
    parseSys w = .ok (.trapi o) := by
  unfold parseSys; rw [h1, h3]; rfl

theorem trapi (o : Si) : Statement (.trapi o) := by
  intro e hw he
  obtain rfl := Option.some.inj he
  exact decode_sys (parse_trapi _ o (si_major 2 o (by decide)) (si_read 2 o)) hw

theorem parse_brk (w : Nat) (o : Si) (h1 : bits w 26 6 = 3) (h3 : readSi w = o) :
    parseSys w = .ok (.brk o) := by
  unfold parseSys; rw [h1, h3]; rfl

theorem brk (o : Si) : Statement (.brk o) := by
  intro e hw he
  obtain rfl := Option.some.inj he
  exact decode_sys (parse_brk _ o (si_major 3 o (by decide)) (si_read 3 o)) hw

theorem parse_tlbinvCtx (w : Nat) (o : Sa) (h1 : bits w 26 6 = 4) (h2 : bits w 0 11 = 0) (h3 : readSa w = o) :
    parseSys w = .ok (.tlbinvCtx o) := by
  unfold parseSys; rw [h1, h2, h3]; rfl

theorem tlbinvCtx (o : Sa) : Statement (.tlbinvCtx o) := by
  intro e hw he
  obtain rfl := Option.some.inj he
  exact decode_sys (parse_tlbinvCtx _ o (sa_major 4 0 o (by decide) (by decide)) (sa_fn 4 0 o (by decide)) (sa_read 4 0 o (by decide))) hw

theorem parse_tlbinvPage (w : Nat) (o : Sa) (h1 : bits w 26 6 = 4) (h2 : bits w 0 11 = 1) (h3 : readSa w = o) :
    parseSys w = .ok (.tlbinvPage o) := by
  unfold parseSys; rw [h1, h2, h3]; rfl

theorem tlbinvPage (o : Sa) : Statement (.tlbinvPage o) := by
  intro e hw he
  obtain rfl := Option.some.inj he
  exact decode_sys (parse_tlbinvPage _ o (sa_major 4 1 o (by decide) (by decide)) (sa_fn 4 1 o (by decide)) (sa_read 4 1 o (by decide))) hw

theorem parse_tlbinvAll (w : Nat) (o : Sa) (h1 : bits w 26 6 = 4) (h2 : bits w 0 11 = 2) (h3 : readSa w = o) :
    parseSys w = .ok (.tlbinvAll o) := by
  unfold parseSys; rw [h1, h2, h3]; rfl

theorem tlbinvAll (o : Sa) : Statement (.tlbinvAll o) := by
  intro e hw he
  obtain rfl := Option.some.inj he
  exact decode_sys (parse_tlbinvAll _ o (sa_major 4 2 o (by decide) (by decide)) (sa_fn 4 2 o (by decide)) (sa_read 4 2 o (by decide))) hw

theorem parse_actset (w : Nat) (o : Act) (h1 : bits w 26 6 = 5) (h3 : readAct w = .ok o) :
    parseSys w = .ok (.actset o) := by
  unfold parseSys; rw [h1, h3]; rfl

theorem actset (o : Act) : Statement (.actset o) := by
  intro e hw he
  obtain rfl := Option.some.inj he
  exact decode_sys (parse_actset _ o (act_major 5 o (by decide)) (act_read 5 o)) hw

theorem parse_resume (w : Nat) (o : Sa) (h1 : bits w 26 6 = 6) (h2 : bits w 0 11 = 0) (h3 : readSa w = o) :
    parseSys w = .ok (.resume o) := by
  unfold parseSys; rw [h1, h2, h3]; rfl

theorem resume (o : Sa) : Statement (.resume o) := by
  intro e hw he
  obtain rfl := Option.some.inj he
  exact decode_sys (parse_resume _ o (sa_major 6 0 o (by decide) (by decide)) (sa_fn 6 0 o (by decide)) (sa_read 6 0 o (by decide))) hw

theorem parse_halt (w : Nat) (o : Sa) (h1 : bits w 26 6 = 7) (h2 : bits w 0 11 = 0) (h3 : readSa w = o) :
    parseSys w = .ok (.halt o) := by
  unfold parseSys; rw [h1, h2, h3]; rfl

theorem halt (o : Sa) : Statement (.halt o) := by
  intro e hw he
  obtain rfl := Option.some.inj he
  exact decode_sys (parse_halt _ o (sa_major 7 0 o (by decide) (by decide)) (sa_fn 7 0 o (by decide)) (sa_read 7 0 o (by decide))) hw

theorem parse_wdogPet (w : Nat) (o : Sa) (h1 : bits w 26 6 = 8) (h2 : bits w 0 11 = 0) (h3 : readSa w = o) :
    parseSys w = .ok (.wdogPet o) := by
  unfold parseSys; rw [h1, h2, h3]; rfl

theorem wdogPet (o : Sa) : Statement (.wdogPet o) := by
  intro e hw he
  obtain rfl := Option.some.inj he
  exact decode_sys (parse_wdogPet _ o (sa_major 8 0 o (by decide) (by decide)) (sa_fn 8 0 o (by decide)) (sa_read 8 0 o (by decide))) hw

theorem parse_wdogExpire (w : Nat) (o : Sa) (h1 : bits w 26 6 = 8) (h2 : bits w 0 11 = 1) (h3 : readSa w = o) :
    parseSys w = .ok (.wdogExpire o) := by
  unfold parseSys; rw [h1, h2, h3]; rfl

theorem wdogExpire (o : Sa) : Statement (.wdogExpire o) := by
  intro e hw he
  obtain rfl := Option.some.inj he
  exact decode_sys (parse_wdogExpire _ o (sa_major 8 1 o (by decide) (by decide)) (sa_fn 8 1 o (by decide)) (sa_read 8 1 o (by decide))) hw

theorem parse_wdogCorerst (w : Nat) (o : Sa) (h1 : bits w 26 6 = 8) (h2 : bits w 0 11 = 2) (h3 : readSa w = o) :
    parseSys w = .ok (.wdogCorerst o) := by
  unfold parseSys; rw [h1, h2, h3]; rfl

theorem wdogCorerst (o : Sa) : Statement (.wdogCorerst o) := by
  intro e hw he
  obtain rfl := Option.some.inj he
  exact decode_sys (parse_wdogCorerst _ o (sa_major 8 2 o (by decide) (by decide)) (sa_fn 8 2 o (by decide)) (sa_read 8 2 o (by decide))) hw

theorem parse_wdogDierst (w : Nat) (o : Sa) (h1 : bits w 26 6 = 8) (h2 : bits w 0 11 = 3) (h3 : readSa w = o) :
    parseSys w = .ok (.wdogDierst o) := by
  unfold parseSys; rw [h1, h2, h3]; rfl

theorem wdogDierst (o : Sa) : Statement (.wdogDierst o) := by
  intro e hw he
  obtain rfl := Option.some.inj he
  exact decode_sys (parse_wdogDierst _ o (sa_major 8 3 o (by decide) (by decide)) (sa_fn 8 3 o (by decide)) (sa_read 8 3 o (by decide))) hw

theorem parse_featset (w : Nat) (o : Sa) (h1 : bits w 26 6 = 9) (h2 : bits w 0 11 = 0) (h3 : readSa w = o) :
    parseSys w = .ok (.featset o) := by
  unfold parseSys; rw [h1, h2, h3]; rfl

theorem featset (o : Sa) : Statement (.featset o) := by
  intro e hw he
  obtain rfl := Option.some.inj he
  exact decode_sys (parse_featset _ o (sa_major 9 0 o (by decide) (by decide)) (sa_fn 9 0 o (by decide)) (sa_read 9 0 o (by decide))) hw

theorem parse_parkpop (w : Nat) (o : Sa) (h1 : bits w 26 6 = 10) (h2 : bits w 0 11 = 0) (h3 : readSa w = o) :
    parseSys w = .ok (.parkpop o) := by
  unfold parseSys; rw [h1, h2, h3]; rfl

theorem parkpop (o : Sa) : Statement (.parkpop o) := by
  intro e hw he
  obtain rfl := Option.some.inj he
  exact decode_sys (parse_parkpop _ o (sa_major 10 0 o (by decide) (by decide)) (sa_fn 10 0 o (by decide)) (sa_read 10 0 o (by decide))) hw

theorem parse_vadd (w c : Nat) (o : Va) (h1 : bits w 26 6 = 0) (h3 : readVa w = o) :
    parseVec w c = .ok (.vadd o) := by
  unfold parseVec; rw [h1, h3]; rfl

theorem vadd (o : Va) : Statement (.vadd o) := by
  intro e hw he
  obtain rfl := Option.some.inj he
  exact decode_vec (parse_vadd _ _ o (va_major 0 o (by decide)) (va_read 0 o)) hw

theorem parse_vsub (w c : Nat) (o : Va) (h1 : bits w 26 6 = 1) (h3 : readVa w = o) :
    parseVec w c = .ok (.vsub o) := by
  unfold parseVec; rw [h1, h3]; rfl

theorem vsub (o : Va) : Statement (.vsub o) := by
  intro e hw he
  obtain rfl := Option.some.inj he
  exact decode_vec (parse_vsub _ _ o (va_major 1 o (by decide)) (va_read 1 o)) hw

theorem parse_vmul (w c : Nat) (o : Va) (h1 : bits w 26 6 = 2) (h3 : readVa w = o) :
    parseVec w c = .ok (.vmul o) := by
  unfold parseVec; rw [h1, h3]; rfl

theorem vmul (o : Va) : Statement (.vmul o) := by
  intro e hw he
  obtain rfl := Option.some.inj he
  exact decode_vec (parse_vmul _ _ o (va_major 2 o (by decide)) (va_read 2 o)) hw

theorem parse_vmin (w c : Nat) (o : Va) (h1 : bits w 26 6 = 3) (h3 : readVa w = o) :
    parseVec w c = .ok (.vmin o) := by
  unfold parseVec; rw [h1, h3]; rfl

theorem vmin (o : Va) : Statement (.vmin o) := by
  intro e hw he
  obtain rfl := Option.some.inj he
  exact decode_vec (parse_vmin _ _ o (va_major 3 o (by decide)) (va_read 3 o)) hw

theorem parse_vmax (w c : Nat) (o : Va) (h1 : bits w 26 6 = 4) (h3 : readVa w = o) :
    parseVec w c = .ok (.vmax o) := by
  unfold parseVec; rw [h1, h3]; rfl

theorem vmax (o : Va) : Statement (.vmax o) := by
  intro e hw he
  obtain rfl := Option.some.inj he
  exact decode_vec (parse_vmax _ _ o (va_major 4 o (by decide)) (va_read 4 o)) hw

theorem parse_vabs (w c : Nat) (o : Va) (h1 : bits w 26 6 = 5) (h3 : readVa w = o) :
    parseVec w c = .ok (.vabs o) := by
  unfold parseVec; rw [h1, h3]; rfl

theorem vabs (o : Va) : Statement (.vabs o) := by
  intro e hw he
  obtain rfl := Option.some.inj he
  exact decode_vec (parse_vabs _ _ o (va_major 5 o (by decide)) (va_read 5 o)) hw

theorem parse_vneg (w c : Nat) (o : Va) (h1 : bits w 26 6 = 6) (h3 : readVa w = o) :
    parseVec w c = .ok (.vneg o) := by
  unfold parseVec; rw [h1, h3]; rfl

theorem vneg (o : Va) : Statement (.vneg o) := by
  intro e hw he
  obtain rfl := Option.some.inj he
  exact decode_vec (parse_vneg _ _ o (va_major 6 o (by decide)) (va_read 6 o)) hw

theorem parse_vmov (w c : Nat) (o : Va) (h1 : bits w 26 6 = 7) (h3 : readVa w = o) :
    parseVec w c = .ok (.vmov o) := by
  unfold parseVec; rw [h1, h3]; rfl

theorem vmov (o : Va) : Statement (.vmov o) := by
  intro e hw he
  obtain rfl := Option.some.inj he
  exact decode_vec (parse_vmov _ _ o (va_major 7 o (by decide)) (va_read 7 o)) hw

theorem parse_vfma (w c : Nat) (o : Vx) (h1 : bits w 26 6 = 8) (h3 : readVx w c = .ok o) :
    parseVec w c = .ok (.vfma o) := by
  unfold parseVec; rw [h1, h3]; rfl

theorem vfma (o : Vx) : Statement (.vfma o) := by
  intro e hw he
  obtain rfl := Option.some.inj he
  exact decode_vec (parse_vfma _ _ o (vx_major 8 o (by decide)) (vx_read 8 o)) hw

theorem parse_vfms (w c : Nat) (o : Vx) (h1 : bits w 26 6 = 9) (h3 : readVx w c = .ok o) :
    parseVec w c = .ok (.vfms o) := by
  unfold parseVec; rw [h1, h3]; rfl

theorem vfms (o : Vx) : Statement (.vfms o) := by
  intro e hw he
  obtain rfl := Option.some.inj he
  exact decode_vec (parse_vfms _ _ o (vx_major 9 o (by decide)) (vx_read 9 o)) hw

theorem parse_vcmp (w c : Nat) (o : Vx) (h1 : bits w 26 6 = 10) (h3 : readVx w c = .ok o) :
    parseVec w c = .ok (.vcmp o) := by
  unfold parseVec; rw [h1, h3]; rfl

theorem vcmp (o : Vx) : Statement (.vcmp o) := by
  intro e hw he
  obtain rfl := Option.some.inj he
  exact decode_vec (parse_vcmp _ _ o (vx_major 10 o (by decide)) (vx_read 10 o)) hw

theorem parse_vsel (w c : Nat) (o : Va) (h1 : bits w 26 6 = 11) (h3 : readVa w = o) :
    parseVec w c = .ok (.vsel o) := by
  unfold parseVec; rw [h1, h3]; rfl

theorem vsel (o : Va) : Statement (.vsel o) := by
  intro e hw he
  obtain rfl := Option.some.inj he
  exact decode_vec (parse_vsel _ _ o (va_major 11 o (by decide)) (va_read 11 o)) hw

theorem parse_vexp2 (w c : Nat) (o : Va) (h1 : bits w 26 6 = 12) (h3 : readVa w = o) :
    parseVec w c = .ok (.vexp2 o) := by
  unfold parseVec; rw [h1, h3]; rfl

theorem vexp2 (o : Va) : Statement (.vexp2 o) := by
  intro e hw he
  obtain rfl := Option.some.inj he
  exact decode_vec (parse_vexp2 _ _ o (va_major 12 o (by decide)) (va_read 12 o)) hw

theorem parse_vlog2 (w c : Nat) (o : Va) (h1 : bits w 26 6 = 13) (h3 : readVa w = o) :
    parseVec w c = .ok (.vlog2 o) := by
  unfold parseVec; rw [h1, h3]; rfl

theorem vlog2 (o : Va) : Statement (.vlog2 o) := by
  intro e hw he
  obtain rfl := Option.some.inj he
  exact decode_vec (parse_vlog2 _ _ o (va_major 13 o (by decide)) (va_read 13 o)) hw

theorem parse_vrcp (w c : Nat) (o : Va) (h1 : bits w 26 6 = 14) (h3 : readVa w = o) :
    parseVec w c = .ok (.vrcp o) := by
  unfold parseVec; rw [h1, h3]; rfl

theorem vrcp (o : Va) : Statement (.vrcp o) := by
  intro e hw he
  obtain rfl := Option.some.inj he
  exact decode_vec (parse_vrcp _ _ o (va_major 14 o (by decide)) (va_read 14 o)) hw

theorem parse_vrsq (w c : Nat) (o : Va) (h1 : bits w 26 6 = 15) (h3 : readVa w = o) :
    parseVec w c = .ok (.vrsq o) := by
  unfold parseVec; rw [h1, h3]; rfl

theorem vrsq (o : Va) : Statement (.vrsq o) := by
  intro e hw he
  obtain rfl := Option.some.inj he
  exact decode_vec (parse_vrsq _ _ o (va_major 15 o (by decide)) (va_read 15 o)) hw

theorem parse_vsqrt (w c : Nat) (o : Va) (h1 : bits w 26 6 = 16) (h3 : readVa w = o) :
    parseVec w c = .ok (.vsqrt o) := by
  unfold parseVec; rw [h1, h3]; rfl

theorem vsqrt (o : Va) : Statement (.vsqrt o) := by
  intro e hw he
  obtain rfl := Option.some.inj he
  exact decode_vec (parse_vsqrt _ _ o (va_major 16 o (by decide)) (va_read 16 o)) hw

theorem parse_vand (w c : Nat) (o : Va) (h1 : bits w 26 6 = 17) (h3 : readVa w = o) :
    parseVec w c = .ok (.vand o) := by
  unfold parseVec; rw [h1, h3]; rfl

theorem vand (o : Va) : Statement (.vand o) := by
  intro e hw he
  obtain rfl := Option.some.inj he
  exact decode_vec (parse_vand _ _ o (va_major 17 o (by decide)) (va_read 17 o)) hw

theorem parse_vor (w c : Nat) (o : Va) (h1 : bits w 26 6 = 18) (h3 : readVa w = o) :
    parseVec w c = .ok (.vor o) := by
  unfold parseVec; rw [h1, h3]; rfl

theorem vor (o : Va) : Statement (.vor o) := by
  intro e hw he
  obtain rfl := Option.some.inj he
  exact decode_vec (parse_vor _ _ o (va_major 18 o (by decide)) (va_read 18 o)) hw

theorem parse_vxor (w c : Nat) (o : Va) (h1 : bits w 26 6 = 19) (h3 : readVa w = o) :
    parseVec w c = .ok (.vxor o) := by
  unfold parseVec; rw [h1, h3]; rfl

theorem vxor (o : Va) : Statement (.vxor o) := by
  intro e hw he
  obtain rfl := Option.some.inj he
  exact decode_vec (parse_vxor _ _ o (va_major 19 o (by decide)) (va_read 19 o)) hw

theorem parse_vshl (w c : Nat) (o : Va) (h1 : bits w 26 6 = 20) (h3 : readVa w = o) :
    parseVec w c = .ok (.vshl o) := by
  unfold parseVec; rw [h1, h3]; rfl

theorem vshl (o : Va) : Statement (.vshl o) := by
  intro e hw he
  obtain rfl := Option.some.inj he
  exact decode_vec (parse_vshl _ _ o (va_major 20 o (by decide)) (va_read 20 o)) hw

theorem parse_vshr (w c : Nat) (o : Va) (h1 : bits w 26 6 = 21) (h3 : readVa w = o) :
    parseVec w c = .ok (.vshr o) := by
  unfold parseVec; rw [h1, h3]; rfl

theorem vshr (o : Va) : Statement (.vshr o) := by
  intro e hw he
  obtain rfl := Option.some.inj he
  exact decode_vec (parse_vshr _ _ o (va_major 21 o (by decide)) (va_read 21 o)) hw

theorem parse_vsar (w c : Nat) (o : Va) (h1 : bits w 26 6 = 22) (h3 : readVa w = o) :
    parseVec w c = .ok (.vsar o) := by
  unfold parseVec; rw [h1, h3]; rfl

theorem vsar (o : Va) : Statement (.vsar o) := by
  intro e hw he
  obtain rfl := Option.some.inj he
  exact decode_vec (parse_vsar _ _ o (va_major 22 o (by decide)) (va_read 22 o)) hw

theorem parse_vpopc (w c : Nat) (o : Va) (h1 : bits w 26 6 = 23) (h3 : readVa w = o) :
    parseVec w c = .ok (.vpopc o) := by
  unfold parseVec; rw [h1, h3]; rfl

theorem vpopc (o : Va) : Statement (.vpopc o) := by
  intro e hw he
  obtain rfl := Option.some.inj he
  exact decode_vec (parse_vpopc _ _ o (va_major 23 o (by decide)) (va_read 23 o)) hw

theorem parse_vimad (w c : Nat) (o : Vx) (h1 : bits w 26 6 = 24) (h3 : readVx w c = .ok o) :
    parseVec w c = .ok (.vimad o) := by
  unfold parseVec; rw [h1, h3]; rfl

theorem vimad (o : Vx) : Statement (.vimad o) := by
  intro e hw he
  obtain rfl := Option.some.inj he
  exact decode_vec (parse_vimad _ _ o (vx_major 24 o (by decide)) (vx_read 24 o)) hw

theorem parse_vcvt (w c : Nat) (o : Vx) (h1 : bits w 26 6 = 25) (h3 : readVx w c = .ok o) :
    parseVec w c = .ok (.vcvt o) := by
  unfold parseVec; rw [h1, h3]; rfl

theorem vcvt (o : Vx) : Statement (.vcvt o) := by
  intro e hw he
  obtain rfl := Option.some.inj he
  exact decode_vec (parse_vcvt _ _ o (vx_major 25 o (by decide)) (vx_read 25 o)) hw

theorem parse_vquant (w c : Nat) (o : Vx) (h1 : bits w 26 6 = 26) (h3 : readVx w c = .ok o) :
    parseVec w c = .ok (.vquant o) := by
  unfold parseVec; rw [h1, h3]; rfl

theorem vquant (o : Vx) : Statement (.vquant o) := by
  intro e hw he
  obtain rfl := Option.some.inj he
  exact decode_vec (parse_vquant _ _ o (vx_major 26 o (by decide)) (vx_read 26 o)) hw

theorem parse_vdeq (w c : Nat) (o : Vx) (h1 : bits w 26 6 = 27) (h3 : readVx w c = .ok o) :
    parseVec w c = .ok (.vdeq o) := by
  unfold parseVec; rw [h1, h3]; rfl

theorem vdeq (o : Vx) : Statement (.vdeq o) := by
  intro e hw he
  obtain rfl := Option.some.inj he
  exact decode_vec (parse_vdeq _ _ o (vx_major 27 o (by decide)) (vx_read 27 o)) hw

theorem parse_vamax (w c : Nat) (o : Va) (h1 : bits w 26 6 = 28) (h3 : readVa w = o) :
    parseVec w c = .ok (.vamax o) := by
  unfold parseVec; rw [h1, h3]; rfl

theorem vamax (o : Va) : Statement (.vamax o) := by
  intro e hw he
  obtain rfl := Option.some.inj he
  exact decode_vec (parse_vamax _ _ o (va_major 28 o (by decide)) (va_read 28 o)) hw

theorem parse_vpack (w c : Nat) (o : Va) (h1 : bits w 26 6 = 29) (h3 : readVa w = o) :
    parseVec w c = .ok (.vpack o) := by
  unfold parseVec; rw [h1, h3]; rfl

theorem vpack (o : Va) : Statement (.vpack o) := by
  intro e hw he
  obtain rfl := Option.some.inj he
  exact decode_vec (parse_vpack _ _ o (va_major 29 o (by decide)) (va_read 29 o)) hw

theorem parse_vunpk (w c : Nat) (o : Va) (h1 : bits w 26 6 = 30) (h3 : readVa w = o) :
    parseVec w c = .ok (.vunpk o) := by
  unfold parseVec; rw [h1, h3]; rfl

theorem vunpk (o : Va) : Statement (.vunpk o) := by
  intro e hw he
  obtain rfl := Option.some.inj he
  exact decode_vec (parse_vunpk _ _ o (va_major 30 o (by decide)) (va_read 30 o)) hw

theorem parse_vshuf (w c : Nat) (o : Va) (h1 : bits w 26 6 = 31) (h3 : readVa w = o) :
    parseVec w c = .ok (.vshuf o) := by
  unfold parseVec; rw [h1, h3]; rfl

theorem vshuf (o : Va) : Statement (.vshuf o) := by
  intro e hw he
  obtain rfl := Option.some.inj he
  exact decode_vec (parse_vshuf _ _ o (va_major 31 o (by decide)) (va_read 31 o)) hw

theorem parse_vrot (w c : Nat) (o : Va) (h1 : bits w 26 6 = 32) (h3 : readVa w = o) :
    parseVec w c = .ok (.vrot o) := by
  unfold parseVec; rw [h1, h3]; rfl

theorem vrot (o : Va) : Statement (.vrot o) := by
  intro e hw he
  obtain rfl := Option.some.inj he
  exact decode_vec (parse_vrot _ _ o (va_major 32 o (by decide)) (va_read 32 o)) hw

theorem parse_vbcast (w c : Nat) (o : Va) (h1 : bits w 26 6 = 33) (h3 : readVa w = o) :
    parseVec w c = .ok (.vbcast o) := by
  unfold parseVec; rw [h1, h3]; rfl

theorem vbcast (o : Va) : Statement (.vbcast o) := by
  intro e hw he
  obtain rfl := Option.some.inj he
  exact decode_vec (parse_vbcast _ _ o (va_major 33 o (by decide)) (va_read 33 o)) hw

theorem parse_vins (w c : Nat) (o : Va) (h1 : bits w 26 6 = 34) (h3 : readVa w = o) :
    parseVec w c = .ok (.vins o) := by
  unfold parseVec; rw [h1, h3]; rfl

theorem vins (o : Va) : Statement (.vins o) := by
  intro e hw he
  obtain rfl := Option.some.inj he
  exact decode_vec (parse_vins _ _ o (va_major 34 o (by decide)) (va_read 34 o)) hw

theorem parse_vredAdd (w c : Nat) (o : Va) (h1 : bits w 26 6 = 35) (h2 : bits w 8 6 = 0) (h3 : readVa w = { o with b := 0 }) (h4 : o.b = 0) :
    parseVec w c = .ok (.vredAdd o) := by
  unfold parseVec; rw [h1, h2, h3]; obtain ⟨d, a, b, p, t⟩ := o; cases h4; rfl

theorem vredAdd (o : Va) : Statement (.vredAdd o) := by
  intro e hw he
  obtain rfl := Option.some.inj he
  have hb : o.b = 0 := by
    simp only [Instr.wf, Bool.and_eq_true, beq_iff_eq] at hw
    simp only [hw]
  exact decode_vec (parse_vredAdd _ _ o (va_major 35 ({ o with b := 0 } : Va) (by decide)) (va_b 35 ({ o with b := 0 } : Va)) (va_read 35 ({ o with b := 0 } : Va)) hb) hw

theorem parse_vredMin (w c : Nat) (o : Va) (h1 : bits w 26 6 = 35) (h2 : bits w 8 6 = 1) (h3 : readVa w = { o with b := 1 }) (h4 : o.b = 0) :
    parseVec w c = .ok (.vredMin o) := by
  unfold parseVec; rw [h1, h2, h3]; obtain ⟨d, a, b, p, t⟩ := o; cases h4; rfl

theorem vredMin (o : Va) : Statement (.vredMin o) := by
  intro e hw he
  obtain rfl := Option.some.inj he
  have hb : o.b = 0 := by
    simp only [Instr.wf, Bool.and_eq_true, beq_iff_eq] at hw
    simp only [hw]
  exact decode_vec (parse_vredMin _ _ o (va_major 35 ({ o with b := 1 } : Va) (by decide)) (va_b 35 ({ o with b := 1 } : Va)) (va_read 35 ({ o with b := 1 } : Va)) hb) hw

theorem parse_vredMax (w c : Nat) (o : Va) (h1 : bits w 26 6 = 35) (h2 : bits w 8 6 = 2) (h3 : readVa w = { o with b := 2 }) (h4 : o.b = 0) :
    parseVec w c = .ok (.vredMax o) := by
  unfold parseVec; rw [h1, h2, h3]; obtain ⟨d, a, b, p, t⟩ := o; cases h4; rfl

theorem vredMax (o : Va) : Statement (.vredMax o) := by
  intro e hw he
  obtain rfl := Option.some.inj he
  have hb : o.b = 0 := by
    simp only [Instr.wf, Bool.and_eq_true, beq_iff_eq] at hw
    simp only [hw]
  exact decode_vec (parse_vredMax _ _ o (va_major 35 ({ o with b := 2 } : Va) (by decide)) (va_b 35 ({ o with b := 2 } : Va)) (va_read 35 ({ o with b := 2 } : Va)) hb) hw

theorem parse_vredAmax (w c : Nat) (o : Va) (h1 : bits w 26 6 = 35) (h2 : bits w 8 6 = 3) (h3 : readVa w = { o with b := 3 }) (h4 : o.b = 0) :
    parseVec w c = .ok (.vredAmax o) := by
  unfold parseVec; rw [h1, h2, h3]; obtain ⟨d, a, b, p, t⟩ := o; cases h4; rfl

theorem vredAmax (o : Va) : Statement (.vredAmax o) := by
  intro e hw he
  obtain rfl := Option.some.inj he
  have hb : o.b = 0 := by
    simp only [Instr.wf, Bool.and_eq_true, beq_iff_eq] at hw
    simp only [hw]
  exact decode_vec (parse_vredAmax _ _ o (va_major 35 ({ o with b := 3 } : Va) (by decide)) (va_b 35 ({ o with b := 3 } : Va)) (va_read 35 ({ o with b := 3 } : Va)) hb) hw

theorem parse_vredAnd (w c : Nat) (o : Va) (h1 : bits w 26 6 = 35) (h2 : bits w 8 6 = 4) (h3 : readVa w = { o with b := 4 }) (h4 : o.b = 0) :
    parseVec w c = .ok (.vredAnd o) := by
  unfold parseVec; rw [h1, h2, h3]; obtain ⟨d, a, b, p, t⟩ := o; cases h4; rfl

theorem vredAnd (o : Va) : Statement (.vredAnd o) := by
  intro e hw he
  obtain rfl := Option.some.inj he
  have hb : o.b = 0 := by
    simp only [Instr.wf, Bool.and_eq_true, beq_iff_eq] at hw
    simp only [hw]
  exact decode_vec (parse_vredAnd _ _ o (va_major 35 ({ o with b := 4 } : Va) (by decide)) (va_b 35 ({ o with b := 4 } : Va)) (va_read 35 ({ o with b := 4 } : Va)) hb) hw

theorem parse_vredOr (w c : Nat) (o : Va) (h1 : bits w 26 6 = 35) (h2 : bits w 8 6 = 5) (h3 : readVa w = { o with b := 5 }) (h4 : o.b = 0) :
    parseVec w c = .ok (.vredOr o) := by
  unfold parseVec; rw [h1, h2, h3]; obtain ⟨d, a, b, p, t⟩ := o; cases h4; rfl

theorem vredOr (o : Va) : Statement (.vredOr o) := by
  intro e hw he
  obtain rfl := Option.some.inj he
  have hb : o.b = 0 := by
    simp only [Instr.wf, Bool.and_eq_true, beq_iff_eq] at hw
    simp only [hw]
  exact decode_vec (parse_vredOr _ _ o (va_major 35 ({ o with b := 5 } : Va) (by decide)) (va_b 35 ({ o with b := 5 } : Va)) (va_read 35 ({ o with b := 5 } : Va)) hb) hw

theorem parse_vredXor (w c : Nat) (o : Va) (h1 : bits w 26 6 = 35) (h2 : bits w 8 6 = 6) (h3 : readVa w = { o with b := 6 }) (h4 : o.b = 0) :
    parseVec w c = .ok (.vredXor o) := by
  unfold parseVec; rw [h1, h2, h3]; obtain ⟨d, a, b, p, t⟩ := o; cases h4; rfl

theorem vredXor (o : Va) : Statement (.vredXor o) := by
  intro e hw he
  obtain rfl := Option.some.inj he
  have hb : o.b = 0 := by
    simp only [Instr.wf, Bool.and_eq_true, beq_iff_eq] at hw
    simp only [hw]
  exact decode_vec (parse_vredXor _ _ o (va_major 35 ({ o with b := 6 } : Va) (by decide)) (va_b 35 ({ o with b := 6 } : Va)) (va_read 35 ({ o with b := 6 } : Va)) hb) hw

theorem parse_vld (w c : Nat) (o : Va) (h1 : bits w 26 6 = 36) (h3 : readVa w = o) :
    parseVec w c = .ok (.vld o) := by
  unfold parseVec; rw [h1, h3]; rfl

theorem vld (o : Va) : Statement (.vld o) := by
  intro e hw he
  obtain rfl := Option.some.inj he
  exact decode_vec (parse_vld _ _ o (va_major 36 o (by decide)) (va_read 36 o)) hw

theorem parse_vst (w c : Nat) (o : Va) (h1 : bits w 26 6 = 37) (h3 : readVa w = o) :
    parseVec w c = .ok (.vst o) := by
  unfold parseVec; rw [h1, h3]; rfl

theorem vst (o : Va) : Statement (.vst o) := by
  intro e hw he
  obtain rfl := Option.some.inj he
  exact decode_vec (parse_vst _ _ o (va_major 37 o (by decide)) (va_read 37 o)) hw

theorem parse_vgath (w c : Nat) (o : Va) (h1 : bits w 26 6 = 38) (h3 : readVa w = o) :
    parseVec w c = .ok (.vgath o) := by
  unfold parseVec; rw [h1, h3]; rfl

theorem vgath (o : Va) : Statement (.vgath o) := by
  intro e hw he
  obtain rfl := Option.some.inj he
  exact decode_vec (parse_vgath _ _ o (va_major 38 o (by decide)) (va_read 38 o)) hw

theorem parse_vscat (w c : Nat) (o : Va) (h1 : bits w 26 6 = 39) (h3 : readVa w = o) :
    parseVec w c = .ok (.vscat o) := by
  unfold parseVec; rw [h1, h3]; rfl

theorem vscat (o : Va) : Statement (.vscat o) := by
  intro e hw he
  obtain rfl := Option.some.inj he
  exact decode_vec (parse_vscat _ _ o (va_major 39 o (by decide)) (va_read 39 o)) hw

theorem parse_vldg (w c : Nat) (o : Vg) (h1 : bits w 26 6 = 40) (h3 : readVg w = .ok o) :
    parseVec w c = .ok (.vldg o) := by
  unfold parseVec; rw [h1, h3]; rfl

theorem vldg (o : Vg) : Statement (.vldg o) := by
  intro e hw he
  obtain rfl := Option.some.inj he
  exact decode_vec (parse_vldg _ _ o (vg_major 40 o (by decide)) (vg_read 40 o)) hw

theorem parse_vstg (w c : Nat) (o : Vg) (h1 : bits w 26 6 = 41) (h3 : readVg w = .ok o) :
    parseVec w c = .ok (.vstg o) := by
  unfold parseVec; rw [h1, h3]; rfl

theorem vstg (o : Vg) : Statement (.vstg o) := by
  intro e hw he
  obtain rfl := Option.some.inj he
  exact decode_vec (parse_vstg _ _ o (vg_major 41 o (by decide)) (vg_read 41 o)) hw

theorem parse_accrd (w c : Nat) (o : Vx) (h1 : bits w 26 6 = 42) (h3 : readVx w c = .ok o) :
    parseVec w c = .ok (.accrd o) := by
  unfold parseVec; rw [h1, h3]; rfl

theorem accrd (o : Vx) : Statement (.accrd o) := by
  intro e hw he
  obtain rfl := Option.some.inj he
  exact decode_vec (parse_accrd _ _ o (vx_major 42 o (by decide)) (vx_read 42 o)) hw

theorem parse_accwr (w c : Nat) (o : Vx) (h1 : bits w 26 6 = 43) (h3 : readVx w c = .ok o) :
    parseVec w c = .ok (.accwr o) := by
  unfold parseVec; rw [h1, h3]; rfl

theorem accwr (o : Vx) : Statement (.accwr o) := by
  intro e hw he
  obtain rfl := Option.some.inj he
  exact decode_vec (parse_accwr _ _ o (vx_major 43 o (by decide)) (vx_read 43 o)) hw

theorem parse_commit (w c : Nat) (o : Va) (h1 : bits w 26 6 = 44) (h3 : readVa w = o) :
    parseVec w c = .ok (.commit o) := by
  unfold parseVec; rw [h1, h3]; rfl

theorem commit (o : Va) : Statement (.commit o) := by
  intro e hw he
  obtain rfl := Option.some.inj he
  exact decode_vec (parse_commit _ _ o (va_major 44 o (by decide)) (va_read 44 o)) hw

theorem parse_gcfg (w c : Nat) (o : Vx) (h1 : bits w 26 6 = 45) (h3 : readVx w c = .ok o) :
    parseVec w c = .ok (.gcfg o) := by
  unfold parseVec; rw [h1, h3]; rfl

theorem gcfg (o : Vx) : Statement (.gcfg o) := by
  intro e hw he
  obtain rfl := Option.some.inj he
  exact decode_vec (parse_gcfg _ _ o (vx_major 45 o (by decide)) (vx_read 45 o)) hw

theorem parse_vloop (w c : Nat) (o : Vl) (h1 : bits w 26 6 = 46) (h3 : readVl w = .ok o) :
    parseVec w c = .ok (.vloop o) := by
  unfold parseVec; rw [h1, h3]; rfl

theorem vloop (o : Vl) : Statement (.vloop o) := by
  intro e hw he
  obtain rfl := Option.some.inj he
  exact decode_vec (parse_vloop _ _ o (vl_major 46 o (by decide)) (vl_read 46 o)) hw

theorem parse_vlend (w c : Nat) (o : Va) (h1 : bits w 26 6 = 47) (h3 : readVa w = o) :
    parseVec w c = .ok (.vlend o) := by
  unfold parseVec; rw [h1, h3]; rfl

theorem vlend (o : Va) : Statement (.vlend o) := by
  intro e hw he
  obtain rfl := Option.some.inj he
  exact decode_vec (parse_vlend _ _ o (va_major 47 o (by decide)) (va_read 47 o)) hw

theorem parse_pset (w c : Nat) (o : Pr) (h1 : bits w 26 6 = 48) (h2 : bits w 0 4 = 0) (h3 : readPr w = .ok o) :
    parseVec w c = .ok (.pset o) := by
  unfold parseVec; rw [h1, h2, h3]; rfl

theorem pset (o : Pr) : Statement (.pset o) := by
  intro e hw he
  obtain rfl := Option.some.inj he
  exact decode_vec (parse_pset _ _ o (pr_major 48 0 o (by decide) (by decide)) (pr_fn 48 0 o (by decide)) (pr_read 48 0 o (by decide))) hw

theorem parse_pand (w c : Nat) (o : Pr) (h1 : bits w 26 6 = 48) (h2 : bits w 0 4 = 1) (h3 : readPr w = .ok o) :
    parseVec w c = .ok (.pand o) := by
  unfold parseVec; rw [h1, h2, h3]; rfl

theorem pand (o : Pr) : Statement (.pand o) := by
  intro e hw he
  obtain rfl := Option.some.inj he
  exact decode_vec (parse_pand _ _ o (pr_major 48 1 o (by decide) (by decide)) (pr_fn 48 1 o (by decide)) (pr_read 48 1 o (by decide))) hw

theorem parse_por (w c : Nat) (o : Pr) (h1 : bits w 26 6 = 48) (h2 : bits w 0 4 = 2) (h3 : readPr w = .ok o) :
    parseVec w c = .ok (.por o) := by
  unfold parseVec; rw [h1, h2, h3]; rfl

theorem por (o : Pr) : Statement (.por o) := by
  intro e hw he
  obtain rfl := Option.some.inj he
  exact decode_vec (parse_por _ _ o (pr_major 48 2 o (by decide) (by decide)) (pr_fn 48 2 o (by decide)) (pr_read 48 2 o (by decide))) hw

theorem parse_pxor (w c : Nat) (o : Pr) (h1 : bits w 26 6 = 48) (h2 : bits w 0 4 = 3) (h3 : readPr w = .ok o) :
    parseVec w c = .ok (.pxor o) := by
  unfold parseVec; rw [h1, h2, h3]; rfl

theorem pxor (o : Pr) : Statement (.pxor o) := by
  intro e hw he
  obtain rfl := Option.some.inj he
  exact decode_vec (parse_pxor _ _ o (pr_major 48 3 o (by decide) (by decide)) (pr_fn 48 3 o (by decide)) (pr_read 48 3 o (by decide))) hw

theorem parse_pnot (w c : Nat) (o : Pr) (h1 : bits w 26 6 = 48) (h2 : bits w 0 4 = 4) (h3 : readPr w = .ok o) :
    parseVec w c = .ok (.pnot o) := by
  unfold parseVec; rw [h1, h2, h3]; rfl

theorem pnot (o : Pr) : Statement (.pnot o) := by
  intro e hw he
  obtain rfl := Option.some.inj he
  exact decode_vec (parse_pnot _ _ o (pr_major 48 4 o (by decide) (by decide)) (pr_fn 48 4 o (by decide)) (pr_read 48 4 o (by decide))) hw

theorem parse_pandn (w c : Nat) (o : Pr) (h1 : bits w 26 6 = 48) (h2 : bits w 0 4 = 5) (h3 : readPr w = .ok o) :
    parseVec w c = .ok (.pandn o) := by
  unfold parseVec; rw [h1, h2, h3]; rfl

theorem pandn (o : Pr) : Statement (.pandn o) := by
  intro e hw he
  obtain rfl := Option.some.inj he
  exact decode_vec (parse_pandn _ _ o (pr_major 48 5 o (by decide) (by decide)) (pr_fn 48 5 o (by decide)) (pr_read 48 5 o (by decide))) hw

theorem parse_pcnt (w c : Nat) (o : Va) (h1 : bits w 26 6 = 49) (h3 : readVa w = o) :
    parseVec w c = .ok (.pcnt o) := by
  unfold parseVec; rw [h1, h3]; rfl

theorem pcnt (o : Va) : Statement (.pcnt o) := by
  intro e hw he
  obtain rfl := Option.some.inj he
  exact decode_vec (parse_pcnt _ _ o (va_major 49 o (by decide)) (va_read 49 o)) hw

theorem parse_vrand (w c : Nat) (o : Va) (h1 : bits w 26 6 = 50) (h3 : readVa w = o) :
    parseVec w c = .ok (.vrand o) := by
  unfold parseVec; rw [h1, h3]; rfl

theorem vrand (o : Va) : Statement (.vrand o) := by
  intro e hw he
  obtain rfl := Option.some.inj he
  exact decode_vec (parse_vrand _ _ o (va_major 50 o (by decide)) (va_read 50 o)) hw

theorem parse_vseed (w c : Nat) (o : Va) (h1 : bits w 26 6 = 51) (h3 : readVa w = o) :
    parseVec w c = .ok (.vseed o) := by
  unfold parseVec; rw [h1, h3]; rfl

theorem vseed (o : Va) : Statement (.vseed o) := by
  intro e hw he
  obtain rfl := Option.some.inj he
  exact decode_vec (parse_vseed _ _ o (va_major 51 o (by decide)) (va_read 51 o)) hw

theorem parse_vtopk (w c : Nat) (o : Vx) (h1 : bits w 26 6 = 52) (h3 : readVx w c = .ok o) :
    parseVec w c = .ok (.vtopk o) := by
  unfold parseVec; rw [h1, h3]; rfl

theorem vtopk (o : Vx) : Statement (.vtopk o) := by
  intro e hw he
  obtain rfl := Option.some.inj he
  exact decode_vec (parse_vtopk _ _ o (vx_major 52 o (by decide)) (vx_read 52 o)) hw

theorem parse_vdraw (w c : Nat) (o : Vx) (h1 : bits w 26 6 = 53) (h3 : readVx w c = .ok o) :
    parseVec w c = .ok (.vdraw o) := by
  unfold parseVec; rw [h1, h3]; rfl

theorem vdraw (o : Vx) : Statement (.vdraw o) := by
  intro e hw he
  obtain rfl := Option.some.inj he
  exact decode_vec (parse_vdraw _ _ o (vx_major 53 o (by decide)) (vx_read 53 o)) hw

theorem parse_mcfg (w : Nat) (o : Mm) (h1 : bits w 26 6 = 0) (h3 : readMm w = .ok o) :
    parseMat w = .ok (.mcfg o) := by
  unfold parseMat; rw [h1, h3]; rfl

theorem mcfg (o : Mm) : Statement (.mcfg o) := by
  intro e hw he
  obtain rfl := Option.some.inj he
  exact decode_mat (parse_mcfg _ o (mm_major 0 o (by decide)) (mm_read 0 o)) hw

theorem parse_mma (w : Nat) (o : Mm) (h1 : bits w 26 6 = 1) (h2 : bit w 16 = false) (h3 : readMm w = .ok o) :
    parseMat w = .ok (.mma o) := by
  unfold parseMat; rw [h1]; simp only [h2, h3]; rfl

theorem mma (o : Mm) : Statement (.mma o) := by
  intro e hw he
  obtain rfl := Option.some.inj he
  have hf : bit o.fl.toNat 0 = false := by
    simp only [Instr.wf, Bool.and_eq_true, beq_iff_eq] at hw
    simp [hw, bit]
  exact decode_mat (parse_mma _ o (mm_major 1 o (by decide)) ((mm_flag 1 o 0 (by decide)).trans hf) (mm_read 1 o)) hw

theorem parse_mmaAcca (w : Nat) (o : Mm) (h1 : bits w 26 6 = 1) (h2 : bit w 16 = true) (h3 : readMm w = .ok o) :
    parseMat w = .ok (.mmaAcca o) := by
  unfold parseMat; rw [h1]; simp only [h2, h3]; rfl

theorem mmaAcca (o : Mm) : Statement (.mmaAcca o) := by
  intro e hw he
  obtain rfl := Option.some.inj he
  have hf : bit o.fl.toNat 0 = true := by
    simp only [Instr.wf, Bool.and_eq_true] at hw
    exact hw.1.1.1.1
  exact decode_mat (parse_mmaAcca _ o (mm_major 1 o (by decide)) ((mm_flag 1 o 0 (by decide)).trans hf) (mm_read 1 o)) hw

theorem parse_mspa (w : Nat) (o : Mm) (h1 : bits w 26 6 = 2) (h3 : readMm w = .ok o) :
    parseMat w = .ok (.mspa o) := by
  unfold parseMat; rw [h1, h3]; rfl

theorem mspa (o : Mm) : Statement (.mspa o) := by
  intro e hw he
  obtain rfl := Option.some.inj he
  exact decode_mat (parse_mspa _ o (mm_major 2 o (by decide)) (mm_read 2 o)) hw

theorem parse_mzero (w : Nat) (o : Mm) (h1 : bits w 26 6 = 3) (h3 : readMm w = .ok o) :
    parseMat w = .ok (.mzero o) := by
  unfold parseMat; rw [h1, h3]; rfl

theorem mzero (o : Mm) : Statement (.mzero o) := by
  intro e hw he
  obtain rfl := Option.some.inj he
  exact decode_mat (parse_mzero _ o (mm_major 3 o (by decide)) (mm_read 3 o)) hw

theorem parse_mdrain (w : Nat) (o : Mm) (h1 : bits w 26 6 = 4) (h2 : bit w 17 = false) (h3 : readMm w = .ok o) :
    parseMat w = .ok (.mdrain o) := by
  unfold parseMat; rw [h1]; simp only [h2, h3]; rfl

theorem mdrain (o : Mm) : Statement (.mdrain o) := by
  intro e hw he
  obtain rfl := Option.some.inj he
  have hf : bit o.fl.toNat 1 = false := by
    simp only [Instr.wf, Bool.and_eq_true, Bool.not_eq_true'] at hw
    exact hw.1.1
  exact decode_mat (parse_mdrain _ o (mm_major 4 o (by decide)) ((mm_flag 4 o 1 (by decide)).trans hf) (mm_read 4 o)) hw

theorem parse_mdrainMerge (w : Nat) (o : Mm) (h1 : bits w 26 6 = 4) (h2 : bit w 17 = true) (h3 : readMm w = .ok o) :
    parseMat w = .ok (.mdrainMerge o) := by
  unfold parseMat; rw [h1]; simp only [h2, h3]; rfl

theorem mdrainMerge (o : Mm) : Statement (.mdrainMerge o) := by
  intro e hw he
  obtain rfl := Option.some.inj he
  have hf : bit o.fl.toNat 1 = true := by
    simp only [Instr.wf, Bool.and_eq_true, beq_iff_eq] at hw
    simp [hw.1, bit]
  exact decode_mat (parse_mdrainMerge _ o (mm_major 4 o (by decide)) ((mm_flag 4 o 1 (by decide)).trans hf) (mm_read 4 o)) hw

theorem parse_mstat (w : Nat) (o : Mm) (h1 : bits w 26 6 = 5) (h3 : readMm w = .ok o) :
    parseMat w = .ok (.mstat o) := by
  unfold parseMat; rw [h1, h3]; rfl

theorem mstat (o : Mm) : Statement (.mstat o) := by
  intro e hw he
  obtain rfl := Option.some.inj he
  exact decode_mat (parse_mstat _ o (mm_major 5 o (by decide)) (mm_read 5 o)) hw

theorem parse_copy (w c : Nat) (o : Cx) (h1 : bits w 26 6 = 0) (h3 : readCx w c = .ok o) :
    parseCopy w c = .ok (.copy o) := by
  unfold parseCopy; rw [h1, h3]; rfl

theorem copy (o : Cx) : Statement (.copy o) := by
  intro e hw he
  obtain rfl := Option.some.inj he
  exact decode_copy (parse_copy _ _ o (cx_major 0 o (by decide)) (cx_read 0 o)) hw

theorem parse_copyf (w c : Nat) (o : Cx) (h1 : bits w 26 6 = 1) (h3 : readCx w c = .ok o) :
    parseCopy w c = .ok (.copyf o) := by
  unfold parseCopy; rw [h1, h3]; rfl

theorem copyf (o : Cx) : Statement (.copyf o) := by
  intro e hw he
  obtain rfl := Option.some.inj he
  exact decode_copy (parse_copyf _ _ o (cx_major 1 o (by decide)) (cx_read 1 o)) hw

theorem parse_cpb (w c : Nat) (o : Cx) (h1 : bits w 26 6 = 2) (h3 : readCx w c = .ok o) :
    parseCopy w c = .ok (.cpb o) := by
  unfold parseCopy; rw [h1, h3]; rfl

theorem cpb (o : Cx) : Statement (.cpb o) := by
  intro e hw he
  obtain rfl := Option.some.inj he
  exact decode_copy (parse_cpb _ _ o (cx_major 2 o (by decide)) (cx_read 2 o)) hw

theorem parse_cph (w c : Nat) (o : Cx) (h1 : bits w 26 6 = 3) (h3 : readCx w c = .ok o) :
    parseCopy w c = .ok (.cph o) := by
  unfold parseCopy; rw [h1, h3]; rfl

theorem cph (o : Cx) : Statement (.cph o) := by
  intro e hw he
  obtain rfl := Option.some.inj he
  exact decode_copy (parse_cph _ _ o (cx_major 3 o (by decide)) (cx_read 3 o)) hw

theorem parse_atom (w c : Nat) (o : Cx) (h1 : bits w 26 6 = 4) (h3 : readCx w c = .ok o) :
    parseCopy w c = .ok (.atom o) := by
  unfold parseCopy; rw [h1, h3]; rfl

theorem atom (o : Cx) : Statement (.atom o) := by
  intro e hw he
  obtain rfl := Option.some.inj he
  exact decode_copy (parse_atom _ _ o (cx_major 4 o (by decide)) (cx_read 4 o)) hw

theorem parse_atomf (w c : Nat) (o : Cx) (h1 : bits w 26 6 = 5) (h3 : readCx w c = .ok o) :
    parseCopy w c = .ok (.atomf o) := by
  unfold parseCopy; rw [h1, h3]; rfl

theorem atomf (o : Cx) : Statement (.atomf o) := by
  intro e hw he
  obtain rfl := Option.some.inj he
  exact decode_copy (parse_atomf _ _ o (cx_major 5 o (by decide)) (cx_read 5 o)) hw

theorem parse_subs (w c : Nat) (o : Cx) (h1 : bits w 26 6 = 6) (h3 : readCx w c = .ok o) :
    parseCopy w c = .ok (.subs o) := by
  unfold parseCopy; rw [h1, h3]; rfl

theorem subs (o : Cx) : Statement (.subs o) := by
  intro e hw he
  obtain rfl := Option.some.inj he
  exact decode_copy (parse_subs _ _ o (cx_major 6 o (by decide)) (cx_read 6 o)) hw

theorem parse_unsub (w c : Nat) (o : Cx) (h1 : bits w 26 6 = 7) (h3 : readCx w c = .ok o) :
    parseCopy w c = .ok (.unsub o) := by
  unfold parseCopy; rw [h1, h3]; rfl

theorem unsub (o : Cx) : Statement (.unsub o) := by
  intro e hw he
  obtain rfl := Option.some.inj he
  exact decode_copy (parse_unsub _ _ o (cx_major 7 o (by decide)) (cx_read 7 o)) hw

theorem parse_pull (w c : Nat) (o : Cx) (h1 : bits w 26 6 = 8) (h3 : readCx w c = .ok o) :
    parseCopy w c = .ok (.pull o) := by
  unfold parseCopy; rw [h1, h3]; rfl

theorem pull (o : Cx) : Statement (.pull o) := by
  intro e hw he
  obtain rfl := Option.some.inj he
  exact decode_copy (parse_pull _ _ o (cx_major 8 o (by decide)) (cx_read 8 o)) hw

theorem parse_rrot (w c : Nat) (o : Cx) (h1 : bits w 26 6 = 9) (h3 : readCx w c = .ok o) :
    parseCopy w c = .ok (.rrot o) := by
  unfold parseCopy; rw [h1, h3]; rfl

theorem rrot (o : Cx) : Statement (.rrot o) := by
  intro e hw he
  obtain rfl := Option.some.inj he
  exact decode_copy (parse_rrot _ _ o (cx_major 9 o (by decide)) (cx_read 9 o)) hw

theorem parse_pref (w c : Nat) (o : Cx) (h1 : bits w 26 6 = 10) (h3 : readCx w c = .ok o) :
    parseCopy w c = .ok (.pref o) := by
  unfold parseCopy; rw [h1, h3]; rfl

theorem pref (o : Cx) : Statement (.pref o) := by
  intro e hw he
  obtain rfl := Option.some.inj he
  exact decode_copy (parse_pref _ _ o (cx_major 10 o (by decide)) (cx_read 10 o)) hw

theorem parse_invc (w c : Nat) (o : Cx) (h1 : bits w 26 6 = 11) (h3 : readCx w c = .ok o) :
    parseCopy w c = .ok (.invc o) := by
  unfold parseCopy; rw [h1, h3]; rfl

theorem invc (o : Cx) : Statement (.invc o) := by
  intro e hw he
  obtain rfl := Option.some.inj he
  exact decode_copy (parse_invc _ _ o (cx_major 11 o (by decide)) (cx_read 11 o)) hw

theorem parse_wbc (w c : Nat) (o : Cx) (h1 : bits w 26 6 = 12) (h3 : readCx w c = .ok o) :
    parseCopy w c = .ok (.wbc o) := by
  unfold parseCopy; rw [h1, h3]; rfl

theorem wbc (o : Cx) : Statement (.wbc o) := by
  intro e hw he
  obtain rfl := Option.some.inj he
  exact decode_copy (parse_wbc _ _ o (cx_major 12 o (by decide)) (cx_read 12 o)) hw

theorem controlRegisterWrite (die : Fin 8) (num : BitVec 16) (val : Word) : Statement (.controlRegisterWrite die num val) := fun _ _ h => nomatch h

theorem parkaskWrite (die : Fin 8) (val : Word) : Statement (.parkaskWrite die val) := fun _ _ h => nomatch h

theorem featacceptWrite (die : Fin 8) (val : Word) : Statement (.featacceptWrite die val) := fun _ _ h => nomatch h

theorem actbaseWrite (die : Fin 8) (ctx : Fin 64) (val : Word) : Statement (.actbaseWrite die ctx val) := fun _ _ h => nomatch h

theorem ttcfgWrite (core : Fin 512) (val : Word) : Statement (.ttcfgWrite core val) := fun _ _ h => nomatch h

theorem bfmtWrite (core : Fin 512) (bank : Fin 32) (val : Word) : Statement (.bfmtWrite core bank val) := fun _ _ h => nomatch h

theorem fpControlWrite (core : Fin 512) (reg : FpReg) (val : Word) : Statement (.fpControlWrite core reg val) := fun _ _ h => nomatch h

theorem hashmaskWrite (die : Fin 8) (i : Fin 6) (val : Word) : Statement (.hashmaskWrite die i val) := fun _ _ h => nomatch h

theorem chkctlWrite (die : Fin 8) (val : Word) : Statement (.chkctlWrite die val) := fun _ _ h => nomatch h

theorem poisonlogWrite (die : Fin 8) (val : Word) : Statement (.poisonlogWrite die val) := fun _ _ h => nomatch h

theorem wdogctlWrite (die : Fin 8) (val : Word) : Statement (.wdogctlWrite die val) := fun _ _ h => nomatch h

theorem hostUnsupportedRequest (addr : Nat) : Statement (.hostUnsupportedRequest addr) := fun _ _ h => nomatch h

theorem mailboxTailWrite (val : BitVec 32) : Statement (.mailboxTailWrite val) := fun _ _ h => nomatch h

theorem launchRecord : Statement .launchRecord := fun _ _ h => nomatch h

theorem attestRecord : Statement .attestRecord := fun _ _ h => nomatch h

theorem launchComplete (launch : Nat) : Statement (.launchComplete launch) := fun _ _ h => nomatch h

theorem successorRootPlace (launch : Nat) : Statement (.successorRootPlace launch) := fun _ _ h => nomatch h

theorem powerOn (board : BoardInfo) : Statement (.powerOn board) := fun _ _ h => nomatch h

theorem firmwarePiece (piece : BitVec 32) : Statement (.firmwarePiece piece) := fun _ _ h => nomatch h

theorem powerLoss : Statement .powerLoss := fun _ _ h => nomatch h

theorem packageReset : Statement .packageReset := fun _ _ h => nomatch h

theorem dieReset (die : Fin 8) : Statement (.dieReset die) := fun _ _ h => nomatch h

theorem watchdogExpiry (die : Fin 8) : Statement (.watchdogExpiry die) := fun _ _ h => nomatch h

theorem scrubPass (die : Fin 8) (line : Nat) (found : EccFinding) : Statement (.scrubPass die line found) := fun _ _ h => nomatch h

theorem taskForwardReceive (die : Fin 8) : Statement (.taskForwardReceive die) := fun _ _ h => nomatch h

theorem coreIdleRequest (core : Fin 512) : Statement (.coreIdleRequest core) := fun _ _ h => nomatch h

theorem agingPromotion (task : Nat) : Statement (.agingPromotion task) := fun _ _ h => nomatch h

theorem readyWaitExpiry (task : Nat) : Statement (.readyWaitExpiry task) := fun _ _ h => nomatch h

theorem deadlineExpiry (core : Fin 512) : Statement (.deadlineExpiry core) := fun _ _ h => nomatch h

theorem holdingTaskSave (core : Fin 512) : Statement (.holdingTaskSave core) := fun _ _ h => nomatch h

theorem featureParkPlace (die : Fin 8) : Statement (.featureParkPlace die) := fun _ _ h => nomatch h

theorem loadTileDelivery (task : Nat) (core : Fin 512) : Statement (.loadTileDelivery task core) := fun _ _ h => nomatch h

theorem storeStageWrite (task : Nat) : Statement (.storeStageWrite task) := fun _ _ h => nomatch h

theorem causeTaken (core : Fin 512) : Statement (.causeTaken core) := fun _ _ h => nomatch h

theorem dCauseArrival (core : Fin 512) (n : Nat) : Statement (.dCauseArrival core n) := fun _ _ h => nomatch h

theorem releaseSend (core : Fin 512) : Statement (.releaseSend core) := fun _ _ h => nomatch h

theorem copyComplete (core : Fin 512) (n : Nat) : Statement (.copyComplete core n) := fun _ _ h => nomatch h

theorem barrierDelivery (core : Fin 512) (n : Nat) : Statement (.barrierDelivery core n) := fun _ _ h => nomatch h

theorem subscriptionTileDelivery (core : Fin 512) (id : Fin 8) : Statement (.subscriptionTileDelivery core id) := fun _ _ h => nomatch h

theorem rrotExchange (clearing : Fin 64) : Statement (.rrotExchange clearing) := fun _ _ h => nomatch h

theorem rrotTimeout (core : Fin 512) : Statement (.rrotTimeout core) := fun _ _ h => nomatch h

theorem barwaitTimeout (core : Fin 512) : Statement (.barwaitTimeout core) := fun _ _ h => nomatch h

theorem mergeTileArrival (core : Fin 512) : Statement (.mergeTileArrival core) := fun _ _ h => nomatch h

theorem mergeRetry (core : Fin 512) : Statement (.mergeRetry core) := fun _ _ h => nomatch h

theorem mergeWaitTimeout (core : Fin 512) : Statement (.mergeWaitTimeout core) := fun _ _ h => nomatch h

theorem mergeRefusedTimeout (core : Fin 512) : Statement (.mergeRefusedTimeout core) := fun _ _ h => nomatch h

theorem arrayStep (core : Fin 512) : Statement (.arrayStep core) := fun _ _ h => nomatch h

theorem accrdLand (core : Fin 512) (t : Fin 16) : Statement (.accrdLand core t) := fun _ _ h => nomatch h

theorem atomicUnitPerform (core : Fin 512) (n : Nat) : Statement (.atomicUnitPerform core n) := fun _ _ h => nomatch h

theorem memoryPortAccess (core : Fin 512) (n : Nat) : Statement (.memoryPortAccess core n) := fun _ _ h => nomatch h

theorem migration (die : Fin 8) (page : Nat) : Statement (.migration die page) := fun _ _ h => nomatch h

theorem shootdownAck (die : Fin 8) (by_ : Fin 8) : Statement (.shootdownAck die by_) := fun _ _ h => nomatch h

theorem migholdExpiry (die : Fin 8) (n : Nat) : Statement (.migholdExpiry die n) := fun _ _ h => nomatch h

theorem blazeLanded (die : Fin 8) (entry : Fin 4096) : Statement (.blazeLanded die entry) := fun _ _ h => nomatch h

theorem blazeFailed (die : Fin 8) (entry : Fin 4096) : Statement (.blazeFailed die entry) := fun _ _ h => nomatch h

theorem watcherRegister (core : Fin 512) (n : Nat) : Statement (.watcherRegister core n) := fun _ _ h => nomatch h

theorem cphArrival (core : Fin 512) (n : Nat) : Statement (.cphArrival core n) := fun _ _ h => nomatch h

theorem watch (die : Fin 8) (n : Nat) : Statement (.watch die n) := fun _ _ h => nomatch h

theorem landed (die : Fin 8) (n : Nat) : Statement (.landed die n) := fun _ _ h => nomatch h

theorem failed (die : Fin 8) (n : Nat) : Statement (.failed die n) := fun _ _ h => nomatch h

theorem holdlimExpiry (die : Fin 8) (n : Nat) : Statement (.holdlimExpiry die n) := fun _ _ h => nomatch h

theorem resendBackoffExpiry (packet : Nat) : Statement (.resendBackoffExpiry packet) := fun _ _ h => nomatch h

theorem ringSlotArrival (packet : Nat) (takes : Bool) : Statement (.ringSlotArrival packet takes) := fun _ _ h => nomatch h

theorem markedResponse (die : Fin 8) (peer : BitVec 15) : Statement (.markedResponse die peer) := fun _ _ h => nomatch h

theorem entropyQuietPoint (die : Fin 8) (peer : BitVec 15) : Statement (.entropyQuietPoint die peer) := fun _ _ h => nomatch h

theorem dlrMove (packet : Nat) : Statement (.dlrMove packet) := fun _ _ h => nomatch h

theorem linkFlitRetransmit (packet : Nat) : Statement (.linkFlitRetransmit packet) := fun _ _ h => nomatch h

theorem illegalEncoding (bad : BadWord) : Statement (.illegalEncoding bad) := fun _ _ h => nomatch h

theorem accessAcknowledged (core : Fin 512) (n : Nat) : Statement (.accessAcknowledged core n) := fun _ _ h => nomatch h

theorem overflowStoreDrain (die : Fin 8) (tc : Fin 4) : Statement (.overflowStoreDrain die tc) := fun _ _ h => nomatch h

theorem injectionLimitRelease (packet : Nat) : Statement (.injectionLimitRelease packet) := fun _ _ h => nomatch h

theorem torusHop (packet : Nat) (full : Bool) : Statement (.torusHop packet full) := fun _ _ h => nomatch h

theorem clearingRingRetry (core : Fin 512) (n : Nat) : Statement (.clearingRingRetry core n) := fun _ _ h => nomatch h

end Sys2Proof.Laws.Encoding
end

