-- ==== Sys2Proof/Laws/Tasks.lean ====
section
/-! SUPPORT. What the die scheduler's operations leave alone: raising YREQ changes no core but for that, and a task that is
queued is the only thing that joins the task list. -/

namespace Sys2Proof.Machine

open Sys2Proof.Safety

/-- `t` is `s` but for YREQ and the park request of its cores. -/
structure Scanned (s t : State) : Prop where
  tasks : t.tasks = s.tasks
  mem : t.mem = s.mem
  poison : t.poison = s.poison
  joins : t.joins = s.joins
  launches : t.launches = s.launches
  dies : t.dies = s.dies
  agent : t.core.agent = s.core.agent
  regs : t.core.regs = s.core.regs
  epoch : t.core.epoch = s.core.epoch
  task : t.core.task = s.core.task
  pool : t.core.pool = s.core.pool

theorem Scanned.refl (s : State) : Scanned s s := ⟨rfl, rfl, rfl, rfl, rfl, rfl, rfl, rfl, rfl, rfl, rfl⟩

theorem Scanned.trans {s t u : State} (a : Scanned s t) (b : Scanned t u) : Scanned s u :=
  ⟨b.tasks.trans a.tasks, b.mem.trans a.mem, b.poison.trans a.poison, b.joins.trans a.joins, b.launches.trans a.launches,
    b.dies.trans a.dies, b.agent.trans a.agent, b.regs.trans a.regs, b.epoch.trans a.epoch, b.task.trans a.task,
    b.pool.trans a.pool⟩

/-- A core put in its place changes the core in focus only where it is that one. -/
theorem setCoreAt_cases (s : State) (n : Fin 512) (c : Core) : (n = s.core.agent ∧ s.setCoreAt n c = { s with core := c }) ∨
    (n ≠ s.core.agent ∧ ∃ l, s.setCoreAt n c = { s with others := l }) := by
  unfold State.setCoreAt
  by_cases h : n = s.core.agent
  · exact .inl ⟨h, by rw [if_pos (by simp [h])]⟩
  · exact .inr ⟨h, by rw [if_neg (by simpa [eq_comm] using h)]; exact ⟨_, rfl⟩⟩

theorem coreAt_self (s : State) : s.coreAt s.core.agent = s.core := by
  unfold State.coreAt
  rw [if_pos (by simp)]

theorem setCoreAt_scanned (s : State) (n : Fin 512) (c : Core) (h1 : c.agent = (s.coreAt n).agent)
    (h2 : c.regs = (s.coreAt n).regs) (h3 : c.epoch = (s.coreAt n).epoch) (h4 : c.task = (s.coreAt n).task)
    (h5 : c.pool = (s.coreAt n).pool) : Scanned s (s.setCoreAt n c) := by
  rcases setCoreAt_cases s n c with ⟨rfl, h⟩ | ⟨_, l, h⟩
  · rw [coreAt_self] at h1 h2 h3 h4 h5
    rw [h]
    exact ⟨rfl, rfl, rfl, rfl, rfl, rfl, h1, h2, h3, h4, h5⟩
  · rw [h]
    exact ⟨rfl, rfl, rfl, rfl, rfl, rfl, rfl, rfl, rfl, rfl, rfl⟩

theorem raiseYreq_scanned (s : State) (n : Fin 512) (p : Bool) : Scanned s (raiseYreq s n p) :=
  setCoreAt_scanned s n _ rfl rfl rfl rfl rfl

/-- YREQ raised for waiting tasks leaves everything else (09 R270). -/
theorem yreqScan_scanned (s : State) (d : Fin 8) : Scanned s (yreqScan s d) := by
  unfold yreqScan
  generalize yreqCores s d = l
  induction l generalizing s with
  | nil => exact .refl s
  | cons n l ih =>
    rw [List.foldl_cons]
    refine Scanned.trans ?_ (ih _)
    split
    · exact .refl s
    · exact raiseYreq_scanned s n false

/-- A queued task joins the tail of the task list, on a core, and nothing else does. -/
theorem enqueue_tasks (s : State) (t : Task) (n : Fin 512) : ∃ place, (enqueue s t n).tasks = s.tasks ++
    [⟨{ t with home := n }, place, none⟩] := by
  unfold enqueue
  exact ⟨_, (yreqScan_scanned _ _).tasks⟩

/-- What a queued task leaves as it was. -/
theorem enqueue_rest (s : State) (t : Task) (n : Fin 512) : (enqueue s t n).mem = s.mem ∧ (enqueue s t n).joins = s.joins ∧
    (enqueue s t n).core.regs = s.core.regs ∧ (enqueue s t n).core.epoch = s.core.epoch ∧
    (enqueue s t n).core.task = s.core.task ∧ (enqueue s t n).core.pool = s.core.pool := by
  unfold enqueue
  have h := yreqScan_scanned { s with tasks := s.tasks ++ [⟨{ t with home := n },
    if t.obj.roleOf t.stage = .compute then .ready n s.dies[dieOf n].cycle.toNat 0 t.prio else .stage n, none⟩] } (dieOf n)
  exact ⟨h.mem, h.joins, h.regs, h.epoch, h.task, h.pool⟩

/-- A task placed on a die gets a number of it and waits on one of its cores. -/
theorem placeOn_task (s : State) (d : Fin 8) (cl : Nat) (t : Task) : ∃ n core place,
    (placeOn s d cl t).2 = taskId t.serial d n ∧
    (placeOn s d cl t).1.tasks = s.tasks ++ [⟨{ t with id := taskId t.serial d n, home := core }, place, none⟩] ∧
    (placeOn s d cl t).1.mem = s.mem ∧ (placeOn s d cl t).1.joins = s.joins ∧
    (placeOn s d cl t).1.core.regs = s.core.regs ∧ (placeOn s d cl t).1.core.epoch = s.core.epoch := by
  unfold placeOn
  dsimp only
  obtain ⟨place, h⟩ := enqueue_tasks (nextNumber s d t.launch).1 { t with id := taskId t.serial d (nextNumber s d t.launch).2 }
    (coreFor (nextNumber s d t.launch).1 d cl t.stage)
  obtain ⟨h1, h2, h3, h4, _, _⟩ := enqueue_rest (nextNumber s d t.launch).1
    { t with id := taskId t.serial d (nextNumber s d t.launch).2 } (coreFor (nextNumber s d t.launch).1 d cl t.stage)
  exact ⟨_, _, place, rfl, h, h1, h2, h3, h4⟩

/-- The same for a task placed by its anchor or its spawner's clearing (09 R259). -/
theorem placeHere_task (s : State) (d : Fin 8) (cl : Nat) (t : Task) : ∃ n core place,
    (placeHere s d cl t).2 = taskId t.serial d n ∧
    (placeHere s d cl t).1.tasks = s.tasks ++ [⟨{ t with id := taskId t.serial d n, home := core }, place, none⟩] ∧
    (placeHere s d cl t).1.mem = s.mem ∧ (placeHere s d cl t).1.joins = s.joins ∧
    (placeHere s d cl t).1.core.regs = s.core.regs ∧ (placeHere s d cl t).1.core.epoch = s.core.epoch := by
  unfold placeHere
  split
  · split
    · exact placeOn_task ..
    · exact placeOn_task ..
  · exact placeOn_task ..

/-! ## A task leaves its core -/

/-- Freeing an entry of a blaze table changes dies only. -/
theorem freeBlaze_dies (s : State) (d : Fin 8) (e : Nat) : ∃ x, freeBlaze s d e = { s with dies := x } := by
  unfold freeBlaze
  split
  · exact ⟨_, rfl⟩
  · split
    · exact ⟨_, rfl⟩
    · exact ⟨_, rfl⟩

theorem modBlaze_dies (s : State) (d : Fin 8) (e : Nat) (f : BlazeEnt → BlazeEnt) : ∃ x, modBlaze s d e f = { s with dies := x } := by
  unfold modBlaze
  split
  · exact ⟨_, rfl⟩
  · rename_i b _
    obtain ⟨x, h⟩ := freeBlaze_dies (s.modDie d fun x => { x with blazes := insertKey e (f b) x.blazes }) d e
    exact ⟨x, by rw [h]; rfl⟩

theorem dropRef_dies (s : State) (z : BlazeRef) : ∃ x, dropRef s z = { s with dies := x } := by
  unfold dropRef
  split
  · exact modBlaze_dies ..
  · exact ⟨_, rfl⟩

theorem unwatch_dies (s : State) (z : BlazeRef) : ∃ x, unwatch s z = { s with dies := x } := by
  unfold unwatch
  split
  · exact modBlaze_dies ..
  · exact ⟨_, rfl⟩

/-- A list of steps that change dies only. -/
theorem foldl_dies {α : Type} (f : State → α → State) (h : ∀ s a, ∃ x, f s a = { s with dies := x }) (l : List α) :
    ∀ s, ∃ x, l.foldl f s = { s with dies := x } := by
  induction l with
  | nil => exact fun s => ⟨_, rfl⟩
  | cons a l ih =>
    intro s
    obtain ⟨x, hx⟩ := h s a
    obtain ⟨y, hy⟩ := ih (f s a)
    exact ⟨y, by rw [List.foldl_cons, hy, hx]⟩

theorem failBlazes_dies (s : State) (l : List CopyRun) : ∃ x, failBlazes s l = { s with dies := x } := by
  refine foldl_dies _ (fun s c => ?_) l s
  split
  · split
    · exact modBlaze_dies ..
    · exact ⟨_, rfl⟩
  · exact ⟨_, rfl⟩

theorem unwatchAll_dies (s : State) (h : HoldEnt) : ∃ x, unwatchAll s h = { s with dies := x } := by
  refine foldl_dies _ (fun s b => ?_) _ s
  split
  · exact unwatch_dies ..
  · exact ⟨_, rfl⟩

theorem dropLocalHolds_dies (s : State) (id : BitVec 32) (f : Cmd → Bool) : ∃ x, dropLocalHolds s id f = { s with dies := x } := by
  refine foldl_dies _ (fun s d => ?_) _ s
  refine foldl_dies _ (fun s h => ?_) _ s
  obtain ⟨x, hx⟩ := unwatchAll_dies (dropHold s d h) h
  exact ⟨x, by rw [hx]; rfl⟩

/-- The blazes of a task dropped: dies change, and the z-registers. -/
theorem dropAllZ_rest (s : State) : ∃ x z, dropAllZ s = { s with dies := x, core := { s.core with regs := { s.core.regs with
    ord := { s.core.regs.ord with z := z } } } } := by
  unfold dropAllZ
  generalize List.finRange 16 = l
  induction l generalizing s with
  | nil => exact ⟨_, _, rfl⟩
  | cons n l ih =>
    rw [List.foldl_cons]
    obtain ⟨x, z, h⟩ := ih (dropZ s n)
    rw [h]
    unfold dropZ
    split
    · exact ⟨_, _, rfl⟩
    · rename_i r _
      obtain ⟨y, hy⟩ := dropRef_dies (s.modOrd fun o => { o with z := o.z.set n none }) r
      rw [hy]
      exact ⟨_, _, rfl⟩

/-- A core left by its task: what remains of it, and what has not changed. -/
theorem leaveCore_rest (s : State) (t : Task) : ∃ x, leaveCore s t = { s with dies := x, core := { (t.handles.foldl freeBuffer
    s.core) with task := none, regs := TaskRegs.entry, yreq := none, parkReq := false, line := none, rrot := none, refused := none } } := by
  unfold leaveCore
  obtain ⟨x, z, h⟩ := dropAllZ_rest s
  obtain ⟨y, h2⟩ := failBlazes_dies (dropAllZ s) s.cp.copies
  obtain ⟨w, h3⟩ := dropLocalHolds_dies (failBlazes (dropAllZ s) s.cp.copies) t.id Cmd.isLocal
  have e : ∀ (l : List Handle) (c : Core) (r : TaskRegs), l.foldl freeBuffer { c with regs := r } =
      { l.foldl freeBuffer c with regs := r } := by
    intro l
    induction l with
    | nil => intros; rfl
    | cons a l ih => intro c r; rw [List.foldl_cons, List.foldl_cons, ← ih]; rfl
  refine ⟨w, ?_⟩
  rw [h3, h2, h]
  show ({ s with dies := w, core := { (t.handles.foldl freeBuffer { s.core with regs := { s.core.regs with
    ord := { s.core.regs.ord with z := z } } }) with task := none, regs := TaskRegs.entry, yreq := none, parkReq := false, line := none, rrot := none, refused := none } } : State) = _
  rw [e]

/-- Buffers freed leave the rest of the core. -/
theorem freeBuffers_rest (l : List Handle) (c : Core) : (l.foldl freeBuffer c).agent = c.agent ∧
    (l.foldl freeBuffer c).epoch = c.epoch ∧ (l.foldl freeBuffer c).halted = c.halted := by
  induction l generalizing c with
  | nil => exact ⟨rfl, rfl, rfl⟩
  | cons a l ih => rw [List.foldl_cons]; exact ih (freeBuffer c a)

/-- What a task that ends as `DONE` ends it leaves behind. -/
theorem finishTask_rest (s : State) (t : Task) :
    TaskGone s (finishTask s t) t ∧ (finishTask s t).core.epoch = s.core.epoch + 1 ∧
    (finishTask s t).core.halted = s.core.halted ∧ (finishTask s t).tasks = s.tasks ∧
    (finishTask s t).core.agent = s.core.agent ∧
    (finishTask s t).joins = s.joins.modify t.join fun j => { j with
      ended := j.ended + 1, enders := j.enders ++ [⟨BitVec.ofNat 9 s.core.agent.val, s.core.epoch⟩] } := by
  unfold finishTask endTask
  obtain ⟨x, h⟩ := leaveCore_rest s t
  obtain ⟨f1, f2, f3⟩ := freeBuffers_rest t.handles s.core
  rw [h]
  refine ⟨⟨rfl, rfl, rfl, rfl, rfl, fun d hd => ?_⟩, ?_, f3, rfl, f1, ?_⟩
  · have : (parkAnswered (bumpEpoch (State.childEnds { s with dies := x, core := { (t.handles.foldl freeBuffer s.core) with
        task := none, regs := TaskRegs.entry, yreq := none, parkReq := false, line := none, rrot := none, refused := none } }
        t.join none (some ⟨BitVec.ofNat 9 s.core.agent.val, s.core.epoch⟩))) t.id).dies[d] =
        { x[d] with parkReqs := x[d].parkReqs.filter (· != t.id) } := by
      simp only [parkAnswered, Fin.getElem_fin, Vector.getElem_map]
      rfl
    rw [this] at hd
    simp at hd
  · show (t.handles.foldl freeBuffer s.core).epoch + 1 = _
    rw [f2]
  · show s.joins.modify t.join _ = _
    congr 1
    funext j
    simp

/-! ## A task is saved -/

/-- `t` is `s` but for memory, poison and the note of dirty lines. -/
def MemoryOnly (s t : State) : Prop :=
  ∃ m p ds, t = { s with mem := m, poison := p, dies := ds } ∧ ∀ e : Fin 8, ds[e] = { s.dies[e] with dirty := ds[e].dirty }

theorem MemoryOnly.refl (s : State) : MemoryOnly s s := ⟨s.mem, s.poison, s.dies, rfl, fun _ => rfl⟩

theorem MemoryOnly.trans {s t u : State} (h : MemoryOnly s t) (h' : MemoryOnly t u) : MemoryOnly s u := by
  obtain ⟨_, _, ds, rfl, hd⟩ := h
  obtain ⟨m, p, ds', rfl, hd'⟩ := h'
  exact ⟨m, p, ds', rfl, fun e => by rw [hd' e]; dsimp only; rw [hd e]⟩

/-- Steps that each change no more than memory do so together. -/
theorem MemoryOnly.foldl {α : Type} {f : State → α → State} (h : ∀ s a, MemoryOnly s (f s a)) (l : List α) (s : State) :
    MemoryOnly s (l.foldl f s) := by
  induction l generalizing s with
  | nil => exact .refl s
  | cons a l ih => exact (h s a).trans (ih _)

/-- A store changes memory, poison and the note of dirty lines. -/
theorem store_memoryOnly (s : State) (k : Nat) (bs : List Byte) : MemoryOnly s (s.store k bs) := by
  obtain ⟨_, h1, h2⟩ := markDirty_dirty s k bs.length
  refine ⟨memSetList s.mem k bs, clearCovered s.poison k bs.length, (markDirty s k bs.length).dies, ?_, h1⟩
  unfold State.store
  dsimp only
  rw [h2]

/-- So does a store of a whole range of listed bytes. -/
theorem storeCells_memoryOnly (s : State) (k n : Nat) (cs : List (Nat × Byte)) : MemoryOnly s (s.storeCells k n cs) := by
  obtain ⟨_, h1, h2⟩ := markDirty_dirty s k n
  refine ⟨putCells s.mem k n cs, clearCovered s.poison k n, (markDirty s k n).dies, ?_, h1⟩
  unfold State.storeCells
  dsimp only
  rw [h2]

theorem saveAccs_memoryOnly (s : State) (o : CodeObj) (key a : Nat) : MemoryOnly s (saveAccs s o key a) := by
  refine .foldl (fun x i => ?_) _ _
  split
  · exact storeCells_memoryOnly ..
  · exact .refl x

theorem saveSpad_memoryOnly (s : State) (c : Core) (o : CodeObj) (key a : Nat) : MemoryOnly s (saveSpad s c o key a) := by
  unfold saveSpad
  split
  · exact .refl _
  · exact ((storeCells_memoryOnly ..).trans (store_memoryOnly ..)).trans
      (.foldl (fun y g => ⟨y.mem, insertNat _ y.poison, y.dies, rfl, fun _ => rfl⟩) _ _)

/-- An image that is written changes no more than memory, and takes one free value. -/
theorem writeImage_memoryOnly (s : State) (t : Task) (vec acc forced : Bool) (cause key : Nat) :
    ∃ u, MemoryOnly s u ∧ writeImage s t vec acc forced cause key = { u with free := s.free + 1 } := by
  refine ⟨_, ?_, rfl⟩
  split
  · exact (store_memoryOnly ..).trans ((saveAccs_memoryOnly ..).trans (saveSpad_memoryOnly ..))
  · exact (store_memoryOnly ..).trans (saveSpad_memoryOnly ..)

/-- A save with room for its image (09 R272, 12 R351): what the core keeps, what the image holds, what the die notes. -/
theorem saveTask_some {s : State} {t : Task} {vec slots forced : Bool} {cause : Nat} {record : Word} {stopped : Option Raised}
    {acc : Bool} (ha : (slots && decide (t.obj.slots ≠ 0)) = acc)
    {base : Nat} (h : roomFor s (dieOf s.core.agent) (imageSize t.obj vec acc) = some base) : ∃ m p ds i,
    saveTask s t vec slots forced cause record stopped = some ({ s with
      mem := m, poison := p, dies := ds, free := s.free + 1, core := { s.core with
        task := none, regs := TaskRegs.entry, yreq := none, parkReq := false, line := none, rrot := none, refused := none } }, i) ∧
    (∀ e : Fin 8, ds[e] = { s.dies[e] with dirty := ds[e].dirty, saves := ds[e].saves }) ∧
    ds[dieOf s.core.agent].saves = s.dies[dieOf s.core.agent].saves ++ [(base, imageSize t.obj vec acc)] ∧
    i.regs = keptRegs s.core.regs vec ∧ (i.vec, i.acc, i.forced, i.cause, i.record, i.stopped) = (vec, acc, forced, cause, record, stopped) ∧
    (i.die, i.base, i.len) = (dieOf s.core.agent, base, imageSize t.obj vec acc) := by
  unfold saveTask
  dsimp only
  rw [ha, h]
  dsimp only
  obtain ⟨u, ⟨m, p, ds, hu, hd⟩, hw⟩ := writeImage_memoryOnly s t vec acc forced cause
    (hbmKey (peerOf s.pkg (dieOf s.core.agent).val) base)
  rw [hw, hu]
  obtain ⟨ds', hds⟩ : ∃ x, x = ds.set (dieOf s.core.agent) { ds[dieOf s.core.agent] with
    saves := ds[dieOf s.core.agent].saves ++ [(base, imageSize t.obj vec acc)] } := ⟨_, rfl⟩
  have hg : ∀ e : Fin 8, ds'[e] = if dieOf s.core.agent = e then
      { ds[e] with saves := ds[e].saves ++ [(base, imageSize t.obj vec acc)] } else ds[e] := by
    intro e
    rw [hds]
    by_cases h : dieOf s.core.agent = e
    · subst h; simp
    · have : (dieOf s.core.agent : Nat) ≠ e := fun q => h (Fin.ext q)
      simp [Vector.getElem_set_ne, this, h]
  refine ⟨m, p, ds', _, by rw [hds]; rfl, fun e => ?_, ?_, rfl, rfl, rfl⟩
  · obtain ⟨q, hq⟩ : ∃ q, ds[e] = { s.dies[e] with dirty := q } := ⟨_, hd e⟩
    rw [hg, hq]
    split <;> rfl
  · rw [hg, if_pos rfl]
    show ds[dieOf s.core.agent].saves ++ _ = _
    rw [show ds[dieOf s.core.agent].saves = _ from congrArg Die.saves (hd _)]

end Sys2Proof.Machine
end

