-- ==== Sys2Proof/Laws/Vector.lean ====
section
/-! SUPPORT. Operands and results of vector commands: the physical numbers of registers, bytes and elements of a vector,
and what an engine's write leaves as it was. -/

namespace Sys2Proof.Machine

open Sys2Proof.Safety

/-! ## Registers (02 R45) -/

/-- Two logical registers are never the same physical one. -/
theorem physV_inj {b : Fin 32} {m n : Fin 56} (h : physV b m = physV b n) : m = n := by
  unfold physV at h
  have hm := m.isLt
  have hn := n.isLt
  have hb := b.isLt
  apply Fin.ext
  split at h <;> split at h <;> simp only [Fin.ext_iff, Fin.ofNat_eq_cast, Fin.val_natCast] at h <;> omega

/-- A register reads as it was written, and no other one changes. -/
theorem vreg_setV (s : State) (m n : Fin 56) (x : VWord) : (s.setV n x).vreg m = if m = n then x else s.vreg m := by
  show (s.ve.v.set (physV s.ve.vrb n) x)[physV s.ve.vrb m] = _
  by_cases h : m = n
  · rw [if_pos h, h]; simp
  · rw [if_neg h]
    have : (physV s.ve.vrb n).val ≠ (physV s.ve.vrb m).val := fun e => h (physV_inj (Fin.ext e)).symm
    exact Vector.getElem_set_ne _ _ this

/-! ## Bytes of a vector -/

/-- Byte `i` of a number made of bytes. -/
theorem leNat_byte (l : List Byte) (i : Nat) (h : i < l.length) : leNat l / 256 ^ i % 256 = l[i].toNat := by
  induction l generalizing i with
  | nil => simp at h
  | cons b l ih =>
    have hb := b.isLt
    cases i with
    | zero => simp only [leNat, Nat.pow_zero, Nat.div_one, List.getElem_cons_zero]; omega
    | succ i =>
      rw [Nat.pow_succ, Nat.mul_comm, ← Nat.div_div_eq_div_mul]
      have : leNat (b :: l) / 256 = leNat l := by simp only [leNat]; omega
      rw [this]
      exact ih i (by simpa using h)

/-- Byte `i` of a vector read from bytes. -/
theorem vByte_leNat (l : List Byte) (i : Nat) (h : i < l.length) (hi : i < 256) :
    vByte (BitVec.ofNat 2048 (leNat l)) i = l[i] := by
  apply BitVec.eq_of_toNat_eq
  unfold vByte
  rw [BitVec.extractLsb'_toNat, BitVec.toNat_ofNat, Nat.shiftRight_eq_div_pow, ← leNat_byte l i h]
  rw [show (2048 : Nat) = 8 * i + (2048 - 8 * i) by omega, Nat.pow_add, Nat.mod_mul_right_div_self,
    Nat.mod_mod_of_dvd _ (Nat.pow_dvd_pow 2 (by omega)), Nat.pow_mul]

/-! ## An engine's write to the scratchpad -/

/-- A write changes layout tags of the core and nothing else of it. -/
theorem layoutWrite_core (c : Core) (off n : Nat) : ∃ l, (layoutWrite c off n).1 = { c with ltags := l } := by
  unfold layoutWrite
  split
  · exact ⟨_, rfl⟩
  · generalize granules _ _ = us
    suffices ∀ x : Core × Flags, (∃ l, x.1 = { c with ltags := l }) → ∃ l, (us.foldl (fun x u =>
        let f := bankFmt x.1 (bankOf (4096 * u))
        let now := (f.1, f.2.1)
        let whole := decide (off ≤ 4096 * u) && decide (4096 * u + 4096 ≤ off + n)
        let stale := !whole && ((lookupKey u x.1.ltags).map fun t => t != now).getD false
        ({ x.1 with ltags := insertKey u now x.1.ltags }, x.2 ||| Flags.whenSet stale Flags.layoutStale)) x).1 =
          { c with ltags := l } from this _ ⟨_, rfl⟩
    induction us with
    | nil => exact fun x h => h
    | cons u us ih =>
      rintro x ⟨l, h⟩
      rw [List.foldl_cons]
      exact ih _ ⟨insertKey u _ l, by dsimp only; rw [h]⟩

/-- The memory after some cells of a scratchpad are written. -/
def cellsPut (c : Core) (m : List Host.Cell) (cells : List (Nat × Byte)) : List Host.Cell :=
  cells.foldl (fun m x => memSet m (spadAt c x.1) x.2) m

/-- An engine's write changes memory, poison and layout tags. -/
theorem enginePut_shape (s : State) (cells : List (Nat × Byte)) : ∃ p l f, enginePut s cells =
    ({ s with mem := cellsPut s.core s.mem cells, poison := p, core := { s.core with ltags := l } }, f) := by
  unfold enginePut
  dsimp only
  suffices ∃ l, (cells.foldl (fun (x : Core × Flags) c => ((layoutWrite x.1 c.1 1).1, x.2 ||| (layoutWrite x.1 c.1 1).2))
      (s.core, 0)).1 = { s.core with ltags := l } by
    obtain ⟨l, h⟩ := this
    exact ⟨_, l, _, by rw [h]; rfl⟩
  suffices ∀ x : Core × Flags, (∃ l, x.1 = { s.core with ltags := l }) → ∃ l, (cells.foldl (fun (x : Core × Flags) c =>
      ((layoutWrite x.1 c.1 1).1, x.2 ||| (layoutWrite x.1 c.1 1).2)) x).1 = { s.core with ltags := l } from this _ ⟨_, rfl⟩
  induction cells with
  | nil => exact fun x h => h
  | cons a cells ih =>
    rintro x ⟨l, h⟩
    rw [List.foldl_cons]
    refine ih _ ?_
    obtain ⟨l2, h2⟩ := layoutWrite_core x.1 a.1 1
    exact ⟨l2, by dsimp only; rw [h2, h]⟩

theorem cellsPut_wf {m : List Host.Cell} (h : Memory.wf m = true) (c : Core) (cells : List (Nat × Byte)) :
    Memory.wf (cellsPut c m cells) = true := by
  induction cells generalizing m with
  | nil => exact h
  | cons a cells ih => exact ih (memSet_wf h _ _)

/-- A byte that no cell names stays. -/
theorem cellsPut_out {m : List Host.Cell} (h : Memory.wf m = true) (c : Core) (cells : List (Nat × Byte)) (k : Nat)
    (hk : ∀ x ∈ cells, k ≠ spadAt c x.1) : memGet (cellsPut c m cells) k = memGet m k := by
  induction cells generalizing m with
  | nil => rfl
  | cons a cells ih =>
    refine (ih (memSet_wf h _ _) fun x hx => hk x (List.mem_cons_of_mem _ hx)).trans ?_
    rw [memGet_memSet h, if_neg (hk a (List.mem_cons_self ..))]

/-- Cells at different offsets hold what was written. -/
theorem cellsPut_in {m : List Host.Cell} (h : Memory.wf m = true) (c : Core) (cells : List (Nat × Byte))
    (hd : cells.Pairwise fun x y => x.1 ≠ y.1) {x : Nat × Byte} (hx : x ∈ cells) :
    memGet (cellsPut c m cells) (spadAt c x.1) = x.2 := by
  induction cells generalizing m with
  | nil => cases hx
  | cons a cells ih =>
    rw [List.pairwise_cons] at hd
    rcases List.mem_cons.mp hx with rfl | hx
    · refine (cellsPut_out (memSet_wf h _ _) c cells _ fun y hy e => hd.1 y hy (spadAt_inj e)).trans ?_
      rw [memGet_memSet h, if_pos rfl]
    · exact ih (memSet_wf h _ _) hd.2 hx

/-- The cells of a masked push: the bytes that the mask touches. -/
theorem mem_pushCells {s : State} {addr : Nat} {x m : VWord} {y : Nat × Byte} : y ∈ pushCells s addr x m ↔
    ∃ i, i < 256 ∧ vByte m i ≠ 0 ∧ y = (spadMask (addr + i),
      (memGet s.mem (spadAt s.core (spadMask (addr + i))) &&& ~~~vByte m i) ||| (vByte x i &&& vByte m i)) := by
  unfold pushCells
  rw [List.mem_filterMap]
  refine exists_congr fun i => ?_
  rw [List.mem_range]
  dsimp only
  refine and_congr_right fun _ => ?_
  by_cases hm : vByte m i = 0
  · rw [if_pos hm]; simp [hm]
  · rw [if_neg hm]; simp only [Option.some.injEq, ne_eq, hm, not_false_eq_true, true_and]; exact eq_comm

/-- They lie at different offsets. -/
theorem pushCells_apart (s : State) (addr : Nat) (x m : VWord) : (pushCells s addr x m).Pairwise fun a b => a.1 ≠ b.1 := by
  unfold pushCells
  rw [List.pairwise_filterMap]
  refine List.Pairwise.imp_of_mem (R := fun a b => a < b) ?_ List.pairwise_lt_range
  intro a b ha hb hab x hx y hy
  rw [List.mem_range] at ha hb
  dsimp only at hx hy
  split at hx <;> [cases hx; skip]
  split at hy <;> [cases hy; skip]
  simp only [Option.some.injEq] at hx hy
  rw [← hx, ← hy]
  unfold spadMask
  dsimp only
  omega

/-- Each byte of a pushed vector: the old one where the mask is clear, the new one where it is set. -/
theorem pushed_byte {s : State} (h : Memory.wf s.mem = true) (addr : Nat) (x m : VWord) (i : Nat) (hi : i < 256) :
    memGet (cellsPut s.core s.mem (pushCells s addr x m)) (spadAt s.core (spadMask (addr + i))) =
      (memGet s.mem (spadAt s.core (spadMask (addr + i))) &&& ~~~vByte m i) ||| (vByte x i &&& vByte m i) := by
  by_cases hm : vByte m i = 0
  · have e0 : ∀ a b : Byte, a = (a &&& ~~~(0#8)) ||| (b &&& 0#8) := fun a b => by
      rw [BitVec.not_zero, BitVec.and_allOnes, BitVec.and_zero, BitVec.or_zero]
    rw [cellsPut_out h, hm]
    · exact e0 _ _
    intro y hy e
    obtain ⟨j, hj, hne, hy⟩ := mem_pushCells.mp hy
    rw [hy] at e
    have := spadAt_inj e
    unfold spadMask at this
    exact hne (by rw [show j = i by omega]; exact hm)
  · have := cellsPut_in h s.core _ (pushCells_apart s addr x m) (mem_pushCells.mpr ⟨i, hi, hm, rfl⟩)
    dsimp only at this
    exact this

/-- A push names no byte but those of its vector. -/
theorem pushed_out {s : State} (h : Memory.wf s.mem = true) (addr : Nat) (x m : VWord) (k : Nat)
    (hk : ∀ i < 256, k ≠ spadAt s.core (spadMask (addr + i))) :
    memGet (cellsPut s.core s.mem (pushCells s addr x m)) k = memGet s.mem k := by
  refine cellsPut_out h _ _ _ fun y hy => ?_
  obtain ⟨j, hj, _, hy⟩ := mem_pushCells.mp hy
  rw [hy]; dsimp only
  exact hk j hj

/-- Two pieces of a space of `K` bytes, around its end. -/
theorem two_pieces (f : Nat → Byte) (K r n : Nat) (hr : r < K) (h : K < r + n) (hn : n ≤ K) :
    ((List.range (K - r)).map fun i => f (r + i)) ++ ((List.range (r + n - K)).map fun i => f (0 + i)) =
      (List.range n).map fun i => f ((r + i) % K) := by
  obtain ⟨b, rfl⟩ : ∃ b, n = (K - r) + b := ⟨n - (K - r), by omega⟩
  rw [List.range_add, List.map_append, List.map_map, show r + (K - r + b) - K = b by omega]
  refine congrArg₂ _ ?_ ?_
  · apply List.map_congr_left
    intro i hi
    rw [List.mem_range] at hi
    rw [Nat.mod_eq_of_lt (by omega)]
  · apply List.map_congr_left
    intro i hi
    rw [List.mem_range] at hi
    simp only [Function.comp]
    rw [show r + (K - r + i) = i + K by omega, Nat.add_mod_right, Nat.mod_eq_of_lt (by omega), Nat.zero_add]

/-- A clean piece. -/
theorem readPiece_clean {s : State} (hp : s.poison = []) (hl : ∀ off n, layoutRead s.core off n = .ok 0) (off n : Nat) :
    readPiece s off n = .ok ((List.range n).map fun i => memGet s.mem (spadAt s.core (off + i)), 0) := by
  have pois : ∀ n off, spadPoison s s.core off n = none := by
    intro n
    induction n with
    | zero => exact fun _ => rfl
    | succ n ih => intro off; rw [spadPoison, hp, if_neg (by simp), ih]
  have bytes : ∀ n off, spadBytes s s.core off n = (List.range n).map fun i => memGet s.mem (spadAt s.core (off + i)) := by
    intro n
    induction n with
    | zero => exact fun _ => rfl
    | succ n ih =>
      intro off
      rw [spadBytes, ih, List.range_succ_eq_map, List.map_cons, List.map_map]
      congr 1
      apply List.map_congr_left
      intro i _
      simp only [Function.comp]
      rw [show off + 1 + i = off + (i + 1) by omega]
  unfold readPiece
  rw [hl]; dsimp only; rw [pois]; dsimp only; rw [bytes]

theorem engineRead_pieces {s : State} (K off n : Nat) (hk : 0 < K) (hn : n ≤ K) (f : Nat → Byte)
    (hf : ∀ off n, readPiece s off n = .ok ((List.range n).map fun i => f (off + i), 0)) :
    readPieces s (if off % K + n ≤ K then [(off % K, n)] else [(off % K, K - off % K), (0, off % K + n - K)]) =
      .ok ((List.range n).map fun i => f ((off + i) % K), 0) := by
  have hr := Nat.mod_lt off hk
  have e : ((List.range n).map fun i => f ((off + i) % K)) = (List.range n).map fun i => f ((off % K + i) % K) := by
    apply List.map_congr_left
    intro i _
    rw [Nat.mod_add_mod]
  rw [e]
  generalize off % K = r at hr ⊢
  split
  · rename_i h
    rw [readPieces, hf]; dsimp only; rw [readPieces]; dsimp only
    rw [List.append_nil]
    refine congrArg Except.ok (congrArg₂ Prod.mk ?_ (by decide))
    apply List.map_congr_left
    intro i hi
    rw [List.mem_range] at hi
    rw [Nat.mod_eq_of_lt (by omega)]
  · rename_i h
    rw [readPieces, hf]; dsimp only; rw [readPieces, hf]; dsimp only; rw [readPieces]; dsimp only
    rw [List.append_nil, two_pieces f K r n hr (by omega) hn]
    exact congrArg Except.ok (congrArg₂ Prod.mk rfl (by decide))

/-- A clean read of a scratchpad: each byte in turn, around its end (05 R132, 08 R224). -/
theorem engineRead_clean {s : State} (hp : s.poison = []) (hl : ∀ off n, layoutRead s.core off n = .ok 0) (off n : Nat)
    (hn : n ≤ 2 ^ 23) : engineRead s off n =
      .ok ((List.range n).map fun i => memGet s.mem (spadAt s.core ((off + i) % 2 ^ 23)), 0) :=
  engineRead_pieces (2 ^ 23) off n (by decide) hn (fun i => memGet s.mem (spadAt s.core i)) (readPiece_clean hp hl)

/-! ## Elements of a vector (02 R43) -/

/-- A sum of digits, each at its place. -/
def digitSum (w : Nat) : List (Nat × Nat) → Nat
  | [] => 0
  | x :: xs => atElem w x.1 x.2 + digitSum w xs

theorem digitSum_fold (w : Nat) (l : List (Nat × Nat)) (a : Nat) :
    l.foldl (fun a x => a + atElem w x.1 x.2) a = a + digitSum w l := by
  induction l generalizing a with
  | nil => rfl
  | cons x l ih => rw [List.foldl_cons, ih, digitSum]; omega

theorem digitSum_dvd (w k : Nat) (l : List (Nat × Nat)) (h : ∀ x ∈ l, k ≤ x.1) : 2 ^ (w * k) ∣ digitSum w l := by
  induction l with
  | nil => exact Nat.dvd_zero _
  | cons x l ih =>
    refine Nat.dvd_add (Dvd.dvd.mul_left ?_ _) (ih fun y hy => h y (List.mem_cons_of_mem _ hy))
    exact Nat.pow_dvd_pow 2 (Nat.mul_le_mul_left w (h x (List.mem_cons_self ..)))

/-- Digits at rising places stand where they were put; every other digit is zero. -/
theorem digitSum_digit (w : Nat) (l : List (Nat × Nat)) (h : l.Pairwise fun a b => a.1 < b.1) (j : Nat) :
    digitSum w l / 2 ^ (w * j) % 2 ^ w = ((l.find? fun x => x.1 == j).map fun x => x.2 % 2 ^ w).getD 0 := by
  induction l with
  | nil => simp [digitSum]
  | cons x l ih =>
    rw [List.pairwise_cons] at h
    obtain ⟨q, hq⟩ := digitSum_dvd w (x.1 + 1) l fun y hy => h.1 y hy
    have hv : x.2 % 2 ^ w < 2 ^ w := Nat.mod_lt _ (Nat.two_pow_pos w)
    have e1 : (2 : Nat) ^ (w * (x.1 + 1)) = 2 ^ (w * x.1) * 2 ^ w := by rw [Nat.mul_add, Nat.mul_one, Nat.pow_add]
    have p0 := Nat.two_pow_pos (w * x.1)
    rcases Nat.lt_trichotomy j x.1 with hj | hj | hj
    · have hf : (x :: l).find? (fun y => y.1 == j) = none := by
        rw [List.find?_eq_none]
        intro y hy
        rcases List.mem_cons.mp hy with rfl | hy
        · simp; omega
        · have := h.1 y hy
          simp; omega
      rw [hf]
      obtain ⟨z, hz⟩ := digitSum_dvd w (j + 1) (x :: l) fun y hy => by
        rcases List.mem_cons.mp hy with rfl | hy
        · omega
        · have := h.1 y hy
          omega
      rw [hz, Nat.mul_add, Nat.mul_one, Nat.pow_add, Nat.mul_assoc, Nat.mul_div_cancel_left _ (Nat.two_pow_pos _)]
      simp
    · have hf : (x :: l).find? (fun y => y.1 == j) = some x := by rw [List.find?_cons_of_pos]; simp [hj]
      rw [hf, hj, digitSum, hq, atElem, e1, Nat.mul_comm (x.2 % 2 ^ w), Nat.mul_assoc, ← Nat.mul_add,
        Nat.mul_div_cancel_left _ p0, Nat.add_mul_mod_self_left, Nat.mod_mod]
      rfl
    · have hf : (x :: l).find? (fun y => y.1 == j) = l.find? fun y => y.1 == j := by
        rw [List.find?_cons_of_neg]; simp; omega
      rw [hf, ← ih h.2, digitSum]
      obtain ⟨k, rfl⟩ : ∃ k, j = x.1 + 1 + k := ⟨j - (x.1 + 1), by omega⟩
      rw [Nat.mul_add w (x.1 + 1) k, Nat.pow_add, ← Nat.div_div_eq_div_mul, ← Nat.div_div_eq_div_mul, hq,
        Nat.mul_div_cancel_left _ (Nat.two_pow_pos _), Nat.add_mul_div_left _ _ (Nat.two_pow_pos _), atElem, e1,
        show x.2 % 2 ^ w * 2 ^ (w * x.1) / (2 ^ (w * x.1) * 2 ^ w) = 0 from
          Nat.div_eq_of_lt (by rw [Nat.mul_comm]; exact Nat.mul_lt_mul_of_pos_left hv p0), Nat.zero_add]

theorem Ty.fits (t : Ty) : t.width * t.count ≤ 2048 ∧ 0 < t.width := by cases t <;> decide

/-- An element of a vector cut out of a number. -/
theorem elem_ofNat (t : Ty) (n i : Nat) (h : i < t.count) : elem t (BitVec.ofNat 2048 n) i = n / 2 ^ (t.width * i) % 2 ^ t.width := by
  have hb : t.width * i + t.width ≤ 2048 := by
    have := (Ty.fits t).1
    calc t.width * i + t.width = t.width * (i + 1) := by rw [Nat.mul_add, Nat.mul_one]
      _ ≤ t.width * t.count := Nat.mul_le_mul_left _ h
      _ ≤ 2048 := this
  unfold elem bits
  rw [BitVec.toNat_ofNat]
  generalize t.width * i = a at hb
  generalize t.width = w at hb
  rw [show (2048 : Nat) = a + (2048 - a) by omega, Nat.pow_add, Nat.mod_mul_right_div_self,
    Nat.mod_mod_of_dvd _ (Nat.pow_dvd_pow 2 (by omega))]

/-- Element results stand at their places. -/
theorem elem_elemWord (t : Ty) (xs : List (Nat × Nat)) (h : xs.Pairwise fun a b => a.1 < b.1) (i : Nat) (hi : i < t.count) :
    elem t (elemWord t xs) i = ((xs.find? fun x => x.1 == i).map fun x => x.2 % 2 ^ t.width).getD 0 := by
  unfold elemWord
  rw [elem_ofNat t _ i hi, digitSum_fold, Nat.zero_add, digitSum_digit _ _ h]

theorem elemMask_eq (t : Ty) (xs : List Nat) : elemMask t xs = elemWord t (xs.map fun i => (i, 2 ^ t.width - 1)) := by
  unfold elemMask elemWord
  rw [List.foldl_map]

theorem digitSum_lt (w n : Nat) (l : List (Nat × Nat)) (h : l.Pairwise fun a b => a.1 < b.1) (hn : ∀ x ∈ l, x.1 < n) :
    digitSum w l < 2 ^ (w * n) := by
  induction l generalizing n with
  | nil => exact Nat.two_pow_pos _
  | cons x l ih =>
    induction n with
    | zero => exact absurd (hn x (List.mem_cons_self ..)) (by omega)
    | succ n ihn =>
      -- the highest digit is the last: bound by the sum of all places below n + 1
      clear ihn
      have key : ∀ (l : List (Nat × Nat)) (k : Nat), l.Pairwise (fun a b => a.1 < b.1) → (∀ x ∈ l, k ≤ x.1 ∧ x.1 < n + 1) → k ≤ n + 1 →
          digitSum w l + 2 ^ (w * k) ≤ 2 ^ (w * (n + 1)) := by
        intro l
        induction l with
        | nil => intro k _ _ hk; rw [digitSum, Nat.zero_add]; exact Nat.pow_le_pow_right (by omega) (Nat.mul_le_mul_left w hk)
        | cons x l ih =>
          intro k hp hb _
          rw [List.pairwise_cons] at hp
          have hx := hb x (List.mem_cons_self ..)
          have := ih (x.1 + 1) hp.2 (fun y hy => ⟨hp.1 y hy, (hb y (List.mem_cons_of_mem _ hy)).2⟩) (by omega)
          have hv : x.2 % 2 ^ w + 1 ≤ 2 ^ w := Nat.mod_lt _ (Nat.two_pow_pos w)
          have e1 : (2 : Nat) ^ (w * (x.1 + 1)) = 2 ^ w * 2 ^ (w * x.1) := by rw [Nat.mul_add, Nat.mul_one, Nat.pow_add, Nat.mul_comm]
          have h2 : (x.2 % 2 ^ w + 1) * 2 ^ (w * x.1) ≤ 2 ^ w * 2 ^ (w * x.1) := Nat.mul_le_mul_right _ hv
          have h3 : (2 : Nat) ^ (w * k) ≤ 2 ^ (w * x.1) := Nat.pow_le_pow_right (by omega) (Nat.mul_le_mul_left w hx.1)
          rw [digitSum, atElem]
          rw [Nat.add_mul, Nat.one_mul] at h2
          omega
      have := key (x :: l) 0 h (fun y hy => ⟨Nat.zero_le _, hn y hy⟩) (Nat.zero_le _)
      simp only [Nat.mul_zero, Nat.pow_zero] at this
      omega

theorem elemWord_lt (t : Ty) (xs : List (Nat × Nat)) (h : xs.Pairwise fun a b => a.1 < b.1) (hn : ∀ x ∈ xs, x.1 < t.count) :
    (elemWord t xs).toNat < 2 ^ (t.width * t.count) := by
  unfold elemWord
  rw [BitVec.toNat_ofNat, digitSum_fold, Nat.zero_add]
  exact Nat.lt_of_le_of_lt (Nat.mod_le _ _) (digitSum_lt _ _ _ h hn)

/-- Element results of rising elements, with their mask, are placed as the results say. -/
theorem placed_elemWord (t : Ty) (res : List (Nat × Conv)) (h : res.Pairwise fun a b => a.1 < b.1) (hn : ∀ x ∈ res, x.1 < t.count) :
    Placed t res (elemWord t (res.map fun x => (x.1, x.2.1))) (elemMask t (res.map (·.1))) := by
  have find : ∀ {β : Type} (g : Nat × Conv → β) (i : Nat), ((res.map fun x => (x.1, g x)).find? fun x => x.1 == i) =
      (res.find? fun x => x.1 == i).map fun x => (x.1, g x) := by
    intro β g i
    rw [List.find?_map]; rfl
  have at_ : ∀ r ∈ res, (res.find? fun x => x.1 == r.1) = some r := by
    intro r hr
    clear find hn
    induction res with
    | nil => cases hr
    | cons x l ih =>
      rw [List.pairwise_cons] at h
      rcases List.mem_cons.mp hr with rfl | hr
      · rw [List.find?_cons_of_pos]; simp
      · rw [List.find?_cons_of_neg]
        · exact ih h.2 hr
        · have := h.1 r hr
          simp; omega
  have em : elemMask t (res.map (·.1)) = elemWord t (res.map fun x => (x.1, 2 ^ t.width - 1)) := by
    rw [elemMask_eq, List.map_map]; rfl
  have pw : ∀ g : Nat × Conv → Nat, (res.map fun x => (x.1, g x)).Pairwise fun a b => a.1 < b.1 := fun g => by
    rw [List.pairwise_map]; exact h
  have hw := Nat.two_pow_pos t.width
  refine ⟨fun r hr => ⟨?_, ?_⟩, fun n hlt hne => ?_, ?_⟩
  · rw [elem_elemWord t _ (pw _) _ (hn r hr), find, at_ r hr]; rfl
  · rw [em, elem_elemWord t _ (pw _) _ (hn r hr), find, at_ r hr]
    exact Nat.mod_eq_of_lt (by dsimp only; omega)
  · rw [em, elem_elemWord t _ (pw _) _ hlt, find, List.find?_eq_none.mpr]
    · rfl
    · intro r hr; simpa using hne r hr
  · rw [em]
    exact elemWord_lt t _ (pw _) fun x hx => by
      obtain ⟨y, hy, rfl⟩ := List.mem_map.mp hx
      exact hn y hy

/-- Bit `k` of a vector from the element that holds it. -/
theorem getLsbD_elem (t : Ty) (x : VWord) (i r : Nat) (h : r < t.width) : x.getLsbD (t.width * i + r) = (elem t x i).testBit r := by
  unfold elem bits
  rw [BitVec.getLsbD, Nat.testBit_mod_two_pow, Nat.testBit_div_two_pow, Nat.add_comm]
  simp [h]

/-- The mask of the enabled lanes, bit by bit. -/
theorem laneMask_bit (p : Word) (k : Nat) (h : k < 2048) : (laneMask p).getLsbD k = p.getLsbD (k / 32) := by
  have e : k = Ty.n32.width * (k / 32) + k % 32 := by show k = 32 * (k / 32) + k % 32; omega
  have hr : k % 32 < Ty.n32.width := by show k % 32 < 32; omega
  conv_lhs => rw [e]
  rw [getLsbD_elem _ _ _ _ hr]
  unfold laneMask
  rw [elemMask_eq, elem_elemWord]
  · rw [List.find?_map]
    have hf : ((List.range 64).filter fun j => p.getLsbD j).find? ((fun x : Nat × Nat => x.1 == k / 32) ∘ fun i => (i, 2 ^ Ty.n32.width - 1)) =
        if p.getLsbD (k / 32) then some (k / 32) else none := by
      cases hp : p.getLsbD (k / 32) with
      | false =>
        rw [if_neg (by simp), List.find?_eq_none]
        intro x hx
        rw [List.mem_filter] at hx
        simp only [Function.comp, beq_iff_eq]
        rintro rfl
        rw [hp] at hx; cases hx.2
      | true =>
        rw [if_pos rfl]
        have hs : (((List.range 64).filter fun j => p.getLsbD j).find? ((fun x : Nat × Nat => x.1 == k / 32) ∘ fun i => (i, 2 ^ Ty.n32.width - 1))).isSome = true := by
          rw [List.find?_isSome]
          exact ⟨k / 32, List.mem_filter.mpr ⟨List.mem_range.mpr (by omega), hp⟩, by simp⟩
        obtain ⟨y, hy⟩ := Option.isSome_iff_exists.mp hs
        have := List.find?_some hy
        simp only [Function.comp, beq_iff_eq] at this
        rw [hy, this]
    rw [hf]
    cases p.getLsbD (k / 32) with
    | false => simp
    | true =>
      have : ∀ r < 32, (((2 : Nat) ^ 32 - 1) % 2 ^ 32).testBit r = true := by decide
      exact this _ hr
  · rw [List.pairwise_map]
    exact List.Pairwise.imp (fun h => h) (List.Pairwise.filter _ List.pairwise_lt_range)
  · show k / 32 < 64; omega

/-! ## Dispatch -/

/-- What dispatch of a VE command can do (02 R38-R40). -/
theorem dispatchVe_spec (i : Instr) (regs : List SReg) (s : State) :
    let c : Cmd := ⟨i, regs.map s.sreg, s.scc.idx, s.cp.cseq, Rm.resolve s.fp.fpctl .dyn⟩
    let queued : State := (passed s).modVe fun r => { r with queue := r.queue ++ [c] }
    (missingFeature i s = true → dispatchVe i regs s = .next (trap s ⟨.illfeature, 0, 0⟩)) ∧
    (missingFeature i s = false → slotsDeclared i s = false → dispatchVe i regs s = .next (trap s ⟨.illegal, 0, 0⟩)) ∧
    (VeAllowed i s →
      (ready s regs = false → dispatchVe i regs s = .next (waiting s)) ∧
      (ready s regs = true →
        (∀ l, s.ve.recording = some l →
          (l.body.length < 64 → dispatchVe i regs s = .next ((passed s).modVe fun r => { r with
            recording := some { l with body := l.body ++ [c] } })) ∧
          (64 ≤ l.body.length → dispatchVe i regs s = .next (trap s ⟨.illegal, 0, 0⟩))) ∧
        (s.ve.recording = none →
          (32 ≤ s.ve.queue.length → dispatchVe i regs s = .next (waiting s)) ∧
          (s.ve.queue.length < 32 → (s.ve.queue ≠ [] ∨ s.ve.loop ≠ none ∨ s.core.regs.pend.ve ≠ none ∨ s.core.inOrder = false) →
            dispatchVe i regs s = .next queued) ∧
          (s.ve.queue = [] → s.ve.loop = none → s.core.regs.pend.ve = none → s.core.inOrder = true →
            dispatchVe i regs s = .next (veStep queued))))) := by
  intro c queued
  have hc : mkCmd i (regs.map s.sreg) s = c := rfl
  have hq : (retire s).modVe (fun r => { r with queue := r.queue ++ [c] }) = queued := rfl
  refine ⟨fun h => ?_, fun h1 h2 => ?_, fun ⟨h1, h2⟩ => ⟨fun h3 => ?_, fun h3 => ⟨fun l hl => ⟨fun h4 => ?_, fun h4 => ?_⟩, fun hl => ⟨fun h4 => ?_, fun h4 h5 => ?_, fun h4 h5 h6 h7 => ?_⟩⟩⟩⟩
  · unfold dispatchVe; rw [if_pos h]; rfl
  all_goals unfold dispatchVe
  · rw [if_neg (by simp [h1]), if_pos (by simp [h2])]; rfl
  all_goals rw [if_neg (by simp [h1]), if_neg (by simp [h2])]
  · rw [if_pos (by simp [h3])]; rfl
  all_goals rw [if_neg (by simp [h3])]; dsimp only; rw [hl, hc]; dsimp only
  · rw [if_pos h4]; rfl
  · rw [if_neg (by omega)]; rfl
  all_goals unfold queueVe
  · rw [if_pos h4]; rfl
  · rw [if_neg (by omega), if_neg, hq]
    intro hc
    simp only [veIdle, Bool.and_eq_true, List.isEmpty_iff, Option.isNone_iff_eq_none] at hc
    rcases h5 with h | h | h | h
    · exact h hc.1.1.1.2
    · exact h hc.1.1.2
    · exact h hc.2
    · rw [h] at hc; exact absurd hc.1.1.1.1 (by simp)
  · rw [if_neg (by rw [h4]; simp), if_pos (by simp [veIdle, h4, h5, h6, h7, hl])]
    have e1 : queued.ve.queue = [c] := by show s.ve.queue ++ [c] = [c]; rw [h4]; rfl
    have e2 : queued.core.regs.pend.ve = none := h6
    have e3 : headFirst queued c = true := by
      unfold headFirst loopIdx
      rw [show queued.ve.loop = none from h5, show queued.ve.recording = none from hl]
    unfold veStep
    rw [e2, e1]
    simp only [Option.isSome_none, Bool.false_eq_true, if_false, e3, if_true]
    have : queued.modVe (fun r => { r with queue := [] }) = retire s := by
      have h4' : s.core.regs.ve.queue = [] := h4
      show { retire s with core := { (retire s).core with regs := { s.core.regs with ve := { s.core.regs.ve with queue := [] }, scc := (retire s).core.regs.scc } } } = retire s
      rw [← h4']; rfl
    rw [this]

/-- Nothing holds a command of a free VE. -/
theorem veBlocked_free {s : State} (h : VeFree s) (c : Cmd) : veBlocked (passed s) c = false := by
  obtain ⟨_, _, _, _, _, h1, h2, h3, h4⟩ := h
  have e1 : meRanges (passed s) = [] := by
    unfold meRanges
    rw [show (passed s).me.run = none from h2, show (passed s).me.queue = [] from h1]; rfl
  have e2 : cpAllRanges (passed s) = [] := by
    unfold cpAllRanges cpRunRanges
    rw [show (passed s).cp.queue = [] from h3, show (passed s).cp.copies = [] from h4]; rfl
  unfold veBlocked conflicts
  rw [e1, e2]; simp

/-- A free VE performs what is dispatched, at once. -/
theorem dispatchVe_free {s : State} (h : VeFree s) {i : Instr} (ha : VeAllowed i s) {regs : List SReg} (hr : ready s regs = true) :
    dispatchVe i regs s = .next (match veRun (mkCmd i (regs.map s.sreg) s) (passed s) with
      | .done t => t
      | .wait t => t.modVe fun r => { r with queue := mkCmd i (regs.map s.sreg) s :: r.queue }
      | .stop t f mpc => veStop (t.modVe fun r => { r with queue := mkCmd i (regs.map s.sreg) s :: r.queue })
          (veCause (mkCmd i (regs.map s.sreg) s) f mpc)) := by
  have hb := veBlocked_free h (mkCmd i (regs.map s.sreg) s)
  obtain ⟨a1, a2, a3, a4, a5, _⟩ := h
  unfold dispatchVe
  rw [if_neg (by simp [ha.1]), if_neg (by simp [ha.2]), if_neg (by simp [hr])]
  dsimp only
  rw [a4]; dsimp only
  rw [queueVe_idle (by simp [veIdle, a1, a2, a3, a4, a5])]
  unfold vePerform veTry
  rw [hb, Bool.and_false, if_neg (by simp)]
  all_goals rfl

/-- A command that cannot be performed stands at the head again. -/
theorem veRes_stop {s : State} (h : VeFree s) (i : Instr) (vals : List Word) (e : Fail) :
    veStop ((passed s).modVe fun r => { r with queue := mkCmd i vals s :: r.queue }) (veCause (mkCmd i vals s) e 0) =
      veStopped i vals s e := by
  have : (passed s).core.regs.ve.queue = [] := h.2.1
  unfold veStop veStopped State.modVe State.modRegs
  simp only [this]; rfl

/-- Reading a source moves ports on and nothing else. -/
theorem readSrc_shape {s t : State} {c : VCode} {x : VWord} {f : Flags} (h : readSrc s c = .ok (x, t, f)) : ∃ p, t = s.modVe fun r => { r with ports := p } := by
  unfold readSrc at h
  split at h
  · simp only [Except.ok.injEq, Prod.mk.injEq] at h
    exact ⟨s.core.regs.ve.ports, h.2.1.symm⟩
  · split at h
    · cases h
    · split at h
      · cases h
      · split at h
        · cases h
        · simp only [Except.ok.injEq, Prod.mk.injEq] at h
          exact ⟨_, h.2.1.symm⟩

theorem readSrcs_shape {cs : List VCode} : ∀ {s t : State} {xs : List VWord} {f : Flags}, readSrcs s cs = .ok (xs, t, f) →
    ∃ p, t = s.modVe fun r => { r with ports := p } := by
  induction cs with
  | nil =>
    intro s t xs f h
    simp only [readSrcs, Except.ok.injEq, Prod.mk.injEq] at h
    exact ⟨s.core.regs.ve.ports, h.2.1.symm⟩
  | cons c cs ih =>
    intro s t xs f h
    rw [readSrcs] at h
    split at h
    · cases h
    · rename_i h1
      split at h
      · cases h
      · rename_i h2
        simp only [Except.ok.injEq, Prod.mk.injEq] at h
        obtain ⟨p, hp⟩ := readSrc_shape h1
        obtain ⟨q, hq⟩ := ih h2
        exact ⟨q, by rw [← h.2.1, hq, hp]; rfl⟩


/-- A destination that can be written can be written with anything. -/
theorem writeDst_any {u : State} {d : VCode} {v : State × Flags} (h : writeDst u d 0 0 = .ok v) (x m : VWord) :
    ∃ v g, writeDst u d x m = .ok (v, g) := by
  unfold writeDst at h ⊢
  split
  · exact ⟨_, _, rfl⟩
  · rename_i hc
    rw [if_neg hc] at h
    split at h
    · cases h
    · rename_i p hp
      split at h
      · rename_i hw; dsimp only; rw [if_pos hw]; exact ⟨_, _, rfl⟩
      · cases h


end Sys2Proof.Machine
end

