-- ==== Sys2Proof/Tests/Slice0.lean ====
section
/-! SUPPORT. The author's tests: an ill-formed term for each check of WellFormed, states that meet the hypotheses of each
statement, words written out from the encodings, and single steps whose values are worked out by hand from the rules. -/

namespace Sys2Proof.Tests

open Sys2Proof.Machine Sys2Proof.Safety

/-! ## Ill-formed terms -/

theorem test_wf_sa : let z : Sa := ⟨0, 0, 0⟩
    (∀ f ∈ ([.clz, .ctz, .popc, .brev, .ffcs, .bswap, .jr, .tlook, .tclr, .getres, .evwait, .evpop, .evpeek, .bararr, .spawn,
      .joinwait, .yield, .done, .tbound, .hintnext, .waitpred, .bufpass, .buftake, .buffree, .sqconfirm, .sqstate, .wclr,
      .zwait, .zdrop, .ztest, .rdcyc, .rdid, .rdfeat, .tlbinvCtx, .tlbinvAll, .halt, .wdogPet, .wdogExpire, .wdogCorerst,
      .wdogDierst, .featset, .parkpop] : List (Sa → Instr)), (f z).wf = true ∧ (f { z with b := 1 }).wf = false) ∧
    (∀ f ∈ ([.tset, .tclr, .barinit, .barexp, .barwait, .yield, .done, .hintnext, .waitpred, .bufpass, .buffree, .wclr,
      .zwait, .zdrop, .tlbinvCtx, .tlbinvPage, .tlbinvAll, .halt, .wdogPet, .wdogExpire, .wdogCorerst, .wdogDierst] : List (Sa
      → Instr)), (f z).wf = true ∧ (f { z with d := 1 }).wf = false) ∧
    (∀ f ∈ ([.getres, .evwait, .evpop, .evpeek, .done, .hintnext, .waitpred, .rdcyc, .rdid, .rdfeat, .tlbinvAll, .halt,
      .wdogPet, .wdogExpire] : List (Sa → Instr)), (f z).wf = true ∧ (f { z with a := 1 }).wf = false) ∧
    (∀ f ∈ ([.zwait, .zdrop, .ztest] : List (Sa → Instr)), (f z).wf = true ∧ (f { z with a := 16 }).wf = false) := by decide

theorem test_wf_si : let z : Si := ⟨0, 0, 0⟩
    (∀ f ∈ ([.ldi, .mfcr, .trapi, .brk] : List (Si → Instr)), (f z).wf = true ∧ (f { z with a := 1 }).wf = false) ∧
    (∀ f ∈ ([.mfcr, .mtcr] : List (Si → Instr)), (f z).wf = true ∧ (f { z with imm := 0x11 }).wf = false) ∧
    (∀ f ∈ ([.mfcr, .mtcr] : List (Si → Instr)), (f z).wf = true ∧ (f { z with imm := 0x41 }).wf = false) ∧
    (∀ f ∈ ([.mfcr, .mtcr] : List (Si → Instr)), (f z).wf = true ∧ (f { z with imm := 0x123 }).wf = false) ∧
    (∀ f ∈ ([.mfcr, .mtcr] : List (Si → Instr)), (f z).wf = true ∧ (f { z with imm := 0x4006 }).wf = false) ∧
    (∀ f ∈ ([.mfcr, .mtcr] : List (Si → Instr)), (f z).wf = true ∧ (f { z with imm := 0x5000 }).wf = false) ∧
    (∀ f ∈ ([.mtcr, .trapi, .brk] : List (Si → Instr)), (f z).wf = true ∧ (f { z with d := 1 }).wf = false) := by decide

theorem test_wf_sf : let z : Sf := ⟨0, 0, 0, 0⟩
    (∀ f ∈ ([.shli, .shri, .sari, .roli] : List (Sf → Instr)), (f z).wf = true ∧ (f { z with len6 := 1 }).wf = false) ∧
    (∀ f ∈ ([.ext, .extn, .ins, .insz] : List (Sf → Instr)), (f z).wf = true ∧ (f { z with pos := 1, len6 := 63 }).wf = false) := by decide

theorem test_wf_sac : let z : Sac := ⟨0, 0, 0, 0, 0, 0⟩
    (Instr.fsh z).wf = true ∧ (Instr.fsh { z with e := 1 }).wf = false ∧
    (Instr.fsh z).wf = true ∧ (Instr.fsh { z with fl6 := 1 }).wf = false ∧
    (Instr.spawnx z).wf = true ∧ (Instr.spawnx { z with fl6 := 32 }).wf = false := by decide

theorem test_wf_sm : let z : Sm := ⟨0, 0, 0, false, 0, .core⟩
    (∀ f ∈ ([.ldb, .ldbn, .ldh, .ldhn, .ldw, .ldwn, .ldd, .lda, .stb, .sth, .stw, .std, .stl] : List (Sm → Instr)), (f z).wf
      = true ∧ (f { z with slot := 1 }).wf = false) := by decide

theorem test_wf_act : let z : Act := ⟨0, 0, 0⟩
    (Instr.actset { z with cause := 1 }).wf = true ∧ (Instr.actset { z with cause := 0 }).wf = false ∧
    (Instr.actset { z with cause := 1 }).wf = true ∧ (Instr.actset { z with cause := 28 }).wf = false := by decide

theorem test_wf_va : let z : Va := ⟨0, 0, 0, 0, .f32⟩
    (∀ f ∈ ([.vadd, .vsub, .vmul, .vmin, .vmax] : List (Va → Instr)), (f z).wf = true ∧ (f { z with ty := .e5m2 }).wf = false) ∧
    (∀ f ∈ ([.vabs, .vneg, .vmov, .vexp2, .vlog2, .vrcp, .vrsq, .vsqrt, .vamax, .vredAdd, .vredMin, .vredMax, .vredAmax,
      .vld, .commit, .vlend, .pcnt, .vrand, .vseed] : List (Va → Instr)), (f z).wf = true ∧ (f { z with b := 1 }).wf = false) ∧
    (∀ f ∈ ([.vabs, .vneg] : List (Va → Instr)), (f z).wf = true ∧ (f { z with ty := .n32 }).wf = false) ∧
    (∀ f ∈ ([.vmov, .vsel, .vexp2, .vlog2, .vrcp, .vrsq, .vsqrt, .vand, .vor, .vxor, .vld, .vst, .vgath, .vscat, .commit,
      .vlend, .pcnt, .vrand, .vseed] : List (Va → Instr)), (f z).wf = true ∧ (f { z with ty := .bf16 }).wf = false) ∧
    (∀ f ∈ ([.vshl, .vshr, .vpopc, .vredAnd, .vredOr, .vredXor] : List (Va → Instr)), (f { z with ty := .i32 }).wf = true ∧
      (f { z with ty := .f32 }).wf = false) ∧
    (Instr.vsar { z with ty := .i32 }).wf = true ∧ (Instr.vsar { z with ty := .n8 }).wf = false ∧
    (∀ f ∈ ([.vpopc, .vredAnd, .vredOr, .vredXor] : List (Va → Instr)), (f { z with ty := .i32 }).wf = true ∧ (f
      { z with ty := .i32, b := 1 }).wf = false) ∧
    (∀ f ∈ ([.vamax, .commit, .vlend, .pcnt, .vseed] : List (Va → Instr)), (f z).wf = true ∧ (f { z with p := 1 }).wf = false) ∧
    (∀ f ∈ ([.vamax, .vredAmax] : List (Va → Instr)), (f z).wf = true ∧ (f { z with ty := .i32 }).wf = false) ∧
    (∀ f ∈ ([.vpack, .vunpk, .vshuf, .vrot, .vbcast, .vins] : List (Va → Instr)), (f z).wf = true ∧ (f
      { z with ty := .e3m2 }).wf = false) ∧
    (Instr.vshuf z).wf = true ∧ (Instr.vshuf { z with ty := .i4 }).wf = false ∧
    (∀ f ∈ ([.vredAdd, .vredMin, .vredMax, .vredAmax, .vst, .commit, .vlend, .pcnt, .vseed] : List (Va → Instr)), (f z).wf =
      true ∧ (f { z with d := 1 }).wf = false) ∧
    (∀ f ∈ ([.vredAdd, .vredMin, .vredMax] : List (Va → Instr)), (f z).wf = true ∧ (f { z with ty := .hb4 }).wf = false) ∧
    (∀ f ∈ ([.vredAnd, .vredOr, .vredXor] : List (Va → Instr)), (f { z with ty := .i32 }).wf = true ∧ (f
      { z with ty := .i32, d := 1 }).wf = false) ∧
    (∀ f ∈ ([.vld, .vgath, .vscat] : List (Va → Instr)), (f z).wf = true ∧ (f { z with d := 56 }).wf = false) ∧
    (∀ f ∈ ([.vld, .vst, .vgath, .vscat] : List (Va → Instr)), (f z).wf = true ∧ (f { z with a := 32 }).wf = false) ∧
    (∀ f ∈ ([.vgath, .vscat] : List (Va → Instr)), (f z).wf = true ∧ (f { z with b := 56 }).wf = false) ∧
    (∀ f ∈ ([.commit, .pcnt] : List (Va → Instr)), (f z).wf = true ∧ (f { z with a := 16 }).wf = false) ∧
    (∀ f ∈ ([.vlend, .vrand] : List (Va → Instr)), (f z).wf = true ∧ (f { z with a := 1 }).wf = false) := by decide

theorem test_wf_vg : let z : Vg := ⟨0, 0, 0, 0, .core⟩
    (Instr.vldg z).wf = true ∧ (Instr.vldg { z with d := 56 }).wf = false ∧
    (∀ f ∈ ([.vldg, .vstg] : List (Vg → Instr)), (f z).wf = true ∧ (f { z with a := 32 }).wf = false) ∧
    (Instr.vldg z).wf = true ∧ (Instr.vldg { z with b := 1 }).wf = false ∧
    (Instr.vstg z).wf = true ∧ (Instr.vstg { z with d := 1 }).wf = false := by decide

theorem test_wf_vl : let z : Vl := ⟨false, 0, 0⟩
    (Instr.vloop { z with s := 1 }).wf = true ∧ (Instr.vloop { z with s := 0 }).wf = false ∧
    (Instr.vloop { z with s := 1 }).wf = true ∧ (Instr.vloop { z with s := 9 }).wf = false := by decide

theorem test_wf_pr : let z : Pr := ⟨0, 0, 0⟩
    (Instr.pset z).wf = true ∧ (Instr.pset { z with a := 1 }).wf = false ∧
    (∀ f ∈ ([.pset, .pnot] : List (Pr → Instr)), (f z).wf = true ∧ (f { z with b := 1 }).wf = false) := by decide

theorem test_wf_vx_1 : let z : Vx := ⟨0, 0, 0, 0, .f32, 0, .rne, false, false, false, .f32, 0⟩
    (∀ f ∈ ([.vfma, .vfms, .vtopk] : List (Vx → Instr)), (f z).wf = true ∧ (f { z with ty := .i32 }).wf = false) ∧
    (∀ f ∈ ([.vfma, .vfms, .vcmp, .vtopk, .vdraw] : List (Vx → Instr)), (f z).wf = true ∧ (f { z with sat := true }).wf = false) ∧
    (∀ f ∈ ([.vfma, .vfms, .vcmp, .accwr, .vtopk, .vdraw] : List (Vx → Instr)), (f z).wf = true ∧ (f
      { z with dty := .bf16 }).wf = false) ∧
    (∀ f ∈ ([.vfma, .vfms, .vcvt, .vdraw] : List (Vx → Instr)), (f z).wf = true ∧ (f { z with aux := 1 }).wf = false) ∧
    (Instr.vcmp z).wf = true ∧ (Instr.vcmp { z with d := 16 }).wf = false ∧
    (∀ f ∈ ([.vcmp, .vcvt] : List (Vx → Instr)), (f z).wf = true ∧ (f { z with ty := .hb4 }).wf = false) ∧
    (∀ f ∈ ([.vcmp, .vcvt] : List (Vx → Instr)), (f z).wf = true ∧ (f { z with aux := 16 }).wf = false) ∧
    (∀ f ∈ ([.vcmp, .vcvt, .accrd, .accwr, .vtopk, .vdraw] : List (Vx → Instr)), (f z).wf = true ∧ (f { z with c := 1 }).wf =
      false) ∧
    (∀ f ∈ ([.vcmp, .vtopk, .vdraw] : List (Vx → Instr)), (f z).wf = true ∧ (f { z with rm := .rtz }).wf = false) ∧
    (∀ f ∈ ([.vcmp, .accwr, .vtopk, .vdraw] : List (Vx → Instr)), (f z).wf = true ∧ (f { z with fzo := true }).wf = false) ∧
    (Instr.vimad { z with ty := .i32, dty := .i32 }).wf = true ∧ (Instr.vimad { z with ty := .i32, dty := .n32 }).wf = false ∧
    (Instr.vimad { z with ty := .i32, dty := .i32 }).wf = true ∧ (Instr.vimad
      { z with ty := .i32, dty := .i32, rm := .rtz }).wf = false ∧
    (Instr.vimad { z with ty := .i32, dty := .i32 }).wf = true ∧ (Instr.vimad
      { z with ty := .i32, dty := .i32, fzi := true }).wf = false ∧
    (Instr.vimad { z with ty := .i32, dty := .i32 }).wf = true ∧ (Instr.vimad
      { z with ty := .i32, dty := .i32, fzo := true }).wf = false ∧
    (Instr.vimad { z with ty := .i32, dty := .i32 }).wf = true ∧ (Instr.vimad
      { z with ty := .i32, dty := .i32, aux := 1 }).wf = false ∧
    (∀ f ∈ ([.vcvt, .accrd, .accwr, .vdraw] : List (Vx → Instr)), (f z).wf = true ∧ (f { z with b := 1 }).wf = false) ∧
    (Instr.vcvt z).wf = true ∧ (Instr.vcvt { z with dty := .hb4 }).wf = false ∧
    (Instr.vcvt z).wf = true ∧ (Instr.vcvt { z with ty := .i8, aux := 4 }).wf = false ∧
    (Instr.vquant { z with dty := .e4m3 }).wf = true ∧ (Instr.vquant { z with dty := .e4m3, ty := .i32 }).wf = false ∧
    (Instr.vquant { z with dty := .e4m3 }).wf = true ∧ (Instr.vquant { z with dty := .e4m3, c := 56 }).wf = false ∧
    (Instr.vquant { z with dty := .e4m3 }).wf = true ∧ (Instr.vquant { z with dty := .e4m3, sat := true }).wf = false ∧
    (Instr.vquant { z with dty := .e4m3 }).wf = true ∧ (Instr.vquant { z with dty := .e4m3, aux := 4 }).wf = false ∧
    (Instr.vquant { z with dty := .e4m3 }).wf = true ∧ (Instr.vquant { z with dty := .f32 }).wf = false ∧
    (Instr.vquant { z with dty := .e4m3 }).wf = true ∧ (Instr.vquant { z with dty := .e4m3, b := 1 }).wf = false ∧
    (Instr.vquant { z with dty := .e4m3 }).wf = true ∧ (Instr.vquant { z with dty := .hb4, b := 56 }).wf = false ∧
    (Instr.vquant { z with dty := .e4m3 }).wf = true ∧ (Instr.vquant { z with dty := .hb4, fzo := true }).wf = false ∧
    (Instr.vquant { z with dty := .e4m3 }).wf = true ∧ (Instr.vquant { z with dty := .hb4, aux := 16 }).wf = false ∧
    (Instr.vquant { z with dty := .e4m3 }).wf = true ∧ (Instr.vquant { z with dty := .hb4, aux := 0xA0 }).wf = false := by decide

theorem test_wf_vx_2 : let z : Vx := ⟨0, 0, 0, 0, .f32, 0, .rne, false, false, false, .f32, 0⟩
    (Instr.vdeq { z with ty := .e4m3 }).wf = true ∧ (Instr.vdeq { z with ty := .e4m3, dty := .i32 }).wf = false ∧
    (Instr.vdeq { z with ty := .e4m3 }).wf = true ∧ (Instr.vdeq { z with ty := .e4m3, b := 56 }).wf = false ∧
    (Instr.vdeq { z with ty := .e4m3 }).wf = true ∧ (Instr.vdeq { z with ty := .e4m3, fzi := true }).wf = false ∧
    (Instr.vdeq { z with ty := .e4m3 }).wf = true ∧ (Instr.vdeq { z with ty := .e4m3, sat := true }).wf = false ∧
    (Instr.vdeq { z with ty := .e4m3 }).wf = true ∧ (Instr.vdeq { z with ty := .e4m3, aux := 4 }).wf = false ∧
    (Instr.vdeq { z with ty := .e4m3 }).wf = true ∧ (Instr.vdeq { z with ty := .i8 }).wf = false ∧
    (Instr.vdeq { z with ty := .e4m3 }).wf = true ∧ (Instr.vdeq { z with ty := .e4m3, c := 1 }).wf = false ∧
    (Instr.vdeq { z with ty := .e4m3 }).wf = true ∧ (Instr.vdeq { z with ty := .hb4, c := 56 }).wf = false ∧
    (Instr.vdeq { z with ty := .e4m3 }).wf = true ∧ (Instr.vdeq { z with ty := .hb4, aux := 32 }).wf = false ∧
    (Instr.accrd z).wf = true ∧ (Instr.accrd { z with d := 56 }).wf = false ∧
    (Instr.accrd z).wf = true ∧ (Instr.accrd { z with a := 1 }).wf = false ∧
    (∀ f ∈ ([.accrd, .vdraw] : List (Vx → Instr)), (f z).wf = true ∧ (f { z with p := 1 }).wf = false) ∧
    (∀ f ∈ ([.accrd, .vdraw] : List (Vx → Instr)), (f z).wf = true ∧ (f { z with ty := .bf16 }).wf = false) ∧
    (∀ f ∈ ([.accrd, .vdraw] : List (Vx → Instr)), (f z).wf = true ∧ (f { z with fzi := true }).wf = false) ∧
    (Instr.accrd z).wf = true ∧ (Instr.accrd { z with dty := .i4 }).wf = false ∧
    (∀ f ∈ ([.accrd, .accwr] : List (Vx → Instr)), (f z).wf = true ∧ (f { z with aux := 4 }).wf = false) ∧
    (Instr.accwr z).wf = true ∧ (Instr.accwr { z with d := 1 }).wf = false ∧
    (Instr.accwr z).wf = true ∧ (Instr.accwr { z with ty := .n32 }).wf = false ∧
    (Instr.accwr z).wf = true ∧ (Instr.accwr { z with aux := 0x1000 }).wf = false ∧
    (Instr.gcfg { z with d := 56 }).wf = true ∧ (Instr.gcfg { z with d := 55 }).wf = false ∧
    (Instr.gcfg { z with d := 56 }).wf = true ∧ (Instr.gcfg { z with d := 56, b := 1 }).wf = false ∧
    (Instr.gcfg { z with d := 56 }).wf = true ∧ (Instr.gcfg { z with d := 56, p := 1 }).wf = false ∧
    (Instr.gcfg { z with d := 56 }).wf = true ∧ (Instr.gcfg { z with d := 56, ty := .bf16 }).wf = false ∧
    (Instr.gcfg { z with d := 56 }).wf = true ∧ (Instr.gcfg { z with d := 56, c := 1 }).wf = false ∧
    (Instr.gcfg { z with d := 56 }).wf = true ∧ (Instr.gcfg { z with d := 56, rm := .rtz }).wf = false ∧
    (Instr.gcfg { z with d := 56 }).wf = true ∧ (Instr.gcfg { z with d := 56, fzi := true }).wf = false ∧
    (Instr.gcfg { z with d := 56 }).wf = true ∧ (Instr.gcfg { z with d := 56, fzo := true }).wf = false ∧
    (Instr.gcfg { z with d := 56 }).wf = true ∧ (Instr.gcfg { z with d := 56, sat := true }).wf = false := by decide

theorem test_wf_vx_3 : let z : Vx := ⟨0, 0, 0, 0, .f32, 0, .rne, false, false, false, .f32, 0⟩
    (Instr.gcfg { z with d := 56 }).wf = true ∧ (Instr.gcfg { z with d := 56, dty := .bf16 }).wf = false ∧
    (Instr.gcfg { z with d := 56 }).wf = true ∧ (Instr.gcfg { z with d := 56, aux := 4 }).wf = false ∧
    (∀ f ∈ ([.vtopk, .vdraw] : List (Vx → Instr)), (f z).wf = true ∧ (f { z with d := 32 }).wf = false) ∧
    (Instr.vtopk z).wf = true ∧ (Instr.vtopk { z with b := 32 }).wf = false ∧
    (Instr.vtopk z).wf = true ∧ (Instr.vtopk { z with aux := 2 }).wf = false ∧
    (Instr.vtopk z).wf = true ∧ (Instr.vtopk { z with aux := 0x100 }).wf = false ∧
    (Instr.vdraw z).wf = true ∧ (Instr.vdraw { z with a := 56 }).wf = false := by decide

theorem test_wf_mm : let z : Mm := ⟨0, 0, 0, 0⟩
    (∀ f ∈ ([.mcfg, .mstat] : List (Mm → Instr)), (f z).wf = true ∧ (f { z with acc := 1 }).wf = false) ∧
    (∀ f ∈ ([.mcfg, .mma] : List (Mm → Instr)), (f z).wf = true ∧ (f { z with fl := 1 }).wf = false) ∧
    (Instr.mcfg z).wf = true ∧ (Instr.mcfg { z with fid := 18 }).wf = false ∧
    (∀ f ∈ ([.mma, .mspa, .mzero, .mstat] : List (Mm → Instr)), (f z).wf = true ∧ (f { z with s := 1 }).wf = false) ∧
    (∀ f ∈ ([.mma, .mspa, .mzero, .mdrain] : List (Mm → Instr)), (f z).wf = true ∧ (f { z with fid := 1 }).wf = false) ∧
    (Instr.mmaAcca { z with fl := 3 }).wf = true ∧ (Instr.mmaAcca { z with fl := 2 }).wf = false ∧
    (Instr.mmaAcca { z with fl := 3 }).wf = true ∧ (Instr.mmaAcca { z with fl := 11 }).wf = false ∧
    (Instr.mmaAcca { z with fl := 3 }).wf = true ∧ (Instr.mmaAcca { z with fl := 3, s := 1 }).wf = false ∧
    (Instr.mmaAcca { z with fl := 3 }).wf = true ∧ (Instr.mmaAcca { z with fl := 3, fid := 1 }).wf = false ∧
    (Instr.mmaAcca { z with fl := 3 }).wf = true ∧ (Instr.mmaAcca { z with fl := 3, acc := 1 }).wf = false ∧
    (Instr.mspa z).wf = true ∧ (Instr.mspa { z with fl := 3 }).wf = false ∧
    (∀ f ∈ ([.mspa, .mdrain] : List (Mm → Instr)), (f z).wf = true ∧ (f { z with fl := 8 }).wf = false) ∧
    (∀ f ∈ ([.mzero, .mdrain, .mstat] : List (Mm → Instr)), (f z).wf = true ∧ (f { z with fl := 2 }).wf = false) ∧
    (Instr.mdrainMerge { z with fl := 2 }).wf = true ∧ (Instr.mdrainMerge { z with fl := 3 }).wf = false ∧
    (Instr.mdrainMerge { z with fl := 2 }).wf = true ∧ (Instr.mdrainMerge { z with fl := 2, fid := 1 }).wf = false ∧
    (Instr.mstat z).wf = true ∧ (Instr.mstat { z with fid := 7 }).wf = false := by decide

theorem test_wf_cx : let z : Cx := ⟨0, 0, 0, 0, false, false, false, 0, 0, 0, 0, 0, false, false⟩
    (∀ f ∈ ([.copy, .cpb, .cph, .subs, .pull] : List (Cx → Instr)), (f z).wf = true ∧ (f { z with xf := 15 }).wf = false) ∧
    (∀ f ∈ ([.copy, .copyf, .atom, .atomf, .subs, .unsub, .pull, .rrot, .pref, .invc, .wbc] : List (Cx → Instr)), (f z).wf =
      true ∧ (f { z with za := 1 }).wf = false) ∧
    (∀ f ∈ ([.copy, .copyf, .cpb, .atom, .atomf, .subs, .unsub, .pull, .rrot, .pref, .invc, .wbc] : List (Cx → Instr)), (f
      z).wf = true ∧ (f { z with zb := 1 }).wf = false) ∧
    (∀ f ∈ ([.copyf, .unsub, .rrot, .pref, .invc, .wbc] : List (Cx → Instr)), (f z).wf = true ∧ (f { z with xf := 1 }).wf = false) ∧
    (∀ f ∈ ([.copyf, .atom, .unsub, .rrot, .pref, .invc, .wbc] : List (Cx → Instr)), (f z).wf = true ∧ (f
      { z with sd := 1 }).wf = false) ∧
    (∀ f ∈ ([.copyf, .atom, .atomf, .unsub, .rrot, .pref, .invc, .wbc] : List (Cx → Instr)), (f z).wf = true ∧ (f
      { z with chk := true }).wf = false) ∧
    (∀ f ∈ ([.atom, .atomf] : List (Cx → Instr)), (f z).wf = true ∧ (f { z with xf := 16 }).wf = false) ∧
    (∀ f ∈ ([.atom, .atomf, .subs, .unsub, .pref, .invc, .wbc] : List (Cx → Instr)), (f z).wf = true ∧ (f
      { z with se := 1 }).wf = false) ∧
    (∀ f ∈ ([.atom, .atomf, .subs, .unsub, .pull, .rrot, .pref, .invc, .wbc] : List (Cx → Instr)), (f z).wf = true ∧ (f
      { z with fol := true }).wf = false) ∧
    (∀ f ∈ ([.atom, .atomf, .subs, .unsub] : List (Cx → Instr)), (f z).wf = true ∧ (f { z with sc := 1 }).wf = false) ∧
    (Instr.unsub z).wf = true ∧ (Instr.unsub { z with sa := 1 }).wf = false ∧
    (∀ f ∈ ([.pref, .invc, .wbc] : List (Cx → Instr)), (f z).wf = true ∧ (f { z with sb := 1 }).wf = false) ∧
    (∀ f ∈ ([.pref, .invc, .wbc] : List (Cx → Instr)), (f z).wf = true ∧ (f { z with rel := true }).wf = false) ∧
    (∀ f ∈ ([.pref, .invc, .wbc] : List (Cx → Instr)), (f z).wf = true ∧ (f { z with acq := true }).wf = false) := by decide

/-! ## States that meet the hypotheses of the statements

Each theorem `test_hyp_<statement>` shows states and operands that meet the hypotheses of that statement, clause by clause, at
the boundary values of their ranges. -/

/-- A core that runs a privileged task of context 0, its engines at rest, its page the first 64 MiB of its die. -/
def running : State := placeWords State.reset .scal 0x04630010 0
/-- The same with something else in its task. -/
def withTask (f : Task → Task) (s : State) : State := s.modCore fun c => { c with task := c.task.map f }
/-- The same task in the unprivileged view. -/
def user : State := withTask (fun t => { t with privileged := false }) running
/-- The same with scalar registers written. -/
def withRegs (l : List (SReg × Word)) (s : State) : State :=
  s.modScc fun r => { r with s := l.foldl (fun v x => v.set x.1 x.2) r.s }
/-- An access in flight that will write s3 and holds wait slot 2. -/
def flight : Flight := ⟨0x8000000000000000, 8, false, 0, 3, false, some 2, .core, 0, none, false, false⟩
/-- The same machine, whose accesses wait for turns, with that access in flight. -/
def busy : State := (running.modOrd fun r => { r with flights := [flight] }).modCore fun c => { c with inOrder := false }
/-- A state in which no feature is accepted. -/
def bare : State := running.modDie 0 fun d => { d with featon := 0 }
/-- A core without a task, and core 0 with one. -/
def idle : State := State.reset
/-- s6 holds an address of the own scratchpad. -/
def spad (off : Nat) (s : State) : State := withRegs [(6, BitVec.ofNat 64 (0x8000000000000000 + off))] s

/-- Without poison every access is sound. -/
theorem sound_of_no_poison {s : State} {n : Nat} {k : Nat → Nat} (h : s.poison = []) : Sound s n k :=
  fun _ _ => by rw [h]; exact List.not_mem_nil

theorem test_hyp_AluGroup : ready running [3, 4, 5] = true := by decide

theorem test_hyp_ImmediateForms : ready running [3, 4] = true ∧ ready running [31] = true := by decide

theorem test_hyp_ShiftsFieldsAndBits : let o : Sf := ⟨3, 4, 0, 63⟩
    ready running [3, 4] = true ∧ (⟨3, 4, 63, 0⟩ : Sf).len6 = 0 ∧ o.pos.val + (o.len6.val + 1) ≤ 64 ∧ 64 < 1 + (o.len6.val + 1) ∧
    (⟨3, 4, 0⟩ : Sa).b = 0 ∧ ready running [3, 4, 5, 6] = true ∧
    (⟨3, 4, 5, 0⟩ : Sf2).sh.val ≤ onesIn (running.sreg 4) := by decide

theorem test_hyp_RegistersAndInterlock : ready busy [3, 4, 5] = false ∧ ready busy [3, 4] = false := by decide

theorem test_hyp_ConditionalBranches :
    condTrue .eq (running.sreg 3) (running.sreg 4) ∧ ¬condTrue .ne (running.sreg 3) (running.sreg 4) ∧
    goodTarget running (running.scc.pcq0.addr + BitVec.ofInt 64 (4 * (BitVec.toInt (1 : BitVec 11)))) ∧
    ¬goodTarget running (running.scc.pcq0.addr + BitVec.ofInt 64 (4 * (BitVec.toInt (-1 : BitVec 11)))) := by
  refine ⟨rfl, fun h => h rfl, ⟨by decide, by decide, by decide, ?_⟩, fun h => h.1 rfl⟩
  rintro ⟨l, hl, hc⟩
  have : (match fetchLine running 0 with | .ok l => l.cls 2 == some .cont | .error _ => false) = false := by decide +kernel
  rw [show fetchLine running 0 = .ok l from hl] at this
  simp [show l.cls 2 = some .cont from hc] at this

theorem test_hyp_JumpsAndLinks : ready running [1] = true ∧ ready (withRegs [(6, 0x40)] running) [0, 6] = true ∧
    ¬goodTarget running (running.sreg 6) := ⟨by decide, by decide, fun h => h.1 rfl⟩

theorem test_hyp_ScalarLoads : let o : Sm := ⟨5, 6, 0, false, 0, .core⟩
    let s := spad 0x7FFFF8 running
    ready s [o.t, o.a] = true ∧ s.core.inOrder = true ∧ (smAddress o 8 s).toNat % 8 = 0 ∧
    Reach s .read 8 (smAddress o 8 s) (fun i => spadAt s.core (0x7FFFF8 + i)) ∧ Sound s 8 (fun i => spadAt s.core (0x7FFFF8 + i)) :=
  ⟨by decide, rfl, by decide, .own 0x7FFFF8 (by decide) (.inl (by decide)), sound_of_no_poison rfl⟩

theorem test_hyp_AcquireLoad : let o : Sm := ⟨5, 6, 0, false, 0, .fabric⟩
    let s := spad 0 running
    ready s [o.t, o.a] = true ∧ (smAddress o 8 s).toNat % 8 = 0 ∧ Reach s .read 8 (smAddress o 8 s) (fun i => spadAt s.core (0 + i)) ∧
    Sound s 8 (fun i => spadAt s.core (0 + i)) :=
  ⟨by decide, by decide, .own 0 (by decide) (.inl (by decide)), sound_of_no_poison rfl⟩

theorem test_hyp_ScalarStores : let o : Sm := ⟨5, 6, 0, false, 0, .core⟩
    let s := spad 8 running
    Memory.wf s.mem = true ∧ ready s [o.t, o.a] = true ∧ s.core.inOrder = true ∧ (smAddress o 1 s).toNat % 1 = 0 ∧
    Reach s .write 1 (smAddress o 1 s) (fun i => spadAt s.core (8 + i)) :=
  ⟨by decide +kernel, by decide, rfl, by decide, .own 8 (by decide) (.inl (by decide))⟩

theorem test_hyp_ReleaseStore : let o : Sm := ⟨5, 6, 0, true, 7, .package⟩
    let s := spad 8 running
    let t := s.modOrd fun r => { r with release := some ⟨false, 0, .core, 0, 0, 0, none⟩ }
    Memory.wf s.mem = true ∧ ready s [o.t, o.a] = true ∧ (smAddress o 8 s).toNat % 8 = 0 ∧
    Reach s .write 8 (smAddress o 8 s) (fun i => spadAt s.core (8 + i)) ∧ t.ord.release ≠ none ∧
    (s.ord.release = none ∧ s.core.inOrder = true ∧ doneBefore s s.scc.idx = true) ∧ busy.ord.release = none ∧ busy.core.inOrder = false :=
  ⟨by decide +kernel, by decide, by decide, .own 8 (by decide) (.inl (by decide)), by decide, ⟨rfl, rfl, by decide⟩, rfl, rfl⟩

theorem test_hyp_AccessCauses :
    let at_ (a : Word) : State := withRegs [(6, a)] running
    let a (x : Word) : Nat := (smAddress ⟨5, 6, 0, false, 0, .core⟩ 8 (at_ x)).toNat
    a 0x8000000000000001 % 8 ≠ 0 ∧ (a (2 ^ 57) % 8 = 0 ∧ 2 ^ 57 ≤ a (2 ^ 57) ∧ a (2 ^ 57) < 2 ^ 63) ∧
    (a 0x8010000000000000 = 0x8010000000000000 + 0 ∧
      (withTask (fun t => { t with obj := { t.obj with slots := 0 } }) (at_ 0x8010000000000000)).declares (0 / 2 ^ 17) = false) ∧
    (a 0x8020000700000000 = 0x8020000000000000 + 7 * 2 ^ 32 + 0 ∧ 7 ≠ running.core.agent.val % 8 ∧
      running.disabled (peerAgent running.core.agent 7) = false ∧ (running.coreAt (peerAgent running.core.agent 7)).resident = none ∧
      { running with harvest := running.harvest.set 0 0x80 }.disabled (peerAgent running.core.agent 7) = true ∧
      ((running.setCoreAt 7 { Core.reset 7 with resident := some 63 }).coreAt 7).resident = some 63) ∧
    a (2 ^ 57 - 8) < 2 ^ 57 ∧
    (match translate running (some running.core) 0 0 true .read (2 ^ 57 - 8) with | .error _ => true | .ok _ => false) = true := by
  decide +kernel

theorem test_hyp_AccessesInFlight :
    let f : Flight := { flight with addr := 2 ^ 57 - 8 }
    let faulty := running.modOrd fun r => { r with flights := [f] }
    let done := running.modOrd fun r => { r with flights := [{ flight with value := some 7 }] }
    (ready running [5, 6] = true ∧ busy.core.inOrder = false) ∧
    ((busy.focus 0).ord.flights[0]? = some flight ∧ flight.value = none ∧ flight.acq = false ∧ flight.rel = false ∧
      flight.size ∈ [1, 2, 4, 8] ∧ flight.addr.toNat % flight.size = 0 ∧ flight.store = false ∧ Memory.wf (busy.focus 0).mem = true) ∧
    ((done.focus 0).ord.flights[0]? = some { flight with value := some 7 }) ∧
    ((faulty.focus 0).ord.flights[0]? = some f ∧ f.addr.toNat < 2 ^ 57 ∧ (faulty.focus 0).core.task ≠ none ∧
      (faulty.focus 0).core.regs.pend.late.length < 16 ∧
      (match translate (faulty.focus 0) (some (faulty.focus 0).core) 0 0 true .read f.addr.toNat with | .error _ => true | .ok _ => false) = true) := by
  decide +kernel

theorem test_hyp_WaitsAndFences : slotIdle running 2 ∧ ¬slotIdle busy 2 ∧ PathDone running .s ∧ ¬PathDone busy .s :=
  ⟨⟨fun _ h => (List.not_mem_nil h).elim, fun _ h => nomatch h⟩, fun h => h.1 flight (by decide) rfl, ⟨rfl, rfl, fun _ h => nomatch h⟩,
    fun h => nomatch h.1⟩

theorem test_hyp_TagTable :
    let hit := running.modCore fun c => { c with ttab := [(1023, (0, true))], hand := 1 }
    let none_ := running.modCore fun c => { c with ttcfg := 0x7FF006 }
    let usable (s : State) : Nat := min 1024 ((2 ^ 23 - s.core.ttcfg.toNat / 2 ^ 12 % 2 ^ 11 * 4096) / (4096 * 2 ^ (s.core.ttcfg.toNat % 8)))
    usable hit = 1024 ∧ usable none_ = 0 ∧ (∃ e ∈ hit.core.ttab, e.1 < usable hit ∧ e.2.1 = 0) ∧
    (∀ e ∈ running.core.ttab, ¬(e.1 < usable running ∧ e.2.1 = 0)) ∧ 0 < usable running ∧ ready running [3, 4, 5] = true ∧
    (withRegs [(5, 1023)] running |>.sreg 5).toNat < usable running ∧ usable running ≤ (withRegs [(5, 1024)] running |>.sreg 5).toNat ∧
    (withRegs [(5, BitVec.allOnes 64)] running).sreg 5 = BitVec.allOnes 64 := by decide +kernel

/-- The VE is free. -/
theorem test_ve_free : VeFree running := ⟨rfl, rfl, rfl, rfl, rfl, rfl, rfl, rfl, rfl⟩
/-- The ME is free. -/
theorem test_me_free : MeFree running := by unfold MeFree; decide +kernel
/-- The copy engines are free, and no command has work left in another engine. -/
theorem test_cp_free : CpFree running ∧ UnitsIdle running := by unfold CpFree UnitsIdle; decide +kernel

theorem test_hyp_EventsResultsAndBounds : ready running [3] = true ∧ running.cp.events = [] ∧
    (running.modCp fun c => { c with events := [7] }).cp.events = 7 :: [] ∧ running.ve.queue = [] ∧ running.me.run = none ∧
    (running.modVe fun r => { r with queue := [⟨.pset ⟨1, 0, 0⟩, [], 0, 0, .rne⟩] }).ve.queue ≠ [] := by decide

theorem test_hyp_ControlRegisterReads : ready running [3] = true ∧ running.core.task = some { placedTask with home := 0 } ∧
    running.isPriv = true ∧ user.isPriv = false ∧ running.ve.queue = [] ∧ running.me.queue = [] ∧
    (running.modVe fun r => { r with queue := [⟨.pset ⟨1, 0, 0⟩, [], 0, 0, .rne⟩] }).ve.queue ≠ [] ∧
    (∀ n ∈ [0x0, 0x10, 0x20, 0x3F, 0x40, 0x100, 0x107, 0x10A, 0x10F, 0x119, 0x11C, 0x122, 0x4000, 0x4FC5, 0x11, 0x1F, 0x41, 0xFF, 0x123, 0x3FFF, 0x4006,
      0x5000, 0xFFFF], (⟨3, 0, BitVec.ofNat 16 n⟩ : Si).imm.toNat = n) := by decide +kernel

theorem test_hyp_WritesUnprivileged : ready running [6] = true ∧ running.cp.queue = [] ∧
    (∀ c ∈ running.cp.copies, c.cmd.isLocal = false) ∧
    (∀ n ∈ [0, 7, 8, 9, 0xA, 0xB, 0xC, 0xF, 0x10, 0x20, 0x3F], (⟨0, 6, BitVec.ofNat 16 n⟩ : Si).imm.toNat = n) := by decide +kernel

theorem test_hyp_WritesPrivileged : ready running [6] = true ∧ running.isPriv = true ∧ user.isPriv = false ∧
    (∀ n ∈ [0x40, 0x100, 0x122, 0x4000, 0x4FC5], let k := (⟨0, 6, BitVec.ofNat 16 n⟩ : Si).imm.toNat
      (0x40 ≤ k ∧ k ≤ 0x122 ∨ 0x4000 ≤ k ∧ k < 0x5000 ∧ k % 64 < 6) ∧ ¬(0x40 < k ∧ k < 0x100)) ∧
    ((0xFF : BitVec 16).toNat < 0x100) := by decide +kernel

/-- A barrier object at offset 0 of the own scratchpad that expects `e` arrivals and has had `n`. -/
def barrier (e n : Nat) (phase : Bool) : State := barWrite (spad 0 running) 0 0 ⟨e, n, phase, false, 0, 0⟩

theorem test_hyp_barrier_at (s : State) (h : s.core.agent = 0) (p : s.poison = []) : BarrierAt s 0x8000000000000000 0 0 ∧
    BarrierAt s (0x8000000000000000 + 0x7FFFF0) 0 0x7FFFF0 :=
  ⟨⟨by decide, by decide, .inl ⟨h.symm, .inl (by decide)⟩, by simp [p]⟩, ⟨by decide, by decide, .inl ⟨h.symm, .inl (by decide)⟩, by simp [p]⟩⟩

theorem test_hyp_BarrierObjects : let s := barrier 65535 65534 true
    let v (x : Word) : Word := (withRegs [(7, x)] s).sreg 7
    (s.core.agent = 0 ∧ s.poison = [] ∧ s.sreg 6 = 0x8000000000000000) ∧ s.ord.release = none ∧ ready s [6, 7] = true ∧ ready s [5, 6, 7] = true ∧
    ((v 0xFFFFFFFF).toNat < 2 ^ 32 ∧ (v 0xFFFFFFFF).toNat % 2 ^ 16 ≠ 0) ∧ (2 ^ 32 ≤ (v 0x100000000).toNat ∧ (v 0x10000).toNat % 2 ^ 16 = 0) ∧
    (v 0xFFFFFFFFFF).toNat < 2 ^ 40 ∧ 2 ^ 40 ≤ (v 0x10000000000).toNat ∧
    (s.modScc fun r => { r with barrier := some (0, 0, some []) }).scc.barrier = some (0, 0, some []) ∧ s.scc.barrier = none ∧
    ((barRead s 0 0).overrun = false ∧ (barRead s 0 0).phase ≠ (v 0).getLsbD 0 ∧ (barRead s 0 0).phase = (v 1).getLsbD 0) ∧
    (barRead (barWrite s 0 0 ⟨1, 1, false, true, 0, 0⟩) 0 0).overrun = true ∧ Memory.wf s.mem = true := by decide +kernel

theorem test_hyp_BarrierArrivals : let s := barrier 2 1 false
    let p : PendingRel := ⟨true, 5, .clearing, 0x8000000000000000, 0, 0, none⟩
    let w := s.modOrd fun r => { r with release := some p }
    let late := (s.modScc fun r => { r with barrier := some (0, 0, none), hold := some 0 }).modDie 0 fun d => { d with cycle := 16777217 }
    ready s [5, 6] = true ∧ w.ord.release ≠ none ∧ (s.ord.release = none ∧ doneBefore s s.scc.idx = true ∧ s.core.inOrder = true) ∧
    (barRead s 0 0).arrived + 1 ≤ (barRead s 0 0).expect ∧ (barRead (barrier 2 2 false) 0 0).expect < (barRead (barrier 2 2 false) 0 0).arrived + 1 ∧
    ((busy.focus 0).ord.release = none ∧ (busy.focus 0).core.inOrder = false) ∧
    ((w.focus 0).ord.release = some p ∧ p.arrive = true ∧ doneBefore (w.focus 0) p.idx = true ∧ (w.focus 0).poison = [] ∧
      (barRead (w.focus 0) 0 0).arrived + 1 ≤ (barRead (w.focus 0) 0 0).expect) ∧
    (let c := barRead (barrier 2 2 false) 0 0
     c.arrived = c.expect ∧ c.pending = 0 ∧ c.overrun = false) ∧ (barRead s 0 0).arrived ≠ (barRead s 0 0).expect ∧
    (let u := late.focus 0
     u.scc.barrier = some (0, 0, none) ∧ u.scc.hold = some 0 ∧ u.die.bartmo.toNat ≠ 0 ∧ u.die.bartmo.toNat < u.die.cycle.toNat - 0) ∧
    ¬(16777216 < (16777216 : Word).toNat - 0) := by decide +kernel

theorem test_hyp_Spawning : let s := withRegs [(6, 0x8000000000000000), (7, 2), (8, 2)] running
    let bad := withRegs [(6, 1)] running
    (∃ t, s.core.task = some t ∧ t.obj.stageCount ≤ 3 ∧ t.childJoin = 0) ∧ ready s [5, 6] = true ∧ s.scc.sent = false ∧
    (bad.sreg 6).toNat % 64 ≠ 0 ∧ (s.sreg 6).toNat % 64 = 0 ∧
    (Reach s .read 64 (s.sreg 6) (fun i => spadAt s.core (0 + i)) ∧ Sound s 64 (fun i => spadAt s.core (0 + i)) ∧
      ¬∃ off < 2 ^ 19, (s.sreg 6).toNat = 0x8010000000000000 + off) ∧
    (ready s [5, 7, 8, 0, 0] = true ∧ allDone s = true ∧ storeFree s 0 = true ∧ (s.joinAt 0).expected < 2 ^ 24 - 1 ∧
      (s.sreg 7).toNat = (s.sreg 8).toNat ∧ (s.sreg 0).toNat ≠ (s.sreg 8).toNat ∧ (s.sreg 8).toNat ≤ 2 ^ 48) ∧
    ((s.modScc fun r => { r with sent := true }).scc.sent = true ∧ s.scc.answer = none ∧
      (s.modScc fun r => { r with sent := true, answer := some 9 }).scc.answer = some 9) :=
  ⟨⟨_, rfl, by decide, rfl⟩, by decide, rfl, by decide, by decide,
    ⟨.own 0 (by decide) (.inl (by decide)), sound_of_no_poison rfl,
      by rintro ⟨off, h, e⟩; have : (0x8000000000000000 : Nat) = 0x8010000000000000 + off := e; omega⟩,
    by decide, ⟨rfl, rfl, rfl⟩⟩

/-- A launch whose record is in slot 0, with a predecessor that has completed or not. -/
def launch (n : Nat) (pred : Option Nat) (complete : Bool) : Launch :=
  ⟨0, 0, BitVec.ofNat 8 n, 0, [], 1, 0, false, false, false, 0, pred.isSome, 0, pred, false, complete⟩
/-- A task of launch 1, whose predecessor is launch 0. -/
def follower (complete : Bool) : State :=
  { withTask (fun t => { t with launch := some 1, childJoin := 1 }) running with
    launches := [launch 0 none complete, launch 1 (some 0) false], joins := [⟨0, 0, 0, 0, []⟩, ⟨2, 1, 0, 0, []⟩] }

theorem test_hyp_JoinsAndLaunches : let s := follower true
    let l := launch 1 (some 0) false
    let live := running.modVe fun r => { r with loop := some ⟨true, 1, [], ⟨.vloop ⟨true, 0, 1⟩, [], 0, 0, .rne⟩, 0, 0, 0, 0, 0⟩ }
    ready s [5, 6] = true ∧ (s.joinAt 1).ended ≠ (s.joinAt 1).expected ∧ (running.joinAt 0).ended = (running.joinAt 0).expected ∧
    (withRegs [(6, 1)] live |>.sreg 6).toNat ≠ 0 ∧ (∃ l, live.ve.loop = some l ∧ l.live = true) ∧ (running.sreg 6).toNat = 0 ∧
    (running.core.task.map (·.launch) = some none) ∧ (s.core.task.map (·.launch) = some (some 1)) ∧ s.launches[1]? = some l ∧
    (launch 0 none true).hasPred = false ∧ l.hasPred = true ∧ l.pred = some 0 ∧ (s.launches[0]?.map (·.complete) = some true) ∧
    ((follower false).launches[0]?.map (·.complete) = some false) :=
  ⟨by decide, by decide, by decide, by decide, ⟨_, rfl, rfl⟩, by decide, by decide, by decide, rfl, rfl, rfl, rfl, rfl, rfl⟩

theorem test_hyp_EndsOfTasks : let y := running.modCore fun c => { c with yreq := some 0 }
    let room := (y.modDie 0 fun d => { d with savearea := 0x10000, savelen := 0x10000000 })
    running.core.task ≠ none ∧ ready running [6] = true ∧ 4 ≤ ((withRegs [(6, 4)] running).sreg 6).toNat ∧
    ((withRegs [(6, 3)] running).sreg 6).toNat < 4 ∧ running.core.yreq = none ∧ y.core.yreq ≠ none ∧ yieldReady y = true ∧
    (let z := busy.modCore fun c => { c with yreq := some 0 }
     z.core.yreq ≠ none ∧ yieldReady z = false) ∧
    roomFor y 0 (imageSize placedObj true true) = none ∧ roomFor room 0 (imageSize placedObj true true) = some 0x10000 ∧
    room.core.parkReq = false ∧ (room.modCore fun c => { c with parkReq := true }).core.parkReq = true ∧
    allDone running = true ∧ allDone (busy.modScc fun r => { r with idx := 1 }) = false ∧ placedTask.privileged = true ∧ user.isPriv = false := by
  decide +kernel

/-- A task of stage 0 of a launch with two stages, with one buffer of 64 bytes. -/
def staged (role : Role) (bound bytes : Nat) (b : PoolBuf) : State :=
  (withTask (fun t => { t with launch := some 0, obj := { t.obj with stages := [⟨.compute, bound, 0, 64⟩, ⟨role, bound, 0, bytes⟩] } }) running).modCore
    fun c => { c with pool := [b] }

theorem test_hyp_StageBuffers : let b : PoolBuf := ⟨0, 0, 0x1000, 64, 7, true, false, none⟩
    let w : Word := 0x700001000
    let s := staged .compute 1 64 b
    let h := withTask (fun t => { t with handles := [⟨7, 0x1000⟩] }) (withRegs [(6, w)] s)
    let i (landed : Bool) := withTask (fun t => { t with inbound := w }) (withRegs [(6, w)] (staged .compute 1 64 { b with free := false, landed := landed }))
    ready s [5, 6] = true ∧ 16 ≤ (List.replicate 16 (⟨7, 0x1000⟩ : Handle)).length ∧ s.sreg 6 = 0 ∧ running.core.pool = [] ∧ s.core.pool[0]? = some b ∧
    (some b.launch = (some 0 : Option Nat) ∧ b.stage = 0 ∧ b.free = true) ∧
    ((withRegs [(6, 1)] s).sreg 6 ≠ 0 ∧ (s.core.task.map (·.inbound) = some 0)) ∧
    ((i true).sreg 6 = w ∧ (i true).core.task.map (·.inbound) = some w ∧ (i true).core.task.map (·.taken) = some false ∧
      b.off = w.toNat % 2 ^ 23 ∧ b.gen = BitVec.ofNat 32 (w.toNat / 2 ^ 32)) ∧
    (h.core.task.map (·.handles) = some [⟨7, 0x1000⟩] ∧ h.sreg 6 = w) ∧
    (h.core.task.map (·.obj.stages[0]?) = some (some ⟨.compute, 1, 0, 64⟩)) ∧ (h.core.task.map (·.obj.stages[1]?) = some (some ⟨.compute, 1, 0, 64⟩)) ∧
    ((staged .store 1 128 b).core.task.map (·.obj.stages[1]?) = some (some ⟨.store, 1, 0, 128⟩)) ∧
    queuedHandles h 0 (some 0) 1 < 1 ∧ allDone h = true ∧ storeFreeKept h 0 = true ∧
    1 ≤ queuedHandles { h with tasks := [⟨{ placedTask with launch := some 0, stage := 1 }, .ready 0 0 0 0, none⟩] } 0 (some 0) 1 := by
  decide +kernel

/-- The same machine, whose die finds the page too: a unit of the die makes its accesses through it. -/
def paged : State := running.modDie 0 fun d => { d with tlb := running.core.tlb }
/-- A context with the sequence ids 0 to 15, whose descriptors begin at 64 KiB; sequence 0 holds `len` tokens at 128 KiB. -/
def sequences (state len clen budget : Nat) : State :=
  (paged.setCtxAt 0 0 { paged.ctxAt 0 0 with sqbase := 0x10000, sqrange := 0x100000 }).store (hbmKey 0 0x10000)
    (descBytes ⟨0x20000, 4, len, clen, 7, budget, state, 0, 0⟩)

theorem test_hyp_Sequences : let s := withRegs [(6, 0), (7, 1)] (sequences 1 2 1 0xFFFFFFFF)
    let w (v : Word) : Nat := ((withRegs [(6, v)] s).sreg 6).toNat
    s.hasFeature 3 = true ∧ ready s [5, 6, 7] = true ∧ allDone s = true ∧ allDone (busy.modScc fun r => { r with idx := 1 }) = false ∧
    2 ^ 32 ≤ w 0x100000000 ∧ w 0x4000 / 2 ^ 14 % 4 ≠ 0 ∧ 1024 < w 0x4010000 / 2 ^ 16 % 2 ^ 16 ∧ (w 16 < 2 ^ 14 ∧ ¬w 16 < 0x100000 / 2 ^ 16) ∧ w 15 < 16 ∧
    readDesc s 0 = .ok ⟨0x20000, 4, 2, 1, 7, 0xFFFFFFFF, 1, 0, 0⟩ ∧
    readDesc (sequences 2 2 1 0) 0 = .ok ⟨0x20000, 4, 2, 1, 7, 0, 2, 0, 0⟩ ∧
    (s.sreg 7).toNat % 2 ^ 20 = 1 ∧ readTokens s 0x20000 1 = .ok [0] ∧ readTokens s (BitVec.ofNat 64 (0x20000 + 4 * 1)) 1 = .ok [0] ∧
    unitCheck s [⟨0x20008, leBytes 4 1⟩, ⟨0x10000, descBytes ⟨0x20000, 4, 3, 1, 7, 0xFFFFFFFF, 1, 0, 0⟩⟩] = none ∧ 2 + 1 ≤ 4 ∧ 4 < 4 + 1 ∧
    s.die.watch = [] ∧ s.ord.release = none := by decide +kernel

/-- A watch entry of a context. -/
def watchEnt (ctx : Fin 64) : WatchEnt := ⟨ctx, none, List.replicate 64 0, 1⟩

theorem test_hyp_WatchEntries : let s := withRegs [(6, BitVec.allOnes 64), (7, 0x20000)] (sequences 1 2 1 0xFFFFFFFF)
    let bs : List Byte := leBytes 8 0 ++ leBytes 4 1 ++ leBytes 52 0
    let t := s.store (hbmKey 0 0x20000) bs
    let a (v : Word) : Nat := ((withRegs [(6, v)] s).sreg 6).toNat
    s.hasFeature 3 = true ∧ ready s [5, 6, 7] = true ∧ s.ord.release = none ∧ allDone s = true ∧ (s.sreg 7).toNat % 64 = 0 ∧
    unitBytes t (t.sreg 7) 64 = .ok bs ∧ watchOk bs = true ∧ watchOk (List.replicate 64 0) = false ∧ leAt bs 0 2 % 2 ^ 14 < 16 ∧
    ¬leAt (leBytes 8 16 ++ bs.drop 8) 0 2 % 2 ^ 14 < 16 ∧ lookupKey 0 s.die.watch = none ∧
    ((watchEnt 63).ctx ≠ s.ctx ∧ (watchEnt 0).ctx = s.ctx) ∧ a 8191 < 8192 ∧ (8192 ≤ a 8192 ∧ a 8192 < 2 ^ 63) ∧
    a 0x8000000000003FFF = 2 ^ 63 + 0x3FFF ∧ a 0x800000000000000F = 2 ^ 63 + 15 ∧
    unitCheck s [⟨s.sreg 7, List.replicate 64 0⟩] = none := by decide +kernel

/-- z1 holds a blaze of entry 0 of die 0, in some state; the die's table is as it is then. -/
def blazed (st : BlazeState) : State :=
  (running.modDie 0 fun d => { d with blazes := [(0, ⟨st, 3, 0, 0, 0, 0, false⟩)] }).modOrd fun r => { r with z := r.z.set 1 (some ⟨0, 0, 3⟩) }
/-- A command of the copy class, waiting at the issue port. -/
def cpWaits (i : Instr) (s : State) : State := s.modCp fun c => { c with queue := [⟨i, [], 0, 0, .rne⟩] }
/-- A CX operand with one z-register. -/
def cxZ (z : Fin 16) : Cx := ⟨0, 6, 7, 8, false, false, false, 0, 0, z, 0, 0, false, false⟩

theorem test_hyp_BlazeRegisters : running.hasFeature 2 = true ∧ (Fin.ofNat 16 (1 : SReg).val ≠ 0 ∧ Fin.ofNat 16 (16 : SReg).val = 0) ∧
    (cpWaits (.cpb (cxZ 1)) running).cp.queue.map (·.instr) = [.cpb (cxZ 1)] ∧ (cpWaits (.cph (cxZ 1)) running).cp.queue.map (·.instr) = [.cph (cxZ 1)] ∧
    running.ord.z[1] = none ∧ (blazed .pending).ord.z[1] = some ⟨0, 0, 3⟩ ∧
    blazeState (blazed .pending) ⟨0, 0, 3⟩ = .pending ∧ blazeState (blazed .landed) ⟨0, 0, 3⟩ = .landed ∧
    blazeState (blazed .failed) ⟨0, 0, 3⟩ = .failed ∧ (blazed .pending).cp.queue = [] ∧ ready running [5] = true ∧
    ownerDie running 0 = some 0 := by decide +kernel

theorem test_hyp_Traps : user.isPriv = false ∧ bare.hasFeature 0 = false ∧ bare.hasFeature 2 = false ∧ bare.hasFeature 3 = false ∧
    ready bare [6, 7, 8, 0, 0] = true ∧ BadWord.badLine ≠ .notALane := by decide +kernel

/-- A context whose recovery block lies at 64 KiB, with a ring of 64 records at 128 KiB. -/
def recovering : State :=
  ((running.setCtxAt 0 0 { running.ctxAt 0 0 with actbase := 0x10001 }).storeLe (hbmKey 0 0x10200) 8 0x20000).storeLe (hbmKey 0 0x10210) 4 6

theorem test_hyp_FaultRecords : ((running.ctxAt 0 0).actbase.getLsbD 0 = false ∧ running.dies[0].dielog = 0) ∧
    (let k := hbmKey 0 0x10000
     let ring := recovering.le (k + 0x200) 8
     blockKey recovering 0 0 = some k ∧ recovering.le (k + 0x210) 4 = 6 ∧ ring / 2 ^ 52 % 2 ^ 9 = 0 ∧ ring % 2 ^ 12 = 0) := by decide +kernel

theorem test_hyp_CauseActions : let room := running.modDie 0 fun d => { d with savearea := 0x10000, savelen := 0x10000000 }
    running.core.task ≠ none ∧ quiet running = true ∧ veRests running = true ∧ running.core.regs.pend = ⟨none, none, none, none, [], none⟩ ∧
    running.cp.copies = [] ∧ (entryFor running 0 .checkfail).action = .replay ∧ (entryFor running 0 .checkfail).limit = 2 ∧
    (entryFor running 0 .qovftrap).limit = 0 ∧ (lookupKey 0 running.scc.replays).getD 0 < 2 ∧ (entryFor running 0 .illegal).action = .kill ∧
    (entryFor running 0 .xmiss).action = .park ∧ roomFor running 0 (imageSize placedObj true true) = none ∧
    roomFor room 0 (imageSize placedObj true true) ≠ none := by decide +kernel

theorem test_hyp_TlbAndActionEntries : let s := withRegs [(6, 63), (7, 0x1000)] running
    let o : Word := 0x3F0F01FF02
    let far := withRegs [(6, 64)] running
    let flies := running.modOrd fun r => { r with flights := [{ flight with addr := 2 ^ 63 - 8 }] }
    s.isPriv = true ∧ ready s [6, 7] = true ∧ (s.sreg 6).toNat < 64 ∧ 64 ≤ (far.sreg 6).toNat ∧ s.ord.flights = [] ∧ s.others = [] ∧
    (∃ f ∈ flies.core.regs.ord.flights, f.addr.toNat < 2 ^ 63) ∧ flies.core.task ≠ none ∧
    -- ACTSET
    o.toNat / 2 ^ 16 % 4 = 1 ∧ (0x3F0F02FF02 : Word).toNat / 2 ^ 16 % 4 ≠ 1 ∧
    ((0x3F0F02FF02 : Word) &&& ~~~0x3F0F03FF03 = 0) ∧ (0x3F0F02FF02 : Word).toNat % 4 ≠ 3 ∧ (1 ≤ (0x1B : BitVec 8).toNat ∧ (0x1B : BitVec 8).toNat ≤ 0x1B) ∧
    (running.ctxAt 0 0).actbase.getLsbD 0 = false ∧ (recovering.ctxAt 0 0).actbase.getLsbD 0 = true := by decide +kernel

/-- A task of die 0 that stands somewhere. -/
def waits (p : Place) : TaskEnt := ⟨{ placedTask with id := 5 }, p, none⟩

theorem test_hyp_ParkQueues : let s (p : Place) : State := withRegs [(6, 5), (7, 3)] { running with tasks := [waits p] }
    running.isPriv = true ∧ ready running [5, 6, 7] = true ∧ 16 ≤ ((withRegs [(6, 16)] running).sreg 6).toNat ∧
    ((withRegs [(6, 15)] running).sreg 6).toNat < 16 ∧ running.tasks = [] ∧ (s (.parked 0 5)).tasks = [] ++ waits (.parked 0 5) :: [] ∧
    (waits (.parked 0 5)).place = .parked 0 (Fin.ofNat 16 ((s (.parked 0 5)).sreg 6).toNat) ∧
    (2 ^ 32 ≤ (0x100000000 : Word).toNat ∧ (0x4 : Word).toNat % 256 / 4 ≠ 0 ∧ 2 ^ 12 ≤ (0x1000 : Word).toNat ∧ (0xF03 : Word).toNat < 2 ^ 12 ∧
      (0xF03 : Word).toNat % 256 / 4 = 0) ∧
    ((waits (.taken 0)).task.id.toNat = ((s (.taken 0)).sreg 6).toNat) ∧
    (s (.taken 0)).disabled (waits (.taken 0)).task.home = false ∧ ((s (.taken 0)).coreAt 0).halted = false ∧
    (0 % 4 < 2 ∧ 1 % 4 < 2 ∧ 2 % 4 = 2) ∧ ((s (.taken 0)).sreg 7).toNat % 4 = 3 := by decide +kernel

theorem test_hyp_WatchdogAndFeatures : let s := withRegs [(6, 1)] running
    let t := { s with others := [(1, { Core.reset 1 with halted := true })] }
    s.isPriv = true ∧ ready s [5, 6] = true ∧ s.dies[0].wdogctl.getLsbD 1 = false ∧
    (s.modDie 0 fun d => { d with wdogctl := 3 }).dies[0].wdogctl.getLsbD 1 = true ∧
    ((t.sreg 6).toNat < 64 ∧ t.disabled 1 = false ∧ (t.coreAt 1).halted = true) ∧ (s.coreAt 1).halted = false ∧
    8 ≤ ((withRegs [(6, 8)] running).sreg 6).toNat ∧ ((withRegs [(6, 7)] running).sreg 6).toNat < 8 := by decide +kernel

theorem test_hyp_RegisterSteps : let v : Word := 5
    let s (p : Place) : State := { running with tasks := [waits p] }
    2 ^ 32 ≤ (0x100000000 : Word).toNat ∧ (v.toNat < 2 ^ 32 ∧ v.toNat / 2 ^ 21 % 8 = (0 : Fin 8).val ∧ v.toNat / 2 ^ 21 % 8 ≠ (7 : Fin 8).val) ∧
    (s (.ready 0 0 0 0)).tasks = [] ++ waits (.ready 0 0 0 0) :: [] ∧ (waits (.ready 0 0 0 0)).task.id = v.setWidth 32 ∧
    ((running.coreAt 0).task.map (·.id) = some 1 ∧ (1 : Word).setWidth 32 = (1 : BitVec 32)) ∧ running.tasks = [] ∧
    (0 : Word).getLsbD 0 = false ∧ (running.focus 511).ve.queue = [] ∧ (running.focus 511).cp.queue = [] ∧
    (cpWaits (.cpb (cxZ 1)) running).cp.queue ≠ [] := by decide +kernel

theorem test_hyp_Resets : let s (w : Word) (n : Nat) : State := running.modDie 7 fun d => { d with wdogctl := w, wdogCount := n }
    (7 : Fin 8) ≠ 0 ∧ dieOf 511 = 7 ∧ (s 0 0).dies[7].wdogctl.getLsbD 0 = false ∧ (s 1 1).dies[7].wdogCount ≠ 0 ∧
    ((s 1 0).dies[7].wdogctl.getLsbD 0 = true ∧ (s 1 0).dies[7].wdogCount = 0 ∧ (s 1 0).dies[7].wdogctl.getLsbD 1 = false) ∧
    (s 3 0).dies[7].wdogctl.getLsbD 1 = true := by decide +kernel

theorem test_hyp_StartAndScrub : let s := { State.reset with boot := { State.reset.boot with step := 4 } }
    let t : State := s.storeLe (mboxKey 12) 4 0
    State.reset.boot.step = 0 ∧ s.boot.step ≠ 0 ∧ (s.boot.step = 4 ∧ s.boot.failed = false) ∧
    ((1 : BitVec 32).toNat % 2 ^ 31 ≠ t.le (mboxKey 16) 4 ∧ (0 : BitVec 32).toNat % 2 ^ 31 = t.le (mboxKey 16) 4) ∧
    (0 : BitVec 32).getLsbD 31 = false ∧ t.le (mboxKey 0x1008) 8 ≤ 2 ^ 30 ∧
    State.reset.dies[0].chkctl.toNat / 2 ^ 8 % 2 ^ 8 ≠ 0 ∧
    (State.reset.modDie 0 fun d => { d with chkctl := 0 }).dies[0].chkctl.toNat / 2 ^ 8 % 2 ^ 8 = 0 := by decide +kernel

/-- Sources are read, or a cause comes first. -/
def readsOk (s : State) (l : List VCode) : Bool := (readSrcs (passed s) l).isOk
/-- v1 and v2 hold a word in every lane. -/
def lanes (a b : Nat) : State := (running.setV 1 (BitVec.ofNat 2048 (a * ((2 ^ 2048 - 1) / (2 ^ 32 - 1))))).setV 2
  (BitVec.ofNat 2048 (b * ((2 ^ 2048 - 1) / (2 ^ 32 - 1))))
/-- A register in a VX form. -/
def vx (d a b : VCode) (ty : Ty) : Vx := ⟨d, a, b, 0, ty, 3, .rne, false, false, false, .f32, 0⟩
/-- The same state with the trap on first NaNs on. -/
def trapping (s : State) : State := s.modFp fun r => { r with fpctl := 8 }

theorem test_hyp_ElementCommands : let o : Va := ⟨4, 1, 2, 0, .f32⟩
    let add := twoSources o fun a b => nearest o.ty ((decodeTy o.ty a).add .rne (decodeTy o.ty b))
    ElementOp running (.vadd o) add ∧ ElementOp running (.vand o) (twoSources o fun a b => (a &&& b, 0)) ∧ VeFree running ∧
    (missingFeature (.vadd o) running = false ∧ slotsDeclared (.vadd o) running = true) ∧
    readsOk running [1, 2] = true ∧ readsOk running [56] = false ∧ (writeDst running 4 0 0).isOk = true ∧ (writeDst running 56 0 0).isOk = false ∧
    (firstNan running .f32 [(0, 0x7FC00000, Flags.whenSet true 1)] = none) ∧ (∀ c ∈ add.dst :: add.src, c.val < 56) :=
  ⟨.vaddFloat _ rfl, .vand _, test_ve_free, by decide +kernel⟩

theorem test_hyp_CompareSelectQuantise : let hb : Vx := { vx 4 1 5 .bf16 with dty := .hb4 }
    let de : Vx := { vx 4 1 5 .hb4 with dty := .f32 }
    readsOk running [1, 2] = true ∧ readsOk running [56] = false ∧ (Instr.vquant hb).wf = true ∧
    (missingFeature (.vquant hb) running = false ∧ slotsDeclared (.vquant hb) running = true) ∧
    (missingFeature (.vdeq de) running = false ∧ slotsDeclared (.vdeq de) running = true) ∧
    burlBad (BitVec.ofNat 2048 0x400000) = false ∧ burlBad (BitVec.allOnes 2048) = true ∧
    quantBlocks hb running .rne 0 4 0 0x400000 ≠ none ∧ (writeDst running 4 0 0).isOk = true ∧
    (deqHb4 0 0 0x400000 0 [0] 0).isOk = true ∧ (¬(de.aux.getLsbD 4 = true)) ∧ firstNan running .f32 [] = none ∧
    (56 ≤ (56 : VCode).val ∧ (55 : VCode).val < 56) := by decide +kernel

theorem test_hyp_Reductions : (Ty.isFloat .i4 = false ∧ Ty.i4 ≠ .hb4) ∧ Ty.isFloat .bf16 = true ∧ nanTrap running = false ∧
    nanTrap (trapping running) = true ∧ readsOk running [1] = true ∧ readsOk running [63] = false ∧
    (addElem .f32 0x7F800000 0xFF800000).2.hasNv = true ∧ (addElem .f32 0x3F800000 0x3F800000).2.hasNv = false := by decide +kernel

/-- No engine has written the scratchpad since its last scrub. -/
theorem test_layout_plain (s : State) (h : s.core.ltags = []) (f : s.core.bfmt = Vector.replicate 32 0) (off n : Nat) :
    layoutRead s.core off n = .ok 0 := by
  have e : staleUnits s.core off n = [] := by simp [staleUnits, tagOf, lookupKey, bankFmt, bits, h, f]
  simp only [layoutRead, e]
  rfl

theorem test_hyp_VectorMemory : let s := withRegs [(6, 0x7FFF00), (7, 0x10000)] running
    Memory.wf s.mem = true ∧ ready s [sregOf 6] = true ∧ ready s [sregOf 7] = true ∧
    ((s.sreg (sregOf 6)).toNat % 64 = 0 ∧ (s.sreg (sregOf 6)).toNat ≤ 2 ^ 23 - 256) ∧
    ¬((withRegs [(6, 0x7FFF40)] running).sreg 6).toNat ≤ 2 ^ 23 - 256 ∧ (engineRead (passed s) 0x7FFF00 256).isOk = true ∧
    (engineRead (passed { s with poison := [spadAt s.core 0x7FFF00 / 64] }) 0x7FFF00 256).isOk = false ∧
    (writeDst (passed s) 4 0 0).isOk = true ∧ (writeDst (passed s) 56 0 0).isOk = false ∧ s.poison = [] ∧ s.core.ltags = [] ∧
    readsOk s [1] = true ∧ readsOk s [56] = false ∧ (0x7FFF00 + elem .n32 (s.vreg (regNum 2)) 0) % 2 ^ 23 % 4 = 0 ∧
    (gatherLanes (passed s) 0 (s.vreg (regNum 2)) [0, 63]).isOk = true ∧
    ((s.sreg (sregOf 7)).toNat < 2 ^ 57 ∧ (s.sreg (sregOf 7)).toNat % 256 = 0) ∧
    (translate s (some s.core) 0 0 true .read 0x10000).isOk = true ∧ (translate s (some s.core) 0 0 true .write 0x4000000).isOk = false := by
  decide +kernel

/-- The page that holds an address of the placed machine. -/
theorem test_hyp_page : ∃ p : Phys, Reach (withRegs [(7, 0x10000)] running) .read 256 0x10000 (fun i => p.key + i) ∧ p.key = hbmKey 0 0x10000 := by
  have h : (match translate (withRegs [(7, 0x10000)] running) (some (withRegs [(7, 0x10000)] running).core) 0 0 true .read 0x10000 with
    | .ok p => decide (p.leaf.mode < 2) && !p.leaf.check && (migrationOf (withRegs [(7, 0x10000)] running) p.key).isNone
        && !behindHeld (withRegs [(7, 0x10000)] running) 0 p 1 0 0x10000 256 && p.key == hbmKey 0 0x10000
    | .error _ => false) = true := by decide +kernel
  split at h
  · next p hp =>
    simp only [Bool.and_eq_true, decide_eq_true_eq, Bool.not_eq_true', Option.isNone_iff_eq_none, beq_iff_eq] at h
    exact ⟨p, .page p (by decide +kernel) hp h.1.1.1.1 h.1.1.1.2 h.1.1.2 h.1.2, h.2⟩
  · cases h

theorem test_hyp_AccumulatorTransfers : let o : Vx := { vx 4 0 0 .f32 with c := 0 }
    let l : Landing := ⟨4, o, 0, 0, 0, none⟩
    let s (d : Option VWord) : State := running.modVe fun r => { r with landing := r.landing.set 0 (some { l with data := d }) }
    Memory.wf running.mem = true ∧ (missingFeature (.accrd o) running = false ∧ slotsDeclared (.accrd o) running = true) ∧
    (s none).ve.landing[accXfer o] ≠ none ∧ running.ve.landing[accXfer o] = none ∧ firstNan running .f32 [] = none ∧
    running.ve.landing[(Fin.ofNat 16 (0 : VCode).val : Fin 16)] = none ∧ (s none).ve.landing[(Fin.ofNat 16 (16 : VCode).val : Fin 16)] = some l ∧
    (s (some 7)).ve.landing[(Fin.ofNat 16 (0 : VCode).val : Fin 16)] = some { l with data := some 7 } ∧ readsOk running [1] = true ∧
    slotsDeclared (.accwr { o with a := 1 }) running = true := by decide +kernel

theorem test_hyp_PortsAndLoops : let block : Nat := 0x7FFFC0 + 2 ^ 96 + 2 ^ 160 + 2 ^ 224 + 2 ^ 312
    let s := running.setV 1 (BitVec.ofNat 2048 block)
    let loop : LoopRun := ⟨false, 8, [], ⟨.vloop ⟨false, 0, 8⟩, [], 0, 0, .rne⟩, 0, 0, 0, 0, 0⟩
    let cmd : Cmd := ⟨.pset ⟨1, 0, 0⟩, [], 0, 0, .rne⟩
    let rec_ (n : Nat) : State := running.modVe fun r => { r with recording := some { loop with body := List.replicate n cmd } }
    let field (i n : Nat) : Nat := block / 2 ^ (8 * i) % 2 ^ (8 * n)
    readsOk s [1] = true ∧ readsOk s [56] = false ∧ (field 0 8 < 2 ^ 23 ∧ field 0 8 % 64 = 0 ∧ field 40 216 = 0 ∧
      ∀ j < 4, field (8 + 8 * j) 4 % 64 = 0 ∧ 1 ≤ field (12 + 8 * j) 4 ∧ field (12 + 8 * j) 4 ≤ 2 ^ 24) ∧
    ¬1 ≤ (0 : Nat) / 2 ^ 96 % 2 ^ 32 ∧ (running.core.task.map (·.obj.rotates) = some true) ∧
    ((withTask (fun t => { t with obj := { t.obj with rotates := false } }) running).core.task.map (·.obj.rotates) = some false) ∧
    running.ve.recording = none ∧ running.ve.queue.length < 32 ∧ 32 ≤ (List.replicate 32 cmd).length ∧ (rec_ 63).ve.recording ≠ none ∧
    running.ve.loop = none ∧ (running.modVe fun r => { r with loop := some loop }).ve.loop ≠ none ∧
    (List.replicate 63 cmd).length < 64 ∧ 64 ≤ (List.replicate 64 cmd).length := by decide +kernel

theorem test_hyp_PredicatesAndSampling : let o : Vx := ⟨6, 1, 7, 0, .f32, 0, .rne, false, false, false, .f32, 0x101⟩
    let s := withRegs [(6, 0x40), (7, 0)] (lanes 0x3F800000 0x3F800000)
    (missingFeature (.vtopk o) s = false ∧ slotsDeclared (.vtopk o) s = true) ∧ ready s [sregOf 6, sregOf 7] = true ∧
    (s.sreg (sregOf 6)).toNat % 64 = 0 ∧ ((withRegs [(6, 1)] running).sreg 6).toNat % 64 ≠ 0 ∧
    (startList o 0x40 (passed s)).isOk = true ∧ (startList { o with aux := 0 } 0x40 (passed s)).isOk = false ∧ readsOk s [1] = true ∧
    (2 ^ 20 ≤ 0xFFFC1 + 63 ∧ 0xFFFC0 + 63 < 2 ^ 20) ∧ missingFeature (.vdraw o) s = false ∧
    (let beta := sourceElem .n32 [s.vreg (regNum 1)] 0 0
     let mass := sourceElem .n32 [s.vreg (regNum 1)] 0 1
     (decodeTy .f32 beta).isNan = false ∧ (decodeTy .f32 beta).lt (.fin false 0 0) = false ∧ (decodeTy .f32 mass).isNan = false ∧
       (Val.fin false 0 0).lt (decodeTy .f32 mass) = true ∧ (Val.fin false 1 0).lt (decodeTy .f32 mass) = false) ∧
    (decodeTy .f32 (sourceElem .n32 [running.vreg (regNum 1)] 0 1)).isZero = true ∧
    (readList (passed (running.store (spadKey 0 0x40) (leBytes 2 1 ++ leBytes 14 0))) 0x40).isOk = true ∧
    drawWeight 0x3F800000 0x3F800000 0x3F800000 ≠ none := by decide +kernel

/-- A matrix command. -/
def mm (acc : Fin 4) (fl : BitVec 8) (s : SReg) (fid : Fin 256) : Mm := ⟨acc, fl, s, fid⟩

theorem test_hyp_MatrixConfiguration : let v (x : Word) : Nat := ((withRegs [(6, x)] running).sreg 6).toNat
    MeFree running ∧ ready running [6] = true ∧ (mm 0 0 6 17).fid.val < 18 ∧ (1 ≤ v 128 ∧ v 128 ≤ 128) ∧ ¬v 129 ≤ 128 ∧ ¬1 ≤ v 0 ∧ (v 255 < 256 ∧ ¬v 256 < 256) ∧
    (v 1 ≠ 0 ∧ bare.hasFeature 0 = false) ∧ (v 15 % 16 = 15 ∧ bare.hasFeature 1 = false) ∧ bare.hasFeature 4 = false ∧
    (withTask (fun t => { t with obj := { t.obj with slots := 7 } }) running).declares 3 = false ∧ running.declares 3 = true := by
  refine ⟨test_me_free, ?_⟩
  decide +kernel

theorem test_hyp_MatrixProducts :
    let s := (running.modMe fun r => { r with shadow := #v[1, 1, 1, 0, 0, 0, 0, 16, 63, 0, 0, 1, 0, 0x7FC, 0, 1, 0, 0] }).modCore fun k =>
      { k with bfmt := Vector.replicate 32 1 }
    let x (t : State) : MeCtx := meCtx (activated t) ⟨.mma (mm 0 0 0 0), [], t.scc.idx, t.cp.cseq, Rm.resolve t.fp.fpctl .dyn⟩
    Memory.wf s.mem = true ∧ running.hasFeature 0 = true ∧ s.declares 0 = true ∧ s.declares 1 = true ∧
    (meCheck (activated s) (x s)).isOk = true ∧ (meCheck (activated running) (x running)).isOk = false ∧
    ((x s).m ≤ 128 ∧ (x s).n ≤ 256 ∧ (x s).k = 1 ∧ (x s).pair = false ∧ (x s).ta ≠ .hb4 ∧ (x s).tb ≠ .hb4 ∧ 1 ≤ (x s).n) ∧ s.poison = [] ∧
    bits (s.me.shadow[17]).toNat 0 8 = 0 ∧ 1 ≤ (s.me.shadow[7]).toNat ∧ 1 ≤ (s.me.shadow[8]).toNat := by decide +kernel

theorem test_hyp_MatrixDrains :
    let s := (withRegs [(6, 0x7FFFC0)] running).modMe fun r => { r with shadow := #v[1, 1, 1, 0, 0, 0, 0, 16, 63, 0, 0, 1, 0, 0x7FC, 0, 1, 0, 0] }
    let c : Cmd := ⟨.mdrain (mm 0 0 6 0), [s.sreg 6], s.scc.idx, s.cp.cseq, Rm.resolve s.fp.fpctl .dyn⟩
    let strict := s.modCore fun k => { k with bfmt := k.bfmt.set 31 0x41 }
    let regs (l : List MergeTile) : TaskRegs := { TaskRegs.entry with me := { TaskRegs.entry.me with mergeBuf := l } }
    let member (l : List MergeTile) : Core := { Core.reset 1 with task := some placedTask, resident := some 0, regs := regs l }
    let tile : MergeTile := ⟨0, 0, false, []⟩
    let r (x : Word) (l : List MergeTile) : State := (withRegs [(6, x)] running).setCoreAt 1 (member l)
    MeFree running ∧ Memory.wf s.mem = true ∧ s.declares 0 = true ∧ ready s [6] = true ∧ ((s.sreg 6).toNat % 64 = 0 ∧ (s.sreg 6).toNat < 2 ^ 23) ∧
    ((withRegs [(6, 1)] running).sreg 6).toNat % 64 ≠ 0 ∧ 2 ^ 23 ≤ ((withRegs [(6, 0x800000)] running).sreg 6).toNat ∧
    (drainFmt (activated s) c 0x7FFFC0).isOk = true ∧ (drainFmt (activated strict) c 0x7FFFC0).isOk = false ∧ nanTrap s = false ∧
    (mm 0 1 6 0).fl.getLsbD 0 = true ∧ (mm 0 0 6 0).fl.getLsbD 0 = false ∧ (s.me.shadow[13]).toNat / 2 ^ 11 % 2 ≠ 1 ∧
    ((s.me.shadow[0]).toNat ≤ 128 ∧ (s.me.shadow[1]).toNat ≤ 256) ∧
    (8 / 8 % 2 ≠ 0 ∧ 64 ≤ 64 ∧ 49 / 8 % 2 = 0 ∧ 49 < 64) ∧ (peerCheck (r 49 []) 1 0 0).isOk = true ∧ (peerCheck running 1 0 0).isOk = false ∧
    (1 : Fin 512) ≠ (r 49 []).core.agent ∧ ((r 49 []).coreAt 1).task ≠ none ∧ ((r 49 [tile]).coreAt 1).regs.me.mergeBuf.length < 2 ∧
    2 ≤ ((r 49 [tile, tile]).coreAt 1).regs.me.mergeBuf.length := by
  refine ⟨test_me_free, ?_⟩
  decide +kernel

/-- A CX operand: s6 the destination or place, s7 the source or value, s8 the length or slot. -/
def cx : Cx := ⟨0, 6, 7, 8, false, false, false, 0, 0, 0, 0, 0, false, false⟩
/-- The copy engines are free and `i` may be worked on at once. -/
def Copying (i : Instr) (o : Cx) (s : State) : Prop := CpFree s ∧ UnitsIdle s ∧ CpAllowed i o s
/-- The same as a check that can be evaluated. -/
theorem copying_of {i : Instr} {o : Cx} {s : State} (h : s.core.inOrder = true ∧ s.core.task ≠ none ∧ s.cp.queue = [] ∧ s.cp.copies = [] ∧
    s.core.rrot = none ∧ s.core.regs.pend.copy = none ∧ (∀ i : Fin 8, s.cp.subs[i] = none) ∧ (∀ d : Fin 8, s.dies[d].hold = []) ∧
    s.ve.queue = [] ∧ s.ve.loop = none ∧ s.ve.recording = none ∧ (∀ n : Fin 16, s.ve.landing[n] = none) ∧ s.me.queue = [] ∧ s.me.run = none ∧
    ready s (cpRegs i o) = true ∧ cpMissing i o s = false ∧ o.ntf = false ∧ o.rel = false) : Copying i o s := by
  obtain ⟨h1, h2, h3, h4, h5, h6, h7, h8, h9, h10, h11, h12, h13, h14, h15, h16, h17, h18⟩ := h
  exact ⟨⟨h1, h2, h3, h4, h5, h6, h7, fun d x hx => by have e := h8 d; simp only [Fin.getElem_fin] at e; simp [e] at hx⟩, ⟨h9, h10, h11, h12, h13, h14⟩,
    h15, h16, fun q => by simp [h17] at q, fun q => by simp [h18] at q⟩
/-- s6, s7 and s8. -/
def ops (a b c : Word) : State := withRegs [(6, a), (7, b), (8, c)] running

theorem test_hyp_Copies : let s := ops 0x8000000000000000 0x8000000000000040 64
    let o := { cx with za := 1 }
    Copying (.copy cx) cx s ∧ Copying (.copyf cx) cx s ∧ Copying (.pull cx) cx s ∧ Copying (.cph cx) cx s ∧ Copying (.cpb o) o s ∧
    openBlazes (passed s) (dieOf s.core.agent) (takeBlazes (passed s) cx) = [] ∧ s.sreg 0 = 0 ∧
    (s.sreg 6 = BitVec.ofNat 64 (0x8000000000000000 + 0) ∧ (s.sreg 8).toNat = 64 ∧ 0 + 64 ≤ 2 ^ 23 ∧
      s.sreg 7 = BitVec.ofNat 64 (0x8000000000000000 + 64) ∧ 0 + 64 ≤ 64) ∧ s.poison = [] ∧ Memory.wf s.mem = true ∧
    (∀ b : Fin 32, bankFmt s.core b = bankFmt s.core 0) ∧ (bankFmt s.core 0).2.2 = false ∧
    (placeBlaze ((handed (.cpb o) o s).modCp fun p => { p with copies := [] }) (cpCmd (.cpb o) o s) o.za).isSome = true := by
  refine ⟨copying_of ?_, copying_of ?_, copying_of ?_, copying_of ?_, copying_of ?_, ?_⟩ <;> decide +kernel

theorem test_hyp_Atomics : let o := { cx with sd := 9 }
    let s := withRegs [(9, 0x8000000000000010)] (ops 0x8000000000000000 5 0)
    Copying (.atom cx) cx s ∧ Copying (.atomf o) o s ∧ (s.sreg 6).toNat % 8 = 0 ∧ ((ops 0x8000000000000001 5 0).sreg 6).toNat % 8 ≠ 0 ∧
    ((withRegs [(9, 0x8000000000000004)] running).sreg 9).toNat % 8 ≠ 0 ∧ s.poison = [] ∧ Memory.wf s.mem = true ∧
    (∀ b : Fin 32, (bankFmt s.core b).2.2 = false) ∧ (s.sreg 6).toNat = 0x8000000000000000 + 0 ∧ (s.sreg 9).toNat = 0x8000000000000000 + 16 ∧
    (translate paged none 0 0 true .atomic 0x3FFFFF8).isOk = true := by
  refine ⟨copying_of ?_, copying_of ?_, ?_⟩ <;> decide +kernel

theorem test_hyp_SubscriptionsAndCaches :
    let d : List Byte := leBytes 8 0 ++ (List.range 4).flatMap (fun _ => leBytes 4 0 ++ leBytes 4 1) ++ leBytes 4 64 ++ leBytes 1 0 ++ leBytes 1 1 ++
      leBytes 18 0
    let s := ops 0x8000000000000040 7 1
    let far := ops 0x8000000000000040 8 1
    let p := withRegs [(6, 0x10000), (8, 256)] paged
    let r := withRegs [(6, 0), (7, 0x1000), (8, 0x1000)] running
    Copying (.subs cx) cx s ∧ Copying (.unsub { cx with sa := 0, sc := 0 }) { cx with sa := 0, sc := 0 } s ∧ Copying (.pref cx) cx p ∧ Copying (.invc cx) cx p ∧
    Copying (.wbc cx) cx p ∧ Copying (.rrot cx) cx r ∧ (s.sreg 6).toNat % 64 = 0 ∧ ((ops 0x8000000000000001 7 1).sreg 6).toNat % 64 ≠ 0 ∧
    ((s.sreg 7).toNat < 8 ∧ 8 ≤ (far.sreg 7).toNat) ∧ subOk d = true ∧ subOk (List.replicate 64 0) = false ∧
    (readBytes (moverOf (whoOf (handed (.subs cx) cx s)) (cpCmd (.subs cx) cx s)) (s.sreg 6) 64 (handed (.subs cx) cx s, 0)).isOk = true ∧
    ((running.sreg 8).toNat = 0 ∧ 0 < (p.sreg 8).toNat ∧ (p.sreg 6).toNat % 256 + (p.sreg 8).toNat ≤ 256) ∧
    (translate p none 0 0 true .read 0x10000).isOk = true ∧ (translate running none 0 0 true .read 0x10000).isOk = false ∧
    (2 ^ 23 < ((withRegs [(6, 0x7FF040)] running).sreg 6).toNat + (r.sreg 8).toNat ∧ ¬2 ^ 23 < (r.sreg 7).toNat + (r.sreg 8).toNat) ∧
    (checkBarrier r (whoOf r) 0).isOk = true ∧ (checkBarrier r (whoOf r) 1).isOk = false ∧
    (∃ k ∈ enabledMembers r 0, k ≠ r.core.agent ∧ (r.coreAt k).rrot = none) ∧
    (∀ k ∈ enabledMembers { r with harvest := r.harvest.set 0 0xFE } 0, k = r.core.agent) := by
  refine ⟨copying_of ?_, copying_of ?_, copying_of ?_, copying_of ?_, copying_of ?_, copying_of ?_, ?_⟩ <;> decide +kernel

/-- Firmware runs, a code object of one line stands at 64 KiB, and one record waits in the mailbox. -/
def mailed (r : List Byte) : State :=
  let object : List Byte := leBytes 4 0x214F5A48 ++ leBytes 2 1 ++ leBytes 2 288 ++ leBytes 8 0 ++ leBytes 4 288 ++ leBytes 4 32 ++ leBytes 4 4 ++
    leBytes 260 0 ++ leBytes 4 0x10 ++ leBytes 28 0
  let s := ((paged.setCtxAt 0 0 { paged.ctxAt 0 0 with ptbase := 1 }).store (hbmKey 0 0x10000) object).store (mboxKey 0x100) r
  setMbox { s with boot := { s.boot with step := 7 } } 4 1
/-- A launch record: its object, its context, its serial and its dies. -/
def record (code ctx serial dies : Nat) : List Byte :=
  leBytes 8 code ++ leBytes 20 0 ++ leBytes 1 ctx ++ leBytes 1 serial ++ leBytes 69 0 ++ leBytes 1 dies ++ leBytes 28 0
/-- A record that asks for a report: the nonce at 64 KiB, the report at 1 MiB. -/
def attest : List Byte := leBytes 8 0 ++ leBytes 8 0x10000 ++ leBytes 8 0x100000 ++ leBytes 72 0 ++ leBytes 2 16 ++ leBytes 30 0

theorem test_hyp_HostSteps :
    let s := mailed (record 0x10000 0 0 1)
    let taken (s : State) : State := setMbox s 0 1
    let ok (r : List Byte) : Prop := leAt r 0x1F 1 < 4 ∧ leAt r 0x60 2 < 64 ∧ leAt r 0x78 8 = 0 ∧ leAt r 0x1C 1 < 64 ∧ leAt r 0x63 1 ≠ 0 ∧
      leAt r 0x62 1 < 64 ∧ leAt r 0 8 % 32 = 0
    let obj (s : State) : Option CodeObj := readObj (taken s) 0 0 (leAt (slotBytes s 0) 0 8) (boundsOf (slotBytes s 0))
    let l := launch 0 none false
    let j (n : Nat) : State := { running with launches := [l], joins := [⟨1, n, 0, 0, []⟩] }
    (s.boot.step = 7 ∧ s.boot.failed = false ∧ mboxWord s 0 ≠ mboxWord s 4) ∧ mboxWord running 0 = mboxWord running 4 ∧
    slotBytes s 0 = record 0x10000 0 0 1 ∧ leAt attest 0x60 2 / 16 % 2 = 1 ∧ attestOk attest = true ∧ attestOk (attest.set 0 1) = false ∧
    (checkAttest (taken (mailed attest)) attest).isOk = true ∧ leAt (record 0x10000 0 0 1) 0x60 2 / 16 % 2 ≠ 1 ∧
    ok (record 0x10000 0 0 1) ∧ ¬ok (record 0x10000 64 0 1) ∧ ¬ok (record 0x10000 0 0 0) ∧
    (s.ctxAt 0 0).ptbase.getLsbD 0 = true ∧ (s.ctxAt 1 0).ptbase.getLsbD 0 = false ∧
    (obj s).isSome = true ∧ obj (mailed (record 0x20000 0 0 1)) = none ∧
    (∀ o ∈ obj s, s.dies[0].featon ≠ 0 ∧ o.features &&& ~~~s.dies[0].featon = 0 ∧ poolBytes o + o.spad ≤ 2 ^ 23) ∧ s.launches = [] ∧
    (0x1FE ≤ (510 : BitVec 32).toNat ∧ (509 : BitVec 32).toNat < 510) ∧
    ((j 0).launches[0]? = some l ∧ l.complete = false ∧ (Join.settled ((j 0).joinAt l.join)) = false ∧ (Join.settled ((j 1).joinAt l.join)) = true) ∧
    (predReady (j 0) l = true ∧ predReady (follower false) (launch 1 (some 0) false) = false) := by decide +kernel

theorem test_hyp_SchedulerSteps :
    let e : TaskEnt := waits (.ready 1 0 64 1)
    let s : State := { running.modDie 0 fun d => { d with taskstore := 1 } with tasks := [e] }
    let room (s : State) : State := s.modDie 0 fun d => { d with savearea := 0x10000, savelen := 0x10000000 }
    let late : State := room (running.modCore fun c => { c with yreq := some 0 })
    let over_ : State := (withTask (fun t => { t with prio := 1 }) s).modDie 0 fun d => { d with cycle := 2 ^ 33 }
    let held : State := room { (placeWords State.reset .scal 0xB0000001 0).modScc fun r => { r with hold := some 0 } with tasks := [waits (.ready 0 0 0 0)] }
    let stg (r : Role) (hi : Nat) : TaskEnt := ⟨{ placedTask with hi := hi, obj := { placedObj with stages := [⟨r, 1, 0, 64⟩, ⟨.store, 0, 0, 64⟩] } }, .stage 0, none⟩
    -- coreIdleRequest
    usable s 1 = true ∧ (s.coreAt 1).task = none ∧ usable (running.modDie 0 id) 0 = true ∧ (running.coreAt 0).task ≠ none ∧
    (chooseOwn State.reset 1 = none ∧ (steal State.reset 1).isNone = true) ∧ s.tasks = [] ++ e :: [] ∧ e.task.stage < 4 ∧
    (e.place = .ready 1 0 64 1 ∧ mayStart s 1 e = true) ∧
    -- promotion and expiry
    (0 < 1 ∧ 0 < 64 ∧ s.dies[0].agemax.toNat ≤ 64) ∧ ¬s.dies[0].agemax.toNat ≤ 63 ∧ running.tasks[0]? = none ∧ s.tasks[0]? = some e ∧
    (over_.core.task.map (fun x => decide (x.prio = 1 ∧ over_.deadlineOf x < over_.dies[0].cycle.toNat)) = some true) ∧ ((s.coreAt 1).task = none) ∧
    -- stages
    ((stg .load 0).task.obj.roleOf 0 = .load ∧ (stg .load 0).task.hi ≤ 0 ∧ 0 < (stg .load 1).task.hi) ∧
    queueFull s 0 (stg .load 1).task 0 = false ∧
    queueFull { s with tasks := [⟨{ placedTask with stage := 1 }, .ready 0 0 0 0, none⟩] } 0 (stg .load 1).task 0 = true ∧
    ((stg .store 1).task.obj.roleOf 0 = .store ∧ inputReady running.core (stg .store 1).task = true ∧
      inputReady running.core { (stg .store 1).task with inbound := 0x700001000 } = false) ∧ (stageDesc paged 0 (stg .load 1).task).isOk = true ∧
    -- saves
    late.core.yreq = some 0 ∧ saveFree late = true ∧ quiet late = true ∧ veRests late = true ∧
    ((late.modDie 0 fun d => { d with cycle := 2 ^ 40 }).core.task.map fun t => decide (0 + late.deadlineOf t ≤ 2 ^ 40)) = some true ∧
    roomFor late 0 (imageSize placedObj true true) ≠ none ∧ holdsForOthers held = true ∧ othersWait held 0 = true ∧ saveFree held = true ∧
    (saveTask held placedTask true true true 0 0 none).isSome = true ∧ running.core.regs.pend.all = [] ∧
    -- forwarded and parked tasks
    (running.modDie 0 fun d => { d with forwarded := [(placedTask, none)] }).dies[0].forwarded = [(placedTask, none)] ∧ running.dies[0].forwarded = [] := by
  decide +kernel

/-- A copy-class command that the engines of the core hold. -/
def holds (p : CopyPhase) (i : Instr) (vals : List Word) (s : State) : State :=
  s.modCp fun c => { c with copies := [⟨⟨i, vals, 0, 0, .rne⟩, 0, p, none, [], false, 0⟩] }
/-- A subscription of one tile of 64 bytes, from 64 KiB to 4 KiB of the own scratchpad, whose slot's barrier asks for so many bytes. -/
def subscribed (next : Nat) (asks : Int) : State :=
  let d : List Byte := leBytes 8 0x10000 ++ (List.range 4).flatMap (fun _ => leBytes 4 0 ++ leBytes 4 1) ++ leBytes 4 64 ++ leBytes 1 0 ++ leBytes 1 1 ++
    leBytes 2 0 ++ leBytes 4 0x1000 ++ leBytes 4 64 ++ leBytes 8 0
  (barWrite paged 0 0 ⟨1, 0, false, false, 0, asks⟩).modCp fun c =>
    { c with subs := c.subs.set 0 (some ⟨⟨.copy cx, [0, 0, 0, 0, 0, 0], 0, 0, .rne⟩, d, next⟩) }
/-- A matrix command in progress that has reached a phase. -/
def meRunning (phase : Nat) : State :=
  running.modMe fun r => { r with run := some ⟨⟨.mma (mm 0 0 0 0), [], 0, 0, .rne⟩, phase, [], none, [], false, false, 0, 0, 0, false, [], 0, 0, none, 0⟩,
                                  active := r.active.set 17 3 }

theorem test_hyp_EngineSteps :
    let pad (n : Nat) : Word := BitVec.ofNat 64 (0x8000000000000000 + n)
    let good := holds .run (.copy cx) [pad 0, pad 64, 64, 0, 0, 0] running
    let bad := holds .run (.copy cx) [2 ^ 63 - 1, pad 64, 64, 0, 0, 0] running
    let stopped := good.modRegs fun r => { r with pend := { r.pend with copy := some ⟨.illegal, .copy, false, true, 0, 0, 0, 0⟩ } }
    let rot (len : Word) (a : Fin 512) : Core := { Core.reset a with rrot := some ⟨⟨.rrot cx, [0, 0x1000, len, 0, 0, 0], 0, 0, .rne⟩, 0, 0⟩ }
    let pair (x : Word) : State := { running with harvest := running.harvest.set 0 0xFC, core := rot 64 0, others := [(1, rot x 1)] }
    let late := { pair 64 with dies := Vector.replicate 8 { Die.reset with cycle := 16777217 } }
    let merge : Cmd := ⟨.mdrainMerge (mm 0 0 6 0), [0], 0, 0, .rne⟩
    let merging (c : Option Nat) : State := (running.modMe fun r => { r with queue := [merge] }).modCore fun k => { k with refused := c }
    let l : Landing := ⟨4, vx 4 0 0 .f32, 0, 0, 0, none⟩
    let f : Flight := { flight with addr := 0x8020000100000000 }
    let far (c : Option (Fin 64)) : State := (running.modOrd fun r => { r with flights := [f] }).setCoreAt 1 { Core.reset 1 with resident := c }
    -- copies
    ((good.focus 0).cp.copies[0]?.map (fun r => mayWork (good.focus 0) r) = some true) ∧
    ((stopped.focus 0).cp.copies[0]?.map (fun r => mayWork (stopped.focus 0) r) = some false) ∧ running.cp.copies[0]? = none ∧
    (workRun (good.focus 0) 0 none).core.regs.pend = good.core.regs.pend ∧ (workRun (bad.focus 0) 0 none).core.regs.pend ≠ bad.core.regs.pend ∧
    isPull (.copy cx) = false ∧ (holds (.deliver 64) (.copy cx) [0, 0, 64, 0, 0, 0] running).cp.copies.map (·.phase) = [.deliver 64] ∧
    (holds .run (.atom cx) [pad 0, 1, 0, 0, 0, 0] running).cp.copies.map (fun r => mayWork running r) = [true] ∧
    -- subscriptions
    (running.cp.subs[0] = none ∧ ((subscribed 0 64).cp.subs[0].map fun b => (b.next, subTiles b.desc)) = some (0, 1) ∧
      ((subscribed 1 64).cp.subs[0].map fun b => (b.next, subTiles b.desc)) = some (1, 1)) ∧
    (∀ b ∈ (subscribed 0 64).cp.subs[0], slotAsks (subscribed 0 64) (tileBarrier b) = .ok true ∧
      (runCopy (moverOf (whoOf (subscribed 0 64)) (tileCmd b)) (tileCmd b) (tilePlan (moverOf (whoOf (subscribed 0 64)) (tileCmd b)) b) none 0 (subscribed 0 64)).out =
        .done 64) ∧ (∀ b ∈ (subscribed 0 0).cp.subs[0], slotAsks (subscribed 0 0) (tileBarrier b) = .ok false) ∧
    -- rotation
    enabledMembers (pair 64) 0 = [0, 1] ∧ ((enabledMembers (pair 64) 0).filterMap fun k => ((pair 64).coreAt k).rrot).length = 2 ∧
    ((pair 128).coreAt 1).rrot.map (fun w => w.cmd.vals.getD 2 0) = some 128 ∧
    ((enabledMembers (pair 64) 0).map fun k => (((pair 64).coreAt k).rrot.map fun w => (rrotSource (pair 64) k w).isOk)) = [some true, some true] ∧
    (late.die.bartmo.toNat ≠ 0 ∧ late.die.bartmo.toNat < late.now - 0) ∧ running.core.rrot = none ∧
    -- the array
    ((merging none).core.regs.pend.me = none ∧ (merging none).me.run = none ∧ (merging none).me.queue = [merge] ∧ (merging none).core.refused = none ∧
      (merging (some 0)).core.refused = some 0) ∧ (merging (some 0)).now < 0 + (merging (some 0)).die.bartmo.toNat ∧
    (let u := (merging (some 0)).modDie 0 fun d => { d with cycle := 16777216 }
     u.die.bartmo.toNat ≠ 0 ∧ 0 + u.die.bartmo.toNat ≤ u.now) ∧
    ((meRunning 1).me.run.map (·.phase) = some 1 ∧ (meRunning 2).me.run.map (·.phase) = some 2) ∧
    ((meRunning 2).me.run.map fun r => awaitedMembers (meRunning 2) r) = some [0, 1] ∧
    -- transfers and refused accesses
    (let u := running.modVe fun r => { r with landing := r.landing.set 15 (some l) }
     u.ve.landing[15] = some l ∧ veBlocked u ⟨.accrd l.cmd, [], l.idx, 0, .rne⟩ = false ∧ firstNan u l.cmd.dty (landResults u l) = none) ∧
    running.ve.landing[15] = none ∧ (far none).ord.flights[0]? = some f ∧ f.value = none ∧ classify 0 f.addr = .peer 1 0 ∧
    (match portAccess (far (some 0)) f with | .done _ v => v == 0 | _ => false) = true ∧
    (match portAccess (far none) f with | .fails _ => true | _ => false) = true := by
  decide +kernel

/-- A page table of the context for the 4 KiB page at 0x1000, which lies at 0x40000 of die 0 in MIGRATE mode, and a frame pool of one frame. -/
def tabled : State :=
  let pointer (s : State) (step : Nat) : State := s.storeLe (hbmKey 0 (0x100000 + 0x2000 * step)) 16 (1 + (0x102 + 2 * step) * 2 ^ 16)
  let s := (running.setCtxAt 0 0 { running.ctxAt 0 0 with ptbase := 0x100001, migthresh := 1 }).modDie 0 fun d =>
    { d with framepool := 0x200001, migCounts := [⟨0x40, 0, 1, 0, 0x1000⟩] }
  ((((List.range 4).foldl pointer s).storeLe (hbmKey 0 0x108010) 16 (0x20F9 + 0x40 * 2 ^ 16)).storeLe (hbmKey 0 0x200000) 8 (1 + 4 * 2 ^ 32)).storeLe
    (hbmKey 0 0x200010) 8 0x50
/-- The migration of that page. -/
def migrating (moved : Bool) (waiting : List (Fin 8)) (held : List (Fin 512 × Engine × Nat)) : State :=
  tabled.modDie 0 fun d => { d with migs := [⟨0, 0x1000, 0x40000, 0x50000, 0, moved, waiting, held⟩] }
/-- A CPH that carries one blaze, in the hold queue of die 0 or on its way to it. -/
def heldCph (since : Option Nat) (watched : Bool) (answer : Option Bool) : HoldEnt :=
  ⟨whoOf running, ⟨.cph cx, [0x10000, 0x8000000000000000, 64, 0, 0, 0], 0, 0, .rne⟩, [(⟨0, 0, 3⟩, 0, answer)], watched, since, 0x10000, 0x1003F⟩

theorem test_hyp_BlazesAndMigrations :
    let z : BlazeRef := ⟨0, 0, 3⟩
    let cpb (st : BlazeState) : State := (blazed st).modCp fun c => { c with copies :=
      [⟨⟨.cpb cx, [0x8000000000000000, 0x8000000000000040, 64, 0, 0, 0], 0, 0, .rne⟩, 0, .run, some z, [], false, 0⟩] }
    let cph := (blazed .pending).modCp fun c => { c with copies :=
      [⟨⟨.cph cx, [0x10000, 0x8000000000000040, 64, 0, 0, 0], 0, 0, .rne⟩, 0, .run, none, [(z, 0)], false, 0⟩] }
    let holds (h : HoldEnt) (st : BlazeState) : State := (blazed st).modDie 0 fun d => { d with hold := [h] }
    let m (s : State) : Option Migration := s.dies[0].migs.head?
    -- blazes
    (lookupKey 0 (cpb .pending).dies[0].blazes = some ⟨.pending, 3, 0, 0, 0, 0, false⟩ ∧
      (((cpb .pending).focus 0).cp.copies.findIdx? fun x => x.blaze.any fun y => y.entry == 0 && y.gen == 3) = some 0 ∧
      ((cpb .pending).cp.copies.map fun r => mayWork (cpb .pending) r) = [true]) ∧
    blazeState (workRun ((cpb .pending).focus 0) 0 none) z = .landed ∧ lookupKey 1 (cpb .pending).dies[0].blazes = none ∧
    ((cph.focus 0).cp.copies.map fun r => (r.carried, mayWork cph r)) = [([(z, 0)], true)] ∧ running.cp.copies[0]? = none ∧
    -- held CPHs
    (firstOfFlow (holds (heldCph none false none) .pending) 0 (heldCph none false none) = true ∧
      ((holds (heldCph none false none) .pending).dies[0].hold.filter fun x => x.since.isSome).length < 512) ∧
    answerOf (holds (heldCph (some 0) true none) .landed) z = some true ∧ answerOf (holds (heldCph (some 0) true none) .failed) z = some false ∧
    answerOf (holds (heldCph (some 0) true none) .pending) z = none ∧
    (let s := (holds (heldCph (some 0) true none) .pending).modDie 0 fun d => { d with cycle := 1048576 }
     s.dies[0].holdlim.toNat ≠ 0 ∧ 0 + s.dies[0].holdlim.toNat ≤ s.dies[0].cycle.toNat) ∧
    -- migrations
    hbmKey (peerOf running.pkg 0) (0x40 % 2 ^ 25 * 4096) = 0x40000 ∧ migAt tabled 0 0x40000 = none ∧
    (tabled.dies[0].migCounts = [] ++ ⟨0x40, 0, 1, 0, 0x1000⟩ :: [] ∧ (0x40 : Nat) = 0x40000 / 4096 ∧ reached tabled 0 ⟨0x40, 0, 1, 0, 0x1000⟩ = true) ∧
    reached tabled 0 ⟨0x40, 0, 0, 0, 0x1000⟩ = false ∧ (migAt (migrating false [] []) 0 0x40000).map (·.moved) = some false ∧
    ((popFrame tabled 0).map (·.2) = some 0x50 ∧ pteKey tabled 0 0 0x1000 = some 0x108010) ∧ (popFrame running 0).isNone = true ∧
    ((m (migrating true [0, 1] [])).map fun x => (x.moved, x.waiting.filter (· != (0 : Fin 8)))) = some (true, [1]) ∧
    ((m (migrating true [7] [])).map fun x => (x.moved, x.waiting.filter (· != (7 : Fin 8)))) = some (true, []) ∧
    ((migrating false [] [(0, .copy, 0)]).dies[0].migs.flatMap fun x => x.held) = [(0, .copy, 0)] ∧
    (Die.reset.mighold.toNat % 2 ^ 32 < 262145 - 0 ∧ ¬Die.reset.mighold.toNat % 2 ^ 32 < 262144 - 0) := by decide +kernel

/-- A packet of class 1 from package 0 to a die of a package, at a place. -/
def packet (dst : BitVec 15) (tc : Fin 4) (place : PktPlace) : Packet :=
  ⟨0, 0, dst, tc, 0, 100, false, false, none, 8, 0, place⟩
/-- The fabric with one packet. -/
def carries (p : Packet) : State := { running with packets := [p] }

theorem test_hyp_FabricSteps :
    let inj := packet 8 0 .inject
    let ring (laps : Nat) (tc : Fin 4) := packet 7 tc (.ring laps)
    let stored : List Packet := (List.range 192).map fun n => { packet 7 2 (.overflow n) with num := n + 1, bytes := 1024 }
    let full : State := { running with packets := ring 1 1 :: stored }
    let behind : Packet := { ring 1 1 with num := 1 }
    let torus (g : BitVec 12) := packet 0x808 1 (.torus g none 0)
    let response : Packet := { packet 7 1 .delivered with answers := some 3, marked := true }
    pktAt running 0 = none ∧ pktAt (carries inj) 0 = some inj ∧ (limitAllows (carries inj) inj = true ∧ earlierOf (carries inj) inj = []) ∧
    limitAllows { carries inj with dies := Vector.replicate 8 { Die.reset with tclim := 0 } } inj = false ∧
    (earlierOf (carries (ring 0 0)) (ring 0 0) = [] ∧ (ring 0 0).tc = 0 ∧ (ring 1 1).tc ≠ 0) ∧
    earlierOf { running with packets := [ring 1 1, behind] } behind = [ring 1 1] ∧
    (overflowBytes (carries (ring 1 1)) 7 + 32 + 100 ≤ 196608 ∧ 196608 < overflowBytes full 7 + 32 + 100) ∧
    ((0 : Nat) ≤ 2 * running.dies[peerDie 0].cycle.toNat ∧ ¬1 ≤ 2 * running.dies[peerDie 0].cycle.toNat) ∧
    ((torus 0).channel = some (0, none, false) ∧ canHop (carries (torus 0)) (torus 0) = true ∧ classZeroFirst (carries (torus 0)) (torus 0) = false) ∧
    (hopOf (carries (torus 0)) (torus 0) 0 false).isSome = true ∧ hopOf (carries (torus 0)) (torus 0) 0x101 false = none ∧
    canHop (carries { torus 0 with badFlit := true }) { torus 0 with badFlit := true } = false ∧
    (let s := (carries (torus 0)).modDie 0 fun d => { d with cycle := 32768 }
     (0 : BitVec 12) = s.pkg ∧ headOf s (torus 0) = some (torus 0) ∧ channelBridge (torus 0) none = 0 ∧ s.dies[0].dlrtimer.toNat ≠ 0 ∧
       0 + s.dies[0].dlrtimer.toNat ≤ 2 * s.dies[0].cycle.toNat) ∧
    (carries (packet 7 3 (.overflow 0))).packets = [] ++ packet 7 3 (.overflow 0) :: [] ∧ peerOf running.pkg 7 = 7 ∧
    (response.place = .delivered ∧ response.answers ≠ none ∧ response.marked = true ∧ response.src = 0 ∧ response.dst = peerOf running.pkg 7) ∧
    (running.modDie 0 fun d => { d with bridge := { d.bridge with rotate := [8] } }).dies[0].bridge.rotate = [8] ∧ running.packets = [] := by
  decide +kernel

theorem test_hyp_EncodeDecode : (Instr.ldd ⟨6, 5, 0x1FF, true, 7, .fabric⟩).wf = true ∧
    encode (.ldd ⟨6, 5, 0x1FF, true, 7, .fabric⟩) = some ⟨.scal, 0x78C5FFFC, none⟩ ∧ (Instr.ldix ⟨9, 0x80000000⟩).wf = true ∧
    encode (.ldix ⟨9, 0x80000000⟩) = some ⟨.scal, 0x21200000, some 0x80000000⟩ := by decide +kernel

/-- The next state, if there is one. -/
def after : Host.Outcome State Fault Refusal → State
  | .next s => s
  | _ => State.reset
/-- A step has a next state. -/
def goesOn : Host.Outcome State Fault Refusal → Bool
  | .next _ => true
  | _ => false

theorem test_hyp_StepKeepsMemoryForm : Memory.wf running.mem = true ∧ goesOn (step running) = true := by decide +kernel

/-- A line at 0 with words of a class in its lanes from 1 on, and `PCQ0` to `PCQ2` at the first three. -/
def lined (header : Nat) (words : List Nat) : State := running.store (hbmKey 0 0) (leBytes 4 header ++ words.flatMap (leBytes 4))

/-- `LineAt` as a check: the words of the line that the core reads. -/
def lineIs (s : State) (header : Nat) (words : List Nat) : Bool :=
  match fetchLine s 0 with
  | .ok l => l.header == header && l.words == words
  | .error _ => false

theorem test_hyp_StepRunsDecoded : let t : Turn := .issue 511
    let waits : State := { running with turns := [t, .event .powerLoss] }
    let three := lined 0x1110 [0x04630010, 0x00A32000, 0x1CC0000E, 0, 0, 0, 0]
    waits.turns = t :: [.event .powerLoss] ∧ { waits with turns := [.event .powerLoss] }.disabled 511 = false ∧ encode .powerLoss = none ∧
    running.turns = [] ∧ State.reset.core.task = none ∧ running.core.task.isSome = true ∧ causeUrgent running = false ∧
    (running.core.task.map fun k => saveDue running k) = some false ∧ lineIs three 0x1110 [0x04630010, 0x00A32000, 0x1CC0000E, 0, 0, 0, 0] = true ∧
    lineOk 0x1110 [0x04630010, 0x00A32000, 0x1CC0000E, 0, 0, 0, 0] = true ∧ lineOk 0x1111 [0, 0, 0, 0, 0, 0, 0] = false ∧
    (three.scc.pcq0.addr.toNat % 4 = 0 ∧ three.scc.pcq0.addr.toNat % 32 / 4 = 1 ∧ three.scc.pcq0.nul = false) ∧
    decode .scal 0x04630010 0x00A32000 = .ok (.addi ⟨3, 3, 16⟩) ∧
    (match fetchLine (running.modCore fun c => { c with tlb := [] }) 0 with | .error _ => true | .ok _ => false) = true := by decide +kernel

/-! ## Words written out from the encodings of 02 R47-R54 and the opcode tables of 02 and 05 to 12 -/

theorem test_decode_scalar :
    decode .scal (0x00 * 2 ^ 26 + 31 * 2 ^ 21 + 30 * 2 ^ 16 + 29 * 2 ^ 11 + 15) 0 = .ok (.sar ⟨31, 30, 29⟩) ∧
    decode .scal (0x06 * 2 ^ 26 + 1 * 2 ^ 21 + 2 * 2 ^ 16 + 0xFFFE) 0 = .ok (.sltni ⟨1, 2, 0xFFFE⟩) ∧
    decode .scal (0x08 * 2 ^ 26 + 5 * 2 ^ 21 + 2 ^ 20) 0xDEADBEEF = .ok (.ldixHi ⟨5, 0xDEADBEEF⟩) ∧
    decode .scal (0x09 * 2 ^ 26 + 5 * 2 ^ 21 + 6 * 2 ^ 16 + 63 * 2 ^ 10 + 3) 0 = .ok (.roli ⟨5, 6, 63, 0⟩) ∧
    decode .scal (0x0A * 2 ^ 26 + 5 * 2 ^ 21 + 6 * 2 ^ 16 + 32 * 2 ^ 10 + 31 * 2 ^ 4 + 2) 0 = .ok (.ins ⟨5, 6, 32, 31⟩) ∧
    decode .scal (0x0A * 2 ^ 26 + 5 * 2 ^ 21 + 6 * 2 ^ 16 + 32 * 2 ^ 10 + 32 * 2 ^ 4 + 2) 0 = .error (.badOperand .scal 0x0A) ∧
    decode .scal (0x0C * 2 ^ 26 + 5 * 2 ^ 21 + 6 * 2 ^ 16 + 7 * 2 ^ 11 + 33 * 2 ^ 5) 0 = .ok (.fshi ⟨5, 6, 7, 33⟩) ∧
    decode .scal (0x11 * 2 ^ 26 + 6 * 2 ^ 21 + 31 * 2 ^ 16 + 4 * 2 ^ 13 + 3 * 2 ^ 11 + 0x7FF) 0 = .ok (.bci ⟨6, 31, .ltn, .always, 0x7FF⟩) ∧
    decode .scal (0x12 * 2 ^ 26 + 1 * 2 ^ 21 + 0x1FFFFE) 0 = .ok (.j ⟨1, 0x1FFFFE⟩) ∧
    decode .scal (0x00 * 2 ^ 26 + 24) 0 = .error (.reservedMinor .scal 0 24) := by decide

theorem test_decode_scalar_memory :
    decode .scal (0x23 * 2 ^ 26 + 7 * 2 ^ 21 + 8 * 2 ^ 16 + 0x100 * 2 ^ 7 + 1 * 2 ^ 6 + 5 * 2 ^ 3 + 2) 0 = .ok (.std ⟨7, 8, 0x100, true, 5, .die⟩) ∧
    decode .scal (0x23 * 2 ^ 26 + 7 * 2 ^ 21 + 8 * 2 ^ 16 + 5 * 2 ^ 3 + 2) 0 = .error (.badOperand .scal 0x23) ∧
    decode .scal (0x23 * 2 ^ 26 + 7 * 2 ^ 21 + 8 * 2 ^ 16 + 5) 0 = .error (.badCode .scal 0x23) ∧
    decode .scal (0x25 * 2 ^ 26 + 0xA5) 0 = .ok (.waitw ⟨0xA5⟩) ∧
    decode .scal (0x26 * 2 ^ 26 + 4 * 2 ^ 23 + 3 * 2 ^ 20 + 4) 0 = .ok (.fence ⟨.t, .m, .fabric⟩) ∧
    decode .scal (0x27 * 2 ^ 26 + 3 * 2 ^ 16 + 4 * 2 ^ 11 + 1) 0 = .ok (.tset ⟨0, 3, 4⟩) ∧
    decode .scal (0x2A * 2 ^ 26 + 2 * 2 ^ 24 + 7 * 2 ^ 21 + 9 * 2 ^ 16) 0 = .ok (.setb ⟨.cp, 7, 9⟩) ∧
    decode .scal (0x2B * 2 ^ 26 + 5 * 2 ^ 21 + 6 * 2 ^ 16 + 7 * 2 ^ 11 + 4) 0 = .ok (.bartest ⟨5, 6, 7⟩) := by decide

theorem test_decode_tasks :
    decode .scal (0x2C * 2 ^ 26 + 5 * 2 ^ 21 + 6 * 2 ^ 16 + 8) 0 = .ok (.buftake ⟨5, 6, 0⟩) ∧
    decode .scal (0x2D * 2 ^ 26 + 5 * 2 ^ 21 + 6 * 2 ^ 16 + 7 * 2 ^ 11) (8 * 2 ^ 27 + 9 * 2 ^ 22 + 31 * 2 ^ 16) = .ok (.spawnx ⟨5, 6, 7, 8, 9, 31⟩) ∧
    decode .scal (0x2E * 2 ^ 26 + 5 * 2 ^ 21 + 6 * 2 ^ 16 + 7 * 2 ^ 11 + 3) 0 = .ok (.wset ⟨5, 6, 7⟩) ∧
    decode .scal (0x2F * 2 ^ 26 + 5 * 2 ^ 21 + 15 * 2 ^ 16 + 2) 0 = .ok (.ztest ⟨5, 15, 0⟩) ∧
    decode .scal (0x30 * 2 ^ 26 + 5 * 2 ^ 21 + 1) 0 = .ok (.rdid ⟨5, 0, 0⟩) ∧
    decode .sys (0x02 * 2 ^ 26 + 0xFFFF) 0 = .ok (.trapi ⟨0, 0, 0xFFFF⟩) ∧
    decode .sys (0x04 * 2 ^ 26 + 6 * 2 ^ 16 + 7 * 2 ^ 11 + 1) 0 = .ok (.tlbinvPage ⟨0, 6, 7⟩) ∧
    decode .sys (0x06 * 2 ^ 26 + 5 * 2 ^ 21 + 6 * 2 ^ 16 + 7 * 2 ^ 11) 0 = .ok (.resume ⟨5, 6, 7⟩) ∧
    decode .sys (0x0B * 2 ^ 26) 0 = .error (.reservedMajor .sys 0x0B) := by decide

theorem test_decode_engines :
    decode .vec (0x14 * 2 ^ 26 + 55 * 2 ^ 20 + 54 * 2 ^ 14 + 53 * 2 ^ 8 + 15 * 2 ^ 4 + 12) 0 = .ok (.vshl ⟨55, 54, 53, 15, .n32⟩) ∧
    decode .vec (0x19 * 2 ^ 26 + 4 * 2 ^ 20 + 5 * 2 ^ 14) (2 * 2 ^ 23 + 2 ^ 22 + 2 ^ 21 + 2 ^ 20 + 3 * 2 ^ 16) =
      .ok (.vcvt ⟨4, 5, 0, 0, .f32, 0, .rdn, true, true, true, .e5m2, 0⟩) ∧
    decode .vec (0x2E * 2 ^ 26 + 2 ^ 20 + 7 * 2 ^ 14 + 8 * 2 ^ 8) 0 = .ok (.vloop ⟨true, 7, 8⟩) ∧
    decode .vec (0x30 * 2 ^ 26 + 1 * 2 ^ 20 + 2 * 2 ^ 14 + 3 * 2 ^ 8 + 5) 0 = .ok (.pandn ⟨1, 2, 3⟩) ∧
    decode .mat (0x00 * 2 ^ 26 + 9 * 2 ^ 11 + 17 * 2 ^ 3) 0 = .ok (.mcfg ⟨0, 0, 9, 17⟩) ∧
    decode .mat (0x00 * 2 ^ 26 + 9 * 2 ^ 11 + 18 * 2 ^ 3) 0 = .error (.badOperand .mat 0) ∧
    decode .mat (0x04 * 2 ^ 26 + 3 * 2 ^ 24 + 2 * 2 ^ 16 + 9 * 2 ^ 11) 0 = .ok (.mdrainMerge ⟨3, 2, 9, 0⟩) ∧
    decode .copy (0x05 * 2 ^ 26 + 9 * 2 ^ 18 + 1 * 2 ^ 13 + 2 * 2 ^ 8 + 3 * 2 ^ 3 + 1) (4 * 2 ^ 27 + 3 * 2 ^ 10) =
      .ok (.atomf ⟨9, 1, 2, 3, false, false, true, 4, 0, 0, 0, 3, false, false⟩) := by decide

/-! ## Single steps, with values worked out by hand from the rules -/

/-- s6, s7 and s8 after an instruction that reads s7 and s8. -/
def result (i : Instr) (a b : Word) : Word := (after (exec i (withRegs [(6, 0x1111222233334444), (7, a), (8, b)] running))).sreg 6

/-- The step of the placed machine runs the instruction that its word encodes: 0 + 16. -/
theorem test_step_addi : (after (step running)).sreg 3 = 16 := by decide +kernel

/-- 05 R94. -/
theorem test_division_corners : result (.div ⟨6, 7, 8⟩) 7 0 = BitVec.allOnes 64 ∧ result (.remn ⟨6, 7, 8⟩) 7 0 = 7 ∧
    result (.div ⟨6, 7, 8⟩) (2 ^ 63) (BitVec.allOnes 64) = 2 ^ 63 ∧ result (.rem ⟨6, 7, 8⟩) (-7) 2 = -1 := by decide +kernel
theorem test_products : result (.mulh ⟨6, 7, 8⟩) (-1) (-1) = 0 ∧ result (.mulhn ⟨6, 7, 8⟩) (-1) (-1) = 0xFFFFFFFFFFFFFFFE ∧
    result (.sar ⟨6, 7, 8⟩) (2 ^ 63) 65 = 0xC000000000000000 ∧ result (.sltn ⟨6, 7, 8⟩) 1 (-1) = 1 := by decide +kernel
/-- 05 R96, R99-R102. -/
theorem test_fields : result (.ldixHi ⟨6, 0xDEADBEEF⟩) 0 0 = 0xDEADBEEF33334444 ∧ result (.ext ⟨6, 7, 60, 3⟩) 0xF000000000000000 0 = -1 ∧
    result (.ins ⟨6, 7, 16, 15⟩) 0xABCD 0 = 0x11112222ABCD4444 ∧ result (.fshi ⟨6, 7, 8, 0⟩) 1 2 = 2 ∧ result (.fshi ⟨6, 7, 8, 4⟩) 1 0x20 = 0x1000000000000002 ∧
    result (.plset ⟨6, 7, 8, 2⟩) 1 0xF = 3 ∧ result (.ffcs ⟨6, 7, 0⟩) (-1) 0 = -1 ∧ result (.clz ⟨6, 7, 0⟩) 0 0 = 64 := by decide +kernel
/-- 02 R42: s0 discards what is written to it. -/
theorem test_s0_discards : (after (exec (.addi ⟨0, 0, 5⟩) running)).sreg 0 = 0 := by decide +kernel
/-- 05 R104: the second delay slot is in lane 3, so the return address is lane 4. -/
theorem test_link : (after (exec (.j ⟨1, 3⟩) (lined 0x111110 [0, 0, 0, 0, 0]))).sreg 1 = 16 := by decide +kernel
/-- 08 R219: a store lays bytes out from the lowest up; a byte loads sign-extended. -/
theorem test_store_load : let s := after (exec (.std ⟨7, 6, 1, false, 0, .core⟩) (withRegs [(7, 0x1122334455667788)] (spad 0 running)))
    s.bytes (spadKey 0 8) 2 = [0x88, 0x77] ∧ (after (exec (.ldb ⟨5, 6, 8, false, 0, .core⟩) s)).sreg 5 = 0xFFFFFFFFFFFFFF88 ∧
    (after (exec (.ldbn ⟨5, 6, 8, false, 0, .core⟩) s)).sreg 5 = 0x88 := by decide +kernel
/-- 05 R111: 1.0 + 1.0 in lane 63. -/
theorem test_vadd : elem .f32 ((after (exec (.vadd ⟨4, 1, 2, 0, .f32⟩) (lanes 0x3F800000 0x3F800000))).vreg (regNum 4)) 63 = 0x40000000 := by decide +kernel
/-- 06 R145: the shadow of K1 takes s6. -/
theorem test_mcfg : ((after (exec (.mcfg (mm 0 0 6 2)) (withRegs [(6, 64)] running))).me.shadow[2]).toNat = 64 := by decide +kernel
/-- 08 R246: add64 wraps, and min64 is signed. -/
theorem test_atomics : let s := (ops 0x8000000000000000 1 0).store (spadKey 0 0) (leBytes 8 (2 ^ 64 - 1))
    (after (exec (.atom cx) s)).le (spadKey 0 0) 8 = 0 ∧ (after (exec (.atom { cx with xf := 5 }) s)).le (spadKey 0 0) 8 = 2 ^ 64 - 1 := by decide +kernel
/-- 08 R233: 64 bytes copied. -/
theorem test_copy : let s := (ops 0x8000000000000000 0x8000000000000040 64).store (spadKey 0 0x40) (leBytes 64 0xABCDEF)
    (after (exec (.copy cx) s)).le (spadKey 0 0) 64 = 0xABCDEF := by decide +kernel
/-- 08 R254: an arrival answers the phase before it, and the last one completes the phase. -/
theorem test_bararr : let s := after (exec (.bararr ⟨5, 6, 0⟩) (barrier 2 1 false))
    s.sreg 5 = 0 ∧ (barRead s 0 0).phase = true ∧ (barRead s 0 0).arrived = 0 := by decide +kernel

end Sys2Proof.Tests
end

/-! # Scalar arithmetic (05 R94-R102)

Each instruction of these groups is one register write (`sccWrite`). What is to be shown of a form is therefore one equation
between words: the model's operation on one side, the value that the rule of the spec gives on the other. -/

namespace Sys2Proof.ScalarArithmetic

open Sys2Proof.Machine Sys2Proof.Safety

/-! ## Operand forms

Of each form: with its registers ready, an instruction of that form writes its value; `hv` gives the value in the spec's terms. -/

section

variable {i : Instr} {s : State} {v : Word}

theorem exec_write {d : SReg} {rs : List SReg} {f : State → Word} (e : exec i s = sccWrite d rs s f)
    (h : ready s (d :: rs) = true) (hv : f s = v) : exec i s = .next (wrote s d v) := by
  rw [e, sccWrite_wrote h, hv]

theorem exec_alu {o : Sa} {f : Word → Word → Word} (e : exec i s = aluOp o s f) (h : ready s [o.d, o.a, o.b] = true)
    (hv : f (s.sreg o.a) (s.sreg o.b) = v) : exec i s = .next (wrote s o.d v) := exec_write e h hv

theorem exec_unary {o : Sa} {f : Word → Word} (e : exec i s = unaryOp o s f) (h : ready s [o.d, o.a] = true)
    (hv : f (s.sreg o.a) = v) : exec i s = .next (wrote s o.d v) := exec_write e h hv

theorem exec_imm {o : Si} {f : Word → Word → Word} (e : exec i s = immOp o s f) (h : ready s [o.d, o.a] = true)
    (hv : f (s.sreg o.a) (o.imm.signExtend 64) = v) : exec i s = .next (wrote s o.d v) := exec_write e h hv

theorem exec_immZ {o : Si} {f : Word → Word → Word} (e : exec i s = immOpZ o s f) (h : ready s [o.d, o.a] = true)
    (hv : f (s.sreg o.a) (o.imm.zeroExtend 64) = v) : exec i s = .next (wrote s o.d v) := exec_write e h hv

theorem exec_field {o : Sf} {f : Word → Word} (e : exec i s = fieldOp o s f) (h : ready s [o.d, o.a] = true)
    (hv : f (s.sreg o.a) = v) : exec i s = .next (wrote s o.d v) := exec_write e h hv

end

/-! ## Truth values and comparisons -/

theorem flagWord_decide (p : Prop) [Decidable p] : flagWord (decide p) = if p then 1 else 0 := by
  by_cases h : p <;> simp [flagWord, h]

theorem flagWord_slt (a b : Word) : flagWord (a.slt b) = if a.toInt < b.toInt then 1 else 0 := by
  rw [BitVec.slt_eq_decide, flagWord_decide]

theorem flagWord_lt (a b : Word) : flagWord (decide (a < b)) = if a.toNat < b.toNat then 1 else 0 := flagWord_decide _

theorem flagWord_beq (a b : Word) : flagWord (a == b) = if a = b then 1 else 0 := flagWord_decide (a = b)

theorem flagWord_bne (a b : Word) : flagWord (a != b) = if a = b then 0 else 1 := by
  by_cases h : a = b <;> simp [flagWord, h]

theorem min_signed (a b : Word) : (if b.slt a then b else a) = if a.toInt ≤ b.toInt then a else b := by
  simp only [BitVec.slt_iff_toInt_lt, ← Int.not_le, ite_not]

theorem min_unsigned (a b : Word) : (if b < a then b else a) = if a.toNat ≤ b.toNat then a else b := by
  simp only [BitVec.lt_def, ← Nat.not_le, ite_not]

theorem max_signed (a b : Word) : (if a.slt b then b else a) = if a.toInt < b.toInt then b else a := by
  simp only [BitVec.slt_iff_toInt_lt]

/-! ## Quotients and remainders -/

theorem divS_eq (a b : Word) :
    divS a b = if b = 0 then 0xFFFFFFFFFFFFFFFF else BitVec.ofInt 64 (a.toInt.tdiv b.toInt) := by
  rw [divS, show BitVec.allOnes 64 = 0xFFFFFFFFFFFFFFFF from by decide]

theorem divU_eq (a b : Word) : divU a b = if b = 0 then 0xFFFFFFFFFFFFFFFF else BitVec.ofNat 64 (a.toNat / b.toNat) := by
  rw [divU, show BitVec.allOnes 64 = 0xFFFFFFFFFFFFFFFF from by decide]

/-- The signed remainder from the quotient: the dividend less divisor times quotient. -/
theorem remS_eq (a b : Word) : remS a b = if b = 0 then a else a - b * divS a b := by
  unfold remS divS
  split
  · rfl
  · apply eq_sub_of_add_eq
    calc BitVec.ofInt 64 (a.toInt.tmod b.toInt) + b * BitVec.ofInt 64 (a.toInt.tdiv b.toInt)
        = BitVec.ofInt 64 (a.toInt.tmod b.toInt + b.toInt * a.toInt.tdiv b.toInt) := by
          rw [BitVec.ofInt_add, BitVec.ofInt_mul, BitVec.ofInt_toInt]
      _ = a := by rw [Int.tmod_add_mul_tdiv, BitVec.ofInt_toInt]

/-- The unsigned remainder from the quotient. -/
theorem remU_eq (a b : Word) : remU a b = if b = 0 then a else a - b * divU a b := by
  unfold remU divU
  split
  · rfl
  · apply eq_sub_of_add_eq
    calc BitVec.ofNat 64 (a.toNat % b.toNat) + b * BitVec.ofNat 64 (a.toNat / b.toNat)
        = BitVec.ofNat 64 (a.toNat % b.toNat + b.toNat * (a.toNat / b.toNat)) := by
          rw [BitVec.ofNat_add, BitVec.ofNat_mul, BitVec.ofNat_toNat, BitVec.setWidth_eq]
      _ = a := by rw [Nat.mod_add_div, BitVec.ofNat_toNat, BitVec.setWidth_eq]

/-! ## The ALU group (05 R94) -/

/-- Settles O1: a register write for each member, with the lemma on words that gives its value. -/
theorem aluGroup : Obligations.AluGroup := by
  intro o s h a b n quotS quotN
  have hS : divS a b = quotS := divS_eq a b
  have hN : divU a b = quotN := divU_eq a b
  simp only [List.forall_mem_cons]
  exact ⟨⟨rfl, exec_alu (exec_add o s) h rfl⟩,
    ⟨rfl, exec_alu (exec_sub o s) h rfl⟩,
    ⟨rfl, exec_alu (exec_mul o s) h rfl⟩,
    ⟨rfl, exec_alu (exec_mulh o s) h rfl⟩,
    ⟨rfl, exec_alu (exec_mulhn o s) h rfl⟩,
    ⟨rfl, exec_alu (exec_div o s) h hS⟩,
    ⟨rfl, exec_alu (exec_divn o s) h hN⟩,
    ⟨rfl, exec_alu (exec_rem o s) h (hS ▸ remS_eq a b)⟩,
    ⟨rfl, exec_alu (exec_remn o s) h (hN ▸ remU_eq a b)⟩,
    ⟨rfl, exec_alu (exec_and o s) h rfl⟩,
    ⟨rfl, exec_alu (exec_or o s) h rfl⟩,
    ⟨rfl, exec_alu (exec_xor o s) h rfl⟩,
    ⟨rfl, exec_alu (exec_andn o s) h rfl⟩,
    ⟨rfl, exec_alu (exec_shl o s) h rfl⟩,
    ⟨rfl, exec_alu (exec_shr o s) h rfl⟩,
    ⟨rfl, exec_alu (exec_sar o s) h rfl⟩,
    ⟨rfl, exec_alu (exec_min o s) h (min_signed a b)⟩,
    ⟨rfl, exec_alu (exec_max o s) h (max_signed a b)⟩,
    ⟨rfl, exec_alu (exec_minn o s) h (min_unsigned a b)⟩,
    ⟨rfl, exec_alu (exec_maxn o s) h rfl⟩,
    ⟨rfl, exec_alu (exec_slt o s) h (flagWord_slt a b)⟩,
    ⟨rfl, exec_alu (exec_sltn o s) h (flagWord_lt a b)⟩,
    ⟨rfl, exec_alu (exec_seq o s) h (flagWord_beq a b)⟩,
    ⟨rfl, exec_alu (exec_sne o s) h (flagWord_bne a b)⟩,
    List.forall_mem_nil _⟩

/-! ## Immediates (05 R95, R96) -/

/-- Two halves of a word as one number. -/
theorem append_halves (x y : BitVec 32) : x ++ y = BitVec.ofNat 64 (x.toNat * 2 ^ 32 + y.toNat) := by
  apply BitVec.eq_of_toNat_eq
  rw [BitVec.toNat_append, ← Nat.shiftLeft_add_eq_or_of_lt y.isLt, Nat.shiftLeft_eq, BitVec.toNat_ofNat, Nat.mod_eq_of_lt]
  have := x.isLt
  have := y.isLt
  omega

/-- Settles O2: a register write for each form; the model extends the immediate as bits, the statement as a number. -/
theorem immediateForms : Obligations.ImmediateForms := by
  intro o l s
  refine ⟨fun h => ?_, fun h => ⟨rfl, exec_write (exec_ldi o s) h rfl⟩, fun h => ⟨rfl, exec_write (exec_ldix l s) h rfl, rfl,
    exec_write (exec_ldixHi l s) h ?_⟩⟩
  · intro a i
    have zext : o.imm.zeroExtend 64 = BitVec.ofNat 64 o.imm.toNat := (BitVec.ofNat_toNat 64 o.imm).symm
    have sext : (o.imm.signExtend 64).toInt = i := BitVec.toInt_signExtend_of_le (by decide)
    simp only [List.forall_mem_cons]
    exact ⟨⟨rfl, exec_imm (exec_addi o s) h rfl⟩,
      ⟨rfl, exec_immZ (exec_andi o s) h (congrArg (a &&& ·) zext)⟩,
      ⟨rfl, exec_immZ (exec_ori o s) h (congrArg (a ||| ·) zext)⟩,
      ⟨rfl, exec_immZ (exec_xori o s) h (congrArg (a ^^^ ·) zext)⟩,
      ⟨rfl, exec_imm (exec_slti o s) h (by rw [flagWord_slt, sext])⟩,
      ⟨rfl, exec_imm (exec_sltni o s) h (flagWord_lt a _)⟩,
      List.forall_mem_nil _⟩
  · rw [append_halves, BitVec.toNat_setWidth]

/-! ## Rotations and bit fields (05 R98, R99) -/

/-- A rotation by a constant (05 R98). -/
theorem rotateLeft_eq (a : Word) {n : Nat} (h : n < 64) :
    a.rotateLeft n = if n = 0 then a else (a <<< n) ||| (a >>> (64 - n)) := by
  rw [BitVec.rotateLeft_def, Nat.mod_eq_of_lt h]
  split
  case isTrue h0 => rw [h0, BitVec.shiftLeft_zero, BitVec.ushiftRight_eq_zero (by decide), BitVec.or_zero]
  case isFalse => rfl

/-- A word given as a number, bit by bit. -/
theorem getLsbD_word {n i : Nat} (hi : i < 64) : (BitVec.ofNat 64 n).getLsbD i = n.testBit i := by
  rw [BitVec.getLsbD_ofNat, decide_eq_true hi, Bool.true_and]

/-- The mask of a field has the field's bits. -/
theorem getLsbD_fieldMask (pos len : Nat) {i : Nat} (hi : i < 64) :
    (fieldMask pos len).getLsbD i = (decide (pos ≤ i) && decide (i < pos + len)) := by
  rw [fieldMask, getLsbD_word hi, Nat.testBit_mul_two_pow, Nat.testBit_two_pow_sub_one]
  by_cases h : pos ≤ i
  · simp only [h, decide_true, Bool.true_and, decide_eq_decide]; omega
  · simp [h]

/-- Bit `i` of the field of a word. -/
theorem getLsbD_fieldOf (a : Word) (pos len : Nat) {i : Nat} (hi : i < 64) :
    (fieldOf a pos len).getLsbD i = (decide (i < len) && a.getLsbD (pos + i)) := by
  rw [fieldOf, BitVec.getLsbD_and, BitVec.getLsbD_ushiftRight, getLsbD_fieldMask 0 len hi]
  simp [Bool.and_comm]

theorem fieldOf_eq (a : Word) (pos len : Nat) : fieldOf a pos len = (a.extractLsb' pos len).setWidth 64 := by
  apply BitVec.eq_of_getLsbD_eq
  intro i hi
  rw [getLsbD_fieldOf a pos len hi, BitVec.getLsbD_setWidth, BitVec.getLsbD_extractLsb']
  simp [hi]

/-- The top bit of the field stands in every bit above the field. -/
theorem fieldSigned_eq (a : Word) (pos : Nat) {len : Nat} (h : len ≤ 64) (h0 : 0 < len) :
    fieldSigned a pos len = (a.extractLsb' pos len).signExtend 64 := by
  simp only [fieldSigned, fieldOf_eq]
  generalize a.extractLsb' pos len = x
  have low : ∀ i < 64, (x.setWidth 64).getLsbD i = x.getLsbD i := fun i hi => by
    rw [BitVec.getLsbD_setWidth, decide_eq_true hi, Bool.true_and]
  apply BitVec.eq_of_getLsbD_eq
  intro i hi
  rw [BitVec.getLsbD_signExtend, BitVec.msb_eq_getLsbD_last, low (len - 1) (by omega)]
  cases x.getLsbD (len - 1)
  case false =>
    rw [if_neg Bool.false_ne_true, low i hi]
    by_cases hn : i < len
    · simp only [hi, hn, decide_true, Bool.true_and, if_true]
    · simp only [hn, if_false, Bool.and_false, BitVec.getLsbD_of_ge x i (by omega)]
  case true =>
    rw [if_pos rfl, BitVec.getLsbD_or, BitVec.getLsbD_not, getLsbD_fieldMask 0 len hi, low i hi]
    by_cases hn : i < len
    · simp [hi, hn]
    · simp [hi, hn]

/-- What an insertion leaves below the field, puts into it and leaves above it, as one number (05 R99). -/
theorem insert_eq (d a : Word) (pos len : Nat) :
    insertMasked d (a <<< pos) (fieldMask pos len) =
      BitVec.ofNat 64 (d.toNat % 2 ^ pos + a.toNat % 2 ^ len * 2 ^ pos + d.toNat / 2 ^ (pos + len) * 2 ^ (pos + len)) := by
  have hd : d.toNat % 2 ^ pos < 2 ^ pos := Nat.mod_lt _ (Nat.two_pow_pos pos)
  have ha : a.toNat % 2 ^ len < 2 ^ len := Nat.mod_lt _ (Nat.two_pow_pos len)
  have hl : 2 ^ pos * (a.toNat % 2 ^ len) + d.toNat % 2 ^ pos < 2 ^ (pos + len) := by
    rw [Nat.pow_add]
    calc 2 ^ pos * (a.toNat % 2 ^ len) + d.toNat % 2 ^ pos < 2 ^ pos * (a.toNat % 2 ^ len) + 2 ^ pos := by omega
      _ = 2 ^ pos * (a.toNat % 2 ^ len + 1) := by ring
      _ ≤ 2 ^ pos * 2 ^ len := Nat.mul_le_mul_left _ ha
  have e : d.toNat % 2 ^ pos + a.toNat % 2 ^ len * 2 ^ pos + d.toNat / 2 ^ (pos + len) * 2 ^ (pos + len) =
      2 ^ (pos + len) * (d.toNat / 2 ^ (pos + len)) + (2 ^ pos * (a.toNat % 2 ^ len) + d.toNat % 2 ^ pos) := by ring
  apply BitVec.eq_of_getLsbD_eq
  intro i hi
  rw [getLsbD_word hi, e, Nat.testBit_two_pow_mul_add _ hl, Nat.testBit_two_pow_mul_add _ hd, Nat.testBit_div_two_pow,
    Nat.testBit_mod_two_pow, Nat.testBit_mod_two_pow]
  simp only [insertMasked, BitVec.getLsbD_or, BitVec.getLsbD_and, BitVec.getLsbD_not, BitVec.getLsbD_shiftLeft,
    getLsbD_fieldMask pos len hi, BitVec.testBit_toNat, hi]
  by_cases h1 : i < pos
  · simp [h1, show i < pos + len by omega, show ¬pos ≤ i by omega]
  · by_cases h2 : i < pos + len
    · simp [h1, h2, show pos ≤ i by omega, show i - pos < len by omega]
    · simp [h1, h2, show i - (pos + len) + (pos + len) = i by omega]

/-- An insertion into zero. -/
theorem insertZero_eq (a : Word) (pos len : Nat) :
    (a <<< pos) &&& fieldMask pos len = BitVec.ofNat 64 (a.toNat % 2 ^ len * 2 ^ pos) := by
  have := insert_eq 0 a pos len
  simpa [insertMasked] using this

/-- A word that reads as an ill-formed instruction is rejected for its operands (02 R55). -/
theorem decode_scal_rejects {w c k : Nat} {i : Instr} (hk : bits w 26 6 = k) (h : parseScal w c = .ok i) (hw : i.wf = false) :
    decode .scal w c = .error (.badOperand .scal k) := by
  simp only [decode, h, hw, hk, Bool.false_eq_true, if_false]

/-- The members of the bit-field group whose field ends above bit 63 (05 R99). -/
theorem decode_field_past_end {o : Sf} (h : 64 < o.pos.val + (o.len6.val + 1)) {fn : Nat} (hfn : fn < 4) :
    decode .scal (wordSf 10 fn o) 0 = .error (.badOperand .scal 10) := by
  have major : bits (wordSf 10 fn o) 26 6 = 10 := sf_major 10 fn o (by decide) (by omega)
  have minor : bits (wordSf 10 fn o) 0 4 = fn := sf_fn 10 fn o (by omega)
  have fields : readSf (wordSf 10 fn o) = o := sf_read 10 fn o (by omega)
  have bad : decide (o.pos.val + o.len6.val + 1 ≤ 64) = false := decide_eq_false (by omega)
  match fn, hfn with
  | 0, _ => exact decode_scal_rejects major (Laws.Encoding.parse_ext _ 0 o major minor fields) bad
  | 1, _ => exact decode_scal_rejects major (Laws.Encoding.parse_extn _ 0 o major minor fields) bad
  | 2, _ => exact decode_scal_rejects major (Laws.Encoding.parse_ins _ 0 o major minor fields) bad
  | 3, _ => exact decode_scal_rejects major (Laws.Encoding.parse_insz _ 0 o major minor fields) bad

/-! ## Counts (05 R100) -/

/-- Among the low `n` bits: the zeros counted from the top are zeros, and a one follows unless all are. -/
theorem leadingZeros_spec (x : Word) (n : Nat) : leadingZeros x n ≤ n ∧
    (∀ i < n, n - leadingZeros x n ≤ i → x.getLsbD i = false) ∧
    (leadingZeros x n < n → x.getLsbD (n - 1 - leadingZeros x n) = true) := by
  induction n with
  | zero => simp [leadingZeros]
  | succ n ih =>
    obtain ⟨le, zeros, one⟩ := ih
    unfold leadingZeros
    split
    case isTrue h => exact ⟨by omega, by omega, fun _ => h⟩
    case isFalse h =>
      refine ⟨by omega, fun i hi hl => ?_, fun hl => ?_⟩
      · rcases Nat.lt_succ_iff_lt_or_eq.mp hi with hn | rfl
        · exact zeros i hn (by omega)
        · exact Bool.eq_false_iff.mpr h
      · rw [show n + 1 - 1 - (1 + leadingZeros x n) = n - 1 - leadingZeros x n by omega]
        exact one (by omega)

/-- A word is below the power of two that its leading zeros leave. -/
theorem toNat_lt_of_leadingZeros (x : Word) : x.toNat < 2 ^ (64 - leadingZeros x 64) := by
  apply Nat.lt_pow_two_of_testBit
  intro i hi
  obtain ⟨-, zeros, -⟩ := leadingZeros_spec x 64
  rw [BitVec.testBit_toNat]
  by_cases h : i < 64
  · exact zeros i h hi
  · exact BitVec.getLsbD_of_ge x i (by omega)

/-- From bit `i` on, among `n` bits: the zeros counted are zeros, and a one follows unless all are. -/
theorem trailingZeros_spec (x : Word) (n i : Nat) : trailingZeros x n i ≤ n ∧
    (∀ k < trailingZeros x n i, x.getLsbD (i + k) = false) ∧
    (trailingZeros x n i < n → x.getLsbD (i + trailingZeros x n i) = true) := by
  induction n generalizing i with
  | zero => simp [trailingZeros]
  | succ n ih =>
    obtain ⟨le, zeros, one⟩ := ih (i + 1)
    unfold trailingZeros
    split
    case isTrue h => exact ⟨by omega, by omega, fun _ => h⟩
    case isFalse h =>
      refine ⟨by omega, fun k hk => ?_, fun hl => ?_⟩
      · cases k with
        | zero => exact Bool.eq_false_iff.mpr h
        | succ k => rw [show i + (k + 1) = i + 1 + k by omega]; exact zeros k (by omega)
      · rw [← Nat.add_assoc]
        exact one (by omega)

/-- Counting ones by division is counting the set bits. -/
theorem popc_eq (n x : Nat) : popc n x = ((List.range n).filter fun i => x.testBit i).length := by
  induction n generalizing x with
  | zero => rfl
  | succ n ih =>
    rw [popc, ih, List.range_succ_eq_map, List.filter_cons, List.filter_map, Nat.testBit_zero]
    have shift : ((fun i => x.testBit i) ∘ Nat.succ) = fun i => (x / 2).testBit i := funext (Nat.testBit_succ x)
    rw [shift]
    rcases Nat.mod_two_eq_zero_or_one x with h | h <;> simp [h, Nat.add_comm]

theorem population_eq (x : Word) : population x = onesIn x := popc_eq 64 x.toNat

/-! ## Reversals (05 R100) -/

/-- The number whose bits are the low `n` bits of `x`, the lowest first. -/
def reversedBits (x : Word) (n : Nat) : Nat := (List.range n).foldl (fun r i => 2 * r + (if x.getLsbD i then 1 else 0)) 0

theorem reversedBits_succ (x : Word) (n : Nat) :
    reversedBits x (n + 1) = 2 * reversedBits x n + (if x.getLsbD n then 1 else 0) := by
  rw [reversedBits, List.range_succ, List.foldl_append]; rfl

theorem testBit_reversedBits (x : Word) (n i : Nat) (h : i < n) : (reversedBits x n).testBit (n - 1 - i) = x.getLsbD i := by
  induction n with
  | zero => omega
  | succ n ih =>
    rw [reversedBits_succ]
    by_cases hi : i = n
    · subst hi
      rw [Nat.add_sub_cancel, Nat.sub_self, Nat.testBit_zero]
      cases x.getLsbD i <;> simp
    · rw [show n + 1 - 1 - i = n - 1 - i + 1 by omega, Nat.testBit_add_one, ← ih (by omega)]
      congr 1
      split <;> omega

theorem getLsbD_reverseBits (x : Word) {i : Nat} (h : i < 64) : (reverseBits x).getLsbD (63 - i) = x.getLsbD i := by
  rw [← testBit_reversedBits x 64 i h]
  exact getLsbD_word (by omega)

theorem extract_swapBytes (x : Word) {i : Nat} (h : i < 8) :
    (swapBytes x).extractLsb' (8 * (7 - i)) 8 = x.extractLsb' (8 * i) 8 := by
  have hl : (leBytes 8 x.toNat).length = 8 := leBytes_length 8 _
  have hr : 7 - i < (leBytes 8 x.toNat).reverse.length := by rw [List.length_reverse, hl]; omega
  rw [← leBytes_word 8 x i (by omega)]
  apply BitVec.eq_of_toNat_eq
  have byte := leNat_byte (leBytes 8 x.toNat).reverse (7 - i) hr
  rw [List.getElem_reverse] at byte
  simp only [hl, show 8 - 1 - (7 - i) = i by omega] at byte
  have lt : leNat (leBytes 8 x.toNat).reverse < 2 ^ 64 := by
    have := leNat_lt (leBytes 8 x.toNat).reverse
    rwa [List.length_reverse, hl] at this
  rw [swapBytes, BitVec.extractLsb'_toNat, BitVec.toNat_ofNat, Nat.mod_eq_of_lt lt, Nat.shiftRight_eq_div_pow, Nat.pow_mul,
    ← byte]

/-! ## Funnel shifts (05 R101) -/

theorem funnel_eq (a b : Word) (n : Nat) : funnel a b n = ((a ++ b) >>> n).extractLsb' 0 64 := by
  apply BitVec.eq_of_toNat_eq
  rw [funnel, BitVec.toNat_ofNat, BitVec.extractLsb'_toNat, Nat.shiftRight_zero, BitVec.toNat_ushiftRight, BitVec.toNat_append,
    ← Nat.shiftLeft_add_eq_or_of_lt b.isLt, Nat.shiftLeft_eq, Nat.shiftRight_eq_div_pow]

/-! ## PLSET (05 R102) -/

/-- Bit `i` of `b` is offered to `x`, whose population may grow to `lim`. -/
def offer (b : Word) (lim i : Nat) (x : Word) : Word :=
  if b.getLsbD i = true ∧ x.getLsbD i = false ∧ onesIn x < lim then x ||| BitVec.twoPow 64 i else x

/-- `a` after the low `n` bits of `b` have been offered, in ascending order. -/
def offered (a b : Word) (lim : Nat) : Nat → Word
  | 0 => a
  | n + 1 => offer b lim n (offered a b lim n)

theorem populate_succ (b x : Word) (lim n i : Nat) : populate b lim (n + 1) i x = populate b lim n (i + 1) (offer b lim i x) := by
  have single : BitVec.twoPow 64 i = BitVec.ofNat 64 (2 ^ i) :=
    BitVec.eq_of_toNat_eq (by rw [BitVec.toNat_twoPow, BitVec.toNat_ofNat])
  rw [populate, offer, population_eq, single]
  simp only [Bool.and_eq_true, Bool.not_eq_true', decide_eq_true_eq, and_assoc]

/-- The bits still to be offered, to what those before them have made. -/
theorem populate_offered (a b : Word) (lim n i : Nat) : populate b lim n i (offered a b lim i) = offered a b lim (i + n) := by
  induction n generalizing i with
  | zero => rfl
  | succ n ih => rw [populate_succ, show i + (n + 1) = i + 1 + n by omega, ← ih]; rfl

theorem plsetWord_eq (a b : Word) (lim : Nat) : plsetWord a b lim = offered a b lim 64 := by
  have := populate_offered a b lim 64 0
  rwa [Nat.zero_add] at this

/-- Once the population has reached `lim` nothing is set. -/
theorem offered_full {a b : Word} {lim : Nat} (h : lim ≤ onesIn a) (n : Nat) : offered a b lim n = a := by
  induction n with
  | zero => rfl
  | succ n ih => rw [offered, ih, offer, if_neg (by omega)]

/-! ## The groups together (05 R98-R102) -/

/-- Settles O3, group by group: a register write for each form, with the lemma on words that gives its value. The words that the
statement asks for are the model's own results. -/
theorem shiftsFieldsAndBits : Obligations.ShiftsFieldsAndBits := by
  refine ⟨fun o s => ?_, fun o s => ⟨fun h => ?_, fun h _ => ?_⟩, fun o c s => ⟨fun h => ?_, fun h => ?_, fun h => ?_⟩⟩
  · intro a n len
    simp only [List.forall_mem_cons]
    refine ⟨fun h _ => ?_, fun h _ => ?_, fun h fn hfn => ⟨decode_field_past_end h hfn, rfl⟩⟩
    · exact ⟨⟨rfl, exec_field (exec_shli o s) h rfl⟩,
        ⟨rfl, exec_field (exec_shri o s) h rfl⟩,
        ⟨rfl, exec_field (exec_sari o s) h rfl⟩,
        ⟨rfl, exec_field (exec_roli o s) h (rotateLeft_eq a o.pos.isLt)⟩,
        List.forall_mem_nil _⟩
    · exact ⟨⟨rfl, exec_field (exec_ext o s) h (fieldSigned_eq a n o.len6.isLt (Nat.succ_pos _))⟩,
        ⟨rfl, exec_field (exec_extn o s) h (fieldOf_eq a n len)⟩,
        ⟨rfl, exec_write (exec_ins o s) h (insert_eq (s.sreg o.d) a n len)⟩,
        ⟨rfl, exec_field (exec_insz o s) h (insertZero_eq a n len)⟩,
        List.forall_mem_nil _⟩
  · exact ⟨rfl, exec_write (exec_insm o s) h rfl⟩
  · obtain ⟨lead_le, -, lead_one⟩ := leadingZeros_spec (s.sreg o.a) 64
    obtain ⟨trail_le, trail_zeros, trail_one⟩ := trailingZeros_spec (s.sreg o.a) 64 0
    simp only [Nat.zero_add] at trail_zeros trail_one
    refine ⟨leadingZeros (s.sreg o.a) 64, trailingZeros (s.sreg o.a) 64 0, reverseBits (s.sreg o.a), swapBytes (s.sreg o.a),
      ⟨lead_le, toNat_lt_of_leadingZeros _, lead_one⟩, ⟨trail_le, trail_zeros, trail_one⟩,
      fun _ => getLsbD_reverseBits _, fun _ => extract_swapBytes _, ?_⟩
    simp only [List.forall_mem_cons]
    exact ⟨⟨rfl, exec_unary (exec_clz o s) h rfl⟩,
      ⟨rfl, exec_unary (exec_ctz o s) h rfl⟩,
      ⟨rfl, exec_unary (exec_popc o s) h (congrArg (BitVec.ofNat 64) (population_eq _))⟩,
      ⟨rfl, exec_unary (exec_brev o s) h rfl⟩,
      ⟨rfl, exec_unary (exec_ffcs o s) h rfl⟩,
      ⟨rfl, exec_unary (exec_bswap o s) h rfl⟩,
      List.forall_mem_nil _⟩
  · exact ⟨rfl, exec_write (exec_fshi o s) h (funnel_eq _ _ _)⟩
  · exact ⟨rfl, exec_write (exec_fsh c s) h (funnel_eq _ _ _)⟩
  · exact ⟨rfl, offered (s.sreg o.a) (s.sreg o.b) o.sh.val, rfl, fun _ _ => rfl, fun full => offered_full full 64,
      exec_write (exec_plset o s) h (plsetWord_eq _ _ _)⟩

end Sys2Proof.ScalarArithmetic

namespace Sys2Proof.EncodingRoundTrip

/-- Settles O55, instruction by instruction: the round trip of each is `Laws.Encoding`'s; the steps of the package have no word. -/
theorem encodeDecode : Obligations.EncodeDecode := by
  intro i e hw he
  cases i with
  | add o => exact Laws.Encoding.add o e hw he
  | sub o => exact Laws.Encoding.sub o e hw he
  | mul o => exact Laws.Encoding.mul o e hw he
  | mulh o => exact Laws.Encoding.mulh o e hw he
  | mulhn o => exact Laws.Encoding.mulhn o e hw he
  | div o => exact Laws.Encoding.div o e hw he
  | divn o => exact Laws.Encoding.divn o e hw he
  | rem o => exact Laws.Encoding.rem o e hw he
  | remn o => exact Laws.Encoding.remn o e hw he
  | and o => exact Laws.Encoding.and o e hw he
  | or o => exact Laws.Encoding.or o e hw he
  | xor o => exact Laws.Encoding.xor o e hw he
  | andn o => exact Laws.Encoding.andn o e hw he
  | shl o => exact Laws.Encoding.shl o e hw he
  | shr o => exact Laws.Encoding.shr o e hw he
  | sar o => exact Laws.Encoding.sar o e hw he
  | min o => exact Laws.Encoding.min o e hw he
  | max o => exact Laws.Encoding.max o e hw he
  | minn o => exact Laws.Encoding.minn o e hw he
  | maxn o => exact Laws.Encoding.maxn o e hw he
  | slt o => exact Laws.Encoding.slt o e hw he
  | sltn o => exact Laws.Encoding.sltn o e hw he
  | seq o => exact Laws.Encoding.seq o e hw he
  | sne o => exact Laws.Encoding.sne o e hw he
  | addi o => exact Laws.Encoding.addi o e hw he
  | andi o => exact Laws.Encoding.andi o e hw he
  | ori o => exact Laws.Encoding.ori o e hw he
  | xori o => exact Laws.Encoding.xori o e hw he
  | slti o => exact Laws.Encoding.slti o e hw he
  | sltni o => exact Laws.Encoding.sltni o e hw he
  | ldi o => exact Laws.Encoding.ldi o e hw he
  | ldix o => exact Laws.Encoding.ldix o e hw he
  | ldixHi o => exact Laws.Encoding.ldixHi o e hw he
  | shli o => exact Laws.Encoding.shli o e hw he
  | shri o => exact Laws.Encoding.shri o e hw he
  | sari o => exact Laws.Encoding.sari o e hw he
  | roli o => exact Laws.Encoding.roli o e hw he
  | ext o => exact Laws.Encoding.ext o e hw he
  | extn o => exact Laws.Encoding.extn o e hw he
  | ins o => exact Laws.Encoding.ins o e hw he
  | insz o => exact Laws.Encoding.insz o e hw he
  | insm o => exact Laws.Encoding.insm o e hw he
  | clz o => exact Laws.Encoding.clz o e hw he
  | ctz o => exact Laws.Encoding.ctz o e hw he
  | popc o => exact Laws.Encoding.popc o e hw he
  | brev o => exact Laws.Encoding.brev o e hw he
  | ffcs o => exact Laws.Encoding.ffcs o e hw he
  | bswap o => exact Laws.Encoding.bswap o e hw he
  | fshi o => exact Laws.Encoding.fshi o e hw he
  | fsh o => exact Laws.Encoding.fsh o e hw he
  | plset o => exact Laws.Encoding.plset o e hw he
  | bc o => exact Laws.Encoding.bc o e hw he
  | bci o => exact Laws.Encoding.bci o e hw he
  | j o => exact Laws.Encoding.j o e hw he
  | jr o => exact Laws.Encoding.jr o e hw he
  | ldb o => exact Laws.Encoding.ldb o e hw he
  | ldbn o => exact Laws.Encoding.ldbn o e hw he
  | ldh o => exact Laws.Encoding.ldh o e hw he
  | ldhn o => exact Laws.Encoding.ldhn o e hw he
  | ldw o => exact Laws.Encoding.ldw o e hw he
  | ldwn o => exact Laws.Encoding.ldwn o e hw he
  | ldd o => exact Laws.Encoding.ldd o e hw he
  | lda o => exact Laws.Encoding.lda o e hw he
  | stb o => exact Laws.Encoding.stb o e hw he
  | sth o => exact Laws.Encoding.sth o e hw he
  | stw o => exact Laws.Encoding.stw o e hw he
  | std o => exact Laws.Encoding.std o e hw he
  | stl o => exact Laws.Encoding.stl o e hw he
  | waitw o => exact Laws.Encoding.waitw o e hw he
  | fence o => exact Laws.Encoding.fence o e hw he
  | tlook o => exact Laws.Encoding.tlook o e hw he
  | tset o => exact Laws.Encoding.tset o e hw he
  | tclr o => exact Laws.Encoding.tclr o e hw he
  | getres o => exact Laws.Encoding.getres o e hw he
  | evwait o => exact Laws.Encoding.evwait o e hw he
  | evpop o => exact Laws.Encoding.evpop o e hw he
  | evpeek o => exact Laws.Encoding.evpeek o e hw he
  | setb o => exact Laws.Encoding.setb o e hw he
  | barinit o => exact Laws.Encoding.barinit o e hw he
  | barexp o => exact Laws.Encoding.barexp o e hw he
  | bararr o => exact Laws.Encoding.bararr o e hw he
  | barwait o => exact Laws.Encoding.barwait o e hw he
  | bartest o => exact Laws.Encoding.bartest o e hw he
  | spawn o => exact Laws.Encoding.spawn o e hw he
  | joinwait o => exact Laws.Encoding.joinwait o e hw he
  | yield o => exact Laws.Encoding.yield o e hw he
  | done o => exact Laws.Encoding.done o e hw he
  | tbound o => exact Laws.Encoding.tbound o e hw he
  | hintnext o => exact Laws.Encoding.hintnext o e hw he
  | waitpred o => exact Laws.Encoding.waitpred o e hw he
  | bufpass o => exact Laws.Encoding.bufpass o e hw he
  | buftake o => exact Laws.Encoding.buftake o e hw he
  | buffree o => exact Laws.Encoding.buffree o e hw he
  | spawnx o => exact Laws.Encoding.spawnx o e hw he
  | sqappend o => exact Laws.Encoding.sqappend o e hw he
  | sqconfirm o => exact Laws.Encoding.sqconfirm o e hw he
  | sqstate o => exact Laws.Encoding.sqstate o e hw he
  | wset o => exact Laws.Encoding.wset o e hw he
  | wclr o => exact Laws.Encoding.wclr o e hw he
  | wget o => exact Laws.Encoding.wget o e hw he
  | zwait o => exact Laws.Encoding.zwait o e hw he
  | zdrop o => exact Laws.Encoding.zdrop o e hw he
  | ztest o => exact Laws.Encoding.ztest o e hw he
  | rdcyc o => exact Laws.Encoding.rdcyc o e hw he
  | rdid o => exact Laws.Encoding.rdid o e hw he
  | rdfeat o => exact Laws.Encoding.rdfeat o e hw he
  | mfcr o => exact Laws.Encoding.mfcr o e hw he
  | mtcr o => exact Laws.Encoding.mtcr o e hw he
  | trapi o => exact Laws.Encoding.trapi o e hw he
  | brk o => exact Laws.Encoding.brk o e hw he
  | tlbinvCtx o => exact Laws.Encoding.tlbinvCtx o e hw he
  | tlbinvPage o => exact Laws.Encoding.tlbinvPage o e hw he
  | tlbinvAll o => exact Laws.Encoding.tlbinvAll o e hw he
  | actset o => exact Laws.Encoding.actset o e hw he
  | resume o => exact Laws.Encoding.resume o e hw he
  | halt o => exact Laws.Encoding.halt o e hw he
  | wdogPet o => exact Laws.Encoding.wdogPet o e hw he
  | wdogExpire o => exact Laws.Encoding.wdogExpire o e hw he
  | wdogCorerst o => exact Laws.Encoding.wdogCorerst o e hw he
  | wdogDierst o => exact Laws.Encoding.wdogDierst o e hw he
  | featset o => exact Laws.Encoding.featset o e hw he
  | parkpop o => exact Laws.Encoding.parkpop o e hw he
  | vadd o => exact Laws.Encoding.vadd o e hw he
  | vsub o => exact Laws.Encoding.vsub o e hw he
  | vmul o => exact Laws.Encoding.vmul o e hw he
  | vmin o => exact Laws.Encoding.vmin o e hw he
  | vmax o => exact Laws.Encoding.vmax o e hw he
  | vabs o => exact Laws.Encoding.vabs o e hw he
  | vneg o => exact Laws.Encoding.vneg o e hw he
  | vmov o => exact Laws.Encoding.vmov o e hw he
  | vfma o => exact Laws.Encoding.vfma o e hw he
  | vfms o => exact Laws.Encoding.vfms o e hw he
  | vcmp o => exact Laws.Encoding.vcmp o e hw he
  | vsel o => exact Laws.Encoding.vsel o e hw he
  | vexp2 o => exact Laws.Encoding.vexp2 o e hw he
  | vlog2 o => exact Laws.Encoding.vlog2 o e hw he
  | vrcp o => exact Laws.Encoding.vrcp o e hw he
  | vrsq o => exact Laws.Encoding.vrsq o e hw he
  | vsqrt o => exact Laws.Encoding.vsqrt o e hw he
  | vand o => exact Laws.Encoding.vand o e hw he
  | vor o => exact Laws.Encoding.vor o e hw he
  | vxor o => exact Laws.Encoding.vxor o e hw he
  | vshl o => exact Laws.Encoding.vshl o e hw he
  | vshr o => exact Laws.Encoding.vshr o e hw he
  | vsar o => exact Laws.Encoding.vsar o e hw he
  | vpopc o => exact Laws.Encoding.vpopc o e hw he
  | vimad o => exact Laws.Encoding.vimad o e hw he
  | vcvt o => exact Laws.Encoding.vcvt o e hw he
  | vquant o => exact Laws.Encoding.vquant o e hw he
  | vdeq o => exact Laws.Encoding.vdeq o e hw he
  | vamax o => exact Laws.Encoding.vamax o e hw he
  | vpack o => exact Laws.Encoding.vpack o e hw he
  | vunpk o => exact Laws.Encoding.vunpk o e hw he
  | vshuf o => exact Laws.Encoding.vshuf o e hw he
  | vrot o => exact Laws.Encoding.vrot o e hw he
  | vbcast o => exact Laws.Encoding.vbcast o e hw he
  | vins o => exact Laws.Encoding.vins o e hw he
  | vredAdd o => exact Laws.Encoding.vredAdd o e hw he
  | vredMin o => exact Laws.Encoding.vredMin o e hw he
  | vredMax o => exact Laws.Encoding.vredMax o e hw he
  | vredAmax o => exact Laws.Encoding.vredAmax o e hw he
  | vredAnd o => exact Laws.Encoding.vredAnd o e hw he
  | vredOr o => exact Laws.Encoding.vredOr o e hw he
  | vredXor o => exact Laws.Encoding.vredXor o e hw he
  | vld o => exact Laws.Encoding.vld o e hw he
  | vst o => exact Laws.Encoding.vst o e hw he
  | vgath o => exact Laws.Encoding.vgath o e hw he
  | vscat o => exact Laws.Encoding.vscat o e hw he
  | vldg o => exact Laws.Encoding.vldg o e hw he
  | vstg o => exact Laws.Encoding.vstg o e hw he
  | accrd o => exact Laws.Encoding.accrd o e hw he
  | accwr o => exact Laws.Encoding.accwr o e hw he
  | commit o => exact Laws.Encoding.commit o e hw he
  | gcfg o => exact Laws.Encoding.gcfg o e hw he
  | vloop o => exact Laws.Encoding.vloop o e hw he
  | vlend o => exact Laws.Encoding.vlend o e hw he
  | pset o => exact Laws.Encoding.pset o e hw he
  | pand o => exact Laws.Encoding.pand o e hw he
  | por o => exact Laws.Encoding.por o e hw he
  | pxor o => exact Laws.Encoding.pxor o e hw he
  | pnot o => exact Laws.Encoding.pnot o e hw he
  | pandn o => exact Laws.Encoding.pandn o e hw he
  | pcnt o => exact Laws.Encoding.pcnt o e hw he
  | vrand o => exact Laws.Encoding.vrand o e hw he
  | vseed o => exact Laws.Encoding.vseed o e hw he
  | vtopk o => exact Laws.Encoding.vtopk o e hw he
  | vdraw o => exact Laws.Encoding.vdraw o e hw he
  | mcfg o => exact Laws.Encoding.mcfg o e hw he
  | mma o => exact Laws.Encoding.mma o e hw he
  | mmaAcca o => exact Laws.Encoding.mmaAcca o e hw he
  | mspa o => exact Laws.Encoding.mspa o e hw he
  | mzero o => exact Laws.Encoding.mzero o e hw he
  | mdrain o => exact Laws.Encoding.mdrain o e hw he
  | mdrainMerge o => exact Laws.Encoding.mdrainMerge o e hw he
  | mstat o => exact Laws.Encoding.mstat o e hw he
  | copy o => exact Laws.Encoding.copy o e hw he
  | copyf o => exact Laws.Encoding.copyf o e hw he
  | cpb o => exact Laws.Encoding.cpb o e hw he
  | cph o => exact Laws.Encoding.cph o e hw he
  | atom o => exact Laws.Encoding.atom o e hw he
  | atomf o => exact Laws.Encoding.atomf o e hw he
  | subs o => exact Laws.Encoding.subs o e hw he
  | unsub o => exact Laws.Encoding.unsub o e hw he
  | pull o => exact Laws.Encoding.pull o e hw he
  | rrot o => exact Laws.Encoding.rrot o e hw he
  | pref o => exact Laws.Encoding.pref o e hw he
  | invc o => exact Laws.Encoding.invc o e hw he
  | wbc o => exact Laws.Encoding.wbc o e hw he
  | controlRegisterWrite die num val => exact Laws.Encoding.controlRegisterWrite die num val e hw he
  | parkaskWrite die val => exact Laws.Encoding.parkaskWrite die val e hw he
  | featacceptWrite die val => exact Laws.Encoding.featacceptWrite die val e hw he
  | actbaseWrite die ctx val => exact Laws.Encoding.actbaseWrite die ctx val e hw he
  | ttcfgWrite core val => exact Laws.Encoding.ttcfgWrite core val e hw he
  | bfmtWrite core bank val => exact Laws.Encoding.bfmtWrite core bank val e hw he
  | fpControlWrite core reg val => exact Laws.Encoding.fpControlWrite core reg val e hw he
  | hashmaskWrite die i val => exact Laws.Encoding.hashmaskWrite die i val e hw he
  | chkctlWrite die val => exact Laws.Encoding.chkctlWrite die val e hw he
  | poisonlogWrite die val => exact Laws.Encoding.poisonlogWrite die val e hw he
  | wdogctlWrite die val => exact Laws.Encoding.wdogctlWrite die val e hw he
  | hostUnsupportedRequest addr => exact Laws.Encoding.hostUnsupportedRequest addr e hw he
  | mailboxTailWrite val => exact Laws.Encoding.mailboxTailWrite val e hw he
  | launchRecord => exact Laws.Encoding.launchRecord e hw he
  | attestRecord => exact Laws.Encoding.attestRecord e hw he
  | launchComplete launch => exact Laws.Encoding.launchComplete launch e hw he
  | successorRootPlace launch => exact Laws.Encoding.successorRootPlace launch e hw he
  | powerOn board => exact Laws.Encoding.powerOn board e hw he
  | firmwarePiece piece => exact Laws.Encoding.firmwarePiece piece e hw he
  | powerLoss => exact Laws.Encoding.powerLoss e hw he
  | packageReset => exact Laws.Encoding.packageReset e hw he
  | dieReset die => exact Laws.Encoding.dieReset die e hw he
  | watchdogExpiry die => exact Laws.Encoding.watchdogExpiry die e hw he
  | scrubPass die line found => exact Laws.Encoding.scrubPass die line found e hw he
  | taskForwardReceive die => exact Laws.Encoding.taskForwardReceive die e hw he
  | coreIdleRequest core => exact Laws.Encoding.coreIdleRequest core e hw he
  | agingPromotion task => exact Laws.Encoding.agingPromotion task e hw he
  | readyWaitExpiry task => exact Laws.Encoding.readyWaitExpiry task e hw he
  | deadlineExpiry core => exact Laws.Encoding.deadlineExpiry core e hw he
  | holdingTaskSave core => exact Laws.Encoding.holdingTaskSave core e hw he
  | featureParkPlace die => exact Laws.Encoding.featureParkPlace die e hw he
  | loadTileDelivery task core => exact Laws.Encoding.loadTileDelivery task core e hw he
  | storeStageWrite task => exact Laws.Encoding.storeStageWrite task e hw he
  | causeTaken core => exact Laws.Encoding.causeTaken core e hw he
  | dCauseArrival core n => exact Laws.Encoding.dCauseArrival core n e hw he
  | releaseSend core => exact Laws.Encoding.releaseSend core e hw he
  | copyComplete core n => exact Laws.Encoding.copyComplete core n e hw he
  | barrierDelivery core n => exact Laws.Encoding.barrierDelivery core n e hw he
  | subscriptionTileDelivery core id => exact Laws.Encoding.subscriptionTileDelivery core id e hw he
  | rrotExchange clearing => exact Laws.Encoding.rrotExchange clearing e hw he
  | rrotTimeout core => exact Laws.Encoding.rrotTimeout core e hw he
  | barwaitTimeout core => exact Laws.Encoding.barwaitTimeout core e hw he
  | mergeTileArrival core => exact Laws.Encoding.mergeTileArrival core e hw he
  | mergeRetry core => exact Laws.Encoding.mergeRetry core e hw he
  | mergeWaitTimeout core => exact Laws.Encoding.mergeWaitTimeout core e hw he
  | mergeRefusedTimeout core => exact Laws.Encoding.mergeRefusedTimeout core e hw he
  | arrayStep core => exact Laws.Encoding.arrayStep core e hw he
  | accrdLand core t => exact Laws.Encoding.accrdLand core t e hw he
  | atomicUnitPerform core n => exact Laws.Encoding.atomicUnitPerform core n e hw he
  | memoryPortAccess core n => exact Laws.Encoding.memoryPortAccess core n e hw he
  | migration die page => exact Laws.Encoding.migration die page e hw he
  | shootdownAck die by_ => exact Laws.Encoding.shootdownAck die by_ e hw he
  | migholdExpiry die n => exact Laws.Encoding.migholdExpiry die n e hw he
  | blazeLanded die entry => exact Laws.Encoding.blazeLanded die entry e hw he
  | blazeFailed die entry => exact Laws.Encoding.blazeFailed die entry e hw he
  | watcherRegister core n => exact Laws.Encoding.watcherRegister core n e hw he
  | cphArrival core n => exact Laws.Encoding.cphArrival core n e hw he
  | watch die n => exact Laws.Encoding.watch die n e hw he
  | landed die n => exact Laws.Encoding.landed die n e hw he
  | failed die n => exact Laws.Encoding.failed die n e hw he
  | holdlimExpiry die n => exact Laws.Encoding.holdlimExpiry die n e hw he
  | resendBackoffExpiry packet => exact Laws.Encoding.resendBackoffExpiry packet e hw he
  | ringSlotArrival packet takes => exact Laws.Encoding.ringSlotArrival packet takes e hw he
  | markedResponse die peer => exact Laws.Encoding.markedResponse die peer e hw he
  | entropyQuietPoint die peer => exact Laws.Encoding.entropyQuietPoint die peer e hw he
  | dlrMove packet => exact Laws.Encoding.dlrMove packet e hw he
  | linkFlitRetransmit packet => exact Laws.Encoding.linkFlitRetransmit packet e hw he
  | illegalEncoding bad => exact Laws.Encoding.illegalEncoding bad e hw he
  | accessAcknowledged core n => exact Laws.Encoding.accessAcknowledged core n e hw he
  | overflowStoreDrain die tc => exact Laws.Encoding.overflowStoreDrain die tc e hw he
  | injectionLimitRelease packet => exact Laws.Encoding.injectionLimitRelease packet e hw he
  | torusHop packet full => exact Laws.Encoding.torusHop packet full e hw he
  | clearingRingRetry core n => exact Laws.Encoding.clearingRingRetry core n e hw he

end Sys2Proof.EncodingRoundTrip

/-! # Scalar registers, branches and jumps (02 R42, 05 R89-R104) -/

namespace Sys2Proof.ScalarControl

open Sys2Proof.Machine Sys2Proof.Safety

/-! ## The interlock of register writes (05 R97) -/

section

variable {i : Instr} {s : State}

/-- An instruction that is one register write holds while a register that it names is awaited. -/
theorem write_waits {d : SReg} {rs : List SReg} {v : State → Word} (h : ready s (d :: rs) = false)
    (e : exec i s = sccWrite d rs s v) : exec i s = .next (waiting s) := by
  rw [e, sccWrite, sccOp_waits h, holds_eq_waiting]

theorem alu_waits {o : Sa} (h : ready s [o.d, o.a, o.b] = false) {f : Word → Word → Word} (e : exec i s = aluOp o s f) :
    exec i s = .next (waiting s) := write_waits h e

theorem unary_waits {o : Sa} (h : ready s [o.d, o.a] = false) {f : Word → Word} (e : exec i s = unaryOp o s f) :
    exec i s = .next (waiting s) := write_waits h e

theorem imm_waits {o : Si} (h : ready s [o.d, o.a] = false) {f : Word → Word → Word} (e : exec i s = immOp o s f) :
    exec i s = .next (waiting s) := write_waits h e

theorem immZ_waits {o : Si} (h : ready s [o.d, o.a] = false) {f : Word → Word → Word} (e : exec i s = immOpZ o s f) :
    exec i s = .next (waiting s) := write_waits h e

theorem field_waits {o : Sf} (h : ready s [o.d, o.a] = false) {f : Word → Word} (e : exec i s = fieldOp o s f) :
    exec i s = .next (waiting s) := write_waits h e

end

/-- Settles O4: the forms of each group are register writes, and a register write holds while its registers are awaited. -/
theorem registersAndInterlock : Obligations.RegistersAndInterlock := by
  refine ⟨fun s d r v => ⟨sreg_zero s, wrote_sreg s d r v⟩, fun o s h => ?_, fun o s h => ?_, fun o s h => ?_,
    fun o s h => ?_, fun o s h => ?_⟩ <;> simp only [List.forall_mem_cons]
  · exact ⟨alu_waits h (exec_add o s), alu_waits h (exec_sub o s), alu_waits h (exec_mul o s), alu_waits h (exec_mulh o s),
      alu_waits h (exec_mulhn o s), alu_waits h (exec_div o s), alu_waits h (exec_divn o s), alu_waits h (exec_rem o s),
      alu_waits h (exec_remn o s), alu_waits h (exec_and o s), alu_waits h (exec_or o s), alu_waits h (exec_xor o s),
      alu_waits h (exec_andn o s), alu_waits h (exec_shl o s), alu_waits h (exec_shr o s), alu_waits h (exec_sar o s),
      alu_waits h (exec_min o s), alu_waits h (exec_max o s), alu_waits h (exec_minn o s), alu_waits h (exec_maxn o s),
      alu_waits h (exec_slt o s), alu_waits h (exec_sltn o s), alu_waits h (exec_seq o s), alu_waits h (exec_sne o s),
      write_waits h (exec_insm o s), List.forall_mem_nil _⟩
  · exact ⟨unary_waits h (exec_clz o s), unary_waits h (exec_ctz o s), unary_waits h (exec_popc o s),
      unary_waits h (exec_brev o s), unary_waits h (exec_ffcs o s), unary_waits h (exec_bswap o s), List.forall_mem_nil _⟩
  · exact ⟨imm_waits h (exec_addi o s), immZ_waits h (exec_andi o s), immZ_waits h (exec_ori o s), immZ_waits h (exec_xori o s),
      imm_waits h (exec_slti o s), imm_waits h (exec_sltni o s), List.forall_mem_nil _⟩
  · exact ⟨field_waits h (exec_shli o s), field_waits h (exec_shri o s), field_waits h (exec_sari o s), field_waits h (exec_roli o s),
      field_waits h (exec_ext o s), field_waits h (exec_extn o s), write_waits h (exec_ins o s), field_waits h (exec_insz o s),
      List.forall_mem_nil _⟩
  · exact ⟨write_waits h (exec_fshi o s), write_waits h (exec_plset o s), List.forall_mem_nil _⟩

/-! ## Conditions, targets and delay slots -/

theorem condHolds_iff (c : Cond) (a b : Word) : condHolds c a b = true ↔ condTrue c a b := by
  cases c <;> simp [condHolds, condTrue, BitVec.slt_eq_decide, BitVec.lt_def, BitVec.le_def]

theorem nullifies_eq (n : Nul) (taken : Bool) : nullifies n taken = slotsNull n taken := by cases n <;> rfl

/-- A displacement in 4-byte units (02 R48). -/
theorem shift_displacement {n : Nat} (d : BitVec n) (h : n ≤ 64) : d.signExtend 64 <<< 2 = BitVec.ofInt 64 (4 * d.toInt) := by
  rw [← BitVec.ofInt_toInt (x := d.signExtend 64), BitVec.toInt_signExtend_of_le h, BitVec.shiftLeft_eq_mul_twoPow,
    BitVec.ofInt_mul, BitVec.mul_comm]
  rfl

theorem branchTarget_eq {n : Nat} (s : State) (d : BitVec n) (h : n ≤ 64) :
    branchTarget s d = s.scc.pcq0.addr + BitVec.ofInt 64 (4 * d.toInt) := by rw [branchTarget, shift_displacement d h]

theorem targetForm_iff (t : Word) : targetForm t = true ↔ t.toNat % 32 ≠ 0 ∧ t.toNat % 4 = 0 ∧ t.toNat < 2 ^ 63 := by
  have := t.isLt
  simp only [targetForm, bit, Bool.and_eq_true, bne_iff_ne, ne_eq, beq_iff_eq, Bool.not_eq_true', and_assoc]
  refine and_congr_right fun _ => and_congr_right fun _ => ?_
  simp only [beq_eq_false_iff_ne]
  omega

theorem targetIsCont_iff (s : State) (t : Word) : targetIsCont s t = true ↔ contTarget s t := by
  unfold targetIsCont contTarget lineAddr laneOf
  cases fetchLine s (t.toNat / 32 * 32) <;> simp

/-- The check of a target (05 R93). -/
theorem targetBad_iff (s : State) (t : Word) : (!targetForm t || targetIsCont s t) = true ↔ ¬goodTarget s t := by
  rw [Bool.or_eq_true, Bool.not_eq_true', ← Bool.not_eq_true, targetForm_iff, targetIsCont_iff]
  unfold goodTarget
  tauto

theorem takeTarget_good {s : State} {t : Word} (h : goodTarget s t) (f : State → State) :
    takeTarget s t f = issued (advanceTo (f s) (BitVec.ofNat 64 (resolveAt s t.toNat))) :=
  if_neg fun e => (targetBad_iff s t).mp e h

theorem takeTarget_bad {s : State} {t : Word} (h : ¬goodTarget s t) (f : State → State) :
    takeTarget s t f = trap s ⟨.badtarget, 0, t⟩ := if_pos ((targetBad_iff s t).mpr h)

/-- A branch that is not taken has issued. -/
theorem notTaken_eq (s : State) (null : Bool) : issued (advance (nullifySlots s null)) = branched s none null 0 0 := by
  have e : ∀ x, seqOf (nullifySlots s null) x = seqOf s x := (sameFetch_withScc s _).seqOf
  unfold branched advance
  simp only [e]
  rfl

/-- A taken branch has issued. -/
theorem taken_eq (s : State) (null : Bool) (t : Word) :
    issued (advanceTo (nullifySlots s null) (BitVec.ofNat 64 (resolveAt s t.toNat))) = branched s (some t) null 0 0 := rfl

/-- A jump has issued: no slot is nullified, and the link is written. -/
theorem linked_eq (s : State) (t : Word) (d : SReg) (v : Word) :
    issued (advanceTo (s.setS d v) (BitVec.ofNat 64 (resolveAt s t.toNat))) = branched s (some t) false d v := by
  unfold State.setS branched writeReg
  simp only [Bool.or_false]
  split <;> rfl

/-! ## Branches (05 R103) -/

/-- What a branch does, given the words that it compares. -/
theorem branchOn_spec (o : Sb) (s : State) (a b : Word) :
    let target := s.scc.pcq0.addr + BitVec.ofInt 64 (4 * o.disp.toInt)
    (¬condTrue o.cond a b → branchOn o s a b = branched s none (slotsNull o.nul false) 0 0) ∧
    (condTrue o.cond a b → goodTarget s target → branchOn o s a b = branched s (some target) (slotsNull o.nul true) 0 0) ∧
    (condTrue o.cond a b → ¬goodTarget s target → branchOn o s a b = trap s ⟨.badtarget, 0, target⟩) := by
  have et := branchTarget_eq s o.disp (by decide)
  simp only [branchOn, ← condHolds_iff, et, nullifies_eq]
  refine ⟨fun h => ?_, fun h hg => ?_, fun h hg => ?_⟩
  · rw [if_neg h, notTaken_eq]
  · rw [if_pos h, takeTarget_good hg, taken_eq]
  · rw [if_pos h, takeTarget_bad hg]

/-- Settles O5: both forms are `branchOn` of two words. -/
theorem conditionalBranches : Obligations.ConditionalBranches := by
  rintro o s x hx h
  have run : exec x.1 s = .next (branchOn o s (s.sreg o.a) x.2.2) := by
    simp only [List.mem_cons, List.not_mem_nil, or_false] at hx
    rcases hx with rfl | rfl
    · exact (exec_bc o s).trans (sccOp_ready h _)
    · have e : o.b.signExtend 64 = BitVec.ofInt 64 o.b.toInt := by
        rw [← BitVec.toInt_signExtend_of_le (x := o.b) (v := 64) (by decide), BitVec.ofInt_toInt]
      rw [← e]
      exact (exec_bci o s).trans (sccOp_ready h _)
  obtain ⟨h1, h2, h3⟩ := branchOn_spec o s (s.sreg o.a) x.2.2
  exact ⟨fun c => by rw [run, h1 c], fun c g => by rw [run, h2 c g], fun c g => by rw [run, h3 c g]⟩

/-! ## Jumps (05 R104) -/

/-- The lane after lane `k` of a line, or lane 1 of the next line. -/
theorem nextLane_eq (line k : Nat) : (if k + 1 < 8 then line + 4 * (k + 1) else line + 36) =
    if k < 7 then line + 4 * (k + 1) else line + 32 + 4 := by split <;> split <;> omega

theorem returnAddress_eq (s : State) : returnAddress s = BitVec.ofNat 64 (returnLane s) := by
  unfold returnAddress returnLane afterLane lineAddr laneOf
  congr 1
  dsimp only
  cases fetchLine s (s.scc.pcq2.addr.toNat / 32 * 32) with
  | error e => exact nextLane_eq _ _
  | ok l =>
    dsimp only
    by_cases h : s.scc.pcq2.addr.toNat % 32 / 4 < 7 ∧ l.cls (s.scc.pcq2.addr.toNat % 32 / 4 + 1) = some .cont
    · simp only [if_pos h]; exact nextLane_eq _ _
    · simp only [if_neg h]; exact nextLane_eq _ _

/-- What a jump to a word does that links a register. -/
theorem jump_spec (s : State) (t : Word) (d : SReg) :
    (goodTarget s t → takeTarget s t (fun y => y.setS d (returnAddress s)) = branched s (some t) false d (BitVec.ofNat 64 (returnLane s))) ∧
    (¬goodTarget s t → takeTarget s t (fun y => y.setS d (returnAddress s)) = trap s ⟨.badtarget, 0, t⟩) :=
  ⟨fun h => by rw [takeTarget_good h, linked_eq, returnAddress_eq], fun h => takeTarget_bad h _⟩

/-- Settles O6: J and JR are jumps to a target that is known before the link is written. -/
theorem jumpsAndLinks : Obligations.JumpsAndLinks := by
  refine ⟨fun o s h => ?_, fun o s h => ?_⟩
  · have run : exec (.j o) s = .next (takeTarget s (s.scc.pcq0.addr + BitVec.ofInt 64 (4 * o.disp.toInt))
        fun y => y.setS o.link (returnAddress s)) := by
      rw [← branchTarget_eq s o.disp (by decide)]; exact (exec_j o s).trans (sccOp_ready h _)
    obtain ⟨h1, h2⟩ := jump_spec s (s.scc.pcq0.addr + BitVec.ofInt 64 (4 * o.disp.toInt)) o.link
    exact ⟨fun g => by rw [run, h1 g], fun g => by rw [run, h2 g]⟩
  · have run : exec (.jr o) s = .next (takeTarget s (s.sreg o.a) fun y => y.setS o.d (returnAddress s)) :=
      (exec_jr o s).trans (sccOp_ready h _)
    obtain ⟨h1, h2⟩ := jump_spec s (s.sreg o.a) o.d
    exact ⟨fun g => by rw [run, h1 g], fun g => by rw [run, h2 g]⟩

end Sys2Proof.ScalarControl

/-! # Accesses of the SCC (07 R174-R183, 08 R219-R222) -/

namespace Sys2Proof.ScalarAccesses

open Sys2Proof.Machine Sys2Proof.Safety

/-! ## Loads and stores performed at issue -/

/-- Settles O7: every plain load is `accessOp`, whose loads `load_op` describes. -/
theorem scalarLoads : Obligations.ScalarLoads := by
  intro o s key x hx h hi hal hr hp
  simp only [List.mem_cons, List.not_mem_nil, or_false] at hx
  rcases hx with rfl | rfl | rfl | rfl | rfl | rfl | rfl
  · exact (exec_ldb o s).trans (load_op (by decide) h hi hal hr hp)
  · exact (exec_ldbn o s).trans (load_op (by decide) h hi hal hr hp)
  · exact (exec_ldh o s).trans (load_op (by decide) h hi hal hr hp)
  · exact (exec_ldhn o s).trans (load_op (by decide) h hi hal hr hp)
  · exact (exec_ldw o s).trans (load_op (by decide) h hi hal hr hp)
  · exact (exec_ldwn o s).trans (load_op (by decide) h hi hal hr hp)
  · exact (exec_ldd o s).trans (load_op (by decide) h hi hal hr hp)

/-- Settles O9: every plain store is `accessOp`, whose stores `store_op` describes. -/
theorem scalarStores : Obligations.ScalarStores := by
  intro o s key x hx hw h hi hal hr
  simp only [List.mem_cons, List.not_mem_nil, or_false] at hx
  rcases hx with rfl | rfl | rfl | rfl
  · exact store_op (by decide) hw h hi hal hr
  · exact store_op (by decide) hw h hi hal hr
  · exact store_op (by decide) hw h hi hal hr
  · exact store_op (by decide) hw h hi hal hr

/-! ## Acquire loads and release stores -/

/-- A page that an access reaches directly has no race detection. -/
theorem reach_unchecked {s : State} {need : Need} {size : Nat} {a : Word} {key : Nat → Nat} (h : Reach s need size a key) :
    ∀ p, locate s need a = .ok (.hbm p) → p.leaf.check = false := by
  intro p hp
  rcases reach_locate h with ⟨n, off, hl, _⟩ | ⟨off, hl, _⟩ | ⟨q, hl, _, _, hc, _⟩ <;> rw [hl] at hp <;> cases hp
  exact hc

/-- The load of an LDA. -/
def acquireFlight (o : Sm) (s : State) : Flight := { smFlight o 8 false false s with acq := true }

/-- The store of an STL. -/
def storeFlight (o : Sm) (s : State) : Flight := { smFlight o 8 true false s with rel := true }

/-- An acquire at its port (07 R183). -/
theorem port_acquire {o : Sm} {s : State} {key : Nat → Nat} (hal : (smAddress o 8 s).toNat % 8 = 0)
    (hr : Reach s .read 8 (smAddress o 8 s) key) (hp : Sound s 8 key) :
    portAccess s (acquireFlight o s) = .done (acquired s o.scope) (loaded false 8 (memNumber s 8 key)) := by
  rw [← smAddr_eq] at hal hr
  rw [← acquire_eq]
  exact port_acq (f := smFlight o 8 false false s) rfl rfl (reach_unchecked hr)
    (port_load (f := smFlight o 8 false false s) (.inr (.inr (.inr rfl))) hal rfl hr hp rfl)

/-- Settles O8: the port answers as for an LDD, after which the acquire drops its lines. -/
theorem acquireLoad : Obligations.AcquireLoad := by
  intro o s key h hal hr hp
  have ea := smAddr_eq o 8 s
  have hc : (acquireFlight o s).addr.toNat % (acquireFlight o s).size = 0 := by rw [← ea] at hal; exact hal
  have hr' : Reach s .read (acquireFlight o s).size (acquireFlight o s).addr key := by rw [← ea] at hr; exact hr
  refine (exec_lda o s).trans ((sccOp_ready h _).trans (congrArg _ ?_))
  refine (check_ok (f := acquireFlight o s) _ hc hr').trans ?_
  show (match portAccess s (acquireFlight o s) with
    | .done z v => (retire z).setS o.t v
    | .fails e => portFault (retire s) (acquireFlight o s) e
    | .held z => holds z) = _
  rw [port_acquire hal hr hp]
  exact wrote_comm (acquired s o.scope) o.t _

/-- Settles O10: an STL that is checked is performed by its port, or becomes the pending release. -/
theorem releaseStore : Obligations.ReleaseStore := by
  intro o s key hw h hal hr
  have ea := smAddr_eq o 8 s
  have hc : (storeFlight o s).addr.toNat % (storeFlight o s).size = 0 := by rw [← ea] at hal; exact hal
  have hr' : Reach s .write (storeFlight o s).size (storeFlight o s).addr key := by rw [← ea] at hr; exact hr
  have run : exec (.stl o) s = .next (if s.ord.release.isSome then holds s else
      checkAccess s (storeFlight o s) fun y =>
        if doneBefore y y.scc.idx && y.core.inOrder then performFlight (retire y) (storeFlight o s)
        else (retire y).modOrd fun r => { r with release := some ⟨false, 0, o.scope, (storeFlight o s).addr, (storeFlight o s).data,
          (storeFlight o s).idx, (storeFlight o s).slot⟩ }) := (exec_stl o s).trans (sccOp_ready h _)
  refine ⟨fun hn => ?_, fun hn hi hd => ?_, fun hn hd => ?_⟩
  · rw [run, if_pos (Option.isSome_iff_ne_none.mpr hn), holds_eq_waiting]
  · rw [run, if_neg (by rw [hn]; decide), check_ok (f := storeFlight o s) _ hc hr', hd, hi]
    obtain ⟨t, h1, h2⟩ := port_store (s := passed s) (key := key) (f := storeFlight o s) hw (show 8 < 64 by decide) rfl (reach_passed hr') rfl
    exact ⟨t, congrArg _ (performFlight_store _ _ _ h1 rfl), h2⟩
  · have hf : (doneBefore s s.scc.idx && s.core.inOrder) = false := by rcases hd with e | e <;> simp [e]
    rw [run, if_neg (by rw [hn]; decide), check_ok (f := storeFlight o s) _ hc hr', hf, ← ea]
    rfl

/-! ## Causes of accesses (08 R210, R211, R219, 11 R319) -/

/-- A check that an access fails raises its cause. -/
theorem check_trap {s : State} {f : Flight} (go : State → State) {e : Fail}
    (h : f.addr.toNat % f.size ≠ 0 ∧ e = ⟨.align, BitVec.ofNat 64 f.size, f.addr⟩ ∨
      f.addr.toNat % f.size = 0 ∧ locate s (if f.store then .write else .read) f.addr = .error e) :
    checkAccess s f go = trap s e := by
  unfold checkAccess
  rcases h with ⟨h1, rfl⟩ | ⟨h1, h2⟩
  · rw [if_pos h1]; rfl
  · rw [if_neg (not_not.mpr h1), h2]

/-- An SCC access whose check fails raises its cause, whatever its form. -/
theorem access_traps {i : Instr} {o : Sm} {s : State} {size : Nat} {store : Bool} {f : Flight} {go : State → State}
    (run : exec i s = .next (checkAccess s f go)) (ha : f.addr = smAddr o size s) (hs : f.size = size) (hst : f.store = store)
    {e : Fail} (h : (smAddress o size s).toNat % size ≠ 0 ∧ e = ⟨.align, BitVec.ofNat 64 size, smAddress o size s⟩ ∨
      (smAddress o size s).toNat % size = 0 ∧ locate s (if store then .write else .read) (smAddress o size s) = .error e) :
    exec i s = .next (trap s e) := by
  subst hs hst
  rw [← smAddr_eq, ← ha] at h
  rw [run, check_trap go h]

/-- The answer of a member that refuses an access (08 R211, 11 R319). -/
theorem locate_member_error {s : State} {need : Need} {a : Word} {m off : Nat} (hm : m < 8) (hn : m ≠ s.core.agent.val % 8)
    (h : off < 2 ^ 23) (ha : a.toNat = 0x8020000000000000 + m * 2 ^ 32 + off) :
    let n := peerAgent s.core.agent m
    (s.disabled n = true → locate s need a = .error ⟨.peerdeny, BitVec.ofNat 64 (2 ^ 61 + m), a⟩) ∧
    (s.disabled n = false → (s.coreAt n).resident = none →
      locate s need a = .error ⟨.peerdeny, BitVec.ofNat 64 (2 ^ 60 + 2 ^ 14 + m), a⟩) ∧
    (∀ c, s.disabled n = false → (s.coreAt n).resident = some c → c ≠ s.ctx →
      locate s need a = .error ⟨.peerdeny, BitVec.ofNat 64 (2 ^ 60 + c.val * 256 + m), a⟩) := by
  have hmem : memberOf (peerAgent s.core.agent m) = m := by
    have := s.core.agent.isLt
    simp only [memberOf, peerAgent, Fin.ofNat_eq_cast, Fin.val_natCast]
    omega
  rw [locate_member hm hn h ha]
  refine ⟨fun hd => ?_, fun hd hr => ?_, fun c hd hr hc => ?_⟩
  · simp only [peerCheck, hd, if_true, hmem, failAt, show 2 * 2 ^ 60 + m = 2 ^ 61 + m by omega]
  · simp only [peerCheck, hd, hr, hmem, failAt, Bool.false_eq_true, if_false]
  · simp only [peerCheck, hd, hr, hmem, failAt, Bool.false_eq_true, if_false, if_neg hc]

/-- What an SCC form checks first: an access of a size to the form's address. -/
def Checks (i : Instr) (o : Sm) (s : State) (size : Nat) (store : Bool) : Prop :=
  ∃ f go, exec i s = .next (checkAccess s f go) ∧ f.addr = smAddr o size s ∧ f.size = size ∧ f.store = store

/-- A plain load or store checks its access first. -/
theorem checks_accessOp {i : Instr} {o : Sm} {s : State} {size : Nat} {store signed : Bool} (h : ready s [o.t, o.a] = true)
    (e : exec i s = accessOp o size store signed s) : Checks i o s size store :=
  ⟨smFlight o size store signed s, _, e.trans (sccOp_ready h _), rfl, rfl, rfl⟩

theorem checks_lda {o : Sm} {s : State} (h : ready s [o.t, o.a] = true) : Checks (.lda o) o s 8 false :=
  ⟨acquireFlight o s, _, (exec_lda o s).trans (sccOp_ready h _), rfl, rfl, rfl⟩

theorem checks_stl {o : Sm} {s : State} (h : ready s [o.t, o.a] = true) (hr : s.ord.release = none) : Checks (.stl o) o s 8 true :=
  ⟨storeFlight o s, _, (exec_stl o s).trans ((sccOp_ready h _).trans (congrArg _ (if_neg (by rw [hr]; decide)))), rfl, rfl, rfl⟩

/-- Settles O11: each form checks its access first, and the address class says which cause the check finds. -/
theorem accessCauses : Obligations.AccessCauses := by
  intro o s x hx h hrel
  have run : Checks (x.1 o) o s x.2.1 x.2.2 := by
    simp only [List.mem_cons, List.not_mem_nil, or_false] at hx
    rcases hx with rfl | rfl | rfl | rfl | rfl | rfl | rfl | rfl | rfl | rfl | rfl | rfl | rfl
    · exact checks_accessOp h (exec_ldb o s)
    · exact checks_accessOp h (exec_ldbn o s)
    · exact checks_accessOp h (exec_ldh o s)
    · exact checks_accessOp h (exec_ldhn o s)
    · exact checks_accessOp h (exec_ldw o s)
    · exact checks_accessOp h (exec_ldwn o s)
    · exact checks_accessOp h (exec_ldd o s)
    · exact checks_lda h
    · exact checks_accessOp h (exec_stb o s)
    · exact checks_accessOp h (exec_sth o s)
    · exact checks_accessOp h (exec_stw o s)
    · exact checks_accessOp h (exec_std o s)
    · exact checks_stl h hrel
  obtain ⟨f, go, run, ha, hs, hst⟩ := run
  refine ⟨fun hal => access_traps run ha hs hst (.inl ⟨hal, rfl⟩), fun hal => ?_⟩
  have fails : ∀ e, locate s (if x.2.2 then .write else .read) (smAddress o x.2.1 s) = .error e →
      exec (x.1 o) s = .next (trap s e) := fun e he => access_traps run ha hs hst (.inr ⟨hal, he⟩)
  refine ⟨fun h1 h2 => fails _ (locate_nowhere h1 h2), fun off hoff hacc hd => fails _ ?_, fun m hm off hoff hn hmem => ?_,
    fun e hg he => fails _ ?_⟩
  · rw [locate_acc hoff hacc, hd]; rfl
  · obtain ⟨p1, p2, p3⟩ := locate_member_error (need := if x.2.2 then .write else .read) hm hn hoff hmem
    exact ⟨fun hd => fails _ (p1 hd), fun hd hr => fails _ (p2 hd hr), fun c hd hr hc => fails _ (p3 c hd hr hc)⟩
  · rw [locate_global hg, he]

/-! ## Accesses in flight (07 R174, R175, R191, 12 R334) -/

/-- The flight that a plain access leaves where accesses wait for turns. -/
theorem flight_issues {i : Instr} {o : Sm} {s : State} {size : Nat} {store signed : Bool} {key : Nat → Nat}
    (e : exec i s = accessOp o size store signed s) (h : ready s [o.t, o.a] = true) (hi : s.core.inOrder = false)
    (hal : (smAddress o size s).toNat % size = 0) (hr : Reach s (if store then .write else .read) size (smAddress o size s) key) :
    exec i s = .next ((passed s).modOrd fun r => { r with flights := r.flights ++
      [⟨smAddress o size s, size, store, if store then s.sreg o.t else 0, if store then 0 else o.t, signed,
        if o.sen then some o.slot else none, o.scope, s.scc.idx, none, false, false⟩] }) :=
  e.trans (flight_op h hi hal hr)

/-- The port performs an access that it has not performed yet and that it can. -/
theorem portStep_done {s t : State} {n : Nat} {f : Flight} {v : Word} (hf : s.ord.flights[n]? = some f) (hv : f.value = none)
    (hp : portAccess s f = .done t v) :
    portStep n s = t.modOrd fun o => { o with flights := o.flights.set n { f with value := some v } } := by
  simp only [portStep, hf, hv, Option.isSome_none, Bool.false_eq_true, if_false, hp]

theorem dropAt_eq {α : Type} (l : List α) (n : Nat) : dropAt l n = l.eraseIdx n := (List.eraseIdx_eq_take_drop_succ l n).symm

/-- An acknowledgement writes the register of a load and takes the access out of flight. -/
theorem acknowledge_eq {s : State} {n : Nat} {f : Flight} {v : Word} (hf : s.ord.flights[n]? = some f) (hv : f.value = some v) :
    acknowledge n s = withScc (s.modOrd fun r => { r with flights := r.flights.eraseIdx n })
      { s.scc with s := writeReg s (if f.store then 0 else f.dest) v } := by
  simp only [acknowledge, hf, hv, dropAt_eq]
  cases f.store
  · simp only [Bool.false_eq_true, if_false, State.setS, writeReg]
    split <;> rfl
  · rfl

/-- No more late causes wait than the task holds. -/
theorem waiting_late_le (p : Pending) : p.waiting.late.length ≤ p.late.length := by
  unfold Pending.waiting
  split
  · unfold Pending.remove
    repeat' split
    · exact Nat.le_refl _
    · exact Nat.le_refl _
    · exact Nat.le_refl _
    · exact Nat.le_refl _
    · exact List.length_erase_le
  · exact Nat.le_refl _

/-- A late cause of a task with room for it is pending. -/
theorem addLate_room {s : State} (ht : s.core.task ≠ none) (hl : s.core.regs.pend.late.length < 16) (r : Raised) :
    addLate s r = s.modRegs fun x => { x with pend := { x.pend with late := x.pend.late ++ [r] } } := by
  obtain ⟨t, ht⟩ := Option.ne_none_iff_exists'.mp ht
  have := waiting_late_le s.core.regs.pend
  simp only [addLate, ht]
  rw [if_pos (by omega)]

/-- An access that its page refuses at the port leaves its cause pending, and itself held. -/
theorem learnFault_page {s : State} {n : Nat} {f : Flight} {e : Fail} (hf : s.ord.flights[n]? = some f) (hv : f.value = none)
    (hg : f.addr.toNat < 2 ^ 57) (ht : s.core.task ≠ none) (hl : s.core.regs.pend.late.length < 16)
    (he : translate s (some s.core) (dieOf s.core.agent) s.ctx s.isPriv (if f.store then .write else .read) f.addr.toNat = .error e) :
    learnFault n s = s.modRegs fun r => { r with
      ord := { r.ord with flights := r.ord.flights.eraseIdx n, held := r.ord.held ++ [f] }
      pend := { r.pend with late := r.pend.late ++ [⟨e.cause, .scc, true, false, f.idx, 0, e.status, e.address⟩] } } := by
  have hp : portAccess s f = .fails e := by rw [portAccess, locate_global hg, he]
  simp only [learnFault, hf, hv, Option.isSome_none, Bool.false_eq_true, if_false, hp, portFault, dropAt_eq]
  rw [addLate_room (by exact ht) (by exact hl)]
  rfl

/-- Settles O12: issue, port, acknowledgement and fault of an access, each by what it does to the list of accesses in flight. -/
theorem accessesInFlight : Obligations.AccessesInFlight := by
  refine ⟨⟨fun o s key x hx h hi hal hr => ?_, fun n i f s key => ?_, fun n i f v s => ?_⟩, fun n i f e s => ?_⟩
  · simp only [List.mem_cons, List.not_mem_nil, or_false] at hx
    rcases hx with rfl | rfl | rfl | rfl | rfl | rfl | rfl | rfl | rfl | rfl | rfl
    · exact flight_issues (exec_ldb o s) h hi hal hr
    · exact flight_issues (exec_ldbn o s) h hi hal hr
    · exact flight_issues (exec_ldh o s) h hi hal hr
    · exact flight_issues (exec_ldhn o s) h hi hal hr
    · exact flight_issues (exec_ldw o s) h hi hal hr
    · exact flight_issues (exec_ldwn o s) h hi hal hr
    · exact flight_issues (exec_ldd o s) h hi hal hr
    · exact flight_issues (exec_stb o s) h hi hal hr
    · exact flight_issues (exec_sth o s) h hi hal hr
    · exact flight_issues (exec_stw o s) h hi hal hr
    · exact flight_issues (exec_std o s) h hi hal hr
  · intro u hf hv hq hrel hsize hal
    simp only [List.mem_cons, List.not_mem_nil, or_false] at hsize
    refine ⟨fun hst hr hp => ?_, fun hst hw hr => ?_⟩
    · show Host.Outcome.next ((portStep i u).focus s.core.agent) = _
      rw [portStep_done hf hv (port_load hsize hal hst hr hp hq)]
    · obtain ⟨t, h1, h2⟩ := port_store hw (by omega) hst hr hq
      rw [hrel] at h1
      refine ⟨t, h2, ?_⟩
      show Host.Outcome.next ((portStep i u).focus s.core.agent) = _
      rw [portStep_done hf hv h1]
      rfl
  · intro u hf hv
    show Host.Outcome.next ((acknowledge i u).focus s.core.agent) = _
    rw [acknowledge_eq hf hv]
  · intro u hf hv hg ht hl he
    show Host.Outcome.next ((learnFault i u).focus s.core.agent) = _
    rw [learnFault_page hf hv hg ht hl he]

/-! ## Waits and fences (07 R175, R179, 08 R221, R222) -/

theorem slotIsBusy_iff (s : State) (n : Fin 8) : slotIsBusy s n.val = true ↔ ¬slotIdle s n := by
  have e : ∀ x : Option (Fin 8), (x.any fun y => y.val == n.val) = true ↔ x = some n := by
    intro x
    cases x <;> simp [Fin.ext_iff]
  unfold slotIsBusy slotIdle
  rw [List.any_append, Bool.or_eq_true, not_and_or]
  simp only [List.any_map, List.any_eq_true, Function.comp, e, Option.mem_toList]
  push Not
  rfl

theorem pathDone_iff (s : State) (p : Path) : pathDone s p = true ↔ PathDone s p := by
  cases p with
  | s => cases h : s.ord.release <;> simp [pathDone, PathDone, h, and_assoc]
  | v => simp [pathDone, PathDone, and_assoc]
  | c => simp [pathDone, PathDone]
  | t => cases h : s.ord.release <;> simp [pathDone, PathDone, h]
  | m =>
    have path : ∀ c : Cmd, onArrayPath c = false ↔ ∀ o, c.instr ≠ .accrd o ∧ c.instr ≠ .accwr o := by
      intro c
      unfold onArrayPath
      split
      · rename_i o h; simp only [h, Bool.true_eq_false, false_iff]; exact fun hc => (hc o).1 rfl
      · rename_i o h; simp only [h, Bool.true_eq_false, false_iff]; exact fun hc => (hc o).2 rfl
      · rename_i h1 h2; simp only [true_iff]; exact fun o => ⟨h1 o, h2 o⟩
    have land : (s.ve.landing.toList.all fun x => x.all fun l => l.data.isSome) = true ↔
        ∀ (n : Fin 16) l, s.ve.landing[n] = some l → l.data ≠ none := by
      simp only [List.all_eq_true, Vector.mem_toList_iff, Vector.mem_iff_getElem, Option.all_eq_true, Option.isSome_iff_ne_none]
      exact ⟨fun h n l hl => h _ ⟨n.val, n.isLt, rfl⟩ l hl, fun h x ⟨i, hi, e⟩ l hl => h ⟨i, hi⟩ l (e.trans hl)⟩
    simp only [pathDone, PathDone, Bool.and_eq_true, land, Bool.not_eq_true', List.any_eq_false, Bool.not_eq_true, path,
      List.isEmpty_iff, Option.isNone_iff_eq_none, and_assoc]

/-- Settles O13: both instructions issue or hold by a condition of the model that the statement's condition restates. -/
theorem waitsAndFences : Obligations.WaitsAndFences := by
  intro w f s
  have named : ((List.range 8).all fun n => !(w.mask.getLsbD n && slotIsBusy s n)) = true ↔
      ∀ n : Fin 8, w.mask.getLsbD n = true → slotIdle s n := by
    simp only [List.all_eq_true, List.mem_range, Bool.not_eq_true', Bool.and_eq_false_imp]
    refine ⟨fun h n hn => ?_, fun h n hlt hn => ?_⟩
    · have := h n n.isLt hn
      rwa [← Bool.not_eq_true, slotIsBusy_iff, not_not] at this
    · rw [← Bool.not_eq_true, show n = (⟨n, hlt⟩ : Fin 8).val from rfl, slotIsBusy_iff, not_not]
      exact h ⟨n, hlt⟩ hn
  refine ⟨fun h => ?_, fun n hn hb => ?_, fun h => ?_, fun h => ?_⟩
  · exact congrArg _ (if_pos (named.mpr h))
  · exact congrArg _ (if_neg fun e => hb (named.mp e n hn))
  · exact congrArg _ (if_pos ((pathDone_iff s f.pathA).mpr h))
  · exact congrArg _ (if_neg fun e => h ((pathDone_iff s f.pathA).mp e))

end Sys2Proof.ScalarAccesses

/-! # The scratchpad tag table (08 R227, R228) -/

namespace Sys2Proof.TagTables

open Sys2Proof.Machine Sys2Proof.Safety

/-! ## Finite maps by key -/

@[simp] theorem lookupKey_insertKey_same {α : Type} (k : Nat) (a : α) (l : List (Nat × α)) :
    lookupKey k (insertKey k a l) = some a := by
  induction l with
  | nil => simp [insertKey, lookupKey]
  | cons e rest ih =>
    obtain ⟨j, b⟩ := e
    rcases Nat.lt_trichotomy k j with h | h | h
    · simp [insertKey, lookupKey, h]
    · simp [insertKey, lookupKey, h]
    · simp [insertKey, lookupKey, Nat.lt_asymm h, Nat.ne_of_gt h, Nat.ne_of_lt h, ih]

theorem lookupKey_insertKey_ne {α : Type} {j k : Nat} (h : j ≠ k) (a : α) (l : List (Nat × α)) :
    lookupKey j (insertKey k a l) = lookupKey j l := by
  induction l with
  | nil => simp [insertKey, lookupKey, h.symm]
  | cons e rest ih =>
    obtain ⟨i, b⟩ := e
    unfold insertKey
    split_ifs with h1 h2
    · simp [lookupKey, h.symm]
    · subst h2; simp [lookupKey, h.symm]
    · simp [lookupKey, ih]

/-! ## The search for a victim -/

/-- The slot that the search looks at `m` steps after it began at `h`. -/
def slotAt (u h m : Nat) : Nat := if m = 0 then h else (h + m) % u

theorem slotAt_succ (u h m : Nat) : slotAt u ((h + 1) % u) m = slotAt u h (m + 1) := by
  cases m with
  | zero => rfl
  | succ m =>
    show ((h + 1) % u + (m + 1)) % u = (h + (m + 1 + 1)) % u
    rw [Nat.mod_add_mod, show h + 1 + (m + 1) = h + (m + 1 + 1) by omega]

/-- A search that began at `h` in `t` has passed `n` slots with REF, whose REF bits are clear in `t'`. -/
def Passed (u h n : Nat) (t t' : TagTable) : Prop :=
  (∀ m < n, ∃ k, lookupKey (slotAt u h m) t = some (k, true)) ∧
  (∀ m < n, ∀ k, lookupKey (slotAt u h m) t = some (k, true) → lookupKey (slotAt u h m) t' = some (k, false)) ∧
  (∀ j, (∀ m < n, j ≠ slotAt u h m) → lookupKey j t' = lookupKey j t)

/-- The first slot passed: the rest of the search never meets it again, since its REF bit is clear. -/
theorem passed_cons {u h n : Nat} {t t' : TagTable} {k : BitVec 45} (hk : lookupKey h t = some (k, true))
    (hp : Passed u ((h + 1) % u) n (insertKey h (k, false) t) t') : Passed u h (n + 1) t t' := by
  obtain ⟨hset, hclear, hrest⟩ := hp
  simp only [slotAt_succ] at hset hclear hrest
  have hne : ∀ m < n, slotAt u h (m + 1) ≠ h := by
    intro m hm heq
    obtain ⟨k', hk'⟩ := hset m hm
    simp [heq] at hk'
  refine ⟨fun m hm => ?_, fun m hm k' hk' => ?_, fun j hj => ?_⟩
  · cases m with
    | zero => exact ⟨k, hk⟩
    | succ m =>
      obtain ⟨k', hk'⟩ := hset m (by omega)
      exact ⟨k', by rwa [lookupKey_insertKey_ne (hne m (by omega))] at hk'⟩
  · cases m with
    | zero =>
      rw [show slotAt u h 0 = h from rfl, hk] at hk'
      obtain rfl : k = k' := by simpa using hk'
      rw [show slotAt u h 0 = h from rfl, hrest h fun m hm => (hne m hm).symm]
      exact lookupKey_insertKey_same ..
    | succ m => exact hclear m (by omega) k' (by rwa [lookupKey_insertKey_ne (hne m (by omega))])
  · rw [hrest j fun m hm => hj (m + 1) (by omega), lookupKey_insertKey_ne (show j ≠ h from hj 0 (by omega))]

/-- Where the search stops: at the first slot without REF, or for want of fuel. -/
theorem ttVictim_passed (u fuel h : Nat) (t : TagTable) : ∃ n ≤ fuel, (ttVictim u fuel h t).1 = slotAt u h n ∧
    Passed u h n t (ttVictim u fuel h t).2 ∧
    (n < fuel → ∀ k, lookupKey (slotAt u h n) (ttVictim u fuel h t).2 ≠ some (k, true)) := by
  induction fuel generalizing h t with
  | zero => exact ⟨0, le_refl 0, rfl, ⟨by simp, by simp, fun _ _ => rfl⟩, by simp⟩
  | succ fuel ih =>
    unfold ttVictim
    split
    case h_1 k hk =>
      obtain ⟨n, hn, hslot, hpassed, hstop⟩ := ih ((h + 1) % u) (insertKey h (k, false) t)
      rw [slotAt_succ] at hslot hstop
      exact ⟨n + 1, by omega, hslot, passed_cons hk hpassed, fun hlt => hstop (by omega)⟩
    case h_2 hnot =>
      exact ⟨0, by omega, rfl, ⟨by simp, by simp, fun _ _ => rfl⟩, fun _ k hk => hnot k hk⟩

/-- Two rounds suffice: a slot without REF is met, at the latest one whose REF bit the search has cleared. -/
theorem ttVictim_found {u : Nat} (hu : 0 < u) (h : Nat) (t : TagTable) : ∃ n, (ttVictim u (2 * u) h t).1 = slotAt u h n ∧
    Passed u h n t (ttVictim u (2 * u) h t).2 ∧ ∀ k, lookupKey (slotAt u h n) (ttVictim u (2 * u) h t).2 ≠ some (k, true) := by
  obtain ⟨n, hn, hslot, hpassed, hstop⟩ := ttVictim_passed u (2 * u) h t
  refine ⟨n, hslot, hpassed, fun k => ?_⟩
  rcases Nat.lt_or_ge n (2 * u) with hlt | hge
  · exact hstop hlt k
  · obtain ⟨hset, hclear, _⟩ := hpassed
    have hagain : slotAt u h n = slotAt u h u := by
      obtain rfl : n = 2 * u := by omega
      unfold slotAt
      rw [if_neg (by omega), if_neg (by omega), show h + 2 * u = h + u + u by omega, Nat.add_mod_right]
    obtain ⟨k', hk'⟩ := hset u (by omega)
    rw [hagain, hclear u (by omega) k' hk']
    simp

/-! ## Lookups -/

/-- The key of an address, as the statement writes it. -/
theorem ttKey_eq (cfg a : Word) :
    ttKey cfg a = BitVec.ofNat 45 (a.toNat % 2 ^ 57 / (4096 * 2 ^ (cfg.toNat % 8))) := by
  have hsz : cfg.toNat % 8 < 8 := Nat.mod_lt _ (by omega)
  have hsize : ttSize cfg = cfg.toNat % 8 := by simp [ttSize, bits]
  unfold ttKey bits
  rw [hsize, show 4096 * 2 ^ (cfg.toNat % 8) = 2 ^ (12 + cfg.toNat % 8) by rw [Nat.pow_add],
    ← Nat.mod_mul_right_div_self, ← Nat.pow_add, show 12 + cfg.toNat % 8 + (45 - cfg.toNat % 8) = 57 by omega]

theorem ttSlots_eq (cfg : Word) :
    ttSlots cfg = min 1024 ((2 ^ 23 - cfg.toNat / 2 ^ 12 % 2 ^ 11 * 4096) / (4096 * 2 ^ (cfg.toNat % 8))) := by
  simp [ttSlots, ttSize, bits]

theorem ttSlots_le (cfg : Word) : ttSlots cfg ≤ 1024 := by
  rw [ttSlots_eq]; exact Nat.min_le_left ..

/-- A key that usable slots hold, all of one number, is found there. -/
theorem ttLook_hit {u : Nat} {key : BitVec 45} {t : TagTable} (h i : Nat) (hsome : ∃ e ∈ t, (e.1 < u ∧ e.2.1 = key) ∧ e.1 = i)
    (hall : ∀ e ∈ t, e.1 < u ∧ e.2.1 = key → e.1 = i) :
    ttLook u key t h = (BitVec.ofNat 64 i, insertKey i (key, true) t, h) := by
  unfold ttLook
  split
  case h_1 j k r hfind =>
    have hmem := List.mem_of_find?_eq_some hfind
    have hp := List.find?_some hfind
    simp only [Bool.and_eq_true, decide_eq_true_eq, beq_iff_eq] at hp
    obtain rfl : j = i := hall _ hmem hp
    rw [hp.2]
  case h_2 hnone =>
    obtain ⟨e, he, hp, _⟩ := hsome
    have := List.find?_eq_none.mp hnone e he
    simp [hp] at this

/-- A key that no usable slot holds is answered with the victim's slot. -/
theorem ttLook_miss {u : Nat} {key : BitVec 45} {t : TagTable} (h : Nat) (hnone : ∀ e ∈ t, ¬(e.1 < u ∧ e.2.1 = key)) :
    ttLook u key t h = (BitVec.ofNat 64 ((ttVictim u (2 * u) h t).1 * 65536 + 0xFFFF), (ttVictim u (2 * u) h t).2,
      ((ttVictim u (2 * u) h t).1 + 1) % u) := by
  unfold ttLook
  rw [List.find?_eq_none.mpr fun e he => by simpa using hnone e he]

/-- TLOOK with a usable slot, or with a hit: the answer of `ttLook`. -/
theorem tlook_usable {o : Sa} {s : State} (hr : ready s [o.d, o.a] = true) (hu : ttSlots s.core.ttcfg ≠ 0)
    {v : Word} {t : TagTable} {h : Nat}
    (hl : ttLook (ttSlots s.core.ttcfg) (ttKey s.core.ttcfg (s.sreg o.a)) s.core.ttab s.core.hand = (v, t, h)) :
    exec (.tlook o) s = .next (wrote (s.modCore fun c => { c with ttab := t, hand := h }) o.d v) := by
  refine ((exec_tlook o s).trans (sccOp_ready hr _)).trans ?_
  simp only [hl, beq_eq_false_iff_ne.mpr hu, Bool.false_eq_true, if_false]
  exact congrArg _ (retire_setS _ o.d v)

/-- TLOOK without one: the hand as it stands is answered, and a free value follows it (log 9). -/
theorem tlook_unusable {o : Sa} {s : State} (hr : ready s [o.d, o.a] = true) (hu : ttSlots s.core.ttcfg = 0) :
    ∃ h, exec (.tlook o) s = .next (wrote { s.modCore (fun c => { c with hand := h }) with free := s.free + 1 } o.d
      (BitVec.ofNat 64 (s.core.hand * 65536 + 0xFFFF))) := by
  have hl := ttLook_miss (u := 0) (key := ttKey s.core.ttcfg (s.sreg o.a)) (t := s.core.ttab) s.core.hand (by simp)
  refine ⟨(Config.freeWord s.free).toNat % 1024, ((exec_tlook o s).trans (sccOp_ready hr _)).trans ?_⟩
  simp only [hu, hl, beq_self_eq_true, if_true]
  exact congrArg _ (retire_setS _ o.d _)

/-! ## The obligation -/

/-- The slots by which TSET and TCLR name an entry, and the one word that names all. -/
theorem ne_allOnes_of_lt {v : Word} {u : Nat} (h : v.toNat < u) (hu : u < 2 ^ 64) : v ≠ BitVec.allOnes 64 := by
  rintro rfl
  rw [BitVec.toNat_allOnes] at h
  omega

/-- Settles O14: TLOOK is `ttLook`, whose search ends within two rounds; TSET and TCLR compare the slot with the usable ones. -/
theorem tagTable : Obligations.TagTable := by
  intro o s
  simp only [← ttSlots_eq, ← ttKey_eq]
  refine ⟨fun hr => ⟨fun i hsome hall => ?_, fun hnone hu => ?_, fun hnone hu => ?_⟩,
    fun hr => ⟨fun h => ?_, fun h => ?_⟩, fun hr => ⟨fun h => ?_, fun h => ?_, fun h h1 => ?_⟩⟩
  · obtain ⟨e, he, hp, hi⟩ := hsome
    exact tlook_usable hr (by omega) (ttLook_hit _ i ⟨e, he, hp, hi⟩ hall)
  · obtain ⟨n, hslot, ⟨hset, hclear, hrest⟩, hstop⟩ := ttVictim_found hu s.core.hand s.core.ttab
    refine ⟨n, _, hset, hstop, hclear, hrest, ?_⟩
    have hl := ttLook_miss s.core.hand hnone
    rw [hslot] at hl
    exact tlook_usable hr (by omega) hl
  · exact tlook_unusable hr hu
  · refine ((exec_tset o s).trans (sccOp_ready hr _)).trans (congrArg _ ?_)
    exact if_neg (by omega)
  · refine ((exec_tset o s).trans (sccOp_ready hr _)).trans (congrArg _ ?_)
    exact if_pos h
  · refine ((exec_tclr o s).trans (sccOp_ready hr _)).trans (congrArg _ ?_)
    exact if_pos h
  · refine ((exec_tclr o s).trans (sccOp_ready hr _)).trans (congrArg _ ?_)
    exact (if_neg (ne_allOnes_of_lt h (Nat.lt_of_le_of_lt (ttSlots_le _) (by omega)))).trans (if_neg (by omega))
  · refine ((exec_tclr o s).trans (sccOp_ready hr _)).trans (congrArg _ ?_)
    exact (if_neg h1).trans (if_pos h)

end Sys2Proof.TagTables

/-! # Steps, traps and fault records (02 R34-R36, R50-R55, 12 R333-R346, R363) -/

namespace Sys2Proof.StepsAndTraps

open Sys2Proof.Machine Sys2Proof.Safety

/-! ## Reset -/

theorem ctxAt_reset (d : Fin 8) (c : Fin 64) : State.reset.ctxAt d c = CtxRegs.reset 0 := by
  have hd : State.reset.dies[d] = Die.reset := by simp [State.reset]
  rw [State.ctxAt, hd]
  rfl

theorem afftab_reset : ∀ n : Fin 8, ∀ j < 16, Die.reset.afftab[n].toNat / 2 ^ (4 * j) % 16 = (16 * n.val + j) / 16 := by
  decide

/-- Settles O57: each value is read off `State.reset`, `Core.reset` and `Die.reset`. -/
theorem resetState : Obligations.ResetState := by
  have hdies (d : Fin 8) : State.reset.dies[d] = Die.reset := by simp [State.reset]
  refine ⟨reset_mem_wf, rfl, rfl, by decide, rfl, rfl, by decide, rfl, by decide, by decide, fun d => ?_⟩
  simp only [hdies, ctxAt_reset]
  exact ⟨afftab_reset, rfl, rfl, rfl, rfl, rfl, rfl, rfl, rfl, rfl, rfl, rfl, rfl, rfl, rfl, rfl, rfl, rfl, rfl, rfl, rfl,
    fun _ => rfl⟩

/-! ## Words of the spec -/

/-- Settles O59: the decoder run on each word. -/
theorem decodedWords : Obligations.DecodedWords := by
  unfold Obligations.DecodedWords
  decide

/-! ## The line at PCQ0 -/

/-- No granule of a sound range is poisoned. -/
theorem firstPoison_of_sound {s : State} {n k : Nat} (h : Sound s n fun i => k + i) : firstPoison s.poison k n = none := by
  unfold firstPoison
  split
  · rfl
  · rw [List.find?_eq_none]
    intro g hg hin
    simp only [Bool.and_eq_true, decide_eq_true_eq] at hin
    refine h (max (64 * g) k - k) (by omega) ?_
    rwa [show (k + (max (64 * g) k - k)) / 64 = g by omega]

/-- The kept line, or else the one that memory holds. -/
theorem fetchLine_of_lineAt {s : State} {a : Nat} {l : Line} (h : LineAt s a l) : fetchLine s a = .ok l := by
  rcases h with ⟨hline, haddr⟩ | ⟨hkept, p, htr, hsound, haddr, hhead, hwords⟩
  · simp [fetchLine, hline, haddr]
  · have hnew : fetchLine.fetchNew s a = .ok l := by
      unfold fetchLine.fetchNew
      rw [htr]
      simp only [firstPoison_of_sound hsound]
      congr 1
      obtain ⟨addr, header, words⟩ := l
      simp only at haddr hhead hwords
      simp only [laneWordAt, State.le, State.bytes, bytes_eq]
      subst haddr hhead hwords
      rfl
    unfold fetchLine
    split
    case h_1 k hk => rw [if_neg (hkept k hk), hnew]
    case h_2 => exact hnew

theorem lineAddr_eq (a : Nat) : lineAddr a = a - a % 32 := by unfold lineAddr; omega

/-- The header lane of a sound line is EMPTY. -/
theorem cls_zero_of_lineOk {l : Line} (h : lineOk l.header l.words = true) : l.cls 0 = some .empty := by
  simp only [lineOk, Bool.and_eq_true, beq_iff_eq] at h
  unfold Line.cls headerClass
  rw [h.1]
  rfl

/-! ## What is at PCQ0 -/

section
variable {l : Line} {a : Nat} {nul : Bool}

theorem inLine_badLine (h : lineOk l.header l.words = false) : inLine l a nul = .bad .badLine := by simp [inLine, h]

theorem inLine_notALane (h : lineOk l.header l.words = true) (ha : a % 4 ≠ 0 ∨ a % 32 / 4 = 0) :
    inLine l a nul = .bad .notALane := by
  by_cases h4 : a % 4 = 0
  · have h0 : laneOf a = 0 := ha.resolve_left (not_not.mpr h4)
    simp [inLine, h, h4, h0, cls_zero_of_lineOk h]
  · simp [inLine, h, h4]

theorem inLine_empty (h : lineOk l.header l.words = true) (h4 : a % 4 = 0) (h0 : 0 < a % 32 / 4)
    (hc : l.cls (a % 32 / 4) = some .empty) : inLine l a nul = .empty := by
  have hc' : l.cls (laneOf a) = some .empty := hc
  have h0' : laneOf a ≠ 0 := Nat.ne_of_gt h0
  simp [inLine, h, h4, hc', h0']

theorem inLine_cont (h : lineOk l.header l.words = true) (h4 : a % 4 = 0) (hc : l.cls (a % 32 / 4) = some .cont) :
    inLine l a nul = .bad .notALane := by
  have hc' : l.cls (laneOf a) = some .cont := hc
  simp [inLine, h, h4, hc']

theorem inLine_class {c : LaneClass} (h : lineOk l.header l.words = true) (h4 : a % 4 = 0) (h0 : 0 < a % 32 / 4)
    (hc : l.cls (a % 32 / 4) = some c) (he : c ≠ .empty) (hk : c ≠ .cont) :
    inLine l a nul = if nul then .nul else
      match decode c (l.word (a % 32 / 4)) (l.word (a % 32 / 4 + 1)) with
      | .ok i => .instr i
      | .error b => .bad b := by
  have hc' : l.cls (laneOf a) = some c := hc
  have h0' : laneOf a ≠ 0 := Nat.ne_of_gt h0
  cases c
  case empty => exact absurd rfl he
  case cont => exact absurd rfl hk
  all_goals
    simp only [inLine, h, h4, hc', h0', Bool.not_true, Bool.false_eq_true, ne_eq, not_true_eq_false, if_false]
    rfl

end

/-! ## Issue -/

/-- What a step of the SCC that ends in `o` makes of `s`, as O58 states it. -/
def Acts (s : State) (o : Out) : Prop :=
  (∀ v, o = .next v → v.scc.hold = none ∨ v.core.regs.pend ≠ s.core.regs.pend → issueStep s = .next v) ∧
  (∀ v, o = .next v → v.scc.hold ≠ none → v.core.regs.pend = s.core.regs.pend →
    (s.core.regs.pend.all = [] → issueStep s = .next (holdingSave v)) ∧
    (s.core.regs.pend.all ≠ [] → issueStep s = .next (causeStep s)))

theorem acts_of_whereHeld {s : State} {o : Out} (h : issueStep s = whereHeld s o) : Acts s o := by
  refine ⟨fun v hv hgo => ?_, fun v hv hhold hpend => ⟨fun hall => ?_, fun hall => ?_⟩⟩ <;> subst hv <;> rw [h, whereHeld]
  · refine if_neg ?_
    rcases hgo with hgo | hgo <;> simp [hgo]
  · rw [if_pos (by simp [hpend, Option.isSome_iff_ne_none.mpr hhold]), if_pos (by simp [hall])]
  · rw [if_pos (by simp [hpend, Option.isSome_iff_ne_none.mpr hhold]), if_neg (by simpa using hall)]

/-- With no cause and no save first, the SCC runs what it finds. -/
theorem issueStep_runs {s : State} {t : Task} (ht : s.core.task = some t) (hc : causeUrgent s = false)
    (hs : saveDue s t = false) :
    issueStep s = whereHeld s (issueFetched (keepLine s (atPcq0 s).2) (atPcq0 s).1) := by
  simp [issueStep, ht, hc, hs]

theorem atPcq0_error {s : State} {e : Fail} (h : fetchLine s (s.scc.pcq0.addr.toNat - s.scc.pcq0.addr.toNat % 32) = .error e) :
    atPcq0 s = (.fail e, none) := by
  simp only [atPcq0, lineAddr_eq, h]

theorem atPcq0_line {s : State} {l : Line} (h : LineAt s (s.scc.pcq0.addr.toNat - s.scc.pcq0.addr.toNat % 32) l) :
    atPcq0 s = (inLine l s.scc.pcq0.addr.toNat s.scc.pcq0.nul, some l) := by
  simp only [atPcq0, lineAddr_eq, fetchLine_of_lineAt h]

/-- Settles O58: the turns by the definition of `step`; what stands at PCQ0 by the lemmas about `inLine`. -/
theorem stepRunsDecoded : Obligations.StepRunsDecoded := by
  refine ⟨fun s t rest ht => ?_, fun s ht => ?_, fun s ht => ?_, fun s t l ht hc hs => ?_⟩
  · have hstep : step s = turnStep t { s with turns := rest } := by simp only [step, ht]
    refine ⟨hstep, fun n hn hd => ?_, fun i hi he => ?_⟩
    · subst hn
      rw [hstep, turnStep, hd]
      rfl
    · subst hi
      rw [hstep, turnStep, he]
      rfl
  · simp only [step, ht]
  · simp only [issueStep, ht, scheduleStep]
  · have hrun := issueStep_runs ht hc hs
    have found {f : Fetched} (hl : LineAt s (s.scc.pcq0.addr.toNat - s.scc.pcq0.addr.toNat % 32) l)
        (hf : inLine l s.scc.pcq0.addr.toNat s.scc.pcq0.nul = f) : Acts s (issueFetched (keepLine s (some l)) f) := by
      rw [atPcq0_line hl, hf] at hrun
      exact acts_of_whereHeld hrun
    refine ⟨fun e he => ?_, fun hl hok => found hl (inLine_badLine hok), fun hl hok ha => found hl (inLine_notALane hok ha),
      fun hl hok h4 h0 => ⟨fun hcls => found hl (inLine_empty hok h4 h0 hcls), fun hcls => found hl (inLine_cont hok h4 hcls),
        fun c hcls hne hnc => ?_⟩⟩
    · rw [atPcq0_error he] at hrun
      exact acts_of_whereHeld hrun
    · have hin := inLine_class (nul := s.scc.pcq0.nul) hok h4 h0 hcls hne hnc
      refine ⟨fun hnul => ?_, fun i hnul hdec => ?_, fun b hnul hdec hb => ?_⟩
      · rw [hnul, if_pos rfl] at hin
        exact found hl (by rw [hnul, hin])
      · simp only [hnul, Bool.false_eq_true, if_false, hdec] at hin
        exact found hl (by rw [hnul, hin])
      · simp only [hnul, Bool.false_eq_true, if_false, hdec] at hin
        have := found hl (by rw [hnul, hin])
        cases b
        case notALane => exact absurd rfl hb
        all_goals exact this

/-! ## Traps -/

theorem seqOp_off {s : State} (h : s.hasFeature 3 = false) (rs : List SReg) (b : Bool) (f : State → State) :
    seqOp rs b s f = .next (trap s (plainFail .illfeature)) := featured_off h _

/-- Settles O28: each form checks its view or its feature before anything else. -/
theorem traps : Obligations.Traps := by
  intro i o r m c bad s
  refine ⟨rfl, rfl, fun hp => ?_, fun hf => (exec_mspa m s).trans (featured_off hf _), fun hf => ?_, fun hf => ?_, fun hf => ?_,
    fun hb => ?_, rfl⟩
  · simp only [List.forall_mem_cons]
    exact ⟨(exec_tlbinvCtx o s).trans (privileged_off hp _), (exec_tlbinvPage o s).trans (privileged_off hp _),
      (exec_tlbinvAll o s).trans (privileged_off hp _), (exec_actset r s).trans (privileged_off hp _),
      (exec_resume o s).trans (privileged_off hp _), (exec_halt o s).trans (privileged_off hp _),
      (exec_wdogPet o s).trans (privileged_off hp _), (exec_wdogExpire o s).trans (privileged_off hp _),
      (exec_wdogCorerst o s).trans (privileged_off hp _), (exec_wdogDierst o s).trans (privileged_off hp _),
      (exec_featset o s).trans (privileged_off hp _), (exec_parkpop o s).trans (privileged_off hp _), List.forall_mem_nil _⟩
  · simp only [List.forall_mem_cons]
    exact ⟨(exec_zwait o s).trans (featured_off hf _), (exec_zdrop o s).trans (featured_off hf _),
      (exec_ztest o s).trans (featured_off hf _), List.forall_mem_nil _⟩
  · have missing {x : Instr} (hregs : cpRegs x c = [c.sa, c.sb, c.sc, c.sd, c.se]) (hmiss : cpMissing x c s = true)
        (hr : ready s [c.sa, c.sb, c.sc, c.sd, c.se] = true) :
        dispatchCp x c s = .next (trap s (plainFail .illfeature)) := by
      simp [dispatchCp, hregs, hr, hmiss]
    simp only [List.forall_mem_cons]
    exact ⟨fun hr => (exec_cpb c s).trans (missing rfl (by simp [cpMissing, hf]) hr),
      fun hr => (exec_cph c s).trans (missing rfl (by simp [cpMissing, hf]) hr), List.forall_mem_nil _⟩
  · simp only [List.forall_mem_cons]
    exact ⟨(exec_sqappend o s).trans (seqOp_off hf _ _ _), (exec_sqconfirm o s).trans (seqOp_off hf _ _ _),
      (exec_sqstate o s).trans (seqOp_off hf _ _ _), (exec_wset o s).trans (seqOp_off hf _ _ _),
      (exec_wclr o s).trans (seqOp_off hf _ _ _), (exec_wget o s).trans (seqOp_off hf _ _ _), List.forall_mem_nil _⟩
  · cases bad
    case notALane => exact absurd rfl hb
    all_goals rfl

/-! ## Fault records -/

theorem leAt_leBytes (n v : Nat) (rest : List Byte) : leAt (leBytes n v ++ rest) 0 n = v % 256 ^ n := by
  simp [leAt, leNat_leBytes]

theorem leAt_leBytes_skip {n off : Nat} (h : n ≤ off) (v m : Nat) (rest : List Byte) :
    leAt (leBytes n v ++ rest) off m = leAt rest (off - n) m := by
  rw [leAt, leAt, List.drop_append, leBytes_length, List.drop_eq_nil_of_le (by simpa using h), List.nil_append]

theorem pcWord_lt (e : PcEntry) : pcWord e < 2 ^ 64 := by
  have := e.addr.isLt
  unfold pcWord
  split <;> omega

theorem cause_code_lt (c : Cause) : c.code < 256 := by cases c <;> decide

theorem infoByte_lt (r : Raised) (a : Action) : infoByte r a < 256 := by
  have he : r.engine.code ≤ 5 := by cases r.engine <;> decide
  have ha : a.code ≤ 3 := by cases a <;> decide
  unfold infoByte
  split <;> omega

theorem bit_eq_testBit (w i : Nat) : bit w i = w.testBit i := by
  rw [Nat.testBit_eq_decide_div_mod_eq]
  rfl

theorem blockKey_none {s : State} {d : Fin 8} {c : Fin 64} (h : (s.ctxAt d c).actbase.getLsbD 0 = false) :
    blockKey s d c = none := by
  rw [blockKey]
  exact if_neg (by rw [bit_eq_testBit]; exact Bool.not_eq_true _ ▸ h)

/-- With no block and no die log a record is written nowhere. -/
theorem writeRecord_nowhere {s : State} {c : Fin 64} (bs : List Byte)
    (ha : (s.ctxAt (dieOf s.core.agent) c).actbase.getLsbD 0 = false) (hg : s.dies[dieOf s.core.agent].dielog = 0) :
    writeRecord s c bs = (s, 0) := by
  have hlog : s.dies[dieOf s.core.agent].dielog.toNat = 0 := by rw [hg]; rfl
  simp only [writeRecord, blockKey_none ha, hlog, if_true]

/-- With a usable ring it goes to the ring's next slot. -/
theorem writeRecord_ring {s : State} {c : Fin 64} {k : Nat} (bs : List Byte) (hk : blockKey s (dieOf s.core.agent) c = some k)
    (h6 : 6 ≤ s.le (k + 0x210) 4) (h16 : s.le (k + 0x210) 4 ≤ 16) (hpeer : s.le (k + 0x200) 8 / 2 ^ 52 % 2 ^ 9 = 0)
    (hlow : s.le (k + 0x200) 8 % 2 ^ 12 = 0) :
    let ring := s.le (k + 0x200) 8
    let slot := 64 * (s.le (k + 0x218) 8 % 2 ^ s.le (k + 0x210) 4)
    writeRecord s c bs =
      ((s.store (hbmKey (peerOf s.pkg (ring / 2 ^ 61 % 8)) (ring / 2 ^ 12 % 2 ^ 40 * 4096 + slot)) bs).storeLe (k + 0x218) 8
        (s.le (k + 0x218) 8 + 1), if s.le (k + 0x208) 8 = 0 then 0 else BitVec.ofNat 64 (s.le (k + 0x208) 8 + slot)) := by
  have hok : bits (s.le (k + 0x200) 8) 52 9 = 0 ∧ bits (s.le (k + 0x200) 8) 0 12 = 0 ∧ 6 ≤ s.le (k + 0x210) 4 ∧
      s.le (k + 0x210) 4 ≤ 16 := ⟨hpeer, by simpa [bits] using hlow, h6, h16⟩
  simp only [writeRecord, hk, if_pos hok]
  rfl

/-- Settles O29: the record is a row of little-endian numbers; where it goes is read off `writeRecord`. -/
theorem faultRecords : Obligations.FaultRecords := by
  intro s t r a
  have hcode := cause_code_lt r.cause
  have hinfo := infoByte_lt r a
  have hctx := t.ctx.isLt
  have hagent := s.core.agent.isLt
  have hidx := r.idx.isLt
  have h0 := pcWord_lt s.scc.pcq0
  have h1 := pcWord_lt s.scc.pcq1
  have h2 := pcWord_lt s.scc.pcq2
  dsimp only
  refine ⟨by simp [recordBytes, recordWith, words], ?_, ?_, ?_, ?_, ?_, ?_, ?_, ?_, ?_, ?_, ?_, ?_,
    fun ha hg => writeRecord_nowhere _ ha hg, fun k lg hk hlg h6 h16 hpeer hlow => ?_⟩
  case refine_13 =>
    subst hlg
    exact writeRecord_ring _ hk h6 h16 hpeer hlow
  all_goals
    simp (disch := omega) only [recordBytes, recordWith, words, List.flatMap_cons, List.flatMap_nil, List.cons_append,
      List.nil_append, List.append_assoc, leAt_leBytes, leAt_leBytes_skip, Nat.mod_eq_of_lt, Nat.reduceSub, Nat.sub_self]
  all_goals rfl

end Sys2Proof.StepsAndTraps

/-! # Joins, launches and stage buffers (09 R266, R277-R283) -/

namespace Sys2Proof.TaskGroup

open Sys2Proof.Machine Sys2Proof.Safety Sys2Proof.StepsAndTraps

/-! ## The running task -/

theorem setS_eq (s : State) (d : SReg) (v : Word) : s.setS d v = withScc s { s.scc with s := writeReg s d v } := by
  unfold State.setS writeReg
  split <;> rfl

/-- A change of the running task, written out. -/
theorem modTask_eq {s : State} {t : Task} (ht : s.core.task = some t) (f : Task → Task) :
    s.modTask f = s.modCore fun c => { c with task := some (f t) } := by
  simp only [State.modTask, State.modCore, ht, Option.map_some]

/-- The running task put in its own place. -/
theorem self_eq {s : State} {t : Task} (ht : s.core.task = some t) : s = s.modCore fun c => { c with task := some t } := by
  rw [← ht]
  rfl

/-! ## Joins and launches -/

theorem launchOf_eq {s : State} {t : Task} {n : Nat} {l : Launch} (hn : t.launch = some n) (hl : s.launches[n]? = some l) :
    s.launchOf t = some l := by
  simp [State.launchOf, hn, hl]

/-- TBOUND with a claim that is taken, or without one. -/
theorem tbound_eq {o : Sa} {s : State} {t : Task} (ht : s.core.task = some t) (hr : ready s [o.d, o.a] = true)
    (hlive : ¬((s.sreg o.a).toNat ≠ 0 ∧ s.ve.loop.any (·.live) = true)) :
    exec (.tbound o) s = .next (wrote (s.modCore fun c => { c with
      task := some { t with cur := if (s.sreg o.a).toNat ≤ t.hi then max t.cur (s.sreg o.a).toNat else t.cur } })
        o.d (BitVec.ofNat 64 t.hi)) := by
  refine ((exec_tbound o s).trans (sccOp_ready hr _)).trans (congrArg _ ?_)
  simp only [ht, if_neg hlive]
  refine Eq.trans (congrArg (fun x => retire (State.setS x o.d (BitVec.ofNat 64 t.hi))) ?_) (retire_setS _ o.d _)
  split
  case isTrue => rw [modTask_eq ht]
  case isFalse => exact self_eq ht

theorem predDone_eq_false {s : State} {l : Launch} {p : Nat} {q : Launch} (hp : l.pred = some p)
    (hq : s.launches[p]? = some q) (hc : q.complete = false) : predDone s l = false := by
  simp [predDone, hp, hq, hc]

theorem predDone_eq_true {s : State} {l : Launch} (h : ∀ p q, l.pred = some p → s.launches[p]? = some q → q.complete = true) :
    predDone s l = true := by
  unfold predDone
  split
  · rfl
  · split
    · exact h _ _ ‹_› ‹_›
    · rfl

/-- Settles O22: each form by the branch that its condition selects. -/
theorem joinsAndLaunches : Obligations.JoinsAndLaunches := by
  intro o s t ht
  have live_iff : s.ve.loop.any (·.live) = true ↔ ∃ l, s.ve.loop = some l ∧ l.live = true := by simp [Option.any_eq_true]
  refine ⟨fun hr => ⟨fun hj => ?_, fun hj => ?_, fun hc hl => ?_, fun hc => ?_⟩, fun hn => ⟨?_, ?_⟩,
    fun n l hn hl => ⟨?_, fun hp => ?_, fun hp hq => ?_, fun hp hq => ?_⟩⟩
  · refine ((exec_joinwait o s).trans (sccOp_ready hr _)).trans (congrArg _ ?_)
    simp only [ht, Join.settled, beq_eq_false_iff_ne.mpr hj, Bool.not_false, if_true]
    rfl
  · refine ((exec_joinwait o s).trans (sccOp_ready hr _)).trans (congrArg _ ?_)
    simp only [ht, Join.settled, beq_iff_eq.mpr hj, Bool.not_true, Bool.false_eq_true, if_false]
    rw [retire_setS, acquire_eq, ← setS_eq]
    by_cases hlen : 16 < (s.joinAt t.childJoin).enders.length
    · simp only [hlen, if_true, decide_true, Bool.or_true]
    · simp only [hlen, if_false, decide_false, Bool.or_false]
      rfl
  · refine ((exec_tbound o s).trans (sccOp_ready hr _)).trans (congrArg _ ?_)
    simp only [ht, if_pos (⟨hc, live_iff.mpr hl⟩ : _ ∧ _)]
    rfl
  · exact tbound_eq ht hr fun h => hc.elim h.1 fun hl => hl (live_iff.mp h.2)
  · rw [exec_hintnext, execHintnext, ht]
    simp only [Option.bind_some, hn]
    rfl
  · rw [exec_waitpred, execWaitpred, ht]
    simp only [Option.bind_some, State.launchOf, hn, Option.bind_none]
    rfl
  · rw [exec_hintnext, execHintnext, ht]
    simp only [Option.bind_some, hn, List.modify_eq_set_getElem?, hl]
    rfl
  · rw [exec_waitpred, execWaitpred, ht]
    simp only [Option.bind_some, launchOf_eq hn hl, hp, Bool.not_false, if_true]
    rfl
  · obtain ⟨p, q, hpred, hlaunch, hcomplete⟩ := hq
    rw [exec_waitpred, execWaitpred, ht]
    simp only [Option.bind_some, launchOf_eq hn hl, hp, predDone_eq_false hpred hlaunch hcomplete, Bool.not_true,
      Bool.not_false, Bool.false_eq_true, if_false, if_true]
    rfl
  · rw [exec_waitpred, execWaitpred, ht]
    simp only [Option.bind_some, launchOf_eq hn hl, hp, predDone_eq_true hq, Bool.not_true, Bool.false_eq_true, if_false]
    rw [acquire_eq]
    rfl

/-! ## Handles -/

/-- A buffer is the one that a word names. -/
def Named (w : Word) (b : PoolBuf) : Prop := b.off = w.toNat % 2 ^ 23 ∧ b.gen = BitVec.ofNat 32 (w.toNat / 2 ^ 32)

theorem handleOf_off (w : Word) : (handleOf w).off = w.toNat % 2 ^ 23 := by simp [handleOf, bits]

theorem handleOf_gen (w : Word) : (handleOf w).gen = BitVec.ofNat 32 (w.toNat / 2 ^ 32) := by
  apply BitVec.eq_of_toNat_eq
  simp [handleOf, bits]

theorem handleOf_toWord (w : Word) :
    (handleOf w).toWord = BitVec.ofNat 64 (w.toNat / 2 ^ 32 * 2 ^ 32 + w.toNat % 2 ^ 23) := by
  have hw := w.isLt
  rw [Handle.toWord, handleOf_off, handleOf_gen, BitVec.toNat_ofNat, Nat.mod_eq_of_lt (show w.toNat / 2 ^ 32 < 2 ^ 32 by omega)]

theorem named_iff (w : Word) (b : PoolBuf) : (b.off == (handleOf w).off && b.gen == (handleOf w).gen) = true ↔ Named w b := by
  rw [handleOf_off, handleOf_gen, Bool.and_eq_true, beq_iff_eq, beq_iff_eq, Named]

theorem handleOf_of_named {w : Word} {b : PoolBuf} (h : Named w b) : handleOf w = ⟨b.gen, b.off⟩ := by
  rw [h.1, h.2, ← handleOf_off, ← handleOf_gen]

theorem poolBuf_isSome {c : Core} {w : Word} : (poolBuf c (handleOf w)).isSome = true ↔ ∃ b ∈ c.pool, Named w b := by
  simp only [poolBuf, List.find?_isSome, named_iff]

/-- The one buffer of the pool that a word names. -/
theorem poolBuf_eq {c : Core} {w : Word} {b : PoolBuf} (hb : b ∈ c.pool) (hn : Named w b)
    (hone : ∀ x ∈ c.pool, Named w x → x = b) : poolBuf c (handleOf w) = some b := by
  obtain ⟨x, hx⟩ := Option.isSome_iff_exists.mp (poolBuf_isSome.mpr ⟨b, hb, hn⟩)
  have hnamed := List.find?_some (show c.pool.find? _ = some x from hx)
  rw [hx, hone x (List.mem_of_find?_eq_some hx) ((named_iff w x).mp hnamed)]

/-- The task holds the handle that a word is, and its generation stands. -/
def Held (c : Core) (t : Task) (w : Word) : Prop :=
  (∃ h ∈ t.handles, BitVec.ofNat 64 (h.gen.toNat * 2 ^ 32 + h.off) = w) ∧ ∃ b ∈ c.pool, Named w b

theorem holdsHandle_iff (c : Core) (t : Task) (w : Word) : holdsHandle c t w = true ↔ Held c t w := by
  simp only [holdsHandle, Bool.and_eq_true, poolBuf_isSome, List.any_eq_true, beq_iff_eq, Handle.toWord, Held]

/-! ## BUFTAKE -/

/-- A pool in which one place alone has an offset and a generation: marking those marks that place. -/
theorem map_mark_eq_set {l : List PoolBuf} {i : Nat} {b : PoolBuf} (hi : l[i]? = some b)
    (hone : ∀ j c, l[j]? = some c → c.off = b.off → c.gen = b.gen → j = i) :
    (l.map fun y => if y.off == b.off && y.gen == b.gen then { y with free := false } else y) =
      l.set i { b with free := false } := by
  apply List.ext_getElem?
  intro j
  rw [List.getElem?_map, List.getElem?_set]
  by_cases hj : i = j
  · subst hj
    have hlt : i < l.length := (List.getElem?_eq_some_iff.mp hi).1
    rw [hi, Option.map_some, if_pos rfl, if_pos hlt, if_pos (by simp)]
  · rw [if_neg hj]
    cases hc : l[j]? with
    | none => rfl
    | some c =>
      have hne : (c.off == b.off && c.gen == b.gen) = false := by
        rw [Bool.eq_false_iff]
        intro h
        rw [Bool.and_eq_true, beq_iff_eq, beq_iff_eq] at h
        exact hj (hone j c hc h.1 h.2).symm
      rw [Option.map_some, hne, if_neg Bool.false_ne_true]

/-- A free buffer of the task's stage. -/
def Mine (t : Task) (b : PoolBuf) : Prop := some b.launch = t.launch ∧ b.stage = t.stage ∧ b.free = true

theorem mine_iff (t : Task) (b : PoolBuf) : (some b.launch == t.launch && b.stage == t.stage && b.free) = true ↔ Mine t b := by
  simp only [Bool.and_eq_true, beq_iff_eq, Mine, and_assoc]

theorem allocBuffer_none {s : State} (d : SReg) {t : Task} (h : ∀ b ∈ s.core.pool, ¬Mine t b) : allocBuffer s d t = waiting s := by
  rw [allocBuffer, List.find?_eq_none.mpr fun b hb => by rw [mine_iff]; exact h b hb]
  rfl

theorem allocBuffer_some {s : State} (d : SReg) {t : Task} {i : Nat} {b : PoolBuf} (ht : s.core.task = some t)
    (hi : s.core.pool[i]? = some b) (hb : Mine t b) (hfirst : ∀ j c, s.core.pool[j]? = some c → Mine t c → i ≤ j)
    (hone : ∀ j c, s.core.pool[j]? = some c → c.off = b.off → c.gen = b.gen → j = i) :
    allocBuffer s d t = wrote (s.modCore fun c => { c with
      pool := c.pool.set i { b with free := false }
      task := some { t with handles := t.handles ++ [⟨b.gen, b.off⟩] } }) d (BitVec.ofNat 64 (b.gen.toNat * 2 ^ 32 + b.off)) := by
  obtain ⟨hlt, hget⟩ := List.getElem?_eq_some_iff.mp hi
  have hfind : s.core.pool.find? (fun b => some b.launch == t.launch && b.stage == t.stage && b.free) = some b := by
    refine List.find?_eq_some_iff_getElem.mpr ⟨(mine_iff t b).mpr hb, i, hlt, hget, fun j hj => ?_⟩
    rw [Bool.not_eq_true', Bool.eq_false_iff]
    intro hm
    have := hfirst j _ (List.getElem?_eq_getElem (by omega)) ((mine_iff t _).mp hm)
    omega
  simp only [allocBuffer, hfind]
  rw [retire_setS, addHandle, modTask_eq (t := t) (by exact ht)]
  simp only [State.modCore, map_mark_eq_set hi hone]
  rfl

theorem takeInbound_waits {s : State} (d : SReg) {t : Task} {b : PoolBuf} (hb : b ∈ s.core.pool) (hn : Named t.inbound b)
    (hone : ∀ c ∈ s.core.pool, Named t.inbound c → c = b) (hl : b.landed = false) : takeInbound s d t = waiting s := by
  simp only [takeInbound, poolBuf_eq hb hn hone, hl, Bool.not_false, if_true]
  rfl

theorem takeInbound_landed {s : State} (d : SReg) {t : Task} {b : PoolBuf} (ht : s.core.task = some t) (hb : b ∈ s.core.pool)
    (hn : Named t.inbound b) (hone : ∀ c ∈ s.core.pool, Named t.inbound c → c = b) (hl : b.landed = true) :
    takeInbound s d t = wrote (importAll (s.modCore fun c => { c with
      task := some { t with taken := true, handles := t.handles ++ [⟨b.gen, b.off⟩] } }) b.passer.toList) d
        (BitVec.ofNat 64 (0x8000000000000000 + b.off)) := by
  simp only [takeInbound, poolBuf_eq hb hn hone, hl, Bool.not_true, Bool.false_eq_true, if_false]
  rw [retire_setS, modTask_eq ht, addHandle, modTask_eq rfl, handleOf_of_named hn]
  rfl

/-! ## BUFPASS -/

theorem badPass_eq {c : Core} {t : Task} {w : Word} {x y : StageEntry} (hx : t.obj.stages[t.stage]? = some x)
    (hy : t.obj.stages[t.stage + 1]? = some y) (hh : Held c t w) :
    badPass c t w = (y.role == .store && y.bufBytes != x.bufBytes) := by
  simp [badPass, (holdsHandle_iff c t w).mpr hh, hx, hy]

theorem badPass_of_not_held {c : Core} {t : Task} {w : Word} (hh : ¬Held c t w) : badPass c t w = true := by
  rw [← holdsHandle_iff] at hh
  simp [badPass, hh]

theorem setCoreAt_self (s : State) (c : Core) : s.setCoreAt s.core.agent c = { s with core := c } := by
  simp [State.setCoreAt]

theorem dropHandle_eq {s : State} {t : Task} (ht : s.core.task = some t) (w : Word) : dropHandle s w = s.modCore fun c =>
    { c with task := some { t with handles := t.handles.filter fun h => BitVec.ofNat 64 (h.gen.toNat * 2 ^ 32 + h.off) != w } } :=
  modTask_eq ht _

theorem nextNumber_dies (s : State) (d : Fin 8) (l : Option Nat) : ∃ ds, (nextNumber s d l).1 = { s with dies := ds } := ⟨_, rfl⟩

theorem stageChild_fields (s : State) (t : Task) (id : BitVec 32) (w : Word) (n : Fin 512) (stage prio lo hi : Nat)
    (anchor arg : Word) (join : Nat) :
    let e := { (withJoin s { childOf t stage prio lo hi anchor arg join with id := id, inbound := w }).2 with home := n }
    (e.stage, e.prio, e.lo, e.hi, e.inbound, e.code, e.ctx, e.launch, e.join) =
      (stage, prio, lo, hi, w, t.code, t.ctx, t.launch, join) := rfl

/-- What a buffer passed on from the own core leaves: a task of the next stage, and the buffer landed. -/
theorem passBuffer_self {s : State} (t : Task) (h : Handle) (lo hi stage : Nat) (p : Option Import) : ∃ e place,
    let u := passBuffer s s.core.agent t h lo hi stage p
    u.tasks = s.tasks ++ [⟨e, place, none⟩] ∧ u.mem = s.mem ∧ u.core.epoch = s.core.epoch ∧ u.core.task = s.core.task ∧
    (e.stage, e.prio, e.lo, e.hi, e.inbound, e.code, e.ctx, e.launch, e.join) =
      (stage, t.prio, lo, hi, h.toWord, t.code, t.ctx, t.launch, t.join) ∧
    u.core.pool = s.core.pool.map fun b =>
      if b.off == h.off && b.gen == h.gen then { b with free := false, landed := true, passer := p } else b := by
  unfold passBuffer
  rw [setCoreAt_self, coreAt_self]
  dsimp only
  generalize hpool : s.core.pool.map _ = pool
  generalize hn : nextNumber _ _ _ = r
  obtain ⟨ds, hds⟩ := nextNumber_dies (({ s with core := { s.core with pool := pool } }).expect t.join) (dieOf s.core.agent) t.launch
  rw [show nextNumber _ _ _ = r from hn] at hds
  generalize hu : withJoin _ _ = u
  obtain ⟨place, htasks⟩ := enqueue_tasks u.1 u.2 s.core.agent
  obtain ⟨hmem, -, -, hepoch, htask, hp⟩ := enqueue_rest u.1 u.2 s.core.agent
  have hstate : u.1 = { s with core := { s.core with pool := pool }, dies := ds, joins := u.1.joins } := by
    rw [← hu]
    simp only [withJoin, State.newJoin, hds]
    rfl
  refine ⟨{ u.2 with home := s.core.agent }, place, ?_, ?_, ?_, ?_, by subst hu; exact stageChild_fields .., ?_⟩
  · rw [htasks, hstate]
  · rw [hmem, hstate]
  · rw [hepoch, hstate]
  · rw [htask, hstate]
  · rw [hp, hstate]

/-- BUFPASS with room for the buffer in the next stage's queue. -/
theorem bufpass_room {o : Sa} {s : State} {t : Task} {x y : StageEntry} (ht : s.core.task = some t) (hr : ready s [o.a] = true)
    (hx : t.obj.stages[t.stage]? = some x) (hy : t.obj.stages[t.stage + 1]? = some y) (hh : Held s.core t (s.sreg o.a))
    (hrole : y.role ≠ .store ∨ y.bufBytes = x.bufBytes)
    (hq : queuedHandles s s.core.agent t.launch (t.stage + 1) < x.bound) (hd : allDone s = true)
    (hf : storeFreeKept s (dieOf s.core.agent) = true) :
    exec (.bufpass o) s = .next (passed (bumpEpoch (passBuffer (dropHandle s (s.sreg o.a)) s.core.agent t (handleOf (s.sreg o.a))
      t.lo t.hi (t.stage + 1) (some ⟨BitVec.ofNat 9 s.core.agent.val, s.core.epoch⟩)))) := by
  refine ((exec_bufpass o s).trans (sccOp_ready hr _)).trans (congrArg _ ?_)
  have hbad : badPass s.core t (s.sreg o.a) = false := by
    rw [badPass_eq hx hy hh]
    rcases hrole with h | h <;> simp [h]
  have hfull : queueFull s s.core.agent t t.stage = false := by simpa [queueFull, hx] using hq
  simp only [ht, hbad, hd, hfull, hf, Bool.not_true, Bool.or_false, Bool.false_eq_true, if_false, retire_eq_passed]

/-- Settles O24: the pool is searched for a buffer of the stage, or for the one that the handle names. -/
theorem stageBuffers : Obligations.StageBuffers := by
  intro o s t ht
  refine ⟨fun hr => ⟨fun hlen => ?_, fun hlen hw hnone => ?_, fun i b hlen hw hi hb hfirst hone => ?_,
      fun hlen hw hin => ?_, fun b hb hlen hw hin htaken hn hone => ⟨fun hl => ?_, fun hl => ?_⟩⟩,
    fun hr => ⟨fun hh => ⟨?_, ?_⟩, fun hh => ?_, fun x y hh hx hy => ⟨fun hrole => ?_, fun hrole => ⟨fun hq => ?_,
      fun hq hd hf => ?_⟩⟩⟩⟩
  · refine ((exec_buftake o s).trans (sccOp_ready hr _)).trans (congrArg _ ?_)
    simp only [ht, if_pos hlen]
    rfl
  · refine ((exec_buftake o s).trans (sccOp_ready hr _)).trans (congrArg _ ?_)
    simp only [ht, if_neg (Nat.not_le.mpr hlen), if_pos hw]
    exact allocBuffer_none _ hnone
  · refine ((exec_buftake o s).trans (sccOp_ready hr _)).trans (congrArg _ ?_)
    simp only [ht, if_neg (Nat.not_le.mpr hlen), if_pos hw]
    exact allocBuffer_some _ ht hi hb hfirst hone
  · refine ((exec_buftake o s).trans (sccOp_ready hr _)).trans (congrArg _ ?_)
    have hnot : ¬(s.sreg o.a = t.inbound ∧ (!t.taken) = true) := fun h => hin.elim (· h.1) fun hk => by simp [hk] at h
    simp only [ht, if_neg (Nat.not_le.mpr hlen), if_neg hw, if_neg hnot]
    rfl
  · refine ((exec_buftake o s).trans (sccOp_ready hr _)).trans (congrArg _ ?_)
    simp only [ht, if_neg (Nat.not_le.mpr hlen), if_neg hw, if_pos (⟨hin, by rw [htaken]; rfl⟩ : _ ∧ (!t.taken) = true)]
    rw [hin] at hn hone
    exact takeInbound_waits _ hb hn hone hl
  · refine ((exec_buftake o s).trans (sccOp_ready hr _)).trans (congrArg _ ?_)
    simp only [ht, if_neg (Nat.not_le.mpr hlen), if_neg hw, if_pos (⟨hin, by rw [htaken]; rfl⟩ : _ ∧ (!t.taken) = true)]
    rw [hin] at hn hone
    exact takeInbound_landed _ ht hb hn hone hl
  · refine ((exec_buffree o s).trans (sccOp_ready hr _)).trans (congrArg _ ?_)
    have hnot : holdsHandle s.core t (s.sreg o.a) = false := Bool.eq_false_iff.mpr fun h => hh ((holdsHandle_iff ..).mp h)
    simp only [ht, hnot, Bool.not_false, if_true]
    rfl
  · refine ((exec_bufpass o s).trans (sccOp_ready hr _)).trans (congrArg _ ?_)
    simp only [ht, badPass_of_not_held hh, if_true]
    rfl
  · refine ((exec_buffree o s).trans (sccOp_ready hr _)).trans (congrArg _ ?_)
    simp only [ht, (holdsHandle_iff ..).mpr hh, Bool.not_true, Bool.false_eq_true, if_false]
    rw [dropHandle_eq ht, retire_eq_passed]
    simp only [State.modCore, freeBuffer, named_iff, Named]
  · refine ((exec_bufpass o s).trans (sccOp_ready hr _)).trans (congrArg _ ?_)
    have hbad : badPass s.core t (s.sreg o.a) = true := by rw [badPass_eq hx hy hh]; simp [hrole]
    simp only [ht, hbad, if_true]
    rfl
  · refine ((exec_bufpass o s).trans (sccOp_ready hr _)).trans (congrArg _ ?_)
    have hbad : badPass s.core t (s.sreg o.a) = false := by
      rw [badPass_eq hx hy hh]
      rcases hrole with h | h <;> simp [h]
    have hfull : queueFull s s.core.agent t t.stage = true := by simpa [queueFull, hx] using hq
    simp only [ht, hbad, hfull, Bool.or_true, Bool.true_or, Bool.false_eq_true, if_false, if_true]
    rfl
  · obtain ⟨e, place, htasks, hmem, hepoch, htask, hfields, hpool⟩ := passBuffer_self (s := dropHandle s (s.sreg o.a)) t
      (handleOf (s.sreg o.a)) t.lo t.hi (t.stage + 1) (some ⟨BitVec.ofNat 9 s.core.agent.val, s.core.epoch⟩)
    rw [handleOf_toWord] at hfields
    refine ⟨bumpEpoch _, e, place, bufpass_room ht hr hx hy hh hrole hq hd hf, htasks, hmem, ?_, ?_, hfields, fun b hb hn => ?_⟩
    · exact congrArg (· + 1) hepoch
    · exact htask.trans (congrArg (fun u : State => u.core.task) (dropHandle_eq ht _))
    · have hb' := hpool ▸ hb
      obtain ⟨c, hc, rfl⟩ := List.mem_map.mp hb'
      split at hn
      case isTrue hnamed => rw [if_pos hnamed]; exact ⟨rfl, rfl, rfl⟩
      case isFalse hnamed => exact absurd ((named_iff _ _).mpr hn) hnamed

/-! ## Ends of tasks -/

theorem saveTask_none {s : State} {t : Task} {vec slots forced : Bool} {cause : Nat} {record : Word} {stopped : Option Raised}
    {acc : Bool} (ha : (slots && decide (t.obj.slots ≠ 0)) = acc)
    (h : roomFor s (dieOf s.core.agent) (imageSize t.obj vec acc) = none) :
    saveTask s t vec slots forced cause record stopped = none := by
  unfold saveTask
  dsimp only
  rw [ha, h]

theorem foldl_worsePrio_mem (s : State) (l : List (Fin 512)) (c : Fin 512) : l.foldl (worsePrio s) c ∈ c :: l := by
  induction l generalizing c with
  | nil => simp
  | cons b l ih =>
    rw [List.foldl_cons]
    have h := ih (worsePrio s c b)
    have hw : worsePrio s c b = b ∨ worsePrio s c b = c := by
      unfold worsePrio
      dsimp only
      split
      · exact .inl rfl
      · exact .inr rfl
    simp only [List.mem_cons] at h ⊢
    rcases h with h | h
    · rcases hw with hw | hw <;> rw [h, hw] <;> simp
    · exact .inr (.inr h)

/-- YREQ is raised where a task runs. -/
theorem yreqCore_running {s : State} {used : List (Fin 512)} {e : TaskEnt} {n : Fin 512} (h : yreqCore s used e = some n) :
    (s.coreAt n).task.isSome = true := by
  unfold yreqCore at h
  obtain ⟨w, -, h⟩ := Option.bind_eq_some_iff.mp h
  dsimp only at h
  split at h
  · cases h
  · split at h
    · cases h
    · rename_i c cs hcs
      obtain rfl := Option.some.inj h
      have hmem : cs.foldl (worsePrio s) c ∈ c :: cs := foldl_worsePrio_mem s cs c
      rw [← hcs, List.mem_filter] at hmem
      simp only [Bool.and_eq_true, Option.any_eq_true] at hmem
      obtain ⟨-, -, t, ht, -⟩ := hmem
      simp [ht]

theorem yreqCores_running (s : State) (d : Fin 8) : ∀ n ∈ yreqCores s d, (s.coreAt n).task.isSome = true := by
  unfold yreqCores
  refine List.foldlRecOn (motive := fun used => ∀ n ∈ used, (s.coreAt n).task.isSome = true) _ _ (by simp) fun used hused e _ => ?_
  split
  case h_1 n hn =>
    intro m hm
    rcases List.mem_append.mp hm with hm | hm
    · exact hused m hm
    · rw [List.mem_singleton.mp hm]
      exact yreqCore_running hn
  case h_2 => exact hused

/-- A core without a task gets no YREQ. -/
theorem yreqScan_idle {s : State} (d : Fin 8) (h : s.core.task = none) : (yreqScan s d).core = s.core := by
  unfold yreqScan
  have hne : ∀ n ∈ yreqCores s d, n ≠ s.core.agent := by
    rintro n hn rfl
    have := yreqCores_running s d _ hn
    rw [coreAt_self, h] at this
    cases this
  generalize yreqCores s d = l at hne
  clear h
  induction l generalizing s with
  | nil => rfl
  | cons n l ih =>
    have hcore : (if (s.coreAt n).yreq.isSome then s else raiseYreq s n false).core = s.core := by
      split
      · rfl
      · unfold raiseYreq
        rcases setCoreAt_cases s n _ with ⟨heq, -⟩ | ⟨-, l, h⟩
        · exact absurd heq (hne n List.mem_cons_self)
        · rw [h]
    rw [List.foldl_cons, ih (by rw [hcore]; exact fun m hm => hne m (List.mem_cons_of_mem _ hm)), hcore]

/-- A saved task goes to the tail of its core's queue, or of park queue 14 when it was asked to park. -/
theorem placeSaved_rest {s : State} (n : Fin 512) (t : Task) (i : Image) (asked : Bool) (h : s.core.task = none) : ∃ place,
    (placeSaved s n t i asked).tasks = s.tasks ++ [⟨t, place, some i⟩] ∧ (placeSaved s n t i asked).core = s.core ∧
    (asked = true → place = .parked (dieOf n) 14) ∧
    (asked = false → place = .ready n s.dies[dieOf n].cycle.toNat 0 t.prio) := by
  cases asked with
  | true => exact ⟨_, rfl, rfl, fun _ => rfl, nofun⟩
  | false =>
    refine ⟨_, (yreqScan_scanned { s with tasks := s.tasks ++ [⟨t, .ready n s.dies[dieOf n].cycle.toNat 0 t.prio, some i⟩] }
      (dieOf n)).tasks, yreqScan_idle _ h, nofun, fun _ => rfl⟩

theorem moveReady_tasks (s : State) (n : Fin 512) : ∃ l, moveReady s n = { s with tasks := l } := by
  unfold moveReady
  generalize s.tasks.filter _ = go
  induction go generalizing s with
  | nil => exact ⟨_, rfl⟩
  | cons e go ih =>
    rw [List.foldl_cons]
    obtain ⟨l, hl⟩ := ih _
    exact ⟨l, hl⟩

/-- YIELD that saves: the lemma about `saveTask`, after the instruction has issued. -/
theorem yield_saves {o : Sa} {s : State} {t : Task} (ht : s.core.task = some t) (hr : ready s [o.a] = true)
    (hsel : (s.sreg o.a).toNat < 4) (hy : s.core.yreq ≠ none) (hready : yieldReady s = true) :
    exec (.yield o) s = .next (match saveTask (retire s) t ((s.sreg o.a).getLsbD 0) ((s.sreg o.a).getLsbD 1) false 0 0 none with
      | none => retire s
      | some (y, i) => placeSaved y s.core.agent t i s.core.parkReq) := by
  refine ((exec_yield o s).trans (sccOp_ready hr _)).trans (congrArg _ ?_)
  have hsome : s.core.yreq.isNone = false := by simpa [Option.isSome_iff_ne_none] using hy
  simp only [if_neg (Nat.not_le.mpr hsel), hsome, hready, ht, Bool.not_true, Bool.false_eq_true, if_false,
    bit_eq_testBit]
  rfl

/-- Settles O23: YIELD by `saveTask_some`, DONE and HALT by `finishTask_rest`. -/
theorem endsOfTasks : Obligations.EndsOfTasks := by
  intro o s t ht
  refine ⟨fun hr => ⟨fun hsel => ?_, fun hsel hy => ?_, fun hsel hy hready => ?_, fun hsel hy hready => ⟨fun hroom => ?_,
      fun base hroom => ?_⟩⟩, fun hd => ?_, fun hd => ?_, fun hp => ?_, fun hp => ⟨fun hd => ?_, fun hd => ?_⟩⟩
  · exact ((exec_yield o s).trans (sccOp_ready hr _)).trans (congrArg _ (if_pos hsel))
  · refine ((exec_yield o s).trans (sccOp_ready hr _)).trans (congrArg _ ?_)
    simp only [if_neg (Nat.not_le.mpr hsel), hy, Option.isNone_none, if_true]
    rfl
  · refine ((exec_yield o s).trans (sccOp_ready hr _)).trans (congrArg _ ?_)
    have hsome : s.core.yreq.isNone = false := by simpa [Option.isSome_iff_ne_none] using hy
    simp only [if_neg (Nat.not_le.mpr hsel), hsome, hready, Bool.not_false, Bool.false_eq_true, if_false, if_true]
    rfl
  · rw [yield_saves ht hr hsel hy hready, saveTask_none (s := retire s) rfl hroom]
    rfl
  · obtain ⟨m, p, ds, i, hsave, hds, -, hregs, hflags, hplace⟩ := saveTask_some (s := retire s)
      (vec := (s.sreg o.a).getLsbD 0) (forced := false) (cause := 0) (record := 0) (stopped := none) rfl hroom
    rw [yield_saves ht hr hsel hy hready, hsave]
    dsimp only
    generalize hz : ({ (retire s) with
      mem := m, poison := p, dies := ds, free := (retire s).free + 1, core := { (retire s).core with
        task := none, regs := TaskRegs.entry, yreq := none, parkReq := false, line := none, rrot := none,
        refused := none } } : State) = z
    obtain ⟨place, htasks, hcore, hasked, hnot⟩ := placeSaved_rest (s := z) s.core.agent t i s.core.parkReq (by rw [← hz])
    simp only [Prod.mk.injEq] at hflags hplace
    obtain ⟨hvec, hacc, -⟩ := hflags
    obtain ⟨-, hbase, -⟩ := hplace
    refine ⟨_, ⟨t, place, some i⟩, i, rfl, by rw [htasks, ← hz]; rfl, rfl, rfl, hbase, hvec, hacc, by rw [hregs, hvec]; rfl,
      by rw [hcore, ← hz], by rw [hcore, ← hz], by rw [hcore, ← hz], hasked, fun hpark => ?_⟩
    have hcycle : z.dies[dieOf s.core.agent].cycle = s.die.cycle := by
      subst hz
      show ds[dieOf s.core.agent].cycle = s.die.cycle
      rw [hds]
      rfl
    rw [hnot hpark, hcycle]
  · rw [exec_done, execDone, hd]
    rfl
  · obtain ⟨hgone, hepoch, -, -, -, hjoins⟩ := finishTask_rest s t
    rw [exec_done, execDone, hd]
    simp only [ht]
    exact ⟨_, rfl, hgone, hepoch, hjoins⟩
  · exact (exec_halt o s).trans (privileged_off (by simp [State.isPriv, ht, hp]) _)
  · refine ((exec_halt o s).trans (privileged_on (by simp [State.isPriv, ht, hp]) _)).trans ?_
    simp only [hd]
    rfl
  · obtain ⟨⟨h1, h2, h3, h4, h5, h6⟩, hepoch, -, -, -, hjoins⟩ := finishTask_rest s t
    obtain ⟨l, hl⟩ := moveReady_tasks ((finishTask s t).modCore fun c => { c with halted := true }) s.core.agent
    have hexec : exec (.halt o) s =
        .next (moveReady ((finishTask s t).modCore fun c => { c with halted := true }) s.core.agent) := by
      rw [exec_halt, execHalt, privileged_on (by simp [State.isPriv, ht, hp])]
      simp only [hd, ht, Bool.not_true, Bool.false_eq_true, if_false]
    rw [hl] at hexec
    generalize finishTask s t = u at h1 h2 h3 h4 h5 h6 hepoch hjoins hexec
    exact ⟨_, hexec, ⟨⟨h1, h2, h3, h4, h5, h6⟩, hepoch, hjoins⟩, rfl⟩

end Sys2Proof.TaskGroup

/-! # System instructions (12 R339-R341, R349, R350, R359-R368) -/

namespace Sys2Proof.SystemInstructions

open Sys2Proof.Machine Sys2Proof.Safety Sys2Proof.TagTables Sys2Proof.StepsAndTraps Sys2Proof.TaskGroup

/-! ## Registers named -/

/-- Fewer registers are waited for. -/
theorem ready_of_subset {s : State} {l l' : List SReg} (h : ready s l = true) (hl : l' ⊆ l) : ready s l' = true := by
  rw [ready, List.all_eq_true] at h ⊢
  exact fun r hr => h r (hl hr)

/-! ## TLBINV -/

/-- An access in flight to a page, of a context that a test names. -/
def Flies (s : State) (q : Fin 64 → Prop) : Prop :=
  ∃ k, (k = s.core ∨ ∃ x ∈ s.others, k = x.2) ∧ (∃ t, k.task = some t ∧ q t.ctx) ∧
    ∃ f ∈ k.regs.ord.flights, f.addr.toNat < 2 ^ 63

theorem bit63_iff (a : Word) : (!bit a.toNat 63) = true ↔ a.toNat < 2 ^ 63 := by
  have := a.isLt
  simp only [bit, Bool.not_eq_true', beq_eq_false_iff_ne]
  omega

theorem flightsOf_iff {s : State} {p : Fin 64 → Bool} {q : Fin 64 → Prop} (h : ∀ x, p x = true ↔ q x) :
    flightsOf s p = true ↔ Flies s q := by
  have one (c : Core) : ((c.task.any fun t => p t.ctx) && c.regs.ord.flights.any fun x => !bit x.addr.toNat 63) = true ↔
      (∃ t, c.task = some t ∧ q t.ctx) ∧ ∃ f ∈ c.regs.ord.flights, f.addr.toNat < 2 ^ 63 := by
    simp only [Bool.and_eq_true, Option.any_eq_true, List.any_eq_true, h, bit63_iff]
  simp only [flightsOf, Bool.or_eq_true, one, List.any_eq_true, Flies]
  constructor
  · rintro (hc | ⟨e, he, hc⟩)
    · exact ⟨_, .inl rfl, hc⟩
    · exact ⟨_, .inr ⟨e, he, rfl⟩, hc⟩
  · rintro ⟨k, rfl | ⟨e, he, rfl⟩, hc⟩
    · exact .inl hc
    · exact .inr ⟨e, he, hc⟩

theorem tlbinv_waits {s : State} {p : Fin 64 → Bool} {q : Fin 64 → Prop} (h : ∀ x, p x = true ↔ q x) (hf : Flies s q)
    (d : TlbEnt → Bool) : tlbinv s p d = waiting s := if_pos ((flightsOf_iff h).mpr hf)

theorem tlbinv_drops {s : State} {p : Fin 64 → Bool} {q : Fin 64 → Prop} (h : ∀ x, p x = true ↔ q x) (hf : ¬Flies s q)
    (d : TlbEnt → Bool) : tlbinv s p d = passed (dropTlbs s d) := if_neg fun hp => hf ((flightsOf_iff h).mp hp)

theorem eq_tlbCtx_iff {s : State} {a : SReg} (h : (s.sreg a).toNat < 64) (x : Fin 64) :
    (x == tlbCtx s a) = true ↔ x.val = (s.sreg a).toNat := by
  rw [beq_iff_eq, Fin.ext_iff]
  show x.val = (s.sreg a).toNat % 64 ↔ _
  rw [Nat.mod_eq_of_lt h]

/-! ## ACTSET -/

theorem actsetOk_iff (cause : Nat) (a b : Word) : actsetOk cause a b = true ↔
    1 ≤ cause ∧ cause ≤ 0x1B ∧ a.toNat / 2 ^ 16 % 4 ≠ 1 ∧ a &&& ~~~0x3F0F03FF03 = 0 ∧
      (a.toNat % 4 = 3 ∨ a.toNat / 2 ^ 16 % 4 = 3 → b ≠ 0) := by
  simp only [actsetOk, bits, Bool.and_eq_true, decide_eq_true_eq, bne_iff_ne, beq_iff_eq, Bool.not_eq_true',
    Bool.and_eq_false_imp, Bool.or_eq_true, beq_eq_false_iff_ne, Nat.pow_zero, Nat.div_one, and_assoc]
  rfl

/-- The action of two bits, as the statement writes it. -/
def actionOf (k : Nat) : Action := if k = 0 then .kill else if k = 1 then .replay else if k = 2 then .park else .forward

theorem actionOf_code (k : Nat) : (actionOf (k % 4)).code = k % 4 := by
  have : k % 4 < 4 := Nat.mod_lt _ (by omega)
  generalize k % 4 = m at *
  interval_cases m <;> rfl

theorem actOfRegs_eq (a b : Word) : actOfRegs a b =
    ⟨actionOf (a.toNat % 4), a.toNat / 2 ^ 8 % 2 ^ 8, actionOf (a.toNat / 2 ^ 16 % 4), Fin.ofNat 16 (a.toNat / 2 ^ 24 % 16), b⟩ := by
  have act (k : Nat) : (match k with | 0 => Machine.Action.kill | 1 => .replay | 2 => .park | _ => .forward) = actionOf k := by
    unfold actionOf
    split <;> simp_all
  simp only [actOfRegs, bits, Nat.pow_zero, Nat.div_one]
  exact congrArg₂ (fun x y => (⟨x, _, y, _, b⟩ : ActEntry)) (act _) (act _)

theorem actBytes_actOfRegs (a b : Word) : actBytes (actOfRegs a b) =
    leBytes 1 (a.toNat % 4) ++ leBytes 1 (a.toNat / 2 ^ 8 % 2 ^ 8) ++ leBytes 1 (a.toNat / 2 ^ 16 % 4) ++
      leBytes 1 (a.toNat / 2 ^ 24 % 16) ++ leBytes 4 0 ++ leBytes 8 b.toNat := by
  have hq : (Fin.ofNat 16 (a.toNat / 2 ^ 24 % 16)).val = a.toNat / 2 ^ 24 % 16 := Nat.mod_mod _ _
  rw [actOfRegs_eq, actBytes]
  simp only [actionOf_code, hq]

theorem ctxAt_setCtxAt (s : State) (d : Fin 8) (c : Fin 64) (r : CtxRegs) : (s.setCtxAt d c r).ctxAt d c = r := by
  rw [State.ctxAt, State.setCtxAt, modDie_dies, lookupKey_insertKey_same]
  rfl

theorem blockKey_some {s : State} {d : Fin 8} {c : Fin 64} (h : (s.ctxAt d c).actbase.getLsbD 0 = true) :
    blockKey s d c = some (hbmKey (peerOf s.pkg ((s.ctxAt d c).actbase.toNat / 2 ^ 61 % 8))
      ((s.ctxAt d c).actbase.toNat / 2 ^ 10 % 2 ^ 42 * 1024)) := by
  rw [blockKey]
  exact if_pos (by rw [bit_eq_testBit]; exact h)

theorem actset_good {o : Act} {s : State} (hp : s.isPriv = true) (hr : ready s [o.a, o.b] = true)
    (hg : actsetOk o.cause.toNat (s.sreg o.a) (s.sreg o.b) = true) :
    let d := dieOf s.core.agent
    let c : Fin 64 := Fin.ofNat 64 ((s.sreg o.a).toNat / 2 ^ 32 % 64)
    let e := actOfRegs (s.sreg o.a) (s.sreg o.b)
    let z := s.setCtxAt d c { s.ctxAt d c with acts := insertKey o.cause.toNat e (s.ctxAt d c).acts }
    exec (.actset o) s = .next (passed (match blockKey z d c with
      | some k => z.store (k + 16 * o.cause.toNat) (actBytes e)
      | none => z)) := by
  refine ((exec_actset o s).trans (privileged_on hp _)).trans ((sccOp_ready hr _).trans (congrArg _ ?_))
  simp only [hg, Bool.not_true, Bool.false_eq_true, if_false, bits]
  rfl

/-- Settles O31: TLBINV holds for the flights that `Flies` names; ACTSET writes the entry that `actOfRegs` describes. -/
theorem tlbAndActionEntries : Obligations.TlbAndActionEntries := by
  refine ⟨fun o s hp hr => ?_, fun o s hp hr => ⟨fun hg => ?_, fun hg hv => ?_, fun hg hv => ?_⟩⟩
  · have hra : ready s [o.a] = true := ready_of_subset hr (by simp)
    have hctx : exec (.tlbinvCtx o) s = .next (if 64 ≤ (s.sreg o.a).toNat then illegal s
        else tlbinv s (· == tlbCtx s o.a) fun e => e.ctx == tlbCtx s o.a) :=
      ((exec_tlbinvCtx o s).trans (privileged_on hp _)).trans (sccOp_ready hra _)
    have hpage : exec (.tlbinvPage o) s = .next (if 64 ≤ (s.sreg o.a).toNat then illegal s
        else tlbinv s (· == tlbCtx s o.a) fun e => e.ctx == tlbCtx s o.a && decide (e.page ≤ (s.sreg o.b).toNat) &&
          decide ((s.sreg o.b).toNat < e.page + e.leaf.pageBytes)) :=
      ((exec_tlbinvPage o s).trans (privileged_on hp _)).trans (sccOp_ready hr _)
    have hall : exec (.tlbinvAll o) s = .next (tlbinv s (fun _ => true) fun _ => true) :=
      (exec_tlbinvAll o s).trans (privileged_on hp _)
    refine ⟨fun hc => ⟨?_, ?_⟩, fun hc => ⟨fun hf => ⟨?_, ?_⟩, fun hf => ⟨?_, ?_⟩⟩, fun hf => ?_, fun hf => ?_⟩
    · rw [hctx, if_pos hc]; rfl
    · rw [hpage, if_pos hc]; rfl
    · rw [hctx, if_neg (Nat.not_le.mpr hc), tlbinv_waits (eq_tlbCtx_iff hc) hf]
    · rw [hpage, if_neg (Nat.not_le.mpr hc), tlbinv_waits (eq_tlbCtx_iff hc) hf]
    · rw [hctx, if_neg (Nat.not_le.mpr hc), tlbinv_drops (eq_tlbCtx_iff hc) hf]
      congr 3
      funext e
      rw [Bool.eq_iff_iff, eq_tlbCtx_iff hc, decide_eq_true_eq]
    · rw [hpage, if_neg (Nat.not_le.mpr hc), tlbinv_drops (eq_tlbCtx_iff hc) hf]
      congr 3
      funext e
      rw [Bool.eq_iff_iff]
      simp only [Bool.and_eq_true, eq_tlbCtx_iff hc, decide_eq_true_eq, and_assoc]
    · rw [hall, tlbinv_waits (fun _ => iff_of_true rfl trivial) hf]
    · rw [hall, tlbinv_drops (fun _ => iff_of_true rfl trivial) hf]
      rfl
  · refine ((exec_actset o s).trans (privileged_on hp _)).trans ((sccOp_ready hr _).trans (congrArg _ ?_))
    have hbad : actsetOk o.cause.toNat (s.sreg o.a) (s.sreg o.b) = false :=
      Bool.eq_false_iff.mpr fun h => hg ((actsetOk_iff ..).mp h)
    simp only [hbad, Bool.not_false, if_true]
    rfl
  · rw [actset_good hp hr ((actsetOk_iff ..).mpr hg), blockKey_none (by rw [ctxAt_setCtxAt]; exact hv), actOfRegs_eq]
    rfl
  · rw [actset_good hp hr ((actsetOk_iff ..).mpr hg), blockKey_some (by rw [ctxAt_setCtxAt]; exact hv), ctxAt_setCtxAt,
      actBytes_actOfRegs, actOfRegs_eq]
    rfl

/-! ## Park queues -/

/-- A list with its first match in the middle. -/
theorem find?_middle {α : Type} {p : α → Bool} {l rest : List α} {e : α} (he : p e = true) (hl : ∀ x ∈ l, p x = false) :
    (l ++ e :: rest).find? p = some e := by
  rw [List.find?_append, List.find?_eq_none.mpr fun x hx => by rw [hl x hx]; exact Bool.false_ne_true, Option.none_or,
    List.find?_cons_of_pos he]

theorem erase_middle {α : Type} [DecidableEq α] {l rest : List α} {e : α} (hl : ∀ x ∈ l, x ≠ e) :
    (l ++ e :: rest).erase e = l ++ rest := by
  rw [List.erase_append_right _ fun he => hl e he rfl, List.erase_cons_head]

theorem parkpop_eq {o : Sa} {s : State} (hp : s.isPriv = true) (hr : ready s [o.d, o.a] = true) (ha : (s.sreg o.a).toNat < 16) :
    exec (.parkpop o) s = .next (
      match s.tasks.find? fun e => e.place == .parked (dieOf s.core.agent) (Fin.ofNat 16 (s.sreg o.a).toNat) with
      | none => wrote s o.d (BitVec.allOnes 64)
      | some e => wrote { s with tasks := s.tasks.erase e ++ [{ e with place := .taken (dieOf s.core.agent) }] } o.d
          (e.task.id.setWidth 64)) := by
  refine ((exec_parkpop o s).trans (privileged_on hp _)).trans ((sccOp_ready hr _).trans (congrArg _ ?_))
  simp only [if_neg (Nat.not_le.mpr ha), retire_setS] <;> rfl

theorem resume_eq {o : Sa} {s : State} (hp : s.isPriv = true) (hr : ready s [o.d, o.a, o.b] = true)
    (h : ¬(2 ^ 32 ≤ (s.sreg o.a).toNat ∨ (s.sreg o.b).toNat % 256 / 4 ≠ 0 ∨ 2 ^ 12 ≤ (s.sreg o.b).toNat)) :
    exec (.resume o) s = .next (
      match s.tasks.find? fun e => e.task.id == BitVec.ofNat 32 (s.sreg o.a).toNat && e.takenOn.isSome with
      | some e => wrote (resumeTask s e (e.takenOn.getD 0) ((s.sreg o.b).toNat % 4) (bits (s.sreg o.b).toNat 8 4)) o.d 0
      | none => wrote s o.d (if isParked s (BitVec.ofNat 32 (s.sreg o.a).toNat) then 2 else 1)) := by
  refine ((exec_resume o s).trans (privileged_on hp _)).trans ((sccOp_ready hr _).trans (congrArg _ ?_))
  simp only [if_neg h, retire_setS] <;> rfl

theorem id_eq_iff {a : Nat} (ha : a < 2 ^ 32) (id : BitVec 32) : (id == BitVec.ofNat 32 a) = true ↔ id.toNat = a := by
  rw [beq_iff_eq, ← BitVec.toNat_inj, BitVec.toNat_ofNat, Nat.mod_eq_of_lt ha]

theorem takenOn_isSome (e : TaskEnt) : e.takenOn.isSome = true ↔ ∃ x, e.place = .taken x := by
  unfold TaskEnt.takenOn
  split <;> simp_all

/-- A task that RESUME of `a` finds taken. -/
def TakenAs (a : Nat) (e : TaskEnt) : Prop := e.task.id.toNat = a ∧ ∃ x, e.place = .taken x

theorem takenAs_iff {a : Nat} (ha : a < 2 ^ 32) (e : TaskEnt) :
    (e.task.id == BitVec.ofNat 32 a && e.takenOn.isSome) = true ↔ TakenAs a e := by
  rw [Bool.and_eq_true, id_eq_iff ha, takenOn_isSome, TakenAs]

theorem isParked_iff {s : State} {a : Nat} (ha : a < 2 ^ 32) : isParked s (BitVec.ofNat 32 a) = true ↔
    ∃ e ∈ s.tasks, e.task.id.toNat = a ∧ ((∃ x q, e.place = .parked x q) ∨ ∃ x, e.place = .taken x) := by
  simp only [isParked, List.any_eq_true, Bool.and_eq_true, id_eq_iff ha]
  refine exists_congr fun e => and_congr_right fun _ => and_congr_right fun _ => ?_
  cases e.place <;> simp

theorem readyAgain_home {s : State} {e : TaskEnt} (i : Option Image) (hd : s.disabled e.task.home = false)
    (hh : (s.coreAt e.task.home).halted = false) : let u := readyAgain s e i
    u.core.regs = s.core.regs ∧ u.mem = s.mem ∧ u.tasks = s.tasks.erase e ++ [{ e with
      place := .ready e.task.home s.dies[dieOf e.task.home].cycle.toNat 0 e.task.prio, image := i }] := by
  simp only [readyAgain, hd, hh, Bool.or_self, Bool.false_eq_true, if_false]
  have h := yreqScan_scanned { s with tasks := s.tasks.erase e ++ [{ e with
    place := .ready e.task.home s.dies[dieOf e.task.home].cycle.toNat 0 e.task.prio, image := i }] } (dieOf e.task.home)
  exact ⟨h.regs, h.mem, h.tasks⟩

theorem freeBuffers_regs (l : List Handle) (c : Core) : (l.foldl freeBuffer c).regs = c.regs := by
  induction l generalizing c with
  | nil => rfl
  | cons a l ih => rw [List.foldl_cons, ih]; rfl

/-- Buffers of a core freed: of the core in focus, nothing but its pool changes. -/
theorem setCoreAt_freeBuffers (s : State) (n : Fin 512) (l : List Handle) :
    let u := s.setCoreAt n (l.foldl freeBuffer (s.coreAt n))
    u.core.regs = s.core.regs ∧ u.mem = s.mem ∧ u.tasks = s.tasks ∧ u.joins = s.joins := by
  rcases setCoreAt_cases s n (l.foldl freeBuffer (s.coreAt n)) with ⟨rfl, h⟩ | ⟨-, l, h⟩
  · rw [h, coreAt_self]
    exact ⟨freeBuffers_regs .., rfl, rfl, rfl⟩
  · rw [h]
    exact ⟨rfl, rfl, rfl, rfl⟩

theorem releasePlace_dies (s : State) (i : Image) : ∃ x, releasePlace s i = { s with dies := x } := ⟨_, rfl⟩

/-- The blazes and held CPHs of an image dropped, and its place given back: dies alone change. -/
theorem discardImage_dies (s : State) (i : Image) (id : BitVec 32) : ∃ x, releasePlace (dropLocalHolds (failBlazes
    (i.regs.ord.z.toList.foldl (fun (y : State) (z : Option BlazeRef) => (z.map (dropRef y)).getD y) s) i.regs.cp.copies)
      id Cmd.isLocal) i = { s with dies := x } := by
  obtain ⟨x, hx⟩ := foldl_dies (fun (y : State) (z : Option BlazeRef) => (z.map (dropRef y)).getD y) (fun y z => by
    cases z with
    | none => exact ⟨_, rfl⟩
    | some z => exact dropRef_dies y z) i.regs.ord.z.toList s
  obtain ⟨y, hy⟩ := failBlazes_dies { s with dies := x } i.regs.cp.copies
  obtain ⟨z, hz⟩ := dropLocalHolds_dies { s with dies := y } id Cmd.isLocal
  rw [hx, hy, hz]
  exact releasePlace_dies _ i

/-- A parked task discarded ends as a failure of its join. -/
theorem discardParked_rest (s : State) (e : TaskEnt) (r : Word) : let u := discardParked s e r
    u.core.regs = s.core.regs ∧ u.mem = s.mem ∧ u.tasks = s.tasks.erase e ∧
    u.joins = s.joins.modify e.task.join fun j => { j with
      ended := j.ended + 1, failed := j.failed + 1, first := if j.failed = 0 then r else j.first } := by
  obtain ⟨ds, hds⟩ : ∃ ds, discardParked s e r =
      let x : State := { s with tasks := s.tasks.erase e, dies := ds }
      (x.setCoreAt e.task.home (e.task.handles.foldl freeBuffer (x.coreAt e.task.home))).childEnds e.task.join (some r) none := by
    unfold discardParked
    cases e.image with
    | none => exact ⟨_, rfl⟩
    | some i =>
      obtain ⟨ds, hds⟩ := discardImage_dies { s with tasks := s.tasks.erase e } i e.task.id
      dsimp only
      rw [hds]
      exact ⟨ds, rfl⟩
  rw [hds]
  dsimp only
  obtain ⟨hregs, hmem, htasks, hjoins⟩ := setCoreAt_freeBuffers
    { s with tasks := s.tasks.erase e, dies := ds } e.task.home e.task.handles
  refine ⟨hregs, hmem, htasks, ?_⟩
  rw [State.childEnds, State.modJoin, hjoins]
  dsimp only
  congr 1
  funext j
  simp

/-- RESUME with PARK puts the task at the tail of a park queue, and may signal its launch's vector. -/
theorem resumeTask_parks (s : State) (e : TaskEnt) (d : Fin 8) (q : Nat) : ∃ signals, resumeTask s e d 3 q = { s with
    tasks := s.tasks.erase e ++ [{ e with place := .parked d (Fin.ofNat 16 q) }], msix := s.msix ++ signals } := by
  simp only [resumeTask]
  split
  · exact ⟨_, rfl⟩
  · exact ⟨[], by rw [List.append_nil]⟩

/-- Settles O32: RESUME finds the one taken task of that id; its mode says what becomes of it. -/
theorem parkQueues : Obligations.ParkQueues := by
  intro o s hp hr
  have hr2 : ready s [o.d, o.a] = true := ready_of_subset hr (by simp)
  refine ⟨fun ha => ?_, fun ha hnone => ?_, fun l e rest ha htasks hhere hl => ?_, fun hbad => ?_,
    fun hgood hnone => ⟨fun hparked => ?_, fun hnot => ?_⟩, fun l e rest hgood htasks htaken hl =>
      ⟨fun hm hd hh => ?_, fun hm => ?_, fun dd hm hplace => ?_⟩⟩
  · exact ((exec_parkpop o s).trans (privileged_on hp _)).trans ((sccOp_ready hr2 _).trans (congrArg _ (if_pos ha)))
  · rw [parkpop_eq hp hr2 ha, List.find?_eq_none.mpr fun e he => by simpa using hnone e he]
  · have hpos : ∀ x ∈ l, (x.place == .parked (dieOf s.core.agent) (Fin.ofNat 16 (s.sreg o.a).toNat)) = false :=
      fun x hx => beq_eq_false_iff_ne.mpr (hl x hx)
    have hne : ∀ x ∈ l, x ≠ e := fun x hx heq => hl x hx (heq ▸ hhere)
    have hfind := find?_middle (rest := rest)
      (p := fun e : TaskEnt => e.place == .parked (dieOf s.core.agent) (Fin.ofNat 16 (s.sreg o.a).toNat)) (beq_iff_eq.mpr hhere) hpos
    rw [parkpop_eq hp hr2 ha, htasks, hfind]
    simp only [erase_middle hne]
  · exact ((exec_resume o s).trans (privileged_on hp _)).trans ((sccOp_ready hr _).trans (congrArg _ (if_pos hbad)))
  all_goals
    have ha : (s.sreg o.a).toNat < 2 ^ 32 := by
      have := hgood
      omega
  · obtain ⟨e, he, hid, hplace⟩ := hparked
    rw [resume_eq hp hr hgood, List.find?_eq_none.mpr fun e he => by rw [takenAs_iff ha]; exact hnone e he]
    simp only [(isParked_iff ha).mpr ⟨e, he, hid, .inl hplace⟩, if_true]
  · have hno : isParked s (BitVec.ofNat 32 (s.sreg o.a).toNat) = false := by
      rw [Bool.eq_false_iff, ne_eq, isParked_iff ha]
      rintro ⟨e, he, hid, hplace | hplace⟩
      · exact hnot e he ⟨hid, hplace⟩
      · exact hnone e he ⟨hid, hplace⟩
    rw [resume_eq hp hr hgood, List.find?_eq_none.mpr fun e he => by rw [takenAs_iff ha]; exact hnone e he]
    simp only [hno, Bool.false_eq_true, if_false]
  all_goals
    have hfind : s.tasks.find? (fun e => e.task.id == BitVec.ofNat 32 (s.sreg o.a).toNat && e.takenOn.isSome) = some e := by
      rw [htasks]
      exact find?_middle ((takenAs_iff ha e).mpr htaken) fun x hx =>
        Bool.eq_false_iff.mpr fun h => (hl x hx).1 ((takenAs_iff ha x).mp h)
    have herase : s.tasks.erase e = l ++ rest := by rw [htasks, erase_middle fun x hx => (hl x hx).2]
    have hexec := resume_eq hp hr hgood
    rw [hfind] at hexec
    dsimp only at hexec
  · have hmode : resumeTask s e (e.takenOn.getD 0) ((s.sreg o.b).toNat % 4) (bits (s.sreg o.b).toNat 8 4) =
        readyAgain s e (e.image.map fun i => resumeImage i ((s.sreg o.b).toNat % 4 = 1)) := by
      generalize (s.sreg o.b).toNat % 4 = m at hm
      interval_cases m <;> rfl
    rw [hmode] at hexec
    obtain ⟨hregs, hmem, htasks'⟩ := readyAgain_home (e.image.map fun i => resumeImage i ((s.sreg o.b).toNat % 4 = 1)) hd hh
    exact ⟨_, hexec, hregs, hmem, herase ▸ htasks'⟩
  · rw [hm] at hexec
    obtain ⟨hregs, hmem, htasks', hjoins⟩ := discardParked_rest s e ((e.image.map (·.record)).getD 0)
    exact ⟨_, hexec, hregs, hmem, htasks'.trans herase, hjoins⟩
  · have htaken' : e.takenOn.getD 0 = dd := by simp [TaskEnt.takenOn, hplace]
    rw [hm, htaken'] at hexec
    obtain ⟨signals, hsignals⟩ := resumeTask_parks s e dd (bits (s.sreg o.b).toNat 8 4)
    rw [hsignals, herase] at hexec
    exact ⟨signals, hexec⟩

/-! ## Cores put in their place -/

theorem coreAt_setCoreAt (s : State) {n : Fin 512} {c : Core} (hc : c.agent = n) : (s.setCoreAt n c).coreAt n = c := by
  unfold State.setCoreAt State.coreAt
  by_cases h : s.core.agent = n
  · simp [h, hc]
  · simp [h]

theorem coreAt_setCoreAt_ne (s : State) {n k : Fin 512} (hk : k ≠ n) {c : Core} (hc : c.agent = n) :
    (s.setCoreAt n c).coreAt k = s.coreAt k := by
  unfold State.setCoreAt State.coreAt
  by_cases h : s.core.agent = n
  · simp [h, hc, Ne.symm hk]
  · have hv : k.val ≠ n.val := fun hv => hk (Fin.ext hv)
    simp [h, lookupKey_insertKey_ne hv]

/-! ## Cleared memory -/

/-- No byte of a range is listed. -/
def Unlisted (m : List Host.Cell) (lo hi : Nat) : Prop := ∀ c ∈ m, c.1 < lo ∨ hi ≤ c.1

theorem memGet_unlisted {m : List Host.Cell} {lo hi k : Nat} (h : Unlisted m lo hi) (hl : lo ≤ k) (hk : k < hi) : memGet m k = 0 := by
  induction m with
  | nil => rfl
  | cons c m ih =>
    have hc := h c List.mem_cons_self
    unfold memGet
    rw [if_neg (by omega)]
    split
    · rfl
    · exact ih fun x hx => h x (List.mem_cons_of_mem _ hx)

theorem unlisted_memClear (m : List Host.Cell) (lo hi : Nat) : Unlisted (memClear m lo hi) lo hi := by
  intro c hc
  simpa [memClear] using (List.mem_filter.mp hc).2

theorem Unlisted.memClear {m : List Host.Cell} {lo hi : Nat} (h : Unlisted m lo hi) (a b : Nat) :
    Unlisted (memClear m a b) lo hi := fun c hc => h c (List.mem_filter.mp hc).1

/-! ## Core resets -/

/-- A core after its reset: what lives on is its epoch and whether its accesses wait for turns. -/
def freshCore (s : State) (n : Fin 512) : Core :=
  { Core.reset n with epoch := (s.coreAt n).epoch, inOrder := (s.coreAt n).inOrder }

/-- A core reset clears the core's memories and puts the fresh core in its place. -/
theorem resetCore_eq (s : State) (n : Fin 512) : ∃ p, resetCore s n = ({ s.setCoreAt n (freshCore s n) with
    mem := memClear (memClear s.mem (spadKey n.val 0) (spadKey n.val 0 + 2 ^ 23)) (accKey n.val 0) (accKey n.val 0 + 2 ^ 19)
    poison := p } : State).setCoreAt n (freshCore s n) := by
  have hself := coreAt_setCoreAt s (n := n) (c := freshCore s n) rfl
  have hmem : (s.setCoreAt n (freshCore s n)).mem = s.mem := by
    rcases setCoreAt_cases s n (freshCore s n) with ⟨-, h⟩ | ⟨-, l, h⟩ <;> rw [h]
  rw [show resetCore s n = clearCore (s.setCoreAt n (freshCore s n)) n from rfl, clearCore]
  simp only [hself, hmem]
  exact ⟨_, rfl⟩

theorem resetCore_self (s : State) (n : Fin 512) : (resetCore s n).coreAt n = freshCore s n := by
  obtain ⟨p, h⟩ := resetCore_eq s n
  rw [h]
  exact coreAt_setCoreAt _ rfl

theorem resetCore_ne (s : State) {n k : Fin 512} (hk : k ≠ n) : (resetCore s n).coreAt k = s.coreAt k := by
  obtain ⟨p, h⟩ := resetCore_eq s n
  rw [h]
  exact (coreAt_setCoreAt_ne _ hk rfl).trans (coreAt_setCoreAt_ne s hk rfl)

theorem setCoreAt_rest (s : State) (n : Fin 512) (c : Core) : (s.setCoreAt n c).mem = s.mem ∧
    (s.setCoreAt n c).dies = s.dies ∧ (s.setCoreAt n c).tasks = s.tasks := by
  rcases setCoreAt_cases s n c with ⟨-, h⟩ | ⟨-, l, h⟩ <;> rw [h] <;> exact ⟨rfl, rfl, rfl⟩

theorem resetCore_rest (s : State) (n : Fin 512) : (resetCore s n).dies = s.dies ∧ (resetCore s n).tasks = s.tasks ∧
    (resetCore s n).mem = memClear (memClear s.mem (spadKey n.val 0) (spadKey n.val 0 + 2 ^ 23)) (accKey n.val 0)
      (accKey n.val 0 + 2 ^ 19) := by
  obtain ⟨p, h⟩ := resetCore_eq s n
  obtain ⟨-, hd, ht⟩ := setCoreAt_rest s n (freshCore s n)
  obtain ⟨hm', hd', ht'⟩ := setCoreAt_rest ({ s.setCoreAt n (freshCore s n) with
    mem := memClear (memClear s.mem (spadKey n.val 0) (spadKey n.val 0 + 2 ^ 23)) (accKey n.val 0) (accKey n.val 0 + 2 ^ 19)
    poison := p } : State) n (freshCore s n)
  rw [h]
  exact ⟨hd'.trans hd, ht'.trans ht, hm'⟩

theorem resetCore_unlisted (s : State) (n : Fin 512) :
    Unlisted (resetCore s n).mem (spadKey n.val 0) (spadKey n.val 0 + 2 ^ 23) := by
  rw [(resetCore_rest s n).2.2]
  exact (unlisted_memClear _ _ _).memClear _ _

theorem spad_unlisted {m : List Host.Cell} {n off : Nat} (h : Unlisted m (spadKey n 0) (spadKey n 0 + 2 ^ 23)) (ho : off < 2 ^ 23) :
    memGet m (spadKey n off) = 0 := by
  refine memGet_unlisted h ?_ ?_ <;> simp only [spadKey] <;> omega

/-- What an issued instruction leaves of any core. -/
theorem freshCore_passed (s : State) (n : Fin 512) : freshCore (passed s) n = freshCore s n := by
  unfold freshCore State.coreAt
  rw [show (passed s).core.agent = s.core.agent from rfl]
  split <;> rfl

/-! ## The watchdog and the features -/

theorem wdogReload_eq (c : Word) : wdogReload c = c.toNat / 2 ^ 32 * 65536 := by
  have := c.isLt
  rw [wdogReload, bits, Nat.mod_eq_of_lt (show c.toNat / 2 ^ 32 < 2 ^ 32 by omega)]

theorem modDie_congr (s : State) (d : Fin 8) {f g : Die → Die} (h : f s.dies[d] = g s.dies[d]) : s.modDie d f = s.modDie d g := by
  rw [State.modDie, State.modDie, h]

/-- FEATACCEPT takes one write per die reset. -/
theorem acceptFeatures_eq (s : State) (d : Fin 8) (v : Word) : acceptFeatures s d v = s.modDie d fun y =>
    { y with featWritten := true, featon := if s.dies[d].featWritten then s.dies[d].featon else v &&& 0x1F } := by
  refine modDie_congr s d ?_
  cases h : s.dies[d].featWritten with
  | false => simp only [Bool.false_eq_true, if_false]
  | true =>
    simp only [if_true]
    rw [← h]

theorem corerst_eq {o : Sa} {s : State} (hp : s.isPriv = true) (hr : ready s [o.a] = true) :
    let v := (s.sreg o.a).toNat
    let n : Fin 512 := Fin.ofNat 512 (s.core.agent.val / 64 * 64 + v % 64)
    exec (.wdogCorerst o) s = .next (if 64 ≤ v || s.disabled n || !(s.coreAt n).halted then illegal s else resetCore (retire s) n) :=
  ((exec_wdogCorerst o s).trans (privileged_on hp _)).trans (sccOp_ready hr _)

/-- Settles O33: each form in the privileged view, with its operand in range or not. -/
theorem watchdogAndFeatures : Obligations.WatchdogAndFeatures := by
  intro o s hp hr
  have hra : ready s [o.a] = true := ready_of_subset hr (by simp)
  refine ⟨?_, fun hs => ?_, fun hs => ?_, fun hbad => ?_, fun hgood => ?_, fun hv => ?_, fun hv => ?_, ?_⟩
  · simp only [← wdogReload_eq]
    exact (exec_wdogPet o s).trans (privileged_on hp _)
  · have hs' : (retire s).dies[dieOf s.core.agent].wdogctl.getLsbD 1 = false := hs
    simp only [← wdogReload_eq]
    refine ((exec_wdogExpire o s).trans (privileged_on hp _)).trans (congrArg _ ?_)
    rw [watchdogExpires, hs']
    rfl
  · have hs' : (retire s).dies[dieOf s.core.agent].wdogctl.getLsbD 1 = true := hs
    refine ((exec_wdogExpire o s).trans (privileged_on hp _)).trans ?_
    rw [watchdogExpires, hs']
    rfl
  · rw [corerst_eq hp hra, if_pos]
    · rfl
    · by_contra h
      simp only [Bool.or_eq_true, decide_eq_true_eq, Bool.not_eq_true', not_or, Bool.not_eq_false, Bool.not_eq_true] at h
      exact hbad ⟨Nat.not_le.mp h.1.1, h.1.2, h.2⟩
  · obtain ⟨hv, hd, hh⟩ := hgood
    rw [corerst_eq hp hra, hd, hh, decide_eq_false (Nat.not_le.mpr hv)]
    refine ⟨_, rfl, ?_, fun k hk => resetCore_ne _ hk, fun off ho => ?_, (resetCore_rest _ _).1, (resetCore_rest _ _).2.1⟩
    · exact (resetCore_self _ _).trans (freshCore_passed s _)
    · exact spad_unlisted (resetCore_unlisted _ _) ho
  · exact ((exec_wdogDierst o s).trans (privileged_on hp _)).trans ((sccOp_ready hra _).trans (congrArg _ (if_pos hv)))
  · exact ((exec_wdogDierst o s).trans (privileged_on hp _)).trans ((sccOp_ready hra _).trans (congrArg _ (if_neg (Nat.not_le.mpr hv))))
  · refine ((exec_featset o s).trans (privileged_on hp _)).trans ((sccOp_ready hr _).trans (congrArg _ ?_))
    dsimp only
    rw [retire_setS, acceptFeatures_eq]
    congr 1
    exact congrArg Die.featon (modDie_dies ..)

end Sys2Proof.SystemInstructions

/-! # Causes taken and dies reset (12 R333, R340-R344, R359-R361) -/

namespace Sys2Proof.CausesAndResets

open Sys2Proof.Machine Sys2Proof.Safety Sys2Proof.TagTables Sys2Proof.StepsAndTraps Sys2Proof.TaskGroup
open Sys2Proof.SystemInstructions

/-! ## Records -/

/-- `t` is `s` but for memory, poison, the note of dirty lines and the place in a die log. -/
def RecordOnly (s t : State) : Prop :=
  ∃ m p ds, t = { s with mem := m, poison := p, dies := ds } ∧
    ∀ e : Fin 8, ds[e] = { s.dies[e] with dirty := ds[e].dirty, dielogPos := ds[e].dielogPos }

theorem recordOnly_of_memoryOnly {s t : State} (h : MemoryOnly s t) : RecordOnly s t := by
  obtain ⟨m, p, ds, ht, hd⟩ := h
  exact ⟨m, p, ds, ht, fun e => by rw [hd e]⟩

theorem recordOnly_trans {s t u : State} (h : RecordOnly s t) (h' : RecordOnly t u) : RecordOnly s u := by
  obtain ⟨_, _, ds, rfl, hd⟩ := h
  obtain ⟨m, p, ds', rfl, hd'⟩ := h'
  exact ⟨m, p, ds', rfl, fun e => by rw [hd' e]; dsimp only; rw [hd e]⟩

theorem recordOnly_dielogPos (s : State) (d : Fin 8) (n : Nat) : RecordOnly s (s.modDie d fun x => { x with dielogPos := n }) := by
  refine ⟨s.mem, s.poison, _, rfl, fun e => ?_⟩
  by_cases h : d = e
  · subst h; simp
  · have hv : d.val ≠ e.val := fun hv => h (Fin.ext hv)
    simp [Vector.getElem_set_ne, hv]

/-- A record changes no more than memory and the die log's place. -/
theorem writeRecord_recordOnly (s : State) (c : Fin 64) (bs : List Byte) : RecordOnly s (writeRecord s c bs).1 := by
  have hlog (g pos k : Nat) : RecordOnly s (if g = 0 then s
      else (s.store k bs).modDie (dieOf s.core.agent) fun x => { x with dielogPos := x.dielogPos + 1 }) := by
    split
    · exact recordOnly_of_memoryOnly (.refl s)
    · rw [modDie_congr (g := fun x => { x with dielogPos := (s.store k bs).dies[dieOf s.core.agent].dielogPos + 1 }) _ _ rfl]
      exact recordOnly_trans (recordOnly_of_memoryOnly (store_memoryOnly s k bs)) (recordOnly_dielogPos _ _ _)
  unfold writeRecord
  dsimp only
  split
  · exact hlog _ 0 _
  · split
    · exact recordOnly_of_memoryOnly ((store_memoryOnly ..).trans (store_memoryOnly ..))
    · exact hlog _ 0 _

/-! ## Actions -/

/-- With nothing pending, taking a cause leaves nothing pending. -/
theorem applyCause_eq {s : State} {t : Task} {r : Raised} (hp : s.core.regs.pend = ⟨none, none, none, none, [], none⟩)
    (hf : r.cause ≠ .firstnan) {a : Machine.Action} (ha : chooseAction s t r (entryFor s t.ctx r.cause) = a) :
    applyCause s t r = runAction (writeRecord s t.ctx (recordBytes s t r (infoByte r a))).1 t r (entryFor s t.ctx r.cause) a
      (writeRecord s t.ctx (recordBytes s t r (infoByte r a))).2 := by
  have hsame : clearNanTrap (s.modRegs fun x => { x with pend := x.pend.remove r }) r = s := by
    rw [clearNanTrap, if_neg hf]
    unfold State.modRegs
    simp only [hp, Pending.remove]
    rw [if_neg (by simp), if_neg (by simp), if_neg (by simp), if_neg (by simp)]
    simp only [List.erase_nil]
    rw [← hp]
  unfold applyCause
  rw [hsame]
  dsimp only
  rw [ha]

/-- A cause of a task at rest is taken at once. -/
theorem takeCause_eq {s : State} {t : Task} {r : Raised} (ht : s.core.task = some t) (hq : quiet s = true)
    (hv : veRests s = true) : takeCause s r = applyCause s t r := by
  simp [takeCause, takeOr, ht, hq, hv]

theorem releaseNamed_eq {s : State} {r : Raised} (h : r.cause ≠ .tokenexpired) : releaseNamed s r = s := if_neg h

theorem chooseAction_replay {s : State} {t : Task} {r : Raised} {e : ActEntry} (h : e.action = .replay)
    (hl : e.limit = 0 ∨ replaysOf s r.idx < e.limit) : chooseAction s t r e = .replay := by
  have hnot : ¬(e.action = .replay ∧ e.limit ≠ 0 ∧ e.limit ≤ replaysOf s r.idx) := by omega
  unfold chooseAction
  dsimp only
  rw [if_neg hnot, h]

theorem chooseAction_kill {s : State} {t : Task} {r : Raised} {e : ActEntry} (h : e.action = .kill) :
    chooseAction s t r e = .kill := by
  simp [chooseAction, h]

theorem chooseAction_park {s : State} {t : Task} {r : Raised} {e : ActEntry} (h : e.action = .park) : chooseAction s t r e =
    if (roomFor s (dieOf s.core.agent) (imageSize t.obj true true)).isSome then .park else .kill := by
  simp [chooseAction, h]

/-- A kill with nothing else pending: the core is empty, and the join keeps the record. -/
theorem killTask_rest {s : State} (t : Task) (w : Word) (hp : s.core.regs.pend = ⟨none, none, none, none, [], none⟩)
    (hs : ∀ c ∈ s.cp.copies, ∀ x, c.phase ≠ .stalled x) : let u := killTask s t w
    u.core.task = none ∧ u.core.regs = TaskRegs.entry ∧ u.core.yreq = none ∧ u.mem = s.mem ∧
    u.joins = s.joins.modify t.join fun j => { j with
      ended := j.ended + 1, failed := j.failed + 1, first := if j.failed = 0 then w else j.first } := by
  have hstalled : stalledCauses s = [] := by
    rw [stalledCauses, List.filterMap_eq_nil_iff]
    intro c hc
    split
    · exact absurd ‹_› (hs c hc _)
    · rfl
  obtain ⟨x, hx⟩ := leaveCore_rest s t
  unfold killTask endTask
  rw [hstalled, hp]
  simp only [writeAll, Pending.waiting, Pending.all, Option.toList_none, List.nil_append, List.foldl_nil]
  have hbefore : parkAnswered s t.id = { s with dies := (parkAnswered s t.id).dies } := rfl
  obtain ⟨y, hy⟩ := leaveCore_rest (parkAnswered s t.id) t
  rw [hy]
  refine ⟨rfl, rfl, rfl, rfl, ?_⟩
  show s.joins.modify t.join _ = _
  congr 1
  funext j
  simp

/-- `u` is `s` after its task was killed and its record written, which gave `w`. -/
def Killed (s u : State) (t : Task) (w : State × Word) : Prop :=
  u.core.task = none ∧ u.core.regs = TaskRegs.entry ∧ u.core.yreq = none ∧ u.mem = w.1.mem ∧
    u.joins = s.joins.modify t.join fun j => { j with
      ended := j.ended + 1, failed := j.failed + 1, first := if j.failed = 0 then w.2 else j.first }

section
variable {s : State} {t : Task} {r : Raised}

theorem runAction_killed (hp : s.core.regs.pend = ⟨none, none, none, none, [], none⟩) (htoken : r.cause ≠ .tokenexpired)
    (hstalled : ∀ c ∈ s.cp.copies, ∀ x, c.phase ≠ .stalled x) (bs : List Byte) (e : ActEntry) :
    Killed s (runAction (writeRecord s t.ctx bs).1 t r e .kill (writeRecord s t.ctx bs).2) t (writeRecord s t.ctx bs) := by
  obtain ⟨m, p, ds, hw, -⟩ := writeRecord_recordOnly s t.ctx bs
  obtain ⟨htask, hregs, hyreq, hmem, hjoins⟩ := killTask_rest (s := (writeRecord s t.ctx bs).1) t (writeRecord s t.ctx bs).2
    (by rw [hw]; exact hp) (by rw [hw]; exact hstalled)
  rw [runAction, releaseNamed_eq htoken]
  exact ⟨htask, hregs, hyreq, hmem, hjoins.trans (by rw [hw])⟩

/-- PARK with room: the task is saved whole at the tail of the park queue. -/
theorem runAction_parked (htoken : r.cause ≠ .tokenexpired) (bs : List Byte) (e : ActEntry)
    (hroom : roomFor s (dieOf s.core.agent) (imageSize t.obj true (decide (t.obj.slots ≠ 0))) ≠ none) : ∃ img,
    let u := runAction (writeRecord s t.ctx bs).1 t r e .park (writeRecord s t.ctx bs).2
    u.core.task = none ∧ u.core.regs = TaskRegs.entry ∧ u.core.yreq = none ∧
    u.tasks = s.tasks ++ [⟨t, .parked (dieOf s.core.agent) e.queue, some img⟩] ∧ img.vec = true ∧ img.forced = true ∧
    img.cause = r.cause.code ∧ img.record = (writeRecord s t.ctx bs).2 ∧ img.regs = keptRegs s.core.regs true := by
  obtain ⟨m, p, ds, hw, hds⟩ := writeRecord_recordOnly s t.ctx bs
  have hplace (need : Nat) : roomFor (writeRecord s t.ctx bs).1 (dieOf (writeRecord s t.ctx bs).1.core.agent) need =
      roomFor s (dieOf s.core.agent) need := by
    rw [hw]
    simp only [roomFor]
    rw [hds]
  obtain ⟨base, hbase⟩ := Option.ne_none_iff_exists'.mp hroom
  obtain ⟨m', p', ds', img, hsave, -, -, hregs, hflags, -⟩ := saveTask_some (s := (writeRecord s t.ctx bs).1) (t := t)
    (vec := true) (slots := true) (forced := true) (cause := r.cause.code) (record := (writeRecord s t.ctx bs).2)
    (stopped := some r) rfl ((hplace _).trans hbase)
  simp only [Prod.mk.injEq] at hflags
  obtain ⟨hvec, -, hforced, hcause, hrecord, -⟩ := hflags
  refine ⟨img, ?_⟩
  rw [runAction, releaseNamed_eq htoken]
  simp only [parkTask, hsave]
  rw [hw] at hregs hsave ⊢
  split <;> exact ⟨rfl, rfl, rfl, rfl, hvec, hforced, hcause, hrecord, hregs⟩

end

/-- Settles O30: with nothing else pending, a cause is its record and its action. -/
theorem causeActions : Obligations.CauseActions := by
  intro s t r ht hq hv hp hfirst htoken hlate hstalled
  have happly {a : Machine.Action} (ha : chooseAction s t r (entryFor s t.ctx r.cause) = a) :=
    (takeCause_eq (r := r) ht hq hv).trans (applyCause_eq hp hfirst ha)
  have hkill (ha : chooseAction s t r (entryFor s t.ctx r.cause) = .kill) :=
    runAction_killed (t := t) hp htoken hstalled (recordBytes s t r (infoByte r .kill)) (entryFor s t.ctx r.cause)
  refine ⟨fun ha hl => ?_, fun ha => ⟨_, happly (chooseAction_kill ha), hkill (chooseAction_kill ha)⟩, fun ha hroom => ?_,
    fun ha hall hroom => ?_⟩
  · rw [happly (chooseAction_replay ha hl), runAction, releaseNamed_eq htoken]
    simp only [hlate, Bool.false_eq_true, if_false, modScc_eq]
    obtain ⟨m, p, ds, hw, -⟩ := writeRecord_recordOnly s t.ctx (recordBytes s t r (infoByte r .replay))
    rw [hw]
    rfl
  · have hchoose : chooseAction s t r (entryFor s t.ctx r.cause) = .kill := by
      rw [chooseAction_park ha, hroom]
      rfl
    exact ⟨_, happly hchoose, hkill hchoose⟩
  · have hchoose : chooseAction s t r (entryFor s t.ctx r.cause) = .park := by
      rw [chooseAction_park ha, Option.isSome_iff_ne_none.mpr hall]
      rfl
    obtain ⟨img, himg⟩ := runAction_parked (t := t) htoken (recordBytes s t r (infoByte r .park)) (entryFor s t.ctx r.cause) hroom
    exact ⟨_, img, happly hchoose, himg⟩

/-! ## Hold queues -/

/-- No die's hold queue has gained an entry. -/
structure HoldsKept (s t : State) : Prop where
  sublist : ∀ e : Fin 8, t.dies[e].hold.Sublist s.dies[e].hold

theorem holdsKept_of_dies {s t : State} (h : t.dies = s.dies) : HoldsKept s t := ⟨fun e => by rw [h]⟩

theorem holdsKept_refl (s : State) : HoldsKept s s := holdsKept_of_dies rfl

theorem holdsKept_trans {s t u : State} (h : HoldsKept s t) (h' : HoldsKept t u) : HoldsKept s u :=
  ⟨fun e => (h'.sublist e).trans (h.sublist e)⟩

/-- A change that no die sees comes first. -/
theorem holdsKept_after {s t u : State} (h' : HoldsKept t u) (h : t.dies = s.dies) : HoldsKept s u :=
  holdsKept_trans (holdsKept_of_dies h) h'

/-- Or last. -/
theorem holdsKept_before {s t u : State} (h' : HoldsKept s t) (h : u.dies = t.dies) : HoldsKept s u :=
  holdsKept_trans h' (holdsKept_of_dies h)

theorem holdsKept_foldl {α : Type} {f : State → α → State} (h : ∀ s a, HoldsKept s (f s a)) (l : List α) (s : State) :
    HoldsKept s (l.foldl f s) := by
  induction l generalizing s with
  | nil => exact holdsKept_refl s
  | cons a l ih => exact holdsKept_trans (h s a) (ih _)

theorem holdsKept_modDie {s : State} {d : Fin 8} {f : Die → Die} (h : (f s.dies[d]).hold.Sublist s.dies[d].hold) :
    HoldsKept s (s.modDie d f) := by
  refine ⟨fun e => ?_⟩
  by_cases hd : e = d
  · subst hd
    rw [modDie_dies]
    exact h
  · rw [modDie_dies_ne s d e f (Ne.symm hd)]

theorem holdsKept_recordOnly {s t : State} (h : RecordOnly s t) : HoldsKept s t := by
  obtain ⟨m, p, ds, rfl, hd⟩ := h
  refine ⟨fun e => ?_⟩
  show ds[e].hold.Sublist _
  rw [hd e]

theorem holdsKept_freeBlaze (s : State) (d : Fin 8) (e : Nat) : HoldsKept s (freeBlaze s d e) := by
  unfold freeBlaze
  split
  · exact holdsKept_refl s
  · split
    · exact holdsKept_modDie (List.Sublist.refl _)
    · exact holdsKept_refl s

theorem holdsKept_modBlaze (s : State) (d : Fin 8) (e : Nat) (f : BlazeEnt → BlazeEnt) : HoldsKept s (modBlaze s d e f) := by
  unfold modBlaze
  split
  · exact holdsKept_refl s
  · exact holdsKept_trans (holdsKept_modDie (List.Sublist.refl _)) (holdsKept_freeBlaze ..)

theorem holdsKept_dropRef (s : State) (z : BlazeRef) : HoldsKept s (dropRef s z) := by
  unfold dropRef
  split
  · exact holdsKept_modBlaze ..
  · exact holdsKept_refl s

theorem holdsKept_unwatchAll (s : State) (h : HoldEnt) : HoldsKept s (unwatchAll s h) := by
  refine holdsKept_foldl (fun s b => ?_) _ s
  split
  · unfold unwatch
    split
    · exact holdsKept_modBlaze ..
    · exact holdsKept_refl s
  · exact holdsKept_refl s

theorem holdsKept_dropAllZ (s : State) : HoldsKept s (dropAllZ s) := by
  refine holdsKept_foldl (fun s n => ?_) _ s
  unfold dropZ
  split
  · exact holdsKept_refl s
  · exact holdsKept_after (holdsKept_dropRef ..) rfl

theorem holdsKept_failBlazes (s : State) (l : List CopyRun) : HoldsKept s (failBlazes s l) := by
  refine holdsKept_foldl (fun s c => ?_) _ s
  split
  · split
    · exact holdsKept_modBlaze ..
    · exact holdsKept_refl s
  · exact holdsKept_refl s

theorem holdsKept_dropHold (s : State) (d : Fin 8) (h : HoldEnt) : HoldsKept s (dropHold s d h) :=
  holdsKept_modDie List.erase_sublist

theorem holdsKept_dropLocalHolds (s : State) (id : BitVec 32) (f : Cmd → Bool) : HoldsKept s (dropLocalHolds s id f) := by
  refine holdsKept_foldl (fun s d => ?_) _ s
  exact holdsKept_foldl (fun s h => holdsKept_trans (holdsKept_dropHold s d h) (holdsKept_unwatchAll ..)) _ s

theorem holdsKept_leaveCore (s : State) (t : Task) : HoldsKept s (leaveCore s t) := by
  unfold leaveCore
  exact holdsKept_before (holdsKept_trans (holdsKept_dropAllZ s) (holdsKept_trans (holdsKept_failBlazes _ s.cp.copies)
    (holdsKept_dropLocalHolds _ t.id Cmd.isLocal))) (modCore_dies _ _)

theorem childEnds_dies (s : State) (n : Nat) (f : Option Word) (b : Option Import) : (s.childEnds n f b).dies = s.dies := rfl

theorem holdsKept_endTask (s : State) (t : Task) (f : Option Word) (b : Option Import) : HoldsKept s (endTask s t f b) :=
  holdsKept_before (holdsKept_leaveCore s t) (childEnds_dies _ _ _ _)

theorem holdsKept_parkAnswered (s : State) (id : BitVec 32) : HoldsKept s (parkAnswered s id) := by
  refine ⟨fun e => ?_⟩
  simp [parkAnswered]

theorem holdsKept_killTask (s : State) (t : Task) (w : Word) : HoldsKept s (killTask s t w) := by
  have hall (l : List Raised) : HoldsKept s (writeAll s t l) :=
    holdsKept_foldl (fun x r => holdsKept_recordOnly (writeRecord_recordOnly ..)) l s
  exact holdsKept_trans (hall _) (holdsKept_trans (holdsKept_parkAnswered _ t.id) (holdsKept_endTask _ t _ _))

theorem holdsKept_addLate (s : State) (r : Raised) : HoldsKept s (addLate s r) := by
  unfold addLate
  split
  · exact holdsKept_refl s
  · split
    · exact holdsKept_of_dies rfl
    · exact holdsKept_trans (holdsKept_recordOnly (writeRecord_recordOnly ..)) (holdsKept_killTask ..)

theorem focus_dies (s : State) (n : Fin 512) : (s.focus n).dies = s.dies := by
  unfold State.focus
  split <;> rfl

theorem holdsKept_atCore (n : Fin 512) {f : State → State} (h : ∀ s, HoldsKept s (f s)) (s : State) : HoldsKept s (atCore n f s) :=
  holdsKept_after (holdsKept_before (h _) (focus_dies _ _)) (focus_dies s n)

theorem modOwner_dies (s : State) (w : Who) (f : TaskRegs → TaskRegs) : (modOwner s w f).dies = s.dies := by
  unfold modOwner
  dsimp only
  split
  · exact (setCoreAt_rest ..).2.1
  · rfl

theorem holdsKept_lateTo (s : State) (w : Who) (r : Raised) : HoldsKept s (lateTo s w r) := by
  unfold lateTo
  split
  · exact holdsKept_atCore _ (fun x => holdsKept_addLate x r) s
  · split
    · exact holdsKept_of_dies (modOwner_dies ..)
    · exact holdsKept_atCore _ (fun x => holdsKept_recordOnly (writeRecord_recordOnly ..)) s

/-- A discarded CPH leaves its hold queue. -/
theorem discardHold_hold (s : State) (d : Fin 8) (h : HoldEnt) :
    (discardHold s d h).dies[d].hold.Sublist (s.dies[d].hold.erase h) := by
  have hrest : HoldsKept (dropHold s d h) (discardHold s d h) :=
    holdsKept_after (holdsKept_trans (holdsKept_lateTo _ h.who _) (holdsKept_unwatchAll _ h)) (modOwner_dies ..)
  have hdrop : (dropHold s d h).dies[d].hold = s.dies[d].hold.erase h := congrArg Die.hold (modDie_dies ..)
  exact hdrop ▸ hrest.sublist d

/-- What is discarded is no longer held: the entries that had arrived are counted down. -/
theorem discardHolds_none (s : State) (d : Fin 8) : ∀ h ∈ (discardHolds s d).dies[d].hold, h.since = none := by
  unfold discardHolds
  have hcount : ∀ h, h.since.isSome = true →
      s.dies[d].hold.count h ≤ (s.dies[d].hold.filter fun h => h.since.isSome).count h := by
    intro h hh
    rw [List.count_filter (p := fun h : HoldEnt => h.since.isSome) hh]
  revert hcount
  generalize s.dies[d].hold.filter _ = l
  induction l generalizing s with
  | nil =>
    intro hcount h hmem
    by_contra hsome
    have := hcount h (Option.isSome_iff_ne_none.mpr hsome)
    rw [List.count_nil, Nat.le_zero, List.count_eq_zero] at this
    exact this hmem
  | cons k l ih =>
    intro hcount
    rw [List.foldl_cons]
    refine ih _ fun h hh => ?_
    have h1 := (discardHold_hold s d k).count_le h
    have h2 := hcount h hh
    rw [List.count_erase] at h1
    rw [List.count_cons] at h2
    split at h2 <;> simp_all <;> omega

/-! ## Migrations abandoned -/

theorem holdsKept_stopRun (s : State) (n : Nat) (r : CopyRun) (f : Fail) (mpc : Word) : HoldsKept s (stopRun s n r f mpc) := by
  have hsettle (x : State) (z : Option BlazeRef) (st : BlazeState) (k : Nat) : HoldsKept x (settleBlaze x z st k) := by
    unfold settleBlaze
    split
    · exact holdsKept_modBlaze ..
    · exact holdsKept_refl x
  have ht : HoldsKept s (settleBlaze ((setRunAt s n { r with flags := 0 }).addFlags r.flags) r.blaze .failed r.units) :=
    holdsKept_after (hsettle ..) rfl
  unfold stopRun
  dsimp only
  split
  · exact holdsKept_before ht rfl
  · exact holdsKept_before ht rfl

theorem holdsKept_migTimeout (s : State) (held : Fin 512 × Engine × Nat) : HoldsKept s (migTimeout s held) := by
  refine holdsKept_atCore held.1 (fun x => ?_) s
  split
  · split
    · split
      · exact holdsKept_after (holdsKept_addLate ..) rfl
      · exact holdsKept_refl x
    · exact holdsKept_refl x
  · split
    · split
      · exact holdsKept_refl x
      · exact holdsKept_of_dies rfl
    · exact holdsKept_refl x
  · split
    · split
      · exact holdsKept_stopRun ..
      · exact holdsKept_refl x
    · exact holdsKept_refl x
  · exact holdsKept_refl x

theorem holdsKept_abandonMigrations (s : State) (d : Fin 8) : HoldsKept s (abandonMigrations s d) :=
  holdsKept_trans (holdsKept_foldl holdsKept_migTimeout _ s) (holdsKept_modDie (List.Sublist.refl _))

/-! ## Cores of a reset die -/

/-- A core as its reset leaves it, with nothing listed in its scratchpad. -/
def FreshAt (s : State) (n : Fin 512) : Prop :=
  (∃ e b, s.coreAt n = { Core.reset n with epoch := e, inOrder := b }) ∧
    Unlisted s.mem (spadKey n.val 0) (spadKey n.val 0 + 2 ^ 23)

theorem resetCore_fresh (s : State) (n : Fin 512) : FreshAt (resetCore s n) n :=
  ⟨⟨_, _, resetCore_self s n⟩, resetCore_unlisted s n⟩

theorem freshAt_resetCore {s : State} {n : Fin 512} (k : Fin 512) (h : FreshAt s n) : FreshAt (resetCore s k) n := by
  by_cases hk : n = k
  · subst hk
    exact resetCore_fresh s n
  · obtain ⟨hcore, hmem⟩ := h
    rw [FreshAt, resetCore_ne s hk, (resetCore_rest s k).2.2]
    exact ⟨hcore, (hmem.memClear _ _).memClear _ _⟩

theorem resetCores_fresh (l : List (Fin 512)) (s : State) {n : Fin 512} (h : n ∈ l ∨ FreshAt s n) :
    FreshAt (l.foldl resetCore s) n := by
  induction l generalizing s with
  | nil => exact h.resolve_left List.not_mem_nil
  | cons k l ih =>
    rw [List.foldl_cons]
    refine ih _ ?_
    rcases h with h | h
    · rcases List.mem_cons.mp h with rfl | h
      · exact .inr (resetCore_fresh s n)
      · exact .inl h
    · exact .inr (freshAt_resetCore k h)

theorem resetCores_dies (l : List (Fin 512)) (s : State) : (l.foldl resetCore s).dies = s.dies := by
  induction l generalizing s with
  | nil => rfl
  | cons k l ih => rw [List.foldl_cons, ih, (resetCore_rest s k).1]

theorem mem_dieCores (n : Fin 512) : n ∈ dieCores (dieOf n) := by
  have hn := n.isLt
  refine List.mem_map.mpr ⟨n.val % 64, List.mem_range.mpr (Nat.mod_lt _ (by omega)), Fin.ext ?_⟩
  show (n.val / 64 % 8 * 64 + n.val % 64) % 512 = n.val
  omega

theorem loseCache_dies (s : State) (d : Fin 8) : (loseCache s d).dies = s.dies := rfl

/-- Settles O35: a reset of the package by definition; of a die by what is left of its hold queue and its cores. -/
theorem resets : Obligations.Resets := by
  intro d s
  refine ⟨rfl, rfl, rfl, fun hd => ?_, fun h => ?_, fun hen hcount hstage => ?_, fun hen hcount hstage => ?_⟩
  · obtain ⟨a, ha⟩ : ∃ a, a = loseCache (abandonMigrations (discardHolds (failWatchers (failTasks s d) d) d) d) d := ⟨_, rfl⟩
    have hreset : exec (.dieReset d) s = .next ((dieCores d).foldl resetCore (resetDieRegs a d)) := by
      rw [ha]
      exact congrArg Host.Outcome.next (if_neg hd)
    refine ⟨_, a.dies[d].hold, a.dies[d].forwarded, hreset, ?_, fun h hh => ?_, fun n hn => ?_⟩
    · rw [resetCores_dies]
      exact modDie_dies ..
    · rw [ha, loseCache_dies] at hh
      exact discardHolds_none _ d h (((holdsKept_abandonMigrations _ d).sublist d).subset hh)
    · have hmem : n ∈ dieCores d := by
        rw [← hn]
        exact mem_dieCores n
      have hfresh := resetCores_fresh (dieCores d) (resetDieRegs a d) (.inl hmem)
      exact ⟨hfresh.1, fun off ho => spad_unlisted hfresh.2 ho⟩
  · refine congrArg Host.Outcome.next (if_neg ?_)
    rw [Bool.and_eq_true, beq_iff_eq]
    rcases h with h | h
    · exact fun hc => Bool.false_ne_true (h.symm.trans hc.1)
    · exact fun hc => h hc.2
  · have hover : (s.dies[d].wdogctl.getLsbD 0 && s.dies[d].wdogCount == 0) = true := by rw [hen, hcount]; rfl
    refine congrArg Host.Outcome.next ((if_pos hover).trans ?_)
    rw [watchdogExpires, hstage]
    simp only [← wdogReload_eq]
    rfl
  · have hover : (s.dies[d].wdogctl.getLsbD 0 && s.dies[d].wdogCount == 0) = true := by rw [hen, hcount]; rfl
    refine congrArg Host.Outcome.next ((if_pos hover).trans ?_)
    rw [watchdogExpires, hstage]
    rfl

end Sys2Proof.CausesAndResets

/-! # The SEQ and ZTOK groups (07 R194, 08 R245, 10 R296-R304) -/

namespace Sys2Proof.SequencesAndTokens

open Sys2Proof.Machine Sys2Proof.Safety Sys2Proof.TagTables Sys2Proof.StepsAndTraps Sys2Proof.TaskGroup
open Sys2Proof.SystemInstructions Sys2Proof.CausesAndResets

/-! ## z-registers -/

theorem lookupKey_eraseKey_same {α : Type} (k : Nat) (l : List (Nat × α)) : lookupKey k (eraseKey k l) = none := by
  induction l with
  | nil => rfl
  | cons e l ih =>
    obtain ⟨j, a⟩ := e
    unfold eraseKey at ih ⊢
    by_cases h : j = k
    · simp [h, ih]
    · simp [h, ih, lookupKey]

theorem zBusy_iff {s : State} {n : Fin 16} :
    zBusy s n = true ↔ n ≠ 0 ∧ ∃ c ∈ s.cp.queue, ∃ x, c.instr = .cpb x ∧ x.za = n := by
  have one (c : Cmd) : writesZ n c = true ↔ ∃ x, c.instr = .cpb x ∧ x.za = n := by
    unfold writesZ
    split <;> simp_all
  simp only [zBusy, Bool.and_eq_true, bne_iff_ne, List.any_eq_true, one]

theorem carried_iff {s : State} {n : Fin 16} : (n != 0 && s.cp.queue.any (carriesZ n)) = true ↔
    n ≠ 0 ∧ ∃ c ∈ s.cp.queue, ∃ x, c.instr = .cph x ∧ (x.za = n ∨ x.zb = n) := by
  have one (c : Cmd) : carriesZ n c = true ↔ ∃ x, c.instr = .cph x ∧ (x.za = n ∨ x.zb = n) := by
    unfold carriesZ
    split <;> simp_all
  simp only [Bool.and_eq_true, bne_iff_ne, List.any_eq_true, one]

/-- The answer of ZTEST for a state of the blaze. -/
def stateCode : BlazeState → Word
  | .pending => 1
  | .landed => 2
  | .failed => 3

theorem zCode_empty {s : State} {n : Fin 16} (h : n = 0 ∨ s.ord.z[n] = none) : zCode s n = 0 := by
  rcases h with h | h
  · simp [zCode, h]
  · unfold zCode
    rw [h]
    split <;> simp_all

theorem zCode_held {s : State} {n : Fin 16} {z : BlazeRef} (hn : n ≠ 0) (h : s.ord.z[n] = some z) :
    zCode s n = stateCode (blazeState s z) := by
  unfold zCode
  rw [if_neg hn, h]
  dsimp only
  cases blazeState s z <;> rfl

theorem dropZ_eq {s : State} {n : Fin 16} {z : BlazeRef} (h : s.ord.z[n] = some z) :
    dropZ s n = dropRef (s.modOrd fun o => { o with z := o.z.set n none }) z := by
  unfold dropZ
  rw [h]

/-- A dropped blaze: marked while it is pending, freed once it has landed and nothing watches it. -/
theorem dropRef_entry {s : State} {z : BlazeRef} {d : Fin 8} {b : BlazeEnt} (hd : ownerDie s z.home = some d)
    (hb : lookupKey z.entry.val s.dies[d].blazes = some b) (hg : b.gen = z.gen) :
    (b.state = .pending → lookupKey z.entry.val (dropRef s z).dies[d].blazes = some { b with dropped := true }) ∧
    (b.state = .landed → b.watchers = 0 → lookupKey z.entry.val (dropRef s z).dies[d].blazes = none) := by
  have href : blazeOf s z = some (d, b) := by simp only [blazeOf, hd, hb, hg, if_true]
  have hdrop : dropRef s z = freeBlaze (s.modDie d fun x => { x with
      blazes := insertKey z.entry.val { b with dropped := true } x.blazes }) d z.entry.val := by
    simp only [dropRef, href, modBlaze, hb]
  have hin : (s.modDie d fun x => { x with blazes := insertKey z.entry.val { b with dropped := true } x.blazes }).dies[d].blazes =
      insertKey z.entry.val { b with dropped := true } s.dies[d].blazes := congrArg Die.blazes (modDie_dies ..)
  refine ⟨fun hs => ?_, fun hs hw => ?_⟩
  · have hkeep : BlazeEnt.freeable { b with dropped := true } = false := by simp [BlazeEnt.freeable, hs]
    rw [hdrop, freeBlaze, hin, lookupKey_insertKey_same]
    simp only [hkeep, Bool.false_and, Bool.false_eq_true, if_false]
    rw [hin, lookupKey_insertKey_same]
  · have hfree : BlazeEnt.freeable { b with dropped := true } = true := by simp [BlazeEnt.freeable, hs, hw]
    have hstate : (b.state == BlazeState.failed) = false := by rw [hs]; rfl
    rw [hdrop, freeBlaze, hin, lookupKey_insertKey_same]
    simp only [hfree, hstate, Bool.false_and, Bool.not_false, Bool.and_self, if_true]
    rw [modDie_dies]
    exact lookupKey_eraseKey_same _ _

section
variable {s : State} (o : Sa) (hf : s.hasFeature 2 = true)
include hf

theorem zwait_eq : exec (.zwait o) s = .next (if zBusy s (zOf o.a) || zCode s (zOf o.a) == 1 then holds s
    else if zCode s (zOf o.a) = 2 then acquire (retire s) .fabric else retire s) :=
  (exec_zwait o s).trans (featured_on hf _)

theorem zdrop_eq : exec (.zdrop o) s = .next (if zBusy s (zOf o.a) || (zOf o.a != 0 && s.cp.queue.any (carriesZ (zOf o.a)))
    then holds s else if zOf o.a = 0 then retire s else retire (dropZ s (zOf o.a))) :=
  (exec_zdrop o s).trans (featured_on hf _)

theorem ztest_eq : exec (.ztest o) s = if zBusy s (zOf o.a) then .next (holds s)
    else sccWrite o.d [] s fun y => zCode y (zOf o.a) :=
  (exec_ztest o s).trans (featured_on hf _)

end

/-- Settles O27: the three forms hold for a queued CPB of the register; else ZTEST's code says what they do. -/
theorem blazeRegisters : Obligations.BlazeRegisters := by
  intro o s hf
  have hn : Fin.ofNat 16 o.a.val = zOf o.a := rfl
  simp only [hn]
  refine ⟨fun hw => ?_, fun hw => ⟨?_, ?_, ?_, ?_, ?_, ?_, ?_⟩⟩
  · rw [← zBusy_iff] at hw
    rw [zwait_eq o hf, zdrop_eq o hf, ztest_eq o hf, hw]
    exact ⟨rfl, rfl, rfl⟩
  all_goals
    have hbusy : zBusy s (zOf o.a) = false := Bool.eq_false_iff.mpr fun h => hw (zBusy_iff.mp h)
  · rintro ⟨hn, z, hz, hstate⟩
    rw [zwait_eq o hf, hbusy, zCode_held hn hz, hstate]
    rfl
  · rintro (he | ⟨hn, z, hz, hstate⟩)
    · rw [zwait_eq o hf, hbusy, zCode_empty he]
      rfl
    · rw [zwait_eq o hf, hbusy, zCode_held hn hz, hstate]
      rfl
  · rintro ⟨hn, z, hz, hstate⟩
    rw [zwait_eq o hf, hbusy, zCode_held hn hz, hstate, ← acquire_eq]
    rfl
  · intro hc
    rw [← carried_iff] at hc
    rw [zdrop_eq o hf, hc, Bool.or_true]
    rfl
  · intro hc he
    rw [← carried_iff, Bool.not_eq_true] at hc
    rw [zdrop_eq o hf, hbusy, hc]
    rcases he with he | he
    · rw [he]; rfl
    · have hsame : dropZ s (zOf o.a) = s := by rw [dropZ, he]
      rw [hsame, ite_self]
      rfl
  · intro z hc hn hz
    rw [← carried_iff, Bool.not_eq_true] at hc
    obtain ⟨dies, hdies⟩ := dropRef_dies (s.modOrd fun o' => { o' with z := o'.z.set (zOf o.a) none }) z
    refine ⟨dies, ?_, fun d b hd hb hg => ?_⟩
    · rw [zdrop_eq o hf, hbusy, hc, Bool.or_self, if_neg Bool.false_ne_true, if_neg hn, dropZ_eq hz, hdies]
      rfl
    · have := dropRef_entry (s := s.modOrd fun o' => { o' with z := o'.z.set (zOf o.a) none }) hd hb hg
      rwa [hdies] at this
  · intro hr
    rw [ztest_eq o hf, hbusy, if_neg Bool.false_ne_true, sccWrite_wrote hr]
    refine ⟨fun he => ?_, ?_, ?_, ?_⟩
    · rw [zCode_empty he]
    all_goals
      rintro ⟨hn, z, hz, hstate⟩
      rw [zCode_held hn hz, hstate]
      rfl

/-! ## Members of the SEQ group -/

section
variable {s : State} {rs : List SReg} (hf : s.hasFeature 3 = true) (hr : ready s rs = true)
include hf hr

theorem seqOp_release (hd : allDone s = true) (f : State → State) : seqOp rs true s f = .next (f s) := by
  refine (featured_on hf _).trans ((sccOp_ready hr _).trans (congrArg _ ?_))
  simp only [hd, if_true, Bool.not_true, Bool.false_eq_true, if_false]

theorem seqOp_holds (hd : allDone s = false) (f : State → State) : seqOp rs true s f = .next (waiting s) := by
  refine (featured_on hf _).trans ((sccOp_ready hr _).trans (congrArg _ ?_))
  simp only [hd, if_true, Bool.not_false]
  rfl

theorem seqOp_read (hd : ∀ p, s.ord.release = some p → p.arrive = false) (f : State → State) :
    seqOp rs false s f = .next (f s) := by
  refine (featured_on hf _).trans ((sccOp_ready hr _).trans (congrArg _ ?_))
  have hno : (s.ord.release.any fun p => p.arrive) = false := by
    cases hp : s.ord.release with
    | none => rfl
    | some p => exact hd p hp
  simp only [hno, Bool.false_eq_true, if_false]

end

theorem seqTrap_eq (s : State) (c : Cause) (n : Nat) : seqTrap s (failAt c n 0) =
    takeCause s ⟨c, .seq, false, false, s.scc.idx, 0, BitVec.ofNat 64 n, 0⟩ := rfl

theorem seqTrap_plain (s : State) (c : Cause) : seqTrap s (plainFail c) =
    takeCause s ⟨c, .seq, false, false, s.scc.idx, 0, 0, 0⟩ := rfl

theorem word_two_pow_60 : BitVec.ofNat 64 (2 ^ 60) = (2 ^ 60 : Word) := by
  apply BitVec.eq_of_toNat_eq
  rw [BitVec.toNat_pow]
  show 2 ^ 60 % 2 ^ 64 = 2 ^ 60 % 2 ^ 64
  rfl

theorem seqTrap_outside (s : State) : seqTrap s seqOutside =
    takeCause s ⟨.xperm, .seq, false, false, s.scc.idx, 0, 2 ^ 60, 0⟩ := by
  rw [seqOutside, seqTrap_eq, word_two_pow_60]

/-- A register written by an instruction that is a release. -/
theorem retire_bump (s : State) (d : SReg) (v : Word) : retire (bumpEpoch (s.setS d v)) = wrote (released s) d v := by
  rw [← retire_setS]
  unfold State.setS
  split <;> rfl

/-! ## The watch table -/

theorem freeWatch_some {t : WatchTable} {i : Nat} (hi : i < 8192) (hfree : lookupKey i t = none)
    (hused : ∀ j < i, lookupKey j t ≠ none) : freeWatch t = some i := by
  rw [freeWatch, List.find?_range_eq_some]
  refine ⟨by rw [hfree]; rfl, List.mem_range.mpr hi, fun j hj => ?_⟩
  rw [Bool.not_eq_true', Option.isNone_eq_false_iff, Option.isSome_iff_ne_none]
  exact hused j hj

theorem freeWatch_none {t : WatchTable} (hused : ∀ j < 8192, lookupKey j t ≠ none) : freeWatch t = none := by
  rw [freeWatch, List.find?_eq_none]
  intro j hj
  rw [Option.isNone_iff_eq_none]
  exact hused j (List.mem_range.mp hj)

theorem foreignEntry_iff (s : State) (i : Nat) : foreignEntry s i = true ↔ ∃ e, lookupKey i s.die.watch = some e ∧ e.ctx ≠ s.ctx := by
  simp only [foreignEntry, Option.any_eq_true, bne_iff_ne]

/-- The ids of the task's context. -/
def Inside (s : State) (q : Nat) : Prop :=
  (s.ctxAt (dieOf s.core.agent) s.ctx).sqrange.toNat % 2 ^ 14 ≤ q ∧
    q < (s.ctxAt (dieOf s.core.agent) s.ctx).sqrange.toNat / 2 ^ 16 % 2 ^ 15

theorem outside_iff (s : State) (q : Nat) : (q < (seqRange s).1 ∨ (seqRange s).2 ≤ q) ↔ ¬Inside s q := by
  simp only [seqRange, bits, Nat.pow_zero, Nat.div_one, Inside]
  omega

theorem watchOf_seq (bs : List Byte) : (watchOf bs).seq = leAt bs 0 2 % 2 ^ 14 := by simp [watchOf, bits]

theorem watchOf_budget (bs : List Byte) : (watchOf bs).budget = leAt bs 8 4 % 2 ^ 24 := by simp [watchOf, bits]

/-- The entry that WSET installs. -/
def watchEntry (s : State) (bs : List Byte) : WatchEnt :=
  ⟨s.ctx, s.core.task.bind (·.launch), bs, BitVec.ofNat 24 (leAt bs 8 4 % 2 ^ 24)⟩

theorem installWatch_eq (s : State) (o : Sa) (i : Nat) (bs : List Byte) : installWatch s o i bs =
    wrote (released (setWatch s (insertKey i (watchEntry s bs) s.die.watch))) o.d (BitVec.ofNat 64 i) := by
  rw [installWatch, watchOf_budget]
  exact retire_bump ..

section
variable {o : Sa} {s : State} (hf : s.hasFeature 3 = true) (hr : ready s [o.d, o.a, o.b] = true)
include hf hr

/-- WSET with an index in range and an image that can be read. -/
theorem wset_eq (hd : allDone s = true) {bs : List Byte} (hal : (s.sreg o.b).toNat % 64 = 0)
    (hbs : unitBytes s (s.sreg o.b) 64 = .ok bs) (ha : s.sreg o.a = BitVec.allOnes 64 ∨ (s.sreg o.a).toNat < 8192) :
    exec (.wset o) s = .next (
      if !watchOk bs then seqTrap s (plainFail .illegal)
      else if (watchOf bs).seq < (seqRange s).1 ∨ (seqRange s).2 ≤ (watchOf bs).seq then seqTrap s seqOutside
      else if s.sreg o.a = BitVec.allOnes 64 then
        (match freeWatch s.die.watch with
         | some i => installWatch s o i bs
         | none => retire (bumpEpoch (s.setS o.d (BitVec.allOnes 64))))
      else if foreignEntry s (s.sreg o.a).toNat then seqTrap s seqOutside
      else installWatch s o (s.sreg o.a).toNat bs) := by
  refine ((exec_wset o s).trans (seqOp_release hf hr hd _)).trans (congrArg _ ?_)
  have hrange : ¬(s.sreg o.a ≠ BitVec.allOnes 64 ∧ 8192 ≤ (s.sreg o.a).toNat) := by
    rintro ⟨h1, h2⟩
    rcases ha with ha | ha
    · exact h1 ha
    · omega
  have hal' : ¬(s.sreg o.b).toNat % 64 ≠ 0 := by omega
  simp only [if_neg hrange, if_neg hal', hbs] <;> generalize freeWatch s.die.watch = free <;> cases free <;> rfl

theorem wclr_eq (hd : allDone s = true) : exec (.wclr o) s = .next (
    if bit (s.sreg o.a).toNat 63 then
      (if bits (s.sreg o.a).toNat 14 49 ≠ 0 then seqTrap s (plainFail .illegal)
       else if bits (s.sreg o.a).toNat 0 14 < (seqRange s).1 ∨ (seqRange s).2 ≤ bits (s.sreg o.a).toNat 0 14 then
         seqTrap s seqOutside
       else retire (bumpEpoch (setWatch s (s.die.watch.filter fun e => !watches s.ctx (bits (s.sreg o.a).toNat 0 14) e.2))))
    else if 8192 ≤ (s.sreg o.a).toNat then seqTrap s (plainFail .illegal)
    else if foreignEntry s (s.sreg o.a).toNat then seqTrap s seqOutside
    else retire (bumpEpoch (setWatch s (eraseKey (s.sreg o.a).toNat s.die.watch)))) := by
  have hra : ready s [o.a] = true := ready_of_subset hr (by simp)
  refine ((exec_wclr o s).trans (seqOp_release hf hra hd _)).trans (congrArg _ ?_)
  dsimp only

theorem wget_eq (hd : ∀ p, s.ord.release = some p → p.arrive = false) : exec (.wget o) s = .next (
    if 8192 ≤ (s.sreg o.a).toNat then seqTrap s (plainFail .illegal)
    else if foreignEntry s (s.sreg o.a).toNat then seqTrap s seqOutside
    else
      let e := lookupKey (s.sreg o.a).toNat s.die.watch
      let v : Word := match e with
        | some w => BitVec.ofNat 64 (2 ^ 63 + w.counter.toNat)
        | none => 0
      if o.b = 0 then wrote s o.d v
      else if (s.sreg o.b).toNat % 64 ≠ 0 then seqTrap s (failAt .align 64 (s.sreg o.b))
      else
        match unitCheck s [⟨s.sreg o.b, watchImage e⟩] with
        | some f => seqTrap s f
        | none => wrote (unitPutAll s [⟨s.sreg o.b, watchImage e⟩]) o.d v) := by
  refine ((exec_wget o s).trans (seqOp_read hf hr hd _)).trans (congrArg _ ?_)
  simp only [retire_setS] <;> rfl

end

/-- The bits of an operand that names all entries of a sequence. -/
theorem bit63_of_lt {n : Nat} (h : n < 2 ^ 63) : bit n 63 = false := by
  simp only [bit, beq_eq_false_iff_ne]
  omega

theorem bits_of_all {n q : Nat} (hq : q < 2 ^ 14) (h : n = 2 ^ 63 + q) : bit n 63 = true ∧ bits n 14 49 = 0 ∧ bits n 0 14 = q := by
  simp only [bit, bits, beq_iff_eq]
  omega

theorem watchImage_eq (e : Option WatchEnt) : watchImage e = (e.map fun w =>
    w.image.take 8 ++ leBytes 4 w.counter.toNat ++ w.image.drop 12).getD (List.replicate 64 0) := by
  cases e <;> rfl

/-- Settles O26: the checks of each form in their order, then the table. -/
theorem watchEntries : Obligations.WatchEntries := by
  intro o s hf hr hrel
  have hread : ∀ p, s.ord.release = some p → p.arrive = false := by simp [hrel]
  refine ⟨fun hd bs hal hbs => ⟨fun hok ha => ?_, fun hok hin ha => ?_, fun hok hin => ⟨fun i hi ha hfree hused => ?_,
      fun ha hused => ?_, fun ha hfor => ?_, fun ha hfor => ?_⟩⟩,
    fun hd => ⟨fun h63 ha => ?_, fun ha hfor => ?_, fun ha hfor => ?_, fun q hq ha hin => ?_, fun q hq ha hin => ?_⟩,
    fun ha => ?_, fun ha hfor => ?_, fun ha hfor => ⟨fun hb => ?_, fun hb hal hcheck => ?_⟩⟩
  · exact (wset_eq hf hr hd hal hbs ha).trans (congrArg _ (if_pos (by rw [hok]; rfl)))
  · refine (wset_eq hf hr hd hal hbs ha).trans ?_
    rw [hok, if_neg (by simp), if_pos ((outside_iff s _).mpr (by rw [watchOf_seq]; exact hin)), seqTrap_outside]
  · refine (wset_eq hf hr hd hal hbs (.inl ha)).trans ?_
    rw [hok, if_neg (by simp), if_neg fun h => (outside_iff s _).mp h (by rw [watchOf_seq]; exact hin), if_pos ha, freeWatch_some hi hfree hused]
    exact congrArg _ (installWatch_eq ..)
  · refine (wset_eq hf hr hd hal hbs (.inl ha)).trans ?_
    rw [hok, if_neg (by simp), if_neg fun h => (outside_iff s _).mp h (by rw [watchOf_seq]; exact hin), if_pos ha, freeWatch_none hused]
    exact congrArg _ (retire_bump ..)
  · refine (wset_eq hf hr hd hal hbs (.inr ha)).trans ?_
    rw [hok, if_neg (by simp), if_neg fun h => (outside_iff s _).mp h (by rw [watchOf_seq]; exact hin), if_neg (ne_allOnes_of_lt ha (by omega)),
      if_pos ((foreignEntry_iff ..).mpr hfor), seqTrap_outside]
  · refine (wset_eq hf hr hd hal hbs (.inr ha)).trans ?_
    rw [hok, if_neg (by simp), if_neg fun h => (outside_iff s _).mp h (by rw [watchOf_seq]; exact hin), if_neg (ne_allOnes_of_lt ha (by omega)),
      if_neg fun h => hfor ((foreignEntry_iff ..).mp h), installWatch_eq, BitVec.ofNat_toNat, BitVec.setWidth_eq]
    rfl
  · refine (wclr_eq hf hr hd).trans ?_
    rw [bit63_of_lt h63, if_neg Bool.false_ne_true, if_pos ha]
    rfl
  · refine (wclr_eq hf hr hd).trans ?_
    rw [bit63_of_lt (by omega), if_neg Bool.false_ne_true, if_neg (by omega), if_pos ((foreignEntry_iff ..).mpr hfor),
      seqTrap_outside]
  · refine (wclr_eq hf hr hd).trans ?_
    rw [bit63_of_lt (by omega), if_neg Bool.false_ne_true, if_neg (by omega), if_neg fun h => hfor ((foreignEntry_iff ..).mp h)]
    rfl
  · obtain ⟨h63, h49, h14⟩ := bits_of_all hq ha
    refine (wclr_eq hf hr hd).trans ?_
    rw [h63, if_pos rfl, h49, h14, if_neg (by simp), if_pos ((outside_iff s _).mpr hin), seqTrap_outside]
  · obtain ⟨h63, h49, h14⟩ := bits_of_all hq ha
    refine (wclr_eq hf hr hd).trans ?_
    rw [h63, if_pos rfl, h49, h14, if_neg (by simp), if_neg fun h => (outside_iff s _).mp h hin]
    simp only [watches, watchOf_seq]
    rfl
  · refine (wget_eq hf hr hread).trans ?_
    rw [if_pos ha]
    rfl
  · refine (wget_eq hf hr hread).trans ?_
    rw [if_neg (by omega), if_pos ((foreignEntry_iff ..).mpr hfor), seqTrap_outside]
  · refine (wget_eq hf hr hread).trans ?_
    rw [if_neg (by omega), if_neg fun h => hfor ((foreignEntry_iff ..).mp h)]
    dsimp only
    rw [if_pos hb]
    cases lookupKey (s.sreg o.a).toNat s.die.watch <;> rfl
  · refine (wget_eq hf hr hread).trans ?_
    rw [if_neg (by omega), if_neg fun h => hfor ((foreignEntry_iff ..).mp h)]
    dsimp only
    rw [if_neg hb, if_neg (by omega)]
    rw [← watchImage_eq] at hcheck ⊢
    rw [hcheck]
    cases lookupKey (s.sreg o.a).toNat s.die.watch <;> rfl

/-! ## What the unit's writes leave -/

/-- `t` has the core in focus and the watch tables of `s`. -/
structure WatchKept (s t : State) : Prop where
  core : t.core = s.core
  watch : ∀ e : Fin 8, t.dies[e].watch = s.dies[e].watch

theorem watchKept_refl (s : State) : WatchKept s s := ⟨rfl, fun _ => rfl⟩

theorem watchKept_trans {s t u : State} (h : WatchKept s t) (h' : WatchKept t u) : WatchKept s u :=
  ⟨h'.core.trans h.core, fun e => (h'.watch e).trans (h.watch e)⟩

theorem watchKept_memoryOnly {s t : State} (h : MemoryOnly s t) : WatchKept s t := by
  obtain ⟨m, p, ds, rfl, hd⟩ := h
  refine ⟨rfl, fun e => ?_⟩
  show ds[e].watch = _
  rw [hd e]

theorem watchKept_modDie {s : State} {d : Fin 8} {f : Die → Die} (h : (f s.dies[d]).watch = s.dies[d].watch) :
    WatchKept s (s.modDie d f) := by
  refine ⟨rfl, fun e => ?_⟩
  by_cases hd : d = e
  · subst hd
    rw [modDie_dies, h]
  · rw [modDie_dies_ne s d e f hd]

theorem watchKept_refreshLine (s : State) (d : Fin 8) (c : Fin 64) (k : Nat) : WatchKept s (refreshLine s d c k) := by
  unfold refreshLine
  exact watchKept_modDie rfl

theorem watchKept_writeHbm (s : State) (d : Fin 8) (c : Fin 64) (p : Phys) (bs : List Byte) : WatchKept s (writeHbm s d c p bs) := by
  have hstore := watchKept_memoryOnly (store_memoryOnly s (forwardKey s p.key) bs)
  unfold writeHbm
  dsimp only
  split
  · exact watchKept_trans hstore (watchKept_trans (watchKept_refreshLine ..) (watchKept_refreshLine ..))
  · exact hstore

theorem watchKept_setTag (s : State) (a : Actor) (p : Phys) : WatchKept s (setTag s a p) := by
  unfold setTag
  split
  · exact watchKept_refl s
  · exact ⟨rfl, fun _ => rfl⟩

theorem watchKept_unitPut (fuel : Nat) (s : State) (a : Word) (bs : List Byte) : WatchKept s (unitPut fuel s a bs) := by
  induction fuel generalizing s a bs with
  | zero => exact watchKept_refl s
  | succ fuel ih =>
    unfold unitPut
    dsimp only
    split
    · exact watchKept_refl s
    · refine watchKept_trans ?_ (ih _ _ _)
      split
      · exact watchKept_trans (watchKept_writeHbm ..) (watchKept_setTag ..)
      · exact ⟨rfl, fun _ => rfl⟩
      · exact watchKept_refl s

theorem watchKept_unitPutAll (s : State) (l : List UnitWrite) : WatchKept s (unitPutAll s l) := by
  unfold unitPutAll
  induction l generalizing s with
  | nil => exact watchKept_refl s
  | cons w l ih => exact watchKept_trans (watchKept_unitPut ..) (ih _)

/-- The watch table put back where it was. -/
theorem setWatch_self (s : State) : setWatch s s.die.watch = s := by
  unfold setWatch State.modDie State.die
  have : s.dies.set (dieOf s.core.agent) s.dies[dieOf s.core.agent] = s.dies := Vector.set_getElem_self ..
  conv_rhs => rw [← show ({ s with dies := s.dies.set (dieOf s.core.agent) s.dies[dieOf s.core.agent] } : State) = s by rw [this]]

theorem setWatch_unitPutAll (s : State) (l : List UnitWrite) : setWatch (unitPutAll s l) s.die.watch = unitPutAll s l := by
  obtain ⟨hcore, hwatch⟩ := watchKept_unitPutAll s l
  have h : (unitPutAll s l).die.watch = s.die.watch := by
    simp only [State.die, hcore]
    exact hwatch _
  rw [← h, setWatch_self]

/-! ## Tokens -/

theorem wordsOf_length (n : Nat) (bs : List Byte) : (wordsOf n bs).length = n := by
  induction n generalizing bs with
  | zero => rfl
  | succ n ih => simp [wordsOf, ih]

theorem readTokens_length {s : State} {a : Word} {n : Nat} {l : List Nat} (h : readTokens s a n = .ok l) : l.length = n := by
  unfold readTokens at h
  split at h
  · cases h
  · dsimp only at h
    split at h
    · cases h
      exact wordsOf_length ..
    · cases h

theorem ownDesc_outside {s : State} {q : Nat} (h : ¬Inside s q) : ownDesc s q = .error seqOutside :=
  if_pos ((outside_iff s q).mpr h)

theorem ownDesc_inside {s : State} {q : Nat} (h : Inside s q) : ownDesc s q = readDesc s q :=
  if_neg fun h' => (outside_iff s q).mp h' h

theorem readDesc_budget {s : State} {q : Nat} {d : SeqDesc} (h : readDesc s q = .ok d) : d.budget < 2 ^ 32 := by
  have hle (bs : List Byte) : leAt bs 0x18 4 < 2 ^ 32 := by
    refine Nat.lt_of_lt_of_le (leNat_lt _) (Nat.pow_le_pow_right (by omega) ?_)
    have : ((bs.drop 0x18).take 4).length ≤ 4 := List.length_take_le ..
    omega
  unfold readDesc at h
  split at h
  · cases h
  · split at h
    · cases h
      rename_i bs _ d hd
      unfold parseDesc at hd
      dsimp only at hd
      split at hd
      · cases hd
        exact hle bs
      · cases hd
    · cases h

/-! ## Confirmation without a watch -/

theorem evalEntries_none {ctx : Fin 64} {q : Nat} {t : WatchTable} (h : ∀ e ∈ t, watches ctx q e.2 = false) (toks : List Nat)
    (base p : Nat) : evalEntries ctx q toks base p t = (t, []) := by
  induction t with
  | nil => rfl
  | cons e t ih =>
    obtain ⟨i, e⟩ := e
    have he : watches ctx q e = false := h (i, e) List.mem_cons_self
    simp only [evalEntries, ih fun x hx => h x (List.mem_cons_of_mem _ hx), he, Bool.false_eq_true, if_false]

/-- The budget after `n` positions. -/
def budgetAfter (b n : Nat) : Nat := if b = 0xFFFFFFFF then b else b - n

/-- Positions that no entry looks at, within the budget, are all confirmed. -/
theorem evalPositions_none {ctx : Fin 64} {q : Nat} {t : WatchTable} (h : ∀ e ∈ t, watches ctx q e.2 = false) (toks : List Nat)
    (base : Nat) {n p b : Nat} (hb : b = 0xFFFFFFFF ∨ (n < b ∧ b < 2 ^ 32) ∨ n = 0) :
    evalPositions ctx q toks base n p b t = (t, budgetAfter b n, none) := by
  induction n generalizing p b with
  | zero =>
    unfold budgetAfter
    split <;> rfl
  | succ n ih =>
    have hnext : budgetAfter b 1 ≠ 0 ∧ (budgetAfter b 1 = 0xFFFFFFFF ∨ (n < budgetAfter b 1 ∧ budgetAfter b 1 < 2 ^ 32) ∨ n = 0) ∧
        budgetAfter (budgetAfter b 1) n = budgetAfter b (n + 1) := by
      unfold budgetAfter
      split_ifs <;> omega
    obtain ⟨hne, hok, hafter⟩ := hnext
    unfold evalPositions
    rw [evalEntries_none h]
    dsimp only
    rw [show (if b = 0xFFFFFFFF then b else b - 1) = budgetAfter b 1 from rfl, if_neg (by simp [hne]), ih hok, hafter]

theorem longest_none {ctx : Fin 64} {q : Nat} {t : WatchTable} (h : ∀ e ∈ t, watches ctx q e.2 = false) : longest ctx q t = 0 := by
  unfold longest
  generalize 0 = m
  induction t with
  | nil => rfl
  | cons e t ih =>
    rw [List.foldl_cons, h e List.mem_cons_self]
    exact ih fun x hx => h x (List.mem_cons_of_mem _ hx)

/-- What a confirmation of `k` drafts makes of a descriptor. -/
def confirmed (d : SeqDesc) (k : Nat) : SeqDesc :=
  { d with
    clen := d.clen + k
    budget := if d.budget = 0xFFFFFFFF then d.budget else d.budget - k
    version := if k = 0 then d.version else (d.version + 1) % 2 ^ 30 }

/-- The drafts that SQCONFIRM of at most `m` confirms where nothing stops it. -/
def draftsOf (d : SeqDesc) (m : Nat) : Nat :=
  let drafts := if m = 0 then d.len - d.clen else min (d.len - d.clen) m
  if d.budget = 0xFFFFFFFF then drafts else min drafts d.budget

theorem confirm_none {s : State} {q m : Nat} {d : SeqDesc} {toks : List Nat} (hw : ∀ e ∈ s.die.watch, watches s.ctx q e.2 = false)
    (hbudget : d.budget < 2 ^ 32)
    (ht : readTokens s (BitVec.ofNat 64 (d.tokbuf + 4 * d.clen)) (draftsOf d m) = .ok toks)
    (hk : d.budget = 0xFFFFFFFF ∨ draftsOf d m < d.budget ∨ draftsOf d m = 0) :
    confirm s q m d = .ok ⟨confirmed d (draftsOf d m), s.die.watch, [], [], 0, 0, 0, none⟩ := by
  unfold confirm
  dsimp only
  rw [longest_none hw]
  rw [show (if d.budget = 0xFFFFFFFF then _ else _) = draftsOf d m from rfl]
  generalize draftsOf d m = k at *
  have hlen : (if k = 0 then 0 else d.clen + k - (d.clen - (0 - 1))) = k := by split <;> omega
  rw [hlen, tokAddr, show d.clen - (0 - 1) = d.clen by omega, ht]
  dsimp only
  rw [evalPositions_none hw toks d.clen (by omega)]
  dsimp only
  unfold confirmed
  by_cases h0 : k = 0
  · subst h0
    simp [budgetAfter]
  · simp [h0, budgetAfter]

/-- A release of the unit that answers a number. -/
theorem outcomeWord_zero (n : Nat) : outcomeWord 0 0 0 n = BitVec.ofNat 64 n := by simp [outcomeWord]

theorem outcomeWord_six (n : Nat) : outcomeWord 6 0 0 n = BitVec.ofNat 64 (6 * 2 ^ 60 + n) := by simp [outcomeWord]

theorem appendTokens_eq {s : State} {o : Sa} {q : Nat} {d : SeqDesc} {toks : List Nat}
    (h : unitCheck s [⟨tokAddr d d.len, tokenBytes toks⟩, ⟨descAddr s q, descBytes { d with len := d.len + toks.length }⟩] = none) :
    appendTokens s o q d toks = wrote (released (unitPutAll s [⟨tokAddr d d.len, tokenBytes toks⟩,
      ⟨descAddr s q, descBytes { d with len := d.len + toks.length }⟩])) o.d (BitVec.ofNat 64 (d.len + toks.length)) := by
  unfold appendTokens
  dsimp only
  rw [h]
  exact retire_bump ..

/-- A confirmation that touches the descriptor alone. -/
theorem applyConfirm_own {s : State} {o : Sa} {q : Nat} {d : SeqDesc} (h : unitCheck s [⟨descAddr s q, descBytes d⟩] = none) :
    applyConfirm s o q ⟨d, s.die.watch, [], [], 0, 0, 0, none⟩ =
      wrote (released (unitPutAll s [⟨descAddr s q, descBytes d⟩])) o.d (BitVec.ofNat 64 d.clen) := by
  simp only [applyConfirm, List.nil_append, List.map_nil, h, List.foldl_nil, setWatch_unitPutAll, outcomeWord_zero]
  exact retire_setS ..

section
variable {o : Sa} {s : State} (hf : s.hasFeature 3 = true) (hr : ready s [o.d, o.a, o.b] = true)
include hf hr

theorem sqappend_eq (hd : allDone s = true) : exec (.sqappend o) s = .next (
    if 2 ^ 32 ≤ (s.sreg o.a).toNat ∨ bits (s.sreg o.a).toNat 14 2 ≠ 0 ∨ 1024 < bits (s.sreg o.a).toNat 16 16 then
      seqTrap s (plainFail .illegal)
    else
      match ownDesc s (bits (s.sreg o.a).toNat 0 14) with
      | .error e => seqTrap s e
      | .ok d =>
        if d.state ≠ 1 then retire (bumpEpoch (s.setS o.d (BitVec.ofNat 64 (2 ^ 56 + d.len))))
        else if d.cap < d.len + max (bits (s.sreg o.a).toNat 16 16) 1 then
          retire (bumpEpoch (s.setS o.d (BitVec.ofNat 64 (2 * 2 ^ 56 + d.len))))
        else if bits (s.sreg o.a).toNat 16 16 = 0 then
          appendTokens s o (bits (s.sreg o.a).toNat 0 14) d [bits (s.sreg o.b).toNat 0 20]
        else if (s.sreg o.b).toNat % 4 ≠ 0 then seqTrap s (failAt .align 4 (s.sreg o.b))
        else
          match readTokens s (s.sreg o.b) (bits (s.sreg o.a).toNat 16 16) with
          | .error e => seqTrap s e
          | .ok toks => appendTokens s o (bits (s.sreg o.a).toNat 0 14) d toks) :=
  (exec_sqappend o s).trans (seqOp_release hf hr hd _)

theorem sqconfirm_eq (hd : allDone s = true) : exec (.sqconfirm o) s = .next (
    if 2 ^ 32 ≤ (s.sreg o.a).toNat ∨ bits (s.sreg o.a).toNat 14 2 ≠ 0 then seqTrap s (plainFail .illegal)
    else
      match ownDesc s (bits (s.sreg o.a).toNat 0 14) with
      | .error e => seqTrap s e
      | .ok d =>
        if d.state ≠ 1 then retire (bumpEpoch (s.setS o.d (outcomeWord 6 0 0 d.clen)))
        else
          match confirm s (bits (s.sreg o.a).toNat 0 14) (bits (s.sreg o.a).toNat 16 16) d with
          | .error e => seqTrap s e
          | .ok c => applyConfirm s o (bits (s.sreg o.a).toNat 0 14) c) :=
  (exec_sqconfirm o s).trans (seqOp_release hf (ready_of_subset hr (by simp)) hd _)

theorem sqstate_eq (hd : ∀ p, s.ord.release = some p → p.arrive = false) : exec (.sqstate o) s = .next (
    if 2 ^ 14 ≤ (s.sreg o.a).toNat then seqTrap s (plainFail .illegal)
    else
      match ownDesc s (s.sreg o.a).toNat with
      | .error e => seqTrap s e
      | .ok d => wrote s o.d (BitVec.ofNat 64 (d.state * 2 ^ 62 + d.version * 2 ^ 32 + d.clen))) := by
  refine ((exec_sqstate o s).trans (seqOp_read hf (ready_of_subset hr (by simp)) hd _)).trans (congrArg _ ?_)
  simp only [retire_setS] <;> rfl

end

/-- Settles O25: each form checks its operand, finds the descriptor, and makes the writes of its case. -/
theorem sequences : Obligations.Sequences := by
  intro o s hf hr
  have hra : ready s [o.d, o.a] = true := ready_of_subset hr (by simp)
  have hq : bits (s.sreg o.a).toNat 0 14 = (s.sreg o.a).toNat % 2 ^ 14 := by simp [bits]
  have hn : bits (s.sreg o.a).toNat 16 16 = (s.sreg o.a).toNat / 2 ^ 16 % 2 ^ 16 := rfl
  have hm : bits (s.sreg o.a).toNat 14 2 = (s.sreg o.a).toNat / 2 ^ 14 % 4 := rfl
  dsimp only
  refine ⟨fun hd => ⟨(exec_sqappend o s).trans (seqOp_holds hf hr hd _),
    (exec_sqconfirm o s).trans (seqOp_holds hf hra hd _)⟩, fun hd => ?_, fun hp => ?_⟩
  · rw [sqappend_eq hf hr hd, sqconfirm_eq hf hr hd, hq, hn, hm]
    generalize (s.sreg o.a).toNat = w at *
    generalize hqe : w % 2 ^ 14 = q at *
    generalize hne : w / 2 ^ 16 % 2 ^ 16 = n at *
    refine ⟨fun hbad => ?_, fun hbig => ?_, fun hw hz => ⟨fun hout hle => ?_, fun hout => ?_, ?_, ?_, ?_⟩⟩
    · have hbad' : 2 ^ 32 ≤ w ∨ w / 2 ^ 14 % 4 ≠ 0 ∨ 1024 < n := hbad.imp_right .inl
      rw [if_pos hbad, if_pos hbad']
      exact ⟨rfl, rfl⟩
    · rw [if_pos (.inr (.inr hbig))]
      rfl
    all_goals
      have hok : ¬(2 ^ 32 ≤ w ∨ w / 2 ^ 14 % 4 ≠ 0) := by omega
      have hokn (h : n ≤ 1024) : ¬(2 ^ 32 ≤ w ∨ w / 2 ^ 14 % 4 ≠ 0 ∨ 1024 < n) := by omega
    · rw [if_neg (hokn hle), ownDesc_outside hout]
      exact congrArg _ (seqTrap_outside s)
    · rw [if_neg hok, ownDesc_outside hout]
      exact congrArg _ (seqTrap_outside s)
    · intro d hin hdesc hstate
      rw [if_neg hok, ownDesc_inside hin, hdesc]
      refine ⟨fun hle _ => ?_, fun _ => ?_⟩
      · rw [if_neg (hokn hle)]
        dsimp only
        rw [if_pos hstate]
        exact congrArg _ (retire_bump ..)
      · dsimp only
        rw [if_pos hstate, outcomeWord_six]
        exact congrArg _ (retire_bump ..)
    · intro d toks hin hle hdesc hstate hone hmany
      have hlen : max n 1 = toks.length := by
        by_cases h0 : n = 0
        · rw [hone h0, h0]; rfl
        · rw [readTokens_length (hmany h0).2]
          omega
      rw [if_neg (hokn hle), ownDesc_inside hin, hdesc]
      dsimp only
      rw [if_neg (by omega), hlen]
      refine ⟨fun hfull _ => ?_, fun hfits hcheck => ?_⟩
      · rw [if_pos hfull]
        exact congrArg _ (retire_bump ..)
      · have happend : appendTokens s o q d toks = _ := appendTokens_eq hcheck
        rw [if_neg (by omega)]
        by_cases h0 : n = 0
        · have hbits : [bits (s.sreg o.b).toNat 0 20] = toks := by rw [hone h0]; simp [bits]
          rw [if_pos h0, hbits, happend]
          rfl
        · obtain ⟨hal, htoks⟩ := hmany h0
          rw [if_neg h0, if_neg (by omega), htoks]
          dsimp only
          rw [happend]
          rfl
    · intro d toks hin hdesc hstate hwatch htoks hk hcheck
      have hc : confirm s q n d = _ := confirm_none hwatch (readDesc_budget hdesc) htoks hk
      rw [if_neg hok, ownDesc_inside hin, hdesc]
      dsimp only
      rw [if_neg (by omega), hc]
      dsimp only
      exact congrArg _ (applyConfirm_own hcheck)
  · rw [sqstate_eq hf hr hp]
    refine ⟨fun hbig => ?_, fun hw hout => ?_, fun d hw hin hdesc => ?_⟩
    · rw [if_pos hbig]
      rfl
    · rw [if_neg (by omega), ownDesc_outside (by rwa [Nat.mod_eq_of_lt hw] at hout)]
      exact congrArg _ (seqTrap_outside s)
    · rw [Nat.mod_eq_of_lt hw] at hin hdesc
      rw [if_neg (by omega), ownDesc_inside hin, hdesc]

end Sys2Proof.SequencesAndTokens

/-! # Stage barriers (08 R253-R256) -/

namespace Sys2Proof.StageBarriers

open Sys2Proof.Machine Sys2Proof.Safety Sys2Proof.StepsAndTraps Sys2Proof.TaskGroup

/-! ## The object -/

theorem barBytes_length (b : BarObj) : (barBytes b).length = 16 := by simp [barBytes, leBytes_length]

/-- The fields of an object fit its 16 bytes. -/
theorem barOf_barBytes {c : BarObj} (he : c.expect < 2 ^ 16) (ha : c.arrived < 2 ^ 16) (hr : c.record < 2 ^ 16)
    (hlo : -(2 ^ 63) ≤ c.pending) (hhi : c.pending < 2 ^ 63) : barOf (barBytes c) = c := by
  have hflag (b : Bool) : bit ((if b then 1 else 0) % 256 ^ 1) 0 = b := by cases b <;> rfl
  have hlast : leAt (leBytes 8 (BitVec.ofInt 64 c.pending).toNat) 0 8 = (BitVec.ofInt 64 c.pending).toNat := by
    have := leAt_leBytes 8 (BitVec.ofInt 64 c.pending).toNat []
    rw [List.append_nil] at this
    rw [this, Nat.mod_eq_of_lt (by have := (BitVec.ofInt 64 c.pending).isLt; omega)]
  have hpend : (BitVec.ofInt 64 c.pending).toInt = c.pending := by
    rw [BitVec.toInt_ofInt, Int.bmod_eq_of_le (by omega) (by omega)]
  unfold barOf barBytes
  simp only [List.append_assoc, leAt_leBytes]
  simp only [leAt_leBytes_skip (show 2 ≤ 2 by decide), leAt_leBytes_skip (show 2 ≤ 4 by decide),
    leAt_leBytes_skip (show 2 ≤ 5 by decide), leAt_leBytes_skip (show 2 ≤ 6 by decide), leAt_leBytes_skip (show 2 ≤ 8 by decide),
    leAt_leBytes_skip (show 2 ≤ 3 by decide), leAt_leBytes_skip (show 1 ≤ 1 by decide), leAt_leBytes_skip (show 1 ≤ 2 by decide),
    leAt_leBytes_skip (show 1 ≤ 4 by decide), leAt_leBytes_skip (show 1 ≤ 3 by decide), Nat.sub_self, Nat.reduceSub, leAt_leBytes,
    hflag, hlast, BitVec.ofNat_toNat, BitVec.setWidth_eq, hpend]
  rw [Nat.mod_eq_of_lt (show c.expect < 256 ^ 2 by omega), Nat.mod_eq_of_lt (show c.arrived < 256 ^ 2 by omega),
    Nat.mod_eq_of_lt (show c.record < 256 ^ 2 by omega)]

/-- The bytes of a scratchpad that have just been stored. -/
theorem spadBytes_spadStore {s : State} (hw : Memory.wf s.mem = true) (c : Core) (off : Nat) (bs : List Byte) :
    spadBytes (spadStore s c off bs) c off bs.length = bs := by
  rw [spadBytes_eq]
  apply List.ext_getElem
  · simp
  · intro i _ hi
    rw [List.getElem_map, List.getElem_range]
    exact spadSet_in hw c off bs i hi

theorem barRead_barWrite {s : State} (hw : Memory.wf s.mem = true) (n : Fin 512) (off : Nat) {c : BarObj}
    (hc : barOf (barBytes c) = c) : barRead (barWrite s n off c) n off = c := by
  have := spadBytes_spadStore hw (s.coreAt n) off (barBytes c)
  rw [barBytes_length] at this
  exact (congrArg barOf this).trans hc

theorem barWrite_frame {s : State} (hw : Memory.wf s.mem = true) (n : Fin 512) (off : Nat) (c : BarObj) (k : Nat)
    (h : ∀ i < 16, k ≠ spadAt (s.coreAt n) (off + i)) : memGet (barWrite s n off c).mem k = memGet s.mem k :=
  spadSet_out hw _ _ _ _ (by rwa [barBytes_length])

/-! ## The address -/

theorem barSpot_eq {s : State} {a : Word} {n : Fin 512} {off : Nat} (h : BarrierAt s a n off) : barSpot s a = .ok (n, off) := by
  obtain ⟨hoff, _, ⟨hn, ha⟩ | ⟨m, hm, hne, hn, ha, hd, hr⟩, _⟩ := h
  · have hc : classify s.core.agent a = .spad off := by
      unfold classify memberOf
      dsimp only
      rcases ha with ha | ha
      · rw [if_neg (by omega), if_pos (by omega)]
        congr 1; omega
      · rw [if_neg (by omega), if_neg (by omega), if_neg (by omega), if_pos (by omega), if_pos (by omega)]
        congr 1; omega
    rw [barSpot, hc, hn]
  · have hc : classify s.core.agent a = .peer m off := by
      unfold classify memberOf
      dsimp only
      rw [if_neg (by omega), if_neg (by omega), if_neg (by omega), if_pos (by omega), if_neg (by omega)]
      congr 1 <;> omega
    subst hn
    simp only [barSpot, hc, peer_ok hd hr]

theorem barPoison_none {s : State} {a : Word} {n : Fin 512} {off : Nat} (h : BarrierAt s a n off) :
    spadPoison s (s.coreAt n) off 16 = none := spadPoison_none _ _ _ _ h.2.2.2

/-- A barrier operation at a sound object. -/
theorem barOp_eq {s : State} {rs : List SReg} {ra : SReg} {n : Fin 512} {off : Nat} (h : BarrierAt s (s.sreg ra) n off)
    (hp : ∀ p, s.ord.release = some p → p.arrive = false) (hr : ready s rs = true) (f : State → Fin 512 → Nat → State) :
    barOp rs ra s f = .next (f s n off) := by
  have hno : (s.ord.release.any fun p => p.arrive) = false := by
    cases hq : s.ord.release with
    | none => rfl
    | some p => exact hp p hq
  have hal : ¬(s.sreg ra).toNat % 16 ≠ 0 := not_not.mpr h.2.1
  refine (sccOp_ready hr _).trans (congrArg _ ?_)
  simp only [hno, Bool.false_eq_true, if_false, if_neg hal, barSpot_eq h, barPoison_none h, Option.isSome_none]

/-! ## The waiter -/

theorem woken_some {s : State} {n : Fin 512} {off : Nat} {l : List Import} (h : s.scc.barrier = some (n, off, some l)) :
    woken s n off = some l := by simp [woken, h]

theorem woken_none {s : State} {n : Fin 512} {off : Nat} (h : ∀ l, s.scc.barrier ≠ some (n, off, some l)) : woken s n off = none := by
  unfold woken
  split
  · rename_i m o l hb
    split
    · rename_i he
      obtain ⟨rfl, rfl⟩ := he
      cases l with
      | none => rfl
      | some l => exact absurd hb (h l)
    · rfl
  · rfl

/-- Settles O19: each form acts on the object that its address names. -/
theorem barrierObjects : Obligations.BarrierObjects := by
  intro o s n off hbar hp
  have hbits (v : Nat) : bits v 0 16 = v % 2 ^ 16 := by simp [bits]
  dsimp only
  refine ⟨fun hr => ⟨fun hv hz => ?_, fun hbad => ?_, fun hv => ?_, fun hv => ?_, fun l hl => ?_, fun hl => ⟨?_, ?_, ?_⟩⟩,
    fun hr => ⟨?_, ?_, ?_⟩, fun c hw he ha hrec hlo hhi => ⟨?_, fun k hk => ?_⟩⟩
  · refine ((exec_barinit o s).trans (barOp_eq hbar hp hr _)).trans (congrArg _ ?_)
    have hok : ¬(2 ^ 32 ≤ (s.sreg o.b).toNat ∨ (s.sreg o.b).toNat % 2 ^ 16 = 0) := by omega
    have hhigh : bits (s.sreg o.b).toNat 16 16 = (s.sreg o.b).toNat / 2 ^ 16 := by simp only [bits]; omega
    simp only [hbits, hhigh, if_neg hok]
    rfl
  · refine ((exec_barinit o s).trans (barOp_eq hbar hp hr _)).trans (congrArg _ ?_)
    simp only [hbits, if_pos hbad]
    rfl
  · refine ((exec_barexp o s).trans (barOp_eq hbar hp hr _)).trans (congrArg _ ?_)
    simp only [if_neg (Nat.not_le.mpr hv)]
    rfl
  · refine ((exec_barexp o s).trans (barOp_eq hbar hp hr _)).trans (congrArg _ ?_)
    simp only [if_pos hv]
    rfl
  · refine ((exec_barwait o s).trans (barOp_eq hbar hp hr _)).trans (congrArg _ ?_)
    simp only [woken_some hl]
    rfl
  · intro hov
    refine ((exec_barwait o s).trans (barOp_eq hbar hp hr _)).trans (congrArg _ ?_)
    simp only [woken_none hl, hov, if_true]
    rfl
  · intro hov hph
    refine ((exec_barwait o s).trans (barOp_eq hbar hp hr _)).trans (congrArg _ ?_)
    simp only [woken_none hl, hov, Bool.false_eq_true, if_false, bne_iff_ne.mpr hph, if_true]
    rfl
  · intro hov hph
    refine ((exec_barwait o s).trans (barOp_eq hbar hp hr _)).trans (congrArg _ ?_)
    simp only [woken_none hl, hov, Bool.false_eq_true, if_false, hph, bne_self_eq_false]
    rfl
  · intro hov
    refine ((exec_bartest o s).trans (barOp_eq hbar hp hr _)).trans (congrArg _ ?_)
    simp only [hov, if_true]
    rfl
  · intro hov hph
    refine ((exec_bartest o s).trans (barOp_eq hbar hp hr _)).trans (congrArg _ ?_)
    simp only [hov, Bool.false_eq_true, if_false, bne_iff_ne.mpr hph, if_true, retire_setS]
    rfl
  · intro hov hph
    refine ((exec_bartest o s).trans (barOp_eq hbar hp hr _)).trans (congrArg _ ?_)
    simp only [hov, Bool.false_eq_true, if_false, hph, bne_self_eq_false, retire_setS]
  · exact barRead_barWrite hw n off (barOf_barBytes he ha hrec hlo hhi)
  · exact barWrite_frame hw n off c k hk

/-! ## Arrivals -/

/-- The state after an arrival that does not exceed EXPECT. -/
def arrivedState (x : State) (n : Fin 512) (off : Nat) : State :=
  bumpEpoch (completeCheck (barWrite (recordArrival x n (barRead x n off) x.core.agent x.core.epoch) n off
    { barRead x n off with arrived := (barRead x n off).arrived + 1 }) n off)

theorem arrive_some {x : State} {n : Fin 512} {off : Nat} (h : (barRead x n off).arrived + 1 ≤ (barRead x n off).expect) :
    arrive x n off = some (arrivedState x n off, (barRead x n off).phase) := by
  rw [arrive, if_neg (Nat.not_lt.mpr h)]
  rfl

theorem arrive_none {x : State} {n : Fin 512} {off : Nat} (h : (barRead x n off).expect < (barRead x n off).arrived + 1) :
    arrive x n off = none := if_pos h

section
variable {o : Sa} {s : State} (hr : ready s [o.d, o.a] = true)
include hr

theorem bararr_eq {n : Fin 512} {off : Nat} (h : BarrierAt s (s.sreg o.a) n off) (hrel : s.ord.release = none) : exec (.bararr o) s = .next (
    if doneBefore s s.scc.idx && s.core.inOrder then
      match arrive s n off with
      | none => trap s (stageOverrun 1 (s.sreg o.a))
      | some (t, phase) => wrote t o.d (if phase then 1 else 0)
    else (passed s).modOrd fun r => { r with release := some ⟨true, o.d, .clearing, s.sreg o.a, 0, s.scc.idx, none⟩ }) := by
  have hal : ¬(s.sreg o.a).toNat % 16 ≠ 0 := not_not.mpr h.2.1
  refine (exec_bararr o s).trans ((sccOp_ready hr _).trans (congrArg _ ?_))
  simp only [hrel, Option.isSome_none, Bool.false_eq_true, if_false, if_neg hal, barSpot_eq h, barPoison_none h, retire_setS]
  rfl

theorem bararr_holds (hrel : s.ord.release ≠ none) : exec (.bararr o) s = .next (waiting s) := by
  refine (exec_bararr o s).trans ((sccOp_ready hr _).trans (congrArg _ ?_))
  simp only [Option.isSome_iff_ne_none.mpr hrel, if_true]
  rfl

end

theorem coreAt_modOrd (s : State) (f : OrdRegs → OrdRegs) (n : Fin 512) :
    ((s.modOrd f).coreAt n).agent = (s.coreAt n).agent ∧ ((s.modOrd f).coreAt n).bfmt = (s.coreAt n).bfmt := by
  have hagent : (s.modOrd f).core.agent = s.core.agent := rfl
  have hothers : (s.modOrd f).others = s.others := rfl
  unfold State.coreAt
  rw [hagent, hothers]
  split
  · exact ⟨rfl, rfl⟩
  · exact ⟨rfl, rfl⟩

theorem spadAt_modOrd (s : State) (f : OrdRegs → OrdRegs) (n : Fin 512) (off : Nat) :
    spadAt ((s.modOrd f).coreAt n) off = spadAt (s.coreAt n) off := by
  obtain ⟨hagent, hfmt⟩ := coreAt_modOrd s f n
  unfold spadAt bankFmt
  rw [hagent, hfmt]

theorem barRead_modOrd (s : State) (f : OrdRegs → OrdRegs) (n : Fin 512) (off : Nat) : barRead (s.modOrd f) n off = barRead s n off := by
  unfold barRead
  rw [spadBytes_eq, spadBytes_eq]
  simp only [spadAt_modOrd]
  rfl

theorem spadPoison_modOrd {s : State} (f : OrdRegs → OrdRegs) (n : Fin 512) {off k : Nat}
    (h : ∀ i < k, spadAt (s.coreAt n) (off + i) / 64 ∉ s.poison) : spadPoison (s.modOrd f) ((s.modOrd f).coreAt n) off k = none := by
  have hpoison : (s.modOrd f).poison = s.poison := rfl
  refine spadPoison_none _ _ _ _ fun i hi => ?_
  rw [spadAt_modOrd, hpoison]
  exact h i hi

/-- The pending arrival of the core in focus is made. -/
theorem sendRelease_arrive {u : State} {p : PendingRel} {n : Fin 512} {off : Nat} (hrel : u.ord.release = some p)
    (ha : p.arrive = true) (hd : doneBefore u p.idx = true) (h : BarrierAt u p.addr n off)
    (hle : (barRead u n off).arrived + 1 ≤ (barRead u n off).expect) :
    sendRelease u = (arrivedState (u.modOrd fun r => { r with release := none }) n off).setS p.reg
      (if (barRead u n off).phase then 1 else 0) := by
  have hpoison := spadPoison_modOrd (fun r => { r with release := none }) n h.2.2.2
  have hread := barRead_modOrd u (fun r => { r with release := none }) n off
  have harr := arrive_some (x := u.modOrd fun r => { r with release := none }) (by rw [hread]; exact hle)
  unfold sendRelease sendBararr
  rw [hrel]
  dsimp only
  rw [if_pos hd, if_pos ha, barSpot_eq h]
  dsimp only
  rw [hpoison, harr, hread, if_neg (by decide)]

/-! ## Timeouts -/

theorem barTimeout_eq {u : State} {n : Fin 512} {off since : Nat} (hb : u.scc.barrier = some (n, off, none))
    (hh : u.scc.hold = some since) : barTimeout u =
      if u.die.bartmo.toNat ≠ 0 ∧ u.die.bartmo.toNat < u.die.cycle.toNat - since then
        trap u (failAt .stagetimeout (timeoutStatus (barRead u n off)) (barWindow u n off))
      else u := by
  unfold barTimeout
  rw [hb, hh]
  rfl

theorem completeCheck_flips {x : State} {n : Fin 512} {off : Nat}
    (h : (barRead x n off).arrived = (barRead x n off).expect ∧ (barRead x n off).pending = 0 ∧ (barRead x n off).overrun = false) :
    (completeCheck x n off).mem = (barWrite x n off { barRead x n off with phase := !(barRead x n off).phase, arrived := 0 }).mem := by
  have hc : (barRead x n off).complete = true := by simp [BarObj.complete, h]
  unfold completeCheck
  dsimp only
  rw [if_pos hc]

theorem completeCheck_waits {x : State} {n : Fin 512} {off : Nat}
    (h : ¬((barRead x n off).arrived = (barRead x n off).expect ∧ (barRead x n off).pending = 0 ∧ (barRead x n off).overrun = false)) :
    completeCheck x n off = x := by
  have hc : ¬(barRead x n off).complete = true := by simpa [BarObj.complete, and_assoc] using h
  unfold completeCheck
  dsimp only
  rw [if_neg hc]

/-- Settles O20: an arrival that may be made is made by the instruction, or later by the step that sends it. -/
theorem barrierArrivals : Obligations.BarrierArrivals := by
  refine ⟨⟨fun o s n off h hr => ⟨bararr_holds hr, fun hrel hd ho => ⟨fun hle => ?_, fun hlt => ?_⟩, fun hrel hwait => ?_⟩,
    fun core p s n off hrel ha hd h hle => ?_, fun x n off => ⟨completeCheck_flips, completeCheck_waits⟩⟩,
    fun core s n off since hb hh => ⟨fun hlate => ?_, fun hlate => ?_⟩⟩
  · rw [bararr_eq hr h hrel, hd, ho, arrive_some hle, Bool.and_self, if_pos rfl]
    rfl
  · rw [bararr_eq hr h hrel, hd, ho, arrive_none hlt, Bool.and_self, if_pos rfl]
    rfl
  · have hno : ¬(doneBefore s s.scc.idx && s.core.inOrder) = true := by
      rcases hwait with hwait | hwait <;> simp [hwait]
    rw [bararr_eq hr h hrel, if_neg hno]
  · rw [exec_releaseSend, execReleaseSend, atCore, sendRelease_arrive hrel ha hd h hle]
    exact congrArg (fun v => Host.Outcome.next (State.focus v s.core.agent)) (setS_eq ..)
  · rw [exec_barwaitTimeout, execBarwaitTimeout, atCore, barTimeout_eq hb hh, if_pos hlate]
    rfl
  · rw [exec_barwaitTimeout, execBarwaitTimeout, atCore, barTimeout_eq hb hh, if_neg hlate]

end Sys2Proof.StageBarriers

/-! # SPAWN and SPAWNX (09 R275, R276) -/

namespace Sys2Proof.Spawns

open Sys2Proof.Machine Sys2Proof.Safety Sys2Proof.StepsAndTraps

/-! ## The request -/

theorem launchFlags_eq (s : State) (t : Task) :
    launchFlags s t = ((s.launchOf t).map fun l => (l.stealx, l.stealp, l.fwd)).getD (false, false, false) := by
  unfold launchFlags
  cases s.launchOf t <;> rfl

theorem launchFlags_fwd (s : State) (t : Task) : (launchFlags s t).2.2 = ((s.launchOf t).map (·.fwd)).getD false := by
  unfold launchFlags
  cases s.launchOf t <;> rfl

theorem bad_iff (r : SpawnReq) (t : Task) :
    r.bad t = true ↔ r.clean = false ∨ t.obj.stageCount ≤ r.stage ∨ r.hi < r.lo ∨ 2 ^ 48 < r.hi := by
  simp only [SpawnReq.bad, Bool.or_eq_true, Bool.not_eq_true', decide_eq_true_eq, or_assoc]

theorem spawnReady_iff (s : State) (t : Task) : spawnReady s t = true ↔
    allDone s = true ∧ storeFree s (dieOf s.core.agent) = true ∧ (s.joinAt t.childJoin).expected < 2 ^ 24 - 1 := by
  simp only [spawnReady, Bool.and_eq_true, decide_eq_true_eq, and_assoc]

theorem forwardDie_none {s : State} {d : Fin 8} {t : Task} (h : t.fwd = false) : forwardDie s d t = none := by
  unfold forwardDie
  split
  · rw [if_neg (by simp [h])]
  · rfl

/-! ## The child -/

/-- The state and the child of a spawn that is neither malformed nor empty. -/
def spawned (s : State) (t : Task) (r : SpawnReq) : State × Task := withJoin (bumpEpoch (s.expect t.childJoin)) (r.child s t)

theorem spawned_rest (s : State) (t : Task) (r : SpawnReq) :
    (spawned s t r).1.tasks = s.tasks ∧ (spawned s t r).1.mem = s.mem ∧ (spawned s t r).1.core.regs = s.core.regs ∧
    (spawned s t r).1.core.epoch = s.core.epoch + 1 ∧
    (spawned s t r).1.joins =
      (s.joins.modify t.childJoin fun j => { j with expected := j.expected + 1 }) ++ [⟨0, 0, 0, 0, []⟩] :=
  ⟨rfl, rfl, rfl, rfl, rfl⟩

theorem spawned_child (s : State) (t : Task) (r : SpawnReq) :
    (spawned s t r).2 = { r.child s t with childJoin := s.joins.length } := by
  have hlen : (s.joins.modify t.childJoin fun j => { j with expected := j.expected + 1 }).length = s.joins.length :=
    List.length_modify ..
  show { r.child s t with childJoin := (s.joins.modify t.childJoin fun j => { j with expected := j.expected + 1 }).length } = _
  rw [hlen]

section
variable {s : State} {d : SReg} {t : Task} {r : SpawnReq} (hok : r.bad t = false) (hready : spawnReady s t = true)
include hok hready

theorem spawn_empty (h : r.lo = r.hi) : spawn s d t r = wrote (released s) d 0 := by
  unfold spawn
  rw [hok, hready, if_neg (by decide), if_neg (by decide), if_pos h]
  exact retire_setS ..

theorem spawn_here (h : r.lo ≠ r.hi) (hf : r.fwd = false) : spawn s d t r =
    wrote (placeHere (spawned s t r).1 (dieOf s.core.agent) (clearingOf s.core.agent) (spawned s t r).2).1 d
      ((placeHere (spawned s t r).1 (dieOf s.core.agent) (clearingOf s.core.agent) (spawned s t r).2).2.setWidth 64) := by
  have hnone : forwardDie s (dieOf s.core.agent) (spawned s t r).2 = none :=
    forwardDie_none (by rw [spawned_child]; exact hf)
  unfold spawn
  rw [hok, hready, if_neg (by decide), if_neg (by decide), if_neg h, ← retire_setS]
  show (match forwardDie s (dieOf s.core.agent) (spawned s t r).2 with | some _ => _ | none => _) = _
  rw [hnone]
  rfl

end

theorem taskId_eq (serial : BitVec 8) (n : Fin 512) (k : Nat) :
    taskId serial (dieOf n) k = BitVec.ofNat 32 (serial.toNat * 2 ^ 24 + n.val / 64 * 2 ^ 21 + k % 2 ^ 21) := by
  have hdie : (dieOf n).val = n.val / 64 := by
    simp only [dieOf, Fin.ofNat]
    omega
  rw [taskId, hdie]

/-- A form that performs a spawn does what a spawn does. -/
theorem spawns_of_exec {i : Instr} {d : SReg} {q : SpawnReq} {t : Task} {s : State} (h : exec i s = .next (spawn s d t q)) :
    Spawns i d q t s := by
  unfold Spawns
  dsimp only
  rw [← bad_iff, ← spawnReady_iff, h]
  refine ⟨fun hbad => ?_, fun hok hwait => ?_, fun hok hready he => ?_, fun hok hready he hf => ?_⟩
  · rw [spawn, if_pos hbad]
    rfl
  · rw [spawn, if_neg hok, if_pos (by simpa using hwait)]
    rfl
  · rw [spawn_empty (by simpa using hok) hready he]
  · rw [spawn_here (by simpa using hok) hready he hf]
    obtain ⟨htasks, hmem, hregs, hepoch, hjoins⟩ := spawned_rest s t q
    have hchild := spawned_child s t q
    generalize spawned s t q = c at *
    obtain ⟨n, core, place, hid, htasks', hmem', hjoins', hregs', hepoch'⟩ :=
      placeHere_task c.1 (dieOf s.core.agent) (clearingOf s.core.agent) c.2
    generalize placeHere c.1 (dieOf s.core.agent) (clearingOf s.core.agent) c.2 = p at *
    rw [hchild] at hid htasks'
    refine ⟨p.1, _, p.2, place, rfl, htasks'.trans (by rw [htasks]), hmem'.trans hmem, hregs'.trans hregs, hepoch'.trans hepoch,
      hjoins'.trans hjoins, ⟨n, ?_⟩, ?_, ?_⟩
    · exact hid.trans (taskId_eq ..)
    · rw [hid]
      rfl
    · exact congrArg (fun f => (t.ctx, t.serial, t.launch, q.stealx, q.stealp, f, (0 : Word), ([] : List Handle), false)) hf

/-! ## The forms -/

/-- A record image that the SCC reads where no poison lies. -/
theorem readOperand_eq {s : State} {a : Word} {n : Nat} {key : Nat → Nat} (h : Reach s .read n a key) (hs : Sound s n key)
    (hacc : ¬∃ off < 2 ^ 19, a.toNat = 0x8010000000000000 + off) :
    operandHeld s .read a = false ∧ readOperand s a n = .ok ((List.range n).map fun i => memGet s.mem (key i)) := by
  unfold operandHeld readOperand
  rcases reach_locate h with ⟨m, off, hl, hk, _, _⟩ | ⟨off, hl, hk, _⟩ | ⟨p, hl, hk, hmode, hcheck, hmig, _⟩
  · rw [hl]
    dsimp only
    rw [spadPoison_none _ _ _ _ fun i hi => by rw [← hk]; exact hs i hi, spadBytes_eq, if_neg (by decide), funext hk]
    exact ⟨rfl, rfl⟩
  · cases h with
    | acc off h ha _ _ => exact absurd ⟨off, h, ha⟩ hacc
    | own off' h ha => rw [locate_own h ha] at hl; cases hl
    | member m off' hm hn h ha hd hr => rw [locate_member hm hn h ha, peer_ok hd hr] at hl; cases hl
    | page p ha ht _ _ _ _ => rw [locate_global ha, ht] at hl; cases hl
  · have hforward : forwardKey s p.key = p.key := by rw [forwardKey, hmig]
    have hpoison : firstPoison s.poison p.key n = none := firstPoison_of_sound (by rwa [← funext hk])
    have hread : readHbm s (dieOf s.core.agent) s.ctx p n false = (List.range n).map fun i => memGet s.mem (key i) := by
      have hdirect : (p.leaf.mode != 2) = true := by simp; omega
      simp only [readHbm, hforward, hdirect, Bool.or_true, if_true, State.bytes, bytes_eq, hk]
    rw [hl]
    dsimp only
    rw [heldByMigration, hmig, raceCheck_off s _ p _ hcheck]
    dsimp only
    rw [hforward, hpoison, hread]
    exact ⟨rfl, rfl⟩

theorem spawn_waits {o : Sa} {s : State} {t : Task} (ht : s.core.task = some t) (hr : ready s [o.d, o.a] = true)
    (hsent : s.scc.sent = true) : exec (.spawn o) s = .next (spawnAnswer s o.d) := by
  refine (exec_spawn o s).trans ((sccOp_ready hr _).trans (congrArg _ ?_))
  simp only [ht, hsent, if_true]

theorem spawn_reads {o : Sa} {s : State} {t : Task} (ht : s.core.task = some t) (hr : ready s [o.d, o.a] = true)
    (hsent : s.scc.sent = false) : exec (.spawn o) s = .next (
      if (s.sreg o.a).toNat % 64 ≠ 0 then trap s (failAt .align 64 (s.sreg o.a))
      else if operandHeld s .read (s.sreg o.a) then holds s
      else
        match readOperand s (s.sreg o.a) 64 with
        | .error e => trap s e
        | .ok bs => spawn s o.d t (imageReq s t bs)) := by
  refine (exec_spawn o s).trans ((sccOp_ready hr _).trans (congrArg _ ?_))
  simp only [ht, hsent, Bool.false_eq_true, if_false] <;> rfl

/-- Settles O21: both forms build their request and perform one spawn. -/
theorem spawning : Obligations.Spawning := by
  intro o x s t ht
  refine ⟨fun hr hsent => ⟨fun hal => ?_, fun key hal hreach hsound hacc => spawns_of_exec ?_⟩,
    fun hr hsent => spawns_of_exec ?_, fun hr hsent => ⟨fun ha => ?_, fun id ha => ?_⟩⟩
  · rw [spawn_reads ht hr hsent, if_pos hal]
    rfl
  · obtain ⟨hheld, hread⟩ := readOperand_eq hreach hsound hacc
    rw [spawn_reads ht hr hsent, if_neg (not_not.mpr hal), hheld, hread]
    dsimp only
    rw [if_neg (by decide), imageReq, launchFlags_eq]
    simp only [bit_eq_testBit, bits, Nat.pow_zero, Nat.div_one]
    rfl
  · refine (exec_spawnx x s).trans ((sccOp_ready hr _).trans (congrArg _ ?_))
    simp only [ht, hsent, Bool.false_eq_true, if_false, launchFlags_fwd, bit_eq_testBit, bits, Nat.pow_zero, Nat.div_one]
    rfl
  · rw [spawn_waits ht hr hsent, spawnAnswer, ha]
    rfl
  · rw [spawn_waits ht hr hsent, spawnAnswer, ha]
    exact congrArg _ (retire_setS ..)

end Sys2Proof.Spawns

/-! # Vector commands that a free VE performs at once (05 R111) -/

namespace Sys2Proof.VectorCommands

open Sys2Proof.Machine Sys2Proof.Safety Sys2Proof.StepsAndTraps

/-! ## Performed at dispatch -/

section
variable {s : State} (h : VeFree s) {i : Instr} (ha : VeAllowed i s) {regs : List SReg} (hr : ready s regs = true)
  (hexec : exec i s = dispatchVe i regs s) {r : Except Fail State}
  (hrun : veRun (mkCmd i (regs.map s.sreg) s) (passed s) = veRes (passed s) r)
include h ha hr hexec hrun

theorem exec_ve_ok {t : State} (hok : r = .ok t) : exec i s = .next t := by
  rw [hexec, dispatchVe_free h ha hr, hrun, hok]
  rfl

theorem exec_ve_error {e : Fail} (he : r = .error e) : exec i s = .next (veStopped i (regs.map s.sreg) s e) := by
  rw [hexec, dispatchVe_free h ha hr, hrun, he]
  exact congrArg _ (veRes_stop h i _ e)

end

/-! ## Flags -/

theorem foldl_or_start {α : Type} (g : α → Flags) (l : List α) (a b : Flags) :
    l.foldl (fun x r => x ||| g r) (a ||| b) = a ||| l.foldl (fun x r => x ||| g r) b := by
  induction l generalizing b with
  | nil => rfl
  | cons x l ih => rw [List.foldl_cons, List.foldl_cons, BitVec.or_assoc, ih]

theorem flagsOf_eq (f : Flags) (res : List (Nat × Conv)) : flagsOf f res = f ||| allFlags (res.map (·.2.2)) := by
  have := foldl_or_start (fun r : Nat × Conv => r.2.2) res f 0
  rw [show f ||| 0 = f from BitVec.or_zero] at this
  rw [flagsOf, this, allFlags, List.foldl_map]

/-! ## A command that works element by element -/

/-- What a command of the description `w` does. -/
def performOp (x : State) (w : VecOp) : Except Fail State :=
  match readSrcs x w.src with
  | .error e => .error e
  | .ok (xs, u, f) => finishElems u w.dst w.ty (vecResults x w xs) f w.random

/-- A command does what its description says if it does so for each outcome of reading its sources. -/
theorem eq_performOp {x : State} {w : VecOp} {r : Except Fail State} (he : ∀ e, readSrcs x w.src = .error e → r = .error e)
    (hok : ∀ xs u f, readSrcs x w.src = .ok (xs, u, f) → r = finishElems u w.dst w.ty (vecResults x w xs) f w.random) :
    r = performOp x w := by
  unfold performOp
  split
  · exact he _ ‹_›
  · exact hok _ _ _ ‹_›

theorem vecResults_rising (s : State) (w : VecOp) (xs : List VWord) :
    (vecResults s w xs).Pairwise (fun a b => a.1 < b.1) ∧ ∀ r ∈ vecResults s w xs, r.1 < w.ty.count := by
  have hfst {n : Nat} {r : Nat × Conv}
      (h : (if enabled (s.preg w.pred) w.ty n then (w.res xs n).map fun r => (n, r) else none) = some r) : r.1 = n := by
    split at h
    · obtain ⟨c, _, rfl⟩ := Option.map_eq_some_iff.mp h
      rfl
    · cases h
  unfold vecResults
  constructor
  · rw [List.pairwise_filterMap]
    refine List.pairwise_lt_range.imp fun hab a ha b hb => ?_
    rw [hfst ha, hfst hb]
    exact hab
  · intro r hr
    obtain ⟨n, hn, hr⟩ := List.mem_filterMap.mp hr
    rw [hfst hr]
    exact List.mem_range.mp hn

theorem counted_eq (v : State) (f : Flags) (random : Bool) :
    (if random then (v.addFlags f).modFp fun r => { r with rngcnt := r.rngcnt + 1 } else v.addFlags f) = counted v f random := by
  cases random <;> rfl

section
variable {u : State} {d : VCode} {t : Ty} {res : List (Nat × Conv)} {f : Flags} {rng : Bool}

theorem finishElems_dest {e : Fail} (he : writeDst u d 0 0 = .error e) : finishElems u d t res f rng = .error e := by
  simp only [finishElems, checkDst, he]

variable {y : State × Flags} (hy : writeDst u d 0 0 = .ok y)
include hy

theorem finishElems_nan {e : Fail} (he : firstNan u t res = some e) : finishElems u d t res f rng = .error e := by
  simp only [finishElems, checkDst, hy, he]

theorem finishElems_done (hn : firstNan u t res = none) (hrise : res.Pairwise fun a b => a.1 < b.1) (hlt : ∀ r ∈ res, r.1 < t.count) :
    ∃ z m v g, writeDst u d z m = .ok (v, g) ∧ Placed t res z m ∧
      finishElems u d t res f rng = .ok (counted v (flagsOf (f ||| g) res) rng) := by
  obtain ⟨v, g, hwrite⟩ := writeDst_any hy (elemWord t (res.map fun r => (r.1, r.2.1))) (elemMask t (res.map (·.1)))
  refine ⟨_, _, v, g, hwrite, placed_elemWord t _ hrise hlt, ?_⟩
  simp only [finishElems, checkDst, hy, hn, hwrite]
  rw [counted_eq, flagsOf_eq]

end

section
variable {x u : State} {w : VecOp} {xs : List VWord} {f : Flags}

theorem performOp_source {e : Fail} (h : readSrcs x w.src = .error e) : performOp x w = .error e := by
  rw [performOp, h]

variable (h : readSrcs x w.src = .ok (xs, u, f))
include h

theorem performOp_read : performOp x w = finishElems u w.dst w.ty (vecResults x w xs) f w.random := by
  rw [performOp, h]

variable {y : State × Flags} (hy : writeDst u w.dst 0 0 = .ok y)
include hy

theorem performOp_nan {e : Fail} (he : firstNan x w.ty (vecResults x w xs) = some e) : performOp x w = .error e := by
  rw [performOp_read h]
  obtain ⟨p, rfl⟩ := readSrcs_shape h
  exact finishElems_nan hy he

theorem performOp_done (hn : firstNan x w.ty (vecResults x w xs) = none) : ∃ z m v g, writeDst u w.dst z m = .ok (v, g) ∧
    Placed w.ty (vecResults x w xs) z m ∧
    performOp x w = .ok (counted v (flagsOf (f ||| g) (vecResults x w xs)) w.random) := by
  obtain ⟨hrise, hlt⟩ := vecResults_rising x w xs
  rw [performOp_read h]
  obtain ⟨p, rfl⟩ := readSrcs_shape h
  exact finishElems_done hy hn hrise hlt

end

/-! ## Registers as operands -/

theorem readSrcs_regs {x : State} {cs : List VCode} (h : ∀ c ∈ cs, c.val < 56) :
    readSrcs x cs = .ok (cs.map fun c => x.vreg (regNum c), x, 0) := by
  induction cs with
  | nil => rfl
  | cons c cs ih =>
    rw [readSrcs, readSrc, if_pos (h c List.mem_cons_self)]
    dsimp only
    rw [ih fun d hd => h d (List.mem_cons_of_mem _ hd)]
    rfl

theorem writeDst_reg {u : State} {d : VCode} (hd : d.val < 56) (z m : VWord) :
    writeDst u d z m = .ok (u.setV (regNum d) (maskedWord (u.vreg (regNum d)) z m), 0) := by
  rw [writeDst, if_pos hd]

/-- Bits of a word under a mask. -/
theorem maskedWord_bit (old z m : VWord) (k : Nat) :
    (maskedWord old z m).getLsbD k = if m.getLsbD k then z.getLsbD k else old.getLsbD k := by
  unfold maskedWord
  by_cases hk : k < 2048
  · simp only [BitVec.getLsbD_or, BitVec.getLsbD_and, BitVec.getLsbD_not, hk, decide_true, Bool.true_and]
    cases m.getLsbD k <;> simp
  · simp only [fun z : VWord => BitVec.getLsbD_of_ge z k (by omega), ite_self]

theorem elem_lt (t : Ty) (x : VWord) (n : Nat) : elem t x n < 2 ^ t.width := Nat.mod_lt _ (Nat.two_pow_pos _)

/-- Two elements with the same bits are the same. -/
theorem elem_eq_of_bits {t : Ty} {x y : VWord} {n m : Nat}
    (h : ∀ r < t.width, x.getLsbD (t.width * n + r) = y.getLsbD (t.width * m + r)) : elem t x n = elem t y m := by
  apply Nat.eq_of_testBit_eq
  intro r
  by_cases hr : r < t.width
  · rw [← getLsbD_elem t x n r hr, ← getLsbD_elem t y m r hr, h r hr]
  · have hbig (z : VWord) (k : Nat) : (elem t z k).testBit r = false :=
      Nat.testBit_lt_two_pow (Nat.lt_of_lt_of_le (elem_lt t z k) (Nat.pow_le_pow_right (by omega) (by omega)))
    rw [hbig, hbig]

theorem elem_maskedWord_set {t : Ty} {old z m : VWord} {n : Nat} (h : elem t m n = 2 ^ t.width - 1) :
    elem t (maskedWord old z m) n = elem t z n := by
  refine elem_eq_of_bits fun r hr => ?_
  rw [maskedWord_bit, getLsbD_elem t m n r hr, h, Nat.testBit_two_pow_sub_one, decide_eq_true hr, if_pos rfl]

theorem elem_maskedWord_clear {t : Ty} {old z m : VWord} {n : Nat} (h : elem t m n = 0) :
    elem t (maskedWord old z m) n = elem t old n := by
  refine elem_eq_of_bits fun r hr => ?_
  rw [maskedWord_bit, getLsbD_elem t m n r hr, h, Nat.zero_testBit, if_neg (by decide)]

/-! ## The commands -/

theorem filterMap_ite_some {α β : Type} (p : α → Bool) (g : α → β) (l : List α) :
    (l.filterMap fun n => if p n then some (g n) else none) = (l.filter p).map g := by
  induction l with
  | nil => rfl
  | cons a l ih =>
    by_cases h : p a = true
    · simp only [List.filterMap_cons, List.filter_cons, h, if_true, List.map_cons, ih]
    · simp only [List.filterMap_cons, List.filter_cons, h, if_false, ih, Bool.false_eq_true]

/-- Results of a command that gives every enabled element one. -/
theorem vecResults_some {s : State} {w : VecOp} {xs : List VWord} {g : Nat → Conv} (h : ∀ n, w.res xs n = some (g n)) :
    vecResults s w xs = (enabledElems w.ty (s.preg w.pred)).map fun n => (n, g n) := by
  unfold vecResults enabledElems
  rw [← filterMap_ite_some]
  simp only [h, Option.map_some]

/-- Results of a command that gives some enabled elements one. -/
theorem vecResults_filterMap (s : State) (w : VecOp) (xs : List VWord) :
    vecResults s w xs = (enabledElems w.ty (s.preg w.pred)).filterMap fun n => (w.res xs n).map fun r => (n, r) := by
  unfold vecResults enabledElems
  rw [List.filterMap_filter]

theorem getD_elems (t : Ty) (xs : List VWord) (n k : Nat) :
    ((xs.map BitVec.toNat).map fun y => bits y (t.width * n) t.width).getD k 0 = sourceElem t xs k n := by
  unfold sourceElem
  rw [List.map_map, List.getD_eq_getElem?_getD, List.getD_eq_getElem?_getD, List.getElem?_map]
  cases xs[k]? with
  | none =>
    have hzero : (0 : VWord).toNat = 0 := BitVec.toNat_zero
    simp only [Option.map_none, Option.getD_none, elem, bits, hzero, Nat.zero_div, Nat.zero_mod]
  | some y => rfl

theorem elementwise_eq {x : State} {w : VecOp} {f : Nat → List Nat → Conv}
    (h : ∀ xs n, w.res xs n = some (f n ((xs.map BitVec.toNat).map fun y => bits y (w.ty.width * n) w.ty.width))) :
    elementwise x w.dst w.src w.pred w.ty w.random f = performOp x w := by
  refine eq_performOp (fun e he => ?_) fun xs u g hok => ?_
  · rw [elementwise, he]
  · rw [elementwise, hok, vecResults_some (h _)]

theorem one_eq {x : State} {o : Va} {f : Ty → Nat → Conv} {g : Nat → Conv} (h : ∀ a, f o.ty a = g a) :
    one o x f = performOp x (oneSource o g) :=
  elementwise_eq (w := oneSource o g) fun xs n => by rw [getD_elems, h]; rfl

theorem two_eq {x : State} {o : Va} {f : Ty → Nat → Nat → Conv} {g : Nat → Nat → Conv} (h : ∀ a b, f o.ty a b = g a b) :
    two o x f = performOp x (twoSources o g) :=
  elementwise_eq (w := twoSources o g) fun xs n => by rw [getD_elems, getD_elems, h]; rfl

theorem fused_eq (x : State) (o : Vx) (neg : Bool) : veFused o neg x = performOp x (fused o x neg) :=
  elementwise_eq (w := fused o x neg) (f := fun i xs =>
    let rm := Rm.resolve x.fp.fpctl o.rm
    let src (x : Nat) : Val := decodeTy o.ty (flushIn o.ty o.fzi x)
    roundResult o.ty rm o.fzo false (elemDraw x o.ty i) (Val.fma rm (src (xs.getD 0 0)) (src (xs.getD 1 0))
      (if neg then (src (xs.getD 2 0)).negate else src (xs.getD 2 0)))) fun xs n => by
        dsimp only
        rw [getD_elems, getD_elems, getD_elems]
        rfl

theorem permute_eq {x : State} {o : Va} {f : (Nat → Nat) → (Nat → Nat) → Nat → Nat → Option Nat} {g : List VWord → Nat → Option Nat}
    (h : ∀ xs n, f (sourceElem o.ty xs 0) (sourceElem o.ty xs 1) (sourceElem .n32 xs 1 0) n = g xs n) :
    permute o x f = performOp x (moved o g) := by
  refine eq_performOp (fun e he => ?_) fun xs u f' hok => ?_
  · rw [permute, show readSrcs x [o.a, o.b] = _ from he]
  · rw [permute, show readSrcs x [o.a, o.b] = _ from hok, vecResults_filterMap]
    simp only [moved, ← h, Option.map_map]
    rfl

theorem rand_eq (x : State) (o : Va) : veRand o x = performOp x ⟨o.d, [], o.p, .n32, true, fun _ n =>
    some ((laneWord x.fp.seed x.fp.rngcnt n).toNat / 2 ^ 32, 0)⟩ := by
  have hbits (n : Nat) : bits (laneWord x.fp.seed x.fp.rngcnt n).toNat 32 32 = (laneWord x.fp.seed x.fp.rngcnt n).toNat / 2 ^ 32 := by
    have := (laneWord x.fp.seed x.fp.rngcnt n).isLt
    simp only [bits]
    omega
  unfold veRand performOp
  simp only [readSrcs, hbits]
  rw [vecResults_some fun _ => rfl]

theorem imad_eq {x : State} {o : Vx} (h : o.dty = .i32 ∨ o.dty = .n32) : veImad o x =
    performOp x ⟨o.d, [o.a, o.b, o.c], o.p, o.dty, false, fun xs n =>
      let x := intOf o.dty (sourceElem o.dty xs 2 n) + ((List.range (32 / o.ty.width)).map fun k =>
        intOf o.ty (sourceElem o.ty xs 0 (n * (32 / o.ty.width) + k)) * intOf o.ty (sourceElem o.ty xs 1 (n * (32 / o.ty.width) + k))).sum
      let y := max o.dty.range.1 (min o.dty.range.2 x)
      some (if o.sat then (intBits o.dty y, if y = x then 0 else Flags.satf) else (intBits o.dty x, 0))⟩ := by
  have hwidth : o.dty.width = 32 := by rcases h with h | h <;> rw [h] <;> rfl
  have hlane (xs : List VWord) (n : Nat) :
      dotLane o.ty o.dty (xs.getD 0 0).toNat (xs.getD 1 0).toNat (xs.getD 2 0).toNat n =
        intOf o.dty (sourceElem o.dty xs 2 n) + ((List.range (32 / o.ty.width)).map fun k =>
          intOf o.ty (sourceElem o.ty xs 0 (n * (32 / o.ty.width) + k)) *
            intOf o.ty (sourceElem o.ty xs 1 (n * (32 / o.ty.width) + k))).sum := by
    have hfold (l : List Nat) (g : Nat → Int) (z : Int) : l.foldl (fun a i => a + g i) z = z + (l.map g).sum := by
      induction l generalizing z with
      | nil => simp
      | cons a l ih => rw [List.foldl_cons, ih, List.map_cons, List.sum_cons, Int.add_assoc]
    rw [dotLane, hfold, laneElems, List.map_map, sourceElem, elem, hwidth]
    rfl
  have hflag (a b : Int) : Flags.whenSet (decide (a ≠ b)) Flags.satf = if a = b then 0 else Flags.satf := by
    unfold Flags.whenSet
    by_cases hab : a = b <;> simp [hab]
  refine eq_performOp (fun e he => ?_) fun xs u f hok => ?_
  · rw [veImad, show readSrcs x [o.a, o.b, o.c] = _ from he]
  · rw [veImad, show readSrcs x [o.a, o.b, o.c] = _ from hok, vecResults_some fun _ => rfl]
    simp only [hlane, hflag, wrapRes]

/-! ## Conversions -/

/-- Two lists of results in element order with the same members are the same. -/
theorem rising_ext {α : Type} {l m : List (Nat × α)} (hl : l.Pairwise fun a b => a.1 < b.1) (hm : m.Pairwise fun a b => a.1 < b.1)
    (h : ∀ r, r ∈ l ↔ r ∈ m) : l = m := by
  have hnodup {k : List (Nat × α)} (hk : k.Pairwise fun a b => a.1 < b.1) : k.Nodup :=
    hk.imp fun hab e => by rw [e] at hab; exact Nat.lt_irrefl _ hab
  refine List.Perm.eq_of_pairwise (le := fun a b : Nat × α => a.1 < b.1) ?_ hl hm
    ((List.perm_ext_iff_of_nodup (hnodup hl) (hnodup hm)).mpr h)
  intro a b _ _ hab hba
  exact absurd hab (by omega)

/-- The source element of a converted one: it is converted from within its half, or fills the destination's upper part. -/
theorem mem_cvtPairs {ns nd h n i : Nat} : (n, i) ∈ cvtPairs ns nd h ↔
    n < nd ∧ (nd ≤ ns ∨ h * ns ≤ n ∧ n < h * ns + ns) ∧ i = if nd ≤ ns then h * nd + n else n - h * ns := by
  unfold cvtPairs
  split
  · simp only [List.mem_map, List.mem_range, Prod.mk.injEq]
    constructor
    · rintro ⟨a, ha, rfl, rfl⟩
      exact ⟨ha, .inl ‹_›, rfl⟩
    · rintro ⟨ha, _, rfl⟩
      exact ⟨n, ha, rfl, rfl⟩
  · rename_i hlt
    simp only [List.mem_filterMap, List.mem_range, Option.ite_none_right_eq_some, Option.some.injEq, Prod.mk.injEq]
    constructor
    · rintro ⟨a, ha, hb, rfl, rfl⟩
      omega
    · rintro ⟨hn, hor, rfl⟩
      exact ⟨n - h * ns, by omega⟩

theorem cvtPairs_rising (ns nd h : Nat) : (cvtPairs ns nd h).Pairwise fun a b => a.1 < b.1 := by
  unfold cvtPairs
  split
  · rw [List.pairwise_map]
    exact List.pairwise_lt_range
  · rw [List.pairwise_filterMap]
    refine List.pairwise_lt_range.imp fun hab a ha b hb => ?_
    simp only [Option.ite_none_right_eq_some, Option.some.injEq] at ha hb
    rw [← ha.2, ← hb.2]
    exact Nat.add_lt_add_left hab _

theorem cvt_eq (x : State) (o : Vx) : veCvt o x =
    performOp x ⟨o.d, [o.a], o.p, o.dty, decide (Rm.resolve x.fp.fpctl o.rm = .sr), fun xs n =>
      let ns := o.ty.count
      let nd := o.dty.count
      let h := o.aux.toNat
      let i := if nd ≤ ns then h * nd + n else n - h * ns
      if nd ≤ ns ∨ h * ns ≤ n ∧ n < h * ns + ns then
        some (convertBits o.ty o.dty (Rm.resolve x.fp.fpctl o.rm) o.fzi o.fzo o.sat
          (drawVe x.fp.seed x.fp.rngcnt (lanePos o.dty n).1 (lanePos o.dty n).2) (if i < ns then sourceElem o.ty xs 0 i else 0))
      else none⟩ := by
  refine eq_performOp (fun e he => ?_) fun xs u f hok => ?_
  · rw [veCvt, show readSrcs x [o.a] = _ from he]
  · rw [veCvt, show readSrcs x [o.a] = _ from hok]
    refine congrArg (fun res => finishElems u o.d o.dty res f _) (rising_ext ?_ (vecResults_rising ..).1 fun r => ?_)
    · rw [List.pairwise_map]
      exact (cvtPairs_rising ..).filter _
    · simp only [vecResults, List.mem_map, List.mem_filter, List.mem_filterMap, List.mem_range, Option.ite_none_right_eq_some,
        Option.map_eq_some_iff, Option.some.injEq]
      constructor
      · rintro ⟨⟨n, i⟩, ⟨hmem, hen⟩, rfl⟩
        obtain ⟨hn, hor, rfl⟩ := mem_cvtPairs.mp hmem
        exact ⟨n, hn, hen, _, ⟨hor, rfl⟩, rfl⟩
      · rintro ⟨n, hn, hen, c, ⟨hor, rfl⟩, rfl⟩
        exact ⟨(n, _), ⟨mem_cvtPairs.mpr ⟨hn, hor, rfl⟩, hen⟩, rfl⟩

/-- The results of decoded elements, in element order. -/
theorem deqResults_eq {o : Vx} {s : State} {vs : List Val} (h : vs.length = o.dty.count) : deqResults o s vs =
    (enabledElems o.dty (s.preg o.p)).map fun n =>
      (n, convert o.dty (Rm.resolve s.fp.fpctl o.rm) o.fzo false (elemDraw s o.dty n) (vs.getD n .nan)) := by
  have hzip : (vs.zipIdx.map fun v => (v.2, v.1)) = (List.range o.dty.count).map fun n => (n, vs.getD n .nan) := by
    apply List.ext_getElem
    · simp [h]
    · intro n hn hn'
      have hlt : n < vs.length := by simpa using hn
      simp [List.getD_eq_getElem?_getD, List.getElem?_eq_getElem hlt]
  unfold deqResults enabledElems
  rw [hzip, List.filter_map, List.map_map]
  rfl

theorem deqMx_eq {x : State} {o : Vx} (h : o.ty ≠ .hb4) : veDeq o x =
    performOp x ⟨o.d, [o.a], o.p, o.dty, decide (Rm.resolve x.fp.fpctl o.rm = .sr), fun xs n =>
      let i := o.aux.toNat % 16 * o.dty.count + n
      some (convert o.dty (Rm.resolve x.fp.fpctl o.rm) o.fzo false
        (drawVe x.fp.seed x.fp.rngcnt (lanePos o.dty n).1 (lanePos o.dty n).2)
        (decodeMx o.ty (elem .n8 (x.vreg (Fin.ofNat 56 o.b.val)) (i / 32)) (sourceElem o.ty xs 0 i)))⟩ := by
  refine eq_performOp (fun e he => ?_) fun xs u f hok => ?_
  · rw [veDeq, show readSrcs x [o.a] = _ from he]
  · rw [veDeq, show readSrcs x [o.a] = _ from hok]
    dsimp only
    rw [if_neg h, deqResults_eq (by simp), vecResults_some fun _ => rfl]
    refine congrArg (fun res => finishElems u o.d o.dty res f _) (List.map_congr_left fun n hn => ?_)
    have hlt : n < o.dty.count := List.mem_range.mp (List.mem_of_mem_filter hn)
    simp [List.getD_eq_getElem?_getD, hlt, bits, sourceElem, regNum, elemDraw]

/-! ## The element commands -/

/-- A command that element by element computes is dispatched without registers, and does what its description says. -/
theorem elementOp_run {s : State} {i : Instr} {w : VecOp} (h : ElementOp s i w) :
    exec i s = dispatchVe i [] s ∧ veRun (mkCmd i [] s) (passed s) = veRes (passed s) (performOp (passed s) w) := by
  cases h with
  | vaddInt o h => exact ⟨exec_vadd o s, congrArg (veRes (passed s)) (two_eq (f := addElem) fun a b => by simp [addElem, h, wrapRes])⟩
  | vaddFloat o h => exact ⟨exec_vadd o s, congrArg (veRes (passed s)) (two_eq (f := addElem) fun a b => by simp [addElem, h]; rfl)⟩
  | vsubInt o h => exact ⟨exec_vsub o s, congrArg (veRes (passed s)) (two_eq (f := subElem) fun a b => by simp [subElem, h, wrapRes])⟩
  | vsubFloat o h => exact ⟨exec_vsub o s, congrArg (veRes (passed s)) (two_eq (f := subElem) fun a b => by simp [subElem, h]; rfl)⟩
  | vmulInt o h => exact ⟨exec_vmul o s, congrArg (veRes (passed s)) (two_eq (f := mulElem) fun a b => by simp [mulElem, h, wrapRes])⟩
  | vmulFloat o h => exact ⟨exec_vmul o s, congrArg (veRes (passed s)) (two_eq (f := mulElem) fun a b => by simp [mulElem, h]; rfl)⟩
  | vminInt o h => exact ⟨exec_vmin o s, congrArg (veRes (passed s)) (two_eq (f := minElem) fun a b => by simp [minElem, h])⟩
  | vminFloat o h => exact ⟨exec_vmin o s, congrArg (veRes (passed s)) (two_eq (f := minElem) fun a b => by simp only [minElem, h, if_true]; split <;> rfl)⟩
  | vmaxInt o h => exact ⟨exec_vmax o s, congrArg (veRes (passed s)) (two_eq (f := maxElem) fun a b => by simp [maxElem, h])⟩
  | vmaxFloat o h => exact ⟨exec_vmax o s, congrArg (veRes (passed s)) (two_eq (f := maxElem) fun a b => by simp only [maxElem, h, if_true]; split <;> rfl)⟩
  | vabsInt o h => exact ⟨exec_vabs o s, congrArg (veRes (passed s)) (one_eq (f := absElem) fun a => by simp [absElem, h, wrapRes])⟩
  | vabsFloat o h => exact ⟨exec_vabs o s, congrArg (veRes (passed s)) (one_eq (f := absElem) fun a => by simp [absElem, h, bits])⟩
  | vnegInt o h => exact ⟨exec_vneg o s, congrArg (veRes (passed s)) (one_eq (f := negElem) fun a => by simp [negElem, h, wrapRes])⟩
  | vnegFloat o h => exact ⟨exec_vneg o s, congrArg (veRes (passed s)) (one_eq (f := negElem) fun a => by simp [negElem, h])⟩
  | vmov o => exact ⟨exec_vmov o s, congrArg (veRes (passed s)) (one_eq fun _ => rfl)⟩
  | vand o => exact ⟨exec_vand o s, congrArg (veRes (passed s)) (two_eq fun _ _ => rfl)⟩
  | vor o => exact ⟨exec_vor o s, congrArg (veRes (passed s)) (two_eq fun _ _ => rfl)⟩
  | vxor o => exact ⟨exec_vxor o s, congrArg (veRes (passed s)) (two_eq fun _ _ => rfl)⟩
  | vshl o => exact ⟨exec_vshl o s, congrArg (veRes (passed s)) (two_eq (f := shlElem) fun _ _ => rfl)⟩
  | vshr o => exact ⟨exec_vshr o s, congrArg (veRes (passed s)) (two_eq (f := shrElem) fun _ _ => rfl)⟩
  | vsar o => exact ⟨exec_vsar o s, congrArg (veRes (passed s)) (two_eq (f := sarElem) fun _ _ => by simp [sarElem, wrapRes])⟩
  | vpopc o =>
    exact ⟨exec_vpopc o s, congrArg (veRes (passed s)) (one_eq (f := popcElem) fun a => by
      simp only [popcElem, ScalarArithmetic.popc_eq, bit_eq_testBit])⟩
  | vfma o => exact ⟨exec_vfma o s, congrArg (veRes (passed s)) (fused_eq (passed s) o false)⟩
  | vfms o => exact ⟨exec_vfms o s, congrArg (veRes (passed s)) (fused_eq (passed s) o true)⟩
  | vexp2 o => exact ⟨exec_vexp2 o s, congrArg (veRes (passed s)) (one_eq (f := fun _ => exp2Elem) fun _ => rfl)⟩
  | vlog2 o => exact ⟨exec_vlog2 o s, congrArg (veRes (passed s)) (one_eq (f := fun _ => log2Elem) fun _ => rfl)⟩
  | vrcp o => exact ⟨exec_vrcp o s, congrArg (veRes (passed s)) (one_eq (f := fun _ => rcpElem) fun _ => rfl)⟩
  | vrsq o => exact ⟨exec_vrsq o s, congrArg (veRes (passed s)) (one_eq (f := fun _ => rsqElem) fun _ => rfl)⟩
  | vsqrt o => exact ⟨exec_vsqrt o s, congrArg (veRes (passed s)) (one_eq (f := fun _ => sqrtElem) fun _ => rfl)⟩
  | vcvt o => exact ⟨exec_vcvt o s, congrArg (veRes (passed s)) (cvt_eq (passed s) o)⟩
  | vimad o h => exact ⟨exec_vimad o s, congrArg (veRes (passed s)) (imad_eq h)⟩
  | vdeqMx o h => exact ⟨exec_vdeq o s, congrArg (veRes (passed s)) (deqMx_eq h)⟩
  | vpack o => exact ⟨exec_vpack o s, congrArg (veRes (passed s)) (by unfold vePack; exact permute_eq fun _ _ => rfl)⟩
  | vunpk o =>
    refine ⟨exec_vunpk o s, congrArg (veRes (passed s)) ?_⟩
    unfold veUnpk
    refine permute_eq fun xs n => ?_
    rcases Nat.mod_two_eq_zero_or_one n with h | h <;> simp [h]
  | vshuf o => exact ⟨exec_vshuf o s, congrArg (veRes (passed s)) (by unfold veShuf; exact permute_eq fun _ _ => rfl)⟩
  | vrot o => exact ⟨exec_vrot o s, congrArg (veRes (passed s)) (by unfold veRot; exact permute_eq fun _ _ => rfl)⟩
  | vbcast o => exact ⟨exec_vbcast o s, congrArg (veRes (passed s)) (by unfold veBcast; exact permute_eq fun _ _ => rfl)⟩
  | vins o => exact ⟨exec_vins o s, congrArg (veRes (passed s)) (by unfold veIns; exact permute_eq fun _ _ => rfl)⟩
  | vrand o => exact ⟨exec_vrand o s, congrArg (veRes (passed s)) (rand_eq (passed s) o)⟩

/-- Settles O37: each command is its description, and a description is performed in one way. -/
theorem elementCommands : Obligations.ElementCommands := by
  intro s i w hop hfree hallowed
  obtain ⟨hexec, hrun⟩ := elementOp_run hop
  have hstop {e : Fail} (he : performOp (passed s) w = .error e) : exec i s = .next (veStopped i [] s e) :=
    exec_ve_error hfree hallowed (regs := []) rfl hexec hrun he
  have hdone {t : State} (hok : performOp (passed s) w = .ok t) : exec i s = .next t :=
    exec_ve_ok hfree hallowed (regs := []) rfl hexec hrun hok
  refine ⟨fun e he => hstop (performOp_source he), fun xs u f hok => ⟨fun e he =>
    hstop ((performOp_read hok).trans (finishElems_dest he)), fun y hy =>
    ⟨fun e he => hstop (performOp_nan hok hy he), fun hn => ?_⟩⟩, fun hregs => ?_⟩
  · obtain ⟨z, m, v, g, hwrite, hplaced, hp⟩ := performOp_done hok hy hn
    exact ⟨z, m, v, g, hwrite, hplaced, hdone hp⟩
  · have hsrc := readSrcs_regs (x := passed s) (cs := w.src) fun c hc => hregs c (List.mem_cons_of_mem _ hc)
    have hd : w.dst.val < 56 := hregs _ List.mem_cons_self
    have hdst := writeDst_reg (u := passed s) hd
    refine ⟨fun e he => hstop (performOp_nan hsrc (hdst 0 0) he), fun hn => ?_⟩
    obtain ⟨z, m, v, g, hwrite, ⟨hset, hclear, _⟩, hp⟩ := performOp_done hsrc (hdst 0 0) hn
    rw [hdst] at hwrite
    cases hwrite
    refine ⟨_, hdone hp, fun r hr => ?_, fun n hlt hne => ?_⟩
    · obtain ⟨hval, hmask⟩ := hset r hr
      rw [elem_maskedWord_set hmask, hval]
    · rw [elem_maskedWord_clear (hclear n hlt hne)]
      rfl

end Sys2Proof.VectorCommands

/-! # Reductions (05 R130) -/

namespace Sys2Proof.Reductions

open Sys2Proof.Machine Sys2Proof.Safety Sys2Proof.VectorCommands

/-! ## What a reduction does -/

/-- `i` is dispatched without registers, needs nothing, and reduces by `f`. -/
structure Reduces (o : Va) (s : State) (i : Instr) (f : List (Nat × Nat) → Except Fail (Word × Flags)) : Prop where
  exec : exec i s = dispatchVe i [] s
  allowed : VeAllowed i s
  run : veRun (mkCmd i [] s) (passed s) = veRes (passed s) (reduce o (passed s) f)

/-- The enabled elements of a source with their places. -/
def placedElems (s : State) (o : Va) (x : VWord) : List (Nat × Nat) :=
  (enabledElems o.ty (s.preg o.p)).map fun n => (n, elem o.ty x n)

theorem placedElems_vals (s : State) (o : Va) (x : VWord) : (placedElems s o x).map (·.2) = enabledVals s o x := by
  rw [placedElems, List.map_map]
  rfl

section
variable {o : Va} {s : State} (h : VeFree s) {i : Instr} {f : List (Nat × Nat) → Except Fail (Word × Flags)} (hi : Reduces o s i f)
include h hi

theorem reduces_source {e : Fail} (he : readSrcs (passed s) [o.a] = .error e) : exec i s = .next (veStopped i [] s e) :=
  exec_ve_error h hi.allowed (regs := []) rfl hi.exec hi.run (by rw [reduce, he])

variable {xs : List VWord} {u : State} {g : Flags} (hok : readSrcs (passed s) [o.a] = .ok (xs, u, g))
include hok

theorem reduces_stop {e : Fail} (he : f (placedElems s o (xs.getD 0 0)) = .error e) : exec i s = .next (veStopped i [] s e) := by
  refine exec_ve_error h hi.allowed (regs := []) rfl hi.exec hi.run ?_
  rw [reduce, hok]
  show (match f (placedElems s o (xs.getD 0 0)) with | .error e => _ | .ok (v, h) => _) = _
  rw [he]

theorem reduces_done {v : Word} {k : Flags} (hv : f (placedElems s o (xs.getD 0 0)) = .ok (v, k)) :
    exec i s = .next (counted (u.setRes v) (g ||| k) false) := by
  refine exec_ve_ok h hi.allowed (regs := []) rfl hi.exec hi.run ?_
  rw [reduce, hok]
  show (match f (placedElems s o (xs.getD 0 0)) with | .error e => _ | .ok (v, h) => _) = _
  rw [hv]
  rfl

end

/-- The form of a reduction that no cause stops. -/
theorem reduces_gives {o : Va} {s : State} (h : VeFree s) {i : Instr} {f : List (Nat × Nat) → Except Fail (Word × Flags)}
    (hi : Reduces o s i f) {r : List Nat → Word × Flags} (hf : ∀ l, f l = .ok (r (l.map (·.2)))) :
    (∀ e, readSrcs (passed s) [o.a] = .error e → exec i s = .next (veStopped i [] s e)) ∧
    ∀ xs u g, readSrcs (passed s) [o.a] = .ok (xs, u, g) →
      exec i s = .next (counted (u.setRes (r (enabledVals s o (xs.getD 0 0))).1) (g ||| (r (enabledVals s o (xs.getD 0 0))).2) false) := by
  refine ⟨fun e he => reduces_source h hi he, fun xs u g hok => ?_⟩
  rw [← placedElems_vals]
  exact reduces_done h hi hok (hf _)

section
variable (o : Va) (s : State)

theorem reduces_add : Reduces o s (.vredAdd o) fun l =>
    if o.ty.isFloat then redAddFloat s o.ty l else .ok (l.foldl (fun a x => a + extendElem o.ty x.2) 0, 0) :=
  ⟨exec_vredAdd o s, ⟨rfl, rfl⟩, rfl⟩

/-- The fold of VRED.min and VRED.max. -/
def picked (f : Ty → Nat → Nat → Conv) (startF : Nat) (startI : Int) (l : List (Nat × Nat)) : Except Fail (Word × Flags) :=
  if o.ty.isFloat then .ok (canon32 ((l.map fun x => widen o.ty x.2).foldl (fun m x => (f .f32 m x).1) startF), 0)
  else .ok (extendElem o.ty (l.foldl (fun m x => (f o.ty m x.2).1) (intBits o.ty startI)), 0)

theorem reduces_min : Reduces o s (.vredMin o) (picked o minElem (inf32 false) o.ty.range.2) :=
  ⟨exec_vredMin o s, ⟨rfl, rfl⟩, rfl⟩

theorem reduces_max : Reduces o s (.vredMax o) (picked o maxElem (inf32 true) o.ty.range.1) :=
  ⟨exec_vredMax o s, ⟨rfl, rfl⟩, rfl⟩

theorem reduces_amax : Reduces o s (.vredAmax o) fun l => .ok (canon32 (maxAbs .f32 (l.map fun x => widen o.ty x.2)), 0) :=
  ⟨exec_vredAmax o s, ⟨rfl, rfl⟩, rfl⟩

theorem reduces_and : Reduces o s (.vredAnd o) fun l => .ok (l.foldl (fun a x => a &&& extendElem o.ty x.2) (BitVec.allOnes 64), 0) :=
  ⟨exec_vredAnd o s, ⟨rfl, rfl⟩, rfl⟩

theorem reduces_or : Reduces o s (.vredOr o) fun l => .ok (l.foldl (fun a x => a ||| extendElem o.ty x.2) 0, 0) :=
  ⟨exec_vredOr o s, ⟨rfl, rfl⟩, rfl⟩

theorem reduces_xor : Reduces o s (.vredXor o) fun l => .ok (l.foldl (fun a x => a ^^^ extendElem o.ty x.2) 0, 0) :=
  ⟨exec_vredXor o s, ⟨rfl, rfl⟩, rfl⟩

end

/-! ## Integers -/

theorem add_fold (t : Ty) (l : List Nat) (z : Int) :
    l.foldl (fun a x => a + extendElem t x) (BitVec.ofInt 64 z) = BitVec.ofInt 64 (z + (l.map (intOf t)).sum) := by
  induction l generalizing z with
  | nil => simp
  | cons x l ih => rw [List.foldl_cons, extendElem, ← BitVec.ofInt_add, ih, List.map_cons, List.sum_cons, Int.add_assoc]

theorem intOf_bounds (t : Ty) : intOf t (intBits t t.range.2) = t.range.2 ∧ intOf t (intBits t t.range.1) = t.range.1 := by
  cases t <;> decide

theorem min_fold {t : Ty} (ht : t.isFloat = false) (l : List Nat) (m : Nat) :
    intOf t (l.foldl (fun m x => (minElem t m x).1) m) = (l.map (intOf t)).foldl min (intOf t m) := by
  induction l generalizing m with
  | nil => rfl
  | cons x l ih =>
    rw [List.foldl_cons, ih, List.map_cons, List.foldl_cons]
    congr 1
    simp only [minElem, ht, Bool.false_eq_true, if_false]
    split <;> omega

theorem max_fold {t : Ty} (ht : t.isFloat = false) (l : List Nat) (m : Nat) :
    intOf t (l.foldl (fun m x => (maxElem t m x).1) m) = (l.map (intOf t)).foldl max (intOf t m) := by
  induction l generalizing m with
  | nil => rfl
  | cons x l ih =>
    rw [List.foldl_cons, ih, List.map_cons, List.foldl_cons]
    congr 1
    simp only [maxElem, ht, Bool.false_eq_true, if_false]
    split <;> omega

/-! ## Sums of floats -/

/-- One addition of `.add`. -/
def addStep (c : Nat × Flags) (x : Nat) : Nat × Flags := ((addElem .f32 c.1 x).1, c.2 ||| (addElem .f32 c.1 x).2)

theorem hasNv_or (a b : Flags) : (a ||| b).hasNv = (a.hasNv || b.hasNv) := BitVec.getLsbD_or ..

/-- NV stays once an addition has raised it. -/
theorem addStep_keeps (l : List Nat) {c : Nat × Flags} (h : c.2.hasNv = true) : (l.foldl addStep c).2.hasNv = true := by
  induction l generalizing c with
  | nil => exact h
  | cons x l ih => exact ih (by rw [addStep, hasNv_or, h, Bool.true_or])

theorem sumFrom_sum (t : Ty) (l : List (Nat × Nat)) (acc : Nat) (f : Flags) (n : Option Nat) :
    ((sumFrom t l acc f n).1, (sumFrom t l acc f n).2.1) = (l.map fun x => widen t x.2).foldl addStep (acc, f) := by
  induction l generalizing acc f n with
  | nil => rfl
  | cons x l ih => exact ih ..

theorem sumFrom_found (t : Ty) (l : List (Nat × Nat)) (acc : Nat) (f : Flags) (i : Nat) :
    (sumFrom t l acc f (some i)).2.2 = some i := by
  induction l generalizing acc f with
  | nil => rfl
  | cons x l ih => exact ih ..

/-- The flags and the sum after `k` additions. -/
def sumAfter (t : Ty) (l : List (Nat × Nat)) (c : Nat × Flags) (k : Nat) : Nat × Flags :=
  ((l.take k).map fun x => widen t x.2).foldl addStep c

/-- The element that is reported is the one whose addition first raised NV. -/
theorem sumFrom_first (t : Ty) (l : List (Nat × Nat)) (acc : Nat) {f : Flags} (hf : f.hasNv = false) :
    ((sumAfter t l (acc, f) l.length).2.hasNv = false → (sumFrom t l acc f none).2.2 = none) ∧
    ∀ k < l.length, (sumAfter t l (acc, f) k).2.hasNv = false → (sumAfter t l (acc, f) (k + 1)).2.hasNv = true →
      (sumFrom t l acc f none).2.2 = some (l.getD k (0, 0)).1 := by
  induction l generalizing acc f with
  | nil => exact ⟨fun _ => rfl, fun k hk => absurd hk (Nat.not_lt_zero k)⟩
  | cons x l ih =>
    obtain ⟨i, x⟩ := x
    have hnext (k : Nat) : sumAfter t ((i, x) :: l) (acc, f) (k + 1) = sumAfter t l (addStep (acc, f) (widen t x)) k := rfl
    have hstep : sumFrom t ((i, x) :: l) acc f none = sumFrom t l (addStep (acc, f) (widen t x)).1 (addStep (acc, f) (widen t x)).2
        (if (addElem .f32 acc (widen t x)).2.hasNv then some i else none) := by
      simp only [sumFrom, Option.isNone_none, Bool.true_and]
      rfl
    have hnv : (addStep (acc, f) (widen t x)).2.hasNv = (addElem .f32 acc (widen t x)).2.hasNv := by
      rw [addStep, hasNv_or, hf, Bool.false_or]
    rw [hstep]
    by_cases hc : (addElem .f32 acc (widen t x)).2.hasNv = true
    · rw [if_pos hc, sumFrom_found]
      rw [hc] at hnv
      refine ⟨fun hno => ?_, fun k hk hlt _ => ?_⟩
      · rw [List.length_cons, hnext, sumAfter, addStep_keeps _ hnv] at hno
        cases hno
      · cases k with
        | zero => rfl
        | succ k =>
          rw [hnext, sumAfter, addStep_keeps _ hnv] at hlt
          cases hlt
    · rw [if_neg hc]
      rw [Bool.not_eq_true] at hc
      rw [hc] at hnv
      obtain ⟨hnone, hsome⟩ := ih (addStep (acc, f) (widen t x)).1 hnv
      refine ⟨fun hno => hnone hno, fun k hk hlt hge => ?_⟩
      cases k with
      | zero =>
        rw [hnext] at hge
        rw [show (sumAfter t l (addStep (acc, f) (widen t x)) 0) = addStep (acc, f) (widen t x) from rfl, hnv] at hge
        cases hge
      | succ k => exact hsome k (Nat.lt_of_succ_lt_succ hk) hlt hge

theorem redAddFloat_ok {s : State} {t : Ty} {i x : Nat} {l : List (Nat × Nat)}
    (h : nanTrap s = false ∨ (sumAfter t l (widen t x, 0) l.length).2.hasNv = false) :
    redAddFloat s t ((i, x) :: l) = .ok (canon32 (sumAfter t l (widen t x, 0) l.length).1, (sumAfter t l (widen t x, 0) l.length).2) := by
  have hsum : sumAfter t l (widen t x, 0) l.length = ((sumFrom t l (widen t x) 0 none).1, (sumFrom t l (widen t x) 0 none).2.1) := by
    rw [sumFrom_sum, sumAfter, List.take_length]
  have hnone : nanTrap s = false ∨ (sumFrom t l (widen t x) 0 none).2.2 = none :=
    h.imp_right (sumFrom_first t l (widen t x) (f := 0) rfl).1
  rw [hsum]
  unfold redAddFloat
  dsimp only
  split
  · rename_i htrap hfound
    rw [htrap, hfound] at hnone
    simp at hnone
  · rfl

theorem redAddFloat_nan {s : State} {t : Ty} {i x k : Nat} {l : List (Nat × Nat)} (htrap : nanTrap s = true) (hk : k < l.length)
    (hno : (sumAfter t l (widen t x, 0) k).2.hasNv = false) (hnv : (sumAfter t l (widen t x, 0) (k + 1)).2.hasNv = true) :
    redAddFloat s t ((i, x) :: l) = .error (failAt .firstnan (nanStatus t (l.getD k (0, 0)).1) 0) := by
  unfold redAddFloat
  dsimp only
  rw [htrap, (sumFrom_first t l (widen t x) (f := 0) rfl).2 k hk hno hnv]

/-! ## The statement -/

/-- Settles O39: each form folds the enabled elements; the sum of floats under NANTRAP stops where NV first rises. -/
theorem reductions : Obligations.Reductions := by
  intro o s hfree
  dsimp only
  refine ⟨fun hint _ => ⟨?_, ?_, ?_, ?_, ?_, ?_⟩, fun hfloat => ⟨?_, ?_, ?_, fun htrap => ?_, fun htrap xs u g hok => ?_⟩⟩
  · refine reduces_gives hfree (reduces_add o s) (r := fun l => (BitVec.ofInt 64 (l.map (intOf o.ty)).sum, 0)) fun l => ?_
    have := add_fold o.ty (l.map (·.2)) 0
    rw [List.foldl_map, Int.zero_add] at this
    rw [hint, if_neg (by decide), ← this]
    rfl
  · refine reduces_gives hfree (reduces_min o s)
      (r := fun l => (BitVec.ofInt 64 ((l.map (intOf o.ty)).foldl min o.ty.range.2), 0)) fun l => ?_
    have := min_fold hint (l.map (·.2)) (intBits o.ty o.ty.range.2)
    rw [List.foldl_map, (intOf_bounds o.ty).1] at this
    rw [picked, hint, if_neg (by decide), extendElem, this]
  · refine reduces_gives hfree (reduces_max o s)
      (r := fun l => (BitVec.ofInt 64 ((l.map (intOf o.ty)).foldl max o.ty.range.1), 0)) fun l => ?_
    have := max_fold hint (l.map (·.2)) (intBits o.ty o.ty.range.1)
    rw [List.foldl_map, (intOf_bounds o.ty).2] at this
    rw [picked, hint, if_neg (by decide), extendElem, this]
  · exact reduces_gives hfree (reduces_and o s)
      (r := fun l => (l.foldl (fun a x => a &&& BitVec.ofInt 64 (intOf o.ty x)) (BitVec.allOnes 64), 0)) fun l => by rw [List.foldl_map]; rfl
  · exact reduces_gives hfree (reduces_or o s)
      (r := fun l => (l.foldl (fun a x => a ||| BitVec.ofInt 64 (intOf o.ty x)) 0, 0)) fun l => by rw [List.foldl_map]; rfl
  · exact reduces_gives hfree (reduces_xor o s)
      (r := fun l => (l.foldl (fun a x => a ^^^ BitVec.ofInt 64 (intOf o.ty x)) 0, 0)) fun l => by rw [List.foldl_map]; rfl
  · exact reduces_gives hfree (reduces_min o s)
      (r := fun l => (canon32 ((l.map (widen o.ty)).foldl (fun m x => (minElem .f32 m x).1) (inf32 false)), 0)) fun l => by
        rw [picked, hfloat, if_pos rfl, List.map_map]
        rfl
  · exact reduces_gives hfree (reduces_max o s)
      (r := fun l => (canon32 ((l.map (widen o.ty)).foldl (fun m x => (maxElem .f32 m x).1) (inf32 true)), 0)) fun l => by
        rw [picked, hfloat, if_pos rfl, List.map_map]
        rfl
  · exact reduces_gives hfree (reduces_amax o s) (r := fun l => (canon32 (maxAbs .f32 (l.map (widen o.ty))), 0)) fun l => by rw [List.map_map]; rfl
  · refine reduces_gives hfree (reduces_add o s) (r := fun l => match l.map (widen o.ty) with
      | [] => (0, 0)
      | x :: xs => (canon32 (xs.foldl addStep (x, 0)).1, (xs.foldl addStep (x, 0)).2)) fun l => ?_
    rw [hfloat, if_pos rfl]
    cases l with
    | nil => rfl
    | cons a l =>
      obtain ⟨i, x⟩ := a
      rw [redAddFloat_ok (.inl htrap), sumAfter, List.take_length, List.map_cons, List.map_cons, List.map_map]
      rfl
  · have hadd := reduces_add o s
    generalize hx : xs.getD 0 0 = x
    have hl : placedElems s o (xs.getD 0 0) = (enabledElems o.ty (s.preg o.p)).map fun n => (n, elem o.ty x n) := by rw [hx]; rfl
    rw [show (List.range o.ty.count).filter (fun n => enabled (s.preg o.p) o.ty n) = enabledElems o.ty (s.preg o.p) from rfl]
    generalize enabledElems o.ty (s.preg o.p) = es at hl ⊢
    cases es with
    | nil =>
      refine ⟨fun _ => ?_, fun k hk => absurd hk (Nat.not_lt_zero k)⟩
      refine reduces_done hfree hadd hok (v := 0) (k := 0) ?_
      rw [hl, hfloat]
      rfl
    | cons e es =>
      have hafter (k : Nat) : sumAfter o.ty (es.map fun n => (n, elem o.ty x n)) (widen o.ty (elem o.ty x e), 0) k =
          ((es.take k).map fun n => widen o.ty (elem o.ty x n)).foldl addStep (widen o.ty (elem o.ty x e), 0) := by
        rw [sumAfter, ← List.map_take, List.map_map]
        rfl
      refine ⟨fun hno => ?_, fun k hk hno hnv => ?_⟩
      · refine reduces_done hfree hadd hok ?_
        rw [Bool.not_eq_true] at hno
        rw [hl, hfloat, if_pos rfl, List.map_cons, redAddFloat_ok (.inr (by rw [hafter, List.length_map]; exact hno)), hafter,
          List.length_map]
        rfl
      · cases k with
        | zero => exact absurd (show (0 : Flags).hasNv = true from hnv) (by decide)
        | succ k =>
          have hlt : k < es.length := Nat.lt_of_succ_lt_succ hk
          rw [Bool.not_eq_true] at hno
          refine reduces_stop hfree hadd hok ?_
          rw [hl, hfloat, if_pos rfl, List.map_cons, redAddFloat_nan (k := k) htrap (by rwa [List.length_map])
            (by rw [hafter]; exact hno) (by rw [hafter]; exact hnv)]
          simp [List.getD_eq_getElem?_getD, hlt, failAt]

end Sys2Proof.Reductions

/-! # VCMP, VSEL, VQUANT, VDEQ of HB4 and VAMAX (05 R114, R115, R125-R128) -/

namespace Sys2Proof.CompareSelectQuantise

open Sys2Proof.Machine Sys2Proof.Safety Sys2Proof.VectorCommands Sys2Proof.StepsAndTraps

/-! ## Comparisons -/

theorem cmpHolds_iff (code : Nat) (a b : Val) : cmpHolds code a b = true ↔ compared code a b := by
  match code with
  | 0 | 2 | 4 => exact Iff.rfl
  | 1 => simp [cmpHolds, compared]
  | 3 => simp [cmpHolds, compared]
  | 5 => simp [cmpHolds, compared]
  | 6 => simp [cmpHolds, compared]
  | n + 7 => simp [cmpHolds, compared]

/-- A number made of one bit for each place. -/
def bitSum (q : Nat → Bool) (n : Nat) : Nat := (List.range n).foldl (fun a j => a + (if q j then 2 ^ j else 0)) 0

theorem bitSum_succ (q : Nat → Bool) (n : Nat) : bitSum q (n + 1) = bitSum q n + (if q n then 2 ^ n else 0) := by
  rw [bitSum, List.range_succ, List.foldl_append]
  rfl

theorem bitSum_lt (q : Nat → Bool) (n : Nat) : bitSum q n < 2 ^ n := by
  induction n with
  | zero => exact Nat.one_pos
  | succ n ih =>
    rw [bitSum_succ, Nat.pow_succ]
    split <;> omega

theorem testBit_bitSum (q : Nat → Bool) {n j : Nat} (h : j < n) : (bitSum q n).testBit j = q j := by
  induction n with
  | zero => omega
  | succ n ih =>
    have hlt := bitSum_lt q n
    rw [bitSum_succ]
    by_cases hj : j = n
    · subst hj
      cases hq : q j
      · simp only [Bool.false_eq_true, if_false, Nat.add_zero]
        exact Nat.testBit_lt_two_pow hlt
      · simp only [if_true]
        rw [Nat.add_comm, Nat.testBit_two_pow_add_eq, Nat.testBit_lt_two_pow hlt]
        rfl
    · rw [← ih (by omega)]
      cases q n
      · simp only [Bool.false_eq_true, if_false, Nat.add_zero]
      · simp only [if_true]
        rw [Nat.add_comm, Nat.testBit_two_pow_add_gt (by omega)]

/-- The condition of VCMP gathered over lane `j` of two sources. -/
def laneHolds (o : Vx) (xs : List VWord) (j : Nat) : Bool :=
  let val (x : VWord) (i : Nat) : Val := decodeTy o.ty (flushIn o.ty o.fzi (elem o.ty x i))
  let test (i : Nat) : Bool := cmpHolds (bits o.aux.toNat 0 3) (val (xs.getD 0 0) i) (val (xs.getD 1 0) i)
  if bit o.aux.toNat 3 then (laneElems o.ty j).any test else (laneElems o.ty j).all test

theorem laneHolds_iff (o : Vx) (xs : List VWord) (j : Nat) : laneHolds o xs j = true ↔
    let val (k n : Nat) : Val := decodeTy o.ty (flushIn o.ty o.fzi (sourceElem o.ty xs k n))
    let test (k : Nat) : Prop := compared (o.aux.toNat % 8) (val 0 (j * (32 / o.ty.width) + k)) (val 1 (j * (32 / o.ty.width) + k))
    if o.aux.getLsbD 3 then ∃ k < 32 / o.ty.width, test k else ∀ k < 32 / o.ty.width, test k := by
  have hbit : bit o.aux.toNat 3 = o.aux.getLsbD 3 := by rw [bit_eq_testBit, BitVec.testBit_toNat]
  have hcode : bits o.aux.toNat 0 3 = o.aux.toNat % 8 := by simp [bits]
  unfold laneHolds
  dsimp only
  rw [hbit, hcode]
  cases o.aux.getLsbD 3 <;>
    simp only [Bool.false_eq_true, if_false, if_true, laneElems, List.any_map, List.all_map, List.any_eq_true, List.all_eq_true,
      List.mem_range, Function.comp, cmpHolds_iff] <;>
    rfl

theorem preg_passed (s : State) (p : Fin 16) : (passed s).preg p = s.preg p := rfl

theorem vreg_passed (s : State) (n : Fin 56) : (passed s).vreg n = s.vreg n := rfl

section
variable {o : Vx} {s : State} (h : VeFree s)
include h

theorem vcmp_gives :
    (∀ e, readSrcs (passed s) [o.a, o.b] = .error e → exec (.vcmp o) s = .next (veStopped (.vcmp o) [] s e)) ∧
    ∀ xs u f, readSrcs (passed s) [o.a, o.b] = .ok (xs, u, f) → exec (.vcmp o) s = .next (counted
      (u.setP (Fin.ofNat 16 o.d.val) ((s.preg (Fin.ofNat 16 o.d.val) &&& ~~~s.preg o.p) |||
        (BitVec.ofNat 64 (bitSum (laneHolds o xs) 64) &&& s.preg o.p))) f false) := by
  refine ⟨fun e he => ?_, fun xs u f hok => ?_⟩
  · exact exec_ve_error h ⟨rfl, rfl⟩ (regs := []) rfl (exec_vcmp o s) (r := veCmp o (passed s)) rfl (by rw [veCmp, he])
  · exact exec_ve_ok h ⟨rfl, rfl⟩ (regs := []) rfl (exec_vcmp o s) (r := veCmp o (passed s)) rfl (by rw [veCmp, hok]; rfl)

theorem vsel_gives {q : Va} :
    (∀ e, readSrcs (passed s) [q.a, q.b] = .error e → exec (.vsel q) s = .next (veStopped (.vsel q) [] s e)) ∧
    ∀ xs u f, readSrcs (passed s) [q.a, q.b] = .ok (xs, u, f) →
      let y := maskedWord (xs.getD 1 0) (xs.getD 0 0) (laneMask (s.preg q.p))
      (∀ e, writeDst u q.d y (BitVec.allOnes 2048) = .error e → exec (.vsel q) s = .next (veStopped (.vsel q) [] s e)) ∧
      ∀ v g, writeDst u q.d y (BitVec.allOnes 2048) = .ok (v, g) → exec (.vsel q) s = .next (counted v (f ||| g) false) := by
  refine ⟨fun e he => ?_, fun xs u f hok => ⟨fun e he => ?_, fun v g hv => ?_⟩⟩
  · exact exec_ve_error h ⟨rfl, rfl⟩ (regs := []) rfl (exec_vsel q s) (r := veSel q (passed s)) rfl (by rw [veSel, he])
  · refine exec_ve_error h ⟨rfl, rfl⟩ (regs := []) rfl (exec_vsel q s) (r := veSel q (passed s)) rfl ?_
    rw [veSel, hok]
    dsimp only
    rw [preg_passed, he]
  · refine exec_ve_ok h ⟨rfl, rfl⟩ (regs := []) rfl (exec_vsel q s) (r := veSel q (passed s)) rfl ?_
    rw [veSel, hok]
    dsimp only
    rw [preg_passed, hv]
    rfl

end

/-! ## Elements put into a register -/

/-- The list of values at rising places. -/
theorem zipIdx_placed {t : Ty} (i : Nat) (vs : List Nat) (h : i + vs.length ≤ t.count) :
    let res : List (Nat × Conv) := vs.zipIdx.map fun v => (i + v.2, (v.1, 0))
    res.Pairwise (fun a b => a.1 < b.1) ∧ ∀ r ∈ res, r.1 < t.count := by
  dsimp only
  constructor
  · rw [List.pairwise_map, List.pairwise_iff_getElem]
    intro a b ha hb hab
    simp only [List.getElem_zipIdx]
    omega
  · intro r hr
    obtain ⟨v, hv, rfl⟩ := List.mem_map.mp hr
    have := List.snd_lt_of_mem_zipIdx hv
    dsimp only
    omega

theorem elem_putElems {t : Ty} (x : VWord) (i : Nat) (vs : List Nat) (h : i + vs.length ≤ t.count) {n : Nat} (hn : n < t.count) :
    elem t (putElems x t i vs) n = if i ≤ n ∧ n < i + vs.length then vs.getD (n - i) 0 % 2 ^ t.width else elem t x n := by
  obtain ⟨hrise, hlt⟩ := zipIdx_placed i vs h
  obtain ⟨hset, hclear, _⟩ := placed_elemWord t _ hrise hlt
  have hput : putElems x t i vs = maskedWord x (elemWord t ((vs.zipIdx.map fun v => (i + v.2, ((v.1, 0) : Conv))).map fun r => (r.1, r.2.1)))
      (elemMask t ((vs.zipIdx.map fun v => (i + v.2, ((v.1, 0) : Conv))).map (·.1))) := by
    simp only [putElems, List.map_map]
    rfl
  rw [hput]
  split
  · rename_i hin
    have hlen : n - i < vs.length := by omega
    have hmem : (n, ((vs.getD (n - i) 0, 0) : Conv)) ∈ vs.zipIdx.map fun v => (i + v.2, ((v.1, 0) : Conv)) := by
      refine List.mem_map.mpr ⟨(vs[n - i], n - i), ?_, ?_⟩
      · rw [List.mk_mem_zipIdx_iff_getElem?]
        exact List.getElem?_eq_getElem hlen
      · rw [show i + (n - i) = n by omega]
        simp [List.getD_eq_getElem?_getD, hlen]
    obtain ⟨hval, hmask⟩ := hset _ hmem
    rw [elem_maskedWord_set hmask, hval]
  · rename_i hout
    refine elem_maskedWord_clear (hclear n hn fun r hr e => hout ?_)
    obtain ⟨v, hv, rfl⟩ := List.mem_map.mp hr
    have := List.snd_lt_of_mem_zipIdx hv
    dsimp only at e
    omega

/-! ## VQUANT -/

theorem quantBlocks_passed (o : Vx) (s : State) (rm : Rm) (x : VWord) (n k : Nat) (b : VWord) :
    quantBlocks o (passed s) rm x n k b = quantBlocks o s rm x n k b := by
  induction n generalizing k b with
  | zero => rfl
  | succ n ih =>
    have hins : quantIn o (passed s) x k = quantIn o s x k := rfl
    have hfp : (passed s).fp = s.fp := rfl
    simp only [quantBlocks, ih, hins, hfp]

theorem quantHb4_length (ty : Nat) (thresh : Val) (rm : Rm) (free : Nat) (xs : List BlockIn) :
    (quantHb4 ty thresh rm free xs).codes.length ≤ xs.length := by
  unfold quantHb4
  split
  · simp
  · split
    · simp
    · simp only [List.length_map, List.length_zip, List.length_zipIdx]
      exact Nat.min_le_left ..

theorem quantMx_length (t : Ty) (rm : Rm) (fzo : Bool) (xs : List BlockIn) : (quantMx t rm fzo xs).2.length = xs.length := by
  unfold quantMx
  split <;> simp

/-- Each block gives one scale and at most 32 codes. -/
theorem quantBlocks_length {o : Vx} {s : State} {rm : Rm} {x : VWord} {n k : Nat} {b : VWord} {r : List Nat × List Nat × VWord × Flags}
    (h : quantBlocks o s rm x n k b = some r) : r.1.length = n ∧ r.2.1.length ≤ 32 * n := by
  induction n generalizing k b r with
  | zero =>
    cases h
    exact ⟨rfl, Nat.le_refl _⟩
  | succ n ih =>
    have hins : (quantIn o s x k).length = 32 := by simp [quantIn]
    simp only [quantBlocks] at h
    split at h
    · split at h
      · cases h
      · obtain ⟨q, hq, rfl⟩ := Option.map_eq_some_iff.mp h
        obtain ⟨hscales, hcodes⟩ := ih hq
        have hlen := quantHb4_length (bits o.aux.toNat 5 3) (burlThresh (bits o.aux.toNat 8 8)) rm (64 - vHalf b 0) (quantIn o s x k)
        refine ⟨by rw [List.length_cons, hscales], ?_⟩
        rw [List.length_append]
        omega
    · obtain ⟨q, hq, rfl⟩ := Option.map_eq_some_iff.mp h
      obtain ⟨hscales, hcodes⟩ := ih hq
      have hlen := quantMx_length o.dty rm o.fzo (quantIn o s x k)
      refine ⟨by rw [List.length_cons, hscales], ?_⟩
      rw [List.length_append, List.length_map]
      omega

/-- The codes and scales of a well-formed VQUANT fit their registers. -/
theorem quant_fits {o : Vx} (h : (Instr.vquant o).wf = true) :
    32 * (o.ty.count / 32) = o.ty.count ∧ o.aux.toNat % 16 * o.ty.count + o.ty.count ≤ o.dty.count ∧
      o.aux.toNat % 16 * (o.ty.count / 32) + o.ty.count / 32 ≤ Ty.n8.count := by
  have hq : quantOk o = true := h
  simp only [quantOk, Bool.and_eq_true, decide_eq_true_eq, Bool.or_eq_true, beq_iff_eq, bits, Nat.pow_zero, Nat.div_one] at hq
  obtain ⟨⟨⟨⟨hfloat, _⟩, _⟩, hle⟩, hdst⟩ := hq
  have hcount : o.dty.count ≤ 512 := by
    have hbound : ∀ t : Ty, t.count ≤ 512 := fun t => by cases t <;> decide
    exact hbound _
  have hns : o.ty.count = 64 ∨ o.ty.count = 128 := by
    revert hfloat
    cases o.ty <;> decide
  have hn8 : Ty.n8.count = 256 := rfl
  rcases hns with hns | hns <;> rw [hns] at hle ⊢ <;> omega

/-- A result without flags creates no NaN. -/
theorem firstNan_plain (u : State) (t : Ty) (l : List (Nat × Nat)) :
    firstNan u t (l.map fun c => (c.1, ((c.2, 0) : Conv))) = none := by
  unfold firstNan
  split
  · rw [Option.map_eq_none_iff, List.find?_eq_none]
    intro x hx
    obtain ⟨c, _, rfl⟩ := List.mem_map.mp hx
    simp [Flags.hasNv]
  · rfl

theorem flagsOf_plain (f : Flags) (l : List (Nat × Nat)) : flagsOf f (l.map fun c => (c.1, ((c.2, 0) : Conv))) = f := by
  unfold flagsOf
  rw [List.foldl_map]
  induction l generalizing f with
  | nil => rfl
  | cons a l ih => rw [List.foldl_cons, show f ||| (0 : Flags) = f from BitVec.or_zero, ih]

/-- A register written before or after the flags of a command are merged. -/
theorem counted_setV (v : State) (n : Fin 56) (x : VWord) (f : Flags) (r : Bool) : (counted v f r).setV n x = counted (v.setV n x) f r := rfl

theorem counted_vreg (v : State) (n : Fin 56) (f : Flags) (r : Bool) : (counted v f r).vreg n = v.vreg n := rfl

section
variable {o : Vx} {s : State} (h : VeFree s) (ha : VeAllowed (.vquant o) s)
include h ha

theorem vquant_error {e : Fail} (he : veQuant o (passed s) = .error e) : exec (.vquant o) s = .next (veStopped (.vquant o) [] s e) :=
  exec_ve_error h ha (regs := []) rfl (exec_vquant o s) (r := veQuant o (passed s)) rfl he

theorem vquant_ok {t : State} (ht : veQuant o (passed s) = .ok t) : exec (.vquant o) s = .next t :=
  exec_ve_ok h ha (regs := []) rfl (exec_vquant o s) (r := veQuant o (passed s)) rfl ht

end

/-- VQUANT once its source is read and its blocks are quantised. -/
theorem veQuant_blocks {o : Vx} {s u : State} {xs : List VWord} {f : Flags} (hok : readSrcs (passed s) [o.a] = .ok (xs, u, f))
    (hb : o.dty = .hb4 → burlBad (s.vreg (regNum o.b)) = false) : veQuant o (passed s) =
      match quantBlocks o s (Rm.resolve s.fp.fpctl o.rm) (xs.getD 0 0) (o.ty.count / 32) 0 (s.vreg (regNum o.b)) with
      | none => .error (plainFail .burlovf)
      | some (scales, codes, b2, g) =>
        match finishElems u o.d o.dty (codes.zipIdx.map fun c => (o.aux.toNat % 16 * o.ty.count + c.2, (c.1, 0))) (f ||| g)
            (decide (Rm.resolve s.fp.fpctl o.rm = .sr)) with
        | .error e => .error e
        | .ok t =>
          let v := t.setV (regNum o.c) (putElems (t.vreg (regNum o.c)) .n8 (o.aux.toNat % 16 * (o.ty.count / 32)) scales)
          .ok (if o.dty = .hb4 then v.setV (regNum o.b) b2 else v) := by
  have hbits : bits o.aux.toNat 0 4 = o.aux.toNat % 16 := by simp [bits]
  have hfp : (passed s).fp = s.fp := rfl
  have hno : ¬(o.dty = .hb4 ∧ burlBad (s.vreg (regNum o.b)) = true) := fun ⟨ht, hbad⟩ =>
    Bool.false_ne_true ((hb ht).symm.trans hbad)
  rw [veQuant, hok]
  simp only [vreg_passed, if_neg hno, quantBlocks_passed, hbits, hfp] <;> rfl

/-- The codes of a VQUANT as element results. -/
theorem codes_eq (b : Nat) (codes : List Nat) : (codes.zipIdx.map fun c => (b + c.2, ((c.1, 0) : Conv))) =
    (codes.zipIdx.map fun c => (b + c.2, c.1)).map fun c => (c.1, ((c.2, 0) : Conv)) := by
  rw [List.map_map]
  rfl

/-! ## VDEQ of HB4 -/

theorem deqHb4_length {codes scales burl : VWord} {count : Nat} {is : List Nat} {cur : Nat} {vs : List Val} {c : Nat}
    (h : deqHb4 codes scales burl count is cur = .ok (vs, c)) : vs.length = is.length := by
  induction is generalizing cur vs c with
  | nil =>
    cases h
    rfl
  | cons i is ih =>
    simp only [deqHb4] at h
    split at h
    · cases h
    · split at h
      · cases h
      · cases h
        rename_i hrest
        rw [List.length_cons, List.length_cons, ih hrest]

theorem enabled_rising (t : Ty) (p : Word) (g : Nat → Conv) :
    ((enabledElems t p).map fun n => (n, g n)).Pairwise (fun a b => a.1 < b.1) ∧
      ∀ r ∈ (enabledElems t p).map fun n => (n, g n), r.1 < t.count := by
  constructor
  · rw [List.pairwise_map]
    exact List.pairwise_lt_range.filter _
  · intro r hr
    obtain ⟨n, hn, rfl⟩ := List.mem_map.mp hr
    exact List.mem_range.mp (List.mem_of_mem_filter hn)

/-- VDEQ of HB4 once its source is read and the header of its burl register fits. -/
theorem veDeq_codes {o : Vx} {s u : State} {xs : List VWord} {f : Flags} (ht : o.ty = .hb4)
    (hok : readSrcs (passed s) [o.a] = .ok (xs, u, f)) : veDeq o (passed s) =
      if burlBad (s.vreg (regNum o.c)) then .error (burlCount (vHalf (s.vreg (regNum o.c)) 0) 0)
      else
        match deqHb4 (xs.getD 0 0) (s.vreg (regNum o.b)) (s.vreg (regNum o.c)) (vHalf (s.vreg (regNum o.c)) 0)
            ((List.range o.dty.count).map fun n => o.aux.toNat % 16 * o.dty.count + n) (vHalf (s.vreg (regNum o.c)) 136) with
        | .error (c, n) => .error (burlCount c n)
        | .ok (vs, cur) =>
          if o.aux.getLsbD 4 = true ∧ cur ≠ vHalf (s.vreg (regNum o.c)) 0 then .error (burlCount (vHalf (s.vreg (regNum o.c)) 0) cur)
          else
            match finishElems u o.d o.dty (deqResults o s vs) f (decide (Rm.resolve s.fp.fpctl o.rm = .sr)) with
            | .error e => .error e
            | .ok t => .ok (t.setV (regNum o.c) (putHalf (s.vreg (regNum o.c)) 136 cur)) := by
  have hbits : bits o.aux.toNat 0 4 = o.aux.toNat % 16 := by simp [bits]
  have hbit : bit o.aux.toNat 4 = o.aux.getLsbD 4 := by rw [bit_eq_testBit, BitVec.testBit_toNat]
  have hfp : (passed s).fp = s.fp := rfl
  have hres (vs : List Val) : deqResults o (passed s) vs = deqResults o s vs := rfl
  rw [veDeq, hok]
  simp only [ht, if_true, vreg_passed, hbits, hbit, hfp, hres] <;> rfl

/-- VDEQ of HB4 once its codes are decoded. -/
theorem veDeq_results {o : Vx} {s u : State} {xs : List VWord} {f : Flags} {vs : List Val} {cur : Nat} (ht : o.ty = .hb4)
    (hok : readSrcs (passed s) [o.a] = .ok (xs, u, f)) (hb : burlBad (s.vreg (regNum o.c)) = false)
    (hdec : deqHb4 (xs.getD 0 0) (s.vreg (regNum o.b)) (s.vreg (regNum o.c)) (vHalf (s.vreg (regNum o.c)) 0)
      ((List.range o.dty.count).map fun n => o.aux.toNat % 16 * o.dty.count + n) (vHalf (s.vreg (regNum o.c)) 136) = .ok (vs, cur))
    (hcur : o.aux.getLsbD 4 = true → cur = vHalf (s.vreg (regNum o.c)) 0) : veDeq o (passed s) =
      match finishElems u o.d o.dty (((List.range o.dty.count).filter fun n => enabled (s.preg o.p) o.dty n).map fun n =>
          (n, convert o.dty (Rm.resolve s.fp.fpctl o.rm) o.fzo false
            (drawVe s.fp.seed s.fp.rngcnt (lanePos o.dty n).1 (lanePos o.dty n).2) (vs.getD n .nan))) f
          (decide (Rm.resolve s.fp.fpctl o.rm = .sr)) with
      | .error e => .error e
      | .ok t => .ok (t.setV (regNum o.c) (putHalf (s.vreg (regNum o.c)) 136 cur)) := by
  have hlen : vs.length = o.dty.count := (deqHb4_length hdec).trans (by simp)
  have hsound : ¬(o.aux.getLsbD 4 = true ∧ cur ≠ vHalf (s.vreg (regNum o.c)) 0) := fun ⟨hbit, hne⟩ => hne (hcur hbit)
  rw [veDeq_codes ht hok, hb, if_neg (by decide), hdec]
  dsimp only
  rw [if_neg hsound, deqResults_eq hlen]
  rfl

section
variable {o : Vx} {s : State} (h : VeFree s) (ha : VeAllowed (.vdeq o) s)
include h ha

theorem vdeq_error {e : Fail} (he : veDeq o (passed s) = .error e) : exec (.vdeq o) s = .next (veStopped (.vdeq o) [] s e) :=
  exec_ve_error h ha (regs := []) rfl (exec_vdeq o s) (r := veDeq o (passed s)) rfl he

theorem vdeq_ok {t : State} (ht : veDeq o (passed s) = .ok t) : exec (.vdeq o) s = .next t :=
  exec_ve_ok h ha (regs := []) rfl (exec_vdeq o s) (r := veDeq o (passed s)) rfl ht

end

/-! ## The statement -/

/-- Settles O38: each form reads its sources, and then does what its part of the statement says. -/
theorem compareSelectQuantise : Obligations.CompareSelectQuantise := by
  intro o q s hfree
  dsimp only
  refine ⟨⟨(vcmp_gives hfree).1, fun xs u f hok => ⟨_, (vcmp_gives hfree).2 xs u f hok, fun j hj => ?_⟩⟩,
    ⟨(vsel_gives hfree).1, fun xs u f hok => ⟨_, fun k hk => ?_, (vsel_gives hfree).2 xs u f hok⟩⟩,
    fun hwf ha => ⟨fun e he => ?_, fun xs u f hok => ⟨fun ht hb => ?_, fun hb => ⟨fun hq => ?_, fun scales codes b g hq =>
      ⟨fun e he => ?_, fun y hy => ?_⟩⟩⟩⟩,
    fun ht ha => ⟨fun e he => ?_, fun xs u f hok => ⟨fun hb => ?_, fun hb => ⟨fun c n hdec => ?_, fun vs cur hdec =>
      ⟨fun hbit hcur => ?_, fun hcur => ⟨fun e he => ?_, fun y hy => ⟨fun e he => ?_, fun hn => ?_⟩⟩⟩⟩⟩⟩,
    fun hd => ?_, fun hd => ⟨fun e he => ?_, fun xs u f hok => ?_⟩⟩
  · rw [← laneHolds_iff]
    have hbit : (BitVec.ofNat 64 (bitSum (laneHolds o xs) 64)).getLsbD j = laneHolds o xs j := by
      rw [BitVec.getLsbD_ofNat, decide_eq_true hj, Bool.true_and, testBit_bitSum _ hj]
    simp only [BitVec.getLsbD_or, BitVec.getLsbD_and, BitVec.getLsbD_not, hj, decide_true, Bool.true_and, hbit]
    cases (s.preg o.p).getLsbD j <;> simp
  · rw [maskedWord_bit, laneMask_bit _ _ hk]
  · exact vquant_error hfree ha (by rw [veQuant, he])
  · refine vquant_error hfree ha ?_
    rw [veQuant, hok]
    exact if_pos ⟨ht, hb⟩
  · refine vquant_error hfree ha ?_
    rw [veQuant_blocks hok hb, hq]
    rfl
  · refine vquant_error hfree ha ?_
    rw [veQuant_blocks hok hb, hq]
    dsimp only
    rw [finishElems_dest he]
  · obtain ⟨hns, hcodes, hscales⟩ := quant_fits hwf
    obtain ⟨hslen, hclen⟩ := quantBlocks_length hq
    dsimp only at hslen hclen
    obtain ⟨hrise, hlt⟩ := zipIdx_placed (t := o.dty) (o.aux.toNat % 16 * o.ty.count) codes (by omega)
    have hnan := firstNan_plain u o.dty (codes.zipIdx.map fun c => (o.aux.toNat % 16 * o.ty.count + c.2, c.1))
    rw [← codes_eq] at hnan
    obtain ⟨z, m, v, k, hwrite, hplaced, hfin⟩ := finishElems_done (f := f ||| g) (rng := decide (Rm.resolve s.fp.fpctl o.rm = .sr))
      hy hnan hrise hlt
    rw [codes_eq, flagsOf_plain, ← codes_eq] at hfin
    refine ⟨z, m, v, k, putElems (v.vreg (regNum o.c)) .n8 (o.aux.toNat % 16 * (o.ty.count / 32)) scales, hwrite, hplaced,
      fun n hn => elem_putElems _ _ _ (by rw [hslen]; exact hscales) hn, vquant_ok hfree ha ?_⟩
    rw [veQuant_blocks hok hb, hq]
    dsimp only
    rw [hfin]
    dsimp only
    rw [counted_vreg]
    split <;> rfl
  · exact vdeq_error hfree ha (by rw [veDeq, he])
  · refine vdeq_error hfree ha ?_
    rw [veDeq_codes ht hok, if_pos hb]
    rfl
  · refine vdeq_error hfree ha ?_
    rw [veDeq_codes ht hok, hb, if_neg (by decide), hdec]
    rfl
  · refine vdeq_error hfree ha ?_
    rw [veDeq_codes ht hok, hb, if_neg (by decide), hdec]
    dsimp only
    rw [if_pos ⟨hbit, hcur⟩]
    rfl
  · exact vdeq_error hfree ha (by rw [veDeq_results ht hok hb hdec hcur, finishElems_dest he])
  · refine vdeq_error hfree ha ?_
    rw [veDeq_results ht hok hb hdec hcur]
    obtain ⟨p, rfl⟩ := readSrcs_shape hok
    rw [finishElems_nan hy he]
  · obtain ⟨hrise, hlt⟩ := enabled_rising o.dty (s.preg o.p) fun n =>
      convert o.dty (Rm.resolve s.fp.fpctl o.rm) o.fzo false
      (drawVe s.fp.seed s.fp.rngcnt (lanePos o.dty n).1 (lanePos o.dty n).2) (vs.getD n .nan)
    have hdone := veDeq_results ht hok hb hdec hcur
    obtain ⟨p, rfl⟩ := readSrcs_shape hok
    obtain ⟨z, m, v, g, hwrite, hplaced, hfin⟩ := finishElems_done (f := f) (rng := decide (Rm.resolve s.fp.fpctl o.rm = .sr))
      hy hn hrise hlt
    refine ⟨z, m, v, g, hwrite, hplaced, vdeq_ok hfree ha ?_⟩
    rw [hdone, hfin]
    rfl
  · exact exec_ve_error hfree ⟨rfl, rfl⟩ (regs := []) rfl (exec_vamax q s) (r := veAmax q (passed s)) rfl (if_pos hd)
  · exact exec_ve_error hfree ⟨rfl, rfl⟩ (regs := []) rfl (exec_vamax q s) (r := veAmax q (passed s)) rfl
      (by rw [veAmax, if_neg (by omega), he])
  · refine ⟨putElems (s.vreg (regNum q.d)) q.ty 0 ((List.range (q.ty.count / 32)).map fun k =>
      (maxElem q.ty (elem q.ty (s.vreg (regNum q.d)) k)
        (maxAbs q.ty ((List.range 32).map fun n => sourceElem q.ty xs 0 (32 * k + n)))).1), ?_, fun n hn => ?_⟩
    · refine exec_ve_ok hfree ⟨rfl, rfl⟩ (regs := []) rfl (exec_vamax q s) (r := veAmax q (passed s)) rfl ?_
      rw [veAmax, if_neg (by omega), hok]
      rfl
    · rw [elem_putElems _ _ _ (by simp; omega) hn]
      by_cases hlt : n < q.ty.count / 32 <;> simp [hlt, List.getD_eq_getElem?_getD]

end Sys2Proof.CompareSelectQuantise

/-! # Ports, loops, predicates and sampling (05 R131-R136, 10 R306-R308) -/

namespace Sys2Proof.PortsAndSampling

open Sys2Proof.Machine Sys2Proof.Safety Sys2Proof.VectorCommands Sys2Proof.CompareSelectQuantise Sys2Proof.StepsAndTraps

/-! ## Ports and loops -/

/-- A parameter block within its limits (05 R132). -/
def GoodBlock (x : VWord) : Prop :=
  vField x 0 8 < 2 ^ 23 ∧ vField x 0 8 % 64 = 0 ∧ vField x 40 216 = 0 ∧
    ∀ j < 4, vField x (8 + 8 * j) 4 % 64 = 0 ∧ 1 ≤ vField x (12 + 8 * j) 4 ∧ vField x (12 + 8 * j) 4 ≤ 2 ^ 24

theorem goodBlock_iff (x : VWord) : GoodBlock x ↔ vField x 0 8 < 2 ^ 23 ∧ vField x 0 8 % 64 = 0 ∧
    ((List.range 4).map fun j => vField x (8 + 8 * j) 4).all (fun t => t % 64 == 0) = true ∧
    ((List.range 4).map fun j => vField x (12 + 8 * j) 4).all (fun c => decide (1 ≤ c) && decide (c ≤ 2 ^ 24)) = true ∧
    vField x 40 216 = 0 := by
  simp only [GoodBlock, List.all_map, List.all_eq_true, List.mem_range, Function.comp, beq_iff_eq, Bool.and_eq_true,
    decide_eq_true_eq]
  constructor
  · rintro ⟨h1, h2, h3, h4⟩
    exact ⟨h1, h2, fun j hj => (h4 j hj).1, fun j hj => (h4 j hj).2, h3⟩
  · rintro ⟨h1, h2, h4, h5, h3⟩
    exact ⟨h1, h2, h3, fun j hj => ⟨h4 j hj, h5 j hj⟩⟩

theorem portOf_good {x : VWord} (h : GoodBlock x) (wr wrap : Bool) : portOf x wr wrap =
    some ⟨wr, wrap, vField x 0 8, [8, 16, 24, 32].map fun i => BitVec.ofNat 32 (vField x i 4), [12, 20, 28, 36].map fun i => vField x i 4, 0⟩ :=
  if_pos ((goodBlock_iff x).mp h)

theorem portOf_bad {x : VWord} (h : ¬GoodBlock x) (wr wrap : Bool) : portOf x wr wrap = none :=
  if_neg fun hg => h ((goodBlock_iff x).mpr hg)

theorem rotates_iff (s : State) : (s.core.task.map (·.obj.rotates)).getD false = true ↔
    ∃ t, s.core.task = some t ∧ t.obj.rotates = true := by
  cases s.core.task <;> simp

/-- Settles O42: the parameter block decides GCFG, the recorded body VLOOP, VLEND and what is dispatched between them. -/
theorem portsAndLoops : Obligations.PortsAndLoops := by
  refine ⟨fun o s hfree => ⟨fun e he => ?_, fun xs u f hok => ?_⟩, fun o s => ⟨fun hbad => ?_, fun hrot hrec => ⟨fun hfull => ?_, fun hroom => ?_⟩⟩,
    fun o s => ⟨fun hrec => ?_, fun l hrec => ⟨fun hloop => ?_, fun hloop => ?_⟩⟩,
    fun i w s l hop ha hrec => ?_⟩
  · exact exec_ve_error hfree ⟨rfl, rfl⟩ (regs := []) rfl (exec_gcfg o s) (r := veGcfg o (passed s)) rfl (by rw [veGcfg, he])
  · have hbit (k : Nat) : bit o.aux.toNat k = o.aux.getLsbD k := by rw [bit_eq_testBit, BitVec.testBit_toNat]
    show (¬GoodBlock (xs.getD 0 0) → _) ∧ (GoodBlock (xs.getD 0 0) → _)
    refine ⟨fun hbad => ?_, fun hgood => ?_⟩
    · refine exec_ve_error hfree ⟨rfl, rfl⟩ (regs := []) rfl (exec_gcfg o s) (r := veGcfg o (passed s)) rfl ?_
      rw [veGcfg, hok]
      dsimp only
      rw [portOf_bad hbad]
      rfl
    · refine exec_ve_ok hfree ⟨rfl, rfl⟩ (regs := []) rfl (exec_gcfg o s) (r := veGcfg o (passed s)) rfl ?_
      rw [veGcfg, hok]
      dsimp only
      rw [portOf_good hgood, hbit, hbit]
      rfl
  · have hill : (!(s.core.task.map (·.obj.rotates)).getD false || s.ve.recording.isSome) = true := by
      rw [Bool.or_eq_true, Bool.not_eq_true', Option.isSome_iff_ne_none, ← Bool.not_eq_true, rotates_iff]
      exact hbad
    rw [exec_vloop, execVloop, if_pos hill]
    rfl
  · rw [exec_vloop, execVloop, if_neg (by simp [(rotates_iff s).mpr hrot, hrec]), if_pos hfull]
    rfl
  · rw [exec_vloop, execVloop, if_neg (by simp [(rotates_iff s).mpr hrot, hrec]), if_neg (by omega)]
    rfl
  · rw [exec_vlend, execVlend, hrec]
    rfl
  · rw [exec_vlend, execVlend, hrec]
    dsimp only
    rw [if_pos (Option.isSome_iff_ne_none.mpr hloop)]
    rfl
  · rw [exec_vlend, execVlend, hrec]
    dsimp only
    rw [hloop]
    rfl
  · rw [(elementOp_run hop).1]
    exact (((dispatchVe_spec i [] s).2.2 ha).2 rfl).1 l hrec

/-! ## Predicates -/

section
variable {s : State} (h : VeFree s)
include h

/-- A predicate operation at a free VE. -/
theorem exec_pred {i : Instr} (ha : VeAllowed i s) (hexec : exec i s = dispatchVe i [] s) {t : State}
    (hrun : veRun (mkCmd i [] s) (passed s) = .done t) : exec i s = .next t :=
  exec_ve_ok h ha (regs := []) rfl hexec (r := .ok t) hrun rfl

theorem vseed_gives (v : Va) (ha : VeAllowed (.vseed v) s) :
    (∀ e, readSrcs (passed s) [v.a] = .error e → exec (.vseed v) s = .next (veStopped (.vseed v) [] s e)) ∧
    ∀ xs u f, readSrcs (passed s) [v.a] = .ok (xs, u, f) → exec (.vseed v) s = .next (counted (u.modFp fun r => { r with
      seed := (xs.getD 0 0).extractLsb' 0 64, rngcnt := (xs.getD 0 0).extractLsb' 64 64 }) f false) := by
  refine ⟨fun e he => ?_, fun xs u f hok => ?_⟩
  · exact exec_ve_error h ha (regs := []) rfl (exec_vseed v s) (r := veSeed v (passed s)) rfl (by rw [veSeed, he])
  · exact exec_ve_ok h ha (regs := []) rfl (exec_vseed v s) (r := veSeed v (passed s)) rfl (by rw [veSeed, hok]; rfl)

end

/-! ## VTOPK -/

/-- The candidates that a VTOPK offers. -/
theorem candidates_eq {α β : Type} (nan : α → Bool) (g : α → β) (l : List α) :
    (l.filterMap fun n => if nan n then none else some (g n)) = (l.filter fun n => !nan n).map g := by
  rw [← filterMap_ite_some]
  refine List.filterMap_congr fun n _ => ?_
  cases nan n <;> rfl

section
variable {o : Vx} {a base : Word} {s u : State} {l : CandList} {xs : List VWord} {f : Flags}

theorem veTopk_align (h : a.toNat % 64 ≠ 0) : veTopk o a base s = .error ⟨.align, 64, a⟩ := by
  rw [veTopk, listAligned, if_neg h]
  rfl

variable (hal : a.toNat % 64 = 0)
include hal

theorem veTopk_list {e : Fail} (he : startList o a s = .error e) : veTopk o a base s = .error e := by
  rw [veTopk, listAligned, if_pos hal, he]

variable (hl : startList o a s = .ok l)
include hl

theorem veTopk_source {e : Fail} (he : readSrcs s [o.a] = .error e) : veTopk o a base s = .error e := by
  rw [veTopk, listAligned, if_pos hal, hl, he]

variable (hok : readSrcs s [o.a] = .ok (xs, u, f))
include hok

theorem veTopk_token (h : ∃ n ∈ enabledElems o.ty (s.preg o.p), 2 ^ 20 ≤ base.toNat + n) :
    veTopk o a base s = .error ⟨.illegal, 0, 0⟩ := by
  have hall : ¬((enabledElems o.ty (s.preg o.p)).all fun i => decide (base.toNat + i < 2 ^ 20)) = true := by
    obtain ⟨n, hn, hbig⟩ := h
    intro hall
    have := List.all_eq_true.mp hall n hn
    rw [decide_eq_true_eq] at this
    omega
  rw [veTopk, listAligned, if_pos hal, hl, hok]
  exact if_neg hall

theorem veTopk_done (h : ∀ n ∈ enabledElems o.ty (s.preg o.p), base.toNat + n < 2 ^ 20) :
    let wide (n : Nat) : Nat := widen o.ty (flushIn o.ty o.fzi (sourceElem o.ty xs 0 n))
    let l2 : CandList := ⟨l.cap, insertAll l.cap l.entries (((enabledElems o.ty (s.preg o.p)).filter fun n =>
      !(decodeTy .f32 (wide n)).isNan).map fun n => (if (decodeTy .f32 (wide n)).isZero then 0 else wide n, base.toNat + n))⟩
    veTopk o a base s = .ok (counted ((engineWrite u a.toNat (listBytes l2)).1.setRes (BitVec.ofNat 64 l2.entries.length)) f false) := by
  have hall : ((enabledElems o.ty (s.preg o.p)).all fun i => decide (base.toNat + i < 2 ^ 20)) = true :=
    List.all_eq_true.mpr fun n hn => decide_eq_true (h n hn)
  rw [veTopk, listAligned, if_pos hal, hl, hok]
  dsimp only
  rw [if_pos hall, candidates_eq]
  rfl

end

/-! ## VDRAW -/

theorem sumFirst_eq (w : List Nat) (n : Nat) : sumFirst w n = (w.take n).sum := by rw [sumFirst, List.sum_eq_foldl]

theorem sum_take_le (w : List Nat) {m n : Nat} (h : m ≤ n) : (w.take m).sum ≤ (w.take n).sum :=
  (List.take_sublist_take_left h).sum_le_sum fun _ _ => Nat.zero_le _

/-- The initial part whose mass suffices first. -/
theorem leastPrefix_eq {w : List Nat} {goal n : Nat} (h1 : 1 ≤ n) (hn : n ≤ w.length) (hmass : goal ≤ (w.take n).sum)
    (hleast : ∀ m, 1 ≤ m → m < n → (w.take m).sum < goal) : leastPrefix w goal = n := by
  have hfind : ((List.range w.length).find? fun i => decide (goal ≤ sumFirst w (i + 1))) = some (n - 1) := by
    rw [List.find?_range_eq_some]
    refine ⟨?_, List.mem_range.mpr (by omega), fun j hj => ?_⟩
    · rw [sumFirst_eq, Nat.sub_add_cancel h1, decide_eq_true hmass]
    · have := hleast (j + 1) (by omega) (by omega)
      rw [sumFirst_eq, Bool.not_eq_true', decide_eq_false_iff_not]
      omega
  rw [leastPrefix, hfind]
  exact Nat.sub_add_cancel h1

/-- The entry whose share of the mass holds the draw. -/
theorem drawn_eq {w : List Nat} {q j : Nat} (hj : j < w.length) (hlt : q < (w.take (j + 1)).sum) (hge : (w.take j).sum ≤ q) :
    ((List.range w.length).find? fun i => decide (q < sumFirst w (i + 1))) = some j := by
  rw [List.find?_range_eq_some]
  refine ⟨?_, List.mem_range.mpr hj, fun i hi => ?_⟩
  · rw [sumFirst_eq, decide_eq_true hlt]
  · have := sum_take_le w (show i + 1 ≤ j by omega)
    rw [sumFirst_eq, Bool.not_eq_true', decide_eq_false_iff_not]
    omega

/-- Weights that the rules state are taken as they are. -/
theorem weights_eq (ws : List Nat) (free : Nat) :
    ((ws.map some).zipIdx.map fun x => x.1.getD (Config.freeWord (free + x.2)).toNat) = ws := by
  apply List.ext_getElem
  · simp
  · intro i _ _
    simp

theorem drawArgsOk_iff (beta mass : Nat) : drawArgsOk beta mass = true ↔
    (decodeTy .f32 beta).isNan = false ∧ (decodeTy .f32 beta).lt (.fin false 0 0) = false ∧
      (decodeTy .f32 mass).isNan = false ∧ (Val.fin false 0 0).lt (decodeTy .f32 mass) = true ∧
      (Val.fin false 1 0).lt (decodeTy .f32 mass) = false := by
  simp only [drawArgsOk, Bool.and_eq_true, Bool.not_eq_true', and_assoc]

/-- `s` after a draw that answers `v`. -/
def drawn (s : State) (v : Word) : State := (s.setRes v).modFp fun r => { r with rngcnt := r.rngcnt + 1 }

section
variable {o : Vx} {a : Word} {s : State}

theorem veDraw_align (h : a.toNat % 64 ≠ 0) : veDraw o a s = .error ⟨.align, 64, a⟩ := by
  rw [veDraw, listAligned, if_neg h]
  rfl

variable (hal : a.toNat % 64 = 0)
include hal

theorem veDraw_bad (h : ¬drawArgsOk (elem .n32 (s.vreg (regNum o.a)) 0) (elem .n32 (s.vreg (regNum o.a)) 1) = true) :
    veDraw o a s = .error ⟨.illegal, 0, 0⟩ := by
  rw [veDraw, listAligned, if_pos hal]
  exact if_neg h

variable (hargs : drawArgsOk (elem .n32 (s.vreg (regNum o.a)) 0) (elem .n32 (s.vreg (regNum o.a)) 1) = true)
include hargs

theorem veDraw_list {e : Fail} (he : readList s a = .error e) : veDraw o a s = .error e := by
  rw [veDraw, listAligned, if_pos hal]
  dsimp only
  rw [if_pos hargs, he]

variable {l : CandList} (hl : readList s a = .ok l)
include hl

theorem veDraw_empty (h : l.entries = []) : veDraw o a s = .ok (drawn s 0x0100000000000000) := by
  rw [veDraw, listAligned, if_pos hal]
  dsimp only
  rw [if_pos hargs, hl]
  dsimp only
  rw [h]
  rfl

theorem veDraw_entry {ws : List Nat} (hne : l.entries ≠ [])
    (hws : l.entries.map (fun x => drawWeight (l.entries.getD 0 (0, 0)).1 (elem .n32 (s.vreg (regNum o.a)) 0) x.1) = ws.map some)
    {n j : Nat} (h1 : 1 ≤ n) (hn : n ≤ ws.length)
    (hmass : ceilMass (elem .n32 (s.vreg (regNum o.a)) 1) (ws.take ws.length).sum ≤ (ws.take n).sum)
    (hleast : ∀ m, 1 ≤ m → m < n → (ws.take m).sum < ceilMass (elem .n32 (s.vreg (regNum o.a)) 1) (ws.take ws.length).sum)
    (hj : j < ws.length) (hlt : (laneWord s.fp.seed s.fp.rngcnt 0).toNat / 2 ^ 24 * (ws.take n).sum / 2 ^ 40 < (ws.take (j + 1)).sum)
    (hge : (ws.take j).sum ≤ (laneWord s.fp.seed s.fp.rngcnt 0).toNat / 2 ^ 24 * (ws.take n).sum / 2 ^ 40) :
    veDraw o a s = .ok (drawn s (BitVec.ofNat 64 (l.entries.getD j (0, 0)).2)) := by
  have hbits : bits (laneWord s.fp.seed s.fp.rngcnt 0).toNat 24 40 = (laneWord s.fp.seed s.fp.rngcnt 0).toNat / 2 ^ 24 := by
    have := (laneWord s.fp.seed s.fp.rngcnt 0).isLt
    simp only [bits]
    omega
  have hall : (ws.map some).all Option.isSome = true := by simp
  rw [veDraw, listAligned, if_pos hal]
  dsimp only
  rw [if_pos hargs, hl]
  dsimp only
  split
  · exact absurd ‹_› hne
  · rename_i x0 rest hcons
    have hhead : (l.entries.getD 0 (0, 0)).1 = x0.1 := by rw [hcons]; rfl
    rw [hhead] at hws
    rw [hws, weights_eq, if_pos hall, sumFirst_eq ws ws.length, leastPrefix_eq h1 hn hmass hleast, hbits, sumFirst_eq ws n,
      drawn_eq hj hlt hge]
    rfl

end

/-! ## The statement -/

/-- Settles O43: the predicate operations and VSEED at once; VTOPK and VDRAW check by check. -/
theorem predicatesAndSampling : Obligations.PredicatesAndSampling := by
  refine ⟨fun o v s hfree => ⟨?_, ?_, fun ha => vseed_gives hfree v ha⟩, fun o s hfree => ⟨fun ha hr => ?_, fun ha hr => ?_⟩⟩
  · simp only [List.forall_mem_cons]
    exact ⟨exec_pred hfree ⟨rfl, rfl⟩ (exec_pset o s) rfl, exec_pred hfree ⟨rfl, rfl⟩ (exec_pand o s) rfl,
      exec_pred hfree ⟨rfl, rfl⟩ (exec_por o s) rfl, exec_pred hfree ⟨rfl, rfl⟩ (exec_pxor o s) rfl,
      exec_pred hfree ⟨rfl, rfl⟩ (exec_pnot o s) rfl, exec_pred hfree ⟨rfl, rfl⟩ (exec_pandn o s) rfl, List.forall_mem_nil _⟩
  · rw [← ScalarArithmetic.population_eq]
    exact exec_pred hfree ⟨rfl, rfl⟩ (exec_pcnt v s) rfl
  · have hrun : veRun (mkCmd (.vtopk o) [s.sreg (sregOf o.d), s.sreg (sregOf o.b)] s) (passed s) =
        veRes (passed s) (veTopk o (s.sreg (sregOf o.d)) (s.sreg (sregOf o.b)) (passed s)) := rfl
    have hstop {e : Fail} (he : veTopk o (s.sreg (sregOf o.d)) (s.sreg (sregOf o.b)) (passed s) = .error e) :
        exec (.vtopk o) s = .next (veStopped (.vtopk o) [s.sreg (sregOf o.d), s.sreg (sregOf o.b)] s e) :=
      exec_ve_error hfree ha hr (exec_vtopk o s) hrun he
    refine ⟨fun hal => hstop (veTopk_align hal), fun hal => ⟨fun e he => hstop (veTopk_list hal he), fun l hl =>
      ⟨fun e he => hstop (veTopk_source hal hl he), fun xs u f hok => ⟨fun hbig => hstop (veTopk_token hal hl hok hbig), fun hok' => ?_⟩⟩⟩⟩
    exact exec_ve_ok hfree ha hr (exec_vtopk o s) hrun (veTopk_done hal hl hok hok')
  · have hrun : veRun (mkCmd (.vdraw o) [s.sreg (sregOf o.d)] s) (passed s) =
        veRes (passed s) (veDraw o (s.sreg (sregOf o.d)) (passed s)) := rfl
    have hstop {e : Fail} (he : veDraw o (s.sreg (sregOf o.d)) (passed s) = .error e) :
        exec (.vdraw o) s = .next (veStopped (.vdraw o) [s.sreg (sregOf o.d)] s e) :=
      exec_ve_error hfree ha hr (exec_vdraw o s) hrun he
    have hdone {t : State} (ht : veDraw o (s.sreg (sregOf o.d)) (passed s) = .ok t) : exec (.vdraw o) s = .next t :=
      exec_ve_ok hfree ha hr (exec_vdraw o s) hrun ht
    dsimp only
    refine ⟨fun hal => hstop (veDraw_align hal), fun hal => ⟨fun hbad => hstop (veDraw_bad hal ?_), fun hgood => ?_⟩⟩
    · rw [drawArgsOk_iff]
      exact hbad
    · have hargs : drawArgsOk (elem .n32 ((passed s).vreg (regNum o.a)) 0) (elem .n32 ((passed s).vreg (regNum o.a)) 1) = true :=
        (drawArgsOk_iff _ _).mpr hgood
      exact ⟨fun e he => hstop (veDraw_list hal hargs he), fun l hl => ⟨fun he => hdone (veDraw_empty hal hargs hl he),
        fun ws hne hws n h1 hn hmass hleast j hj hlt hge => hdone (veDraw_entry hal hargs hl hne hws h1 hn hmass hleast hj hlt hge)⟩⟩

end Sys2Proof.PortsAndSampling

/-! # ACCRD, COMMIT and ACCWR (06 R166-R169) -/

namespace Sys2Proof.AccumulatorTransfers

open Sys2Proof.Machine Sys2Proof.Safety Sys2Proof.VectorCommands Sys2Proof.CompareSelectQuantise

/-! ## Words of four bytes in a row -/

/-- Memory with numbers written at some keys, four bytes each. -/
def wordsPut (key : Nat → Nat) (m : List Host.Cell) (res : List (Nat × Conv)) : List Host.Cell :=
  res.foldl (fun m r => memSetList m (key r.1) (leBytes 4 r.2.1)) m

section
variable {key : Nat → Nat} {m : List Host.Cell} (hw : Memory.wf m = true) {res : List (Nat × Conv)}
include hw

theorem wordsPut_wf : Memory.wf (wordsPut key m res) = true := by
  induction res generalizing m with
  | nil => exact hw
  | cons r res ih => exact ih (memSetList_wf hw _ _)

theorem wordsPut_out {k : Nat} (hk : ∀ r ∈ res, ∀ i < 4, k ≠ key r.1 + i) : memGet (wordsPut key m res) k = memGet m k := by
  induction res generalizing m with
  | nil => rfl
  | cons r res ih =>
    refine (ih (memSetList_wf hw _ _) fun x hx => hk x (List.mem_cons_of_mem _ hx)).trans (memGet_memSetList_out hw _ _ _ ?_)
    have h := hk r List.mem_cons_self
    rw [leBytes_length]
    by_contra hin
    exact h (k - key r.1) (by omega) (by omega)

/-- Places that lie four bytes apart keep what was written to them. -/
theorem wordsPut_in (hapart : ∀ a b, a < b → key a + 4 ≤ key b) (hrise : res.Pairwise fun a b => a.1 < b.1) {r : Nat × Conv}
    (hr : r ∈ res) {i : Nat} (hi : i < 4) : memGet (wordsPut key m res) (key r.1 + i) = BitVec.ofNat 8 (r.2.1 / 2 ^ (8 * i)) := by
  induction res generalizing m with
  | nil => cases hr
  | cons x res ih =>
    rw [List.pairwise_cons] at hrise
    obtain ⟨hlt, hrise⟩ := hrise
    rcases List.mem_cons.mp hr with rfl | hr
    · have hlen : i < (leBytes 4 r.2.1).length := by rw [leBytes_length]; exact hi
      refine (wordsPut_out (memSetList_wf hw _ _) fun y hy j hj e => ?_).trans ?_
      · have := hapart r.1 y.1 (hlt y hy)
        omega
      · rw [memGet_memSetList_in hw _ i _ hlen, leBytes_get, Nat.pow_mul]
    · exact ih (memSetList_wf hw _ _) hrise hr

end

/-! ## Elements of a slot -/

theorem accElemKey_eq (s : State) (slot row col i : Nat) :
    accKey s.core.agent.val (2 ^ 17 * slot + 1024 * row + 4 * col + i) = accElemKey s slot row col + i := by
  unfold accElemKey accKey
  omega

theorem accGet_eq (s : State) (slot row col : Nat) : accGet s slot row col =
    memNumber s 4 (fun i => accKey s.core.agent.val (2 ^ 17 * slot + 1024 * row + 4 * col + i)) := by
  simp only [accGet, State.le, State.bytes, bytes_eq, memNumber, accElemKey_eq]

/-- Elements written to a row of a slot. -/
theorem accPut_fold (u : State) (slot row col : Nat) (res : List (Nat × Conv)) :
    res.foldl (fun t r => accPut t slot row (col + r.1) r.2.1) u =
      { u with mem := wordsPut (fun n => accElemKey u slot row (col + n)) u.mem res } := by
  have hgen (m : List Host.Cell) : res.foldl (fun t r => accPut t slot row (col + r.1) r.2.1) { u with mem := m } =
      { u with mem := wordsPut (fun n => accElemKey u slot row (col + n)) m res } := by
    induction res generalizing m with
    | nil => rfl
    | cons r res ih => exact ih (memSetList m (accElemKey u slot row (col + r.1)) (leBytes 4 r.2.1))
  exact hgen u.mem

/-! ## ACCRD -/

/-- The results of a transfer that `s` performs. -/
def transferred (o : Vx) (s : State) : List (Nat × Conv) :=
  (List.range o.dty.count).map fun k => (k, convertBits (slotTy s (accSlot o)) o.dty (Rm.resolve s.fp.fpctl o.rm) false o.fzo o.sat
    (drawVe s.fp.seed s.fp.rngcnt (lanePos o.dty k).1 (lanePos o.dty k).2)
    (accGet s (accSlot o) (accRow o) (accCol o o.dty.count + k)))

theorem transferred_rising (o : Vx) (s : State) :
    (transferred o s).Pairwise (fun a b => a.1 < b.1) ∧ ∀ r ∈ transferred o s, r.1 < o.dty.count := by
  unfold transferred
  constructor
  · rw [List.pairwise_map]
    exact List.pairwise_lt_range
  · intro r hr
    obtain ⟨n, hn, rfl⟩ := List.mem_map.mp hr
    exact List.mem_range.mp hn

section
variable {o : Vx} {s : State} (h : VeFree s)
include h

theorem accrd_run : veRun (mkCmd (.accrd o) [] s) (passed s) =
    veRes (passed s) (veAccrd o (mkCmd (.accrd o) [] s) true (passed s)) := by
  show veRes (passed s) (veAccrd o (mkCmd (.accrd o) [] s) (!veBlocked (passed s) (mkCmd (.accrd o) [] s)) (passed s)) = _
  rw [veBlocked_free h]
  rfl

theorem accrd_busy (ha : VeAllowed (.accrd o) s) (hl : s.ve.landing[accXfer o] ≠ none) : exec (.accrd o) s = .next (veStopped (.accrd o) [] s ⟨.illegal, 0, 0⟩) :=
  exec_ve_error h ha (regs := []) rfl (exec_accrd o s) (accrd_run h) (if_pos (Option.isSome_iff_ne_none.mpr hl))

/-- A transfer that lands at once. -/
theorem veAccrd_lands (hl : s.ve.landing[accXfer o] = none) : veAccrd o (mkCmd (.accrd o) [] s) true (passed s) =
    match firstNan s o.dty (transferred o s) with
    | some e => .error e
    | none => .ok (counted ((passed s).setLanding (accXfer o) (some ⟨physV s.ve.vrb (regNum o.d), o, s.scc.idx, s.fp.seed, s.fp.rngcnt,
        some (elemWord o.dty ((transferred o s).map fun x => (x.1, x.2.1)))⟩)) (flagsOf 0 (transferred o s))
        (decide (Rm.resolve s.fp.fpctl o.rm = .sr))) := by
  have hfree : ¬((passed s).ve.landing[accXfer o]).isSome = true := by
    rw [show (passed s).ve = s.ve from rfl, hl]
    exact Bool.false_ne_true
  have horder : (true && (passed s).core.inOrder) = true := h.1
  have hzero (f : Flags) : (0 : Flags) ||| f = f := BitVec.zero_or
  unfold veAccrd
  rw [if_neg hfree]
  dsimp only
  rw [if_pos horder]
  by_cases hsr : Rm.resolve s.fp.fpctl o.rm = .sr
  · have hsr' : Rm.resolve (passed s).fp.fpctl o.rm = .sr := hsr
    rw [if_pos hsr', flagsOf_eq, hzero, decide_eq_true hsr]
    unfold landNow
    show (match firstNan s o.dty (transferred o s) with | some e => _ | none => _) = _
    cases firstNan s o.dty (transferred o s) <;> rfl
  · have hsr' : ¬Rm.resolve (passed s).fp.fpctl o.rm = .sr := hsr
    rw [if_neg hsr', flagsOf_eq, hzero, decide_eq_false hsr]
    unfold landNow
    show (match firstNan s o.dty (transferred o s) with | some e => _ | none => _) = _
    cases firstNan s o.dty (transferred o s) <;> rfl

end

/-! ## COMMIT -/

theorem modVe_head {x : State} (h : x.ve.queue = []) (c : Cmd) :
    (x.modVe fun r => { r with queue := c :: r.queue }) = x.modVe fun r => { r with queue := [c] } := by
  have h' : x.core.regs.ve.queue = [] := h
  unfold State.modVe State.modRegs
  simp only [h']

theorem commit_eq {c : Va} {s : State} (h : VeFree s) : exec (.commit c) s = .next (
    match s.ve.landing[(Fin.ofNat 16 c.a.val : Fin 16)] with
    | none => veStopped (.commit c) [] s ⟨.illegal, 0, 0⟩
    | some l =>
      match l.data with
      | none => (passed s).modVe fun r => { r with queue := [mkCmd (.commit c) [] s] }
      | some x => ((passed s).setLanding (Fin.ofNat 16 c.a.val) none).modVe fun r => { r with v := r.v.set l.dest x }) := by
  have hrun : veRun (mkCmd (.commit c) [] s) (passed s) = veCommit c (passed s) := rfl
  have hland : (passed s).ve.landing = s.ve.landing := rfl
  refine ((exec_commit c s).trans (dispatchVe_free h (regs := []) ⟨rfl, rfl⟩ rfl)).trans (congrArg _ ?_)
  rw [List.map_nil, hrun, veCommit, hland]
  cases s.ve.landing[(Fin.ofNat 16 c.a.val : Fin 16)] with
  | none => exact veRes_stop h _ _ _
  | some l =>
    dsimp only
    cases l.data with
    | none => exact modVe_head (x := passed s) h.2.1 _
    | some x => rfl

/-! ## ACCWR -/

/-- The results of an ACCWR whose sources are `xs`. -/
def stored (o : Vx) (s : State) (xs : List VWord) : List (Nat × Conv) :=
  (enabledElems o.ty (s.preg o.p)).map fun k => (k, convertBits o.ty (slotTy s (accSlot o)) (Rm.resolve s.fp.fpctl o.rm) o.fzi false o.sat
    (drawVe s.fp.seed s.fp.rngcnt (lanePos o.ty k).1 (lanePos o.ty k).2) (sourceElem o.ty xs 0 k))

theorem veAccwr_eq {o : Vx} {s u : State} {xs : List VWord} {f : Flags} (hok : readSrcs (passed s) [o.a] = .ok (xs, u, f)) :
    veAccwr o (passed s) = match firstNan s o.ty (stored o s xs) with
      | some e => .error e
      | none => .ok (counted { u with mem := wordsPut (fun n => accElemKey u (accSlot o) (accRow o) (accCol o o.ty.count + n)) u.mem (stored o s xs) }
          (flagsOf f (stored o s xs)) (decide (Rm.resolve s.fp.fpctl o.rm = .sr))) := by
  unfold veAccwr
  rw [hok, flagsOf_eq]
  dsimp only
  show (match firstNan s o.ty (stored o s xs) with
    | some e => Except.error e
    | none => Except.ok (if Rm.resolve s.fp.fpctl o.rm = Rm.sr then _ else _)) = _
  cases firstNan s o.ty (stored o s xs) with
  | some e => rfl
  | none =>
    dsimp only
    rw [← counted_eq, ← accPut_fold]
    show Except.ok (if Rm.resolve s.fp.fpctl o.rm = Rm.sr then State.modFp (State.addFlags (List.foldl _ u (stored o s xs))
      (f ||| allFlags ((stored o s xs).map fun x => x.2.2))) _ else
      State.addFlags (List.foldl _ u (stored o s xs)) (f ||| allFlags ((stored o s xs).map fun x => x.2.2))) = _
    by_cases hsr : Rm.resolve s.fp.fpctl o.rm = .sr <;> simp [hsr]

/-- Settles O41: a free VE performs each form at once. -/
theorem accumulatorTransfers : Obligations.AccumulatorTransfers := by
  intro o c s hfree hwf
  have hslot : o.aux.toNat / 2 ^ 10 % 4 = accSlot o := rfl
  have hrow : o.aux.toNat / 2 ^ 3 % 128 = accRow o := rfl
  have hcol (n : Nat) : o.aux.toNat % 8 * n = accCol o n := by simp [accCol, bits]
  dsimp only
  rw [hslot, hrow]
  simp only [hcol, accElemKey_eq]
  refine ⟨fun ha => ⟨fun hl => accrd_busy hfree ha hl, fun hl => ?_⟩, ⟨fun hl => ?_, fun t hl hd => ?_, fun t x hl hd => ?_⟩,
    fun ha => ⟨fun e he => ?_, fun xs u f hok => ?_⟩⟩
  · show (∀ e, firstNan s o.dty (transferred o s) = some e → _) ∧ (firstNan s o.dty (transferred o s) = none → _)
    have hland := veAccrd_lands hfree hl
    refine ⟨fun e he => ?_, fun hn => ⟨elemWord o.dty ((transferred o s).map fun x => (x.1, x.2.1)), ?_, ?_⟩⟩
    · exact exec_ve_error hfree ha (regs := []) rfl (exec_accrd o s) (accrd_run hfree) (by rw [hland, he])
    · exact exec_ve_ok hfree ha (regs := []) rfl (exec_accrd o s) (accrd_run hfree) (by rw [hland, hn]; rfl)
    · obtain ⟨hrise, hlt⟩ := transferred_rising o s
      obtain ⟨hset, _, _⟩ := placed_elemWord o.dty _ hrise hlt
      exact fun r hr => (hset r hr).1
  · rw [commit_eq hfree, hl]
  · rw [commit_eq hfree, hl]
    dsimp only
    rw [hd]
    rfl
  · rw [commit_eq hfree, hl]
    dsimp only
    rw [hd]
    rfl
  · exact exec_ve_error hfree ha (regs := []) rfl (exec_accwr o s) (r := veAccwr o (passed s)) rfl (by rw [veAccwr, he])
  · show (∀ e, firstNan s o.ty (stored o s xs) = some e → _) ∧ (firstNan s o.ty (stored o s xs) = none → _)
    have hwrite := veAccwr_eq hok
    obtain ⟨p, rfl⟩ := readSrcs_shape hok
    refine ⟨fun e he => ?_, fun hn => ⟨wordsPut (fun n => accElemKey s (accSlot o) (accRow o)
      (accCol o o.ty.count + n)) s.mem (stored o s xs), ?_, fun r hr i hi => ?_, fun k hk => ?_⟩⟩
    · exact exec_ve_error hfree ha (regs := []) rfl (exec_accwr o s) (r := veAccwr o (passed s)) rfl (by rw [hwrite, he])
    · exact exec_ve_ok hfree ha (regs := []) rfl (exec_accwr o s) (r := veAccwr o (passed s)) rfl (by rw [hwrite, hn]; rfl)
    · refine wordsPut_in hwf (fun a b hab => ?_) ?_ hr hi
      · simp only [accElemKey, accKey]
        omega
      · exact (enabled_rising ..).1
    · exact wordsPut_out hwf hk

end Sys2Proof.AccumulatorTransfers

/-! # Commands of the matrix engine that a free engine performs at once (06 R139, R145, R165, R170) -/

namespace Sys2Proof.Matrices

open Sys2Proof.Machine Sys2Proof.Safety Sys2Proof.StepsAndTraps

/-! ## Performed at dispatch -/

section
variable {s : State} (h : MeFree s)
include h

theorem meIdle_free : meIdle s = true := by
  obtain ⟨hord, hq, hr, hp, _⟩ := h
  simp [meIdle, hord, hq, hr, hp]

theorem nothing_waits : veAllRanges (passed s) ++ cpAllRanges (passed s) = [] ∧ ∀ c, boundWaits (passed s) c = false := by
  obtain ⟨_, _, _, _, hvq, hvl, hvr, hland, hcq, hcc⟩ := h
  have hlanding : (passed s).ve.landing.toList.filterMap (fun x : Option Landing =>
      x.bind fun l => if l.data.isNone then some (l.idx, veRanges (passed s) false ⟨.accrd l.cmd, [], l.idx, 0, .rne⟩) else none) = [] := by
    rw [List.filterMap_eq_nil_iff]
    intro x hx
    obtain ⟨n, hn, rfl⟩ := Vector.mem_iff_getElem.mp (Vector.mem_toList_iff.mp hx)
    rw [show (passed s).ve.landing[n] = none from hland ⟨n, hn⟩]
    rfl
  have hwait : veWaiting (passed s) = [] := by
    rw [veWaiting, show (passed s).ve.queue = [] from hvq, show (passed s).ve.loop = none from hvl,
      show (passed s).ve.recording = none from hvr]
    rfl
  have hcopies : (passed s).cp.copies = [] := hcc
  have hqueue : (passed s).cp.queue = [] := hcq
  refine ⟨?_, fun c => ?_⟩
  · rw [veAllRanges, landingRanges, cpAllRanges, cpRunRanges, hlanding, hwait, hcopies, hqueue]
    rfl
  · rw [boundWaits, hcopies, hqueue]
    rfl

/-- Nothing that another engine has left to do holds a command back. -/
theorem meTry_free (c : Cmd) : meTry c (passed s) = meRun c (passed s) := by
  obtain ⟨hranges, hbound⟩ := nothing_waits h
  simp [meTry, meBlocked, conflicts, hranges, hbound]

variable {i : Instr} {vals : List Word}

theorem queueMe_done {t : State} (hrun : meRun (mkCmd i vals s) (passed s) = .done t) :
    queueMe (mkCmd i vals s) s = meSettle (meFuel t) t := by
  rw [queueMe_idle (meIdle_free h), mePerform, meTry_free h, hrun]

theorem queueMe_wait {t : State} (hrun : meRun (mkCmd i vals s) (passed s) = .wait t) (ht : t.me.run = none) :
    queueMe (mkCmd i vals s) s = t.modMe fun r => { r with queue := mkCmd i vals s :: r.queue } := by
  rw [queueMe_idle (meIdle_free h), mePerform, meTry_free h, hrun]
  exact meSettle_done (s := t.modMe _) (by exact ht) _

theorem queueMe_stop {e : Fail} (hrun : meRun (mkCmd i vals s) (passed s) = .stop (passed s) e 0) :
    queueMe (mkCmd i vals s) s = meStopped i vals s e := by
  have hidle := meIdle_free h
  have htry := meTry_free h (mkCmd i vals s)
  obtain ⟨_, hq, hr, _⟩ := h
  have hq' : s.core.regs.me.queue = [] := hq
  rw [queueMe_idle hidle, mePerform, htry, hrun]
  refine (meSettle_done (by exact hr) _).trans ?_
  simp only [meStop, meStopped, passed, wrote, withScc, State.modMe, State.modRegs, hq'] <;> rfl

end

/-! ## Issue -/

section
variable {s : State} {i : Instr} {regs : List SReg} {slots : List Nat}

theorem dispatchMe_ready (hs : slots.all s.declares = true) (hr : ready s regs = true) :
    dispatchMe i regs slots s = .next (queueMe (mkCmd i (regs.map s.sreg) s) s) := by
  simp [dispatchMe, hs, hr]

theorem dispatchMe_undeclared (hs : slots.all s.declares = false) : dispatchMe i regs slots s = .next (illegal s) := by
  simp [dispatchMe, hs]

end

/-! ## Clearing a slot -/

theorem meZero_run (o : Mm) (s : State) : meZero o s = { s.modMe fun r => { r with
    intSlot := r.intSlot.set o.acc (o.fl.getLsbD 0) } with
    mem := memClear s.mem (accKey s.core.agent.val (2 ^ 17 * o.acc.val)) (accKey s.core.agent.val (2 ^ 17 * (o.acc.val + 1))) } := by
  have hend : accElemKey s o.acc.val 0 0 + 2 ^ 17 = accKey s.core.agent.val (2 ^ 17 * (o.acc.val + 1)) := by
    simp only [accElemKey, accKey]
    omega
  have hbit : bit o.fl.toNat 0 = o.fl.getLsbD 0 := (bit_eq_testBit _ _).trans rfl
  rw [meZero, clearSlot, hend, hbit]
  rfl

theorem exec_mzero_free {s : State} (h : MeFree s) (o : Mm) (hd : s.declares o.acc.val = true) :
    exec (.mzero o) s = .next (meZero o (passed s)) := by
  refine (exec_mzero o s).trans ((dispatchMe_ready (by simp [hd]) rfl).trans (congrArg _ ?_))
  rw [queueMe_done h (t := meZero o (passed s)) rfl]
  obtain ⟨_, _, hr, _⟩ := h
  exact meSettle_done (by exact hr) _

theorem memGet_consed {m : List Host.Cell} {k b a} (h : Memory.wfFrom (k + 1) m = true) :
    memGet ((k, b) :: m) a = if k = a then b else memGet m a := by
  rw [memGet]
  split
  · rfl
  · split
    · exact (memGet_below h (by omega)).symm
    · rfl

/-- A range that is cleared reads as zero, and every other byte as before. -/
theorem memGet_memClear {m : List Host.Cell} (h : Memory.wf m = true) (lo hi k : Nat) :
    memGet (memClear m lo hi) k = if lo ≤ k ∧ k < hi then 0 else memGet m k := by
  have hgen (n : Nat) (hn : Memory.wfFrom n m = true) :
      memGet (memClear m lo hi) k = if lo ≤ k ∧ k < hi then 0 else memGet m k := by
    clear h
    induction m generalizing n with
    | nil => exact (ite_self _).symm
    | cons c m ih =>
      obtain ⟨a, b⟩ := c
      obtain ⟨_, _, hm⟩ := wfFrom_cons hn
      have hih := ih _ hm
      rw [memGet_consed hm]
      by_cases hin : a < lo ∨ hi ≤ a
      · rw [memClear, List.filter_cons_of_pos (by simpa using hin), memGet_consed (filter_wfFrom hm _)]
        rw [memClear] at hih
        rw [hih]
        by_cases hk : a = k
        · rw [if_pos hk, if_pos hk, if_neg (by omega)]
        · rw [if_neg hk, if_neg hk]
      · rw [memClear, List.filter_cons_of_neg (by simpa using hin)]
        rw [memClear] at hih
        rw [hih]
        by_cases hk : a = k
        · rw [if_pos (by omega), if_pos (by omega)]
        · rw [if_neg hk]
  exact hgen 0 h

/-- A machine whose memory lists a byte of slot 0 before a byte of key 0: no reachable memory is so, and the statement
does not exclude it. -/
def unordered : State :=
  { State.reset with core := { Core.reset 0 with task := some placedTask }, mem := [(2 ^ 53, 1), (0, 1)] }

theorem unordered_free : MeFree unordered :=
  ⟨rfl, rfl, rfl, rfl, rfl, rfl, rfl, fun n => Vector.getElem_replicate n.isLt, rfl, rfl⟩

/-- Once slot 0 is cleared, byte 0 reads otherwise. -/
theorem unordered_cleared : memGet (memClear (passed unordered).mem (accKey (passed unordered).core.agent.val (2 ^ 17 * (0 : Fin 4).val))
      (accKey (passed unordered).core.agent.val (2 ^ 17 * ((0 : Fin 4).val + 1)))) 0 ≠
    if accKey unordered.core.agent.val (2 ^ 17 * (0 : Fin 4).val) ≤ 0 ∧ 0 < accKey unordered.core.agent.val (2 ^ 17 * ((0 : Fin 4).val + 1)) then 0
    else memGet unordered.mem 0 := by
  rw [show (passed unordered).core.agent.val = 0 from rfl, show unordered.core.agent.val = 0 from rfl,
    show (passed unordered).mem = [(2 ^ 53, 1), (0, 1)] from rfl, show unordered.mem = [(2 ^ 53, 1), (0, 1)] from rfl]
  decide

/-- Refutes O44: the statement asks of MZERO that every byte outside the slot reads as before, in any memory. In a list that
is not in rising order the byte of key 0 stands behind one of the slot and reads as unlisted; once the slot is cleared it
stands first. (Memory in its canonical form meets the clause: `memGet_memClear`.) -/
theorem not_matrixConfiguration : ¬ Obligations.MatrixConfiguration := by
  intro h
  obtain ⟨_, _, hzero, _⟩ := h ⟨0, 0, 0, 0⟩ unordered unordered_free
  obtain ⟨m, hexec, hm⟩ := hzero rfl
  have hrun := exec_mzero_free unordered_free ⟨0, 0, 0, 0⟩ rfl
  rw [meZero_run] at hrun
  have hmem := congrArg State.mem (Host.Outcome.next.inj (hrun.symm.trans hexec))
  dsimp only at hmem
  have hzero := hm 0
  rw [← hmem] at hzero
  exact absurd hzero unordered_cleared

end Sys2Proof.Matrices

/-! # Drains of the matrix engine (06 R158, R159, R164) -/

namespace Sys2Proof.MatrixDrains

open Sys2Proof.Machine Sys2Proof.Safety Sys2Proof.StepsAndTraps Sys2Proof.Matrices

/-! ## Bytes that an engine writes, wrapping at the end of the scratchpad -/

theorem spadSet_ltags (c : Core) (l : List (Nat × Nat × Nat)) (m : List Host.Cell) (off : Nat) (bs : List Byte) :
    spadSet m { c with ltags := l } off bs = spadSet m c off bs := by
  induction bs generalizing m off with
  | nil => rfl
  | cons b bs ih => exact ih _ _

theorem engineWrite_shape (s : State) (off : Nat) (bs : List Byte) : ∃ p l f, engineWrite s off bs =
    ({ s with mem := spadSet s.mem s.core off bs, poison := p, core := { s.core with ltags := l } }, f) := by
  obtain ⟨l, hl⟩ := layoutWrite_core s.core off bs.length
  refine ⟨(spadStore s s.core off bs).poison, l, (layoutWrite s.core off bs.length).2, ?_⟩
  rw [engineWrite, hl]
  rfl

/-- `m` holds the bytes `bs` at the logical offsets from `off` on, wrapping, and elsewhere what `m0` holds. -/
structure Filled (c : Core) (off : Nat) (bs : List Byte) (m0 m : List Host.Cell) : Prop where
  wf : Memory.wf m = true
  inside : ∀ i (hi : i < bs.length), memGet m (spadAt c ((off + i) % 2 ^ 23)) = bs[i]
  outside : ∀ k, (∀ i < bs.length, k ≠ spadAt c ((off + i) % 2 ^ 23)) → memGet m k = memGet m0 k

theorem filled_one {m : List Host.Cell} (h : Memory.wf m = true) (c : Core) {off : Nat} {bs : List Byte}
    (hfit : off % 2 ^ 23 + bs.length ≤ 2 ^ 23) : Filled c off bs m (spadSet m c (off % 2 ^ 23) bs) := by
  have hoff {i : Nat} (hi : i < bs.length) : (off + i) % 2 ^ 23 = off % 2 ^ 23 + i := by omega
  refine ⟨spadSet_wf h .., fun i hi => ?_, fun k hk => ?_⟩
  · rw [hoff hi, spadSet_in h]
  · exact spadSet_out h _ _ _ _ fun i hi => hoff hi ▸ hk i hi

theorem filled_two {m : List Host.Cell} (h : Memory.wf m = true) (c : Core) {off : Nat} {bs : List Byte}
    (hover : 2 ^ 23 < off % 2 ^ 23 + bs.length) (hlen : bs.length ≤ 2 ^ 23) :
    Filled c off bs m (spadSet (spadSet m c (off % 2 ^ 23) (bs.take (2 ^ 23 - off % 2 ^ 23))) c 0 (bs.drop (2 ^ 23 - off % 2 ^ 23))) := by
  generalize hn : 2 ^ 23 - off % 2 ^ 23 = n
  have htake : (bs.take n).length = n := by
    rw [List.length_take]
    omega
  have hwf := spadSet_wf h c (off % 2 ^ 23) (bs.take n)
  refine ⟨spadSet_wf hwf .., fun i hi => ?_, fun k hk => ?_⟩
  · by_cases hin : i < n
    · rw [show (off + i) % 2 ^ 23 = off % 2 ^ 23 + i by omega, spadSet_out hwf, spadSet_in h _ _ _ _ (by rw [htake]; exact hin),
        List.getElem_take]
      intro j hj he
      rw [List.length_drop] at hj
      have := spadAt_inj he
      omega
    · have hdrop : i - n < (bs.drop n).length := by
        rw [List.length_drop]
        omega
      rw [show (off + i) % 2 ^ 23 = 0 + (i - n) by omega, spadSet_in hwf _ _ _ _ hdrop, List.getElem_drop]
      congr 1
      omega
  · rw [spadSet_out hwf, spadSet_out h]
    · intro i hi
      rw [htake] at hi
      have := hk i (by omega)
      rwa [show (off + i) % 2 ^ 23 = off % 2 ^ 23 + i by omega] at this
    · intro i hi
      rw [List.length_drop] at hi
      have := hk (n + i) (by omega)
      rwa [show (off + (n + i)) % 2 ^ 23 = 0 + i by omega] at this

theorem engineFill_filled {s : State} (h : Memory.wf s.mem = true) (off : Nat) {bs : List Byte} (hlen : bs.length ≤ 2 ^ 23) :
    ∃ m p l g, engineFill s off bs = ({ s with mem := m, poison := p, core := { s.core with ltags := l } }, g) ∧
      Filled s.core off bs s.mem m := by
  by_cases hfit : off % 2 ^ 23 + bs.length ≤ 2 ^ 23
  · obtain ⟨p, l, f, hw⟩ := engineWrite_shape s (off % 2 ^ 23) bs
    refine ⟨_, p, l, 0 ||| f, ?_, filled_one h _ hfit⟩
    rw [engineFill, spadPieces, spadMask, if_pos hfit, List.foldl_cons, List.foldl_nil]
    dsimp only
    rw [List.take_length, hw]
  · have hover := filled_two h s.core (Nat.lt_of_not_le hfit) hlen
    rw [engineFill, spadPieces, spadMask, if_neg hfit]
    have hsize : off % 2 ^ 23 + bs.length - 2 ^ 23 = (bs.drop (2 ^ 23 - off % 2 ^ 23)).length := by
      rw [List.length_drop]
      omega
    rw [hsize]
    generalize 2 ^ 23 - off % 2 ^ 23 = n at hover
    obtain ⟨p, l, f, hw⟩ := engineWrite_shape s (off % 2 ^ 23) (bs.take n)
    rw [List.foldl_cons, List.foldl_cons, List.foldl_nil]
    dsimp only
    rw [List.take_length, hw]
    dsimp only
    obtain ⟨p', l', f', hw'⟩ := engineWrite_shape
      { s with mem := spadSet s.mem s.core (off % 2 ^ 23) (bs.take n), poison := p, core := { s.core with ltags := l } } 0 (bs.drop n)
    rw [hw']
    rw [← spadSet_ltags s.core l _ 0] at hover
    exact ⟨_, p', l', 0 ||| f ||| f', rfl, hover⟩

/-! ## A plain drain -/

theorem flatMap_blocks {α β : Type} {L : Nat} (l : List α) (f : α → List β) (h : ∀ x ∈ l, (f x).length = L) :
    (l.flatMap f).length = L * l.length := by
  rw [List.length_flatMap, List.map_congr_left h, List.map_const', List.sum_replicate, smul_eq_mul, Nat.mul_comm]

theorem getElem?_flatMap_blocks {α β : Type} {L : Nat} (f : α → List β) {l : List α} (h : ∀ x ∈ l, (f x).length = L) {i b : Nat}
    (hb : b < L) : (l.flatMap f)[L * i + b]? = (l[i]?).bind fun x => (f x)[b]? := by
  induction l generalizing i with
  | nil => rfl
  | cons x l ih =>
    have hx := h x List.mem_cons_self
    rw [List.flatMap_cons]
    cases i with
    | zero => rw [Nat.mul_zero, Nat.zero_add, List.getElem?_append_left (by omega)]; rfl
    | succ i =>
      rw [List.getElem?_append_right (by rw [hx, Nat.mul_succ]; omega), hx, Nat.mul_succ,
        show L * i + L + b - L = L * i + b by omega, ih fun y hy => h y (List.mem_cons_of_mem _ hy)]
      rfl

/-- Element `j` of packed elements. -/
theorem bits_packNat (w : Nat) (xs : List Nat) {j : Nat} (hj : j < xs.length) : bits (packNat w xs) (w * j) w = xs[j] % 2 ^ w := by
  induction xs generalizing j with
  | nil => exact absurd hj (by simp)
  | cons x xs ih =>
    have hpow : 0 < 2 ^ w := Nat.two_pow_pos w
    cases j with
    | zero => rw [bits, packNat, Nat.mul_zero, Nat.pow_zero, Nat.div_one, Nat.add_mul_mod_self_left, Nat.mod_mod]; rfl
    | succ j =>
      have hdiv : (x % 2 ^ w + 2 ^ w * packNat w xs) / 2 ^ w = packNat w xs := by
        rw [Nat.add_mul_div_left _ _ hpow, Nat.div_eq_of_lt (Nat.mod_lt _ hpow), Nat.zero_add]
      rw [bits, packNat, Nat.mul_succ, Nat.add_comm (w * j), Nat.pow_add, ← Nat.div_div_eq_div_mul, hdiv]
      exact ih (by simpa using hj)

/-- Bits that a number's low bytes hold. -/
theorem bits_low (x : Nat) {n lo w : Nat} (h : lo + w ≤ 8 * n) : bits (x % 256 ^ n) lo w = bits x lo w := by
  rw [bits, bits, show (256 : Nat) ^ n = 2 ^ lo * 2 ^ (8 * n - lo) by rw [← Nat.pow_add, show (256 : Nat) = 2 ^ 8 from rfl, ← Nat.pow_mul]; congr 1; omega,
    Nat.mod_mul_right_div_self, Nat.mod_mod_of_dvd _ (Nat.pow_dvd_pow 2 (by omega))]

theorem packBytes_length (w n : Nat) (xs : List Nat) : (packBytes w n xs).length = n := leBytes_length n _

/-- The converted row `i` of a plain drain. -/
def drainRow (f : DrainFmt) (src : Ty) (seed : Word) (cols : Nat) (get : Nat → Nat → Nat) (i : Nat) : List Nat :=
  (List.range cols).map fun j => (convertBits src f.ty f.rm false f.fzo f.sat (drawXfer seed (i * cols + j)) (get i j)).1

section
variable (f : DrainFmt) (src : Ty) (seed : Word) (rows cols : Nat) (get : Nat → Nat → Nat) (place : Nat → Nat → Nat × Nat)

theorem drainPlain_bytes : (drainPlain f src seed rows cols 0 get place).bytes = (List.range rows).flatMap fun i =>
    packBytes f.ty.width (drainRowLen f.ty.width cols) (drainRow f src seed cols get i) := by
  simp only [drainPlain, List.flatMap_map, List.map_map, Nat.zero_add]
  rfl

theorem drainPlain_length : (drainPlain f src seed rows cols 0 get place).bytes.length = drainRowLen f.ty.width cols * rows := by
  rw [drainPlain_bytes, flatMap_blocks _ _ fun i _ => packBytes_length .., List.length_range]

variable {rows}

/-- The bytes of row `i` stand one after another from its start on. -/
theorem drainPlain_row {i : Nat} (hi : i < rows) {b : Nat} (hb : b < drainRowLen f.ty.width cols) :
    (drainPlain f src seed rows cols 0 get place).bytes[drainRowLen f.ty.width cols * i + b]? =
      (packBytes f.ty.width (drainRowLen f.ty.width cols) (drainRow f src seed cols get i))[b]? := by
  rw [drainPlain_bytes, getElem?_flatMap_blocks _ (fun i _ => packBytes_length ..) hb, List.getElem?_range hi]
  rfl

theorem width_pos (t : Ty) : 4 ≤ t.width ∧ t.width ≤ 32 := by
  cases t <;> decide

/-- A row's packed bytes as a number hold its elements. -/
theorem bits_drainRow (i : Nat) {j : Nat} (hj : j < cols) :
    bits (leNat (packBytes f.ty.width (drainRowLen f.ty.width cols) (drainRow f src seed cols get i))) (f.ty.width * j) f.ty.width =
      (convertBits src f.ty f.rm false f.fzo f.sat (drawXfer seed (i * cols + j)) (get i j)).1 % 2 ^ f.ty.width := by
  have hlen : (drainRow f src seed cols get i).length = cols := by simp [drainRow]
  have hfit : f.ty.width * j + f.ty.width ≤ 8 * drainRowLen f.ty.width cols := by
    have hmul : f.ty.width * (j + 1) ≤ cols * f.ty.width := by
      rw [Nat.mul_comm]
      exact Nat.mul_le_mul_right _ hj
    rw [Nat.mul_succ] at hmul
    simp only [drainRowLen, ceilDiv]
    omega
  rw [packBytes, leNat_leBytes, bits_low _ hfit, bits_packNat _ _ (by omega)]
  simp [drainRow]

end

/-! ## The drain of a slot -/

theorem SpadOnly.trans {s t u : State} (h : SpadOnly s t) (h' : SpadOnly t u) : SpadOnly s u := by
  obtain ⟨m, p, l, rfl⟩ := h
  obtain ⟨m', p', l', rfl⟩ := h'
  exact ⟨m', p', l', rfl⟩

theorem engineWrite_spadOnly (s : State) (off : Nat) (bs : List Byte) : SpadOnly s (engineWrite s off bs).1 := by
  obtain ⟨p, l, f, h⟩ := engineWrite_shape s off bs
  exact ⟨_, p, l, congrArg Prod.fst h⟩

theorem engineFill_spadOnly (s : State) (off : Nat) (bs : List Byte) : SpadOnly s (engineFill s off bs).1 := by
  have hfold (ps : List (Nat × Nat)) (y : (State × Flags) × List Byte) (h : SpadOnly s y.1.1) :
      SpadOnly s (ps.foldl (fun (y : (State × Flags) × List Byte) p =>
        let w := engineWrite y.1.1 p.1 (y.2.take p.2)
        ((w.1, y.1.2 ||| w.2), y.2.drop p.2)) y).1.1 := by
    induction ps generalizing y with
    | nil => exact h
    | cons p ps ih => exact ih _ (SpadOnly.trans h (engineWrite_spadOnly ..))
  exact hfold _ _ ⟨s.mem, s.poison, s.core.ltags, rfl⟩

theorem clearSlot_spadOnly (s : State) (slot : Nat) : SpadOnly s (clearSlot s slot) := ⟨_, s.poison, s.core.ltags, rfl⟩

/-- The state after the copies of a drain are written and the slot cleared. -/
def drained (s : State) (o : Mm) (off toff : Nat) (a : DrainOut) (b : Option DrainOut) : State :=
  let w := (engineFill s off a.bytes).1
  let x := match b with
    | some t => (engineFill w toff t.bytes).1
    | none => w
  if bit o.fl.toNat 2 then clearSlot x o.acc.val else x

theorem drained_spadOnly (s : State) (o : Mm) (off toff : Nat) (a : DrainOut) (b : Option DrainOut) :
    SpadOnly s (drained s o off toff a b) := by
  have hx : SpadOnly s (match b with
      | some t => (engineFill (engineFill s off a.bytes).1 toff t.bytes).1
      | none => (engineFill s off a.bytes).1) := by
    cases b with
    | none => exact engineFill_spadOnly ..
    | some t => exact SpadOnly.trans (engineFill_spadOnly ..) (engineFill_spadOnly ..)
  unfold drained
  dsimp only
  split
  · exact SpadOnly.trans hx (clearSlot_spadOnly ..)
  · exact hx

theorem drainWrite_drained (s : State) (o : Mm) (off toff : Nat) (a : DrainOut) (b : Option DrainOut) (f : Flags) :
    ∃ g, drainWrite s o off toff a b f = counted (drained s o off toff a b) g false := by
  cases b with
  | none => exact ⟨_, rfl⟩
  | some t => exact ⟨_, rfl⟩

theorem drainWrite_run (s : State) (o : Mm) (off toff : Nat) (a : DrainOut) (b : Option DrainOut) (f : Flags) :
    (drainWrite s o off toff a b f).me.run = s.me.run := by
  obtain ⟨g, h⟩ := drainWrite_drained s o off toff a b f
  obtain ⟨m, p, l, hd⟩ := drained_spadOnly s o off toff a b
  rw [h, hd]
  rfl

/-- The matrix of a slot as a drain writes it, and its transpose. -/
def plainCopy (t : State) (o : Mm) (f : DrainFmt) : DrainOut :=
  drainOut t f o.acc.val (cfgNat t.me.active 0) (cfgNat t.me.active 1) 0 (accGet t o.acc.val) fun i j => (i, j)
def turnedCopy (t : State) (o : Mm) (g : DrainFmt) : DrainOut :=
  drainOut t g o.acc.val (cfgNat t.me.active 1) (cfgNat t.me.active 0) (2 ^ 40) (fun i j => accGet t o.acc.val j i) fun i j => (j, i)

section
variable {s : State} {o : Mm} {c : Cmd} {v : Nat} (hc : (c.vals.getD 0 0).toNat = v)
include hc

theorem meDrain_offset (h : v % 64 ≠ 0 ∨ 2 ^ 23 ≤ v) : meDrain o c (passed s) = .stop (passed s) (plainFail .illegal) 0 := by
  simp only [meDrain, hc, if_pos h]

end

/-- The two copies that a drain writes: the second one with `.t`. -/
def drainEnd (s : State) (o : Mm) (v : Nat) (f g : DrainFmt) (h : Flags) : EngRes :=
  let t := activated s
  let a := plainCopy t o f
  let b := if bit o.fl.toNat 0 then some (turnedCopy t o g) else none
  if bit (cfgNat t.me.active 13) 11 && decide (0 < a.beyond + (b.map (·.beyond)).getD 0) then .stop (passed s) (plainFail .burlovf) 0
  else
    let w := drainWrite t o v (cfgNat t.me.active 14) a b h
    let nan := match a.nan, b.bind (·.nan) with
      | n, some p => leastNan n p
      | n, none => n
    match meNan t (follows t.me.active) nan with
    | some e => .stop w e (meMpc 3 0 0 0)
    | none => .done w

section
variable {s : State} {o : Mm} {c : Cmd} {v : Nat} (hc : (c.vals.getD 0 0).toNat = v) (hv : v % 64 = 0) (hlt : v < 2 ^ 23)
include hc hv hlt

theorem meDrain_eq : meDrain o c (passed s) =
    match drainFmt (activated s) c v, (if bit o.fl.toNat 0 then drainFmt (activated s) c (cfgNat (activated s).me.active 14)
      else .ok (⟨.f32, false, .rne, false, false⟩, 0)) with
    | .error e, _ => .stop (passed s) e 0
    | _, .error e => .stop (passed s) e 0
    | .ok (f, h), .ok (g, k) => drainEnd s o v f g (h ||| k) := by
  have hok : ¬(v % 64 ≠ 0 ∨ 2 ^ 23 ≤ v) := by omega
  unfold meDrain
  rw [hc, if_neg hok]
  rfl

theorem meDrain_format {e : Fail} (hf : drainFmt (activated s) c v = .error e) :
    meDrain o c (passed s) = .stop (passed s) e 0 := by
  rw [meDrain_eq hc hv hlt, hf]

variable {f : DrainFmt} {h : Flags} (hf : drainFmt (activated s) c v = .ok (f, h))
include hf

theorem meDrain_once (ht : o.fl.getLsbD 0 = false) : meDrain o c (passed s) = drainEnd s o v f ⟨.f32, false, .rne, false, false⟩ h := by
  have hbit : bit o.fl.toNat 0 = false := ((bit_eq_testBit _ _).trans rfl).trans ht
  rw [meDrain_eq hc hv hlt, hf, hbit, if_neg Bool.false_ne_true]
  dsimp only
  rw [show h ||| (0 : Flags) = h from BitVec.or_zero]

variable (ht : o.fl.getLsbD 0 = true)
include ht

theorem meDrain_turned_format {e : Fail} (hg : drainFmt (activated s) c (cfgNat (activated s).me.active 14) = .error e) :
    meDrain o c (passed s) = .stop (passed s) e 0 := by
  have hbit : bit o.fl.toNat 0 = true := ((bit_eq_testBit _ _).trans rfl).trans ht
  rw [meDrain_eq hc hv hlt, hf, hbit, if_pos rfl, hg]

theorem meDrain_twice {g : DrainFmt} {k : Flags} (hg : drainFmt (activated s) c (cfgNat (activated s).me.active 14) = .ok (g, k)) :
    meDrain o c (passed s) = drainEnd s o v f g (h ||| k) := by
  have hbit : bit o.fl.toNat 0 = true := ((bit_eq_testBit _ _).trans rfl).trans ht
  rw [meDrain_eq hc hv hlt, hf, hbit, if_pos rfl, hg]

end

section
variable {s : State} {o : Mm} {v : Nat} {f g : DrainFmt} {h : Flags}

theorem drainEnd_overflows (hb : cfgNat (activated s).me.active 13 / 2 ^ 11 % 2 = 1) (hover : 0 < (plainCopy (activated s) o f).beyond +
    ((if bit o.fl.toNat 0 then some (turnedCopy (activated s) o g) else none).map (·.beyond)).getD 0) :
    drainEnd s o v f g h = .stop (passed s) (plainFail .burlovf) 0 := by
  have hbit : bit (cfgNat (activated s).me.active 13) 11 = true := beq_iff_eq.mpr hb
  rw [drainEnd]
  dsimp only
  rw [hbit, decide_eq_true hover, Bool.and_self, if_pos rfl]

theorem drainEnd_done (hb : cfgNat (activated s).me.active 13 / 2 ^ 11 % 2 = 1 → (plainCopy (activated s) o f).beyond +
    ((if bit o.fl.toNat 0 then some (turnedCopy (activated s) o g) else none).map (·.beyond)).getD 0 = 0) (hnan : nanTrap s = false) :
    drainEnd s o v f g h = .done (drainWrite (activated s) o v (cfgNat (activated s).me.active 14) (plainCopy (activated s) o f)
      (if bit o.fl.toNat 0 then some (turnedCopy (activated s) o g) else none) h) := by
  rw [drainEnd]
  dsimp only
  rw [if_neg]
  · have hno (b : Bool) (n : Option (Nat × Nat × Nat)) : meNan (activated s) b n = none := by
      cases n with
      | none => rfl
      | some p =>
        rw [meNan, show nanTrap (activated s) = false from hnan, Bool.and_false, if_neg Bool.false_ne_true]
    rw [hno]
  · intro hand
    rw [Bool.and_eq_true, decide_eq_true_eq] at hand
    have := hb (beq_iff_eq.mp hand.1)
    omega

end

section
variable {s : State} (hfree : MeFree s) {o : Mm} (hd : s.declares o.acc.val = true) (hr : ready s [o.s] = true)
include hfree hd hr

theorem exec_mdrain_stop {e : Fail} (h : meDrain o (mkCmd (.mdrain o) [s.sreg o.s] s) (passed s) = .stop (passed s) e 0) :
    exec (.mdrain o) s = .next (meStopped (.mdrain o) [s.sreg o.s] s e) :=
  (exec_mdrain o s).trans ((dispatchMe_ready (by simp [hd]) hr).trans (congrArg _ (queueMe_stop (i := .mdrain o) (vals := [s.sreg o.s]) hfree h)))

theorem exec_mdrain_done {w : State} (h : meDrain o (mkCmd (.mdrain o) [s.sreg o.s] s) (passed s) = .done w) (hw : w.me.run = none) :
    exec (.mdrain o) s = .next w :=
  (exec_mdrain o s).trans ((dispatchMe_ready (by simp [hd]) hr).trans (congrArg _ ((queueMe_done (i := .mdrain o) (vals := [s.sreg o.s]) hfree h).trans (meSettle_done hw _))))

end

/-! ## What a plain drain leaves in memory -/

theorem intSlot_getD (s : State) (n : Fin 4) : s.me.intSlot.toList.getD n.val false = s.me.intSlot[n] := by
  simp [List.getD_eq_getElem?_getD]

theorem spadAt_below (c : Core) {off : Nat} (h : off < 2 ^ 23) : spadAt c off < 2 ^ 53 := by
  have hunit := (swizzle_inv (bankFmt c (bankOf off)).2.1 off).1
  have := c.agent.isLt
  simp only [spadAt, spadKey]
  omega

theorem drainRowLen_eq (w n : Nat) : drainRowLen w n = (n * w + 511) / 512 * 64 := by
  simp only [drainRowLen, ceilDiv]
  omega

/-- A byte of the accumulator slot that the drain clears. -/
def Cleared (s : State) (o : Mm) (k : Nat) : Prop := o.fl.getLsbD 2 = true ∧ accKey s.core.agent.val (2 ^ 17 * o.acc.val) ≤ k ∧
  k < accKey s.core.agent.val (2 ^ 17 * (o.acc.val + 1))

/-- The bytes of a drain of one copy: its own, in order, and zeros in a slot that it clears. -/
theorem drained_once {s : State} (hwf : Memory.wf s.mem = true) (o : Mm) (off toff : Nat) {a : DrainOut} (hlen : a.bytes.length ≤ 2 ^ 23) :
    let u := drained s o off toff a none
    (∀ i (hi : i < a.bytes.length), memGet u.mem (spadAt s.core ((off + i) % 2 ^ 23)) = a.bytes[i]) ∧
    (∀ k, Cleared s o k → memGet u.mem k = 0) ∧
    ∀ k, ¬Cleared s o k → (∀ i < a.bytes.length, k ≠ spadAt s.core ((off + i) % 2 ^ 23)) → memGet u.mem k = memGet s.mem k := by
  obtain ⟨m, p, l, g, hfill, hm⟩ := engineFill_filled hwf off hlen
  have hbit : bit o.fl.toNat 2 = o.fl.getLsbD 2 := (bit_eq_testBit _ _).trans rfl
  have hmem : (drained s o off toff a none).mem = if o.fl.getLsbD 2 then
      memClear m (accKey s.core.agent.val (2 ^ 17 * o.acc.val)) (accKey s.core.agent.val (2 ^ 17 * (o.acc.val + 1))) else m := by
    unfold drained
    rw [hfill, hbit]
    cases o.fl.getLsbD 2 with
    | false => rfl
    | true =>
      refine congrArg (memClear m _) ?_
      simp only [accElemKey, accKey]
      omega
  have hread (k : Nat) : memGet (drained s o off toff a none).mem k = if o.fl.getLsbD 2 = true ∧
      accKey s.core.agent.val (2 ^ 17 * o.acc.val) ≤ k ∧ k < accKey s.core.agent.val (2 ^ 17 * (o.acc.val + 1)) then 0 else memGet m k := by
    rw [hmem]
    cases o.fl.getLsbD 2 with
    | false => rw [if_neg Bool.false_ne_true, if_neg (by simp)]
    | true => rw [if_pos rfl, memGet_memClear hm.wf]; simp only [true_and]
  refine ⟨fun i hi => ?_, fun k hk => ?_, fun k hk hne => ?_⟩
  · have hlow := spadAt_below s.core (off := (off + i) % 2 ^ 23) (by omega)
    rw [hread, if_neg, hm.inside i hi]
    rintro ⟨_, hle, _⟩
    simp only [accKey] at hle
    omega
  · exact (hread k).trans (if_pos hk)
  · exact (hread k).trans ((if_neg hk).trans (hm.outside k hne))

section
variable {f : DrainFmt} {src : Ty} {seed : Word} {rows cols : Nat} {get : Nat → Nat → Nat} {place : Nat → Nat → Nat × Nat}

theorem drainPlain_small (hr : rows ≤ 128) (hc : cols ≤ 256) : (drainPlain f src seed rows cols 0 get place).bytes.length ≤ 2 ^ 23 := by
  have hbits : cols * f.ty.width ≤ 256 * 32 := Nat.mul_le_mul hc (width_pos f.ty).2
  have hrow : drainRowLen f.ty.width cols ≤ 1024 := by
    rw [drainRowLen_eq]
    omega
  have hall : drainRowLen f.ty.width cols * rows ≤ 1024 * 128 := Nat.mul_le_mul hrow hr
  rw [drainPlain_length]
  omega

variable {c : Core} {off : Nat} {u : State}
  (h : ∀ i (hi : i < (drainPlain f src seed rows cols 0 get place).bytes.length),
    memGet u.mem (spadAt c ((off + i) % 2 ^ 23)) = (drainPlain f src seed rows cols 0 get place).bytes[i])
include h

/-- The elements of a row of a plain drain, read from where they were written. -/
theorem drained_element {i j : Nat} (hi : i < rows) (hj : j < cols) :
    bits (memNumber u (drainRowLen f.ty.width cols) fun b => spadAt c ((off + drainRowLen f.ty.width cols * i + b) % 2 ^ 23))
      (f.ty.width * j) f.ty.width =
      (convertBits src f.ty f.rm false f.fzo f.sat (drawXfer seed (i * cols + j)) (get i j)).1 % 2 ^ f.ty.width := by
  rw [← bits_drainRow f src seed cols get i hj, memNumber]
  congr 2
  refine List.ext_getElem? fun b => ?_
  by_cases hb : b < drainRowLen f.ty.width cols
  · have hrow := drainPlain_row f src seed cols get place hi hb
    have hin : drainRowLen f.ty.width cols * i + b < (drainPlain f src seed rows cols 0 get place).bytes.length := by
      have hmul : drainRowLen f.ty.width cols * (i + 1) ≤ drainRowLen f.ty.width cols * rows := Nat.mul_le_mul_left _ hi
      rw [drainPlain_length]
      rw [Nat.mul_succ] at hmul
      omega
    rw [← hrow, List.getElem?_map, List.getElem?_range hb, List.getElem?_eq_getElem hin, ← h _ hin, ← Nat.add_assoc]
    rfl
  · rw [List.getElem?_eq_none (by simpa using hb), List.getElem?_eq_none (by rw [packBytes_length]; omega)]

end

/-! ## MDRAIN.merge -/

theorem peerCheck_passed (s : State) (n : Fin 512) (a : Word) : peerCheck (passed s) n s.ctx a = peerCheck s n s.ctx a := by
  rw [peerCheck, (coreAt_passed s n).1]
  rfl

section
variable {s : State} (hfree : MeFree s) {o : Mm} (hd : s.declares o.acc.val = true) (hr : ready s [o.s] = true)
include hfree hd hr

theorem exec_merge_stop {e : Fail} (h : meSend o (mkCmd (.mdrainMerge o) [s.sreg o.s] s) (passed s) = .stop (passed s) e 0) :
    exec (.mdrainMerge o) s = .next (meStopped (.mdrainMerge o) [s.sreg o.s] s e) :=
  (exec_mdrainMerge o s).trans ((dispatchMe_ready (by simp [hd]) hr).trans
    (congrArg _ (queueMe_stop (i := .mdrainMerge o) (vals := [s.sreg o.s]) hfree h)))

end

section
variable {s : State} {o : Mm} {c : Cmd} {v : Nat} (hc : (c.vals.getD 0 0).toNat = v)
include hc

theorem meSend_value (h : v / 8 % 2 ≠ 0 ∨ 64 ≤ v) : meSend o c (passed s) = .stop (passed s) (plainFail .illegal) 0 := by
  have hbad : bits v 3 1 ≠ 0 ∨ 64 ≤ v := by
    simp only [bits]
    omega
  rw [meSend, hc]
  dsimp only
  rw [if_pos hbad]

variable (h8 : v / 8 % 2 = 0) (hlt : v < 64)
include h8 hlt

theorem meSend_eq : meSend o c (passed s) = match peerCheck s (peerAgent s.core.agent (v % 8)) s.ctx 0 with
    | .error e => .stop (passed s) e 0
    | .ok _ => match takeTile (peerAgent s.core.agent (v % 8)) ⟨Fin.ofNat 8 (s.core.agent.val % 8), Fin.ofNat 4 (v / 16),
          s.me.intSlot[o.acc], slotElems s o.acc.val⟩ (passed s) with
      | some t => .done (t.modCore fun k => { k with refused := none })
      | none => .wait ((passed s).modCore fun k => { k with refused := some (s.core.refused.getD s.now) }) := by
  have hok : ¬(bits v 3 1 ≠ 0 ∨ 64 ≤ v) := by
    simp only [bits]
    omega
  rw [meSend, hc]
  dsimp only
  rw [if_neg hok, ← peerCheck_passed s, ← intSlot_getD]
  rfl

end

section
variable {s : State} {n : Fin 512} {tile : MergeTile}

theorem takeTile_refused (h : (s.coreAt n).task = none ∨ ((s.coreAt n).regs.me.run = none ∧ 2 ≤ (s.coreAt n).regs.me.mergeBuf.length)) :
    takeTile n tile s = none := by
  rw [takeTile]
  dsimp only
  cases hk : (s.coreAt n).task with
  | none => rfl
  | some t =>
    obtain ⟨hrun, hlen⟩ : (s.coreAt n).regs.me.run = none ∧ 2 ≤ (s.coreAt n).regs.me.mergeBuf.length := by simpa [hk] using h
    rw [hrun, if_neg (by omega)]

theorem takeTile_buffered (ht : (s.coreAt n).task ≠ none) (hr : (s.coreAt n).regs.me.run = none)
    (hlen : (s.coreAt n).regs.me.mergeBuf.length < 2) :
    takeTile n tile s = some (s.setCoreAt n { s.coreAt n with regs := { (s.coreAt n).regs with me := { (s.coreAt n).regs.me with
      mergeBuf := (s.coreAt n).regs.me.mergeBuf ++ [tile] } } }) := by
  rw [takeTile]
  dsimp only
  cases hk : (s.coreAt n).task with
  | none => exact absurd hk ht
  | some t => rw [hr, if_pos hlen]

end

theorem coreAt_passed_ne {s : State} {n : Fin 512} (h : n ≠ s.core.agent) : (passed s).coreAt n = s.coreAt n := by
  have hne : ¬s.core.agent = n := fun he => h he.symm
  unfold State.coreAt
  rw [show (passed s).core.agent = s.core.agent from rfl, if_neg hne, if_neg hne]
  rfl

section
variable {s : State} (hfree : MeFree s) {o : Mm} (hd : s.declares o.acc.val = true) (hr : ready s [o.s] = true)
include hfree hd hr

theorem exec_merge_wait {t : State} (h : meSend o (mkCmd (.mdrainMerge o) [s.sreg o.s] s) (passed s) = .wait t) (ht : t.me.run = none) :
    exec (.mdrainMerge o) s = .next (t.modMe fun r => { r with queue := mkCmd (.mdrainMerge o) [s.sreg o.s] s :: r.queue }) :=
  (exec_mdrainMerge o s).trans ((dispatchMe_ready (by simp [hd]) hr).trans
    (congrArg _ (queueMe_wait (i := .mdrainMerge o) (vals := [s.sreg o.s]) hfree h ht)))

theorem exec_merge_done {t : State} (h : meSend o (mkCmd (.mdrainMerge o) [s.sreg o.s] s) (passed s) = .done t) (ht : t.me.run = none) :
    exec (.mdrainMerge o) s = .next t :=
  (exec_mdrainMerge o s).trans ((dispatchMe_ready (by simp [hd]) hr).trans
    (congrArg _ ((queueMe_done (i := .mdrainMerge o) (vals := [s.sreg o.s]) hfree h).trans (meSettle_done ht _))))

end

theorem slotTy_eq (s : State) (n : Fin 4) : slotTy s n.val = if s.me.intSlot[n] then .i32 else .f32 := by
  rw [slotTy, intSlot_getD]

theorem plainCopy_plain {s : State} (o : Mm) {f : DrainFmt} (hty : f.ty ≠ .hb4) (hmx : f.mx = false) :
    plainCopy (activated s) o f = drainPlain f (slotTy s o.acc.val) s.me.shadow[16] (s.me.shadow[(0 : Fin 18)]).toNat
      (s.me.shadow[(1 : Fin 18)]).toNat 0 (accGet s o.acc.val) fun i j => (i, j) := by
  rw [plainCopy, drainOut, if_neg hty, hmx, if_neg Bool.false_ne_true]
  rfl

/-- What the statement says of a plain drain, from the bytes that it leaves. -/
theorem drainPlain_reads {s u : State} {o : Mm} {f : DrainFmt} {off rows cols : Nat} {seed : Word} {a : DrainOut}
    (ha : a = drainPlain f (slotTy s o.acc.val) seed rows cols 0 (accGet s o.acc.val) fun i j => (i, j))
    (h : (∀ i (hi : i < a.bytes.length), memGet u.mem (spadAt s.core ((off + i) % 2 ^ 23)) = a.bytes[i]) ∧
      (∀ k, Cleared s o k → memGet u.mem k = 0) ∧
      ∀ k, ¬Cleared s o k → (∀ i < a.bytes.length, k ≠ spadAt s.core ((off + i) % 2 ^ 23)) → memGet u.mem k = memGet s.mem k) :
    let row := (cols * f.ty.width + 511) / 512 * 64
    let place (i b : Nat) : Nat := spadAt s.core ((off + row * i + b) % 2 ^ 23)
    (∀ i < rows, ∀ j < cols, bits (memNumber u row (place i)) (f.ty.width * j) f.ty.width =
      (convertBits (if s.me.intSlot[o.acc] then .i32 else .f32) f.ty f.rm false f.fzo f.sat (drawXfer seed (i * cols + j))
        (accGet s o.acc.val i j)).1 % 2 ^ f.ty.width) ∧
    (∀ k, Cleared s o k → memGet u.mem k = 0) ∧
    ∀ k, ¬Cleared s o k → (∀ i < rows, ∀ b < row, k ≠ place i b) → memGet u.mem k = memGet s.mem k := by
  obtain ⟨hin, hclear, hout⟩ := h
  subst ha
  rw [← drainRowLen_eq, ← slotTy_eq]
  refine ⟨fun i hi j hj => drained_element hin hi hj, hclear, fun k hk hne => hout k hk fun n hn => ?_⟩
  rw [drainPlain_length] at hn
  have hpos : 0 < drainRowLen f.ty.width cols := Nat.pos_of_mul_pos_right (Nat.lt_of_le_of_lt (Nat.zero_le _) hn)
  have := hne (n / drainRowLen f.ty.width cols) (Nat.div_lt_of_lt_mul hn) (n % drainRowLen f.ty.width cols) (Nat.mod_lt _ hpos)
  dsimp only at this
  rwa [Nat.add_assoc, Nat.div_add_mod] at this

theorem mergeSends {s : State} (hfree : MeFree s) {o : Mm} (hd : s.declares o.acc.val = true) (hr : ready s [o.s] = true) :
    let v := (s.sreg o.s).toNat
    let n := peerAgent s.core.agent (v % 8)
    let d : Cmd := mkCmd (.mdrainMerge o) [s.sreg o.s] s
    let ends (e : Fail) : Prop := exec (.mdrainMerge o) s = .next (meStopped (.mdrainMerge o) [s.sreg o.s] s e)
    let tile : MergeTile := ⟨Fin.ofNat 8 (s.core.agent.val % 8), Fin.ofNat 4 (v / 16), s.me.intSlot[o.acc], slotElems s o.acc.val⟩
    (v / 8 % 2 ≠ 0 ∨ 64 ≤ v → ends ⟨.illegal, 0, 0⟩) ∧
    (v / 8 % 2 = 0 → v < 64 →
      (∀ e, peerCheck s n s.ctx 0 = .error e → ends e) ∧
      (peerCheck s n s.ctx 0 = .ok () → n ≠ s.core.agent →
        let k := s.coreAt n
        (k.task = none ∨ (k.regs.me.run = none ∧ 2 ≤ k.regs.me.mergeBuf.length) →
          exec (.mdrainMerge o) s = .next (((passed s).modMe fun r => { r with queue := [d] }).modCore fun y => { y with
            refused := some (s.core.refused.getD s.now) })) ∧
        (k.task ≠ none → k.regs.me.run = none → k.regs.me.mergeBuf.length < 2 →
          exec (.mdrainMerge o) s = .next (((passed s).setCoreAt n { k with regs := { k.regs with me := { k.regs.me with
            mergeBuf := k.regs.me.mergeBuf ++ [tile] } } }).modCore fun y => { y with refused := none })))) := by
  have hval : ((mkCmd (.mdrainMerge o) [s.sreg o.s] s).vals.getD 0 0).toNat = (s.sreg o.s).toNat := rfl
  have hrun : s.me.run = none := hfree.2.2.1
  have hqueue : s.core.regs.me.queue = [] := hfree.2.1
  refine ⟨fun hv => exec_merge_stop hfree hd hr (meSend_value hval hv), fun h8 hlt => ⟨fun e he => ?_, fun hok hn => ⟨fun h => ?_, fun ht hk hl => ?_⟩⟩⟩
  · exact exec_merge_stop hfree hd hr (by rw [meSend_eq hval h8 hlt, he])
  · refine (exec_merge_wait hfree hd hr (t := (passed s).modCore fun k => { k with refused := some (s.core.refused.getD s.now) }) ?_ hrun).trans ?_
    · rw [meSend_eq hval h8 hlt, hok]
      dsimp only
      rw [takeTile_refused (by rw [coreAt_passed_ne hn]; exact h)]
    · simp only [State.modMe, State.modRegs, State.modCore, passed, wrote, withScc, hqueue]
  · refine exec_merge_done hfree hd hr ?_ ?_
    · rw [meSend_eq hval h8 hlt, hok]
      dsimp only
      rw [takeTile_buffered (by rw [coreAt_passed_ne hn]; exact ht) (by rw [coreAt_passed_ne hn]; exact hk) (by rw [coreAt_passed_ne hn]; exact hl),
        coreAt_passed_ne hn]
    · rw [State.setCoreAt, if_neg fun he => hn he.symm]
      exact hrun

/-- Settles O46: the commands run at once on a free engine, and what a drain writes is the packed rows of its conversions. -/
theorem matrixDrains : Obligations.MatrixDrains := by
  intro o s hfree hwf hd hr
  have hstop {e : Fail} := exec_mdrain_stop (e := e) hfree hd hr
  have hval : ((mkCmd (.mdrain o) [s.sreg o.s] s).vals.getD 0 0).toNat = (s.sreg o.s).toNat := rfl
  have hrun : s.me.run = none := hfree.2.2.1
  have hbit : o.fl.getLsbD 0 = bit o.fl.toNat 0 := ((bit_eq_testBit _ _).trans rfl).symm
  refine ⟨fun hv => hstop (meDrain_offset hval hv), fun hv hlt => ⟨fun e he => hstop (meDrain_format hval hv hlt he),
    fun f h e hf ht hg => hstop (meDrain_turned_format hval hv hlt hf ht hg), fun f h hf => ⟨fun g k ht hg => ?_, fun ht => ?_⟩⟩, ?_⟩
  · have hrunTwice := meDrain_twice hval hv hlt hf ht hg
    rw [hbit] at ht
    refine ⟨fun hb hover => ?_, fun hb hnan => ?_⟩
    · refine hstop (hrunTwice.trans (drainEnd_overflows hb ?_))
      rw [ht, if_pos rfl]
      exact hover
    · refine exec_mdrain_done hfree hd hr (hrunTwice.trans ((drainEnd_done ?_ hnan).trans ?_)) ((drainWrite_run ..).trans hrun)
      · rw [ht, if_pos rfl]
        exact hb
      · rw [ht, if_pos rfl]
        rfl
  · have hrunOnce := meDrain_once hval hv hlt hf ht
    rw [hbit] at ht
    refine ⟨fun hb hover => ?_, fun hb hnan => ?_⟩
    · refine hstop (hrunOnce.trans (drainEnd_overflows hb ?_))
      rw [ht, if_neg Bool.false_ne_true]
      exact hover
    · have hexec : exec (.mdrain o) s = .next (drainWrite (activated s) o (s.sreg o.s).toNat (s.me.shadow[(14 : Fin 18)]).toNat
          (plainCopy (activated s) o f) none h) := by
        refine exec_mdrain_done hfree hd hr (hrunOnce.trans ((drainEnd_done ?_ hnan).trans ?_)) ((drainWrite_run ..).trans hrun)
        · rw [ht, if_neg Bool.false_ne_true]
          exact hb
        · rw [ht, if_neg Bool.false_ne_true]
          rfl
      refine ⟨hexec, fun hty hmx hrows hcols => ?_⟩
      obtain ⟨g, hwrite⟩ := drainWrite_drained (activated s) o (s.sreg o.s).toNat (s.me.shadow[(14 : Fin 18)]).toNat
        (plainCopy (activated s) o f) none h
      have hplain := plainCopy_plain (s := s) o hty hmx
      have hsmall := drainPlain_small (f := f) (src := slotTy s o.acc.val) (seed := s.me.shadow[16])
        (get := accGet s o.acc.val) (place := fun i j => (i, j)) hrows hcols
      have hbytes := drained_once (s := activated s) hwf o (s.sreg o.s).toNat (s.me.shadow[(14 : Fin 18)]).toNat
        (a := plainCopy (activated s) o f) (by rw [hplain]; exact hsmall)
      exact ⟨_, g, hexec.trans (congrArg _ hwrite), drained_spadOnly .., drainPlain_reads hplain hbytes⟩
  · exact mergeSends hfree hd hr

end Sys2Proof.MatrixDrains

/-! # What a matrix command changes (06 R151, R163) -/

namespace Sys2Proof.MatrixWork

open Sys2Proof.Machine Sys2Proof.Safety Sys2Proof.StepsAndTraps Sys2Proof.Matrices Sys2Proof.AccumulatorTransfers

/-! ## Work on one slot -/

/-- A byte of an accumulator slot of the core in focus. -/
def InSlot (s : State) (acc k : Nat) : Prop :=
  accKey s.core.agent.val (2 ^ 17 * acc) ≤ k ∧ k < accKey s.core.agent.val (2 ^ 17 * (acc + 1))

/-- `u` is `s` but for what a matrix command on the slot `acc` may change. -/
structure Worked (s : State) (acc : Nat) (u : State) : Prop where
  shape : ∃ m free me flags p, u = { s with mem := m, free := free, core := { s.core with regs := { s.core.regs with
    me := me
    fp := { s.core.regs.fp with fpflags := flags }
    pend := { s.core.regs.pend with me := p } } } }
  regs : (u.me.shadow, u.me.active, u.me.intSlot, u.me.b, u.me.queue) = (s.me.shadow, s.me.active, s.me.intSlot, s.me.b, s.me.queue)
  wf : Memory.wf u.mem = true
  frame : ∀ k, ¬InSlot s acc k → memGet u.mem k = memGet s.mem k

theorem Worked.refl {s : State} (h : Memory.wf s.mem = true) (acc : Nat) : Worked s acc s :=
  ⟨⟨s.mem, s.free, s.core.regs.me, s.core.regs.fp.fpflags, s.core.regs.pend.me, rfl⟩, rfl, h, fun _ _ => rfl⟩

section
variable {s u : State} {acc : Nat} (h : Worked s acc u)
include h

theorem Worked.agent : u.core.agent = s.core.agent := by
  obtain ⟨m, free, me, flags, p, rfl⟩ := h.shape
  rfl

theorem Worked.active : u.me.active = s.me.active := congrArg (fun x => x.2.1) h.regs

/-- A change of the registers of the ME that keeps its configuration, slots, bound registers and queue. -/
theorem Worked.modMe {f : MeRegs → MeRegs} (hf : ∀ r : MeRegs, ((f r).shadow, (f r).active, (f r).intSlot, (f r).b, (f r).queue) =
    (r.shadow, r.active, r.intSlot, r.b, r.queue)) : Worked s acc (u.modMe f) := by
  obtain ⟨⟨m, free, me, flags, p, rfl⟩, regs, wf, frame⟩ := h
  exact ⟨⟨m, free, f me, flags, p, rfl⟩, (hf me).trans regs, wf, frame⟩

theorem Worked.bumpCounter (i : Fin 7) (n : Nat) : Worked s acc (bumpCounter u i n) := h.modMe fun _ => rfl

theorem Worked.setRun (r : Option MeRun) : Worked s acc (u.setRun r) := h.modMe fun _ => rfl

theorem Worked.addFlags (f : Flags) : Worked s acc (u.addFlags f) := by
  obtain ⟨⟨m, free, me, flags, p, rfl⟩, regs, wf, frame⟩ := h
  exact ⟨⟨m, free, me, mergeFlags flags f, p, rfl⟩, regs, wf, frame⟩

theorem Worked.meStop (r : Raised) : Worked s acc (meStop u r) := by
  obtain ⟨⟨m, free, me, flags, p, rfl⟩, regs, wf, frame⟩ := h
  exact ⟨⟨m, free, me, flags, some r, rfl⟩, regs, wf, frame⟩

theorem Worked.withFree (n : Nat) : Worked s acc { u with free := n } := by
  obtain ⟨⟨m, free, me, flags, p, rfl⟩, regs, wf, frame⟩ := h
  exact ⟨⟨m, n, me, flags, p, rfl⟩, regs, wf, frame⟩

theorem Worked.accPut {i j : Nat} (hi : i < 128) (hj : j < 256) (v : Nat) : Worked s acc (accPut u acc i j v) := by
  have hagent := h.agent
  obtain ⟨⟨m, free, me, flags, p, rfl⟩, regs, wf, frame⟩ := h
  refine ⟨⟨_, free, me, flags, p, rfl⟩, regs, memSetList_wf wf _ _, fun k hk => ?_⟩
  refine (memGet_memSetList_out wf _ _ _ ?_).trans (frame k hk)
  rw [leBytes_length]
  simp only [InSlot, accKey] at hk
  simp only [accElemKey, accKey]
  omega

end

/-! ## A command in progress -/

/-- The command works on the slot `acc` within its bounds. -/
structure Fits (acc : Nat) (x : MeCtx) : Prop where
  acc : x.acc = acc
  rows : x.m ≤ 128
  cols : x.n ≤ 256

/-- The command in progress is `c` and its entries are of the slot's rows. -/
structure Runs (c : Cmd) (r : MeRun) : Prop where
  cmd : r.cmd = c
  walk : ∀ e ∈ r.walk, e.row < 128
  queue : ∀ e ∈ r.queue, e.row < 128

/-- A step of the command `c` keeps this of the state and the command. -/
structure Works (s : State) (acc : Nat) (c : Cmd) (y : State × MeRun) : Prop where
  state : Worked s acc y.1
  run : Runs c y.2

section
variable {s : State} {acc : Nat} {c : Cmd} {x : MeCtx} (hx : Fits acc x) {y : State × MeRun} (h : Works s acc c y)
include hx h

theorem works_accCell {i j : Nat} (hi : i < 128) (hj : j < 256) (k : Nat) (p : Val × Bool) : Works s acc c (accCell y.1 y.2 x i j k p) := by
  obtain ⟨state, ⟨cmd, walk, queue⟩⟩ := h
  refine ⟨?_, ⟨cmd, walk, queue⟩⟩
  show Worked s acc (accPut y.1 x.acc i j _)
  rw [hx.acc]
  exact state.accPut hi hj _

theorem works_cols {occ : Nat} {f : State × MeRun → Nat → State × MeRun} (hf : ∀ y, Works s acc c y → ∀ j < 256, Works s acc c (f y j)) :
    Works s acc c ((cols x occ).foldl f y) := by
  refine List.foldlRecOn _ f h fun y hy j hj => hf y hy j ?_
  have := List.mem_range.mp (List.mem_of_mem_filter hj)
  have := hx.cols
  omega

theorem works_retireEntry {e : Match} (he : e.row < 128) : Works s acc c (retireEntry x y e) := by
  have hcells := works_cols hx (y := (y.1, { y.2 with
      flags := y.2.flags ||| (if x.acca.isSome then convFlags y.1 x e else 0)
      nan := if (if x.acca.isSome then convFlags y.1 x e else 0).hasNv then leastNan y.2.nan (e.row, 0, e.k) else y.2.nan }))
    (occ := e.occ) (f := fun (z : State × MeRun) j => accCell z.1 z.2 x e.row j e.k (termOf y.1 x e j))
    ⟨h.state, ⟨h.run.cmd, h.run.walk, h.run.queue⟩⟩ fun z hz j hj => works_accCell hx hz he hj _ _
  exact ⟨hcells.state.bumpCounter _ _, hcells.run⟩

theorem works_burlEntry {e : Match} (he : e.row < 128) : Works s acc c (burlEntry x y e) := by
  refine List.foldlRecOn _ _ h fun y hy q _ => works_cols hx hy fun z hz j hj => ?_
  dsimp only
  split
  · exact works_accCell hx hz he hj _ _
  · exact hz

theorem works_addBurls {all : List Match} (hall : ∀ e ∈ all, e.row < 128) (row n : Nat) : Works s acc c (addBurls x y all row n) := by
  unfold addBurls
  split
  · exact h
  · have hchunk : Works s acc c (burlChunk x y (chunkOf x all row n)) :=
      List.foldlRecOn _ _ h fun y hy e he => works_burlEntry hx hy (hall e (List.mem_of_mem_filter he))
    exact ⟨hchunk.state, ⟨hchunk.run.cmd, hchunk.run.walk, hchunk.run.queue⟩⟩

end

theorem mem_rowHeads (l : List Match) (seen : List Nat) : ∀ e, e ∈ (rowHeads l seen).1 ∨ e ∈ (rowHeads l seen).2 → e ∈ l := by
  induction l generalizing seen with
  | nil => simp [rowHeads]
  | cons x l ih =>
    intro e he
    rw [rowHeads] at he
    split at he
    · rcases he with he | he
      · exact List.mem_cons_of_mem _ (ih _ e (.inl he))
      · rcases List.mem_cons.mp he with rfl | he
        · exact List.mem_cons_self
        · exact List.mem_cons_of_mem _ (ih _ e (.inr he))
    · rcases he with he | he
      · rcases List.mem_cons.mp he with rfl | he
        · exact List.mem_cons_self
        · exact List.mem_cons_of_mem _ (ih _ e (.inl he))
      · exact List.mem_cons_of_mem _ (ih _ e (.inr he))

section
variable {s : State} {acc : Nat} {c : Cmd} {x : MeCtx} (hx : Fits acc x) {u : State} {r : MeRun} {all : List Match}
  (hall : ∀ e ∈ all, e.row < 128) (h : Works s acc c (u, r))
include hx hall h

theorem works_retireStep : Works s acc c (retireStep u x r all) := by
  have hmem := mem_rowHeads r.queue []
  refine List.foldlRecOn (motive := Works s acc c) _ _ (b := (u, { r with queue := (rowHeads r.queue []).2 }))
    ⟨h.state, ⟨h.run.cmd, h.run.walk, fun e he => h.run.queue e (hmem e (.inr he))⟩⟩ fun y hy e he => ?_
  have hretire := works_retireEntry hx hy (h.run.queue e (hmem e (.inl he)))
  dsimp only
  split
  · exact works_addBurls hx hretire hall _ _
  · exact hretire

end

section
variable {s : State} {acc : Nat} {c : Cmd}

theorem works_countWait {u : State} {r : MeRun} (h : Works s acc c (u, r)) (lag : Bool) : Works s acc c (countWait u r lag) := by
  obtain ⟨state, ⟨cmd, walk, queue⟩⟩ := h
  unfold countWait
  split <;> split
  · exact ⟨state, ⟨cmd, walk, queue⟩⟩
  · exact ⟨state.bumpCounter _ _, ⟨cmd, walk, queue⟩⟩
  · exact ⟨state, ⟨cmd, walk, queue⟩⟩
  · exact ⟨state.bumpCounter _ _, ⟨cmd, walk, queue⟩⟩

/-- Another walk, of the slot's rows. -/
theorem Works.withWalk {y : State × MeRun} (h : Works s acc c y) {w : List Match} (hw : ∀ e ∈ w, e.row < 128) :
    Works s acc c (y.1, { y.2 with walk := w }) := ⟨h.state, ⟨h.run.cmd, hw, h.run.queue⟩⟩

theorem works_pushLoop (x : MeCtx) (lim lag : Nat) (trap sparse : Bool) (kmin : Nat) (es : List Match) (ks : List Nat) (np : Nat)
    {u : State} {r : MeRun} (hes : ∀ e ∈ es, e.row < 128) (h : Works s acc c (u, r)) :
    Works s acc c (pushLoop x lim lag trap sparse kmin es ks np u r) := by
  induction es generalizing ks np u r with
  | nil => exact h.withWalk hes
  | cons e es ih =>
    rw [pushLoop]
    dsimp only
    generalize hnp : (((!ks.contains e.k) && decide (ks.length = 4)) || decide (np = 256)) = full
    split
    · exact h.withWalk hes
    split
    · exact (works_countWait h true).withWalk hes
    split
    · split
      · exact ⟨h.state, ⟨h.run.cmd, by simp, h.run.queue⟩⟩
      · exact (works_countWait h false).withWalk hes
    · refine ih _ _ (fun e' he => hes e' (List.mem_cons_of_mem _ he)) ⟨h.state.bumpCounter _ _, ⟨h.run.cmd, h.run.walk, ?_⟩⟩
      intro e' he
      rcases List.mem_append.mp he with he | he
      · exact h.run.queue e' he
      · rw [List.mem_singleton.mp he]
        exact hes e List.mem_cons_self

theorem works_arrayStep {x : MeCtx} (hx : Fits acc x) {u : State} {r : MeRun} {all : List Match} (hall : ∀ e ∈ all, e.row < 128)
    (h : Works s acc c (u, r)) : Works s acc c (arrayStep u x r all) := by
  have hretire := works_retireStep hx hall h
  have hpush := works_pushLoop x (cfgNat u.me.active 7) (cfgNat u.me.active 8) (cfgNat u.me.active 9 == 1) (isMspa r.cmd.instr)
    (match (retireStep u x r all).2.queue, (retireStep u x r all).2.walk with
      | e :: _, _ => e.k
      | [], e :: _ => e.k
      | [], [] => 0) (retireStep u x r all).2.walk [] 0 hretire.run.walk hretire
  exact ⟨hpush.state.bumpCounter _ _, hpush.run⟩

end

/-! ## The walk stays within the rows -/

theorem matchOf_row {k row pos occ bOff : Nat} {e : Match} (h : e ∈ matchOf k row pos occ bOff) : e.row = row := by
  unfold matchOf at h
  split at h
  · cases h
  · rw [List.mem_singleton.mp h]

theorem walkNone_rows (s : State) (x : MeCtx) (n k bOff : Nat) : ∀ e ∈ (walkNone s x n k bOff).1, e.row < x.m := by
  induction n generalizing k bOff with
  | zero => simp [walkNone]
  | succ n ih =>
    intro e he
    rw [walkNone] at he
    split at he
    · cases he
    · rcases List.mem_append.mp he with he | he
      · obtain ⟨i, hi, he⟩ := List.mem_flatMap.mp he
        rw [matchOf_row he]
        exact List.mem_range.mp hi
      · exact ih _ _ e he

theorem bitmapRows_rows (s : State) (x : MeCtx) (k last occ bOff : Nat) (is : List Nat) (n : Nat) :
    ∀ e ∈ (bitmapRows s x k last occ bOff is n).1, e.row ∈ is := by
  induction is generalizing last n with
  | nil => simp [bitmapRows]
  | cons i is ih =>
    intro e he
    rw [bitmapRows] at he
    dsimp only at he
    split at he
    · cases he
    split at he
    · split at he
      · cases he
      · rcases List.mem_append.mp he with he | he
        · rw [matchOf_row he]
          exact List.mem_cons_self
        · exact List.mem_cons_of_mem _ (ih _ _ e he)
    · exact List.mem_cons_of_mem _ (ih _ _ e he)

theorem walkBitmap_rows (s : State) (x : MeCtx) (fuel k bOff n last : Nat) : ∀ e ∈ (walkBitmap s x fuel k bOff n last).1, e.row < x.m := by
  induction fuel generalizing k bOff n last with
  | zero => simp [walkBitmap]
  | succ fuel ih =>
    intro e he
    rw [walkBitmap] at he
    split at he
    · cases he
    next occ _ =>
      have hrows := bitmapRows_rows s x k last occ bOff (List.range x.m) n
      split at he
      next heq =>
        rw [heq] at hrows
        exact List.mem_range.mp (hrows e he)
      next heq =>
        rw [heq] at hrows
        rcases List.mem_append.mp he with he | he
        · exact List.mem_range.mp (hrows e he)
        · exact ih _ _ _ _ e he

theorem cooRead_row {s : State} {x : MeCtx} {n k row : Nat} {prev : Option (Nat × Nat)} (h : cooRead s x n prev = .entry k row) :
    row < x.m := by
  unfold cooRead at h
  dsimp only at h
  repeat' split at h
  all_goals cases h
  omega

theorem walkCoo_rows (s : State) (x : MeCtx) (fuel : Nat) (a : CooAt) : ∀ e ∈ (walkCoo s x fuel a).1, e.row < x.m := by
  induction fuel generalizing a with
  | zero => simp [walkCoo]
  | succ fuel ih =>
    intro e he
    rw [walkCoo] at he
    split at he
    · split at he <;> cases he
    split at he
    · split at he
      · cases he
      · exact ih _ e he
    split at he
    · cases he
    next hread =>
      split at he
      · rcases List.mem_append.mp he with he | he
        · rw [matchOf_row he]
          exact cooRead_row hread
        · exact ih _ e he
      · exact ih _ e he
    · exact ih _ e he

theorem walkAll_rows (s : State) (x : MeCtx) : ∀ e ∈ (walkAll s x).1, e.row < x.m := by
  unfold walkAll
  split
  · exact walkBitmap_rows s x _ _ _ _ _
  · exact walkCoo_rows s x _ _
  · exact walkNone_rows s x _ _ _

theorem cutPoison_sub (s : State) (x : MeCtx) (ms : List Match) (e : Option MetaStop) : ∀ m ∈ (cutPoison s x ms e).1, m ∈ ms := by
  induction ms generalizing e with
  | nil => simp [cutPoison]
  | cons m ms ih =>
    intro n hn
    rw [cutPoison] at hn
    split at hn
    · cases hn
    · rcases List.mem_cons.mp hn with rfl | hn
      · exact List.mem_cons_self
      · exact List.mem_cons_of_mem _ (ih _ n hn)

theorem walkOf_rows (s : State) (x : MeCtx) : ∀ e ∈ (walkOf s x).1, e.row < x.m := by
  unfold walkOf
  dsimp only
  split
  · exact walkAll_rows s x
  · exact fun e he => walkAll_rows s x e (cutPoison_sub _ _ _ _ e he)

section
variable {s : State} {acc : Nat} {c : Cmd} {x : MeCtx} (hx : Fits acc x) {u : State} {r : MeRun} (h : Works s acc c (u, r))
include hx h

theorem works_beginWalk : Works s acc c (beginWalk u x r) := by
  have hwalk (e : Match) (he : e ∈ (walkOf u x).1) : e.row < 128 := Nat.lt_of_lt_of_le (walkOf_rows u x e he) hx.rows
  have hstart : Works s acc c (u, { r with walk := (walkOf u x).1.filter fun m => decide (r.pos ≤ m.aIdx), stop := (walkOf u x).2, begun := true }) :=
    ⟨h.state, ⟨h.run.cmd, fun e he => hwalk e (List.mem_of_mem_filter he), h.run.queue⟩⟩
  unfold beginWalk
  dsimp only
  split
  · refine List.foldlRecOn (motive := Works s acc c) _ _ hstart fun y hy i _ => ?_
    split
    · split
      · exact works_addBurls hx hy (fun e he => hwalk e (List.mem_of_mem_filter he)) _ _
      · exact hy
    · exact hy
  · exact hstart

end

section
variable {s : State} {acc : Nat} {c : Cmd} {u : State} {r : MeRun} (h : Works s acc c (u, r))
include h

theorem works_mergeRun : Works s acc c (mergeRun u r) := ⟨h.state.addFlags _, ⟨h.run.cmd, h.run.walk, h.run.queue⟩⟩

theorem works_mergeElem {tile : MergeTile} {i j : Nat} (hi : i < 128) (hj : j < 256) : Works s acc c (mergeElem tile acc i j (u, r)) := by
  unfold mergeElem
  dsimp only
  split
  · exact ⟨(h.state.accPut hi hj _).withFree _, h.run⟩
  · exact ⟨h.state.accPut hi hj _, ⟨h.run.cmd, h.run.walk, h.run.queue⟩⟩

end

/-- The ME of a state works on nothing but the command `c`. -/
structure Busy (s : State) (acc : Nat) (c : Cmd) (u : State) : Prop where
  state : Worked s acc u
  run : ∀ r, u.me.run = some r → Runs c r

theorem Works.busy {s : State} {acc : Nat} {c : Cmd} {y : State × MeRun} (h : Works s acc c y) : Busy s acc c (y.1.setRun (some y.2)) :=
  ⟨h.state.setRun _, fun _ hr => Option.some.inj hr ▸ h.run⟩

section
variable {s : State} {acc : Nat} {c : Cmd} {u : State} {r : MeRun} (h : Works s acc c (u, r))
include h

/-- The elements of a tile merged, over any rows and columns of the slot. -/
theorem works_mergeElems (tile : MergeTile) {rows cols : List Nat} (hrows : ∀ i ∈ rows, i < 128) (hcols : ∀ j ∈ cols, j < 256) :
    Works s acc c (rows.foldl (fun y i => cols.foldl (fun z j => mergeElem tile acc i j z) y) (u, r)) := by
  refine List.foldlRecOn (motive := Works s acc c) _ _ h fun y hy i hi => ?_
  exact List.foldlRecOn (motive := Works s acc c) _ _ hy fun z hz j hj => works_mergeElem hz (hrows i hi) (hcols j hj)

theorem busy_mergeTile (tile : MergeTile) : Busy s acc c (mergeTile u r acc tile) := by
  have hall := works_mergeElems h tile (rows := List.range 128) (cols := List.range 256) (fun _ => List.mem_range.mp) fun _ => List.mem_range.mp
  rw [mergeTile]
  generalize (List.range 128).foldl _ _ = y at hall ⊢
  obtain ⟨state, ⟨cmd, walk, queue⟩⟩ := hall
  exact ⟨(state.bumpCounter _ _).setRun _, fun r hr => by rw [← Option.some.inj hr]; exact ⟨cmd, walk, queue⟩⟩

theorem busy_finishMatrix : Busy s acc c (finishMatrix u r) := by
  unfold finishMatrix
  dsimp only
  split
  · exact ⟨(((h.state.addFlags _).setRun none).meStop _), fun r hr => by cases hr⟩
  · exact ⟨(h.state.addFlags _).setRun none, fun r hr => by cases hr⟩

theorem busy_raiseStop (f : MetaStop) : Busy s acc c (raiseStop u r f) := by
  refine ⟨((h.state.addFlags _).setRun _).meStop _, fun r' hr => ?_⟩
  rw [← Option.some.inj hr]
  exact ⟨h.run.cmd, fun _ he => (List.not_mem_nil he).elim, h.run.queue⟩

end

/-! ## Steps until the command ends or waits -/

section
variable {s : State} {acc : Nat} {c : Cmd} (hfits : Fits acc (meCtx s c))
include hfits

theorem fits_later {u : State} (h : Worked s acc u) : Fits acc (meCtx u c) := by
  have hactive := h.active
  refine ⟨hfits.acc, ?_, ?_⟩
  · show cfgNat u.me.active 0 ≤ 128
    rw [hactive]
    exact hfits.rows
  · show cfgNat u.me.active 1 ≤ 256
    rw [hactive]
    exact hfits.cols

theorem busy_runStep {u : State} {r : MeRun} (h : Works s acc c (u, r)) (hrun : u.me.run = some r) : Busy s acc c (runStep u r) := by
  have hx : Fits acc (meCtx u r.cmd) := by
    rw [h.run.cmd]
    exact fits_later hfits h.state
  have hkeep : Busy s acc c u := ⟨h.state, fun r' hr => by rw [← Option.some.inj (hrun.symm.trans hr)]; exact h.run⟩
  unfold runStep
  dsimp only
  split
  · split
    · exact busy_finishMatrix h
    · split
      next t _ =>
        rw [hx.acc]
        exact busy_mergeTile (u := u.modMe fun m => { m with mergeBuf := m.mergeBuf.erase t }) 
          ⟨Worked.modMe h.state (f := fun m => { m with mergeBuf := m.mergeBuf.erase t }) fun _ => rfl, h.run⟩ t
      · exact hkeep
  · have hbegun : Works s acc c (if r.begun then (u, r) else beginWalk u (meCtx u r.cmd) r) := by
      split
      · exact h
      · exact works_beginWalk hx h
    have hall : ∀ e ∈ (if usesBurls (meCtx u r.cmd) then (walkAll u (meCtx u r.cmd)).1 else []), e.row < 128 := by
      intro e he
      split at he
      · exact Nat.lt_of_lt_of_le (walkAll_rows _ _ e he) hx.rows
      · cases he
    have hstep := works_arrayStep hx hall (u := (if r.begun then (u, r) else beginWalk u (meCtx u r.cmd) r).1)
      (r := (if r.begun then (u, r) else beginWalk u (meCtx u r.cmd) r).2) hbegun
    generalize arrayStep _ _ _ _ = y at hstep ⊢
    split
    · split
      · exact busy_raiseStop hstep _
      · split
        · exact busy_finishMatrix hstep
        · exact ⟨hstep.state.setRun _, fun r' hr => by rw [← Option.some.inj hr]; exact ⟨hstep.run.cmd, hstep.run.walk, hstep.run.queue⟩⟩
    · exact hstep.busy

theorem busy_meSettle (n : Nat) {u : State} (h : Busy s acc c u) : Busy s acc c (meSettle n u) := by
  induction n generalizing u with
  | zero => exact h
  | succ n ih =>
    rw [meSettle]
    split
    next r hr =>
      split
      · exact h
      · exact ih (busy_runStep hfits ⟨h.state, h.run r hr⟩ hr)
    · exact h

end

end Sys2Proof.MatrixWork

/-! # The product of a matrix command with one position (06 R146, R163) -/

namespace Sys2Proof.MatrixProducts

open Sys2Proof.Machine Sys2Proof.Safety Sys2Proof.StepsAndTraps Sys2Proof.Matrices Sys2Proof.MatrixWork Sys2Proof.MatrixDrains

/-! ## Elements of a slot -/

theorem le_memSetList_same {m : List Host.Cell} (h : Memory.wf m = true) (k v : Nat) :
    leNat (memGetList (memSetList m k (leBytes 4 v)) k 4) = v % 2 ^ 32 := by
  have := memGetList_memSetList h k (leBytes 4 v)
  rw [leBytes_length] at this
  rw [this, leNat_leBytes]
  rfl

theorem memGetList_memSetList_out {m : List Host.Cell} (h : Memory.wf m = true) {k : Nat} {bs : List Byte} {a n : Nat}
    (hout : a + n ≤ k ∨ k + bs.length ≤ a) : memGetList (memSetList m k bs) a n = memGetList m a n := by
  induction n generalizing a with
  | zero => rfl
  | succ n ih => rw [memGetList, memGetList, ih (by omega), memGet_memSetList_out h _ _ _ (by omega)]

theorem accGet_accPut {u : State} (h : Memory.wf u.mem = true) (acc i j v r c : Nat) (hj : j < 256) (hc : c < 256) :
    accGet (accPut u acc i j v) acc r c = if r = i ∧ c = j then v % 2 ^ 32 else accGet u acc r c := by
  show leNat (memGetList (memSetList u.mem (accElemKey u acc i j) (leBytes 4 v)) (accElemKey u acc r c) 4) = _
  split
  next heq =>
    obtain ⟨rfl, rfl⟩ := heq
    exact le_memSetList_same h _ _
  next hne =>
    rw [memGetList_memSetList_out h]
    · rfl
    · rw [leBytes_length]
      simp only [accElemKey, accKey]
      omega

/-! ## Operands of the own scratchpad -/

section
variable {s u : State} {acc : Nat} (h : Worked s acc u)
include h

theorem worked_spadByte (off : Nat) : spadByte u off = spadByte s off := by
  have hat : spadAt u.core = spadAt s.core := by
    obtain ⟨m, free, me, flags, p, rfl⟩ := h.shape
    rfl
  have hlow := spadAt_below s.core (off := spadMask off) (Nat.mod_lt _ (by decide))
  rw [spadByte, spadByte, hat, h.frame]
  rintro ⟨hle, _⟩
  simp only [accKey] at hle
  omega

theorem worked_spadNum (off n : Nat) : spadNum u off n = spadNum s off n := by
  induction n generalizing off with
  | zero => rfl
  | succ n ih => rw [spadNum, spadNum, ih, worked_spadByte h]

theorem worked_spadElem (row w i : Nat) : spadElem u row w i = spadElem s row w i := by
  rw [spadElem, spadElem, worked_spadNum h]

variable {x : MeCtx}

/-- A plain operand A, read at a place of its rows: its index among packed values does not matter. -/
theorem worked_aElem (hacca : x.acca = none) (hkind : x.kindA = 0) (hty : x.ta ≠ .hb4) (i k idx : Nat) :
    aElem u x i k idx = aElem s x i k 0 := by
  simp only [aElem, hacca, if_neg hty, hkind, if_true, worked_spadElem h, worked_spadByte h]

theorem worked_bElem (hty : x.tb ≠ .hb4) (k j sub occ bOff : Nat) : bElem u x k j sub occ bOff = bElem s x k j sub occ bOff := by
  simp only [bElem, if_neg hty, worked_spadElem h, worked_spadByte h]

theorem worked_ctx (c : Cmd) : meCtx u c = meCtx s c := by
  have hactive := h.active
  obtain ⟨m, free, me, flags, p, rfl⟩ := h.shape
  unfold meCtx
  rw [hactive]
  rfl

theorem worked_isInt (n : Nat) : u.me.intSlot.toList.getD n false = s.me.intSlot.toList.getD n false := by
  rw [show u.me.intSlot = s.me.intSlot from congrArg (fun x => x.2.2.1) h.regs]

end

/-! ## Cells -/

/-- What a command of one position adds to an element: the product of its operands. -/
def oneTerm (s : State) (x : MeCtx) (r c : Nat) : Val × Bool :=
  (aElem s x r 0 0).1.term.mul (bElem s x 0 c 0 (allSegs x) 0).term

def oneSum (s : State) (x : MeCtx) (acc r c : Nat) : Nat :=
  (addTerm (s.me.intSlot.toList.getD acc false) x.fzo (accGet s acc r c) (oneTerm s x r c)).1 % 2 ^ 32

/-- A command with one position, plain operands and no merge. -/
structure OnePosition (x : MeCtx) : Prop where
  acca : x.acca = none
  kindA : x.kindA = 0
  occ : x.occ = false
  ta : x.ta ≠ .hb4
  tb : x.tb ≠ .hb4
  pair : x.pair = false
  k : x.k = 1
  cols : 1 ≤ x.n

/-- The elements that `p` names have gained their product, the others are as they were. -/
structure Gained (s : State) (acc : Nat) (c : Cmd) (x : MeCtx) (q : List Match × List Match × Option MetaStop) (p : Nat → Nat → Bool)
    (y : State × MeRun) : Prop where
  works : Works s acc c y
  rest : (y.2.queue, y.2.walk, y.2.stop) = q
  cells : ∀ r < 128, ∀ n < 256, accGet y.1 acc r n = if p r n then oneSum s x acc r n else accGet s acc r n

section
variable {s : State} {acc : Nat} {c : Cmd} {x : MeCtx} (hx : Fits acc x) (h1 : OnePosition x)
  {q : List Match × List Match × Option MetaStop} {p : Nat → Nat → Bool} {y : State × MeRun}

include hx in
theorem gained_accCell (h : Gained s acc c x q p y) {i j : Nat} (hi : i < 128) (hj : j < 256) (hp : p i j = false) (k : Nat) :
    Gained s acc c x q (fun r n => p r n || decide (r = i ∧ n = j)) (accCell y.1 y.2 x i j k (oneTerm s x i j)) := by
  refine ⟨works_accCell hx h.works hi hj _ _, h.rest, fun r hr n hn => ?_⟩
  show accGet (accPut y.1 x.acc i j _) acc r n = _
  have hold := h.cells i hi j hj
  rw [hp, if_neg Bool.false_ne_true] at hold
  rw [hx.acc, accGet_accPut h.works.state.wf _ _ _ _ _ _ hj hn, hold, worked_isInt h.works.state]
  by_cases heq : r = i ∧ n = j
  · obtain ⟨rfl, rfl⟩ := heq
    simp [oneSum]
  · rw [if_neg heq, h.cells r hr n hn]
    simp [heq]

include hx in
theorem gained_row {i k : Nat} (hi : i < 128) (h : Gained s acc c x q p y) (hp : ∀ j, p i j = false) {n : Nat} (hn : n ≤ 256) :
    Gained s acc c x q (fun r m => p r m || decide (r = i ∧ m < n))
      ((List.range n).foldl (fun (z : State × MeRun) j => accCell z.1 z.2 x i j k (oneTerm s x i j)) y) := by
  induction n with
  | zero => simpa using h
  | succ n ih =>
    rw [List.range_succ, List.foldl_append, List.foldl_cons, List.foldl_nil]
    have hcell := gained_accCell hx (ih (by omega)) hi (j := n) (by omega) (by simp [hp]) k
    convert hcell using 3 with r m
    rw [Bool.or_assoc, ← Bool.decide_or]
    congr 2
    exact propext ⟨fun h => by omega, fun h => by omega⟩

end

theorem cols_all (x : MeCtx) : cols x (allSegs x) = List.range x.n := by
  refine List.filter_eq_self.mpr fun j hj => ?_
  have hlt : j / 32 < x.segs := by
    have := List.mem_range.mp hj
    simp only [MeCtx.segs, ceilDiv]
    omega
  rw [enabledCol, bit_eq_testBit, allSegs, Nat.testBit_two_pow_sub_one]
  exact decide_eq_true hlt

/-- The entry of row `i` at the one position. -/
def oneEntry (x : MeCtx) (i : Nat) : Match := ⟨0, i, i, allSegs x, 0⟩

/-- The entries of the walk. -/
def oneWalk (x : MeCtx) : List Match := (List.range x.m).map (oneEntry x)

section
variable {s : State} {acc : Nat} {c : Cmd} {x : MeCtx} (hx : Fits acc x) (h1 : OnePosition x)
  {q : List Match × List Match × Option MetaStop} {p : Nat → Nat → Bool} {y : State × MeRun}

include h1 in
theorem termOf_one {u : State} (h : Worked s acc u) (i j : Nat) : termOf u x (oneEntry x i) j = oneTerm s x i j := by
  rw [termOf, h1.pair, if_neg Bool.false_ne_true, productOf, worked_aElem h h1.acca h1.kindA h1.ta, worked_bElem h h1.tb]
  rfl

include hx h1 in
theorem gained_retireEntry (h : Gained s acc c x q p y) {i : Nat} (hi : i < 128) (hp : ∀ j, p i j = false) :
    Gained s acc c x q (fun r n => p r n || decide (r = i ∧ n < x.n)) (retireEntry x y (oneEntry x i)) := by
  have hrow := gained_row (i := i) (k := 0) (y := (y.1, { y.2 with
      flags := y.2.flags ||| (if x.acca.isSome then convFlags y.1 x (oneEntry x i) else 0)
      nan := if (if x.acca.isSome then convFlags y.1 x (oneEntry x i) else 0).hasNv then leastNan y.2.nan (i, 0, 0) else y.2.nan }))
    hx hi ⟨⟨h.works.state, ⟨h.works.run.cmd, h.works.run.walk, h.works.run.queue⟩⟩, h.rest, h.cells⟩ hp hx.cols
  have hterm (z : State × MeRun) (j : Nat) : accCell z.1 z.2 x i j 0 (oneTerm s x i j) = accCell z.1 z.2 x i j 0 (termOf y.1 x (oneEntry x i) j) := by
    rw [termOf_one h1 h.works.state]
  simp only [hterm] at hrow
  rw [← cols_all x] at hrow
  exact ⟨⟨hrow.works.state.bumpCounter _ _, hrow.works.run⟩, hrow.rest, hrow.cells⟩

include hx h1 in
theorem gained_rows (h : Gained s acc c x q (fun _ _ => false) y) {m : Nat} (hm : m ≤ 128) :
    Gained s acc c x q (fun r n => decide (r < m ∧ n < x.n)) (((List.range m).map (oneEntry x)).foldl (retireEntry x) y) := by
  induction m with
  | zero => simpa using h
  | succ m ih =>
    rw [List.range_succ, List.map_append, List.foldl_append, List.map_cons, List.map_nil, List.foldl_cons, List.foldl_nil]
    have hrow := gained_retireEntry hx h1 (ih (by omega)) (i := m) (by omega) (by simp)
    convert hrow using 3 with r n
    rw [← Bool.decide_or]
    congr 1
    exact propext ⟨fun h => by omega, fun h => by omega⟩

/-! ## The two steps -/

theorem rowHeads_apart {l : List Match} {seen : List Nat} (hrows : (l.map (·.row)).Nodup) (hseen : ∀ e ∈ l, e.row ∉ seen) :
    rowHeads l seen = (l, []) := by
  induction l generalizing seen with
  | nil => rfl
  | cons e l ih =>
    rw [List.map_cons, List.nodup_cons] at hrows
    have hnot : seen.contains e.row = false := by simpa using hseen e List.mem_cons_self
    have htail := ih (seen := e.row :: seen) hrows.2 fun e' he' hmem => by
      rcases List.mem_cons.mp hmem with heq | hmem
      · exact hrows.1 (List.mem_map.mpr ⟨e', he', heq⟩)
      · exact hseen e' (List.mem_cons_of_mem _ he') hmem
    rw [rowHeads, hnot, if_neg Bool.false_ne_true, htail]

theorem oneWalk_rows (x : MeCtx) : ((oneWalk x).map (·.row)).Nodup := by
  rw [oneWalk, List.map_map]
  exact (List.map_id _).symm ▸ List.nodup_range

/-- What a push of entries that find room leaves as it was. -/
structure Pushed (u : State) (r : MeRun) (es : List Match) (z : State × MeRun) : Prop where
  mem : z.1.mem = u.mem
  agent : z.1.core.agent = u.core.agent
  pend : z.1.core.regs.pend.me = u.core.regs.pend.me
  queue : z.2.queue = r.queue ++ es
  walk : z.2.walk = []
  rest : (z.2.stop, z.2.phase, z.2.begun) = (r.stop, r.phase, r.begun)

theorem pushLoop_all (x : MeCtx) {lim lag : Nat} (hlim : 1 ≤ lim) (hlag : 1 ≤ lag) (trap sparse : Bool) {es : List Match} (hk : ∀ e ∈ es, e.k = 0)
    (hrows : (es.map (·.row)).Nodup) {ks : List Nat} (hks : ks.length ≤ 1) (h0 : ks = [] ∨ ks.contains 0 = true) {np : Nat}
    (hnp : np + es.length ≤ 256) (u : State) {r : MeRun} (hq : ∀ e ∈ es, ∀ e' ∈ r.queue, e'.row ≠ e.row) :
    Pushed u r es (pushLoop x lim lag trap sparse 0 es ks np u r) := by
  induction es generalizing ks np u r with
  | nil => exact ⟨rfl, rfl, rfl, (List.append_nil _).symm, rfl, rfl⟩
  | cons e es ih =>
    rw [List.map_cons, List.nodup_cons] at hrows
    have hek := hk e List.mem_cons_self
    have hempty : (r.queue.filter fun m => m.row == e.row) = [] := by
      refine List.filter_eq_nil_iff.mpr fun e' he' => ?_
      simpa using hq e List.mem_cons_self e' he'
    have hfull : (((!ks.contains e.k) && decide (ks.length = 4)) || decide (np = 256)) = false := by
      rw [List.length_cons] at hnp
      rw [decide_eq_false (by omega), decide_eq_false (by omega), Bool.and_false]
      rfl
    rw [pushLoop]
    dsimp only
    rw [hfull, if_neg Bool.false_ne_true, hek, if_neg (by omega), hempty, List.length_nil, if_neg (Nat.not_le.mpr hlim)]
    have hrest := ih (fun e' he' => hk e' (List.mem_cons_of_mem _ he')) hrows.2 (ks := if !ks.contains 0 then 0 :: ks else ks)
      (np := np + 1) (u := bumpCounter u 0 1)
      (r := { r with queue := r.queue ++ [e], ovf := false, lag := false, k := 0, row := e.row + 1, pos := e.aIdx + 1 })
      ?_ ?_ ?_ ?_
    · obtain ⟨hmem, hagent, hpend, hqueue, hwalk, hsame⟩ := hrest
      exact ⟨hmem, hagent, hpend, hqueue.trans (List.append_assoc _ [e] es), hwalk, hsame⟩
    · rcases h0 with rfl | h0
      · simp
      · rw [h0]
        exact hks
    · rcases h0 with rfl | h0
      · simp
      · rw [h0]
        exact .inr h0
    · rw [List.length_cons] at hnp
      omega
    · intro e1 he1 e' he'
      rcases List.mem_append.mp he' with he' | he'
      · exact hq e1 (List.mem_cons_of_mem _ he1) e' he'
      · rw [List.mem_singleton.mp he']
        exact fun heq => hrows.1 (List.mem_map.mpr ⟨e1, he1, heq.symm⟩)

end

/-- The position that the push loop of a step counts its lead from. -/
def firstK (r : MeRun) : Nat :=
  match r.queue, r.walk with
  | e :: _, _ => e.k
  | [], e :: _ => e.k
  | [], [] => 0

theorem arrayStep_eq (u : State) (x : MeCtx) (r : MeRun) (all : List Match) : arrayStep u x r all =
    let y := retireStep u x r all
    let z := pushLoop x (cfgNat u.me.active 7) (cfgNat u.me.active 8) (cfgNat u.me.active 9 == 1) (isMspa r.cmd.instr) (firstK y.2)
      y.2.walk [] 0 y.1 y.2
    (bumpCounter z.1 5 1, z.2) := rfl

section
variable {x : MeCtx} (h1 : OnePosition x)
include h1

theorem usesBurls_one : usesBurls x = false := by
  rw [usesBurls, beq_eq_false_iff_ne.mpr h1.ta, beq_eq_false_iff_ne.mpr h1.tb]
  rfl

theorem walkOf_one {u : State} (hp : u.poison = []) : walkOf u x = (oneWalk x, none) := by
  have hsegs : allSegs x ≠ 0 := by
    have hpos : 1 ≤ x.segs := by
      have := h1.cols
      simp only [MeCtx.segs, ceilDiv]
      omega
    have : 2 ^ 1 ≤ 2 ^ x.segs := Nat.pow_le_pow_right (by decide) hpos
    simp only [allSegs]
    omega
  have hkp : x.kp = 1 := by
    rw [MeCtx.kp, h1.pair, if_neg Bool.false_ne_true, h1.k]
  have hocc : occAt u x 0 (0 - 1) (0 * x.m) = .ok (allSegs x) := by
    rw [occAt, h1.occ, if_neg Bool.false_ne_true]
  have hentry (i : Nat) : matchOf 0 i (0 * x.m + i) (allSegs x) 0 = [oneEntry x i] := by
    rw [matchOf, if_neg hsegs, Nat.zero_mul, Nat.zero_add]
    rfl
  have hall : walkAll u x = (oneWalk x, none) := by
    unfold walkAll
    rw [h1.kindA]
    show walkNone u x x.kp 0 0 = _
    rw [hkp, walkNone, hocc]
    simp only [hentry, walkNone, List.append_nil, oneWalk, List.map_eq_flatMap]
  rw [walkOf, hall]
  dsimp only
  rw [hp, List.isEmpty_nil, if_pos rfl]

theorem beginWalk_one {u : State} (hp : u.poison = []) {r : MeRun} (hr : r.pos = 0) :
    beginWalk u x r = (u, { r with walk := oneWalk x, stop := none, begun := true }) := by
  rw [beginWalk, walkOf_one h1 hp, usesBurls_one h1, hr]
  simp

omit h1 in
theorem arrayStep_pushes (hx : x.m ≤ 128) {u : State} (hlim : 1 ≤ cfgNat u.me.active 7) (hlag : 1 ≤ cfgNat u.me.active 8) {r : MeRun}
    (hq : r.queue = []) (hw : r.walk = oneWalk x) : Pushed u r (oneWalk x) (arrayStep u x r []) := by
  have hretire : retireStep u x r [] = (u, r) := by
    rw [retireStep, hq]
    rw [show rowHeads [] [] = ([], []) from rfl]
    exact congrArg (Prod.mk u) (by rw [← hq])
  have hk : ∀ e ∈ oneWalk x, e.k = 0 := by
    intro e he
    obtain ⟨i, _, rfl⟩ := List.mem_map.mp he
    rfl
  have hhead : firstK r = 0 := by
    rw [firstK, hq, hw]
    cases h : oneWalk x with
    | nil => rfl
    | cons e es => exact hk e (h ▸ List.mem_cons_self)
  have hpush := pushLoop_all x hlim hlag (cfgNat u.me.active 9 == 1) (isMspa r.cmd.instr) hk (oneWalk_rows x) (ks := []) (Nat.zero_le 1)
    (.inl rfl) (np := 0) (by simp [oneWalk]; omega) u (r := r) (by simp [hq])
  rw [arrayStep_eq, hretire]
  dsimp only
  rw [hhead, hw]
  obtain ⟨hmem, hagent, hpend, hqueue, hwalk, hsame⟩ := hpush
  exact ⟨hmem, hagent, hpend, hqueue, hwalk, hsame⟩

theorem arrayStep_retires {s : State} {acc : Nat} {c : Cmd} (hx : Fits acc x) {u : State} {r : MeRun} (h : Works s acc c (u, r))
    (hcells : ∀ i < 128, ∀ j < 256, accGet u acc i j = accGet s acc i j) (hq : r.queue = oneWalk x) (hw : r.walk = []) :
    Gained s acc c x ([], [], r.stop) (fun i j => decide (i < x.m ∧ j < x.n)) (arrayStep u x r []) := by
  have hstart : Gained s acc c x ([], [], r.stop) (fun _ _ => false) (u, { r with queue := [] }) :=
    ⟨⟨h.state, ⟨h.run.cmd, h.run.walk, by simp⟩⟩, by simp only [hw], by simpa using hcells⟩
  have hretire : retireStep u x r [] = (oneWalk x).foldl (retireEntry x) (u, { r with queue := [] }) := by
    rw [retireStep, hq, rowHeads_apart (oneWalk_rows x) (by simp)]
    dsimp only
    rw [usesBurls_one h1]
    rfl
  have hrows := gained_rows hx h1 hstart hx.rows
  rw [arrayStep_eq, hretire]
  rw [← oneWalk] at hrows
  generalize (oneWalk x).foldl (retireEntry x) (u, { r with queue := [] }) = y at hrows
  obtain ⟨works, rest, cells⟩ := hrows
  have hwalk : y.2.walk = [] := congrArg (fun q => q.2.1) rest
  dsimp only
  rw [hwalk, pushLoop]
  refine ⟨⟨works.state.bumpCounter _ _, ⟨works.run.cmd, by simp, works.run.queue⟩⟩, ?_, cells⟩
  rw [← rest, hwalk]

end

section
variable {u : State} {r : MeRun} {b : State × MeRun} (hphase : r.phase = 1)
  (hb : (if r.begun then (u, r) else beginWalk u (meCtx u r.cmd) r) = b) (hburl : usesBurls (meCtx u r.cmd) = false)
include hphase hb hburl

theorem runStep_goesOn (hq : (arrayStep b.1 (meCtx u r.cmd) b.2 []).2.queue ≠ []) :
    runStep u r = (arrayStep b.1 (meCtx u r.cmd) b.2 []).1.setRun (some (arrayStep b.1 (meCtx u r.cmd) b.2 []).2) := by
  have hnot : (arrayStep b.1 (meCtx u r.cmd) b.2 []).2.queue.isEmpty = false := by simpa using hq
  rw [runStep, if_neg (by omega)]
  dsimp only
  rw [hb, hburl, if_neg Bool.false_ne_true, hnot, Bool.and_false, if_neg Bool.false_ne_true]

theorem runStep_ends {y : State × MeRun} (hy : arrayStep b.1 (meCtx u r.cmd) b.2 [] = y) (hrest : (y.2.queue, y.2.walk, y.2.stop) = ([], [], none))
    (hmask : mergeMask y.1 = 0) : runStep u r = finishMatrix y.1 y.2 := by
  rw [runStep, if_neg (by omega)]
  dsimp only
  rw [hb, hburl, if_neg Bool.false_ne_true, hy]
  obtain ⟨hqueue, hrest⟩ := Prod.ext_iff.mp hrest
  obtain ⟨hwalk, hstop⟩ := Prod.ext_iff.mp hrest
  dsimp only at hqueue hwalk hstop
  rw [hqueue, hwalk, List.isEmpty_nil, Bool.and_self, if_pos rfl, hstop]
  dsimp only
  rw [if_pos hmask]

end

theorem finishMatrix_run (u : State) (r : MeRun) : (finishMatrix u r).me.run = none := by
  unfold finishMatrix
  dsimp only
  split <;> rfl

theorem accGet_finishMatrix (u : State) (r : MeRun) (acc i j : Nat) : accGet (finishMatrix u r) acc i j = accGet u acc i j := by
  unfold finishMatrix
  dsimp only
  split <;> rfl

theorem meSettle_step {u : State} {r : MeRun} (hr : u.me.run = some r) (hphase : r.phase = 1) (hpend : u.core.regs.pend.me = none) (n : Nat) :
    meSettle (n + 1) u = meSettle n (runStep u r) := by
  rw [meSettle, hr]
  dsimp only
  rw [hpend, hphase]
  rfl

section
variable {s : State} {acc : Nat} {c : Cmd} (hx : Fits acc (meCtx s c)) (h1 : OnePosition (meCtx s c)) (hwf : Memory.wf s.mem = true)
  (hpoison : s.poison = []) (hmask : mergeMask s = 0) (hlim : 1 ≤ cfgNat s.me.active 7) (hlag : 1 ≤ cfgNat s.me.active 8)
include hx h1 hwf hpoison hmask hlim hlag

/-- A command of one position that starts on an engine at rest ends after it has pushed and retired its entries. -/
theorem settle_one (hpend : s.core.regs.pend.me = none) {r : MeRun} (hcmd : r.cmd = c) (hphase : r.phase = 1) (hbegun : r.begun = false)
    (hqueue : r.queue = []) (hpos : r.pos = 0) (n : Nat) :
    let u := meSettle (n + 2) (s.setRun (some r))
    u.me.run = none ∧ ∀ i < 128, ∀ j < 256, accGet u acc i j =
      if i < (meCtx s c).m ∧ j < (meCtx s c).n then oneSum s (meCtx s c) acc i j else accGet s acc i j := by
  have hstart : Worked s acc (s.setRun (some r)) := (Worked.refl hwf acc).setRun _
  have hctx : meCtx (s.setRun (some r)) r.cmd = meCtx s c := by rw [hcmd, worked_ctx hstart]
  have hburl : usesBurls (meCtx (s.setRun (some r)) r.cmd) = false := by rw [hctx, usesBurls_one h1]
  have hb : (if r.begun then (s.setRun (some r), r) else beginWalk (s.setRun (some r)) (meCtx (s.setRun (some r)) r.cmd) r) =
      (s.setRun (some r), { r with walk := oneWalk (meCtx s c), stop := none, begun := true }) := by
    rw [hbegun, if_neg Bool.false_ne_true, hctx, beginWalk_one h1 (u := s.setRun (some r)) hpoison hpos]
  have hpush := arrayStep_pushes hx.rows (u := s.setRun (some r)) hlim hlag
    (r := { r with walk := oneWalk (meCtx s c), stop := none, begun := true }) hqueue rfl
  have hworks := works_arrayStep (c := c) hx (all := []) (by simp) (u := s.setRun (some r))
    (r := { r with walk := oneWalk (meCtx s c), stop := none, begun := true }) ⟨hstart, ⟨hcmd, fun e he => ?_, by simp [hqueue]⟩⟩
  · generalize hy : arrayStep (s.setRun (some r)) (meCtx s c) { r with walk := oneWalk (meCtx s c), stop := none, begun := true } [] = y
      at hpush hworks
    have hmask' : mergeMask y.1 = 0 := by
      rw [mergeMask, hworks.state.active]
      exact hmask
    have hcells (i j : Nat) : accGet y.1 acc i j = accGet s acc i j := by
      unfold accGet accElemKey State.le State.bytes
      rw [hpush.mem, hpush.agent]
      rfl
    rw [meSettle_step (n := n + 1) (u := s.setRun (some r)) rfl hphase hpend]
    have hstop : y.2.stop = none := congrArg (fun q => q.1) hpush.rest
    have hphase' : y.2.phase = r.phase := congrArg (fun q => q.2.1) hpush.rest
    have hbegun' : y.2.begun = true := congrArg (fun q => q.2.2) hpush.rest
    have hyq : y.2.queue = oneWalk (meCtx s c) := hpush.queue.trans (by rw [hqueue]; rfl)
    by_cases hnone : oneWalk (meCtx s c) = []
    · rw [runStep_ends hphase hb hburl (by rw [hctx]; exact hy) (by rw [hyq, hnone, hpush.walk, hstop]) hmask',
        meSettle_done (finishMatrix_run ..)]
      refine ⟨finishMatrix_run .., fun i _ j _ => ?_⟩
      have hm : (meCtx s c).m = 0 := by simpa [oneWalk] using hnone
      rw [accGet_finishMatrix, hcells, if_neg (by omega)]
    · have hgo := runStep_goesOn hphase hb hburl (by rw [hctx, hy, hyq]; exact hnone)
      rw [hctx] at hgo
      dsimp only at hgo
      rw [hy] at hgo
      rw [hgo]
      have hnext : Worked s acc (y.1.setRun (some y.2)) := hworks.state.setRun _
      have hctx' : meCtx (y.1.setRun (some y.2)) y.2.cmd = meCtx s c := by rw [hworks.run.cmd, worked_ctx hnext]
      have hgain := arrayStep_retires h1 hx (u := y.1.setRun (some y.2)) (r := y.2) ⟨hnext, hworks.run⟩ (fun i _ j _ => hcells i j) hyq hpush.walk
      rw [meSettle_step (u := y.1.setRun (some y.2)) rfl (hphase'.trans hphase) (hpush.pend.trans hpend),
        runStep_ends (hphase'.trans hphase) (if_pos hbegun') (by rw [hctx', usesBurls_one h1]) (by rw [hctx'])
          (hgain.rest.trans (by rw [hstop])) (by rw [mergeMask, hgain.works.state.active]; exact hmask),
        meSettle_done (finishMatrix_run ..)]
      refine ⟨finishMatrix_run .., fun i hi j hj => ?_⟩
      rw [accGet_finishMatrix, hgain.cells i hi j hj]
      simp only [decide_eq_true_eq]
  · obtain ⟨i, hi, rfl⟩ := List.mem_map.mp he
    exact Nat.lt_of_lt_of_le (List.mem_range.mp hi) hx.rows

end

/-! ## The statement -/

/-- The command in progress when a matrix command has started. -/
def startedRun (c : Cmd) (f : Flags) : MeRun :=
  { cmd := c, phase := 1, walk := [], stop := none, queue := [], ovf := false, lag := false, k := 0, row := 0, pos := 0,
    begun := false, burled := [], merged := 0, since := 0, nan := none, flags := f }

theorem startMatrix_eq (c : Cmd) (s : State) : startMatrix c (passed s) =
    match meCheck (activated s) (meCtx (activated s) c) with
    | .error e => .stop (passed s) e 0
    | .ok f => .done ((activated s).setRun (some (startedRun c f))) := by
  unfold startMatrix
  dsimp only
  rw [show (passed s).modMe (fun r => { r with active := r.shadow }) = activated s from rfl]
  cases meCheck (activated s) (meCtx (activated s) c) with
  | error e => rfl
  | ok f => rfl

section
variable {s : State} (hfree : MeFree s) {i : Instr} (hrun : meRun (mkCmd i [] s) (passed s) = startMatrix (mkCmd i [] s) (passed s))
  {slots : List Nat} (hexec : exec i s = dispatchMe i [] slots s) (hs : slots.all s.declares = true)
include hfree hrun hexec hs

theorem exec_matrix_stop {e : Fail} (h : meCheck (activated s) (meCtx (activated s) (mkCmd i [] s)) = .error e) :
    exec i s = .next (meStopped i [] s e) := by
  have hstart : startMatrix (mkCmd i [] s) (passed s) = .stop (passed s) e 0 := by
    rw [startMatrix_eq, h]
  exact hexec.trans ((dispatchMe_ready hs rfl).trans (congrArg _ (queueMe_stop hfree (hrun.trans hstart))))

theorem exec_matrix_start {f : Flags} (h : meCheck (activated s) (meCtx (activated s) (mkCmd i [] s)) = .ok f) :
    exec i s = .next (meSettle (meFuel ((activated s).setRun (some (startedRun (mkCmd i [] s) f))))
      ((activated s).setRun (some (startedRun (mkCmd i [] s) f)))) := by
  have hstart : startMatrix (mkCmd i [] s) (passed s) = .done ((activated s).setRun (some (startedRun (mkCmd i [] s) f))) := by
    rw [startMatrix_eq, h]
  exact hexec.trans ((dispatchMe_ready hs rfl).trans (congrArg _ (queueMe_done hfree (hrun.trans hstart))))

end

/-- The forms of the statement, as the dispatch sees them. -/
theorem matrix_form {o : Mm} {s : State} {i : Instr} (hi : i = .mma o ∨ i = .mmaAcca o ∨ i = .mspa o) (hf : i = .mspa o → s.hasFeature 0 = true)
    (hd : s.declares o.acc.val = true) (ha : i = .mmaAcca o → s.declares (o.fl.toNat / 2 % 4) = true) :
    meRun (mkCmd i [] s) (passed s) = startMatrix (mkCmd i [] s) (passed s) ∧
      (∃ slots, exec i s = dispatchMe i [] slots s ∧ slots.all s.declares = true) ∧
      ∀ t, (meCtx t (mkCmd i [] s)).acc = o.acc.val := by
  rcases hi with rfl | rfl | rfl
  · exact ⟨rfl, ⟨[o.acc.val], exec_mma o s, by simp [hd]⟩, fun _ => rfl⟩
  · exact ⟨rfl, ⟨[o.acc.val, bits o.fl.toNat 1 2], exec_mmaAcca o s, by simpa [hd, bits] using ha rfl⟩, fun _ => rfl⟩
  · exact ⟨rfl, ⟨[o.acc.val], (exec_mspa o s).trans (featured_on (hf rfl) _), by simp [hd]⟩, fun _ => rfl⟩

/-- Settles O45: every step of a matrix command keeps to its slot (`busy_meSettle`), and with one position it adds one product
to each element (`settle_one`). -/
theorem matrixProducts : Obligations.MatrixProducts := by
  intro o s i hfree hwf hi hf hd ha
  obtain ⟨hrun, ⟨slots, hexec, hs⟩, hacc⟩ := matrix_form hi hf hd ha
  refine ⟨fun e he => exec_matrix_stop hfree hrun hexec hs he, fun f hok hm hn => ⟨_, exec_matrix_start hfree hrun hexec hs hok, ?_⟩⟩
  have hfits : Fits o.acc.val (meCtx (activated s) (mkCmd i [] s)) := ⟨hacc _, hm, hn⟩
  have hbusy : Busy (activated s) o.acc.val (mkCmd i [] s) ((activated s).setRun (some (startedRun (mkCmd i [] s) f))) :=
    ⟨(Worked.refl (s := activated s) hwf _).setRun _, fun r hr => by rw [← Option.some.inj hr]; exact ⟨rfl, by simp [startedRun], by simp [startedRun]⟩⟩
  have hdone := busy_meSettle hfits (meFuel ((activated s).setRun (some (startedRun (mkCmd i [] s) f)))) hbusy
  refine ⟨hdone.state.frame, ?_, ?_, fun hmma hk hpair hta htb hcols hpoison hsrc hlim hlag => ?_⟩
  · refine hdone.state.regs.trans ?_
    rw [show (activated s).me.queue = [] from hfree.2.1]
    rfl
  · obtain ⟨m, free, me, flags, p, hu⟩ := hdone.state.shape
    rw [hu]
    rfl
  · subst hmma
    have hone : OnePosition (meCtx (activated s) (mkCmd (.mma o) [] s)) := ⟨rfl, rfl, rfl, hta, htb, hpair, hk, hcols⟩
    obtain ⟨n, hfuel⟩ : ∃ n, meFuel ((activated s).setRun (some (startedRun (mkCmd (.mma o) [] s) f))) = n + 2 :=
      ⟨_, show 2 * _ * _ + 32 = 2 * _ * _ + 30 + 2 from rfl⟩
    rw [hfuel]
    have hsettle := settle_one hfits hone hwf hpoison hsrc hlim hlag hfree.2.2.2.1 (r := startedRun (mkCmd (.mma o) [] s) f) rfl rfl rfl rfl rfl n
    rw [← intSlot_getD]
    exact hsettle

end Sys2Proof.MatrixProducts

/-! # Copy-class commands while a cause is being taken (08 R232, 12 R333)

`CpFree` asks that no cause of the copy engines is pending, but not that no cause is being taken. While one is, a command with a
local range that has been handed over does not work (`mayWork`), so the statements that say what it does at once fail in such a
state. The step of the package issues no instruction in such a state; the statements do not exclude it. -/

namespace Sys2Proof.CopiesWhileTaken

open Sys2Proof.Machine Sys2Proof.Safety

/-- A core whose copy engines hold nothing, that takes a cause of its SCC; s1 holds an address of the own scratchpad that is not
aligned. -/
def overtaken : State :=
  let c := Core.reset 0
  { State.reset with core := { c with
      task := some placedTask
      regs := { c.regs with
        scc := { c.regs.scc with s := c.regs.scc.s.set 1 0x8000000000000001 }
        pend := { c.regs.pend with
          taking := some ⟨⟨.swtrap, .scc, false, false, 0, 0, 0, 0⟩, ⟨.kill, 0, .kill, 0, 0⟩, .kill, 0⟩ } } } }

theorem overtaken_cpFree : CpFree overtaken := by
  refine ⟨rfl, by decide, rfl, rfl, rfl, rfl, fun i => Vector.getElem_replicate i.isLt, fun d h hh => ?_⟩
  rw [show overtaken.dies[d] = Die.reset from Vector.getElem_replicate d.isLt] at hh
  cases hh

theorem overtaken_unitsIdle : UnitsIdle overtaken :=
  ⟨rfl, rfl, rfl, fun n => Vector.getElem_replicate n.isLt, rfl, rfl⟩

/-- The cause of the copy engines that an instruction leaves pending. -/
def leavesCause (i : Instr) : Option Raised :=
  match exec i overtaken with
  | .next u => u.core.regs.pend.copy
  | _ => none

theorem leavesCause_of_exec {i : Instr} {u : State} (h : exec i overtaken = .next u) : leavesCause i = u.core.regs.pend.copy := by
  rw [leavesCause, h]

/-- A form that names s1 as its destination address, and as some of its other operands. -/
def onS1 (sb sc : SReg) : Cx := ⟨0, 1, sb, sc, false, false, false, 0, 0, 0, 0, 0, false, false⟩

/-! ## The commands are handed over and do nothing -/

theorem copyf_waits : leavesCause (.copyf (onS1 0 1)) = none := by decide

theorem atom_waits : leavesCause (.atom (onS1 0 0)) = none := by decide

theorem unsub_waits : leavesCause (.unsub (onS1 1 0)) = none := by decide

/-- A COPYF whose length is no length is ILLEGAL (08 R242). -/
theorem copyf_fault : let c := cpCmd (.copyf (onS1 0 1)) (onS1 0 1) overtaken
    let h := handed (.copyf (onS1 0 1)) (onS1 0 1) overtaken
    (runCopy (moverOf (whoOf h) c) c (copyPlan (moverOf (whoOf h) c) c) none 0 h).out = .fault ⟨.illegal, 0, 0⟩ := by decide

/-! ## The statements -/

/-- Refutes O47: a COPYF of the own scratchpad whose length is no length stops with no cause while another cause is being taken,
for it does not work then. -/
theorem not_copies : ¬ Obligations.Copies := by
  intro h
  obtain ⟨hplain, _⟩ := h (onS1 0 1) (.copyf (onS1 0 1)) overtaken overtaken_cpFree overtaken_unitsIdle
    ⟨by decide, rfl, by decide, by decide⟩
  obtain ⟨hfault, _⟩ := hplain (.inr (.inl rfl))
  have hnone := (leavesCause_of_exec (hfault _ copyf_fault)).symm.trans copyf_waits
  exact Option.some_ne_none _ hnone

/-- Refutes O48: a misaligned atomic of the own scratchpad raises no ALIGN while another cause is being taken, for it does not
work then. -/
theorem not_atomics : ¬ Obligations.Atomics := by
  intro h
  obtain ⟨halign, _⟩ := h (onS1 0 0) (.atom (onS1 0 0)) overtaken overtaken_cpFree overtaken_unitsIdle
    ⟨by decide, rfl, by decide, by decide⟩ (.inl rfl)
  have hnone := (leavesCause_of_exec (halign (by decide))).symm.trans atom_waits
  exact Option.some_ne_none _ hnone

/-- Refutes O49: an UNSUB of an id above 7 raises no ILLEGAL while another cause is being taken, for it does not work then. -/
theorem not_subscriptionsAndCaches : ¬ Obligations.SubscriptionsAndCaches := by
  intro h
  obtain ⟨_, ⟨hunsub, _⟩, _⟩ := h (onS1 1 0) overtaken overtaken_cpFree overtaken_unitsIdle
  have hnone := (leavesCause_of_exec (hunsub ⟨by decide, rfl, by decide, by decide⟩ (by decide))).symm.trans unsub_waits
  exact Option.some_ne_none _ hnone

end Sys2Proof.CopiesWhileTaken

/-! # The mailbox and its records (03 R63-R65, 09 R281, 11 R331) -/

namespace Sys2Proof.HostSteps

open Sys2Proof.Machine Sys2Proof.Safety Sys2Proof.StepsAndTraps

/-! ## Records -/

/-- Firmware has no record to take. -/
def NoRecord (s : State) : Prop := ¬(s.boot.step = 7 ∧ s.boot.failed = false ∧ mboxWord s 0 ≠ mboxWord s 4)

/-- The state once firmware has taken the record at head. -/
def recordTaken (s : State) : State := setMbox s 0 ((mboxWord s 0 + 1) % 510)

theorem takeRecord_none {s : State} (h : NoRecord s) : takeRecord s = none := by
  rw [takeRecord, if_pos]
  by_cases hstep : s.boot.step = 7
  · by_cases hfailed : s.boot.failed = false
    · have heq : mboxWord s 0 = mboxWord s 4 := by
        by_contra hne
        exact h ⟨hstep, hfailed, hne⟩
      simp [mboxHead, mboxTail, heq]
    · simp [firmwareRuns, hfailed]
  · simp [firmwareRuns, hstep]

theorem takeRecord_some {s : State} (h : ¬NoRecord s) : takeRecord s = some (recordTaken s, mboxWord s 0, slotBytes s (mboxWord s 0)) := by
  obtain ⟨hstep, hfailed, hne⟩ := not_not.mp h
  have hgo : (!firmwareRuns s || mboxWord s mboxHead == mboxWord s mboxTail) = false := by
    rw [firmwareRuns, hstep, hfailed, show (mboxWord s mboxHead == mboxWord s mboxTail) = false from beq_eq_false_iff_ne.mpr hne]
    rfl
  rw [takeRecord, hgo, if_neg Bool.false_ne_true]
  rfl

theorem isAttest_iff (r : List Byte) : isAttest r = true ↔ leAt r 0x60 2 / 16 % 2 = 1 := beq_iff_eq

theorem rejectRecord_eq (s : State) (slot st : Nat) (r : List Byte) :
    rejectRecord s slot st r = (setStatus s slot st).signal (if 63 < leAt r 0x62 1 then 0 else leAt r 0x62 1) := rfl

section
variable {s : State} (h : ¬NoRecord s)
include h

section
variable (ha : leAt (slotBytes s (mboxWord s 0)) 0x60 2 / 16 % 2 = 1)
include ha

theorem exec_launch_of_attest : exec .launchRecord s = .next s := by
  refine (exec_launchRecord s).trans (congrArg Host.Outcome.next ?_)
  rw [takeRecord_some h]
  exact if_pos ((isAttest_iff _).mpr ha)

theorem exec_attest_error {st : Nat} (hr : checkAttest (recordTaken s) (slotBytes s (mboxWord s 0)) = .error st) :
    exec .attestRecord s = .next (rejectRecord (recordTaken s) (mboxWord s 0) st (slotBytes s (mboxWord s 0))) := by
  refine (exec_attestRecord s).trans (congrArg Host.Outcome.next ?_)
  rw [takeRecord_some h]
  dsimp only
  rw [(isAttest_iff _).mpr ha, Bool.not_true, if_neg Bool.false_ne_true, hr]

theorem exec_attest_ok {nonce : List Byte} (hr : checkAttest (recordTaken s) (slotBytes s (mboxWord s 0)) = .ok nonce) :
    exec .attestRecord s = .next ((setStatus (writeVa (recordTaken s) (Fin.ofNat 64 (leAt (slotBytes s (mboxWord s 0)) 0x1C 1)) 300
      (leAt (slotBytes s (mboxWord s 0)) 0x10 8) (report (recordTaken s) nonce)) (mboxWord s 0) 2).signal
        (leAt (slotBytes s (mboxWord s 0)) 0x62 1)) := by
  refine (exec_attestRecord s).trans (congrArg Host.Outcome.next ?_)
  rw [takeRecord_some h]
  dsimp only
  rw [(isAttest_iff _).mpr ha, Bool.not_true, if_neg Bool.false_ne_true, hr]

end

section
variable (ha : ¬leAt (slotBytes s (mboxWord s 0)) 0x60 2 / 16 % 2 = 1)
include ha

theorem exec_attest_of_launch : exec .attestRecord s = .next s := by
  refine (exec_attestRecord s).trans (congrArg Host.Outcome.next ?_)
  rw [takeRecord_some h]
  exact if_pos (by rw [Bool.not_eq_true', ← Bool.not_eq_true]; exact fun hat => ha ((isAttest_iff _).mp hat))

theorem exec_launch_error {st : Nat} (hr : checkRecord (recordTaken s) (slotBytes s (mboxWord s 0)) = .error st) :
    exec .launchRecord s = .next (rejectRecord (recordTaken s) (mboxWord s 0) st (slotBytes s (mboxWord s 0))) := by
  refine (exec_launchRecord s).trans (congrArg Host.Outcome.next ?_)
  rw [takeRecord_some h]
  dsimp only
  rw [if_neg fun hat => ha ((isAttest_iff _).mp hat), hr]

theorem exec_launch_ok {o : CodeObj} (hr : checkRecord (recordTaken s) (slotBytes s (mboxWord s 0)) = .ok o) :
    exec .launchRecord s = .next (acceptRecord (recordTaken s) (mboxWord s 0) (slotBytes s (mboxWord s 0)) o) := by
  refine (exec_launchRecord s).trans (congrArg Host.Outcome.next ?_)
  rw [takeRecord_some h]
  dsimp only
  rw [if_neg fun hat => ha ((isAttest_iff _).mp hat), hr]

end

end

/-! ## The checks of a record (03 R64) -/

/-- A store to the mailbox changes nothing of the dies but their notes of dirty lines. -/
theorem recordTaken_kept (s : State) : (∀ d : Fin 8, (recordTaken s).dies[d] = { s.dies[d] with dirty := (recordTaken s).dies[d].dirty }) ∧
    (recordTaken s).launches = s.launches ∧ (recordTaken s).pkg = s.pkg := by
  have hdirty := markDirty_dirty s (mboxKey 0) (leBytes 4 ((mboxWord s 0 + 1) % 510)).length
  obtain ⟨_, hdies, hall⟩ := hdirty
  refine ⟨hdies, ?_, ?_⟩
  · exact (congrArg State.launches hall :)
  · exact (congrArg State.pkg hall :)

theorem ctxAt_taken (s : State) (d : Fin 8) (c : Fin 64) : (recordTaken s).ctxAt d c = s.ctxAt d c := by
  obtain ⟨hdies, _, hpkg⟩ := recordTaken_kept s
  rw [State.ctxAt, State.ctxAt, hdies d, hpkg]

theorem accepts_taken (s : State) (d : Fin 8) (f : Word) :
    accepts (recordTaken s) d f = true ↔ s.dies[d].featon ≠ 0 ∧ f &&& ~~~s.dies[d].featon = 0 := by
  obtain ⟨hdies, _⟩ := recordTaken_kept s
  rw [accepts, hdies d]
  simp

theorem diesOf_record (r : List Byte) : diesOf (BitVec.ofNat 8 (leAt r 0x63 1)) = (List.finRange 8).filter fun d => (leAt r 0x63 1).testBit d.val := by
  refine List.filter_congr fun d _ => ?_
  rw [BitVec.getLsbD_ofNat, decide_eq_true d.isLt, Bool.true_and]

theorem recordOk_iff (r : List Byte) : recordOk r = true ↔ leAt r 0x1F 1 < 4 ∧ leAt r 0x60 2 < 64 ∧ leAt r 0x78 8 = 0 ∧ leAt r 0x1C 1 < 64 ∧
    leAt r 0x63 1 ≠ 0 ∧ leAt r 0x62 1 < 64 ∧ leAt r 0 8 % 32 = 0 := by
  simp only [recordOk, Bool.and_eq_true, decide_eq_true_eq, beq_iff_eq, bne_iff_ne, and_assoc]

/-- The dies that a record names. -/
def recordDies (r : List Byte) : List (Fin 8) := (List.finRange 8).filter fun d => (leAt r 0x63 1).testBit d.val

/-- Every die of a record maps the context. -/
def Mapped (s : State) (r : List Byte) (ctx : Fin 64) : Prop := ∀ d ∈ recordDies r, (s.ctxAt d ctx).ptbase.getLsbD 0 = true

section
variable {s : State} {r : List Byte} {ctx : Fin 64} (hctx : ctx = Fin.ofNat 64 (leAt r 0x1C 1))

include hctx in
theorem unmapped_iff : ((diesOf (BitVec.ofNat 8 (leAt r 0x63 1))).any fun d =>
    !((recordTaken s).ctxAt d (Fin.ofNat 64 (leAt r 0x1C 1))).ptbase.getLsbD 0) = true ↔ ¬Mapped s r ctx := by
  subst hctx
  simp only [diesOf_record, ctxAt_taken, Mapped, recordDies, List.any_eq_true, Bool.not_eq_true', not_forall, exists_prop, Bool.not_eq_true]

theorem checkRecord_fields (hok : ¬recordOk r = true) : checkRecord s r = .error 0x81 := by
  rw [checkRecord, if_pos (by simpa using hok)]

variable (hok : recordOk r = true)
include hctx hok

theorem checkRecord_unmapped (hm : ¬Mapped s r ctx) : checkRecord (recordTaken s) r = .error 0x84 := by
  rw [checkRecord, hok, Bool.not_true, if_neg Bool.false_ne_true]
  dsimp only
  rw [if_pos ((unmapped_iff hctx).mpr hm)]

variable (hm : Mapped s r ctx)
include hm

theorem checkRecord_obj : checkRecord (recordTaken s) r =
    match readObj (recordTaken s) ((recordDies r).headD 0) ctx (leAt r 0 8) (boundsOf r) with
    | none => .error 0x81
    | some o =>
      if !(recordDies r).any fun d => accepts (recordTaken s) d o.features then .error 0x82
      else if 2 ^ 23 < poolBytes o + o.spad then .error 0x83
      else if s.launches.any fun l => l.runs ctx && l.serial == BitVec.ofNat 8 (leAt r 0x1D 1) then .error 0x85
      else .ok o := by
  rw [checkRecord, hok, Bool.not_true, if_neg Bool.false_ne_true]
  dsimp only
  rw [if_neg fun hun => (unmapped_iff hctx).mp hun hm, (recordTaken_kept s).2.1, hctx, diesOf_record]
  rfl

end

/-- Some die of a record has accepted the features of its object. -/
def Covered (s : State) (r : List Byte) (o : CodeObj) : Prop :=
  ∃ d ∈ recordDies r, s.dies[d].featon ≠ 0 ∧ o.features &&& ~~~s.dies[d].featon = 0

/-- A launch of the context that runs has the record's serial. -/
def SerialTaken (s : State) (r : List Byte) (ctx : Fin 64) : Prop :=
  ∃ l ∈ s.launches, l.ctx = ctx ∧ l.complete = false ∧ l.serial = BitVec.ofNat 8 (leAt r 0x1D 1)

theorem covered_iff {s : State} {r : List Byte} {o : CodeObj} : ((recordDies r).any fun d => accepts (recordTaken s) d o.features) = true ↔ Covered s r o := by
  simp only [List.any_eq_true, accepts_taken, Covered]

theorem serialTaken_iff {s : State} {r : List Byte} {ctx : Fin 64} : (s.launches.any fun l => l.runs ctx && l.serial == BitVec.ofNat 8 (leAt r 0x1D 1)) = true ↔ SerialTaken s r ctx := by
  simp only [List.any_eq_true, Launch.runs, Bool.and_eq_true, beq_iff_eq, Bool.not_eq_true', and_assoc, SerialTaken]

section
variable {s : State} {r : List Byte} {ctx : Fin 64} (hctx : ctx = Fin.ofNat 64 (leAt r 0x1C 1)) (hok : recordOk r = true) (hm : Mapped s r ctx)
  {o : CodeObj} (ho : readObj (recordTaken s) ((recordDies r).headD 0) ctx (leAt r 0 8) (boundsOf r) = some o)

theorem checkRecord_noObj (hctx : ctx = Fin.ofNat 64 (leAt r 0x1C 1)) (hok : recordOk r = true) (hm : Mapped s r ctx)
    (ho : readObj (recordTaken s) ((recordDies r).headD 0) ctx (leAt r 0 8) (boundsOf r) = none) :
    checkRecord (recordTaken s) r = .error 0x81 := by
  rw [checkRecord_obj hctx hok hm, ho]

include hctx hok hm ho

theorem checkRecord_uncovered (hc : ¬Covered s r o) : checkRecord (recordTaken s) r = .error 0x82 := by
  rw [checkRecord_obj hctx hok hm, ho]
  exact if_pos (by rw [Bool.not_eq_true', ← Bool.not_eq_true]; exact fun h => hc (covered_iff.mp h))

variable (hc : Covered s r o)
include hc

theorem checkRecord_covered : checkRecord (recordTaken s) r = if 2 ^ 23 < poolBytes o + o.spad then .error 0x83
    else if s.launches.any fun l => l.runs ctx && l.serial == BitVec.ofNat 8 (leAt r 0x1D 1) then .error 0x85
    else .ok o := by
  rw [checkRecord_obj hctx hok hm, ho]
  dsimp only
  rw [covered_iff.mpr hc, Bool.not_true, if_neg Bool.false_ne_true]

theorem checkRecord_large (hf : ¬poolBytes o + o.spad ≤ 2 ^ 23) : checkRecord (recordTaken s) r = .error 0x83 := by
  rw [checkRecord_covered hctx hok hm ho hc, if_pos (Nat.lt_of_not_le hf)]

theorem checkRecord_serial (hf : poolBytes o + o.spad ≤ 2 ^ 23) (hs : SerialTaken s r ctx) : checkRecord (recordTaken s) r = .error 0x85 := by
  rw [checkRecord_covered hctx hok hm ho hc, if_neg (Nat.not_lt.mpr hf), if_pos (serialTaken_iff.mpr hs)]

theorem checkRecord_accepted (hf : poolBytes o + o.spad ≤ 2 ^ 23) (hs : ¬SerialTaken s r ctx) : checkRecord (recordTaken s) r = .ok o := by
  rw [checkRecord_covered hctx hok hm ho hc, if_neg (Nat.not_lt.mpr hf), if_neg fun h => hs (serialTaken_iff.mp h)]

end

/-! ## Launches that complete or begin (03 R65, 09 R281) -/

section
variable {s : State} {n : Nat}

theorem exec_launchComplete_none (h : s.launches[n]? = none) : exec (.launchComplete n) s = .next s :=
  (exec_launchComplete n s).trans (by rw [execLaunchComplete, h])

theorem exec_successor_none (h : s.launches[n]? = none) : exec (.successorRootPlace n) s = .next s :=
  (exec_successorRootPlace n s).trans (by rw [execSuccessorRootPlace, h])

variable {l : Launch} (h : s.launches[n]? = some l)
include h

theorem exec_launchComplete_some : exec (.launchComplete n) s =
    .next (if !l.complete && (s.joinAt l.join).settled then settleLaunch s n l else s) :=
  (exec_launchComplete n s).trans (by rw [execLaunchComplete, h])

theorem exec_successor_some : exec (.successorRootPlace n) s = .next (if predReady s l then
    (waitingRoots s n).foldl (fun x e => placeRoot { x with tasks := x.tasks.erase e } l.dieMask e.task) s else s) :=
  (exec_successorRootPlace n s).trans (by rw [execSuccessorRootPlace, h])

end

theorem settleLaunch_eq (s : State) (n : Nat) (l : Launch) : settleLaunch s n l =
    let j := s.joinAt l.join
    let k := mboxKey (0x100 + 128 * l.slot)
    let u := ((((s.storeLe (k + 0x68) 4 j.ended).storeLe (k + 0x6C) 4 j.failed).storeLe (k + 0x70) 8 j.first.toNat).storeLe (k + 0x64) 4 2)
    { u with launches := u.launches.modify n (fun x => { x with complete := true }), msix := u.msix ++ [l.vector] } := by
  have hkey : mboxKey (slotOff l.slot + 0x64) = mboxKey (0x100 + 128 * l.slot) + 0x64 := by
    simp only [mboxKey, slotOff, Nat.add_assoc]
  unfold settleLaunch
  dsimp only
  rw [setStatus, hkey, show slotOff l.slot = 0x100 + 128 * l.slot from rfl]
  generalize (((s.storeLe _ 4 _).storeLe _ 4 _).storeLe _ 8 _).storeLe _ 4 2 = u
  rfl

/-- Settles O50: firmware takes the record at head and answers it by the first check that fails. -/
theorem hostSteps : Obligations.HostSteps := by
  intro s
  dsimp only
  refine ⟨fun a => exec_hostUnsupportedRequest a s, fun v => exec_mailboxTailWrite v s, fun hempty => ⟨?_, ?_⟩,
    fun hrec ha => ⟨exec_launch_of_attest hrec ha, fun hbad => ?_, fun nonce hn => exec_attest_ok hrec ha hn⟩,
    fun hrec ha => ⟨exec_attest_of_launch hrec ha, ?_⟩, fun n => ⟨fun hn => ⟨exec_launchComplete_none hn, exec_successor_none hn⟩,
      fun l hl => ⟨fun hdone => ?_, fun hl' hj => ?_, fun hwait => ?_, fun hready e he => ?_⟩⟩⟩
  · exact (exec_launchRecord s).trans (by rw [execLaunchRecord, takeRecord_none hempty])
  · exact (exec_attestRecord s).trans (by rw [execAttestRecord, takeRecord_none hempty])
  · refine exec_attest_error hrec ha (st := 0x81) ?_
    rw [checkAttest, hbad]
    rfl
  · generalize hctx : (Fin.ofNat 64 (leAt (slotBytes s (mboxWord s 0)) 0x1C 1) : Fin 64) = ctx
    have herror {st : Nat} := exec_launch_error (st := st) hrec ha
    rw [← recordOk_iff]
    refine ⟨fun hok => herror (checkRecord_fields hok), fun hok hm => herror (checkRecord_unmapped hctx.symm hok hm),
      fun hok hm ho => herror (checkRecord_noObj hctx.symm hok hm ho), fun o hok hm ho => ⟨fun hc => herror (checkRecord_uncovered hctx.symm hok hm ho hc),
        fun hc hf => herror (checkRecord_large hctx.symm hok hm ho hc hf),
        fun hc hf hs => herror (checkRecord_serial hctx.symm hok hm ho hc hf hs),
        fun hc hf hs => exec_launch_ok hrec ha (checkRecord_accepted hctx.symm hok hm ho hc hf hs)⟩⟩
  · rw [exec_launchComplete_some hl, if_neg]
    rcases hdone with hdone | hdone <;> simp [hdone]
  · rw [exec_launchComplete_some hl, if_pos (by rw [hl', hj]; rfl)]
    exact congrArg _ (settleLaunch_eq s n l)
  · rw [exec_successor_some hl, hwait, if_neg Bool.false_ne_true]
  · rw [exec_successor_some hl, hready, if_pos rfl, show waitingRoots s n = [e] from he]
    rfl

end Sys2Proof.HostSteps

/-! # Steps of the engines of a core

Each step of an engine is a function of the state in which the core is in focus (`atCore`). One lemma for each function says when it
does nothing and what it does else. -/

namespace Sys2Proof.EngineSteps

open Sys2Proof.Machine Sys2Proof.Safety Sys2Proof.VectorCommands Sys2Proof.AccumulatorTransfers

theorem step_atCore {i : Instr} {s v : State} {n : Fin 512} {f : State → State} (hi : exec i s = .next (atCore n f s))
    (hf : f (s.focus n) = v) : exec i s = .next (v.focus s.core.agent) := by
  rw [hi, atCore, hf]

/-! ## Copies, deliveries and atomics (07 R180, R200, 08 R253) -/

section
variable {u : State} {k : Nat}

theorem copyComplete_none (h : u.cp.copies[k]? = none) : copyComplete k u = u := by rw [copyComplete, h]
theorem deliverStep_none (h : u.cp.copies[k]? = none) : deliverStep k u = u := by rw [deliverStep, h]
theorem atomStep_none (h : u.cp.copies[k]? = none) : atomStep k u = u := by rw [atomStep, h]

variable {r : CopyRun} (h : u.cp.copies[k]? = some r)
include h

theorem copyComplete_some : copyComplete k u =
    if mayWork u r then if (workRun u k none).core.regs.pend = u.core.regs.pend then workRun u k none else u else u := by
  rw [copyComplete, h]

theorem deliverStep_deliver {b : Nat} (hb : r.phase = .deliver b) (hp : isPull r.cmd.instr = false) :
    deliverStep k u = deliverRun u (whoOf u) r b := by
  rw [deliverStep, h]
  dsimp only
  rw [hb]
  simp only [workRun, h, hb, hp, Bool.false_and, Bool.false_eq_true, if_false]

theorem deliverStep_other (hp : ∀ b, r.phase ≠ .deliver b) : deliverStep k u = u := by
  rw [deliverStep, h]
  dsimp only
  split
  next b hb => exact absurd hb (hp b)
  next => rfl

theorem atomStep_atom {o : Cx} {f : Bool} (ho : (r.cmd.instr = .atom o ∧ f = false) ∨ (r.cmd.instr = .atomf o ∧ f = true))
    (hp : r.phase = .run) (hm : mayWork u r = true) : atomStep k u = workAtom u k r o f := by
  rw [atomStep, h]
  dsimp only
  rcases ho with ⟨hi, rfl⟩ | ⟨hi, rfl⟩
  all_goals
    rw [hi]
    simp only [workRun, h, hp, hi, hm, if_true]

theorem atomStep_other (ho : ∀ o, r.cmd.instr ≠ .atom o ∧ r.cmd.instr ≠ .atomf o) : atomStep k u = u := by
  rw [atomStep, h]
  dsimp only
  split
  next o hi => exact absurd hi (ho o).1
  next o hi => exact absurd hi (ho o).2
  next => rfl

end

/-! ## Subscriptions (08 R248) -/

section
variable {u : State} {id : Fin 8}

theorem deliverTile_idle (h : u.cp.subs[id] = none ∨ u.core.task = none ∨ u.core.regs.pend.copy ≠ none) : deliverTile id u = u := by
  unfold deliverTile
  split
  next b t hb ht hp =>
    rcases h with h | h | h
    · rw [h] at hb; cases hb
    · rw [h] at ht; cases ht
    · exact absurd hp h
  next => rfl

variable {b : Subscription} (hb : u.cp.subs[id] = some b) (ht : u.core.task ≠ none) (hp : u.core.regs.pend.copy = none)
include hb ht hp

theorem deliverTile_past (hn : subTiles b.desc ≤ b.next) : deliverTile id u = u := by
  obtain ⟨t, ht⟩ := Option.ne_none_iff_exists'.mp ht
  rw [deliverTile, hb, ht, hp]
  exact if_pos hn

variable (hn : b.next < subTiles b.desc)
include hn

theorem deliverTile_waits (ha : slotAsks u (tileBarrier b) = .ok false) : deliverTile id u = u := by
  obtain ⟨t, ht⟩ := Option.ne_none_iff_exists'.mp ht
  simp only [deliverTile, hb, ht, hp, if_neg (Nat.not_le.mpr hn), ha]

theorem deliverTile_delivers {w : CopyWork} {k : Nat} {v : State} (ha : slotAsks u (tileBarrier b) = .ok true)
    (hw : runCopy (moverOf (whoOf u) (tileCmd b)) (tileCmd b) (tilePlan (moverOf (whoOf u) (tileCmd b)) b) none 0 u = w)
    (hk : w.out = .done k)
    (hc : let t := (w.s.addFlags w.flags).modCp fun p => { p with subs := p.subs.set id (some { b with next := b.next + 1 }) }
      countOn t (whoOf t) (tileBarrier b) k = .ok v) : deliverTile id u = v := by
  obtain ⟨t, ht⟩ := Option.ne_none_iff_exists'.mp ht
  dsimp only at hc
  unfold deliverTile
  -- names for what is matched on: the kernel would evaluate it when it compares two forms of the goal
  obtain ⟨asks, hasks⟩ : ∃ f, f = slotAsks := ⟨_, rfl⟩
  obtain ⟨count, hcount⟩ : ∃ f, f = countOn := ⟨_, rfl⟩
  rw [← hasks] at ha ⊢
  rw [← hcount] at hc ⊢
  simp only [hb, ht, hp, if_neg (Nat.not_le.mpr hn), ha, hw, hk, hc]

end

/-! ## Rotation (08 R251) -/

/-- What a member receives of a source that may have failed. -/
def receiveFrom (x : State) (n : Fin 512) : Except Fail (List Byte × Flags) → State
  | .ok b => rrotReceive x n b
  | .error _ => x

theorem receiveFrom_foldl {ms : List (Fin 512)} {src : List (Fin 512 × Except Fail (List Byte × Flags))}
    {data : List (List Byte × Flags)} (h : src.map Prod.snd = data.map Except.ok) (s : State) :
    (ms.zip src).foldl (fun x d => receiveFrom x d.1 d.2.2) s = (ms.zip data).foldl (fun x d => rrotReceive x d.1 d.2) s := by
  calc (ms.zip src).foldl (fun x d => receiveFrom x d.1 d.2.2) s
      = (ms.zip (src.map Prod.snd)).foldl (fun x d => receiveFrom x d.1 d.2) s := by
        rw [List.zip_map_right, List.foldl_map]; rfl
    _ = (ms.zip data).foldl (fun x d => rrotReceive x d.1 d.2) s := by
        rw [h, List.zip_map_right, List.foldl_map]; rfl

/-- The exchange of members that agree, given what each sends. -/
def exchangeFrom (s : State) (l : List (Fin 512)) (src : List (Fin 512 × Except Fail (List Byte × Flags))) : State :=
  match src.find? fun x => !x.2.toBool with
  | some (n, .error e) => failRrot n e s
  | _ => ((nextMembers l).zip src).foldl (fun x d => receiveFrom x d.1 d.2.2) s

theorem exchangeFrom_ok {s : State} {l : List (Fin 512)} {src : List (Fin 512 × Except Fail (List Byte × Flags))}
    {data : List (List Byte × Flags)} (h : src.map Prod.snd = data.map Except.ok) :
    exchangeFrom s l src = ((nextMembers l).zip data).foldl (fun x d => rrotReceive x d.1 d.2) s := by
  have hnone : (src.find? fun x => !x.2.toBool) = none := by
    refine List.find?_eq_none.mpr fun x hx => ?_
    obtain ⟨d, -, hd⟩ := List.mem_map.mp (h ▸ List.mem_map_of_mem (f := Prod.snd) hx)
    rw [← hd]
    exact Bool.false_ne_true
  rw [exchangeFrom, hnone, receiveFrom_foldl h]

theorem not_not_all {ws : List RrotWait} {p : RrotWait → RrotWait → Bool} (h : ∀ a ∈ ws, ∀ b ∈ ws, p a b = true) :
    ¬(!ws.all fun a => ws.all fun b => p a b) = true := by
  simpa using h

section
variable {s : State} {cl : Fin 64}

/-- The RROTs that wait at the members of a clearing. -/
def waitingRrots (s : State) (cl : Fin 64) : List RrotWait := (enabledMembers s cl).filterMap fun n => (s.coreAt n).rrot

theorem exchange_incomplete (h : enabledMembers s cl = [] ∨ (waitingRrots s cl).length ≠ (enabledMembers s cl).length) :
    exchange cl s = s := by
  refine if_pos ?_
  rcases h with h | h
  · rw [h]; rfl
  · exact Bool.or_eq_true_iff.mpr (.inr (bne_iff_ne.mpr h))

variable (hl : enabledMembers s cl ≠ []) (hw : (waitingRrots s cl).length = (enabledMembers s cl).length)
include hl hw

theorem members_complete :
    ¬((enabledMembers s cl).isEmpty || (waitingRrots s cl).length != (enabledMembers s cl).length) = true := by
  simp [hl, hw]

theorem exchange_lengths (hd : ∃ a ∈ waitingRrots s cl, ∃ b ∈ waitingRrots s cl, a.cmd.vals.getD 2 0 ≠ b.cmd.vals.getD 2 0) :
    exchange cl s = (enabledMembers s cl).foldl (fun x k => failRrot k ⟨.illegal, 0, 0⟩ x) s := by
  refine (if_neg (members_complete hl hw)).trans (if_pos ?_)
  obtain ⟨a, ha, b, hb, hne⟩ := hd
  refine Bool.not_eq_true' _ |>.mpr (List.all_eq_false.mpr ⟨a, ha, ?_⟩)
  rw [Bool.not_eq_true]
  exact List.all_eq_false.mpr ⟨b, hb, by simpa using hne⟩

theorem exchange_performed (hs : ∀ a ∈ waitingRrots s cl, ∀ b ∈ waitingRrots s cl,
      a.cmd.vals.getD 2 0 = b.cmd.vals.getD 2 0 ∧ a.ctx = b.ctx)
    {data : List (List Byte × Flags)}
    (hdata : ((enabledMembers s cl).zip (waitingRrots s cl)).map (fun x => rrotSource s x.1 x.2) = data.map Except.ok) :
    exchange cl s = ((nextMembers (enabledMembers s cl)).zip data).foldl (fun x d => rrotReceive x d.1 d.2) s := by
  refine (if_neg (members_complete hl hw)).trans ((if_neg ?_).trans ((if_neg ?_).trans ?_))
  · exact not_not_all fun a ha b hb => beq_iff_eq.mpr (hs a ha b hb).1
  · exact not_not_all fun a ha b hb => beq_iff_eq.mpr (hs a ha b hb).2
  · refine Eq.trans (b := exchangeFrom s (enabledMembers s cl)
      (((enabledMembers s cl).zip (waitingRrots s cl)).map fun x => (x.1, rrotSource s x.1 x.2))) rfl (exchangeFrom_ok ?_)
    rw [List.map_map]
    exact hdata

end

section
variable {u : State}

theorem rrotOver_waits (h : ∀ w, u.core.rrot = some w → u.die.bartmo.toNat = 0 ∨ u.now - w.since ≤ u.die.bartmo.toNat) :
    rrotOver u = u := by
  unfold rrotOver
  split
  next w hw => exact if_neg fun ⟨h0, hlt⟩ => (h w hw).elim h0 (Nat.not_le.mpr hlt)
  next => rfl

theorem rrotOver_late {w : RrotWait} (h : u.core.rrot = some w) (h0 : u.die.bartmo.toNat ≠ 0)
    (hlt : u.die.bartmo.toNat < u.now - w.since) :
    rrotOver u = failRrot u.core.agent ⟨.stagetimeout, 0, w.cmd.vals.getD 4 0⟩ u := by
  rw [rrotOver, h]
  exact if_pos ⟨h0, hlt⟩

end

/-! ## Tiles that are sent, and the array (06 R151, R159, R160) -/

/-- The head of the ME's queue sends a tile. -/
def Sends (u : State) : Prop :=
  u.core.regs.pend.me = none ∧ u.me.run = none ∧ ∃ c cs o, u.me.queue = c :: cs ∧ c.instr = .mdrainMerge o

theorem sendsTile_iff {u : State} : sendsTile u = true ↔ Sends u := by
  rw [sendsTile, Bool.and_eq_true, Bool.and_eq_true, Option.isNone_iff_eq_none, Option.isNone_iff_eq_none, and_assoc]
  refine and_congr_right fun _ => and_congr_right fun _ => ?_
  cases hq : u.me.queue with
  | nil => simp
  | cons c cs =>
    dsimp only
    constructor
    · intro h
      split at h
      next o hi => exact ⟨c, cs, o, rfl, hi⟩
      next => cases h
    · rintro ⟨d, ds, o, hd, hi⟩
      rw [(List.cons.inj hd).1, hi]

theorem timedOut_iff {u : State} {t : Nat} : timedOut u t = true ↔ u.die.bartmo.toNat ≠ 0 ∧ t + u.die.bartmo.toNat ≤ u.now := by
  simp [timedOut]

/-- The function that MERGE_TILE_ARRIVAL runs at a core. -/
def tileArrives (t : State) : State := if sendsTile t && t.core.refused.isNone then meStep t else t
/-- The function that MERGE_RETRY runs at a core. -/
def tileRetries (t : State) : State := if sendsTile t && t.core.refused.isSome then meStep t else t

section
variable {u : State}

theorem tileArrives_eq (h : Sends u) (hr : u.core.refused = none) : tileArrives u = meStep u := by
  rw [tileArrives, sendsTile_iff.mpr h, hr]
  rfl

theorem tileArrives_refused {t : Nat} (hr : u.core.refused = some t) : tileArrives u = u := by
  rw [tileArrives, hr, Option.isNone_some, Bool.and_false, if_neg Bool.false_ne_true]

theorem tileRetries_eq {t : Nat} (h : Sends u) (hr : u.core.refused = some t) : tileRetries u = meStep u := by
  rw [tileRetries, sendsTile_iff.mpr h, hr]
  rfl

theorem tileRetries_first (hr : u.core.refused = none) : tileRetries u = u := by
  rw [tileRetries, hr, Option.isSome_none, Bool.and_false, if_neg Bool.false_ne_true]

theorem mergeRefusedOver_first (hr : u.core.refused = none) : mergeRefusedOver u = u := by rw [mergeRefusedOver, hr]

theorem sends_nothing (h : ¬Sends u) : tileArrives u = u ∧ tileRetries u = u ∧ mergeRefusedOver u = u := by
  have hs : sendsTile u = false := Bool.eq_false_iff.mpr (mt sendsTile_iff.mp h)
  refine ⟨by rw [tileArrives, hs, Bool.false_and, if_neg Bool.false_ne_true],
    by rw [tileRetries, hs, Bool.false_and, if_neg Bool.false_ne_true], ?_⟩
  unfold mergeRefusedOver
  split
  next => exact if_neg fun hd => h (sendsTile_iff.mp hd.1)
  next => rfl

variable {t : Nat} {c : Cmd} {cs : List Cmd} (hq : u.me.queue = c :: cs) (hr : u.core.refused = some t)
include hq hr

theorem mergeRefusedOver_waits (h : u.die.bartmo.toNat = 0 ∨ u.now < t + u.die.bartmo.toNat) : mergeRefusedOver u = u := by
  rw [mergeRefusedOver, hr, hq]
  refine if_neg fun hd => ?_
  obtain ⟨h0, hle⟩ := timedOut_iff.mp hd.2
  exact h.elim h0 (Nat.not_lt.mpr hle)

theorem mergeRefusedOver_late (hs : Sends u) (h0 : u.die.bartmo.toNat ≠ 0) (hle : t + u.die.bartmo.toNat ≤ u.now) :
    mergeRefusedOver u = meStop (u.modCore fun k => { k with refused := some u.now })
      ⟨.stagetimeout, .me, false, true, c.idx, 0, BitVec.ofNat 64 ((c.vals.getD 0 0).toNat % 8), 0⟩ := by
  rw [mergeRefusedOver, hr, hq]
  refine (if_pos ⟨sendsTile_iff.mpr hs, timedOut_iff.mpr ⟨h0, hle⟩⟩).trans ?_
  simp only [meCause, failAt, bits, Nat.pow_zero, Nat.div_one, Nat.reducePow]

end

/-- The function that ARRAY_STEP runs at a core. -/
def arrayWorks (t : State) : State :=
  if t.core.regs.pend.me.isNone then (match t.me.run with
    | some r => if r.phase = 1 then runStep t r else t
    | none => t) else t

section
variable {u : State}

theorem arrayWorks_idle (h : u.me.run = none) : arrayWorks u = u ∧ mergeWaitOver u = u := by
  rw [arrayWorks, mergeWaitOver, h, ite_self]
  exact ⟨rfl, rfl⟩

variable {r : MeRun} (h : u.me.run = some r)
include h

theorem arrayWorks_stopped (hp : u.core.regs.pend.me ≠ none) : arrayWorks u = u ∧ mergeWaitOver u = u := by
  have hn : ¬u.core.regs.pend.me.isNone = true := fun hn => hp (Option.isNone_iff_eq_none.mp hn)
  refine ⟨if_neg hn, ?_⟩
  rw [mergeWaitOver, h]
  exact if_neg fun hd => hn hd.2.1

theorem arrayWorks_eq (hp : u.core.regs.pend.me = none) : arrayWorks u = if r.phase = 1 then runStep u r else u := by
  rw [arrayWorks, hp, h]
  exact if_pos rfl

/-- A merging command has waited for too long. -/
def Late (u : State) (r : MeRun) : Prop :=
  r.phase = 2 ∧ awaitedMembers u r ≠ [] ∧ u.die.bartmo.toNat ≠ 0 ∧ r.since + u.die.bartmo.toNat ≤ u.now

theorem mergeWaitOver_waits (hl : ¬Late u r) : mergeWaitOver u = u := by
  rw [mergeWaitOver, h]
  refine if_neg fun ⟨hph, _, hne, ht⟩ => hl ⟨hph, fun he => ?_, timedOut_iff.mp ht⟩
  rw [he] at hne
  cases hne

theorem mergeWaitOver_late (hp : u.core.regs.pend.me = none) (hl : Late u r) :
    mergeWaitOver u = meStop (((mergeRun u { r with since := u.now }).1).setRun (some (mergeRun u { r with since := u.now }).2))
      ⟨.stagetimeout, .me, false, true, r.cmd.idx, meMpc 2 0 0 r.merged.toNat,
        BitVec.ofNat 64 (((awaitedMembers u r).map fun k => 2 ^ k).sum), 0⟩ := by
  obtain ⟨hph, hne, ht⟩ := hl
  rw [mergeWaitOver, h]
  refine (if_pos ⟨hph, by rw [hp]; rfl, by simpa using hne, timedOut_iff.mpr ht⟩).trans ?_
  rw [List.sum_eq_foldl, List.foldl_map]
  rfl

end

/-! ## Transfers that land (06 R166, R167) -/

section
variable {u : State} {k : Fin 16}

theorem landStep_landed (h : ∀ l, u.ve.landing[k] = some l → l.data ≠ none) : landStep k u = u := by
  unfold landStep
  split
  next => rfl
  next l hl => exact if_pos (by rw [Option.isSome_iff_ne_none.mpr (h l hl)]; rfl)

theorem landResults_rising (u : State) (l : Landing) :
    (landResults u l).Pairwise (fun a b => a.1 < b.1) ∧ ∀ r ∈ landResults u l, r.1 < l.cmd.dty.count := by
  unfold landResults
  constructor
  · rw [List.pairwise_map]
    exact List.pairwise_lt_range
  · intro r hr
    obtain ⟨n, hn, rfl⟩ := List.mem_map.mp hr
    exact List.mem_range.mp hn

variable {l : Landing} (h : u.ve.landing[k] = some l)
include h

theorem landStep_lands (hd : l.data = none) (hb : veBlocked u ⟨.accrd l.cmd, [], l.idx, 0, .rne⟩ = false)
    (hn : firstNan u l.cmd.dty (landResults u l) = none) :
    landStep k u = counted (u.setLanding k (some { l with data := some (elemWord l.cmd.dty ((landResults u l).map fun x => (x.1, x.2.1))) }))
      (flagsOf 0 (landResults u l)) false := by
  rw [flagsOf_eq, show (0 : Flags) ||| allFlags ((landResults u l).map (·.2.2)) = _ from BitVec.zero_or]
  rw [landStep, h]
  dsimp only
  rw [hd, hb, Option.isSome_none, Bool.or_self, if_neg Bool.false_ne_true, landNow]
  dsimp only
  rw [hn]
  rfl

end

/-! ## Accesses that a scrub had refused (11 R320) -/

section
variable {u : State} {k : Nat}

theorem retryPeer_none (h : u.ord.flights[k]? = none) : retryPeer k u = u := by rw [retryPeer, h]

variable {f : Flight} {m : Nat} {off : Nat} (h : u.ord.flights[k]? = some f) (hv : f.value = none)
  (hc : classify u.core.agent f.addr = .peer m off)
include h hv hc

theorem retryPeer_done {t : State} {v : Word} (ht : portAccess u f = .done t v) :
    retryPeer k u = t.modOrd fun o => { o with flights := o.flights.set k { f with value := some v } } := by
  rw [retryPeer, h]
  dsimp only
  rw [hc]
  dsimp only
  rw [hv, Option.isSome_none, if_neg Bool.false_ne_true, ht]

theorem retryPeer_fails {e : Fail} (ht : portAccess u f = .fails e) :
    retryPeer k u = portFault (u.modOrd fun o => { o with flights := o.flights.eraseIdx k }) f e := by
  rw [retryPeer, h]
  dsimp only
  rw [hc]
  dsimp only
  rw [hv, Option.isSome_none, if_neg Bool.false_ne_true, ht]

end

/-! ## The steps of a core -/

section
variable {s v : State} {n : Fin 512}

theorem does_copyComplete {k : Nat} (h : copyComplete k (s.focus n) = v) : exec (.copyComplete n k) s = .next (v.focus s.core.agent) :=
  step_atCore (exec_copyComplete n k s) h
theorem does_barrierDelivery {k : Nat} (h : deliverStep k (s.focus n) = v) : exec (.barrierDelivery n k) s = .next (v.focus s.core.agent) :=
  step_atCore (exec_barrierDelivery n k s) h
theorem does_atomicUnitPerform {k : Nat} (h : atomStep k (s.focus n) = v) : exec (.atomicUnitPerform n k) s = .next (v.focus s.core.agent) :=
  step_atCore (exec_atomicUnitPerform n k s) h
theorem does_subscriptionTileDelivery {k : Fin 8} (h : deliverTile k (s.focus n) = v) :
    exec (.subscriptionTileDelivery n k) s = .next (v.focus s.core.agent) :=
  step_atCore (exec_subscriptionTileDelivery n k s) h
theorem does_rrotTimeout (h : rrotOver (s.focus n) = v) : exec (.rrotTimeout n) s = .next (v.focus s.core.agent) :=
  step_atCore (exec_rrotTimeout n s) h
theorem does_mergeTileArrival (h : tileArrives (s.focus n) = v) : exec (.mergeTileArrival n) s = .next (v.focus s.core.agent) :=
  step_atCore (f := tileArrives) (exec_mergeTileArrival n s) h
theorem does_mergeRetry (h : tileRetries (s.focus n) = v) : exec (.mergeRetry n) s = .next (v.focus s.core.agent) :=
  step_atCore (f := tileRetries) (exec_mergeRetry n s) h
theorem does_mergeRefusedTimeout (h : mergeRefusedOver (s.focus n) = v) :
    exec (.mergeRefusedTimeout n) s = .next (v.focus s.core.agent) :=
  step_atCore (exec_mergeRefusedTimeout n s) h
theorem does_arrayStep (h : arrayWorks (s.focus n) = v) : exec (.arrayStep n) s = .next (v.focus s.core.agent) :=
  step_atCore (f := arrayWorks) (exec_arrayStep n s) h
theorem does_mergeWaitTimeout (h : mergeWaitOver (s.focus n) = v) : exec (.mergeWaitTimeout n) s = .next (v.focus s.core.agent) :=
  step_atCore (exec_mergeWaitTimeout n s) h
theorem does_accrdLand {k : Fin 16} (h : landStep k (s.focus n) = v) : exec (.accrdLand n k) s = .next (v.focus s.core.agent) :=
  step_atCore (exec_accrdLand n k s) h
theorem does_clearingRingRetry {k : Nat} (h : retryPeer k (s.focus n) = v) :
    exec (.clearingRingRetry n k) s = .next (v.focus s.core.agent) :=
  step_atCore (exec_clearingRingRetry n k s) h

end

/-- Settles O52: a step that does not apply changes nothing of its core, and one that does is the work of its engine. -/
theorem engineSteps : Obligations.EngineSteps := by
  intro s n
  dsimp only
  refine ⟨fun k => ⟨fun hk => ⟨does_copyComplete (copyComplete_none hk), does_barrierDelivery (deliverStep_none hk),
      does_atomicUnitPerform (atomStep_none hk)⟩, fun r hr => ⟨fun hm => does_copyComplete ?_, fun hm hp => does_copyComplete ?_,
      fun hm hp => does_copyComplete ?_, fun b hb hp => does_barrierDelivery (deliverStep_deliver hr hb hp),
      fun hp => does_barrierDelivery (deliverStep_other hr hp),
      fun o f ho hp hm => does_atomicUnitPerform (atomStep_atom hr ho hp hm),
      fun ho => does_atomicUnitPerform (atomStep_other hr ho)⟩⟩,
    fun id => ⟨fun h => does_subscriptionTileDelivery (deliverTile_idle h), fun b hb ht hp =>
      ⟨fun hn => does_subscriptionTileDelivery (deliverTile_past hb ht hp hn), fun hn =>
        ⟨fun ha => does_subscriptionTileDelivery (deliverTile_waits hb ht hp hn ha),
          fun ha k hk v hv => does_subscriptionTileDelivery (deliverTile_delivers hb ht hp hn ha rfl hk hv)⟩⟩⟩,
    fun cl => ⟨fun h => (exec_rrotExchange cl s).trans (congrArg Host.Outcome.next (exchange_incomplete h)), fun hl hw =>
      ⟨fun hd => (exec_rrotExchange cl s).trans (congrArg Host.Outcome.next (exchange_lengths hl hw hd)),
        fun hs data hdata => (exec_rrotExchange cl s).trans (congrArg Host.Outcome.next (exchange_performed hl hw hs hdata))⟩⟩,
    ⟨fun h => does_rrotTimeout (rrotOver_waits h), fun w hw h0 hlt => does_rrotTimeout (rrotOver_late hw h0 hlt)⟩,
    ⟨fun h => ?_, fun h hr => ⟨does_mergeTileArrival (tileArrives_eq h hr), does_mergeRetry (tileRetries_first hr),
        does_mergeRefusedTimeout (mergeRefusedOver_first hr)⟩,
      fun t c cs h hq hr => ⟨does_mergeTileArrival (tileArrives_refused hr), does_mergeRetry (tileRetries_eq h hr),
        fun hw => does_mergeRefusedTimeout (mergeRefusedOver_waits hq hr hw),
        fun h0 hle => does_mergeRefusedTimeout (mergeRefusedOver_late hq hr h h0 hle)⟩,
      fun h => ⟨does_arrayStep (arrayWorks_idle h).1, does_mergeWaitTimeout (arrayWorks_idle h).2⟩,
      fun r hr => ⟨fun hp => ⟨does_arrayStep (arrayWorks_stopped hr hp).1, does_mergeWaitTimeout (arrayWorks_stopped hr hp).2⟩,
        fun hp => ⟨fun h1 => does_arrayStep ((arrayWorks_eq hr hp).trans (if_pos h1)),
          fun h1 => does_arrayStep ((arrayWorks_eq hr hp).trans (if_neg h1)),
          fun hl => does_mergeWaitTimeout (mergeWaitOver_waits hr hl),
          fun hl => does_mergeWaitTimeout (mergeWaitOver_late hr hp hl)⟩⟩⟩,
    fun k => ⟨fun h => does_accrdLand (landStep_landed h), fun l hl hd hb hn =>
      ⟨_, does_accrdLand (landStep_lands hl hd hb hn), fun e he => ?_⟩⟩,
    fun k => ⟨fun h => does_clearingRingRetry (retryPeer_none h), fun f hf hv ⟨m, off, hc⟩ =>
      ⟨fun t v ht => does_clearingRingRetry (retryPeer_done hf hv hc ht),
        fun e he => does_clearingRingRetry (retryPeer_fails hf hv hc he)⟩⟩⟩
  · rw [copyComplete_some hr, hm, if_neg Bool.false_ne_true]
  · rw [copyComplete_some hr, if_pos hm, if_pos hp]
  · rw [copyComplete_some hr, if_pos hm, if_neg hp]
  · obtain ⟨harrive, hretry, hover⟩ := sends_nothing h
    exact ⟨does_mergeTileArrival harrive, does_mergeRetry hretry, does_mergeRefusedTimeout hover⟩
  · obtain ⟨hrise, hlt⟩ := landResults_rising (s.focus n) l
    obtain ⟨hset, _, _⟩ := placed_elemWord l.cmd.dty _ hrise hlt
    exact (hset e he).1

end Sys2Proof.EngineSteps

/-! # Steps of the die schedulers -/

namespace Sys2Proof.SchedulerSteps

open Sys2Proof.Machine Sys2Proof.Safety Sys2Proof.EngineSteps

/-! ## Work for an idle core (09 R261, R267) -/

section
variable {s : State} {n : Fin 512}

theorem exec_idle {v : State} (h : idleRequest n s = v) : exec (.coreIdleRequest n) s = .next v :=
  (exec_coreIdleRequest n s).trans (congrArg Host.Outcome.next h)

theorem isIdle_iff : isIdle s n = true ↔ usable s n = true ∧ (s.coreAt n).task = none := by
  rw [isIdle, Bool.and_eq_true, Option.isNone_iff_eq_none]

theorem idleRequest_busy (h : usable s n = false ∨ (s.coreAt n).task ≠ none) : idleRequest n s = s := by
  refine if_neg fun hi => ?_
  obtain ⟨hu, ht⟩ := isIdle_iff.mp hi
  exact h.elim (fun h => by rw [hu] at h; cases h) fun h => h ht

section
variable (hu : usable s n = true) (ht : (s.coreAt n).task = none)
include hu ht

theorem idleRequest_nothing (hc : chooseOwn s n = none) (hs : steal s n = none) : idleRequest n s = s := by
  refine (if_pos (isIdle_iff.mpr ⟨hu, ht⟩)).trans ?_
  rw [hc, hs]
  rfl

theorem idleRequest_own {e : TaskEnt} (hc : chooseOwn s n = some e) : idleRequest n s = yreqScan (startOn s n e) (dieOf n) := by
  refine (if_pos (isIdle_iff.mpr ⟨hu, ht⟩)).trans ?_
  rw [hc]

end

/-- The first of a sorted list that answers. -/
theorem findSome_sorted {α β : Type} {R : α → α → Prop} {f : α → Option β} {p : α} {b : β} {l : List α} (hl : l.Pairwise R)
    (hp : p ∈ l) (hf : f p = some b) (hnone : ∀ q ∈ l, R q p → f q = none) : l.findSome? f = some b := by
  induction hl with
  | nil => cases hp
  | @cons a l ha hl ih =>
    rw [List.findSome?_cons]
    rcases List.mem_cons.mp hp with rfl | hp
    · rw [hf]
    · rw [hnone a List.mem_cons_self (ha p hp)]
      exact ih hp fun q hq => hnone q (List.mem_cons_of_mem a hq)

/-- A task waits on a core's queue at a level, and may start there. -/
def Waits (s : State) (n : Fin 512) (x : TaskEnt) (p : Nat) : Prop :=
  (∃ c since k, x.place = .ready c since k p ∧ c = n) ∧ mayStart s n x = true

theorem waits_iff {x : TaskEnt} {p : Nat} : (x.waitsOn == some (n, p) && mayStart s n x) = true ↔ Waits s n x p := by
  rw [Bool.and_eq_true, beq_iff_eq]
  refine and_congr_left fun _ => ⟨fun h => ?_, ?_⟩
  · unfold TaskEnt.waitsOn at h
    split at h
    next c since k level hp =>
      cases h
      exact ⟨n, since, k, hp, rfl⟩
    next => cases h
  · rintro ⟨c, since, k, hp, rfl⟩
    rw [TaskEnt.waitsOn, hp]

variable {pre post : List TaskEnt} {e : TaskEnt} {p : Nat}

theorem byStage_first {l : List TaskEnt} (hl : l = pre ++ e :: post) (hk : e.task.stage < 4)
    (hlate : ∀ x ∈ l, x.task.stage < 4 → x.task.stage ≤ e.task.stage) (hpre : ∀ x ∈ pre, x.task.stage ≠ e.task.stage) :
    byStage l = some e := by
  refine findSome_sorted (R := (· > ·)) (p := e.task.stage) (by decide) (by simpa using hk) ?_ fun k hk' hlt => ?_
  · exact List.find?_eq_some_iff_append.mpr ⟨beq_self_eq_true _, pre, post, hl, fun x hx => by simpa using hpre x hx⟩
  · refine List.find?_eq_none.mpr fun x hx he => ?_
    rw [beq_iff_eq] at he
    have h4 : k < 4 := by simpa using hk'
    have hle := hlate x hx (he ▸ h4)
    omega

theorem chooseOwn_first (hs : s.tasks = pre ++ e :: post) (hk : e.task.stage < 4) (hp : p < 4) (he : Waits s n e p)
    (hhigh : ∀ x ∈ s.tasks, ∀ q < p, ¬Waits s n x q)
    (hlate : ∀ x ∈ s.tasks, Waits s n x p → x.task.stage < 4 → x.task.stage ≤ e.task.stage)
    (hpre : ∀ x ∈ pre, Waits s n x p → x.task.stage ≠ e.task.stage) : chooseOwn s n = some e := by
  refine findSome_sorted (R := (· < ·)) (p := p) List.pairwise_lt_range (List.mem_range.mpr hp) ?_ fun q _ hq => ?_
  · have hsplit : (s.tasks.filter fun x => x.waitsOn == some (n, p) && mayStart s n x) =
        (pre.filter fun x => x.waitsOn == some (n, p) && mayStart s n x) ++
          e :: (post.filter fun x => x.waitsOn == some (n, p) && mayStart s n x) := by
      rw [hs, List.filter_append, List.filter_cons_of_pos (by exact waits_iff.mpr he)]
    refine byStage_first hsplit hk (fun x hx => ?_) fun x hx => ?_
    · obtain ⟨hx, hw⟩ := List.mem_filter.mp hx
      exact hlate x hx (waits_iff.mp hw)
    · obtain ⟨hx, hw⟩ := List.mem_filter.mp hx
      exact hpre x hx (waits_iff.mp hw)
  · have hnil : (s.tasks.filter fun x => x.waitsOn == some (n, q) && mayStart s n x) = [] :=
      List.filter_eq_nil_iff.mpr fun x hx hw => hhigh x hx q hq (waits_iff.mp hw)
    rw [hnil]
    rfl

end

/-! ## Aging and READY_WAIT (09 R269, R270) -/

section
variable {s : State} {k : Nat}

theorem exec_task_none (h : s.tasks[k]? = none) : exec (.agingPromotion k) s = .next s ∧ exec (.readyWaitExpiry k) s = .next s ∧
    exec (.storeStageWrite k) s = .next s ∧ ∀ n, exec (.loadTileDelivery k n) s = .next s :=
  ⟨(exec_agingPromotion k s).trans (by rw [execAgingPromotion, h]), (exec_readyWaitExpiry k s).trans (by rw [execReadyWaitExpiry, h]; rfl),
    (exec_storeStageWrite k s).trans (by rw [execStoreStageWrite, h]),
    fun n => (exec_loadTileDelivery k n s).trans (by rw [execLoadTileDelivery, h])⟩

variable {e : TaskEnt} {c : Fin 512} {since passed level : Nat} (hk : s.tasks[k]? = some e)
  (hp : e.place = .ready c since passed level)
include hk hp

theorem exec_aging : exec (.agingPromotion k) s = .next (yreqScan { s with tasks := s.tasks.set k (agePlace s e) } (dieOf c)) :=
  (exec_agingPromotion k s).trans (by rw [execAgingPromotion, hk]; simp only [TaskEnt.waitsOn, hp])

theorem exec_aging_early (h : ¬(0 < level ∧ 0 < passed ∧ s.dies[dieOf c].agemax.toNat ≤ passed)) :
    exec (.agingPromotion k) s = .next (yreqScan s (dieOf c)) := by
  have he : agePlace s e = e := by
    rw [agePlace, hp]
    exact if_neg h
  have hset : s.tasks.set k e = s.tasks := by
    obtain ⟨hlt, rfl⟩ := List.getElem?_eq_some_iff.mp hk
    exact List.set_getElem_self hlt
  rw [exec_aging hk hp, he, hset]

theorem exec_aging_due (h : 0 < level ∧ 0 < passed ∧ s.dies[dieOf c].agemax.toNat ≤ passed) : exec (.agingPromotion k) s =
    .next (yreqScan { s with tasks := s.tasks.set k { e with place := .ready c since 0 (level - 1) } } (dieOf c)) := by
  have he : agePlace s e = { e with place := .ready c since 0 (level - 1) } := by
    rw [agePlace, hp]
    exact if_pos h
  rw [exec_aging hk hp, he]

omit hp in
theorem exec_readyWait {v : State} (h : readyWait s e = v) : exec (.readyWaitExpiry k) s = .next v :=
  (exec_readyWaitExpiry k s).trans (by rw [execReadyWaitExpiry, hk, ← h]; rfl)

end

section
variable {s : State} {e : TaskEnt} {c : Fin 512} {since passed level : Nat} (hp : e.place = .ready c since passed level)
include hp

theorem readyWait_early (h : ∀ x, (s.coreAt c).task = some x →
    ¬(x.prio = level ∧ s.deadlineOf x < s.dies[dieOf c].cycle.toNat - since)) : readyWait s e = s := by
  rw [readyWait, hp]
  dsimp only
  split
  next x hx => exact if_neg (h x hx)
  next => rfl

theorem readyWait_over {x : Task} (hx : (s.coreAt c).task = some x)
    (h : x.prio = level ∧ s.deadlineOf x < s.dies[dieOf c].cycle.toNat - since) : readyWait s e = raiseYreq s c false := by
  rw [readyWait, hp]
  dsimp only
  rw [hx]
  exact if_pos h

end

/-! ## LOAD and STORE stages (09 R266) -/

section
variable {s : State} {e : TaskEnt} {n : Fin 512} {k : Nat}

theorem exec_loadTile {v : State} (hk : s.tasks[k]? = some e) (hp : e.place = .stage n) (hr : e.task.obj.roleOf e.task.stage = .load)
    (h : loadTile s e n = v) : exec (.loadTileDelivery k n) s = .next v :=
  (exec_loadTileDelivery k n s).trans (by rw [execLoadTileDelivery, hk, ← h]; exact congrArg _ (if_pos ⟨hp, hr⟩))

theorem exec_storeStage {v : State} (hk : s.tasks[k]? = some e) (hp : e.place = .stage n)
    (hr : e.task.obj.roleOf e.task.stage = .store) (h : storeStage s e n = v) : exec (.storeStageWrite k) s = .next v :=
  (exec_storeStageWrite k s).trans (by
    rw [execStoreStageWrite, hk]
    dsimp only
    rw [hp]
    dsimp only
    rw [if_pos hr, h])

theorem loadTile_ended (h : e.task.hi ≤ e.task.cur) : loadTile s e n = endStage s e := if_pos h

theorem loadTile_full (h : e.task.cur < e.task.hi) (hq : queueFull s n e.task 0 = true) : loadTile s e n = s :=
  (if_neg (Nat.not_le.mpr h)).trans (if_pos (by rw [hq]; rfl))

/-- A LOAD that has delivered a tile. -/
def afterTile (z : State) (e : TaskEnt) : State :=
  let f : TaskEnt := { e with task := { e.task with cur := e.task.cur + 1, ran := true } }
  let v : State := { z with tasks := z.tasks.map fun w => if w = e then f else w }
  if e.task.hi ≤ e.task.cur + 1 then endStage v f else v

theorem loadTile_delivers {x y : State} {b : PoolBuf} {d : List Byte} {j : Nat} {g : Flags} {l : Nat} (h : e.task.cur < e.task.hi)
    (hq : queueFull s n e.task 0 = false) (hfree : storeFreeKept s (dieOf n) = true) (hx : stageCore s n e.task = some x)
    (hb : ((x.coreAt n).pool.find? fun b => some b.launch == e.task.launch && b.stage == 0 && b.free) = some b)
    (hd : stageDesc x (dieOf n) e.task = .ok d) (hw : walkOk d = true) (hlen : leAt d 0x28 4 ≤ b.bytes)
    (hrun : let c := stageCopy (BitVec.ofNat 64 (0x8000000000000000 + b.off)) (tileSource d e.task.cur) (leAt d 0x28 4)
      let m := moverOf (stageWho x n e.task) c
      runCopy m c (copyPlan m c) none 0 x = ⟨y, j, g, .done l⟩) :
    loadTile s e n = afterTile (passBuffer y n e.task ⟨b.gen, b.off⟩ e.task.cur (e.task.cur + 1) 1 none) e := by
  refine (if_neg (Nat.not_le.mpr h)).trans ((if_neg (by rw [hq, hfree]; exact Bool.false_ne_true)).trans ?_)
  rw [hx]
  dsimp only at hrun ⊢
  rw [hb]
  dsimp only
  rw [hd]
  dsimp only
  rw [if_neg (by rw [hw, decide_eq_false (Nat.not_lt.mpr hlen)]; exact Bool.false_ne_true), hrun]
  rfl

theorem storeStage_waits (h : inputReady (s.coreAt n) e.task = false) : storeStage s e n = s :=
  if_pos (by rw [h]; rfl)

theorem storeStage_writes {x : State} {d : List Byte} (h : inputReady (s.coreAt n) e.task = true)
    (hd : stageDesc s (dieOf n) e.task = .ok d) (hw : walkOk d = true)
    (hx : storeTiles n e.task d (BitVec.ofNat 64 (0x8000000000000000 + (handleOf e.task.inbound).off)) (e.task.hi - e.task.lo)
      e.task.lo s = (x, none)) :
    storeStage s e n = endStage (x.setCoreAt n (freeBuffer (x.coreAt n) (handleOf e.task.inbound))) e := by
  refine (if_neg (by rw [h]; exact Bool.false_ne_true)).trans ?_
  rw [hd]
  dsimp only
  rw [hw, hx]
  rfl

end

/-! ## Deadlines, holding tasks and causes (09 R270, R271, 12 R333) -/

section
variable {u : State} {t : Task}

theorem deadlineStep_idle (h : u.core.task = none) : deadlineStep u = u := by rw [deadlineStep, h]

theorem holdingSave_idle (h : u.core.task = none) : holdingSave u = u := by rw [holdingSave, h]

theorem causeStep_none (h : u.core.regs.pend.all = []) : causeStep u = u := if_pos (by rw [h]; rfl)

theorem causeStep_some (h : u.core.regs.pend.all ≠ []) : causeStep u = takePending (stopArray u) :=
  if_neg (mt List.isEmpty_iff.mp h)

variable (ht : u.core.task = some t)
include ht

theorem deadlinePassed_iff : deadlinePassed u 0 = true ↔ ∃ c, u.core.yreq = some c ∧ c + u.deadlineOf t ≤ u.now := by
  rw [deadlinePassed, ht]
  cases u.core.yreq <;> simp

theorem deadlineStep_early (h : (¬∃ c, u.core.yreq = some c ∧ c + u.deadlineOf t ≤ u.now) ∨ saveFree u = false) :
    deadlineStep u = u := by
  rw [deadlineStep, ht]
  dsimp only
  rcases h with h | h
  · exact if_neg (mt (deadlinePassed_iff ht).mp h)
  · rw [forceSave, h, Bool.not_false, if_pos rfl, ite_self]

theorem deadlineStep_due (h : ∃ c, u.core.yreq = some c ∧ c + u.deadlineOf t ≤ u.now) : deadlineStep u = forceSave u t := by
  rw [deadlineStep, ht]
  exact if_pos ((deadlinePassed_iff ht).mpr h)

theorem holdingSave_other (h : ¬(holdsForOthers u = true ∧ othersWait u u.core.agent = true ∧ saveFree u = true)) :
    holdingSave u = u := by
  rw [holdingSave, ht]
  exact if_neg (by simpa [and_assoc] using h)

theorem holdingSave_saves {y : State} {i : Image} (h : holdsForOthers u = true ∧ othersWait u u.core.agent = true ∧ saveFree u = true)
    (hq : quiet (stopArray (drain u)) = true) (hv : veRests (stopArray (drain u)) = true)
    (hy : saveTask (stopArray (drain u)) t true true true 0 0 none = some (y, i)) :
    holdingSave u = placeSaved y (stopArray (drain u)).core.agent t i (stopArray (drain u)).core.parkReq := by
  obtain ⟨hh, ho, hs⟩ := h
  rw [holdingSave, ht]
  dsimp only
  rw [hh, ho, hs, hq, hv, hy]
  rfl

end

section
variable {u : State} {t : Task} (hs : saveFree u = true)
include hs

theorem forceSave_works (h : quiet (stopArray (drain u)) = false ∨ veRests (stopArray (drain u)) = false) :
    forceSave u t = stopArray (drain u) := by
  refine (if_neg (by rw [hs]; exact Bool.false_ne_true)).trans (if_pos ?_)
  rcases h with h | h
  · rw [h]; rfl
  · rw [h, Bool.and_false]; rfl

theorem forceSave_saves {y : State} {i : Image} (hq : quiet (stopArray (drain u)) = true) (hv : veRests (stopArray (drain u)) = true)
    (hr : roomFor (stopArray (drain u)) (dieOf (stopArray (drain u)).core.agent) (imageSize t.obj true true) ≠ none)
    (hy : let x := stopArray (drain u)
      let w := deadlineRecord x t (if x.core.parkReq then .park else .replay) false
      saveTask w.1 t true true true 0x18 w.2 none = some (y, i)) :
    forceSave u t = placeSaved y (stopArray (drain u)).core.agent t i (stopArray (drain u)).core.parkReq := by
  refine (if_neg (by rw [hs]; exact Bool.false_ne_true)).trans ((if_neg (by rw [hq, hv]; exact Bool.false_ne_true)).trans
    ((if_neg fun h => hr (Option.isNone_iff_eq_none.mp h)).trans ?_))
  dsimp only at hy ⊢
  rw [hy]

end

/-! ## Forwarded tasks and queue 15 (09 R259, 12 R348) -/

section
variable {s : State} {d : Fin 8}

theorem exec_receive_none (h : s.dies[d].forwarded = []) : exec (.taskForwardReceive d) s = .next s :=
  (exec_taskForwardReceive d s).trans (by rw [execTaskForwardReceive, h])

section
variable {t : Task} {rest : List (Task × Option (Fin 512))}

theorem exec_receive_root (h : s.dies[d].forwarded = (t, none) :: rest) : exec (.taskForwardReceive d) s =
    .next (placeHere (s.modDie d fun x => { x with forwarded := rest }) d 0 t).1 :=
  (exec_taskForwardReceive d s).trans (by rw [execTaskForwardReceive, h])

theorem exec_receive_child {n : Fin 512} (h : s.dies[d].forwarded = (t, some n) :: rest) : exec (.taskForwardReceive d) s =
    .next (let p := placeHere (s.modDie d fun x => { x with forwarded := rest }) d 0 t
      let c := p.1.coreAt n
      if c.regs.scc.sent then
        p.1.setCoreAt n { c with regs := { c.regs with scc := { c.regs.scc with answer := some (p.2.setWidth 64) } } }
      else p.1) :=
  (exec_taskForwardReceive d s).trans (by rw [execTaskForwardReceive, h])

end

theorem exec_featurePark {v : State} (h : ((s.tasks.filter fun e => e.place == .parked d 15).findSome? fun e =>
    e.image.bind fun i => placeParked s d e i).getD s = v) : exec (.featureParkPlace d) s = .next v :=
  (exec_featureParkPlace d s).trans (congrArg Host.Outcome.next h)

theorem bind_none {e : TaskEnt} (h : ∀ i, e.image = some i → placeParked s d e i = none) :
    (e.image.bind fun i => placeParked s d e i) = none :=
  Option.bind_eq_none_iff.mpr h

theorem exec_featurePark_none (h : ∀ e ∈ s.tasks, e.place = .parked d 15 → ∀ i, e.image = some i → placeParked s d e i = none) :
    exec (.featureParkPlace d) s = .next s := by
  refine exec_featurePark ?_
  rw [List.findSome?_eq_none_iff.mpr]
  · rfl
  · intro e he
    obtain ⟨he, hp⟩ := List.mem_filter.mp he
    exact bind_none (h e he (beq_iff_eq.mp hp))

theorem exec_featurePark_first {pre post : List TaskEnt} {e : TaskEnt} {i : Image} {t : State} (hs : s.tasks = pre ++ e :: post)
    (hp : e.place = .parked d 15) (hi : e.image = some i) (ht : placeParked s d e i = some t)
    (hpre : ∀ x ∈ pre, x.place = .parked d 15 → ∀ j, x.image = some j → placeParked s d x j = none) :
    exec (.featureParkPlace d) s = .next t := by
  refine exec_featurePark ?_
  rw [hs, List.filter_append, List.filter_cons_of_pos (by exact beq_iff_eq.mpr hp), List.findSome?_append,
    List.findSome?_eq_none_iff.mpr, Option.none_or, List.findSome?_cons, hi, Option.bind_some, ht]
  · rfl
  · intro x hx
    obtain ⟨hx, hxp⟩ := List.mem_filter.mp hx
    exact bind_none (hpre x hx (beq_iff_eq.mp hxp))

end

/-! ## The steps -/

section
variable {s v : State} {n : Fin 512}

theorem does_deadlineExpiry (h : deadlineStep (s.focus n) = v) : exec (.deadlineExpiry n) s = .next (v.focus s.core.agent) :=
  step_atCore (exec_deadlineExpiry n s) h
theorem does_holdingTaskSave (h : holdingSave (s.focus n) = v) : exec (.holdingTaskSave n) s = .next (v.focus s.core.agent) :=
  step_atCore (exec_holdingTaskSave n s) h
theorem does_causeTaken (h : causeStep (s.focus n) = v) : exec (.causeTaken n) s = .next (v.focus s.core.agent) :=
  step_atCore (exec_causeTaken n s) h

end

/-- Settles O51: each step of a die scheduler, from what it finds. -/
theorem schedulerSteps : Obligations.SchedulerSteps := by
  intro s
  dsimp only
  refine ⟨fun n => ⟨fun h => exec_idle (idleRequest_busy h), fun hu ht hc hs => exec_idle (idleRequest_nothing hu ht hc hs),
      fun pre e post hu ht hs hk p hp he hhigh hlate hpre =>
        exec_idle (idleRequest_own hu ht (chooseOwn_first hs hk hp he hhigh hlate hpre))⟩,
    fun k => ⟨exec_task_none, fun e hk => ⟨fun c since passed level hp =>
      ⟨exec_aging_early hk hp, exec_aging_due hk hp, fun h => exec_readyWait hk (readyWait_early hp h),
        fun x hx h => exec_readyWait hk (readyWait_over hp hx h)⟩, fun n hp =>
      ⟨fun hr h => exec_loadTile hk hp hr (loadTile_ended h), fun hr h hq => exec_loadTile hk hp hr (loadTile_full h hq),
        fun hr h hq hf x b d y hx hb hd hw hlen ⟨j, g, l, hrun⟩ =>
          exec_loadTile hk hp hr (loadTile_delivers h hq hf hx hb hd hw hlen hrun),
        fun hr h => exec_storeStage hk hp hr (storeStage_waits h),
        fun hr h d hd hw x hx => exec_storeStage hk hp hr (storeStage_writes h hd hw hx)⟩⟩⟩,
    fun n => ⟨fun h => ⟨does_deadlineExpiry (deadlineStep_idle h), does_holdingTaskSave (holdingSave_idle h)⟩,
      fun t ht => ⟨fun h => does_deadlineExpiry (deadlineStep_early ht h),
        fun hdue hs => ⟨fun h => does_deadlineExpiry ((deadlineStep_due ht hdue).trans (forceSave_works hs h)),
          fun hq hv hr y i hy => does_deadlineExpiry ((deadlineStep_due ht hdue).trans (forceSave_saves hs hq hv hr hy))⟩,
        fun h => does_holdingTaskSave (holdingSave_other ht h),
        fun h hq hv y i hy => does_holdingTaskSave (holdingSave_saves ht h hq hv hy)⟩,
      fun h => does_causeTaken (causeStep_none h), fun h => does_causeTaken (causeStep_some h)⟩,
    fun d => ⟨exec_receive_none, fun t f rest h => ⟨fun hf => exec_receive_root (hf ▸ h), fun n hf =>
      ⟨fun hsent => ?_, fun hsent => ?_⟩⟩, exec_featurePark_none,
      fun pre e post i t hs hp hi ht hpre => exec_featurePark_first hs hp hi ht hpre⟩⟩
  · subst hf
    exact (exec_receive_child h).trans (congrArg Host.Outcome.next (if_neg (by rw [hsent]; exact Bool.false_ne_true)))
  · subst hf
    exact (exec_receive_child h).trans (congrArg Host.Outcome.next (if_pos hsent))

end Sys2Proof.SchedulerSteps

/-! # Blazes, held CPHs and page migrations -/

namespace Sys2Proof.BlazesAndMigrations

open Sys2Proof.Machine Sys2Proof.Safety Sys2Proof.EngineSteps

/-! ## A blaze's copy is performed (07 R193) -/

section
variable {s : State} {d : Fin 8} {e : Fin 4096} {st : BlazeState}

theorem settleEntry_settled (h : ∀ b, lookupKey e.val s.dies[d].blazes = some b → b.state ≠ .pending) : settleEntry d e st s = s := by
  unfold settleEntry
  split
  next => rfl
  next b hb => exact if_neg (h b hb)

/-- The state after the copy of a blaze has worked. -/
theorem settleEntry_pending {b : BlazeEnt} {n : Nat} {r : CopyRun} (hb : lookupKey e.val s.dies[d].blazes = some b)
    (hp : b.state = .pending)
    (hn : ((s.focus b.agent).cp.copies.findIdx? fun x => x.blaze.any fun y => y.entry == e && y.gen == b.gen) = some n)
    (hr : (s.focus b.agent).cp.copies[n]? = some r) (hm : mayWork (s.focus b.agent) r = true) :
    settleEntry d e st s =
      if blazeState ((workRun (s.focus b.agent) n none).focus s.core.agent) ⟨peerOf s.pkg d.val, e, b.gen⟩ = st then
        (workRun (s.focus b.agent) n none).focus s.core.agent
      else s := by
  rw [settleEntry, hb]
  refine (if_pos hp).trans ?_
  simp only [atCore, hn, hr, hm, if_true]

end

/-! ## CPHs that carry blazes (07 R195, R198) -/

section
variable {u : State} {n : Nat}

theorem registerCph_none (h : u.cp.copies[n]? = none) : registerCph n u = u := by rw [registerCph, h]

theorem registerCph_sends {r : CopyRun} (h : u.cp.copies[n]? = some r) (hp : r.phase = .run) (hc : r.carried ≠ [])
    (hm : mayWork u r = true) : registerCph n u = sendCph u n r := by
  rw [registerCph, h]
  dsimp only
  rw [hp]
  refine if_neg ?_
  rw [hm, Bool.not_true, Bool.or_false, Bool.not_eq_true, List.isEmpty_eq_false_iff]
  exact hc

end

/-- The CPHs of a core that are on their way, with the dies they go to. -/
def leaving (s : State) (a : Fin 512) : List (Fin 8 × HoldEnt) :=
  (List.finRange 8).flatMap fun d => (s.dies[d].hold.filter fun h => h.since.isNone && h.who.actor.agent == a).map fun h => (d, h)

section
variable {s : State} {a : Fin 512} {n : Nat}

theorem leaving_eq (s : State) (a : Fin 512) : ((List.finRange 8).flatMap fun d =>
    ((onTheirWay s d).filter fun h => h.who.actor.agent == a).map fun h => (d, h)) = leaving s a := by
  simp only [leaving, onTheirWay, List.filter_filter, Bool.and_comm]

theorem exec_arrival_none (h : (leaving s a)[n]? = none) : exec (.cphArrival a n) s = .next s :=
  (exec_cphArrival a n s).trans (by rw [execCphArrival, leaving_eq, h])

variable {d : Fin 8} {h : HoldEnt}

theorem exec_arrival_some (hl : (leaving s a)[n]? = some (d, h)) : exec (.cphArrival a n) s = .next (arriveHold s d h).1 :=
  (exec_cphArrival a n s).trans (by rw [execCphArrival, leaving_eq, hl])

theorem room_iff : (firstOfFlow s d h && decide ((s.dies[d].hold.filter fun x => x.since.isSome).length < 512)) = true ↔
    firstOfFlow s d h = true ∧ (s.dies[d].hold.filter fun x => x.since.isSome).length < 512 := by
  rw [Bool.and_eq_true, decide_eq_true_iff]

end

/-! ## The hold queue (07 R195, R196) -/

section
variable {s : State} {d : Fin 8} {n : Nat}

theorem withHold_none {f : HoldEnt → State → State} (h : s.dies[d].hold[n]? = none) : withHold d n f s = s := by rw [withHold, h]

theorem withHold_some {f : HoldEnt → State → State} {h : HoldEnt} (hh : s.dies[d].hold[n]? = some h) : withHold d n f s = f h s := by
  rw [withHold, hh]

theorem exec_hold_none (h : s.dies[d].hold[n]? = none) : exec (.watch d n) s = .next s ∧ exec (.landed d n) s = .next s ∧
    exec (.failed d n) s = .next s ∧ exec (.holdlimExpiry d n) s = .next s :=
  ⟨(exec_watch d n s).trans (congrArg Host.Outcome.next (withHold_none h)),
    (exec_landed d n s).trans (congrArg Host.Outcome.next (withHold_none h)),
    (exec_failed d n s).trans (congrArg Host.Outcome.next (withHold_none h)),
    (exec_holdlimExpiry d n s).trans (congrArg Host.Outcome.next (withHold_none h))⟩

variable {h : HoldEnt} (hh : s.dies[d].hold[n]? = some h)
include hh

theorem exec_watch_some {v : State} (hv : (sendWatch s d h).1 = v) : exec (.watch d n) s = .next v :=
  (exec_watch d n s).trans (congrArg Host.Outcome.next ((withHold_some hh).trans hv))

theorem exec_landed_some {v : State} (hv : answerHold (fun b => b) s d h = v) : exec (.landed d n) s = .next v :=
  (exec_landed d n s).trans (congrArg Host.Outcome.next ((withHold_some hh).trans hv))

theorem exec_failed_some {v : State} (hv : answerHold (fun b => !b) s d h = v) : exec (.failed d n) s = .next v :=
  (exec_failed d n s).trans (congrArg Host.Outcome.next ((withHold_some hh).trans hv))

theorem exec_holdlim_some {v : State} (hv : (if holdExpired s d h then discardHold s d h else s) = v) :
    exec (.holdlimExpiry d n) s = .next v :=
  (exec_holdlimExpiry d n s).trans (congrArg Host.Outcome.next ((withHold_some hh).trans hv))

end

section
variable {s : State} {d : Fin 8} {h : HoldEnt}

theorem sendWatch_onWay (hs : h.since = none) : (sendWatch s d h).1 = s := by
  rw [sendWatch, hs]
  rfl

theorem sendWatch_arrived (hs : h.since ≠ none) : (sendWatch s d h).1 = replaceHold s d h { h with watched := true } := by
  rw [sendWatch, if_pos (Option.isSome_iff_ne_none.mpr hs)]

theorem holdExpired_iff : holdExpired s d h = true ↔ s.dies[d].holdlim.toNat ≠ 0 ∧ (∃ x ∈ h.blazes, x.2.2 = none) ∧
    ∃ c, h.since = some c ∧ c + s.dies[d].holdlim.toNat ≤ s.dies[d].cycle.toNat := by
  rw [holdExpired]
  cases h.since <;> simp [and_assoc]

/-- A held CPH with the answers of one kind that its blazes' homes give. -/
def withAnswers (s : State) (h : HoldEnt) (b : Bool) : HoldEnt :=
  { h with blazes := h.blazes.map fun x => (x.1, x.2.1, if x.2.2 = none ∧ answerOf s x.1 = some b then some b else x.2.2) }

/-- Its watchers at the homes that have answered are released. -/
def answered (s : State) (h : HoldEnt) (b : Bool) (t : State) : State :=
  (h.blazes.filter fun x => x.2.2 == none && answerOf s x.1 == some b).foldl (fun y x => unwatch y x.1) t

/-- The answer of one kind that a blaze of a held CPH receives. -/
def newAnswer (kinds : Bool → Bool) (s : State) (x : BlazeRef × BitVec 24 × Option Bool) : Option Bool :=
  if x.2.2.isSome then none else (answerOf s x.1).filter kinds

section
variable {kinds : Bool → Bool} {b : Bool} (hk : ∀ x, kinds x = (x == b))
include hk

theorem newAnswer_eq (x : BlazeRef × BitVec 24 × Option Bool) :
    newAnswer kinds s x = if x.2.2 = none ∧ answerOf s x.1 = some b then some b else none := by
  unfold newAnswer
  cases x.2.2 with
  | some y => simp
  | none =>
    cases ha : answerOf s x.1 with
    | none => simp
    | some y => by_cases hy : y = b <;> simp [Option.filter, hk, hy]

theorem newAnswer_or (x : BlazeRef × BitVec 24 × Option Bool) :
    (newAnswer kinds s x).or x.2.2 = if x.2.2 = none ∧ answerOf s x.1 = some b then some b else x.2.2 := by
  rw [newAnswer_eq hk]
  split <;> rfl

theorem newAnswer_isSome (x : BlazeRef × BitVec 24 × Option Bool) :
    (newAnswer kinds s x).isSome = (x.2.2 == none && answerOf s x.1 == some b) := by
  rw [newAnswer_eq hk]
  split
  next hc => rw [hc.1, hc.2]; simp
  next hc => simpa using hc

theorem answerHold_watched (hw : h.watched = true) : answerHold kinds s d h =
    let k := withAnswers s h b
    let t := replaceHold s d h k
    if k.blazes.any fun x => x.2.2 == some false then answered s h b (discardHold t d k)
    else if k.blazes.all fun x => x.2.2 == some true then performHold (answered s h b t) d k
    else answered s h b t := by
  have hset : (h.blazes.map fun x => (x.1, x.2.1, (newAnswer kinds s x).or x.2.2)) = (withAnswers s h b).blazes :=
    List.map_congr_left fun x _ => by rw [newAnswer_or hk]
  have htold : (h.blazes.filter fun x => (newAnswer kinds s x).isSome) =
      h.blazes.filter fun x => x.2.2 == none && answerOf s x.1 == some b :=
    List.filter_congr fun x _ => newAnswer_isSome hk x
  refine (if_neg (by rw [hw]; exact Bool.false_ne_true)).trans ?_
  unfold newAnswer at hset htold
  dsimp only
  rw [hset, htold]
  rfl

end

theorem answerHold_unwatched {kinds : Bool → Bool} (hw : h.watched = false) : answerHold kinds s d h = s :=
  if_pos (by rw [hw]; rfl)

end

/-! ## Migrations (11 R323, R324) -/

section
variable {s : State} {d : Fin 8} {page key : Nat}

theorem beginMig_none (h : ∀ c ∈ s.dies[d].migCounts, c.page = key / 4096 → reached s d c = false) : beginMig s d key = s := by
  rw [beginMig, List.find?_eq_none.mpr]
  intro c hc hr
  rw [Bool.and_eq_true, beq_iff_eq] at hr
  rw [h c hc hr.1] at hr
  exact Bool.false_ne_true hr.2

theorem beginMig_first {pre post : List MigCount} {c : MigCount} (hs : s.dies[d].migCounts = pre ++ c :: post)
    (hc : c.page = key / 4096) (hr : reached s d c = true) (hpre : ∀ x ∈ pre, x.page = key / 4096 → reached s d x = false) :
    beginMig s d key =
      s.modDie d fun x => { x with migs := x.migs ++ [⟨c.ctx, c.va / 4096 * 4096, key, 0, c.die, false, [], []⟩] } := by
  have hfind : (s.dies[d].migCounts.find? fun c => c.page == key / 4096 && reached s d c) = some c := by
    refine List.find?_eq_some_iff_append.mpr ⟨by rw [hc, hr]; simp, pre, post, hs, fun x hx => ?_⟩
    rw [Bool.not_eq_true', Bool.and_eq_false_imp]
    exact fun hp => hpre x hx (beq_iff_eq.mp hp)
  rw [beginMig, hfind]

theorem movePage_stops {m : Migration} (h : popFrame s m.dest = none ∨ pteKey s m.dest m.ctx m.page = none) :
    movePage s d m = resetCounts (setMig s d m.oldKey fun _ => none) d (m.oldKey / 4096) := by
  unfold movePage
  split
  next t f k hp hk =>
    rcases h with h | h
    · rw [h] at hp; cases hp
    · rw [h] at hk; cases hk
  next => rfl

theorem movePage_moves {m : Migration} {t : State} {f k : Nat} (hp : popFrame s m.dest = some (t, f))
    (hk : pteKey s m.dest m.ctx m.page = some k) :
    movePage s d m =
      let peer := peerOf s.pkg m.dest.val
      let dst := hbmKey peer (f % 2 ^ 25 * 4096)
      let u := copyPage t m.oldKey dst
      let e := u.le k 16
      setMig (u.storeLe k 16 (e - e / 2 ^ 16 % 2 ^ 40 * 2 ^ 16 - e / 2 ^ 64 % 2 ^ 15 * 2 ^ 64 + f % 2 ^ 40 * 2 ^ 16 + peer.toNat * 2 ^ 64)) d
        m.oldKey fun x => some { x with newKey := dst, moved := true, waiting := List.finRange 8 } := by
  rw [movePage, hp, hk]
  rfl

theorem exec_migration_eq {v : State} (h : (match migAt s d (hbmKey (peerOf s.pkg d.val) (page % 2 ^ 25 * 4096)) with
    | none => beginMig s d (hbmKey (peerOf s.pkg d.val) (page % 2 ^ 25 * 4096))
    | some m => if m.moved then s else movePage s d m) = v) : exec (.migration d page) s = .next v :=
  (exec_migration d page s).trans (congrArg Host.Outcome.next h)

theorem exec_migration_begins {v : State} (hm : migAt s d (hbmKey (peerOf s.pkg d.val) (page % 2 ^ 25 * 4096)) = none)
    (h : beginMig s d (hbmKey (peerOf s.pkg d.val) (page % 2 ^ 25 * 4096)) = v) : exec (.migration d page) s = .next v :=
  exec_migration_eq (by rw [hm]; exact h)

section
variable {m : Migration} (hm : migAt s d (hbmKey (peerOf s.pkg d.val) (page % 2 ^ 25 * 4096)) = some m)
include hm

theorem exec_migration_moved (h : m.moved = true) : exec (.migration d page) s = .next s :=
  exec_migration_eq (by rw [hm]; exact if_pos h)

theorem exec_migration_moves {v : State} (hn : m.moved = false) (h : movePage s d m = v) : exec (.migration d page) s = .next v :=
  exec_migration_eq (by rw [hm]; exact (if_neg (by rw [hn]; exact Bool.false_ne_true)).trans h)

end

variable {b : Fin 8}

theorem exec_shootdown_none (h : ∀ m ∈ s.dies[d].migs, m.moved = true → b ∉ m.waiting) : exec (.shootdownAck d b) s = .next s := by
  refine (exec_shootdownAck d b s).trans ?_
  rw [execShootdownAck, List.find?_eq_none.mpr]
  intro m hm hw
  rw [Bool.and_eq_true, List.contains_iff_mem] at hw
  exact h m hm hw.1 hw.2

theorem exec_shootdown_some {pre post : List Migration} {m : Migration} (hs : s.dies[d].migs = pre ++ m :: post)
    (hmv : m.moved = true) (hw : b ∈ m.waiting) (hpre : ∀ x ∈ pre, x.moved = true → b ∉ x.waiting) : exec (.shootdownAck d b) s =
      .next (if (m.waiting.filter (· != b)).isEmpty then endMig (shootDown s b m.ctx m.page) d { m with waiting := m.waiting.filter (· != b) }
        else setMig (shootDown s b m.ctx m.page) d m.oldKey fun _ => some { m with waiting := m.waiting.filter (· != b) }) := by
  have hfind : (s.dies[d].migs.find? fun m => m.moved && m.waiting.contains b) = some m := by
    refine List.find?_eq_some_iff_append.mpr ⟨by rw [hmv, List.contains_iff_mem.mpr hw]; rfl, pre, post, hs, fun x hx => ?_⟩
    rw [Bool.not_eq_true', Bool.and_eq_false_imp]
    exact fun hp => Bool.eq_false_iff.mpr (mt List.contains_iff_mem.mp (hpre x hx hp))
  refine (exec_shootdownAck d b s).trans ?_
  rw [execShootdownAck, hfind]

/-- The accesses that migrations of a die's pages hold. -/
def heldAccesses (s : State) (d : Fin 8) : List (Migration × Fin 512 × Engine × Nat) :=
  s.dies[d].migs.flatMap fun m => m.held.map fun h => (m, h)

variable {n : Nat}

theorem exec_mighold_none (h : (heldAccesses s d)[n]? = none) : exec (.migholdExpiry d n) s = .next s := by
  refine (exec_migholdExpiry d n s).trans ?_
  rw [execMigholdExpiry, show (s.dies[d].migs.flatMap fun m => m.held.map fun h => (m, h))[n]? = none from h]

theorem exec_mighold_some {m : Migration} {h : Fin 512 × Engine × Nat} (hl : (heldAccesses s d)[n]? = some (m, h)) : exec (.migholdExpiry d n) s =
    .next (if s.dies[d].mighold.toNat % 2 ^ 32 < s.dies[d].cycle.toNat - h.2.2 then
      setMig (migTimeout s h) d m.oldKey fun y => some { y with held := y.held.erase h } else s) := by
  refine (exec_migholdExpiry d n s).trans ?_
  rw [execMigholdExpiry, show (s.dies[d].migs.flatMap fun m => m.held.map fun h => (m, h))[n]? = some (m, h) from hl]
  dsimp only
  rw [bits, Nat.pow_zero, Nat.div_one]

end

/-- What LANDED or FAILED leaves of a watched CPH, by the answers that it then has. -/
theorem answerHold_cases {s : State} {d : Fin 8} {h : HoldEnt} {kinds : Bool → Bool} {b : Bool} (hk : ∀ x, kinds x = (x == b))
    (hw : h.watched = true) {i : Instr} (hi : ∀ v, answerHold kinds s d h = v → exec i s = .next v) :
    let k := withAnswers s h b
    let t := replaceHold s d h k
    ((∃ x ∈ k.blazes, x.2.2 = some false) → exec i s = .next (answered s h b (discardHold t d k))) ∧
      ((∀ x ∈ k.blazes, x.2.2 = some true) → exec i s = .next (performHold (answered s h b t) d k)) ∧
      ((∀ x ∈ k.blazes, x.2.2 ≠ some false) → (∃ x ∈ k.blazes, x.2.2 ≠ some true) → exec i s = .next (answered s h b t)) := by
  have hany : ((withAnswers s h b).blazes.any fun x => x.2.2 == some false) = true ↔ ∃ x ∈ (withAnswers s h b).blazes, x.2.2 = some false := by
    simp only [List.any_eq_true, beq_iff_eq]
  have hall : ((withAnswers s h b).blazes.all fun x => x.2.2 == some true) = true ↔ ∀ x ∈ (withAnswers s h b).blazes, x.2.2 = some true := by
    simp only [List.all_eq_true, beq_iff_eq]
  have heq := answerHold_watched (s := s) (d := d) hk hw
  dsimp only at heq ⊢
  refine ⟨fun hf => hi _ (heq.trans (if_pos (hany.mpr hf))), fun ht => hi _ (heq.trans ((if_neg fun hf => ?_).trans (if_pos (hall.mpr ht)))),
    fun hf ⟨x, hx, ht⟩ => hi _ (heq.trans ((if_neg fun ha => ?_).trans (if_neg fun ha => ht (hall.mp ha x hx))))⟩
  · obtain ⟨x, hx, hxf⟩ := hany.mp hf
    rw [ht x hx] at hxf
    cases hxf
  · obtain ⟨x, hx, hxf⟩ := hany.mp ha
    exact hf x hx hxf

/-- Settles O53: each step of blazes, held CPHs and migrations, from what it finds. -/
theorem blazesAndMigrations : Obligations.BlazesAndMigrations := by
  intro s
  dsimp only
  refine ⟨fun d e => ⟨fun h => ⟨(exec_blazeLanded d e s).trans (congrArg Host.Outcome.next (settleEntry_settled h)),
      (exec_blazeFailed d e s).trans (congrArg Host.Outcome.next (settleEntry_settled h))⟩, fun b n r hb hp hn hr hm => ?_⟩,
    fun a n => ⟨fun r hr hp hc hm => step_atCore (exec_watcherRegister a n s) (registerCph_sends hr hp hc hm),
      fun h => step_atCore (exec_watcherRegister a n s) (registerCph_none h), exec_arrival_none, fun d h hl =>
      ⟨fun hn => (exec_arrival_some hl).trans ?_, fun hroom => (exec_arrival_some hl).trans ?_⟩⟩,
    fun d n => ⟨exec_hold_none, fun h hh => ⟨fun hs => exec_watch_some hh (sendWatch_onWay hs),
      fun hs => exec_watch_some hh (sendWatch_arrived hs),
      fun hw => ⟨exec_landed_some hh (answerHold_unwatched hw), exec_failed_some hh (answerHold_unwatched hw)⟩,
      fun hw => ⟨answerHold_cases (fun x => by cases x <;> rfl) hw fun v hv => exec_landed_some hh hv,
        answerHold_cases (fun x => by cases x <;> rfl) hw fun v hv => exec_failed_some hh hv⟩,
      fun hl => exec_holdlim_some hh (if_neg (mt holdExpired_iff.mp hl)),
      fun hl => exec_holdlim_some hh (if_pos (holdExpired_iff.mpr hl))⟩⟩,
    fun d page => ⟨fun hm => ⟨fun h => exec_migration_begins hm (beginMig_none h),
      fun pre c post hs hc hr hpre => exec_migration_begins hm (beginMig_first hs hc hr hpre)⟩,
      fun m hm => ⟨exec_migration_moved hm, fun hn h => exec_migration_moves hm hn (movePage_stops h),
        fun hn t f k hp hk => exec_migration_moves hm hn (movePage_moves hp hk)⟩⟩,
    fun d b => ⟨exec_shootdown_none, fun pre m post hs hmv hw hpre =>
      ⟨fun hk => (exec_shootdown_some hs hmv hw hpre).trans (congrArg Host.Outcome.next (if_pos (List.isEmpty_iff.mpr hk))),
        fun hk => (exec_shootdown_some hs hmv hw hpre).trans (congrArg Host.Outcome.next (if_neg (mt List.isEmpty_iff.mp hk)))⟩⟩,
    fun d n => ⟨exec_mighold_none, fun m h hl => ⟨fun hn => (exec_mighold_some hl).trans (congrArg Host.Outcome.next (if_neg hn)),
      fun hy => (exec_mighold_some hl).trans (congrArg Host.Outcome.next (if_pos hy))⟩⟩⟩
  · have hsettle {st : BlazeState} := settleEntry_pending (st := st) hb hp hn hr hm
    exact ⟨fun h => (exec_blazeLanded d e s).trans (congrArg Host.Outcome.next (hsettle.trans (if_pos h))),
      fun h => (exec_blazeLanded d e s).trans (congrArg Host.Outcome.next (hsettle.trans (if_neg h))),
      fun h => (exec_blazeFailed d e s).trans (congrArg Host.Outcome.next (hsettle.trans (if_pos h))),
      fun h => (exec_blazeFailed d e s).trans (congrArg Host.Outcome.next (hsettle.trans (if_neg h)))⟩
  · rw [arriveHold, if_neg (mt room_iff.mp hn)]
  · rw [arriveHold, if_pos (room_iff.mpr hroom)]

end Sys2Proof.BlazesAndMigrations

/-! # Steps of fabric packets -/

namespace Sys2Proof.FabricSteps

open Sys2Proof.Machine Sys2Proof.Safety

/-! ## A packet that is not there -/

theorem exec_packet_none {s : State} {n : Nat} (h : pktAt s n = none) :
    ∀ i ∈ ([.injectionLimitRelease n, .ringSlotArrival n true, .ringSlotArrival n false, .resendBackoffExpiry n, .torusHop n true,
      .torusHop n false, .linkFlitRetransmit n, .dlrMove n] : List Instr), exec i s = .next s := by
  have hring (takes : Bool) : exec (.ringSlotArrival n takes) s = .next s :=
    (exec_ringSlotArrival n takes s).trans (by rw [execRingSlotArrival, h])
  have hhop (full : Bool) : exec (.torusHop n full) s = .next s := (exec_torusHop n full s).trans (by rw [execTorusHop, h])
  simp only [List.forall_mem_cons]
  exact ⟨(exec_injectionLimitRelease n s).trans (by rw [execInjectionLimitRelease, h]), hring true, hring false,
    (exec_resendBackoffExpiry n s).trans (by rw [execResendBackoffExpiry, h]), hhop true, hhop false,
    (exec_linkFlitRetransmit n s).trans (by rw [execLinkFlitRetransmit, h]), (exec_dlrMove n s).trans (by rw [execDlrMove, h]),
    fun _ hi => absurd hi List.not_mem_nil⟩

section
variable {s : State} {n : Nat} {p : Packet} (h : pktAt s n = some p)
include h

/-! ## Injection, the ring and re-sends (09 R284, R285, R289) -/

theorem exec_retransmit : exec (.linkFlitRetransmit n) s = .next (setPkt s { p with badFlit := false }) :=
  (exec_linkFlitRetransmit n s).trans (by rw [execLinkFlitRetransmit, h])

theorem exec_release : exec (.injectionLimitRelease n) s = .next (
    if p.place == .inject && limitAllows s p && (earlierOf s p).all (fun q => q.place != .inject) then launchPkt s p else s) :=
  (exec_injectionLimitRelease n s).trans (by rw [execInjectionLimitRelease, h])

omit h in
theorem released_iff : (p.place == .inject && limitAllows s p && (earlierOf s p).all fun q => q.place != .inject) = true ↔
    p.place = .inject ∧ limitAllows s p = true ∧ ∀ q ∈ earlierOf s p, q.place ≠ .inject := by
  simp [and_assoc]

/-- A packet stands in the overflow store. -/
def stored (q : Packet) : Bool := match q.place with | .overflow _ => true | _ => false

omit h in
theorem stored_iff {q : Packet} : stored q = true ↔ ∃ k, q.place = .overflow k := by
  unfold stored
  split
  next k hk => exact iff_of_true rfl ⟨k, hk⟩
  next hn => exact iff_of_false Bool.false_ne_true fun ⟨k, hk⟩ => hn k hk

/-- What a ring slot that a packet has reached on a lap does with it. -/
def ringSlot (s : State) (p : Packet) (laps : Nat) (takes : Bool) : State :=
  if (earlierOf s p).isEmpty && (takes || p.tc == 0) then deliverPkt s p
  else if laps = 0 then setPkt s { p with place := .ring 1 }
  else if (earlierOf s p).all stored then
    if overflowTakes s p then setPkt { s with packetNum := s.packetNum + 1 } { p with place := .overflow s.packetNum }
    else refusePkt s p
  else setPkt s { p with place := .ring (laps + 1) }

theorem exec_ring {laps : Nat} (hp : p.place = .ring laps) (takes : Bool) :
    exec (.ringSlotArrival n takes) s = .next (ringSlot s p laps takes) := by
  refine (exec_ringSlotArrival n takes s).trans ?_
  rw [execRingSlotArrival, h]
  dsimp only
  rw [hp]
  rfl

omit h in
theorem taken_iff {takes : Bool} : ((earlierOf s p).isEmpty && (takes || p.tc == 0)) = true ↔
    earlierOf s p = [] ∧ (takes = true ∨ p.tc = 0) := by
  simp

omit h in
theorem overflowTakes_iff : overflowTakes s p = true ↔ overflowBytes s p.dst + 32 + p.bytes ≤ 196608 := by
  rw [overflowTakes, decide_eq_true_iff]

/-- A refused packet's flow starts again. -/
def resent (s : State) (p : Packet) : State :=
  (p :: laterPkts s p).foldl (fun x q => match q.place with
    | .retry _ => setPkt x { q with place := startPlace x q }
    | _ => x) s

theorem exec_resend {t : Nat} (hp : p.place = .retry t) : exec (.resendBackoffExpiry n) s =
    .next (if t ≤ fabricNow s (peerDie p.src) && (earlierOf s p).isEmpty then resent s p else s) := by
  refine (exec_resendBackoffExpiry n s).trans ?_
  rw [execResendBackoffExpiry, h]
  dsimp only
  rw [hp]
  rfl

omit h in
theorem due_iff {t : Nat} : (t ≤ fabricNow s (peerDie p.src) && (earlierOf s p).isEmpty) = true ↔
    t ≤ 2 * s.dies[peerDie p.src].cycle.toNat ∧ earlierOf s p = [] := by
  rw [Bool.and_eq_true, decide_eq_true_iff, List.isEmpty_iff]
  rfl

/-! ## The torus (09 R284, R287, R288) -/

section
variable {c : BitVec 12 × Option (Fin 24) × Bool} (hc : p.channel = some c) (full : Bool)
include hc

theorem exec_hop_stays (hg : ¬(canHop s p = true ∧ classZeroFirst s p = false)) : exec (.torusHop n full) s = .next s := by
  refine (exec_torusHop n full s).trans ?_
  rw [execTorusHop, h]
  dsimp only
  rw [hc]
  exact congrArg _ (if_pos (by simpa [imp_iff_not_or] using hg))

variable (hg : canHop s p = true) (hz : classZeroFirst s p = false)
include hg hz

theorem exec_hop_lands (hh : hopOf s p c.1 c.2.2 = none) :
    exec (.torusHop n full) s = .next (touchHead (setPkt s { p with place := .ring 0 }) p) := by
  refine (exec_torusHop n full s).trans ?_
  rw [execTorusHop, h]
  dsimp only
  rw [hc]
  dsimp only
  rw [hg, hz, hh]
  rfl

theorem exec_hop_crosses {hop : Nat × Bool} (hh : hopOf s p c.1 c.2.2 = some hop) : exec (.torusHop n full) s =
    .next (touchHead (setPkt s { p with
      place := if neighbour s c.1 hop = pkgOf p.dst then .ring 0
        else if c.2.2 then .escape (neighbour s c.1 hop) (some (torusPort (routeEntropy p.entropy) hop))
        else .torus (neighbour s c.1 hop) (some (torusPort (routeEntropy p.entropy) hop))
          (fabricNow s (channelBridge p (some (torusPort (routeEntropy p.entropy) hop))))
      marked := p.marked || (p.answers.isNone && (!c.2.2 && (full ||
        decide (48 < channelFlits s (neighbour s c.1 hop) (torusPort (routeEntropy p.entropy) hop) p.tc false + p.flits)))) }) p) := by
  refine (exec_torusHop n full s).trans ?_
  rw [execTorusHop, h]
  dsimp only
  rw [hc]
  dsimp only
  rw [hg, hz, hh]
  rfl

end

/-- A packet blocked at the head of a normal channel of this package. -/
def Blocked (s : State) (p : Packet) (g : BitVec 12) (q : Option (Fin 24)) (since : Nat) : Prop :=
  g = s.pkg ∧ headOf s p = some p ∧ s.dies[channelBridge p q].dlrtimer.toNat ≠ 0 ∧
    since + s.dies[channelBridge p q].dlrtimer.toNat ≤ 2 * s.dies[channelBridge p q].cycle.toNat

omit h in
theorem blocked_iff {g : BitVec 12} {q : Option (Fin 24)} {since : Nat} : (g = s.pkg && headOf s p == some p &&
    s.dies[channelBridge p q].dlrtimer.toNat != 0 &&
    since + s.dies[channelBridge p q].dlrtimer.toNat ≤ fabricNow s (channelBridge p q)) = true ↔ Blocked s p g q since := by
  rw [Bool.and_eq_true, Bool.and_eq_true, Bool.and_eq_true, decide_eq_true_iff, decide_eq_true_iff, beq_iff_eq, bne_iff_ne, and_assoc,
    and_assoc]
  rfl

/-- It moves to the escape channel, with what its flow has queued there. -/
def escaped (s : State) (p : Packet) (g : BitVec 12) (q : Option (Fin 24)) : State :=
  (touchHead ((p :: laterPkts s p).foldl (fun x r => if r.channel = p.channel then setPkt x { r with place := .escape g q } else x) s)
    p).modDie (channelBridge p q) fun x => { x with bridge := { x.bridge with dlrmoves := x.bridge.dlrmoves + 1 } }

section
variable {g : BitVec 12} {q : Option (Fin 24)} {since : Nat} (hp : p.place = .torus g q since)
include hp

theorem exec_dlr_free (hb : ¬Blocked s p g q since) : exec (.dlrMove n) s = .next s := by
  refine (exec_dlrMove n s).trans ?_
  rw [execDlrMove, h]
  dsimp only
  rw [hp]
  exact congrArg _ (if_neg (mt blocked_iff.mp hb))

theorem exec_dlr_blocked (hb : Blocked s p g q since) : exec (.dlrMove n) s = .next (escaped s p g q) := by
  refine (exec_dlrMove n s).trans ?_
  rw [execDlrMove, h]
  dsimp only
  rw [hp]
  exact congrArg _ (if_pos (blocked_iff.mpr hb))

end

end

/-! ## The overflow store (09 R285) -/

theorem overflowNum_iff {p : Packet} {dst : BitVec 15} {tc : Fin 4} {k : Nat} :
    overflowNum p dst tc = some k ↔ p.place = .overflow k ∧ p.dst = dst ∧ p.tc = tc := by
  unfold overflowNum
  split
  next j hj =>
    rw [hj, PktPlace.overflow.injEq]
    constructor
    · intro h
      split at h
      next hd => exact ⟨Option.some.inj h, hd⟩
      next => cases h
    · rintro ⟨rfl, hd⟩
      exact if_pos hd
  next hn => exact iff_of_false (by simp) fun h => hn k h.1

/-- The smaller of a number and the smallest so far. -/
def leastStep (m : Option Nat) (n : Nat) : Option Nat := match m with | none => some n | some k => some (min k n)

theorem foldl_least (l : List Nat) (k : Nat) : l.foldl leastStep (some k) = some (l.foldl min k) := by
  induction l generalizing k with
  | nil => rfl
  | cons a l ih => exact ih (min k a)

theorem foldl_min_eq {l : List Nat} {a k : Nat} (hk : k ∈ a :: l) (h : ∀ x ∈ a :: l, k ≤ x) : l.foldl min a = k := by
  induction l generalizing a with
  | nil => exact (List.mem_singleton.mp hk).symm
  | cons b l ih =>
    have ha := h a List.mem_cons_self
    have hb := h b (List.mem_cons_of_mem a List.mem_cons_self)
    refine ih ?_ fun x hx => ?_
    · rcases List.mem_cons.mp hk with rfl | hk
      · exact List.mem_cons.mpr (.inl (Nat.min_eq_left hb).symm)
      · rcases List.mem_cons.mp hk with rfl | hk
        · exact List.mem_cons.mpr (.inl (Nat.min_eq_right ha).symm)
        · exact List.mem_cons_of_mem _ hk
    · rcases List.mem_cons.mp hx with rfl | hx
      · exact Nat.le_min.mpr ⟨ha, hb⟩
      · exact h x (List.mem_cons_of_mem a (List.mem_cons_of_mem b hx))

theorem least_eq {l : List Nat} {k : Nat} (hk : k ∈ l) (h : ∀ x ∈ l, k ≤ x) : l.foldl leastStep none = some k := by
  cases l with
  | nil => cases hk
  | cons a l => rw [List.foldl_cons, show leastStep none a = some a from rfl, foldl_least, foldl_min_eq hk h]

section
variable {s : State} {d : Fin 8} {tc : Fin 4}

theorem exec_drain_eq : exec (.overflowStoreDrain d tc) s = .next (
    match ((s.packets.filterMap fun p => overflowNum p (peerOf s.pkg d.val) tc).foldl leastStep none).bind fun n =>
      s.packets.find? fun p => overflowNum p (peerOf s.pkg d.val) tc == some n with
    | some p => deliverPkt s p
    | none => s) :=
  (exec_overflowStoreDrain d tc s).trans rfl

theorem exec_drain_empty (h : ∀ p ∈ s.packets, ∀ k, p.place = .overflow k → p.dst = peerOf s.pkg d.val → p.tc ≠ tc) :
    exec (.overflowStoreDrain d tc) s = .next s := by
  have hnil : (s.packets.filterMap fun p => overflowNum p (peerOf s.pkg d.val) tc) = [] := by
    refine List.filterMap_eq_nil_iff.mpr fun p hp => Option.eq_none_iff_forall_ne_some.mpr fun k hk => ?_
    obtain ⟨hplace, hdst, htc⟩ := overflowNum_iff.mp hk
    exact h p hp k hplace hdst htc
  rw [exec_drain_eq, hnil]
  rfl

theorem exec_drain_first {pre post : List Packet} {p : Packet} {k : Nat} (hs : s.packets = pre ++ p :: post)
    (hp : p.place = .overflow k) (hd : p.dst = peerOf s.pkg d.val) (ht : p.tc = tc)
    (hmin : ∀ q ∈ s.packets, ∀ j, q.place = .overflow j → q.dst = peerOf s.pkg d.val → q.tc = tc → k ≤ j)
    (hpre : ∀ q ∈ pre, q.place = .overflow k → q.dst = peerOf s.pkg d.val → q.tc ≠ tc) :
    exec (.overflowStoreDrain d tc) s = .next (deliverPkt s p) := by
  have hnum : overflowNum p (peerOf s.pkg d.val) tc = some k := overflowNum_iff.mpr ⟨hp, hd, ht⟩
  have hleast : (s.packets.filterMap fun p => overflowNum p (peerOf s.pkg d.val) tc).foldl leastStep none = some k := by
    refine least_eq (List.mem_filterMap.mpr ⟨p, by rw [hs]; simp, hnum⟩) fun j hj => ?_
    obtain ⟨q, hq, hj⟩ := List.mem_filterMap.mp hj
    obtain ⟨hplace, hdst, htc⟩ := overflowNum_iff.mp hj
    exact hmin q hq j hplace hdst htc
  have hfind : (s.packets.find? fun p => overflowNum p (peerOf s.pkg d.val) tc == some k) = some p := by
    refine List.find?_eq_some_iff_append.mpr ⟨beq_iff_eq.mpr hnum, pre, post, hs, fun q hq => ?_⟩
    rw [Bool.not_eq_true', beq_eq_false_iff_ne]
    intro hk
    obtain ⟨hplace, hdst, htc⟩ := overflowNum_iff.mp hk
    exact hpre q hq hplace hdst htc
  rw [exec_drain_eq, hleast, Option.bind_some, hfind]

end

/-! ## Marks and rotations (07 R191, 09 R287) -/

section
variable {s : State} {d : Fin 8} {peer : BitVec 15}

/-- A marked response from a peer has been delivered to a die. -/
def MarkedAnswer (s : State) (d : Fin 8) (peer : BitVec 15) (p : Packet) : Prop :=
  p.place = .delivered ∧ p.answers ≠ none ∧ p.marked = true ∧ p.src = peer ∧ p.dst = peerOf s.pkg d.val

theorem markedAnswer_iff {p : Packet} : (p.place == .delivered && p.answers.isSome && p.marked && p.src == peer
    && p.dst == peerOf s.pkg d.val) = true ↔ MarkedAnswer s d peer p := by
  simp only [Bool.and_eq_true, beq_iff_eq, Option.isSome_iff_ne_none, MarkedAnswer, and_assoc]

theorem exec_marked_none (h : ∀ p ∈ s.packets, ¬MarkedAnswer s d peer p) : exec (.markedResponse d peer) s = .next s := by
  refine (exec_markedResponse d peer s).trans ?_
  rw [execMarkedResponse, List.find?_eq_none.mpr fun p hp => mt markedAnswer_iff.mp (h p hp)]

theorem exec_marked_first {pre post : List Packet} {p : Packet} (hs : s.packets = pre ++ p :: post) (hp : MarkedAnswer s d peer p)
    (hpre : ∀ q ∈ pre, ¬MarkedAnswer s d peer q) : exec (.markedResponse d peer) s =
      .next (({ s with packets := s.packets.filter fun q => q.num != p.num }).modDie d fun x => { x with bridge := { x.bridge with
        rotate := if peer ∈ x.bridge.rotate then x.bridge.rotate else x.bridge.rotate ++ [peer] } }) := by
  have hfind : (s.packets.find? fun p => p.place == .delivered && p.answers.isSome && p.marked && p.src == peer
      && p.dst == peerOf s.pkg d.val) = some p :=
    List.find?_eq_some_iff_append.mpr ⟨markedAnswer_iff.mpr hp, pre, post, hs, fun q hq =>
      (Bool.not_eq_true' _).mpr (Bool.eq_false_iff.mpr (mt markedAnswer_iff.mp (hpre q hq)))⟩
  refine (exec_markedResponse d peer s).trans ?_
  rw [execMarkedResponse, hfind]
  simp only [List.contains_iff_mem]

theorem quietPoint_iff : quietPoint s d peer = true ↔
    ∀ p ∈ s.packets, p.src = peerOf s.pkg d.val → p.dst = peer → p.answers ≠ none ∧ p.place = .delivered := by
  rw [quietPoint, List.all_eq_true]
  refine forall₂_congr fun p _ => ?_
  cases p.answers <;> simp [imp_iff_not_or, or_assoc]

theorem exec_rotation : exec (.entropyQuietPoint d peer) s = .next (
    if s.dies[d].bridge.rotate.contains peer && quietPoint s d peer then
      s.modDie d fun x => { x with bridge := { x.bridge with
        entropy := (x.bridge.entropy.filter fun y => y.1 != peer) ++ [(peer, (entropyFor s (peerOf s.pkg d.val) peer + 5) % 12)]
        rotate := x.bridge.rotate.erase peer } }
    else s) :=
  exec_entropyQuietPoint d peer s

end

/-- Settles O54: what each step does with the packet, or the path, that it finds. -/
theorem fabricSteps : Obligations.FabricSteps := by
  intro s
  dsimp only
  refine ⟨fun n => exec_packet_none, fun n p h => ⟨exec_retransmit h, ⟨fun hf => ?_, fun hf => ?_⟩, fun laps takes hp => ?_,
      fun t hp => ⟨fun hd => ?_, fun hd => ?_⟩, fun c full hc => ⟨exec_hop_stays h hc full, fun ⟨hg, hz⟩ => exec_hop_lands h hc full hg hz,
        fun ⟨hg, hz⟩ hop hh => ⟨_, _, exec_hop_crosses h hc full hg hz hh, rfl, ?_⟩⟩,
      fun g q since hp => ⟨exec_dlr_free h hp, exec_dlr_blocked h hp⟩⟩,
    fun d tc => ⟨exec_drain_empty, fun pre p post k hs hp hd ht hmin hpre => exec_drain_first hs hp hd ht hmin hpre⟩,
    fun d peer => ⟨exec_marked_none, fun pre p post hs hp hpre => exec_marked_first hs hp hpre, fun hq => ?_, fun hr hq => ?_⟩⟩
  · rw [exec_release h, if_pos (released_iff.mpr hf)]
  · rw [exec_release h, if_neg (mt released_iff.mp hf)]
  · rw [exec_ring h hp, ringSlot, ← taken_iff]
    have hall : (earlierOf s p).all stored = true ↔ ∀ q ∈ earlierOf s p, ∃ k, q.place = .overflow k := by
      simp only [List.all_eq_true, stored_iff]
    refine ⟨fun ht => by rw [if_pos ht], fun ht hl => by rw [if_neg ht, if_pos hl], fun ht hl ⟨q, hq, hne⟩ => ?_,
      fun ht hl hst => ⟨fun hfit => ?_, fun hfull => ?_⟩⟩
    · rw [if_neg ht, if_neg hl, if_neg fun ha => hne (hall.mp ha q hq)]
    · rw [if_neg ht, if_neg hl, if_pos (hall.mpr hst), if_pos (overflowTakes_iff.mpr hfit)]
    · rw [if_neg ht, if_neg hl, if_pos (hall.mpr hst), if_neg (mt overflowTakes_iff.mp (Nat.not_le.mpr hfull))]
  · rw [exec_resend h hp, if_neg (mt due_iff.mp hd)]
  · exact (exec_resend h hp).trans (congrArg Host.Outcome.next (if_pos (due_iff.mpr hd)))
  · simp
  · refine exec_rotation.trans (congrArg Host.Outcome.next (if_neg fun hc => ?_))
    rw [Bool.and_eq_true, List.contains_iff_mem, quietPoint_iff] at hc
    exact hq.elim (fun h => h hc.1) fun h => h hc.2
  · exact exec_rotation.trans (congrArg Host.Outcome.next (if_pos (by rw [List.contains_iff_mem.mpr hr, quietPoint_iff.mpr hq]; rfl)))

end Sys2Proof.FabricSteps

/-! # The canonical form of memory: state operations, objects and the scheduler

`Wf s` says that the memory of a state has its canonical form (logs 1 and 2). Memory is written by few operations only; each keeps
the form, and every other function either leaves memory as it is or is made of functions that keep the form. One lemma for each
function, in the order of the model's files. -/

namespace Sys2Proof.MemoryForm

open Sys2Proof.Machine Sys2Proof.Safety

/-- The memory of a state has its canonical form. -/
def Wf (s : State) : Prop := Memory.wf s.mem = true

/-- An outcome leaves a state whose memory has its canonical form. -/
def WfOut (o : Out) : Prop := ∀ t, o = .next t → Wf t

section
variable {s t : State}

theorem Wf.of_mem (h : Wf s) (ht : t.mem = s.mem) : Wf t := by
  rw [Wf, ht]
  exact h

theorem Wf.next (h : Wf s) : WfOut (.next s) := fun _ ht => Host.Outcome.next.inj ht ▸ h

theorem Wf.foldl {α : Type} {f : State → α → State} (hf : ∀ x a, Wf x → Wf (f x a)) (h : Wf s) (l : List α) : Wf (l.foldl f s) :=
  List.foldlRecOn (motive := Wf) l f h fun x hx a _ => hf x a hx

/-- A fold that carries something else along. -/
theorem Wf.foldlPair {α β : Type} {f : State × β → α → State × β} (hf : ∀ x a, Wf x.1 → Wf (f x a).1) {x : State × β} (h : Wf x.1)
    (l : List α) : Wf (l.foldl f x).1 :=
  List.foldlRecOn (motive := fun x => Wf x.1) l f h fun x hx a _ => hf x a hx

/-- A branch that reads a condition. -/
theorem Wf.ite {c : Prop} [Decidable c] (hs : c → Wf s) (ht : ¬c → Wf t) : Wf (if c then s else t) := by
  split
  next hc => exact hs hc
  next hc => exact ht hc

theorem WfOut.ite {c : Prop} [Decidable c] {a b : Out} (ha : c → WfOut a) (hb : ¬c → WfOut b) : WfOut (if c then a else b) := by
  split
  next hc => exact ha hc
  next hc => exact hb hc

end

section
variable {s : State} (h : Wf s)
include h

/-! ## State operations -/

theorem Wf.store (k : Nat) (bs : List Byte) : Wf (s.store k bs) := store_wf h k bs
theorem Wf.storeLe (k n v : Nat) : Wf (s.storeLe k n v) := h.store k _
theorem Wf.modCore (f : Core → Core) : Wf (s.modCore f) := h
theorem Wf.modRegs (f : TaskRegs → TaskRegs) : Wf (s.modRegs f) := h
theorem Wf.modScc (f : SccRegs → SccRegs) : Wf (s.modScc f) := h
theorem Wf.modVe (f : VeRegs → VeRegs) : Wf (s.modVe f) := h
theorem Wf.modMe (f : MeRegs → MeRegs) : Wf (s.modMe f) := h
theorem Wf.modCp (f : CpRegs → CpRegs) : Wf (s.modCp f) := h
theorem Wf.modFp (f : FpRegs → FpRegs) : Wf (s.modFp f) := h
theorem Wf.modOrd (f : OrdRegs → OrdRegs) : Wf (s.modOrd f) := h
theorem Wf.modTask (f : Task → Task) : Wf (s.modTask f) := h
theorem Wf.modDie (d : Fin 8) (f : Die → Die) : Wf (s.modDie d f) := h
theorem Wf.poisonAt (k : Nat) : Wf (s.poisonAt k) := h
theorem Wf.setCoreAt (n : Fin 512) (c : Core) : Wf (s.setCoreAt n c) := by
  rw [State.setCoreAt]
  exact .ite (fun _ => h) fun _ => h
theorem Wf.focus (n : Fin 512) : Wf (s.focus n) := by
  rw [State.focus]
  exact .ite (fun _ => h) fun _ => h
theorem Wf.atCore {f : State → State} (hf : ∀ x, Wf x → Wf (f x)) (n : Fin 512) : Wf (atCore n f s) := (hf _ (h.focus n)).focus _
theorem Wf.setCtxAt (d : Fin 8) (c : Fin 64) (r : CtxRegs) : Wf (s.setCtxAt d c r) := h
theorem Wf.setS (r : SReg) (v : Word) : Wf (s.setS r v) := by
  rw [State.setS]
  exact .ite (fun _ => h) fun _ => h
theorem Wf.setP (n : Fin 16) (v : Word) : Wf (s.setP n v) := by
  rw [State.setP]
  exact .ite (fun _ => h) fun _ => h
theorem Wf.addFlags (f : Flags) : Wf (s.addFlags f) := h
theorem Wf.spadStore (c : Core) (off : Nat) (bs : List Byte) : Wf (spadStore s c off bs) := spadSet_wf h c off bs
theorem Wf.setTag (a : Actor) (p : Phys) : Wf (setTag s a p) := by
  unfold Machine.setTag
  split
  next => exact h
  next => exact memSetList_wf h _ _
theorem Wf.retire : Wf (retire s) := h
theorem Wf.resolveQueue : Wf (resolveQueue s) := by
  rw [Machine.resolveQueue]
  exact .ite (fun _ => h) fun _ => h

/-! ## Joins, blazes and placement -/

theorem Wf.childEnds (n : Nat) (failed : Option Word) (by_ : Option Import) : Wf (s.childEnds n failed by_) := h
theorem Wf.freeBlaze (d : Fin 8) (e : Nat) : Wf (freeBlaze s d e) := by
  unfold Machine.freeBlaze
  split
  next => exact h
  next => exact .ite (fun _ => h) fun _ => h
theorem Wf.modBlaze (d : Fin 8) (e : Nat) (f : BlazeEnt → BlazeEnt) : Wf (modBlaze s d e f) := by
  unfold Machine.modBlaze
  split
  next => exact h
  next => exact Wf.freeBlaze (s := s.modDie d _) h d e
theorem Wf.dropRef (z : BlazeRef) : Wf (dropRef s z) := by
  unfold Machine.dropRef
  split
  next => exact h.modBlaze _ _ _
  next => exact h
theorem Wf.dropZ (n : Fin 16) : Wf (dropZ s n) := by
  unfold Machine.dropZ
  split
  next => exact h
  next z _ => exact Wf.dropRef (s := s.modOrd _) h z
theorem Wf.dropAllZ : Wf (dropAllZ s) := h.foldl (fun _ n hx => hx.dropZ n) _
theorem Wf.raiseYreq (n : Fin 512) (park : Bool) : Wf (raiseYreq s n park) := h.setCoreAt n _
theorem Wf.yreqScan (d : Fin 8) : Wf (yreqScan s d) :=
  h.foldl (fun _ n hx => .ite (fun _ => hx) fun _ => hx.raiseYreq n false) _
theorem Wf.enqueue (t : Task) (n : Fin 512) : Wf (enqueue s t n) := by
  unfold Machine.enqueue
  refine Wf.yreqScan ?_ _
  exact h
theorem Wf.placeOn (d : Fin 8) (cl : Nat) (t : Task) : Wf (placeOn s d cl t).1 := Wf.enqueue (s := (nextNumber s d t.launch).1) h _ _
theorem Wf.placeHere (d : Fin 8) (cl : Nat) (t : Task) : Wf (placeHere s d cl t).1 := by
  unfold Machine.placeHere
  split
  next => split <;> exact h.placeOn d _ t
  next => exact h.placeOn d cl t

end

end Sys2Proof.MemoryForm

/-! # The canonical form of memory: images, scrubs, ends of tasks and causes -/

namespace Sys2Proof.MemoryForm

open Sys2Proof.Machine Sys2Proof.Safety

section
variable {s : State} (h : Wf s)
include h

/-! ## Images (12 R352, R353) -/

theorem Wf.storeCells (k n : Nat) (cs : List (Nat × Byte)) : Wf (s.storeCells k n cs) :=
  putCells_wf (m := (markDirty s k n).mem) (by rw [markDirty_mem]; exact h) k n cs

theorem Wf.saveAccs (o : CodeObj) (key a : Nat) : Wf (saveAccs s o key a) :=
  h.foldl (fun _ _ hx => .ite (fun _ => hx.storeCells _ _ _) fun _ => hx) _

theorem Wf.saveSpad (c : Core) (o : CodeObj) (key a : Nat) : Wf (saveSpad s c o key a) := by
  rw [Machine.saveSpad]
  exact .ite (fun _ => h) fun _ => ((h.storeCells _ _ _).store _ _).foldl (fun _ _ hx => hx.poisonAt _) _

theorem Wf.writeImage (t : Task) (vec acc forced : Bool) (cause key : Nat) : Wf (writeImage s t vec acc forced cause key) := by
  refine Wf.saveSpad (s := if acc then _ else _) ?_ _ _ _ _
  exact .ite (fun _ => (h.store _ _).saveAccs _ _ _) fun _ => h.store _ _

theorem Wf.saveTask {t : Task} {vec slots forced : Bool} {cause : Nat} {record : Word} {stopped : Option Raised} {x : State} {i : Image}
    (hx : saveTask s t vec slots forced cause record stopped = some (x, i)) : Wf x := by
  unfold Machine.saveTask at hx
  dsimp only at hx
  split at hx
  next => cases hx
  next =>
    obtain ⟨rfl, -⟩ := Prod.mk.inj (Option.some.inj hx)
    exact h.writeImage _ _ _ _ _ _

/-! ## Scrubs and starts (11 R320, 02 R41) -/

theorem Wf.clearCore (n : Fin 512) : Wf (clearCore s n) := by
  unfold Machine.clearCore
  refine Wf.setCoreAt ?_ _ _
  exact memClear_wf (memClear_wf h _ _) _ _

theorem Wf.scrub (ctx : Fin 64) : Wf (scrub s ctx) := by
  rw [Machine.scrub]
  exact .ite (fun _ => h) fun _ => h.clearCore _

theorem Wf.zeroSlots (o : CodeObj) : Wf (zeroSlots s o) :=
  h.foldl (fun _ _ hx => .ite (fun _ => by exact memClear_wf hx _ _) fun _ => hx) _

theorem Wf.startTask (t : Task) : Wf (startTask s t) := (((h.scrub t.ctx).zeroSlots t.obj).modCore _).modScc _

theorem Wf.restored (t : Task) (i : Image) : Wf (restoreTask.restored s t i) := by
  have hput {m : List Host.Cell} (hm : Memory.wf m = true) : Memory.wf (if i.acc then putCells m (accKey (Machine.scrub s t.ctx).core.agent.val 0)
      (2 ^ 19) i.accs else m) = true := by
    split
    · exact putCells_wf hm _ _ _
    · exact hm
  have hs := hput (putCells_wf (h.scrub t.ctx) (spadKey (Machine.scrub s t.ctx).core.agent.val 0) t.obj.spad i.spad)
  unfold restoreTask.restored
  refine Wf.of_mem (s := if i.acc then _ else _) (.ite (fun _ => ?_) fun _ => Wf.zeroSlots ?_ t.obj) rfl
  · exact hs
  · exact hs

theorem Wf.restoreTask (t : Task) (i : Image) : Wf (restoreTask s t i) := by
  rw [Machine.restoreTask]
  exact .ite (fun _ => h.restored t i) fun _ => h.restored t i

/-! ## Ends of tasks (09 R268, 12 R342) -/

theorem Wf.failBlazes (l : List CopyRun) : Wf (failBlazes s l) := by
  refine h.foldl (fun _ c hx => ?_) l
  split
  next =>
    split
    next => exact hx.modBlaze _ _ _
    next => exact hx
  next => exact hx

theorem Wf.unwatch (z : BlazeRef) : Wf (unwatch s z) := by
  unfold Machine.unwatch
  split
  next => exact h.modBlaze _ _ _
  next => exact h

theorem Wf.unwatchAll (k : HoldEnt) : Wf (unwatchAll s k) := h.foldl (fun _ _ hx => .ite (fun _ => hx.unwatch _) fun _ => hx) _

theorem Wf.dropHold (d : Fin 8) (k : HoldEnt) : Wf (dropHold s d k) := h

theorem Wf.dropLocalHolds (id : BitVec 32) (p : Cmd → Bool) : Wf (dropLocalHolds s id p) :=
  h.foldl (fun _ d hx => hx.foldl (fun _ k hy => (hy.dropHold d k).unwatchAll k) _) _

theorem Wf.leaveCore (t : Task) : Wf (leaveCore s t) := by
  unfold Machine.leaveCore
  exact ((h.dropAllZ.failBlazes _).dropLocalHolds _ _).modCore _

theorem Wf.endTask (t : Task) (failed : Option Word) (by_ : Option Import) : Wf (endTask s t failed by_) := by
  unfold Machine.endTask
  exact (h.leaveCore t).childEnds _ _ _

/-! ## Records and actions (12 R337-R345) -/

theorem Wf.writeRecord (ctx : Fin 64) (bs : List Byte) : Wf (writeRecord s ctx bs).1 := by
  have hlog {c : Prop} [Decidable c] {k : Nat} {d : Fin 8} {f : Die → Die} : Wf (if c then s else (s.store k bs).modDie d f) :=
    .ite (fun _ => h) fun _ => (h.store _ _).modDie _ _
  unfold Machine.writeRecord
  dsimp only
  split
  next => exact hlog
  next =>
    split
    next => exact (h.store _ _).storeLe _ _ _
    next => exact hlog

theorem Wf.writeAll (t : Task) (l : List Raised) : Wf (writeAll s t l) := h.foldl (fun _ _ hx => hx.writeRecord _ _) l

theorem Wf.withJoin (t : Task) : Wf (withJoin s t).1 := h

theorem Wf.makeHandler (t : Task) (handler r : Word) : Wf (makeHandler s t handler r) := by
  unfold Machine.makeHandler
  dsimp only
  split
  next => exact h
  next =>
    refine Wf.placeHere ?_ _ _ _
    exact h

theorem Wf.killTask (t : Task) (r : Word) : Wf (killTask s t r) := by
  unfold Machine.killTask
  refine Wf.endTask ?_ _ _ _
  exact h.writeAll t _

theorem Wf.parkTask (t : Task) (q : Fin 16) (cause : Nat) (w : Word) (r : Option Raised) (signal : Bool) :
    Wf (parkTask s t q cause w r signal) := by
  unfold Machine.parkTask
  split
  next => exact h
  next x i hx =>
    have hx' : Wf x := h.saveTask hx
    dsimp only
    split <;> exact hx'

theorem Wf.clearNanTrap (r : Raised) : Wf (clearNanTrap s r) := by
  rw [Machine.clearNanTrap]
  exact .ite (fun _ => h) fun _ => h

theorem Wf.releaseNamed (r : Raised) : Wf (releaseNamed s r) := by
  unfold Machine.releaseNamed
  split
  next =>
    split
    next => exact h.freeBlaze _ _
    next => exact h
  next => exact h

theorem Wf.runAction (t : Task) (r : Raised) (e : ActEntry) (a : Action) (w : Word) : Wf (runAction s t r e a w) := by
  unfold Machine.runAction
  refine Wf.releaseNamed ?_ r
  cases a with
  | kill => exact h.killTask t w
  | park => exact h.parkTask t _ _ _ _ _
  | forward => exact (h.parkTask t _ _ _ _ _).makeHandler t _ _
  | replay => exact .ite (fun _ => h) fun _ => h

theorem Wf.applyCause (t : Task) (r : Raised) : Wf (applyCause s t r) := by
  unfold Machine.applyCause
  refine Wf.runAction (Wf.writeRecord (Wf.clearNanTrap ?_ r) _ _) t r _ _ _
  exact h

theorem Wf.beginCause (t : Task) (r : Raised) : Wf (beginCause s t r) := (h.clearNanTrap r).writeRecord _ _

theorem Wf.finishCause (t : Task) (k : Taking) : Wf (finishCause s t k) := by
  unfold Machine.finishCause
  refine Wf.runAction ?_ t _ _ _ _
  exact h

/-! ## Causes that are taken (12 R333, R346) -/

theorem Wf.takeOr {other : State → State} (ho : ∀ x, Wf x → Wf (other x)) (t : Task) (r : Raised) : Wf (takeOr s t r other) := by
  rw [Machine.takeOr]
  exact .ite (fun _ => ho _ h) fun _ => .ite (fun _ => h.applyCause t r) fun _ =>
    .ite (fun _ => (ho s h).beginCause t r) fun _ => ho s h

theorem Wf.takeCause (r : Raised) : Wf (takeCause s r) := by
  unfold Machine.takeCause
  split
  next => exact h
  next t _ => exact h.takeOr (fun _ hx => hx.modRegs _) t r

theorem Wf.trap (f : Fail) : Wf (trap s f) := h.takeCause _

theorem Wf.illegal : Wf (illegal s) := h.trap _

theorem Wf.addLate (r : Raised) : Wf (addLate s r) := by
  unfold Machine.addLate
  split
  next => exact h
  next t _ => exact .ite (fun _ => h) fun _ => (h.writeRecord _ _).killTask t _

theorem Wf.takePending : Wf (takePending s) := by
  unfold Machine.takePending
  split
  next t k _ _ => exact .ite (fun _ => h.finishCause t k) fun _ => h
  next t r _ _ _ => exact h.takeOr (fun _ hx => hx) t r
  next => exact h

theorem Wf.privileged {f : State → Out} (hf : WfOut (f s)) : WfOut (privileged s f) := by
  rw [Machine.privileged]
  exact .ite (fun _ => hf) fun _ => (h.trap _).next

theorem Wf.featured {f : State → Out} (hf : WfOut (f s)) (b : Nat) : WfOut (featured b s f) := by
  rw [Machine.featured]
  exact .ite (fun _ => hf) fun _ => (h.trap _).next

end

end Sys2Proof.MemoryForm

/-! # The canonical form of memory: accesses of the SCC and operands of the vector engine -/

namespace Sys2Proof.MemoryForm

open Sys2Proof.Machine Sys2Proof.Safety

/-- The state that a port leaves has the canonical form. -/
def WfPort : PortRes → Prop
  | .done t _ => Wf t
  | .fails _ => True
  | .held t => Wf t

/-- The state that a command of the vector engine leaves, if it does not fail, has the canonical form. -/
def WfExc (e : Except Fail State) : Prop := ∀ t, e = .ok t → Wf t

/-- The state that an engine's command leaves has the canonical form. -/
def WfEng : EngRes → Prop
  | .done t => Wf t
  | .wait t => Wf t
  | .stop t _ _ => Wf t

theorem Wf.ok {s : State} (h : Wf s) : WfExc (.ok s) := fun _ ht => Except.ok.inj ht ▸ h

theorem WfExc.error (e : Fail) : WfExc (.error e) := fun _ ht => nomatch ht

theorem WfExc.ite {c : Prop} [Decidable c] {a b : Except Fail State} (ha : c → WfExc a) (hb : ¬c → WfExc b) :
    WfExc (if c then a else b) := by
  split
  next hc => exact ha hc
  next hc => exact hb hc

theorem WfEng.ite {c : Prop} [Decidable c] {a b : EngRes} (ha : c → WfEng a) (hb : ¬c → WfEng b) : WfEng (if c then a else b) := by
  split
  next hc => exact ha hc
  next hc => exact hb hc

theorem WfPort.ite {c : Prop} [Decidable c] {a b : PortRes} (ha : c → WfPort a) (hb : ¬c → WfPort b) : WfPort (if c then a else b) := by
  split
  next hc => exact ha hc
  next hc => exact hb hc

section
variable {s : State} (h : Wf s)
include h

/-! ## Memory ports (07 R183, R188, 11 R323, R324) -/

theorem Wf.noteHeld (k : Nat) (e : Engine) : Wf (noteHeld s k e) := by
  unfold Machine.noteHeld
  split
  next => exact h
  next => exact .ite (fun _ => h) fun _ => h.modDie _ _

theorem Wf.countMigration (d : Fin 8) (p : Phys) : Wf (countMigration s d p) := by
  unfold Machine.countMigration
  split
  next =>
    split
    next => exact .ite (fun _ => h) fun _ => h.modDie _ _
    next => exact h
  next => exact h

theorem Wf.refreshLine (d : Fin 8) (c : Fin 64) (k : Nat) : Wf (refreshLine s d c k) := h

theorem Wf.writeHbm (d : Fin 8) (c : Fin 64) (p : Phys) (bs : List Byte) : Wf (writeHbm s d c p bs) := by
  rw [Machine.writeHbm]
  exact .ite (fun _ => ((h.store _ _).refreshLine _ _ _).refreshLine _ _ _) fun _ => h.store _ _

theorem Wf.acquire (sc : Scope) : Wf (acquire s sc) := by
  cases sc <;> exact h

theorem Wf.bumpEpoch : Wf (bumpEpoch s) := h

theorem Wf.importAll (l : List Import) : Wf (importAll s l) := h

/-- What an access imports or drops where it acquires. -/
theorem Wf.acquireIf (c : Bool) (sc : Scope) : Wf (if c then Machine.acquire s sc else s) := .ite (fun _ => h.acquire sc) fun _ => h

theorem Wf.bumpIf (c : Bool) : Wf (if c then Machine.bumpEpoch s else s) := .ite (fun _ => h.bumpEpoch) fun _ => h

theorem Wf.portHbm (f : Flight) (p : Phys) : WfPort (portHbm s f p) := by
  have himport : Wf (if f.acq then Machine.importAll s (tagImport s p).toList else s) := .ite (fun _ => h.importAll _) fun _ => h
  unfold Machine.portHbm
  dsimp only
  split
  next => exact h.noteHeld _ _
  next =>
    split
    next => exact h
    next =>
      split
      next => trivial
      next =>
        refine .ite (fun _ => ?_) fun _ => .ite (fun _ => trivial) fun _ => ?_
        · exact Wf.bumpIf (((himport.countMigration _ p).writeHbm _ _ p _).setTag _ p) f.rel
        · exact Wf.acquireIf (.ite (fun _ => (himport.countMigration _ p).refreshLine _ _ _) fun _ => himport.countMigration _ p) _ _

theorem Wf.portAccess (f : Flight) : WfPort (portAccess s f) := by
  unfold Machine.portAccess
  split
  next => trivial
  next => exact h.portHbm f _
  next =>
    dsimp only
    split
    next => exact (h.spadStore _ _ _).bumpIf _
    next =>
      split
      next => trivial
      next => exact h.acquireIf _ _
  next =>
    dsimp only
    split
    next =>
      refine Wf.bumpIf ?_ _
      exact memSetList_wf h _ _
    next => exact h.acquireIf _ _

theorem Wf.portFault (f : Flight) (e : Fail) : Wf (portFault s f e) := (h.modOrd _).addLate _

theorem Wf.performFlight (f : Flight) : Wf (performFlight s f) := by
  unfold Machine.performFlight
  have hport := h.portAccess f
  split
  next t v ht =>
    rw [ht] at hport
    exact .ite (fun _ => hport) fun _ => Wf.setS hport _ _
  next e _ => exact h.portFault f e
  next t ht =>
    rw [ht] at hport
    exact Wf.modOrd hport _

/-! ## Operands of the vector engine (02 R43, R46, 05 R132) -/

theorem Wf.enginePut (cells : List (Nat × Byte)) : Wf (enginePut s cells).1 :=
  List.foldlRecOn (motive := fun m => Memory.wf m = true) cells _ h fun _ hm _ _ => memSet_wf hm _ _

theorem Wf.engineWrite (off : Nat) (bs : List Byte) : Wf (engineWrite s off bs).1 := h.spadStore s.core off bs

theorem Wf.readSrc {c : VCode} {x : VWord} {t : State} {f : Flags} (ht : readSrc s c = .ok (x, t, f)) : Wf t := by
  unfold Machine.readSrc at ht
  split at ht
  next => cases ht; exact h
  next =>
    split at ht
    next => cases ht
    next =>
      split at ht
      next => cases ht
      next =>
        split at ht
        next => cases ht
        next => cases ht; exact h

omit h in
theorem readSrcs_wf {cs : List VCode} (s : State) (h : Wf s) {xs : List VWord} {t : State} {f : Flags}
    (ht : readSrcs s cs = .ok (xs, t, f)) : Wf t := by
  induction cs generalizing s xs t f with
  | nil => cases ht; exact h
  | cons c cs ih =>
    unfold readSrcs at ht
    split at ht
    next => cases ht
    next x u g hu =>
      split at ht
      next => cases ht
      next ys v g' hv =>
        cases ht
        exact ih u (h.readSrc hu) hv

theorem Wf.writeDst {c : VCode} {x m : VWord} {t : State} {f : Flags} (ht : writeDst s c x m = .ok (t, f)) : Wf t := by
  unfold Machine.writeDst at ht
  split at ht
  next => cases ht; exact h
  next =>
    split at ht
    next => cases ht
    next p _ =>
      split at ht
      next =>
        have hput := Wf.enginePut (s := s.setPort (portNum c) p.step) h
          (pushCells (s.setPort (portNum c) p.step) (p.addrOf p.pos) x m)
        rw [Except.ok.inj ht] at hput
        exact hput
      next => cases ht

theorem Wf.finishElems (d : VCode) (t : Ty) (xs : List (Nat × Conv)) (f : Flags) (rng : Bool) : WfExc (finishElems s d t xs f rng) := by
  unfold Machine.finishElems
  split
  next => exact .error _
  next =>
    split
    next => exact .error _
    next =>
      split
      next => exact .error _
      next u g hu =>
        have hu' : Wf u := h.writeDst hu
        exact Wf.ok (.ite (fun _ => (hu'.addFlags _).modFp _) fun _ => hu'.addFlags _)

theorem Wf.elementwise (d : VCode) (cs : List VCode) (p : Fin 16) (t : Ty) (rng : Bool) (f : Nat → List Nat → Conv) :
    WfExc (elementwise s d cs p t rng f) := by
  unfold Machine.elementwise
  split
  next => exact .error _
  next xs u g hu => exact Wf.finishElems (readSrcs_wf s h hu) _ _ _ _ _

theorem Wf.veRes {r : Except Fail State} (hr : WfExc r) : WfEng (veRes s r) := by
  unfold Machine.veRes
  split
  next => exact hr _ rfl
  next => exact h

end

end Sys2Proof.MemoryForm

/-! # The canonical form of memory: the vector engine -/

namespace Sys2Proof.MemoryForm

open Sys2Proof.Machine Sys2Proof.Safety

section
variable {s : State} (h : Wf s)
include h

/-! ## Element commands (05 R112-R136) -/

theorem Wf.two (o : Va) (f : Ty → Nat → Nat → Conv) : WfExc (two o s f) := h.elementwise _ _ _ _ _ _

theorem Wf.one (o : Va) (f : Ty → Nat → Conv) : WfExc (one o s f) := h.elementwise _ _ _ _ _ _

theorem Wf.veFused (o : Vx) (neg : Bool) : WfExc (veFused o neg s) := by
  unfold Machine.veFused
  exact h.elementwise _ _ _ _ _ _

theorem Wf.veCmp (o : Vx) : WfExc (veCmp o s) := by
  unfold Machine.veCmp
  split
  next => exact .error _
  next xs u f hu => exact Wf.ok (((readSrcs_wf s h hu).setP _ _).addFlags _)

theorem Wf.veSel (o : Va) : WfExc (veSel o s) := by
  unfold Machine.veSel
  split
  next => exact .error _
  next xs u f hu =>
    split
    next => exact .error _
    next v g hv => exact Wf.ok (((readSrcs_wf s h hu).writeDst hv).addFlags _)

theorem Wf.veImad (o : Vx) : WfExc (veImad o s) := by
  unfold Machine.veImad
  split
  next => exact .error _
  next xs u f hu => exact (readSrcs_wf s h hu).finishElems _ _ _ _ _

theorem Wf.veCvt (o : Vx) : WfExc (veCvt o s) := by
  unfold Machine.veCvt
  split
  next => exact .error _
  next xs u f hu => exact (readSrcs_wf s h hu).finishElems _ _ _ _ _

theorem Wf.veQuant (o : Vx) : WfExc (veQuant o s) := by
  unfold Machine.veQuant
  split
  next => exact .error _
  next xs u f hu =>
    dsimp only
    refine .ite (fun _ => .error _) fun _ => ?_
    split
    next => exact .error _
    next =>
      split
      next => exact .error _
      next v hv =>
        have hv' : Wf v := (readSrcs_wf s h hu).finishElems _ _ _ _ _ v hv
        exact Wf.ok (.ite (fun _ => (hv'.modVe _).modVe _) fun _ => hv'.modVe _)

theorem Wf.veDeq (o : Vx) : WfExc (veDeq o s) := by
  unfold Machine.veDeq
  split
  next => exact .error _
  next xs u f hu =>
    dsimp only
    refine .ite (fun _ => .ite (fun _ => .error _) fun _ => ?_) fun _ => (readSrcs_wf s h hu).finishElems _ _ _ _ _
    split
    next => exact .error _
    next =>
      refine .ite (fun _ => .error _) fun _ => ?_
      split
      next => exact .error _
      next v hv =>
        have hv' : Wf v := (readSrcs_wf s h hu).finishElems _ _ _ _ _ v hv
        exact Wf.ok (hv'.modVe _)

theorem Wf.veAmax (o : Va) : WfExc (veAmax o s) := by
  unfold Machine.veAmax
  refine .ite (fun _ => .error _) fun _ => ?_
  split
  next => exact .error _
  next xs u f hu => exact Wf.ok (((readSrcs_wf s h hu).modVe _).addFlags _)

theorem Wf.permute (o : Va) (f : (Nat → Nat) → (Nat → Nat) → Nat → Nat → Option Nat) : WfExc (permute o s f) := by
  unfold Machine.permute
  split
  next => exact .error _
  next xs u g hu => exact (readSrcs_wf s h hu).finishElems _ _ _ _ _

theorem Wf.vePack (o : Va) : WfExc (vePack o s) := by
  unfold Machine.vePack
  exact h.permute o _

theorem Wf.reduce (o : Va) (f : List (Nat × Nat) → Except Fail (Word × Flags)) : WfExc (reduce o s f) := by
  unfold Machine.reduce
  split
  next => exact .error _
  next xs u g hu =>
    dsimp only
    split
    next => exact .error _
    next => exact Wf.ok (((readSrcs_wf s h hu).addFlags _).modScc _)

theorem Wf.redPick (o : Va) (f : Ty → Nat → Nat → Conv) (a : Nat) (b : Int) : WfExc (redPick o s f a b) := by
  unfold Machine.redPick
  exact h.reduce o _

theorem Wf.veGcfg (o : Vx) : WfExc (veGcfg o s) := by
  unfold Machine.veGcfg
  split
  next => exact .error _
  next xs u f hu =>
    split
    next => exact .error _
    next => exact Wf.ok (((readSrcs_wf s h hu).modVe _).addFlags _)

theorem Wf.veSeed (o : Va) : WfExc (veSeed o s) := by
  unfold Machine.veSeed
  split
  next => exact .error _
  next xs u f hu => exact Wf.ok (((readSrcs_wf s h hu).modFp _).addFlags _)

/-! ## Vector loads and stores (08 R224) -/

theorem Wf.veLd (o : Va) (a : Word) : WfExc (veLd o a s) := by
  unfold Machine.veLd
  refine .ite (fun _ => ?_) fun _ => .error _
  split
  next => exact .error _
  next =>
    split
    next => exact .error _
    next t g ht => exact Wf.ok ((h.writeDst ht).addFlags _)

theorem Wf.veSt (o : Va) (a : Word) : WfExc (veSt o a s) := by
  unfold Machine.veSt
  refine .ite (fun _ => ?_) fun _ => .error _
  split
  next => exact .error _
  next xs u f hu => exact Wf.ok (((readSrcs_wf s h hu).enginePut _).addFlags _)

theorem Wf.veGath (o : Va) (a : Word) : WfExc (veGath o a s) := by
  unfold Machine.veGath
  refine .ite (fun _ => ?_) fun _ => .error _
  split
  next => exact .error _
  next =>
    split
    next => exact .error _
    next t g ht => exact Wf.ok ((h.writeDst ht).addFlags _)

theorem Wf.veScat (o : Va) (a : Word) : WfExc (veScat o a s) := by
  unfold Machine.veScat
  exact .ite (fun _ => Wf.ok ((h.enginePut _).addFlags _)) fun _ => .error _

theorem Wf.vecHeld (a : Word) : Wf (vecHeld s a) := by
  unfold Machine.vecHeld
  split
  next => exact h.noteHeld _ _
  next => exact h

theorem Wf.veLdg (o : Vg) (a : Word) : WfEng (veLdg o a s) := by
  unfold Machine.veLdg
  split
  next => exact h
  next => exact h.vecHeld a
  next p _ =>
    dsimp only
    split
    next => exact h
    next =>
      split
      next => exact h
      next t g ht =>
        have ht' : Wf t := (h.countMigration _ _).writeDst ht
        exact ht'

theorem Wf.writeLanes (d : Fin 8) (p : Phys) (x : VWord) (pr : Word) : Wf (writeLanes s d p x pr) := by
  refine h.foldl (fun y g hy => ?_) _
  exact .ite (fun _ => hy.writeHbm _ _ _ _) fun _ => hy.foldl (fun z j hz => hz.writeHbm _ _ _ _) _

theorem Wf.veStg (o : Vg) (a : Word) : WfEng (veStg o a s) := by
  unfold Machine.veStg
  split
  next => exact h
  next => exact h.vecHeld a
  next p _ =>
    split
    next => exact h
    next xs u f hu =>
      have ht := ((readSrcs_wf s h hu).countMigration (dieOf s.core.agent) p).addFlags f
      exact .ite (fun _ => ht) fun _ => Wf.setTag (ht.writeLanes _ _ _ _) _ _

/-! ## Sampling (10 R307, R308) -/

theorem Wf.veTopk (o : Vx) (a base : Word) : WfExc (veTopk o a base s) := by
  unfold Machine.veTopk
  split
  next => exact .error _
  next =>
    split
    next => exact .error _
    next =>
      split
      next => exact .error _
      next xs u f hu =>
        exact .ite (fun _ => Wf.ok ((((readSrcs_wf s h hu).engineWrite _ _).addFlags _).modScc _)) fun _ => .error _

theorem Wf.veDraw (o : Vx) (a : Word) : WfExc (veDraw o a s) := by
  unfold Machine.veDraw
  split
  next => exact .error _
  next =>
    refine .ite (fun _ => ?_) fun _ => .error _
    split
    next => exact .error _
    next =>
      dsimp only
      split
      next => exact Wf.ok ((h.modFp _).modScc _)
      next => exact Wf.ok (.ite (fun _ => (h.modFp _).modScc _) fun _ => h)

/-! ## Accumulators (06 R166-R169) -/

theorem Wf.accPut (slot i j v : Nat) : Wf (accPut s slot i j v) := memSetList_wf h _ _

theorem Wf.landNow (n : Fin 16) (l : Landing) : WfExc (landNow s n l) := by
  unfold Machine.landNow
  dsimp only
  split
  next => exact .error _
  next => exact Wf.ok ((h.modVe _).addFlags _)

theorem Wf.veAccrd (o : Vx) (c : Cmd) (free : Bool) : WfExc (veAccrd o c free s) := by
  have ht : Wf (if Rm.resolve s.fp.fpctl o.rm = .sr then s.modFp fun r => { r with rngcnt := r.rngcnt + 1 } else s) :=
    .ite (fun _ => h.modFp _) fun _ => h
  rw [Machine.veAccrd]
  exact .ite (fun _ => .error _) fun _ => .ite (fun _ => ht.landNow _ _) fun _ => Wf.ok (ht.modVe _)

theorem Wf.veCommit (o : Va) : WfEng (veCommit o s) := by
  unfold Machine.veCommit
  dsimp only
  split
  next => exact h
  next =>
    split
    next => exact h
    next => exact h

theorem Wf.veAccwr (o : Vx) : WfExc (veAccwr o s) := by
  unfold Machine.veAccwr
  split
  next => exact .error _
  next xs u f hu =>
    dsimp only
    split
    next => exact .error _
    next =>
      have ht := ((readSrcs_wf s h hu).foldl (fun t (r : Nat × Conv) ht => Wf.accPut ht (accSlot o) (accRow o)
        (accCol o o.ty.count + r.1) r.2.1) ((enabledElems o.ty (s.preg o.p)).map fun i =>
          (i, convertBits o.ty (slotTy s (accSlot o)) (Rm.resolve s.fp.fpctl o.rm) o.fzi false o.sat (elemDraw s o.ty i)
            (elem o.ty (xs.getD 0 0) i)))).addFlags
      exact Wf.ok (.ite (fun _ => (ht _).modFp _) fun _ => ht _)

/-! ## Commands, loops and the queue (05 R111, R133, R134) -/

theorem Wf.veRun (c : Cmd) : WfEng (veRun c s) := by
  unfold Machine.veRun
  dsimp only
  generalize c.instr = i
  cases i with
  | vadd o | vsub o | vmul o | vmin o | vmax o | vand o | vor o | vxor o | vshl o | vshr o | vsar o => exact h.veRes (h.two o _)
  | vabs o | vneg o | vmov o | vexp2 o | vlog2 o | vrcp o | vrsq o | vsqrt o | vpopc o => exact h.veRes (h.one o _)
  | vfma o | vfms o => exact h.veRes (h.veFused o _)
  | vcmp o => exact h.veRes (h.veCmp o)
  | vsel o => exact h.veRes (h.veSel o)
  | vimad o => exact h.veRes (h.veImad o)
  | vcvt o => exact h.veRes (h.veCvt o)
  | vquant o => exact h.veRes (h.veQuant o)
  | vdeq o => exact h.veRes (h.veDeq o)
  | vamax o => exact h.veRes (h.veAmax o)
  | vpack o => exact h.veRes (h.vePack o)
  | vunpk o | vshuf o | vrot o | vbcast o | vins o => exact h.veRes (h.permute o _)
  | vredMin o | vredMax o => exact h.veRes (h.redPick o _ _ _)
  | vredAdd o | vredAmax o | vredAnd o | vredOr o | vredXor o => exact h.veRes (h.reduce o _)
  | accwr o => exact h.veRes (h.veAccwr o)
  | gcfg o => exact h.veRes (h.veGcfg o)
  | pset o | pand o | por o | pxor o | pnot o | pandn o => exact h.veRes (Wf.ok (h.setP _ _))
  | pcnt o => exact h.veRes (Wf.ok (h.modScc _))
  | vrand o => exact h.veRes (h.finishElems _ _ _ _ _)
  | vseed o => exact h.veRes (h.veSeed o)
  | accrd o => exact h.veRes (h.veAccrd o _ _)
  | vld o => exact h.veRes (h.veLd o _)
  | vst o => exact h.veRes (h.veSt o _)
  | vgath o => exact h.veRes (h.veGath o _)
  | vscat o => exact h.veRes (h.veScat o _)
  | vldg o => exact h.veLdg o _
  | vstg o => exact h.veStg o _
  | commit o => exact h.veCommit o
  | vtopk o => exact h.veRes (h.veTopk o _ _)
  | vdraw o => exact h.veRes (h.veDraw o _)
  | _ => exact h

theorem Wf.veTry (c : Cmd) : WfEng (veTry c s) := by
  rw [Machine.veTry]
  exact .ite (fun _ => h) fun _ => h.veRun c

theorem Wf.veStop (r : Raised) : Wf (veStop s r) := h

theorem Wf.loopStart (l : LoopRun) : Wf (loopStart l s) := by
  unfold Machine.loopStart
  exact .ite (fun _ => h) fun _ => h

theorem Wf.loopEnd (l : LoopRun) : Wf (loopEnd l s) := by
  have hp := (h.modVe fun r => { r with vrb := r.vrb - 1, prb := r.prb - 1 }).setP 8
  unfold Machine.loopEnd
  exact .ite (fun _ => (hp _).modVe _) fun _ => .ite (fun _ => (hp _).modVe _) fun _ => (hp _).modVe _

theorem Wf.loopClaim (l : LoopRun) : Wf (loopClaim l s) := by
  unfold Machine.loopClaim
  exact .ite (fun _ => h) fun _ => h

theorem Wf.loopStep (l : LoopRun) : Wf (loopStep l s) := by
  unfold Machine.loopStep
  refine .ite (fun _ => h.loopStart l) fun _ => ?_
  dsimp only
  split
  next => exact (h.loopClaim l).loopEnd l
  next c _ =>
    have hc := (h.loopClaim l).veTry c
    split
    next t ht => rw [ht] at hc; exact Wf.modVe hc _
    next t ht => rw [ht] at hc; exact hc
    next t _ _ ht => rw [ht] at hc; exact Wf.veStop hc _

theorem Wf.vePerform (c : Cmd) : Wf (vePerform c s) := by
  unfold Machine.vePerform
  have hc := h.veTry c
  split
  next t ht => rw [ht] at hc; exact hc
  next t ht => rw [ht] at hc; exact Wf.modVe hc _
  next t _ _ ht => rw [ht] at hc; exact Wf.veStop (Wf.modVe hc _) _

theorem Wf.veStep : Wf (veStep s) := by
  have hloop : Wf (match s.ve.loop with | some l => Machine.loopStep l s | none => s) := by
    split
    next l _ => exact h.loopStep l
    next => exact h
  unfold Machine.veStep
  refine .ite (fun _ => h) fun _ => ?_
  split
  next c cs _ => exact .ite (fun _ => (h.modVe _).vePerform c) fun _ => hloop
  next => exact hloop

/-! ## Dispatch (02 R38) -/

theorem Wf.holds : Wf (holds s) := h

theorem Wf.queueVe (c : Cmd) : Wf (queueVe c s) := by
  unfold Machine.queueVe
  exact .ite (fun _ => h.holds) fun _ => .ite (fun _ => h.retire.vePerform c) fun _ => h.retire.modVe _

theorem Wf.dispatchVe (i : Instr) (regs : List SReg) : WfOut (dispatchVe i regs s) := by
  unfold Machine.dispatchVe
  refine Wf.next (.ite (fun _ => h.trap _) fun _ => .ite (fun _ => h.illegal) fun _ => .ite (fun _ => h.holds) fun _ => ?_)
  dsimp only
  split
  next => exact .ite (fun _ => h.retire.modVe _) fun _ => h.illegal
  next => exact h.queueVe _

theorem Wf.execVloop (o : Vl) : WfOut (execVloop o s) := by
  unfold Machine.execVloop
  exact Wf.next (.ite (fun _ => h.illegal) fun _ => .ite (fun _ => h.holds) fun _ => h.retire.modVe _)

theorem Wf.execVlend (o : Va) : WfOut (execVlend o s) := by
  unfold Machine.execVlend
  refine Wf.next ?_
  split
  next => exact h.illegal
  next => exact .ite (fun _ => h.holds) fun _ => h.retire.modVe _

theorem Wf.landStep (n : Fin 16) : Wf (landStep n s) := by
  unfold Machine.landStep
  split
  next => exact h
  next l _ =>
    dsimp only
    refine .ite (fun _ => h) fun _ => ?_
    split
    next t ht => exact h.landNow n l t ht
    next => exact .ite (fun _ => h) fun _ => Wf.veStop (((h.modVe _).modFp _).modVe _) _

theorem Wf.landAll : Wf (landAll s) := h.foldl (fun _ n hx => hx.landStep n) _

end

end Sys2Proof.MemoryForm

/-! # The canonical form of memory: the array -/

namespace Sys2Proof.MemoryForm

open Sys2Proof.Machine Sys2Proof.Safety Sys2Proof.EngineSteps

section
variable {s : State} (h : Wf s)
include h

theorem Wf.bumpCounter (i : Fin 7) (n : Nat) : Wf (bumpCounter s i n) := h

theorem Wf.meStop (r : Raised) : Wf (meStop s r) := h

theorem Wf.setRun (r : Option MeRun) : Wf (s.setRun r) := h

theorem Wf.mergeRun (r : MeRun) : Wf (mergeRun s r).1 := h

end

section
variable {y : State × MeRun} (h : Wf y.1)
include h

/-! ## Cells and rows (06 R149, R154) -/

omit h in
theorem accCell_wf {s : State} (h : Wf s) (r : MeRun) (x : MeCtx) (i j k : Nat) (p : Val × Bool) : Wf (accCell s r x i j k p).1 :=
  h.accPut _ _ _ _

theorem retireEntry_wf (x : MeCtx) (e : Match) : Wf (retireEntry x y e).1 := by
  unfold retireEntry
  refine Wf.bumpCounter ?_ _ _
  exact Wf.foldlPair (fun _ _ hz => accCell_wf hz _ _ _ _ _ _) (by exact h) _

theorem burlEntry_wf (x : MeCtx) (e : Match) : Wf (burlEntry x y e).1 := by
  refine Wf.foldlPair (fun _ _ hz => Wf.foldlPair (fun w _ hw => ?_) hz _) h _
  dsimp only
  split
  next => exact accCell_wf hw _ _ _ _ _ _
  next => exact hw

theorem burlChunk_wf (x : MeCtx) (es : List Match) : Wf (burlChunk x y es).1 :=
  Wf.foldlPair (fun _ e hz => burlEntry_wf hz x e) h es

theorem addBurls_wf (x : MeCtx) (all : List Match) (row c : Nat) : Wf (addBurls x y all row c).1 := by
  unfold addBurls
  split
  next => exact h
  next => exact burlChunk_wf h x _

end

section
variable {s : State} (h : Wf s)
include h

theorem retireStep_wf (x : MeCtx) (r : MeRun) (all : List Match) : Wf (retireStep s x r all).1 := by
  refine Wf.foldlPair (fun z e hz => ?_) (by exact h) _
  dsimp only
  split
  next => exact addBurls_wf (retireEntry_wf hz x e) _ _ _ _
  next => exact retireEntry_wf hz x e

theorem countWait_wf (r : MeRun) (lag : Bool) : Wf (countWait s r lag).1 := by
  unfold countWait
  split <;> split <;> exact h

omit h in
theorem pushLoop_wf (x : MeCtx) (lim lag : Nat) (trap sparse : Bool) (kmin : Nat) (es : List Match) (ks : List Nat) (np : Nat)
    (s : State) (h : Wf s) (r : MeRun) : Wf (pushLoop x lim lag trap sparse kmin es ks np s r).1 := by
  induction es generalizing ks np s r with
  | nil => exact h
  | cons e es ih =>
    unfold pushLoop
    dsimp only
    split
    next => exact h
    next =>
      split
      next => exact countWait_wf h r true
      next =>
        split
        next =>
          split
          next => exact h
          next => exact countWait_wf h r false
        next => exact ih _ _ _ (h.bumpCounter 0 1) _

theorem arrayStep_wf (x : MeCtx) (r : MeRun) (all : List Match) : Wf (arrayStep s x r all).1 :=
  Wf.bumpCounter (pushLoop_wf _ _ _ _ _ _ _ _ _ _ (retireStep_wf h x r all) _) _ _

theorem beginWalk_wf (x : MeCtx) (r : MeRun) : Wf (beginWalk s x r).1 := by
  unfold beginWalk
  dsimp only
  split
  next =>
    refine Wf.foldlPair (fun y i hy => ?_) (by exact h) _
    split
    next =>
      split
      next => exact addBurls_wf hy x _ _ _
      next => exact hy
    next => exact hy
  next => exact h

/-! ## Merges and the running command (06 R151, R158-R160) -/

omit h in
theorem mergeElem_wf {y : State × MeRun} (h : Wf y.1) (tile : MergeTile) (slot i j : Nat) : Wf (mergeElem tile slot i j y).1 := by
  unfold mergeElem
  dsimp only
  split <;> exact h.accPut _ _ _ _

theorem Wf.mergeTile (r : MeRun) (slot : Nat) (tile : MergeTile) : Wf (mergeTile s r slot tile) := by
  unfold Machine.mergeTile
  refine Wf.setRun (Wf.bumpCounter ?_ _ _) _
  exact Wf.foldlPair (fun _ i hy => Wf.foldlPair (fun _ j hz => mergeElem_wf hz tile slot i j) hy _) (by exact h) _

theorem Wf.finishMatrix (r : MeRun) : Wf (finishMatrix s r) := by
  unfold Machine.finishMatrix
  dsimp only
  split <;> exact h

theorem Wf.raiseStop (r : MeRun) (f : MetaStop) : Wf (raiseStop s r f) := h

theorem Wf.runStep (r : MeRun) : Wf (runStep s r) := by
  have hbegun (x : MeCtx) : Wf (if r.begun then (s, r) else beginWalk s x r).1 := by
    split
    next => exact h
    next => exact beginWalk_wf h x r
  have hstep := arrayStep_wf (hbegun (meCtx s r.cmd))
  unfold Machine.runStep
  dsimp only
  split
  next =>
    refine .ite (fun _ => h.finishMatrix r) fun _ => ?_
    split
    next => exact (h.modMe _).mergeTile _ _ _
    next => exact h
  next =>
    refine .ite (fun _ => ?_) fun _ => (hstep _ _ _).setRun _
    split
    next => exact (hstep _ _ _).raiseStop _ _
    next => exact .ite (fun _ => (hstep _ _ _).finishMatrix _) fun _ => (hstep _ _ _).setRun _

omit h in
theorem retireAll_wf (x : MeCtx) (all : List Match) (n : Nat) {y : State × MeRun} (h : Wf y.1) : Wf (retireAll x all n y).1 := by
  induction n generalizing y with
  | zero => exact h
  | succ n ih =>
    unfold retireAll
    split
    next => exact h
    next => exact ih (y := (bumpCounter _ 5 1, _)) ((retireStep_wf h x y.2 all).bumpCounter 5 1)

theorem Wf.stopArray : Wf (stopArray s) := by
  unfold Machine.stopArray
  split
  next => exact h
  next r _ =>
    split
    next => exact Wf.setRun (Wf.mergeRun (retireAll_wf _ _ 16 (by exact h)) _) _
    next => exact h

/-! ## Commands of the array (06 R139, R158, R164, R165) -/

theorem Wf.clearSlot (slot : Nat) : Wf (clearSlot s slot) := memClear_wf h _ _

theorem Wf.meZero (o : Mm) : Wf (meZero o s) := (h.clearSlot _).modMe _

theorem Wf.startMatrix (c : Cmd) : WfEng (startMatrix c s) := by
  unfold Machine.startMatrix
  dsimp only
  split <;> exact h

theorem engineFill_wf (off : Nat) (bs : List Byte) : Wf (engineFill s off bs).1 :=
  List.foldlRecOn (motive := fun (y : (State × Flags) × List Byte) => Wf y.1.1) _ _ h fun _ hy _ _ => hy.engineWrite _ _

theorem Wf.drainWrite (o : Mm) (off toff : Nat) (a : DrainOut) (b : Option DrainOut) (f : Flags) : Wf (drainWrite s o off toff a b f) := by
  unfold Machine.drainWrite
  refine Wf.addFlags ?_ _
  cases b with
  | none => exact .ite (fun _ => (engineFill_wf h _ _).clearSlot _) fun _ => engineFill_wf h _ _
  | some t =>
    exact .ite (fun _ => (engineFill_wf (engineFill_wf h _ _) _ _).clearSlot _) fun _ => engineFill_wf (engineFill_wf h _ _) _ _

theorem Wf.meDrain (o : Mm) (c : Cmd) : WfEng (meDrain o c s) := by
  unfold Machine.meDrain
  dsimp only
  refine .ite (fun _ => h) fun _ => ?_
  split
  next => exact h
  next => exact h
  next =>
    refine .ite (fun _ => h) fun _ => ?_
    split
    next => exact (h.modMe _).drainWrite _ _ _ _ _ _
    next => exact (h.modMe _).drainWrite _ _ _ _ _ _

theorem Wf.takeTile {target : Fin 512} {tile : MergeTile} {t : State} (ht : takeTile target tile s = some t) : Wf t := by
  have hbuffer {c : Prop} [Decidable c] {k : Core} (hb : (if c then some (s.setCoreAt target k) else none) = some t) : Wf t := by
    split at hb
    next => exact Option.some.inj hb ▸ h.setCoreAt _ _
    next => cases hb
  unfold Machine.takeTile at ht
  dsimp only at ht
  split at ht
  next => cases ht
  next =>
    split at ht
    next =>
      split at ht
      next => exact Option.some.inj ht ▸ h.atCore (fun _ hx => hx.mergeTile _ _ _) _
      next => exact hbuffer ht
    next => exact hbuffer ht

theorem Wf.meSend (o : Mm) (c : Cmd) : WfEng (meSend o c s) := by
  unfold Machine.meSend
  dsimp only
  refine .ite (fun _ => h) fun _ => ?_
  split
  next => exact h
  next =>
    split
    next t ht => exact (h.takeTile ht).modCore _
    next => exact h.modCore _

theorem Wf.meStat (o : Mm) : Wf (meStat o s) := by
  unfold Machine.meStat
  refine .ite (fun _ => Wf.modMe (.ite (fun _ => ?_) fun _ => ?_) _) fun _ => .ite (fun _ => ?_) fun _ => ?_
  all_goals exact h

theorem Wf.meRun (c : Cmd) : WfEng (meRun c s) := by
  unfold Machine.meRun
  dsimp only
  split
  next => exact h
  next => exact h
  next => exact h.startMatrix c
  next => exact h.startMatrix c
  next => exact h.startMatrix c
  next o _ => exact h.meZero o
  next o _ => exact h.meDrain o c
  next o _ => exact h.meSend o c
  next o _ => exact h.meStat o
  next => exact h

theorem Wf.meTry (c : Cmd) : WfEng (meTry c s) := by
  rw [Machine.meTry]
  exact .ite (fun _ => h) fun _ => h.meRun c

theorem Wf.mePerform (c : Cmd) : Wf (mePerform c s) := by
  unfold Machine.mePerform
  have hc := h.meTry c
  dsimp only
  split
  next t ht => rw [ht] at hc; exact hc
  next t ht => rw [ht] at hc; exact Wf.modMe hc _
  next t _ _ ht => rw [ht] at hc; exact Wf.meStop (.ite (fun _ => hc) fun _ => Wf.modMe hc _) _

theorem Wf.meStep : Wf (meStep s) := by
  unfold Machine.meStep
  refine .ite (fun _ => h) fun _ => ?_
  split
  next r _ => exact h.runStep r
  next c cs _ _ => exact (h.modMe _).mePerform c
  next => exact h

omit h in
theorem meSettle_wf (n : Nat) {s : State} (h : Wf s) : Wf (meSettle n s) := by
  induction n generalizing s with
  | zero => exact h
  | succ n ih =>
    unfold meSettle
    split
    next r _ => exact .ite (fun _ => h) fun _ => ih (h.runStep r)
    next => exact h

/-! ## Dispatch and the steps of the array -/

theorem Wf.queueMe (c : Cmd) : Wf (queueMe c s) := by
  unfold Machine.queueMe
  exact .ite (fun _ => h.holds) fun _ => .ite (fun _ => meSettle_wf _ (h.retire.mePerform c)) fun _ => h.retire.modMe _

theorem Wf.dispatchMe (i : Instr) (regs : List SReg) (slots : List Nat) : WfOut (dispatchMe i regs slots s) := by
  unfold Machine.dispatchMe
  exact Wf.next (.ite (fun _ => h.illegal) fun _ => .ite (fun _ => h.holds) fun _ => h.queueMe _)

theorem Wf.execMcfg (o : Mm) : WfOut (execMcfg o s) := by
  unfold Machine.execMcfg
  exact Wf.next (.ite (fun _ => h.holds) fun _ => .ite (fun _ => h.trap _) fun _ => .ite (fun _ => h.illegal) fun _ => h.queueMe _)

theorem Wf.arrayWorks : Wf (arrayWorks s) := by
  unfold EngineSteps.arrayWorks
  refine .ite (fun _ => ?_) fun _ => h
  split
  next r _ => exact .ite (fun _ => h.runStep r) fun _ => h
  next => exact h

theorem Wf.tileArrives : Wf (tileArrives s) := by
  unfold EngineSteps.tileArrives
  exact .ite (fun _ => h.meStep) fun _ => h

theorem Wf.tileRetries : Wf (tileRetries s) := by
  unfold EngineSteps.tileRetries
  exact .ite (fun _ => h.meStep) fun _ => h

theorem Wf.mergeWaitOver : Wf (mergeWaitOver s) := by
  unfold Machine.mergeWaitOver
  split
  next => exact .ite (fun _ => Wf.meStop (Wf.setRun (h.mergeRun _) _) _) fun _ => h
  next => exact h

theorem Wf.mergeRefusedOver : Wf (mergeRefusedOver s) := by
  unfold Machine.mergeRefusedOver
  split
  next => exact .ite (fun _ => Wf.meStop (h.modCore _) _) fun _ => h
  next => exact h

end

end Sys2Proof.MemoryForm

/-! # The canonical form of memory: barriers, scalar instructions and branches -/

namespace Sys2Proof.MemoryForm

open Sys2Proof.Machine Sys2Proof.Safety

section
variable {s : State} (h : Wf s)
include h

/-! ## Issue of SCC instructions -/

theorem Wf.sccOp {f : State → State} (hf : Wf (f s)) (rs : List SReg) : WfOut (sccOp rs s f) :=
  Wf.next (.ite (fun _ => hf) fun _ => h.holds)

theorem Wf.sccWrite (d : SReg) (rs : List SReg) (v : State → Word) : WfOut (sccWrite d rs s v) := h.sccOp (h.setS d _).retire _

theorem Wf.aluOp (o : Sa) (f : Word → Word → Word) : WfOut (aluOp o s f) := h.sccWrite _ _ _

theorem Wf.unaryOp (o : Sa) (f : Word → Word) : WfOut (unaryOp o s f) := h.sccWrite _ _ _

theorem Wf.immOp (o : Si) (f : Word → Word → Word) : WfOut (immOp o s f) := h.sccWrite _ _ _

theorem Wf.immOpZ (o : Si) (f : Word → Word → Word) : WfOut (immOpZ o s f) := h.sccWrite _ _ _

theorem Wf.fieldOp (o : Sf) (f : Word → Word) : WfOut (fieldOp o s f) := h.sccWrite _ _ _

theorem Wf.execGetres (o : Sa) : WfOut (execGetres o s) := by
  rw [Machine.execGetres]
  exact .ite (fun _ => h.sccWrite _ _ _) fun _ => h.holds.next

/-! ## Barriers (08 R253-R256) -/

theorem Wf.barWrite (n : Fin 512) (off : Nat) (b : BarObj) : Wf (barWrite s n off b) := h.spadStore _ _ _

theorem Wf.completeCheck (n : Fin 512) (off : Nat) : Wf (completeCheck s n off) := by
  unfold Machine.completeCheck
  dsimp only
  split
  next =>
    generalize ht : Machine.barWrite s n off _ = t
    have hw : Wf t := ht ▸ h.barWrite _ _ _
    exact hw
  next => exact h

theorem Wf.deliver (n : Fin 512) (off bytes : Nat) : Wf (deliver s n off bytes).1 := by
  unfold Machine.deliver
  dsimp only
  split
  next =>
    dsimp only
    exact h.barWrite _ _ _
  next =>
    dsimp only
    exact (h.barWrite _ _ _).completeCheck _ _

theorem Wf.recordArrival (n : Fin 512) (b : BarObj) (agent : Fin 512) (epoch : BitVec 15) : Wf (recordArrival s n b agent epoch) := by
  unfold Machine.recordArrival
  have hfirst {c : Prop} [Decidable c] : Wf (if c then Machine.spadStore s (s.coreAt n) (128 * b.record) (List.replicate 64 0) else s) :=
    .ite (fun _ => h.spadStore _ _ _) fun _ => h
  exact .ite (fun _ => h) fun _ => .ite (fun _ => hfirst.spadStore _ _ _) fun _ => hfirst

theorem Wf.arrive {n : Fin 512} {off : Nat} {t : State} {phase : Bool} (ht : arrive s n off = some (t, phase)) : Wf t := by
  unfold Machine.arrive at ht
  dsimp only at ht
  split at ht
  next => cases ht
  next =>
    obtain ⟨rfl, -⟩ := Prod.mk.inj (Option.some.inj ht)
    exact (((h.recordArrival _ _ _ _).barWrite _ _ _).completeCheck _ _).bumpEpoch

theorem Wf.lateScc (idx : BitVec 24) (f : Fail) : Wf (lateScc s idx f) := h.addLate _

theorem Wf.barOp {f : State → Fin 512 → Nat → State} (hf : ∀ n off, Wf (f s n off)) (rs : List SReg) (ra : SReg) : WfOut (barOp rs ra s f) := by
  unfold Machine.barOp
  refine Wf.sccOp h ?_ _
  refine .ite (fun _ => h.holds) fun _ => .ite (fun _ => h.trap _) fun _ => ?_
  split
  next => exact h.trap _
  next n off _ => exact .ite (fun _ => h.retire.lateScc _ _) fun _ => hf n off

theorem Wf.execBarinit (o : Sa) : WfOut (execBarinit o s) :=
  h.barOp (fun _ _ => .ite (fun _ => h.illegal) fun _ => (h.barWrite _ _ _).retire) _ _

theorem Wf.execBarexp (o : Sa) : WfOut (execBarexp o s) :=
  h.barOp (fun _ _ => .ite (fun _ => h.illegal) fun _ => (h.barWrite _ _ _).retire) _ _

theorem Wf.execBararr (o : Sa) : WfOut (execBararr o s) := by
  unfold Machine.execBararr
  refine Wf.sccOp h ?_ _
  refine .ite (fun _ => h.holds) fun _ => .ite (fun _ => h.trap _) fun _ => ?_
  split
  next => exact h.trap _
  next =>
    refine .ite (fun _ => .ite (fun _ => h.retire.lateScc _ _) fun _ => ?_) fun _ => h.retire.modOrd _
    split
    next => exact h.trap _
    next ht => exact ((h.arrive ht).setS _ _).retire

theorem Wf.importPhase (n : Fin 512) (b : BarObj) : Wf (importPhase s n b) := by
  rw [Machine.importPhase]
  exact .ite (fun _ => h) fun _ => .ite (fun _ => h.importAll _) fun _ => h.modOrd _

theorem Wf.execBarwait (o : Sa) : WfOut (execBarwait o s) := by
  refine h.barOp (fun n off => ?_) _ _
  dsimp only
  split
  next => exact (h.importAll _).retire.acquire _
  next => exact .ite (fun _ => h.trap _) fun _ => .ite (fun _ => (h.importPhase _ _).retire.acquire _) fun _ => h.holds.modScc _

theorem Wf.execBartest (o : Sa) : WfOut (execBartest o s) :=
  h.barOp (fun _ _ => .ite (fun _ => h.trap _) fun _ => .ite (fun _ => ((h.importPhase _ _).setS _ _).retire.acquire _) fun _ =>
    (h.setS _ _).retire) _ _

theorem Wf.barTimeout : Wf (barTimeout s) := by
  unfold Machine.barTimeout
  split
  next => exact .ite (fun _ => h.trap _) fun _ => h
  next => exact h

theorem Wf.sendBararr (p : PendingRel) : Wf (sendBararr s p) := by
  unfold Machine.sendBararr
  split
  next => exact (h.modOrd _).lateScc _ _
  next =>
    refine .ite (fun _ => (h.modOrd _).lateScc _ _) fun _ => ?_
    split
    next => exact (h.modOrd _).lateScc _ _
    next ht => exact ((h.modOrd _).arrive ht).setS _ _

/-! ## Branches and jumps (05 R103, R104) -/

theorem Wf.advance : Wf (advance s) := h

theorem Wf.issued : Wf (issued s) := h

theorem Wf.nullifySlots (on : Bool) : Wf (nullifySlots s on) := h

theorem Wf.takeTarget {f : State → State} (hf : Wf (f s)) (t : Word) : Wf (takeTarget s t f) := by
  rw [Machine.takeTarget]
  exact .ite (fun _ => h.trap _) fun _ => hf

theorem Wf.branchOn (o : Sb) (a b : Word) : Wf (branchOn o s a b) := by
  unfold Machine.branchOn
  exact .ite (fun _ => h.takeTarget (h.nullifySlots _) _) fun _ => (h.nullifySlots _).advance.issued

theorem Wf.execBc (o : Sb) : WfOut (execBc o s) := h.sccOp (h.branchOn _ _ _) _

theorem Wf.execBci (o : Sb) : WfOut (execBci o s) := h.sccOp (h.branchOn _ _ _) _

theorem Wf.execJ (o : Sj) : WfOut (execJ o s) := h.sccOp (h.takeTarget (h.setS _ _) _) _

theorem Wf.execJr (o : Sa) : WfOut (execJr o s) := h.sccOp (h.takeTarget (h.setS _ _) _) _

end

end Sys2Proof.MemoryForm

/-! # The canonical form of memory: tasks, control registers, system and tables -/

namespace Sys2Proof.MemoryForm

open Sys2Proof.Machine Sys2Proof.Safety

section
variable {s : State} (h : Wf s)
include h

/-! ## Tasks and joins (09 R275-R282) -/

theorem Wf.spawn (d : SReg) (t : Task) (r : SpawnReq) : Wf (spawn s d t r) := by
  unfold Machine.spawn
  refine .ite (fun _ => h.illegal) fun _ => .ite (fun _ => h.holds) fun _ => .ite (fun _ => (h.bumpEpoch.setS _ _).retire) fun _ => ?_
  dsimp only
  generalize hx : Machine.withJoin _ _ = x
  have hc : Wf x.1 := hx ▸ Wf.withJoin (s := (Machine.bumpEpoch s).expect t.childJoin) h _
  split
  next => exact (Wf.modScc (Wf.modDie hc _ _) _).holds
  next => exact ((hc.placeHere _ _ _).setS _ _).retire

theorem Wf.spawnAnswer (d : SReg) : Wf (spawnAnswer s d) := by
  unfold Machine.spawnAnswer
  split
  next => exact h.holds
  next => exact ((h.modScc _).setS _ _).retire

theorem Wf.execSpawn (o : Sa) : WfOut (execSpawn o s) := by
  unfold Machine.execSpawn
  refine Wf.sccOp h ?_ _
  split
  next => exact h
  next =>
    refine .ite (fun _ => h.spawnAnswer _) fun _ => .ite (fun _ => h.trap _) fun _ => .ite (fun _ => h.holds) fun _ => ?_
    split
    next => exact h.trap _
    next => exact h.spawn _ _ _

theorem Wf.execSpawnx (o : Sac) : WfOut (execSpawnx o s) := by
  unfold Machine.execSpawnx
  refine Wf.sccOp h ?_ _
  split
  next => exact h
  next => exact .ite (fun _ => h.spawnAnswer _) fun _ => h.spawn _ _ _

theorem Wf.execJoinwait (o : Sa) : WfOut (execJoinwait o s) := by
  unfold Machine.execJoinwait
  refine Wf.sccOp h ?_ _
  split
  next => exact h
  next t _ =>
    refine .ite (fun _ => h.holds) fun _ => (Wf.retire (Wf.setS (Wf.setS (.ite (fun _ => Wf.modOrd ?_ _) fun _ => ?_) _ _) _ _)).acquire _
    · exact Wf.importAll (s := s.modJoin t.childJoin _) h _
    · exact Wf.importAll (s := s.modJoin t.childJoin _) h _

theorem Wf.parkAnswered (id : BitVec 32) : Wf (parkAnswered s id) := h

theorem Wf.requeue (n : Fin 512) (t : Task) (i : Image) : Wf (requeue s n t i) := by
  unfold Machine.requeue
  refine Wf.yreqScan ?_ _
  exact h

theorem Wf.placeSaved (n : Fin 512) (t : Task) (i : Image) (asked : Bool) : Wf (placeSaved s n t i asked) := by
  rw [Machine.placeSaved]
  exact .ite (fun _ => h) fun _ => h.requeue n t i

theorem Wf.execYield (o : Sa) : WfOut (execYield o s) := by
  unfold Machine.execYield
  refine Wf.sccOp h ?_ _
  refine .ite (fun _ => h.illegal) fun _ => .ite (fun _ => h.retire) fun _ => .ite (fun _ => h.holds) fun _ => ?_
  split
  next => exact h
  next =>
    dsimp only
    split
    next => exact h.retire
    next hy => exact (h.retire.saveTask hy).placeSaved _ _ _ _

theorem Wf.finishTask (t : Task) : Wf (finishTask s t) := (h.endTask t none _).bumpEpoch.parkAnswered _

theorem Wf.execDone (o : Sa) : WfOut (execDone o s) := by
  unfold Machine.execDone
  refine Wf.next (.ite (fun _ => h.holds) fun _ => ?_)
  split
  next => exact h
  next t _ => exact h.finishTask t

theorem Wf.execTbound (o : Sa) : WfOut (execTbound o s) := by
  unfold Machine.execTbound
  refine Wf.sccOp h ?_ _
  split
  next => exact h
  next => exact .ite (fun _ => h.illegal) fun _ => (Wf.setS (.ite (fun _ => h.modTask _) fun _ => h) _ _).retire

theorem Wf.execHintnext (o : Sa) : WfOut (execHintnext o s) := by
  unfold Machine.execHintnext
  refine Wf.next (Wf.retire ?_)
  split
  next => exact h
  next => exact h

theorem Wf.execWaitpred (o : Sa) : WfOut (execWaitpred o s) := by
  unfold Machine.execWaitpred
  refine Wf.next ?_
  split
  next => exact h.retire
  next => exact .ite (fun _ => h.retire) fun _ => .ite (fun _ => h.holds) fun _ => (h.modOrd _).retire.acquire _

/-! ## Buffers (09 R266, R283) -/

theorem Wf.addHandle (b : Handle) : Wf (addHandle s b) := h.modTask _

theorem Wf.dropHandle (w : Word) : Wf (dropHandle s w) := h.modTask _

theorem Wf.takeInbound (d : SReg) (t : Task) : Wf (takeInbound s d t) := by
  unfold Machine.takeInbound
  dsimp only
  split
  next => exact h.illegal
  next => exact .ite (fun _ => h.holds) fun _ => ((((h.modTask _).addHandle _).importAll _).setS _ _).retire

theorem Wf.allocBuffer (d : SReg) (t : Task) : Wf (allocBuffer s d t) := by
  unfold Machine.allocBuffer
  split
  next => exact h.holds
  next => exact (((h.modCore _).addHandle _).setS _ _).retire

theorem Wf.execBuftake (o : Sa) : WfOut (execBuftake o s) := by
  unfold Machine.execBuftake
  refine Wf.sccOp h ?_ _
  split
  next => exact h
  next t _ =>
    exact .ite (fun _ => h.illegal) fun _ => .ite (fun _ => h.allocBuffer _ t) fun _ =>
      .ite (fun _ => h.takeInbound _ t) fun _ => h.illegal

theorem Wf.passBuffer (n : Fin 512) (t : Task) (b : Handle) (lo hi stage : Nat) (passer : Option Import) :
    Wf (passBuffer s n t b lo hi stage passer) := by
  unfold Machine.passBuffer
  dsimp only
  generalize hx : Machine.nextNumber _ _ _ = x
  have hn : Wf x.1 := by
    rw [← hx]
    exact h.setCoreAt n _
  refine Wf.enqueue ?_ _ _
  exact hn.withJoin _

theorem Wf.execBufpass (o : Sa) : WfOut (execBufpass o s) := by
  unfold Machine.execBufpass
  refine Wf.sccOp h ?_ _
  split
  next => exact h
  next =>
    exact .ite (fun _ => h.illegal) fun _ => .ite (fun _ => h.holds) fun _ =>
      ((h.dropHandle _).passBuffer _ _ _ _ _ _ _).bumpEpoch.retire

theorem Wf.execBuffree (o : Sa) : WfOut (execBuffree o s) := by
  unfold Machine.execBuffree
  refine Wf.sccOp h ?_ _
  split
  next => exact h
  next => exact .ite (fun _ => h.illegal) fun _ => ((h.dropHandle _).modCore _).retire

/-! ## Control registers (11 R311) -/

theorem Wf.writeHashmask (d : Fin 8) (i : Fin 6) (v : Word) : Wf (writeHashmask s d i v) := by
  rw [Machine.writeHashmask]
  exact .ite (fun _ => h.modDie _ _) fun _ => h

theorem Wf.writeActbase (d : Fin 8) (c : Fin 64) (v : Word) : Wf (writeActbase s d c v) := by
  unfold Machine.writeActbase
  dsimp only
  split <;> exact (h.setCtxAt _ _ _).setCtxAt _ _ _

theorem Wf.parkReady (id : BitVec 32) : Wf (parkReady s id) := h

theorem Wf.parkAsk (d : Fin 8) (v : Word) : Wf (parkAsk s d v) := by
  unfold Machine.parkAsk
  refine .ite (fun _ => h) fun _ => .ite (fun _ => .ite (fun _ => (h.modDie _ _).parkReady _) fun _ =>
    .ite (fun _ => h.modDie _ _) fun _ => ?_) fun _ => h.modDie _ _
  dsimp only
  split
  next => exact ((h.modDie _ _).modDie _ _).raiseYreq _ _
  next => exact (h.modDie _ _).modDie _ _

theorem Wf.writeCtxReg (d : Fin 8) (c : Fin 64) (i : Nat) (v : Word) : Wf (writeCtxReg s d c i v) := by
  unfold Machine.writeCtxReg
  dsimp only
  split
  next => exact h.setCtxAt _ _ _
  next => exact h.writeActbase _ _ _
  next => exact h.setCtxAt _ _ _
  next => exact h.setCtxAt _ _ _
  next => exact h.setCtxAt _ _ _
  next => exact .ite (fun _ => h.setCtxAt _ _ _) fun _ => h
  next => exact h

theorem Wf.writeDieReg (d : Fin 8) (n : Nat) (v : Word) : Wf (writeDieReg s d n v) := by
  unfold Machine.writeDieReg
  split
  next => exact .ite (fun _ => h.writeCtxReg _ _ _ _) fun _ => h
  next =>
    split
    case h_10 | h_11 | h_12 | h_13 | h_14 | h_15 => exact h.writeHashmask _ _ _
    case h_26 => exact h.parkAsk _ _
    all_goals exact h

theorem Wf.writeCoreReg (n : Nat) (v : Word) : Wf (writeCoreReg s n v) := by
  unfold Machine.writeCoreReg
  split
  next => exact h.modCore _
  next => split <;> exact h

theorem Wf.crOp {f : State → State} (hf : Wf (f s)) (n : Nat) (wr : Bool) : Wf (crOp n wr s f) := by
  rw [Machine.crOp]
  exact .ite (fun _ => h.illegal) fun _ => .ite (fun _ => h.trap _) fun _ => .ite (fun _ => h.holds) fun _ => hf

theorem Wf.execMfcr (o : Si) : WfOut (execMfcr o s) := h.sccOp (h.crOp (h.setS _ _).retire _ _) _

theorem Wf.execMtcr (o : Si) : WfOut (execMtcr o s) := by
  unfold Machine.execMtcr
  refine Wf.sccOp h ?_ _
  refine Wf.crOp h ?_ _ _
  refine Wf.retire ?_
  exact .ite (fun _ => h.writeCoreReg _ _) fun _ => h.writeDieReg _ _ _

theorem Wf.execControlRegisterWrite (die : Fin 8) (num : BitVec 16) (val : Word) : WfOut (execControlRegisterWrite die num val s) :=
  Wf.next (.ite (fun _ => h.writeDieReg _ _ _) fun _ => h)

theorem Wf.execBfmtWrite (core : Fin 512) (bank : Fin 32) (val : Word) : WfOut (execBfmtWrite core bank val s) :=
  (h.atCore (fun _ hx => .ite (fun _ => hx.modCore _) fun _ => hx) core).next

theorem Wf.execFpControlWrite (core : Fin 512) (reg : FpReg) (val : Word) : WfOut (execFpControlWrite core reg val s) :=
  (h.atCore (fun _ hx => .ite (fun _ => hx.modFp _) fun _ => hx) core).next

/-! ## System instructions (12 R362-R368) -/

theorem Wf.tlbinv (ctxs : Fin 64 → Bool) (p : TlbEnt → Bool) : Wf (tlbinv s ctxs p) := by
  rw [Machine.tlbinv]
  exact .ite (fun _ => h.holds) fun _ => h

theorem Wf.execTlbinvCtx (o : Sa) : WfOut (execTlbinvCtx o s) := by
  unfold Machine.execTlbinvCtx
  refine h.privileged (Wf.sccOp h ?_ _)
  exact .ite (fun _ => h.illegal) fun _ => h.tlbinv _ _

theorem Wf.execTlbinvPage (o : Sa) : WfOut (execTlbinvPage o s) := by
  unfold Machine.execTlbinvPage
  refine h.privileged (Wf.sccOp h ?_ _)
  exact .ite (fun _ => h.illegal) fun _ => h.tlbinv _ _

theorem Wf.execTlbinvAll (o : Sa) : WfOut (execTlbinvAll o s) := h.privileged (h.tlbinv _ _).next

theorem Wf.execActset (o : Act) : WfOut (execActset o s) := by
  unfold Machine.execActset
  refine h.privileged (Wf.sccOp h ?_ _)
  refine .ite (fun _ => h.illegal) fun _ => Wf.retire ?_
  split
  next => exact (h.setCtxAt _ _ _).store _ _
  next => exact h.setCtxAt _ _ _

theorem Wf.execParkpop (o : Sa) : WfOut (execParkpop o s) := by
  unfold Machine.execParkpop
  refine h.privileged (Wf.sccOp h ?_ _)
  refine .ite (fun _ => h.illegal) fun _ => ?_
  dsimp only
  split
  next => exact (h.setS _ _).retire
  next =>
    refine Wf.retire (Wf.setS ?_ _ _)
    exact h

theorem Wf.releasePlace (i : Image) : Wf (releasePlace s i) := h

theorem Wf.discardParked (e : TaskEnt) (r : Word) : Wf (discardParked s e r) := by
  unfold Machine.discardParked
  refine Wf.childEnds (Wf.setCoreAt ?_ _ _) _ _ _
  split
  next i _ =>
    refine (Wf.dropLocalHolds (Wf.failBlazes (Wf.foldl (fun y z hy => ?_) ?_ _) _) _ _).releasePlace i
    · cases z with
      | none => exact hy
      | some z => exact hy.dropRef z
    · exact h
  next => exact h

theorem Wf.readyAgain (e : TaskEnt) (i : Option Image) : Wf (readyAgain s e i) := by
  unfold Machine.readyAgain
  refine Wf.yreqScan ?_ _
  exact h

theorem Wf.resumeTask (e : TaskEnt) (d : Fin 8) (mode q : Nat) : Wf (resumeTask s e d mode q) := by
  unfold Machine.resumeTask
  split
  next => exact h.readyAgain _ _
  next => exact h.readyAgain _ _
  next => exact h.discardParked _ _
  next =>
    dsimp only
    split <;> exact h

theorem Wf.execResume (o : Sa) : WfOut (execResume o s) := by
  unfold Machine.execResume
  refine h.privileged (Wf.sccOp h ?_ _)
  refine .ite (fun _ => h.illegal) fun _ => ?_
  dsimp only
  split
  next => exact ((h.resumeTask _ _ _ _).setS _ _).retire
  next => exact (h.setS _ _).retire

theorem Wf.moveReady (n : Fin 512) : Wf (moveReady s n) := by
  unfold Machine.moveReady
  refine Wf.foldl (fun x e hx => ?_) h _
  exact hx

theorem Wf.execHalt (o : Sa) : WfOut (execHalt o s) := by
  unfold Machine.execHalt
  refine h.privileged (Wf.next (.ite (fun _ => h.holds) fun _ => ?_))
  split
  next => exact h
  next t _ => exact ((h.finishTask t).modCore _).moveReady _

theorem Wf.execFeatset (o : Sa) : WfOut (execFeatset o s) := by
  unfold Machine.execFeatset
  refine h.privileged (Wf.sccOp h ?_ _)
  refine Wf.retire ?_
  exact Wf.setS (s := acceptFeatures s _ _) h _ _

/-! ## Tables and events (08 R227-R231) -/

theorem Wf.execTlook (o : Sa) : WfOut (execTlook o s) := by
  unfold Machine.execTlook
  refine Wf.sccOp h ?_ _
  refine Wf.retire (Wf.setS ?_ _ _)
  exact h

theorem Wf.execTset (o : Sa) : WfOut (execTset o s) := by
  unfold Machine.execTset
  refine Wf.sccOp h ?_ _
  exact .ite (fun _ => h.illegal) fun _ => h

theorem Wf.execTclr (o : Sa) : WfOut (execTclr o s) := by
  unfold Machine.execTclr
  refine Wf.sccOp h ?_ _
  exact .ite (fun _ => h) fun _ => .ite (fun _ => h.illegal) fun _ => h

theorem Wf.execEvwait (o : Sa) : WfOut (execEvwait o s) := by
  rw [Machine.execEvwait]
  exact .ite (fun _ => h.holds.next) fun _ => h.sccWrite _ _ _

theorem Wf.execEvpop (o : Sa) : WfOut (execEvpop o s) := by
  unfold Machine.execEvpop
  refine Wf.sccOp h ?_ _
  split
  next => exact h.holds
  next => exact ((h.modCp _).setS _ _).retire

end

end Sys2Proof.MemoryForm

/-! # The canonical form of memory: what copy engines read and write

`Keeps P x` says that work `x` of a copy engine, begun where memory has its canonical form, leaves it so and answers something with
`P`. A stream or a plan keeps memory's form where each of its parts does. -/

namespace Sys2Proof.MemoryForm

open Sys2Proof.Machine Sys2Proof.Safety

/-- Work of a copy engine keeps the canonical form of memory, and its answers have a property. -/
def Keeps {α : Type} (P : α → Prop) (x : Cpm α) : Prop := ∀ y a z, Wf y.1 → x y = .ok (a, z) → Wf z.1 ∧ P a

/-- Work of a copy engine keeps the canonical form of memory. -/
abbrev KeepsWf {α : Type} (x : Cpm α) : Prop := Keeps (fun _ => True) x

/-- Every range of a stream is made by work that keeps the form. -/
def StreamOk (x : Stream) : Prop := ∀ off n, KeepsWf (x.out off n)

/-- Every unit of a plan is made by work that keeps the form. -/
def PlanOk (p : Plan) : Prop := ∀ k, KeepsWf (p.make k)

section
variable {α β : Type} {P : α → Prop} {Q : β → Prop}

/-! ## The operations of the monad -/

theorem Keeps.pure {a : α} (ha : P a) : Keeps P (pure a : Cpm α) := by
  intro y b z hy hz
  obtain ⟨rfl, rfl⟩ := Prod.mk.inj (Except.ok.inj hz)
  exact ⟨hy, ha⟩

theorem keepsPure (a : α) : KeepsWf (Pure.pure a : Cpm α) := .pure trivial

theorem Keeps.bind {x : Cpm α} {f : α → Cpm β} (hx : Keeps P x) (hf : ∀ a, P a → Keeps Q (f a)) : Keeps Q (x >>= f) := by
  intro y b z hy hz
  cases hxy : x y with
  | error e => simp [StateT.bind, Bind.bind, Except.bind, hxy] at hz
  | ok r =>
    obtain ⟨hr, ha⟩ := hx y r.1 r.2 hy hxy
    refine hf r.1 ha r.2 b z hr ?_
    simpa [StateT.bind, Bind.bind, Except.bind, hxy] using hz

theorem Keeps.ite {c : Prop} [Decidable c] {x y : Cpm α} (hx : c → Keeps P x) (hy : ¬c → Keeps P y) : Keeps P (if c then x else y) := by
  split
  next hc => exact hx hc
  next hc => exact hy hc

theorem keepsFail (f : Fail) : Keeps P (failC f : Cpm α) := fun _ _ _ _ hz => nomatch hz

theorem keepsIllegal : Keeps P (illegalC : Cpm α) := keepsFail _

theorem keepsCheckFail : Keeps P (checkFail : Cpm α) := keepsFail _

theorem keepsFlag (f : Flags) : KeepsWf (flagC f) := by
  intro y a z hy hz
  obtain ⟨-, rfl⟩ := Prod.mk.inj (Except.ok.inj hz)
  exact ⟨hy, trivial⟩

theorem keepsState : Keeps Wf stateC := by
  intro y a z hy hz
  obtain ⟨rfl, rfl⟩ := Prod.mk.inj (Except.ok.inj hz)
  exact ⟨hy, hy⟩

theorem keepsCheck (ok : Bool) : KeepsWf (checkC ok) := .ite (fun _ => keepsPure _) fun _ => keepsIllegal

theorem keepsLift (x : Except Fail α) : KeepsWf (liftC x) := by
  cases x with
  | ok a => exact keepsPure a
  | error e => exact keepsFail e

theorem keepsAttempt {x : Cpm α} (hx : KeepsWf x) : KeepsWf (attempt x) := by
  intro y a z hy hz
  unfold attempt at hz
  split at hz
  next b w hb =>
    obtain ⟨-, rfl⟩ := Prod.mk.inj (Except.ok.inj hz)
    exact ⟨(hx y b w hy hb).1, trivial⟩
  next =>
    obtain ⟨-, rfl⟩ := Prod.mk.inj (Except.ok.inj hz)
    exact ⟨hy, trivial⟩
  next => cases hz

theorem keepsMapM {f : α → Cpm β} (hf : ∀ a, KeepsWf (f a)) (l : List α) : KeepsWf (l.mapM f) := by
  induction l with
  | nil => exact keepsPure _
  | cons a l ih =>
    rw [List.mapM_cons]
    exact (hf a).bind fun b _ => ih.bind fun bs _ => keepsPure _

end

/-! ## Reading (08 R210-R217) -/

section
variable {s : State} (h : Wf s)
include h

theorem Wf.modOwner (w : Who) (f : TaskRegs → TaskRegs) : Wf (modOwner s w f) := by
  rw [Machine.modOwner]
  exact .ite (fun _ => h.setCoreAt _ _) fun _ => h

/-- What an access of a copy engine imports. -/
theorem Wf.importOwner (w : Who) (i : Option Import) :
    Wf (match i with | some i => Machine.modOwner s w fun r => { r with ord := importEpoch r.ord i } | none => s) := by
  cases i with
  | none => exact h
  | some i => exact h.modOwner w _

end

theorem readGlobal_keeps (m : Mover) (va n : Nat) : KeepsWf (readGlobal m va n) := by
  intro y a z hy hz
  unfold readGlobal at hz
  dsimp only at hz
  split at hz
  next => cases hz
  next p _ =>
    split at hz
    next => cases hz
    next =>
      split at hz
      next => cases hz
      next =>
        split at hz
        next => cases hz
        next =>
          split at hz
          next => cases hz
          next =>
            obtain ⟨-, rfl⟩ := Prod.mk.inj (Except.ok.inj hz)
            refine ⟨?_, trivial⟩
            split
            next => exact (hy.countMigration _ p).modOwner _ _
            next => exact hy.countMigration _ p

theorem readPad_keeps (a : Word) (n : Fin 512) (off len : Nat) : KeepsWf (readPad a n off len) := by
  intro y b z hy hz
  unfold readPad at hz
  dsimp only at hz
  split at hz
  next => cases hz
  next =>
    split at hz
    next => cases hz
    next =>
      obtain ⟨-, rfl⟩ := Prod.mk.inj (Except.ok.inj hz)
      exact ⟨hy, trivial⟩

theorem readChunk_keeps (m : Mover) (a : Word) (n : Nat) : KeepsWf (readChunk m a n) := by
  refine keepsState.bind fun s _ => (keepsLift _).bind fun x _ => ?_
  cases x with
  | global va => exact readGlobal_keeps m va n
  | pad c off => exact readPad_keeps a c off n

theorem readFuel_keeps (m : Mover) (fuel : Nat) (a : Word) (n : Nat) : KeepsWf (readFuel m fuel a n) := by
  induction fuel generalizing a n with
  | zero => exact keepsPure _
  | succ fuel ih =>
    unfold readFuel
    exact .ite (fun _ => keepsPure _) fun _ => (readChunk_keeps m a _).bind fun x _ => (ih _ _).bind fun r _ => keepsPure _

theorem readBytes_keeps (m : Mover) (a : Word) (n : Nat) : KeepsWf (readBytes m a n) := readFuel_keeps m _ a n

/-! ## Writing (08 R234) -/

theorem Wf.putPad {s : State} (h : Wf s) (n : Fin 512) (off : Nat) (bs : List Byte) : Wf (putPad s n off bs).1 :=
  (h.spadStore _ _ _).setCoreAt _ _

theorem Wf.putPiece {y : State × Flags} (h : Wf y.1) (m : Mover) (p : Piece) (bs : List Byte) : Wf (putPiece m y p bs).1 := by
  cases p with
  | hbm q n => exact ((h.countMigration _ q).writeHbm _ _ q bs).setTag _ q
  | pad c off n => exact h.putPad c off bs

theorem Wf.putPieces (m : Mover) {y : State × Flags} (h : Wf y.1) (l : List Piece) (bs : List Byte) : Wf (putPieces m y l bs).1 := by
  induction l generalizing y bs with
  | nil => exact h
  | cons p ps ih => exact ih (h.putPiece m p _) _

theorem writeAllC_keeps (m : Mover) (ws : List (Word × List Byte)) : KeepsWf (writeAllC m ws) := by
  intro y a z hy hz
  unfold writeAllC at hz
  split at hz
  next => cases hz
  next ps _ =>
    obtain ⟨-, rfl⟩ := Prod.mk.inj (Except.ok.inj hz)
    exact ⟨hy.foldlPair (fun x p hx => hx.putPieces m p.1 p.2) ps, trivial⟩

section
variable {s : State} (h : Wf s)
include h

theorem Wf.logPoison (d : Fin 8) (source granule : Nat) : Wf (logPoison s d source granule) := h

theorem Wf.poisonKey (source key : Nat) : Wf (poisonKey s source key) := by
  unfold Machine.poisonKey
  dsimp only
  split
  next => exact (h.poisonAt _).logPoison _ _ _
  next => exact h.poisonAt _

theorem Wf.poisonPad (n : Fin 512) (key source : Nat) : Wf (poisonPad s n key source) := h

theorem Wf.poisonPiece (p : Piece) : Wf (poisonPiece s p) := by
  cases p with
  | hbm q n => exact .ite (fun _ => h) fun _ => h.foldl (fun _ _ hx => hx.poisonKey _ _) _
  | pad c off n => exact h.foldl (fun _ _ hx => hx.poisonPad _ _ _) _

end

/-! ## Streams (08 R235-R238) -/

theorem elemStream_ok {w count : Nat} {f : Nat → Nat → Cpm (List Conv)} {side : Nat → Nat → Cpm (List (Word × List Byte))}
    (hf : ∀ lo cnt, KeepsWf (f lo cnt)) (hs : ∀ lo cnt, KeepsWf (side lo cnt)) : StreamOk (elemStream w count f side) :=
  fun _ _ => (hf _ _).bind fun _ _ => (keepsFlag _).bind fun _ _ => (hs _ _).bind fun _ _ => keepsPure _

theorem noSide_keeps (lo cnt : Nat) : KeepsWf (noSide lo cnt) := keepsPure _

theorem srcRead_keeps (m : Mover) (x : Src) (off n : Nat) : KeepsWf (srcRead m x off n) := by
  cases x with
  | raw a => exact readBytes_keeps m _ n
  | made bs => exact .ite (fun _ => keepsPure _) fun _ => keepsCheckFail

theorem srcElems_keeps (m : Mover) (x : Src) (base : Nat) (t : Ty) (lo cnt : Nat) : KeepsWf (srcElems m x base t lo cnt) :=
  (srcRead_keeps m x _ _).bind fun _ _ => keepsPure _

theorem srcElem_keeps (m : Mover) (x : Src) (base : Nat) (t : Ty) (i : Nat) : KeepsWf (srcElem m x base t i) :=
  (srcElems_keeps m x base t i 1).bind fun _ _ => keepsPure _

theorem rawStream_ok (m : Mover) (x : Src) (n : Nat) : StreamOk (rawStream m x n) :=
  fun off k => (srcRead_keeps m x off k).bind fun _ _ => keepsPure _

theorem fillStream_ok (pattern : Word) (n : Nat) : StreamOk (fillStream pattern n) := fun _ _ => keepsPure _

theorem convStream_ok (m : Mover) (x : Src) (s d : Ty) (count : Nat) (r : Rounding) : StreamOk (convStream m x s d count r) :=
  elemStream_ok (fun lo cnt => (srcElems_keeps m x 0 s lo cnt).bind fun _ _ => keepsPure _) noSide_keeps

theorem gatherStream_ok (m : Mover) (x : Src) (s d : Ty) (idx : List Nat) (cols stride : Nat) (conv : Bool) (r : Rounding) :
    StreamOk (gatherStream m x s d idx cols stride conv r) :=
  elemStream_ok (fun _ _ => keepsMapM (fun _ => (srcElem_keeps m x _ s _).bind fun _ _ => keepsPure _) _) noSide_keeps

theorem transposeStream_ok (m : Mover) (x : Src) (t : Ty) (rows cols : Nat) : StreamOk (transposeStream m x t rows cols) :=
  elemStream_ok (fun _ _ => keepsMapM (fun _ => (srcElem_keeps m x _ t _).bind fun _ _ => keepsPure _) _) noSide_keeps

theorem readTile_keeps (m : Mover) (x : Src) (t : Nat) : KeepsWf (readTile m x t) :=
  (srcRead_keeps m x _ _).bind fun _ _ => keepsPure _

theorem checkTiles_keeps (m : Mover) (x : Src) (n t : Nat) : KeepsWf (checkTiles m x n t) := by
  induction n generalizing t with
  | zero => exact keepsPure _
  | succ n ih =>
    unfold checkTiles
    refine (keepsAttempt (readTile_keeps m x t)).bind fun a _ => ?_
    cases a with
    | none => exact (keepsPure ()).bind fun _ _ => ih _
    | some a =>
      dsimp only
      split
      next => exact (keepsFail _ : KeepsWf _).bind fun _ _ => ih _
      next => exact (keepsPure ()).bind fun _ _ => ih _

theorem deqHb4Stream_ok (m : Mover) (x : Src) (d : Ty) (rows cols : Nat) (r : Rounding) : StreamOk (deqHb4Stream m x d rows cols r) := by
  unfold deqHb4Stream
  refine elemStream_ok (fun _ _ => Keeps.bind (keepsMapM (fun t => ?_) _) fun _ _ => keepsPure _) noSide_keeps
  exact (readTile_keeps m x t).bind fun _ _ => keepsPure _

theorem deqMxStream_ok (m : Mover) (x : Src) (s d : Ty) (rows cols : Nat) (scales : Word) (r : Rounding) :
    StreamOk (deqMxStream m x s d rows cols scales r) :=
  elemStream_ok (fun lo cnt => (srcElems_keeps m x 0 s lo cnt).bind fun _ _ =>
    keepsMapM (fun _ => (readBytes_keeps m _ 1).bind fun _ _ => keepsPure _) _) noSide_keeps

theorem quantInput_keeps (m : Mover) (x : Src) (s : Ty) (rows cols : Nat) (tr fzi : Bool) (i j : Nat) :
    KeepsWf (quantInput m x s rows cols tr fzi i j) :=
  (srcElem_keeps m x 0 s _).bind fun _ _ => keepsPure _

section
variable {get : Nat → Nat → Cpm Val} (hg : ∀ i j, KeepsWf (get i j))
include hg

theorem rowInputs_keeps (rows cols : Nat) (draw : Nat → Nat → Nat) (i j0 n : Nat) : KeepsWf (rowInputs get rows cols draw i j0 n) :=
  keepsMapM (fun _ => .ite (fun _ => (hg _ _).bind fun _ _ => keepsPure _) fun _ => keepsPure _) _

theorem mxBlock_keeps (rows cols : Nat) (d : Ty) (r : Rounding) (b : Nat) : KeepsWf (mxBlock get rows cols d r b) :=
  (rowInputs_keeps hg _ _ _ _ _ _).bind fun _ _ => keepsPure _

theorem mxStream_ok (rows cols : Nat) (d : Ty) (scales : Word) (r : Rounding) : StreamOk (mxStream get rows cols d scales r) := by
  unfold mxStream
  refine elemStream_ok (fun _ _ => Keeps.bind (keepsMapM (fun b => ?_) _) fun _ _ => keepsPure _) fun _ _ => keepsMapM (fun n => ?_) _
  · exact (mxBlock_keeps hg _ _ _ _ b).bind fun _ _ => keepsPure _
  · exact (mxBlock_keeps hg _ _ _ _ _).bind fun _ _ => keepsPure _

theorem hb4Tile_keeps (rows cols : Nat) (p : Params) (r : Rounding) (t : Nat) : KeepsWf (hb4Tile get rows cols p r t) :=
  (keepsMapM (fun _ => (rowInputs_keeps hg _ _ _ _ _ _).bind fun _ _ => keepsPure _) _).bind fun _ _ => keepsPure _

theorem hb4Stream_ok (rows cols : Nat) (p : Params) (r : Rounding) : StreamOk (hb4Stream get rows cols p r) :=
  fun _ _ => (keepsMapM (fun _ => hb4Tile_keeps hg _ _ _ _ _) _).bind fun _ _ => (keepsFlag _).bind fun _ _ => keepsPure _

theorem checkBurls_keeps (rows cols : Nat) (p : Params) (r : Rounding) (n t : Nat) : KeepsWf (checkBurls get rows cols p r n t) := by
  induction n generalizing t with
  | zero => exact keepsPure _
  | succ n ih =>
    unfold checkBurls
    refine (keepsAttempt (hb4Tile_keeps hg rows cols p r t)).bind fun a _ => ?_
    cases a with
    | none => exact (keepsPure ()).bind fun _ _ => ih _
    | some a =>
      dsimp only
      split
      next => exact (keepsFail _ : KeepsWf _).bind fun _ _ => ih _
      next => exact (keepsPure ()).bind fun _ _ => ih _

end

theorem expandSource_keeps (m : Mover) (a : Word) (len : Nat) : KeepsWf (expandSource m a len) :=
  (keepsCheck _).bind fun _ _ => (readBytes_keeps m a 32).bind fun _ _ => (keepsCheck _).bind fun _ _ =>
    (readBytes_keeps m _ _).bind fun _ _ => .ite (fun _ => keepsCheckFail) fun _ => keepsPure _

end Sys2Proof.MemoryForm

/-! # The canonical form of memory: plans of copies, units and atomics -/

namespace Sys2Proof.MemoryForm

open Sys2Proof.Machine Sys2Proof.Safety

/-! ## Chains (08 R218, R235-R239) -/

theorem meetTarget_keeps (s : State) (w : Who) (a : Word) (fmt : Option (Nat × Nat × Bool)) (kind : Meet) (t : Ty) :
    KeepsWf (meetTarget s w a fmt kind t) := by
  have hstale (u : Ty) : KeepsWf (do flagC Flags.layoutStale; pure u : Cpm Ty) := (keepsFlag _).bind fun _ _ => keepsPure _
  have hreplaced {c : Prop} [Decidable c] {f : Fail} (u : Ty) :
      KeepsWf (if c then failC f else do flagC Flags.layoutStale; pure u : Cpm Ty) :=
    .ite (fun _ => keepsFail _) fun _ => hstale u
  unfold meetTarget
  cases fmt with
  | none => exact keepsPure _
  | some f =>
    refine .ite (fun _ => keepsPure _) fun _ => ?_
    cases kind with
    | convert => exact .ite (fun _ => keepsIllegal) fun _ => hreplaced _
    | quantMx => exact .ite (fun _ => hreplaced _) fun _ => keepsIllegal
    | quantHb4 => exact keepsIllegal
    | bits => exact hreplaced _
    | bytes => exact hstale _

theorem plainPlan_ok (dst : Word) {x : Stream} (hx : StreamOk x) (unit : Nat) (bad : Bool) : PlanOk (plainPlan dst x unit bad) :=
  fun _ => (hx _ _).bind fun _ _ => keepsPure _

theorem compressed_keeps {x : Stream} (hx : StreamOk x) (n : Nat) : KeepsWf (compressed x n) := by
  unfold compressed
  refine Keeps.bind (keepsMapM (fun k => ?_) _) fun _ _ => keepsPure _
  exact (hx _ _).bind fun _ _ => keepsPure _

theorem storedPlan_ok (dst : Word) {x : Stream} (hx : StreamOk x) (ep : Nat) : PlanOk (storedPlan dst x ep) := by
  intro k
  unfold storedPlan
  exact (compressed_keeps hx k).bind fun _ _ => (hx _ _).bind fun _ _ => .ite (fun _ => keepsPure _) fun _ => keepsPure _

theorem emptyPlan_ok : PlanOk emptyPlan := fun _ => keepsPure _

theorem readParams_keeps (m : Mover) (a : Word) : KeepsWf (readParams m a) :=
  .ite (fun _ => keepsFail _) fun _ => readBytes_keeps m a 64

theorem chainParams_keeps (m : Mover) (xf : Nat) (a : Word) : KeepsWf (chainParams m xf a) :=
  .ite (fun _ => keepsPure _) fun _ => .ite (fun _ => .ite (fun _ => keepsPure _) fun _ => keepsIllegal) fun _ =>
    (readParams_keeps m a).bind fun _ _ => (keepsCheck _).bind fun _ _ => keepsPure _

section
variable {meets : Meet → Ty → Cpm Ty} (hm : ∀ k t, KeepsWf (meets k t))
include hm

theorem quantStream_keeps (m : Mover) (c : Cmd) (p : Params) (x : Src) (len : Nat) (tr : Bool) :
    Keeps StreamOk (quantStream m c p x len tr meets) := by
  have hg := quantInput_keeps m x p.stype (if tr then p.cols else p.rows) (if tr then p.rows else p.cols) tr p.fzi
  unfold quantStream
  refine (keepsCheck _).bind fun _ _ => (keepsCheck _).bind fun _ _ => ?_
  refine .ite (fun _ => (keepsCheck _).bind fun _ _ => (hm _ _).bind fun _ _ => ?_) fun _ => ?_
  · exact .ite (fun _ => (checkBurls_keeps hg _ _ _ _ _ _).bind fun _ _ => .pure (hb4Stream_ok hg _ _ _ _)) fun _ =>
      .pure (hb4Stream_ok hg _ _ _ _)
  · exact (keepsCheck _).bind fun _ _ => (hm _ _).bind fun _ _ => .pure (mxStream_ok hg _ _ _ _ _)

theorem deqStream_keeps (m : Mover) (c : Cmd) (p : Params) (x : Src) (len : Nat) : Keeps StreamOk (deqStream m c p x len meets) := by
  unfold deqStream
  refine (keepsCheck _).bind fun _ _ => ?_
  refine .ite (fun _ => ?_) fun _ => ?_
  · exact (keepsCheck _).bind fun _ _ => (hm _ _).bind fun _ _ => (checkTiles_keeps m x _ _).bind fun _ _ =>
      .pure (deqHb4Stream_ok m x _ _ _ _)
  · exact (keepsCheck _).bind fun _ _ => (hm _ _).bind fun _ _ => .pure (deqMxStream_ok m x _ _ _ _ _ _)

end

theorem readIndices_keeps (m : Mover) (p : Params) : KeepsWf (readIndices m p) := by
  unfold readIndices
  refine (readBytes_keeps m _ _).bind fun _ _ => ?_
  dsimp only
  split
  next => exact keepsFail _
  next => exact keepsPure _

theorem chainStream_keeps (m : Mover) (c : Cmd) (xf : Nat) (p : Params) (x : Src) (len : Nat) (sf df : Option (Nat × Nat × Bool))
    (dst : Word) : Keeps StreamOk (chainStream m c xf p x len sf df dst) := by
  have hraw : Keeps StreamOk (pure (rawStream m x len) : Cpm Stream) := .pure (rawStream_ok m x len)
  unfold chainStream
  refine keepsState.bind fun s _ => ?_
  have hm := meetTarget_keeps s m.who dst df
  dsimp only
  split
  next =>
    split
    next =>
      exact .ite (fun _ => hraw) fun _ => .ite (fun _ => (keepsFlag _).bind fun _ _ => hraw) fun _ =>
        (keepsCheck _).bind fun _ _ => .pure (convStream_ok m x _ _ _ _)
    next => exact hraw
  next => exact (keepsCheck _).bind fun _ _ => (hm _ _).bind fun _ _ => .pure (convStream_ok m x _ _ _ _)
  next => exact (keepsCheck _).bind fun _ _ => (hm _ _).bind fun _ _ => .pure (convStream_ok m x _ _ _ _)
  next => exact quantStream_keeps hm m c p x len false
  next => exact quantStream_keeps (fun _ t => hm .bytes t) m c p x len false
  next => exact quantStream_keeps hm m c p x len true
  next => exact deqStream_keeps hm m c p x len
  next => exact deqStream_keeps hm m c p x len
  next => exact deqStream_keeps hm m c p x len
  next => exact (keepsCheck _).bind fun _ _ => (hm _ _).bind fun _ _ => .pure (transposeStream_ok m x _ _ _)
  next =>
    exact (keepsCheck _).bind fun _ _ => (keepsCheck _).bind fun _ _ => (readIndices_keeps m p).bind fun _ _ =>
      .ite (fun _ => (hm _ _).bind fun _ _ => .pure (gatherStream_ok m x _ _ _ _ _ _ _)) fun _ =>
        (hm _ _).bind fun _ _ => .pure (gatherStream_ok m x _ _ _ _ _ _ _)
  next =>
    exact (keepsCheck _).bind fun _ _ => (keepsCheck _).bind fun _ _ => (readIndices_keeps m p).bind fun _ _ =>
      .ite (fun _ => (hm _ _).bind fun _ _ => .pure (gatherStream_ok m x _ _ _ _ _ _ _)) fun _ =>
        (hm _ _).bind fun _ _ => .pure (gatherStream_ok m x _ _ _ _ _ _ _)
  next =>
    split
    next => exact (hm _ _).bind fun _ _ => hraw
    next => exact (keepsPure _).bind fun _ _ => hraw

theorem checkOnly_keeps (m : Mover) (src : Word) (len : Nat) (chk : Bool) : KeepsWf (checkOnly m src len chk) := by
  unfold checkOnly
  refine .ite (fun _ => (expandSource_keeps m src len).bind fun _ _ => ?_) fun _ => ?_
  · exact .ite (fun _ => keepsCheckFail) fun _ => (readBytes_keeps m src 32).bind fun _ _ => keepsPure _
  · exact (readBytes_keeps m src len).bind fun _ _ => keepsPure _

theorem streamPlan_ok (dst : Word) (xf : Nat) (p : Params) {x : Stream} (hx : StreamOk x) (toGlobal bad : Bool) :
    PlanOk (streamPlan dst xf p x toGlobal bad) := by
  unfold streamPlan
  split
  next =>
    split
    next => exact storedPlan_ok dst hx _
    next => exact plainPlan_ok dst hx _ _
  next => exact plainPlan_ok dst hx _ _

/-- What a chain's plan is checked for at its end. -/
theorem checkedPlan_keeps {p : Plan} (hp : PlanOk p) (r : Except Fail (Option (Nat × Nat × Bool))) (ok : Bool) :
    Keeps PlanOk (do let _ ← liftC r; checkC ok; pure p : Cpm Plan) :=
  (keepsLift _).bind fun _ _ => (keepsCheck _).bind fun _ _ => .pure hp

theorem chainPlan_keeps (m : Mover) (c : Cmd) (xf : Nat) (dst src : Word) (len : Nat) (sd : Word) (chk : Bool) :
    Keeps PlanOk (chainPlan m c xf dst src len sd chk) := by
  unfold chainPlan
  refine (chainParams_keeps m xf sd).bind fun p _ => keepsState.bind fun s _ => (keepsLift _).bind fun df _ => ?_
  refine (keepsLift _).bind fun sf _ => (keepsLift _).bind fun _ _ => ?_
  refine .ite (fun _ => ?_) fun _ => .ite (fun _ => ?_) fun _ => ?_
  · exact (chainStream_keeps m c xf p _ len sf df dst).bind fun _ _ => (checkOnly_keeps m src len chk).bind fun _ _ =>
      checkedPlan_keeps (plainPlan_ok dst (rawStream_ok m _ 8) _ _) _ _
  · exact (expandSource_keeps m src len).bind fun _ _ => (chainStream_keeps m c xf p _ _ sf df dst).bind fun _ hx =>
      checkedPlan_keeps (streamPlan_ok dst xf p hx _ _) _ _
  · exact (chainStream_keeps m c xf p _ len sf df dst).bind fun _ hx => checkedPlan_keeps (streamPlan_ok dst xf p hx _ _) _ _

theorem copyPlan_keeps (m : Mover) (c : Cmd) : Keeps PlanOk (copyPlan m c) := by
  unfold copyPlan
  refine keepsState.bind fun s _ => (keepsLift _).bind fun _ _ => (keepsCheck _).bind fun _ _ => ?_
  refine .ite (fun _ => .pure emptyPlan_ok) fun _ => ?_
  dsimp only
  split
  next => exact .pure (plainPlan_ok _ (fillStream_ok _ _) _ _)
  next => exact chainPlan_keeps m c _ _ _ _ _ _
  next => exact chainPlan_keeps m c _ _ _ _ _ _
  next => exact chainPlan_keeps m c _ _ _ _ _ _
  next => exact chainPlan_keeps m c _ _ _ _ _ _
  next => exact .pure emptyPlan_ok

/-! ## Units (08 R234) -/

theorem makeUnit_keeps (m : Mover) {p : Plan} (hp : PlanOk p) (k : Nat) : KeepsWf (makeUnit m p k) := by
  unfold makeUnit
  exact (hp k).bind fun w _ => .ite (fun _ => keepsCheckFail) fun _ => (writeAllC_keeps m w.writes).bind fun _ _ => keepsPure _

theorem Wf.poisonUnit {s : State} (h : Wf s) (m : Mover) (p : Plan) (k : Nat) : Wf (poisonUnit m p k s) := by
  unfold Machine.poisonUnit
  split
  next ps _ => exact h.foldl (fun _ q hx => hx.poisonPiece q) ps
  next => exact h

theorem runUnits_wf (m : Mover) {p : Plan} (hp : PlanOk p) (trap : Bool) (fuel k : Nat) {s : State} (h : Wf s) (f : Flags) :
    Wf (runUnits m p trap fuel k s f).s := by
  induction fuel generalizing k s f with
  | zero =>
    unfold runUnits
    split
    next =>
      split
      next => split <;> exact h
      next => exact h
    next => exact h
  | succ fuel ih =>
    unfold runUnits
    split
    next =>
      split
      next => split <;> exact h
      next => exact h
    next =>
      dsimp only
      split
      next =>
        split
        next => exact h.poisonUnit m p k
        next => exact h
      next => exact h
      next nan t g hm =>
        have ht : Wf t := (makeUnit_keeps m hp k (s, 0) nan (t, g) h hm).1
        split
        next => exact ht
        next => exact ih _ ht _

theorem runCopy_wf (m : Mover) (c : Cmd) {plan : Cpm Plan} (hp : Keeps PlanOk plan) (fuel : Option Nat) (units : Nat) {s : State}
    (h : Wf s) : Wf (runCopy m c plan fuel units s).s := by
  unfold runCopy
  split
  next => exact h
  next => exact h
  next p t f hx =>
    obtain ⟨ht, hpl⟩ := hp (s, 0) p (t, f) h hx
    exact runUnits_wf m hpl _ _ _ ht f

/-! ## Atomics (08 R246) -/

theorem atomHbm_keeps (m : Mover) (size : Nat) (f : Word → Conv) (va : Nat) : KeepsWf (atomHbm m size f va) := by
  intro y a z hy hz
  unfold atomHbm at hz
  dsimp only at hz
  split at hz
  next => cases hz
  next q _ =>
    split at hz
    next => cases hz
    next p _ =>
      split at hz
      next =>
        obtain ⟨-, rfl⟩ := Prod.mk.inj (Except.ok.inj hz)
        exact ⟨hy, trivial⟩
      next =>
        obtain ⟨-, rfl⟩ := Prod.mk.inj (Except.ok.inj hz)
        have hw (v : Nat) : Wf ((Machine.countMigration y.1 (dieOf m.agent) p).storeLe (forwardKey y.1 p.key) size v) :=
          (hy.countMigration _ p).storeLe _ _ _
        have hc {c : Prop} [Decidable c] (v : Nat) (g : Die → Die) : Wf (if c then
            ((Machine.countMigration y.1 (dieOf m.agent) p).storeLe (forwardKey y.1 p.key) size v).modDie (dieOf m.agent) g
            else (Machine.countMigration y.1 (dieOf m.agent) p).storeLe (forwardKey y.1 p.key) size v) :=
          .ite (fun _ => (hw v).modDie _ _) fun _ => hw v
        refine ⟨?_, trivial⟩
        dsimp only
        split
        next => exact (hc _ _).modOwner _ _
        next => exact hc _ _

theorem atomPad_keeps (size : Nat) (f : Word → Conv) (a : Word) (n : Fin 512) (off : Nat) : KeepsWf (atomPad size f a n off) := by
  intro y b z hy hz
  unfold atomPad at hz
  dsimp only at hz
  split at hz
  next => cases hz
  next =>
    split at hz
    next =>
      obtain ⟨-, rfl⟩ := Prod.mk.inj (Except.ok.inj hz)
      exact ⟨hy, trivial⟩
    next =>
      obtain ⟨-, rfl⟩ := Prod.mk.inj (Except.ok.inj hz)
      exact ⟨hy.putPad n off _, trivial⟩

/-- Work that changes nothing. -/
theorem keepsReads {α : Type} {x : Cpm α} (hx : ∀ y a z, x y = .ok (a, z) → z = y) : KeepsWf x :=
  fun y a z hy hz => ⟨hx y a z hz ▸ hy, trivial⟩

theorem keepsPut (m : Mover) (x : Atomed) (ps : List Piece) (bs : List Byte) :
    KeepsWf (fun y => .ok (x, putPieces m y ps bs) : Cpm Atomed) := by
  intro y a z hy hz
  obtain ⟨-, rfl⟩ := Prod.mk.inj (Except.ok.inj hz)
  exact ⟨hy.putPieces m ps bs, trivial⟩

/-- Work that has failed does not go on. -/
theorem keepsStopped {α β : Type} {P : β → Prop} (f : Fail) (g : α → Cpm β) : Keeps P (failC f >>= g) :=
  Keeps.bind (P := fun _ => False) (keepsFail f) fun _ hn => hn.elim

theorem runAtom_keeps (m : Mover) (o : Cx) (fetch : Bool) (c : Cmd) : KeepsWf (runAtom m o fetch c) := by
  unfold runAtom
  refine .ite (fun _ => keepsStopped _ _) fun _ => .ite (fun _ => keepsStopped _ _) fun _ => ?_
  refine keepsState.bind fun s _ => Keeps.bind (P := fun _ => True) (keepsReads fun y ps z hz => ?_) fun ps _ => ?_
  · split at hz
    next => cases hz
    next => exact (Prod.mk.inj (Except.ok.inj hz)).2.symm
  · refine (keepsLift _).bind fun x _ => ?_
    cases x with
    | global va => exact (atomHbm_keeps m _ _ va).bind fun x _ => keepsPut m x ps _
    | pad n off => exact (atomPad_keeps _ _ _ n off).bind fun x _ => keepsPut m x ps _

end Sys2Proof.MemoryForm

/-! # The canonical form of memory: copies, atomics, subscriptions, held CPHs -/

namespace Sys2Proof.MemoryForm

open Sys2Proof.Machine Sys2Proof.Safety

/-- The state that a delivery at a barrier leaves has the canonical form. -/
def WfCounted : Counted → Prop
  | .ok t => Wf t
  | .late t _ => Wf t

section
variable {s : State} (h : Wf s)
include h

/-! ## The end of a copy (08 R234, R253) -/

theorem Wf.addFlagsOf (w : Who) (f : Flags) : Wf (addFlagsOf s w f) := h.modOwner _ _

theorem Wf.lateTo (w : Who) (r : Raised) : Wf (lateTo s w r) := by
  rw [Machine.lateTo]
  exact .ite (fun _ => h.atCore (fun _ hx => hx.addLate r) _) fun _ => .ite (fun _ => h.modOwner _ _) fun _ =>
    h.atCore (fun _ hx => hx.writeRecord _ _) _

theorem Wf.modRun (w : Who) (c : Cmd) (f : CopyRun → CopyRun) : Wf (modRun s w c f) := h.modOwner _ _

theorem Wf.finishRun (w : Who) (r : CopyRun) : Wf (finishRun s w r) := by
  unfold Machine.finishRun
  dsimp only
  generalize ht : Machine.modOwner (Machine.addFlagsOf s w r.flags) w _ = t
  have hw : Wf t := ht ▸ (h.addFlagsOf w _).modOwner w _
  exact .ite (fun _ => Wf.modDie (.ite (fun _ => hw.setCoreAt _ _) fun _ => hw) _ _) fun _ => .ite (fun _ => hw.setCoreAt _ _) fun _ => hw

theorem Wf.countOn (w : Who) (a : Word) (bytes : Nat) : WfCounted (countOn s w a bytes) := by
  unfold Machine.countOn
  split
  next => exact h
  next => exact h
  next n off _ =>
    have hd := h.deliver n off bytes
    split
    next => exact h
    next =>
      split
      next ht => rw [ht] at hd; exact hd
      next ht => rw [ht] at hd; exact hd

theorem Wf.pullArrives (w : Who) (a : Word) : WfCounted (pullArrives s w a) := by
  unfold Machine.pullArrives
  split
  next => exact h
  next => exact h
  next n off _ =>
    split
    next => exact h
    next =>
      split
      next x hx => exact h.arrive (t := x.1) (phase := x.2) hx
      next => exact h

theorem Wf.deliverRun (w : Who) (r : CopyRun) (bytes : Nat) : Wf (deliverRun s w r bytes) := by
  unfold Machine.deliverRun
  dsimp only
  generalize hx : (if r.cmd.vals.getD 4 0 = 0 then Counted.ok s else _) = x
  have hc : WfCounted x := by
    rw [← hx]
    split
    next => exact h
    next =>
      split
      next => exact h.pullArrives _ _
      next => exact h.countOn _ _ _
  cases x with
  | ok t => exact Wf.finishRun (s := t) hc w r
  | late t f => exact (Wf.modRun (s := t) hc _ _ _).lateTo _ _

theorem Wf.settleBlaze (z : Option BlazeRef) (st : BlazeState) (units : Nat) : Wf (settleBlaze s z st units) := by
  unfold Machine.settleBlaze
  split
  next => exact h.modBlaze _ _ _
  next => exact h

theorem Wf.setRunAt (n : Nat) (r : CopyRun) : Wf (setRunAt s n r) := h

theorem Wf.stopRun (n : Nat) (r : CopyRun) (f : Fail) (mpc : Word) : Wf (stopRun s n r f mpc) := by
  unfold Machine.stopRun
  exact .ite (fun _ => (((h.setRunAt _ _).addFlags _).settleBlaze _ _ _).setRunAt _ _) fun _ =>
    (((h.setRunAt _ _).addFlags _).settleBlaze _ _ _).modRegs _

theorem Wf.waitRun (k : Option Nat) : Wf (waitRun s k) := by
  cases k with
  | none => exact h
  | some k => exact h.noteHeld _ _

theorem Wf.writtenRun (n : Nat) (r : CopyRun) (bytes : Nat) : Wf (writtenRun s n r bytes) := by
  unfold Machine.writtenRun
  exact .ite (fun _ => (h.settleBlaze _ _ _).finishRun _ _) fun _ => (h.settleBlaze _ _ _).setRunAt _ _

theorem Wf.reviveBlaze (r : CopyRun) : Wf (reviveBlaze s r) := by
  unfold Machine.reviveBlaze
  split
  next => exact .ite (fun _ => h.settleBlaze _ _ _) fun _ => h
  next => exact h

theorem Wf.runCopy (m : Mover) (c : Cmd) (fuel : Option Nat) (units : Nat) : Wf (runCopy m c (copyPlan m c) fuel units s).s :=
  runCopy_wf m c (copyPlan_keeps m c) fuel units h

theorem Wf.workCopy (n : Nat) (r : CopyRun) (fuel : Option Nat) : Wf (workCopy s n r fuel) := by
  unfold Machine.workCopy
  dsimp only
  generalize Machine.reviveBlaze s r = x, h.reviveBlaze r = hx
  have hr := hx.runCopy (moverOf (whoOf x) r.cmd) r.cmd fuel r.units
  split
  next => exact (hr.setRunAt _ _).writtenRun _ _ _
  next => exact hr.setRunAt _ _
  next => exact (hr.setRunAt _ _).waitRun _
  next => exact (hr.setRunAt _ _).stopRun _ _ _ _

theorem Wf.workAtom (n : Nat) (r : CopyRun) (o : Cx) (fetch : Bool) : Wf (workAtom s n r o fetch) := by
  have ha := runAtom_keeps (moverOf (whoOf s) r.cmd) o fetch r.cmd (s, 0)
  unfold Machine.workAtom
  dsimp only
  split
  next => exact h.stopRun _ _ _ _
  next => exact h.noteHeld _ _
  next => exact h
  next ht => exact Wf.finishRun (ha _ _ h ht).1 _ _
  next t g ht =>
    refine Wf.lateTo ?_ _ _
    exact .ite (fun _ => Wf.modCp (Wf.setRunAt (Wf.addFlags (ha _ _ h ht).1 _) _ _) _) fun _ => Wf.setRunAt (Wf.addFlags (ha _ _ h ht).1 _) _ _

/-! ## Cache commands and the clearing rotation (08 R251, R252) -/

omit h in
theorem eachLine_wf (w : Who) {f : State → Phys → State} (hf : ∀ x p, Wf x → Wf (f x p)) (fuel va hi : Nat) {s : State} (h : Wf s) :
    Wf (eachLine w f fuel va hi s) := by
  induction fuel generalizing va s with
  | zero => exact h
  | succ fuel ih =>
    unfold eachLine
    refine .ite (fun _ => h) fun _ => ih _ ?_
    split
    next =>
      split
      next => exact hf _ _ h
      next => exact h
    next => exact h

theorem Wf.fillLine (d : Fin 8) (ctx : Fin 64) (p : Phys) : Wf (fillLine d ctx s p) := by
  unfold Machine.fillLine
  exact .ite (fun _ => h.modDie _ _) fun _ => h

theorem Wf.dropLine (d : Fin 8) (ctx : Fin 64) (p : Phys) : Wf (dropLine d ctx s p) := h.modDie _ _

theorem Wf.writeBack (p : Phys) : Wf (writeBack s p) := by
  unfold Machine.writeBack
  dsimp only
  split
  next => exact h.modDie _ _
  next => exact h

theorem Wf.workCache (r : CopyRun) {f : State → Phys → State} (hf : ∀ x p, Wf x → Wf (f x p)) : Wf (workCache s r f) :=
  (eachLine_wf _ hf _ _ _ h).finishRun _ _

theorem Wf.enterRrot (n : Nat) (r : CopyRun) : Wf (enterRrot s n r) := by
  unfold Machine.enterRrot
  refine .ite (fun _ => h) fun _ => .ite (fun _ => h.stopRun _ _ _ _) fun _ => ?_
  split
  next => exact h.stopRun _ _ _ _
  next => exact h.modCore _

theorem Wf.failRrot (n : Fin 512) (f : Fail) : Wf (failRrot n f s) := by
  unfold Machine.failRrot
  refine h.atCore (fun x hx => ?_) n
  split
  next => exact hx
  next =>
    dsimp only
    split
    next =>
      split
      next => exact (hx.modCore _).stopRun _ _ _ _
      next => exact hx.modCore _
    next => exact hx.modCore _

theorem Wf.rrotReceive (n : Fin 512) (x : List Byte × Flags) : Wf (rrotReceive s n x) := by
  unfold Machine.rrotReceive
  split
  next => exact h
  next =>
    refine (h.putPad _ _ _).atCore (fun y hy => ?_) n
    dsimp only
    split
    next =>
      split
      next => exact (hy.modCore _).writtenRun _ _ _
      next => exact hy.modCore _
    next => exact hy.modCore _

theorem Wf.exchange (cl : Fin 64) : Wf (exchange cl s) := by
  unfold Machine.exchange
  refine .ite (fun _ => h) fun _ => .ite (fun _ => h.foldl (fun _ n hx => hx.failRrot n _) _) fun _ =>
    .ite (fun _ => h.foldl (fun _ _ hx => hx.failRrot _ _) _) fun _ => ?_
  dsimp only
  split
  next => exact h.failRrot _ _
  next =>
    refine h.foldl (fun x d hx => ?_) _
    split
    next => exact hx.rrotReceive _ _
    next => exact hx

theorem Wf.rrotOver : Wf (rrotOver s) := by
  unfold Machine.rrotOver
  split
  next => exact .ite (fun _ => h.failRrot _ _) fun _ => h
  next => exact h

/-! ## Subscriptions (08 R247, R248) -/

theorem Wf.startSubs (n : Nat) (r : CopyRun) (o : Cx) : Wf (startSubs s n r o) := by
  unfold Machine.startSubs
  refine .ite (fun _ => h.stopRun _ _ _ _) fun _ => ?_
  split
  next => exact h.stopRun _ _ _ _
  next => exact h.noteHeld _ _
  next => exact h
  next d t g ht =>
    have hw : Wf t := (readBytes_keeps _ _ _ (s, 0) d (t, g) h ht).1
    split
    next => exact .ite (fun _ => hw.stopRun _ _ _ _) fun _ => (hw.modCp _).finishRun _ _
    next => exact hw.stopRun _ _ _ _

theorem Wf.endSubs (n : Nat) (r : CopyRun) : Wf (endSubs s n r) := by
  unfold Machine.endSubs
  dsimp only
  split
  next => exact (h.modCp _).finishRun _ _
  next => exact h.stopRun _ _ _ _

theorem Wf.tileFault (b : Subscription) (f : Fail) : Wf (tileFault s b f) := h

omit h in
theorem tilePlan_keeps (m : Mover) (b : Subscription) : Keeps PlanOk (tilePlan m b) := by
  unfold tilePlan
  exact (copyPlan_keeps m _).bind fun p hp => (keepsCheck _).bind fun _ _ => .pure hp

theorem Wf.deliverTile (id : Fin 8) : Wf (deliverTile id s) := by
  have hr (b : Subscription) : Wf (Machine.runCopy (moverOf (whoOf s) (tileCmd b)) (tileCmd b)
      (tilePlan (moverOf (whoOf s) (tileCmd b)) b) none 0 s).s := runCopy_wf _ _ (tilePlan_keeps _ b) none 0 h
  have hc (x : State) (a : Word) (n : Nat) (hx : Wf x) : WfCounted (Machine.countOn x (whoOf x) a n) := hx.countOn _ a n
  unfold Machine.deliverTile
  -- names for what is matched on: the kernel would evaluate it when it compares two forms of the goal
  obtain ⟨asks, hasks⟩ : ∃ f, f = slotAsks := ⟨_, rfl⟩
  obtain ⟨counted, hcounted⟩ : ∃ f, f = Machine.countOn := ⟨_, rfl⟩
  obtain ⟨run, hrun⟩ : ∃ f, f = Machine.runCopy := ⟨_, rfl⟩
  rw [← hcounted] at hc ⊢
  rw [← hrun] at hr ⊢
  rw [← hasks]
  split
  next b t _ _ _ =>
    refine .ite (fun _ => h) fun _ => ?_
    dsimp only
    split
    next => exact h.tileFault _ _
    next => exact h
    next =>
      split
      next => exact h
      next => exact h.waitRun _
      next => exact ((hr b).addFlags _).tileFault _ _
      next =>
        split
        next u hu =>
          have hd : WfCounted (.ok u) := by
            rw [← hu]
            exact hc _ _ _ (((hr b).addFlags _).modCp _)
          exact hd
        next u f hu =>
          have hd : WfCounted (.late u f) := by
            rw [← hu]
            exact hc _ _ _ (((hr b).addFlags _).modCp _)
          exact (Wf.modCp (s := u) hd _).lateTo _ _
  next => exact h

end

end Sys2Proof.MemoryForm

/-! # The canonical form of memory: held CPHs, the work of the copy engines and their steps -/

namespace Sys2Proof.MemoryForm

open Sys2Proof.Machine Sys2Proof.Safety

section
variable {s : State} (h : Wf s)
include h

/-! ## Held CPHs (07 R195, R196) -/

theorem Wf.replaceHold (d : Fin 8) (a b : HoldEnt) : Wf (replaceHold s d a b) := h.modDie _ _

theorem Wf.watchAll (l : List (BlazeRef × BitVec 24)) : Wf (watchAll s l) := by
  refine h.foldl (fun x b hx => ?_) l
  split
  next => exact hx.modBlaze _ _ _
  next => exact hx

theorem Wf.sendCph (n : Nat) (r : CopyRun) : Wf (sendCph s n r) := by
  unfold Machine.sendCph
  refine .ite (fun _ => h.workCopy n r none) fun _ => ?_
  dsimp only
  split
  next => exact h.stopRun _ _ _ _
  next => exact h.noteHeld _ _
  next => exact h
  next p t g ht =>
    have hw : Wf t := (copyPlan_keeps _ _ (s, 0) p (t, g) h ht).1
    exact ((hw.watchAll _).setRunAt _ _).modDie _ _

theorem Wf.discardHold (d : Fin 8) (k : HoldEnt) : Wf (discardHold s d k) := by
  unfold Machine.discardHold
  exact (((h.dropHold d k).modRun _ _ _).lateTo _ _).unwatchAll k

theorem Wf.performHold (d : Fin 8) (k : HoldEnt) : Wf (performHold s d k) := by
  unfold Machine.performHold
  refine .ite (fun _ => h) fun _ => ?_
  have hr := (h.dropHold d k).runCopy (moverOf k.who k.cmd) k.cmd none 0
  dsimp only
  split
  next =>
    exact .ite (fun _ => hr.finishRun _ _) fun _ => .ite (fun _ => hr.modRun _ _ _) fun _ => hr.deliverRun _ _ _
  next => exact ((hr.addFlagsOf _ _).modRun _ _ _).lateTo _ _
  next => exact h

theorem Wf.answerHold (kinds : Bool → Bool) (d : Fin 8) (k : HoldEnt) : Wf (answerHold kinds s d k) := by
  unfold Machine.answerHold
  refine .ite (fun _ => h) fun _ => .ite (fun _ => ?_) fun _ => .ite (fun _ => ?_) fun _ => ?_
  · exact ((h.replaceHold _ _ _).discardHold _ _).foldl (fun _ _ hx => hx.unwatch _) _
  · exact Wf.performHold ((h.replaceHold _ _ _).foldl (fun _ _ hx => hx.unwatch _) _) _ _
  · exact (h.replaceHold _ _ _).foldl (fun _ _ hx => hx.unwatch _) _

theorem Wf.arriveHold (d : Fin 8) (k : HoldEnt) : Wf (arriveHold s d k).1 := by
  unfold Machine.arriveHold
  split
  next => exact h.replaceHold _ _ _
  next => exact h

theorem Wf.sendWatch (d : Fin 8) (k : HoldEnt) : Wf (sendWatch s d k).1 := by
  unfold Machine.sendWatch
  split
  next => exact h.replaceHold _ _ _
  next => exact h

theorem Wf.advanceHolds : Wf (advanceHolds s) := by
  refine h.foldl (fun x d hx => hx.foldl (fun y k hy => ?_) _) _
  have ha : Wf (if k.since.isNone then Machine.arriveHold y d k else (y, k)).1 := by
    split
    next => exact hy.arriveHold d k
    next => exact hy
  exact (ha.sendWatch _ _).answerHold _ _ _

/-! ## The engines (08 R229) -/

theorem Wf.workRun (n : Nat) (fuel : Option Nat) : Wf (workRun s n fuel) := by
  unfold Machine.workRun
  split
  next => exact h
  next r _ =>
    extract_lets go
    have hw : Wf go := by
      dsimp only [go]
      split
      next => exact h.workAtom _ _ _ _
      next => exact h.workAtom _ _ _ _
      next => exact h.startSubs _ _ _
      next => exact h.endSubs _ _
      next => exact h.enterRrot _ _
      next => exact h.workCache r fun _ p hx => hx.fillLine _ _ p
      next => exact h.workCache r fun _ p hx => hx.dropLine _ _ p
      next => exact h.workCache r fun _ p hx => hx.writeBack p
      next => exact .ite (fun _ => h.workCopy _ _ _) fun _ => h.sendCph _ _
    split
    next => exact hw
    next => exact .ite (fun _ => hw) fun _ => h
    next => exact .ite (fun _ => h) fun _ => h.deliverRun _ _ _
    next => exact h

theorem Wf.placeBlaze {c : Cmd} {z : Fin 16} {x : State × BlazeRef} (hx : placeBlaze s c z = some x) : Wf x.1 := by
  unfold Machine.placeBlaze at hx
  dsimp only at hx
  split at hx
  next =>
    obtain rfl := Option.some.inj hx
    exact ((h.dropZ z).modDie _ _).modOrd _
  next => cases hx

theorem Wf.handOver {c : Cmd} {t : State} (ht : handOver s c = some t) : Wf t := by
  unfold Machine.handOver at ht
  dsimp only at ht
  split at ht
  next =>
    obtain rfl := Option.some.inj ht
    exact h.modCp _
  next =>
    split at ht
    next =>
      obtain rfl := Option.some.inj ht
      exact h.modCp _
    next =>
      obtain ⟨x, hx, rfl⟩ := Option.map_eq_some_iff.mp ht
      exact (h.placeBlaze hx).modCp _
  next =>
    obtain rfl := Option.some.inj ht
    exact h.modCp _
  next =>
    obtain rfl := Option.some.inj ht
    exact h.modCp _

theorem Wf.portHand : Wf (portHand s) := by
  unfold Machine.portHand
  split
  next c cs _ =>
    refine .ite (fun _ => h) fun _ => ?_
    cases ht : Machine.handOver (s.modCp fun p => { p with queue := cs }) c with
    | none => exact h
    | some t => exact (h.modCp _).handOver ht
  next => exact h

omit h in
theorem workFrom_wf (n : Nat) {s : State} (h : Wf s) : Wf (workFrom n s) := by
  induction n generalizing s with
  | zero => exact h
  | succ n ih =>
    unfold workFrom
    refine ih ?_
    split
    next => exact .ite (fun _ => h.workRun _ _) fun _ => h
    next => exact h

theorem Wf.cpStep : Wf (cpStep s) := by
  unfold Machine.cpStep
  refine .ite (fun _ => h) fun _ => workFrom_wf _ (Wf.foldl (fun x i hx => hx.deliverTile i) (Wf.advanceHolds ?_) _)
  have hb := workFrom_wf (Machine.portHand s).cp.copies.length h.portHand
  exact .ite (fun _ => hb.exchange _) fun _ => hb

/-! ## Dispatch (08 R229, R230) -/

theorem Wf.queueCp (c : Cmd) : Wf (queueCp c s) := by
  unfold Machine.queueCp
  exact .ite (fun _ => h.holds) fun _ => .ite (fun _ => (h.retire.modCp _).cpStep) fun _ => h.retire.modCp _

theorem Wf.takePlace (o : Cx) : Wf (takePlace o s) := h.modCp _

theorem Wf.dispatchCp (i : Instr) (o : Cx) : WfOut (dispatchCp i o s) := by
  unfold Machine.dispatchCp
  exact Wf.next (.ite (fun _ => h.holds) fun _ => .ite (fun _ => h.trap _) fun _ => .ite (fun _ => h.holds) fun _ =>
    .ite (fun _ => h.illegal) fun _ => (h.takePlace o).queueCp _)

theorem Wf.execSetb (o : Se) : WfOut (execSetb o s) := by
  unfold Machine.execSetb
  refine Wf.next (.ite (fun _ => h.holds) fun _ => ?_)
  dsimp only
  split
  next => exact h.queueVe _
  next => exact h.queueMe _
  next => exact h.queueCp _

/-! ## Steps of the engines (07 R180, R200, 08 R248, R253) -/

theorem Wf.copyComplete (n : Nat) : Wf (copyComplete n s) := by
  unfold Machine.copyComplete
  split
  next => exact .ite (fun _ => .ite (fun _ => h.workRun _ _) fun _ => h) fun _ => h
  next => exact h

theorem Wf.deliverStep (n : Nat) : Wf (deliverStep n s) := by
  unfold Machine.deliverStep
  split
  next =>
    split
    next => exact h.workRun _ _
    next => exact h
  next => exact h

theorem Wf.atomStep (n : Nat) : Wf (atomStep n s) := by
  unfold Machine.atomStep
  split
  next =>
    split
    next => exact .ite (fun _ => h.workRun _ _) fun _ => h
    next => exact .ite (fun _ => h.workRun _ _) fun _ => h
    next => exact h
  next => exact h

theorem Wf.settleEntry (die : Fin 8) (entry : Fin 4096) (st : BlazeState) : Wf (settleEntry die entry st s) := by
  unfold Machine.settleEntry
  split
  next => exact h
  next b _ =>
    refine .ite (fun _ => .ite (fun _ => h.atCore (fun x hx => ?_) b.agent) fun _ => h) fun _ => h
    split
    next =>
      split
      next => exact .ite (fun _ => hx.workRun _ _) fun _ => hx
      next => exact hx
    next => exact hx

theorem Wf.registerCph (n : Nat) : Wf (registerCph n s) := by
  unfold Machine.registerCph
  split
  next =>
    split
    next => exact .ite (fun _ => h) fun _ => h.sendCph _ _
    next => exact h
  next => exact h

theorem Wf.execCphArrival (core : Fin 512) (n : Nat) : WfOut (execCphArrival core n s) := by
  unfold Machine.execCphArrival
  refine Wf.next ?_
  split
  next => exact h.arriveHold _ _
  next => exact h

theorem Wf.withHold (die : Fin 8) (n : Nat) {f : HoldEnt → State → State} (hf : ∀ k, Wf (f k s)) : Wf (withHold die n f s) := by
  unfold Machine.withHold
  split
  next k _ => exact hf k
  next => exact h

theorem Wf.execHoldlimExpiry (die : Fin 8) (n : Nat) : WfOut (execHoldlimExpiry die n s) :=
  (h.withHold die n fun _ => .ite (fun _ => h.discardHold _ _) fun _ => h).next

end

end Sys2Proof.MemoryForm

/-! # The canonical form of memory: fabric, firmware and resets -/

namespace Sys2Proof.MemoryForm

open Sys2Proof.Machine Sys2Proof.Safety

section
variable {s : State} (h : Wf s)
include h

/-! ## Packets (07 R190, 09 R284-R289) -/

theorem Wf.setPkt (p : Packet) : Wf (setPkt s p) := h

theorem Wf.launchPkt (p : Packet) : Wf (launchPkt s p) := by
  unfold Machine.launchPkt
  dsimp only
  split
  next => exact h.setPkt _
  next => exact .ite (fun _ => (h.setPkt _).modDie _ _) fun _ => h.setPkt _

theorem Wf.injectPkt (src dst : BitVec 15) (tc : Fin 4) (bytes answer : Nat) (marked : Bool) (answers : Option Nat) :
    Wf (injectPkt s src dst tc bytes answer marked answers) := by
  unfold Machine.injectPkt
  dsimp only
  split
  next =>
    refine Wf.launchPkt ?_ _
    exact h
  next => exact h

theorem Wf.execInjectionLimitRelease (packet : Nat) : WfOut (execInjectionLimitRelease packet s) := by
  unfold Machine.execInjectionLimitRelease
  refine Wf.next ?_
  split
  next => exact .ite (fun _ => h.launchPkt _) fun _ => h
  next => exact h

theorem Wf.deliverPkt (p : Packet) : Wf (deliverPkt s p) := by
  unfold Machine.deliverPkt
  split
  next => exact (h.setPkt _).injectPkt _ _ _ _ _ _ _
  next => exact h

theorem Wf.execMarkedResponse (die : Fin 8) (peer : BitVec 15) : WfOut (execMarkedResponse die peer s) := by
  unfold Machine.execMarkedResponse
  refine Wf.next ?_
  split
  next => exact h
  next => exact h

theorem Wf.execEntropyQuietPoint (die : Fin 8) (peer : BitVec 15) : WfOut (execEntropyQuietPoint die peer s) :=
  Wf.next (.ite (fun _ => h.modDie _ _) fun _ => h)

theorem Wf.refusePkt (p : Packet) : Wf (refusePkt s p) := h.foldl (fun _ _ hx => .ite (fun _ => hx) fun _ => hx.setPkt _) _

theorem Wf.execRingSlotArrival (packet : Nat) (takes : Bool) : WfOut (execRingSlotArrival packet takes s) := by
  unfold Machine.execRingSlotArrival
  refine Wf.next ?_
  split
  next =>
    split
    next =>
      refine .ite (fun _ => h.deliverPkt _) fun _ => .ite (fun _ => h.setPkt _) fun _ => ?_
      refine .ite (fun _ => .ite (fun _ => Wf.setPkt ?_ _) fun _ => h.refusePkt _) fun _ => h.setPkt _
      exact h
    next => exact h
  next => exact h

theorem Wf.execOverflowStoreDrain (die : Fin 8) (tc : Fin 4) : WfOut (execOverflowStoreDrain die tc s) := by
  unfold Machine.execOverflowStoreDrain
  refine Wf.next ?_
  split
  next => exact h.deliverPkt _
  next => exact h

theorem Wf.execResendBackoffExpiry (packet : Nat) : WfOut (execResendBackoffExpiry packet s) := by
  unfold Machine.execResendBackoffExpiry
  refine Wf.next ?_
  split
  next =>
    split
    next =>
      refine .ite (fun _ => h.foldl (fun x q hx => ?_) _) fun _ => h
      split
      next => exact hx.setPkt _
      next => exact hx
    next => exact h
  next => exact h

theorem Wf.touchHead (p : Packet) : Wf (touchHead s p) := by
  unfold Machine.touchHead
  split
  next =>
    split
    next => exact h.setPkt _
    next => exact h
  next => exact h

theorem Wf.execTorusHop (packet : Nat) (full : Bool) : WfOut (execTorusHop packet full s) := by
  unfold Machine.execTorusHop
  refine Wf.next ?_
  split
  next =>
    split
    next =>
      refine .ite (fun _ => h) fun _ => ?_
      split
      next => exact (h.setPkt _).touchHead _
      next => exact (h.setPkt _).touchHead _
    next => exact h
  next => exact h

theorem Wf.execLinkFlitRetransmit (packet : Nat) : WfOut (execLinkFlitRetransmit packet s) := by
  unfold Machine.execLinkFlitRetransmit
  refine Wf.next ?_
  split
  next => exact h.setPkt _
  next => exact h

theorem Wf.execDlrMove (packet : Nat) : WfOut (execDlrMove packet s) := by
  unfold Machine.execDlrMove
  refine Wf.next ?_
  split
  next =>
    split
    next =>
      refine .ite (fun _ => Wf.modDie (Wf.touchHead (h.foldl (fun x q hx => ?_) _) _) _ _) fun _ => h
      exact .ite (fun _ => hx.setPkt _) fun _ => hx
    next => exact h
  next => exact h

theorem Wf.flitFails (packet : Nat) : Wf (flitFails s packet) := by
  unfold Machine.flitFails
  split
  next => exact .ite (fun _ => h.setPkt _) fun _ => h
  next => exact h

/-! ## The mailbox and the start of firmware (01 R27, 11 R327) -/

theorem Wf.setMbox (off v : Nat) : Wf (setMbox s off v) := h.storeLe _ _ _

theorem Wf.signal (v : Nat) : Wf (s.signal v) := h

theorem Wf.execMailboxTailWrite (val : BitVec 32) : WfOut (execMailboxTailWrite val s) := by
  have ht : Wf (if 510 ≤ val.toNat then Machine.setMbox s mboxErr 1 else Machine.setMbox s mboxTail val.toNat) :=
    .ite (fun _ => h.setMbox _ _) fun _ => h.setMbox _ _
  unfold Machine.execMailboxTailWrite
  exact Wf.next (ht.of_mem rfl)

theorem Wf.failBoot (err : Nat) : Wf (failBoot s err) := Wf.of_mem ((h.setMbox _ _).signal 0) rfl

theorem Wf.execPowerOn (board : BoardInfo) : WfOut (execPowerOn board s) := by
  unfold Machine.execPowerOn
  refine Wf.next (.ite (fun _ => h) fun _ => .ite (fun _ => ?_) fun _ => .ite (fun _ => ?_) fun _ => ?_)
  · refine Wf.failBoot ?_ _
    exact h
  · refine Wf.failBoot ?_ _
    exact h
  · refine Wf.of_mem (s := Machine.setMbox _ mboxAck 0) (Wf.setMbox ?_ _ _) rfl
    exact h

theorem Wf.startFirmware : Wf (startFirmware s) := by
  unfold Machine.startFirmware
  extract_lets k n img t u
  have ht : Wf t := h.foldl (fun x d hx => hx.store _ _) _
  have hu : Wf u := ((ht.setMbox _ _).setMbox _ _).setMbox _ _
  exact hu.of_mem rfl

theorem Wf.takePiece (i : Nat) (last : Bool) : Wf (takePiece s i last) := by
  unfold Machine.takePiece
  extract_lets body n t b u
  have ht : Wf t := (h.store _ _).setMbox _ _
  have hu : Wf u := ht.of_mem rfl
  clear_value u body
  exact .ite (fun _ => h.failBoot _) fun _ => .ite (fun _ => hu) fun _ => .ite (fun _ => hu.startFirmware) fun _ => hu.failBoot _

theorem Wf.execFirmwarePiece (piece : BitVec 32) : WfOut (execFirmwarePiece piece s) := by
  unfold Machine.execFirmwarePiece
  dsimp only
  generalize hu : Machine.setMbox s mboxPiece piece.toNat = u
  have hw : Wf u := hu ▸ h.setMbox _ _
  refine Wf.next (.ite (fun _ => ?_) fun _ => .ite (fun _ => Wf.failBoot ?_ _) fun _ => Wf.takePiece ?_ _ _)
  · exact hw
  · exact hw
  · exact hw

/-! ## Launches and attestation (03 R63-R65, 09 R281, 11 R331) -/

theorem Wf.setStatus (slot st : Nat) : Wf (setStatus s slot st) := h.storeLe _ _ _

theorem Wf.takeRecord {t : State} {slot : Nat} {r : List Byte} (ht : takeRecord s = some (t, slot, r)) : Wf t := by
  unfold Machine.takeRecord at ht
  dsimp only at ht
  split at ht
  next => cases ht
  next =>
    obtain ⟨rfl, -⟩ := Prod.mk.inj (Option.some.inj ht)
    exact h.setMbox _ _

theorem Wf.placeRoot (mask : BitVec 8) (t : Task) : Wf (placeRoot s mask t) := by
  unfold Machine.placeRoot
  refine .ite (fun _ => h.placeOn _ _ _) fun _ => ?_
  dsimp only
  split
  next => exact .ite (fun _ => h.placeOn _ _ _) fun _ => h.placeOn _ _ _
  next => exact h.placeOn _ _ _

theorem Wf.admitRoot (mask : BitVec 8) (wait : Bool) (t : Task) : Wf (admitRoot mask wait s t) := by
  unfold Machine.admitRoot
  exact .ite (fun _ => h.withJoin t) fun _ => (h.withJoin t).placeRoot _ _

theorem Wf.settleLaunch (n : Nat) (l : Launch) : Wf (settleLaunch s n l) := by
  unfold Machine.settleLaunch
  extract_lets j k t
  have ht : Wf t := (((h.storeLe _ _ _).storeLe _ _ _).storeLe _ _ _).setStatus _ _
  clear_value t
  exact ht

theorem Wf.acceptRecord (slot : Nat) (r : List Byte) (o : CodeObj) : Wf (acceptRecord s slot r o) := by
  unfold Machine.acceptRecord
  extract_lets j l n t x u ts v
  have hx : Wf x := h
  clear_value x
  have hu : Wf u := by
    refine Wf.setStatus ?_ _ _
    exact hx
  clear_value u
  have hv : Wf v := hu
  exact .ite (fun _ => hu.settleLaunch _ _) fun _ => hv.foldl (fun y e hy => hy.admitRoot _ _ e) _

theorem Wf.rejectRecord (slot st : Nat) (r : List Byte) : Wf (rejectRecord s slot st r) := (h.setStatus _ _).signal _

theorem Wf.execLaunchRecord : WfOut (execLaunchRecord s) := by
  unfold Machine.execLaunchRecord
  refine Wf.next ?_
  split
  next => exact h
  next ht =>
    refine .ite (fun _ => h) fun _ => ?_
    split
    next => exact (h.takeRecord ht).rejectRecord _ _ _
    next => exact (h.takeRecord ht).acceptRecord _ _ _

theorem Wf.execLaunchComplete (launch : Nat) : WfOut (execLaunchComplete launch s) := by
  unfold Machine.execLaunchComplete
  refine Wf.next ?_
  split
  next => exact .ite (fun _ => h.settleLaunch _ _) fun _ => h
  next => exact h

theorem Wf.execSuccessorRootPlace (launch : Nat) : WfOut (execSuccessorRootPlace launch s) := by
  unfold Machine.execSuccessorRootPlace
  refine Wf.next ?_
  split
  next =>
    refine .ite (fun _ => h.foldl (fun x e hx => Wf.placeRoot ?_ _ _) _) fun _ => h
    exact hx
  next => exact h

omit h in
theorem writeVa_wf (ctx : Fin 64) (fuel va : Nat) (bs : List Byte) {s : State} (h : Wf s) : Wf (writeVa s ctx fuel va bs) := by
  induction fuel generalizing s va bs with
  | zero => exact h
  | succ fuel ih =>
    unfold writeVa
    refine .ite (fun _ => h) fun _ => ?_
    dsimp only
    split
    next => exact ih _ _ (h.store _ _)
    next => exact h

theorem Wf.execAttestRecord : WfOut (execAttestRecord s) := by
  unfold Machine.execAttestRecord
  refine Wf.next ?_
  split
  next => exact h
  next ht =>
    refine .ite (fun _ => h) fun _ => ?_
    split
    next => exact (h.takeRecord ht).rejectRecord _ _ _
    next => exact ((writeVa_wf _ _ _ _ (h.takeRecord ht)).setStatus _ _).signal _

/-! ## Resets (12 R359-R361) -/

theorem Wf.resetCore (n : Fin 512) : Wf (resetCore s n) := (h.setCoreAt _ _).clearCore n

theorem Wf.failRunning (n : Fin 512) : Wf (failRunning s n) := by
  refine h.atCore (fun x hx => ?_) n
  split
  next => exact (hx.parkAnswered _).endTask _ _ _
  next => exact hx

theorem Wf.failTasks (d : Fin 8) : Wf (failTasks s d) :=
  Wf.foldl (fun _ _ hx => hx.discardParked _ _) (h.foldl (fun _ n hx => hx.failRunning n) _) _

theorem Wf.failWatchers (d : Fin 8) : Wf (failWatchers s d) :=
  h.foldl (fun _ _ hx => hx.foldl (fun _ _ hy => (hy.replaceHold _ _ _).discardHold _ _) _) _

theorem Wf.discardHolds (d : Fin 8) : Wf (discardHolds s d) := h.foldl (fun _ k hx => hx.discardHold d k) _

theorem Wf.migTimeout (held : Fin 512 × Engine × Nat) : Wf (migTimeout s held) := by
  unfold Machine.migTimeout
  refine h.atCore (fun x hx => ?_) held.1
  dsimp only
  split
  next =>
    split
    next =>
      split
      next => exact (hx.modOrd _).portFault _ _
      next => exact hx
    next => exact hx
  next =>
    split
    next => exact .ite (fun _ => hx) fun _ => hx.veStop _
    next => exact hx
  next =>
    split
    next =>
      split
      next => exact hx.stopRun _ _ _ _
      next => exact hx
    next => exact hx
  next => exact hx

theorem Wf.abandonMigrations (d : Fin 8) : Wf (abandonMigrations s d) := (h.foldl (fun _ k hx => hx.migTimeout k) _).modDie _ _

theorem Wf.loseCache (d : Fin 8) : Wf (loseCache s d) :=
  List.foldlRecOn (motive := fun m => Memory.wf m = true) _ _ h fun _ hm _ _ => memSetList_wf hm _ _

theorem Wf.resetDie (d : Fin 8) : Wf (resetDie s d) := by
  unfold Machine.resetDie
  refine Wf.foldl (fun _ n hx => hx.resetCore n) (Wf.modDie ?_ _ _) _
  exact ((((h.failTasks d).failWatchers d).discardHolds d).abandonMigrations d).loseCache d

omit h in
theorem resetPackage_wf (s : State) : Wf (resetPackage s) := reset_mem_wf

theorem Wf.resetDieOrPackage (d : Fin 8) : Wf (resetDieOrPackage s d) := by
  unfold Machine.resetDieOrPackage
  exact .ite (fun _ => resetPackage_wf s) fun _ => h.resetDie d

theorem Wf.watchdogExpires (d : Fin 8) : Wf (watchdogExpires s d) := by
  unfold Machine.watchdogExpires
  exact .ite (fun _ => h.resetDieOrPackage d) fun _ => (h.modDie _ _).signal 0

theorem Wf.execWdogPet (o : Sa) : WfOut (execWdogPet o s) := h.privileged (h.modDie _ _).retire.next

theorem Wf.execWdogExpire (o : Sa) : WfOut (execWdogExpire o s) := h.privileged (h.retire.watchdogExpires _).next

theorem Wf.execWdogCorerst (o : Sa) : WfOut (execWdogCorerst o s) := by
  unfold Machine.execWdogCorerst
  refine h.privileged (Wf.sccOp h ?_ _)
  exact .ite (fun _ => h.illegal) fun _ => h.retire.resetCore _

theorem Wf.execWdogDierst (o : Sa) : WfOut (execWdogDierst o s) := by
  unfold Machine.execWdogDierst
  refine h.privileged (Wf.sccOp h ?_ _)
  exact .ite (fun _ => h.illegal) fun _ => h.retire.resetDieOrPackage _

theorem Wf.execWatchdogExpiry (die : Fin 8) : WfOut (execWatchdogExpiry die s) :=
  Wf.next (.ite (fun _ => h.watchdogExpires _) fun _ => h)

theorem Wf.execScrubPass (die : Fin 8) (line : Nat) (found : EccFinding) : WfOut (execScrubPass die line found s) := by
  unfold Machine.execScrubPass
  refine Wf.next (.ite (fun _ => h) fun _ => ?_)
  cases found with
  | clean => exact h
  | corrected => exact h.modDie _ _
  | uncorrectable => exact h.poisonKey _ _

theorem Wf.execIllegalEncoding (bad : BadWord) : WfOut (execIllegalEncoding bad s) := by
  unfold Machine.execIllegalEncoding
  refine Wf.next ?_
  split
  next => exact h.trap _
  next => exact h.illegal

end

end Sys2Proof.MemoryForm

/-! # The canonical form of memory: accesses in flight, migrations and the schedulers -/

namespace Sys2Proof.MemoryForm

open Sys2Proof.Machine Sys2Proof.Safety

section
variable {s : State} (h : Wf s)
include h

/-! ## Accesses of the SCC (07 R174, R181, 08 R219) -/

theorem Wf.checkAccess (f : Flight) {go : State → State} (hg : Wf (go s)) : Wf (checkAccess s f go) := by
  unfold Machine.checkAccess
  refine .ite (fun _ => h.trap _) fun _ => ?_
  split
  next => exact h.trap _
  next => exact .ite (fun _ => h.holds) fun _ => hg
  next => exact hg

theorem Wf.issueAccess (f : Flight) : Wf (issueAccess s f) :=
  h.checkAccess f (.ite (fun _ => h.retire.performFlight _) fun _ => h.retire.modOrd _)

theorem Wf.accessOp (o : Sm) (size : Nat) (store signed : Bool) : WfOut (accessOp o size store signed s) := h.sccOp (h.issueAccess _) _

theorem Wf.execLda (o : Sm) : WfOut (execLda o s) := by
  unfold Machine.execLda
  refine Wf.sccOp h ?_ _
  refine h.checkAccess _ ?_
  have hp := h.portAccess { smFlight o 8 false false s with acq := true }
  split
  next hz => rw [hz] at hp; exact (Wf.retire hp).setS _ _
  next => exact h.retire.portFault _ _
  next hz => rw [hz] at hp; exact Wf.holds hp

theorem Wf.execStl (o : Sm) : WfOut (execStl o s) := by
  unfold Machine.execStl
  refine Wf.sccOp h ?_ _
  refine .ite (fun _ => h.holds) fun _ => h.checkAccess _ ?_
  exact .ite (fun _ => h.retire.performFlight _) fun _ => h.retire.modOrd _

theorem Wf.execWaitw (o : Sw) : WfOut (execWaitw o s) := Wf.next (.ite (fun _ => h.retire) fun _ => h.holds)

theorem Wf.execFence (o : Sn) : WfOut (execFence o s) := Wf.next (.ite (fun _ => h.retire) fun _ => h.holds)

theorem Wf.portStep (n : Nat) : Wf (portStep n s) := by
  unfold Machine.portStep
  split
  next => exact h
  next f _ =>
    refine .ite (fun _ => h) fun _ => ?_
    have hp := h.portAccess f
    split
    next hz => rw [hz] at hp; exact Wf.modOrd hp _
    next => exact h
    next hz => rw [hz] at hp; exact hp

theorem Wf.acknowledge (n : Nat) : Wf (acknowledge n s) := by
  unfold Machine.acknowledge
  split
  next => exact h
  next =>
    split
    next => exact h
    next => exact .ite (fun _ => h.modOrd _) fun _ => (h.modOrd _).setS _ _

theorem Wf.learnFault (n : Nat) : Wf (learnFault n s) := by
  unfold Machine.learnFault
  split
  next => exact h
  next =>
    refine .ite (fun _ => h) fun _ => ?_
    split
    next => exact (h.modOrd _).portFault _ _
    next => exact h

theorem Wf.settleFlight (f : Flight) : Wf (settleFlight s f) := by
  unfold Machine.settleFlight
  split
  next => exact .ite (fun _ => h) fun _ => h.setS _ _
  next => exact h.performFlight f

theorem Wf.settleFlights : Wf (settleFlights s) := (h.modOrd _).foldl (fun _ f hx => hx.settleFlight f) _

theorem Wf.sendRelease : Wf (sendRelease s) := by
  unfold Machine.sendRelease
  split
  next => exact h
  next => exact .ite (fun _ => .ite (fun _ => h.sendBararr _) fun _ => (h.modOrd _).performFlight _) fun _ => h

theorem Wf.retryPeer (n : Nat) : Wf (retryPeer n s) := by
  unfold Machine.retryPeer
  split
  next => exact h
  next f _ =>
    split
    next =>
      refine .ite (fun _ => h) fun _ => ?_
      have hp := h.portAccess f
      split
      next hz => rw [hz] at hp; exact Wf.modOrd hp _
      next => exact (h.modOrd _).portFault _ _
      next hz => rw [hz] at hp; exact hp
    next => exact h

/-! ## Migrations (11 R323, R324) -/

theorem Wf.setMig (d : Fin 8) (key : Nat) (f : Migration → Option Migration) : Wf (setMig s d key f) := h.modDie _ _

theorem Wf.resetCounts (d : Fin 8) (page : Nat) : Wf (resetCounts s d page) := h.modDie _ _

theorem Wf.popFrame {d : Fin 8} {t : State} {f : Nat} (ht : popFrame s d = some (t, f)) : Wf t := by
  unfold Machine.popFrame at ht
  obtain ⟨k, -, hk⟩ := Option.bind_eq_some_iff.mp ht
  dsimp only at hk
  split at hk
  next => cases hk
  next =>
    obtain ⟨rfl, -⟩ := Prod.mk.inj (Option.some.inj hk)
    exact h.storeLe _ _ _

theorem Wf.pushFrame (d : Fin 8) (f : Nat) : Wf (pushFrame s d f) := by
  unfold Machine.pushFrame
  split
  next => exact h
  next => exact .ite (fun _ => (h.storeLe _ _ _).storeLe _ _ _) fun _ => h.storeLe _ _ _

theorem Wf.beginMig (d : Fin 8) (key : Nat) : Wf (beginMig s d key) := by
  unfold Machine.beginMig
  split
  next => exact h
  next => exact h.modDie _ _

theorem Wf.copyPage (src dst : Nat) : Wf (copyPage s src dst) := by
  unfold Machine.copyPage
  extract_lets t bad
  have ht : Wf t := h.store _ _
  clear_value t bad
  exact ht.of_mem rfl

theorem Wf.movePage (d : Fin 8) (m : Migration) : Wf (movePage s d m) := by
  unfold Machine.movePage
  split
  next ht _ => exact (((h.popFrame ht).copyPage _ _).storeLe _ _ _).setMig _ _ _
  next => exact (h.setMig _ _ _).resetCounts _ _

theorem Wf.execMigration (die : Fin 8) (page : Nat) : WfOut (execMigration die page s) := by
  unfold Machine.execMigration
  refine Wf.next ?_
  split
  next => exact h.beginMig _ _
  next => exact .ite (fun _ => h) fun _ => h.movePage _ _

theorem Wf.endMig (d : Fin 8) (m : Migration) : Wf (endMig s d m) := ((h.setMig _ _ _).pushFrame _ _).resetCounts _ _

theorem Wf.shootDown (d : Fin 8) (ctx : Fin 64) (page : Nat) : Wf (shootDown s d ctx page) := h

theorem Wf.execShootdownAck (die by_ : Fin 8) : WfOut (execShootdownAck die by_ s) := by
  unfold Machine.execShootdownAck
  refine Wf.next ?_
  split
  next => exact h
  next => exact .ite (fun _ => (h.shootDown _ _ _).endMig _ _) fun _ => (h.shootDown _ _ _).setMig _ _ _

theorem Wf.execMigholdExpiry (die : Fin 8) (n : Nat) : WfOut (execMigholdExpiry die n s) := by
  unfold Machine.execMigholdExpiry
  refine Wf.next ?_
  split
  next => exact h
  next => exact .ite (fun _ => (h.migTimeout _).setMig _ _ _) fun _ => h

/-! ## Work for idle cores (09 R261-R267) -/

theorem Wf.takeEnt (e : TaskEnt) : Wf (takeEnt s e) := h

theorem Wf.passOver (n : Fin 512) : Wf (passOver s n) := h

theorem Wf.failImage (n : Fin 512) (e : TaskEnt) (c : Cause) : Wf (failImage s n e c) :=
  h.atCore (fun _ hx => (hx.writeRecord _ _).discardParked _ _) n

theorem Wf.startOn (n : Fin 512) (e : TaskEnt) : Wf (startOn s n e) := by
  unfold Machine.startOn
  split
  next => exact ((h.takeEnt e).atCore (fun _ hx => (hx.startTask _).acquire _) n).passOver n
  next i _ =>
    split
    next => exact h.failImage _ _ _
    next => exact ((h.takeEnt e).atCore (fun _ hx => hx.restoreTask _ i) n).passOver n

theorem Wf.cutVictim (v : Victim) (mid : Nat) : Wf (cutVictim s v mid) := by
  unfold Machine.cutVictim
  split
  next => exact h.setCoreAt _ _
  next => exact h

theorem Wf.expect (n : Nat) : Wf (s.expect n) := h

theorem Wf.nextNumber (d : Fin 8) (launch : Option Nat) : Wf (nextNumber s d launch).1 := h

theorem Wf.splitFor (n : Fin 512) (v : Victim) (mid : Nat) : Wf (splitFor s n v mid) :=
  ((((h.cutVictim v mid).expect _).nextNumber _ _).withJoin _).startOn _ _

theorem Wf.stealFrom {n : Fin 512} {far : Bool} {vs : List Victim} {t : State} (ht : stealFrom s n far vs = some t) : Wf t := by
  induction vs with
  | nil => cases ht
  | cons v vs ih =>
    unfold Machine.stealFrom at ht
    split at ht
    next =>
      obtain rfl := Option.some.inj ht
      exact h.splitFor _ _ _
    next =>
      split at ht
      next =>
        obtain rfl := Option.some.inj ht
        exact h.startOn _ _
      next => exact ih ht
    next => exact ih ht

omit h in
/-- A choice that found something found it first or second. -/
theorem eq_some_of_orElse {a : Option State} {b : Unit → Option State} {t : State} (ht : a.orElse b = some t) :
    a = some t ∨ b () = some t := by
  cases a with
  | none => exact .inr ht
  | some x => exact .inl ht

theorem Wf.steal {n : Fin 512} {t : State} (ht : steal s n = some t) : Wf t := by
  unfold Machine.steal at ht
  rcases eq_some_of_orElse ht with ht | ht
  · exact h.stealFrom ht
  · rcases eq_some_of_orElse ht with ht | ht
    · exact h.stealFrom ht
    · exact h.stealFrom ht

theorem Wf.idleRequest (n : Fin 512) : Wf (idleRequest n s) := by
  unfold Machine.idleRequest
  refine .ite (fun _ => ?_) fun _ => h
  split
  next => exact (h.startOn _ _).yreqScan _
  next =>
    cases ht : Machine.steal s n with
    | none => exact h
    | some t => exact (h.steal ht).yreqScan _

theorem Wf.execAgingPromotion (task : Nat) : WfOut (execAgingPromotion task s) := by
  unfold Machine.execAgingPromotion
  refine Wf.next ?_
  split
  next =>
    split
    next =>
      refine Wf.yreqScan ?_ _
      exact h
    next => exact h
  next => exact h

theorem Wf.readyWait (e : TaskEnt) : Wf (readyWait s e) := by
  unfold Machine.readyWait
  split
  next =>
    split
    next => exact .ite (fun _ => h.raiseYreq _ _) fun _ => h
    next => exact h
  next => exact h

theorem Wf.execReadyWaitExpiry (task : Nat) : WfOut (execReadyWaitExpiry task s) := by
  unfold Machine.execReadyWaitExpiry
  refine Wf.next ?_
  cases s.tasks[task]? with
  | none => exact h
  | some e => exact h.readyWait e

/-! ## Deadlines and forced saves (09 R269-R271) -/

theorem Wf.deadlineRecord (t : Task) (a : Action) (noRoom : Bool) : Wf (deadlineRecord s t a noRoom).1 := h.writeRecord _ _

theorem Wf.drain : Wf (drain s) := h.modVe _

theorem Wf.forceSave (t : Task) : Wf (forceSave s t) := by
  unfold Machine.forceSave
  refine .ite (fun _ => h) fun _ => ?_
  extract_lets x asked w
  have hx : Wf x := h.drain.stopArray
  clear_value x
  have hw : Wf w.1 := hx.deadlineRecord _ _ _
  refine .ite (fun _ => hx) fun _ => .ite (fun _ => hx.deadlineRecord _ _ _) fun _ => ?_
  split
  next => exact hw
  next hy => exact (hw.saveTask hy).placeSaved _ _ _ _

theorem Wf.deadlineStep : Wf (deadlineStep s) := by
  unfold Machine.deadlineStep
  split
  next => exact .ite (fun _ => h.forceSave _) fun _ => h
  next => exact h

theorem Wf.holdingSave : Wf (holdingSave s) := by
  unfold Machine.holdingSave
  split
  next =>
    refine .ite (fun _ => ?_) fun _ => h
    extract_lets x
    have hx : Wf x := h.drain.stopArray
    clear_value x
    refine .ite (fun _ => hx) fun _ => ?_
    split
    next => exact hx
    next hy => exact (hx.saveTask hy).placeSaved _ _ _ _
  next => exact h

/-! ## Forwarded and parked tasks (09 R260, 12 R348) -/

theorem Wf.execTaskForwardReceive (die : Fin 8) : WfOut (execTaskForwardReceive die s) := by
  unfold Machine.execTaskForwardReceive
  refine Wf.next ?_
  split
  next => exact h
  next t from_ rest _ =>
    have hp := Wf.placeHere (s := s.modDie die fun x => { x with forwarded := rest }) h die 0 t
    dsimp only
    split
    next => exact hp
    next => exact .ite (fun _ => hp.setCoreAt _ _) fun _ => hp

theorem Wf.placeParked {d : Fin 8} {e : TaskEnt} {i : Image} {t : State} (ht : placeParked s d e i = some t) : Wf t := by
  unfold Machine.placeParked at ht
  split at ht
  next => cases ht
  next =>
    obtain ⟨o, -, rfl⟩ := Option.map_eq_some_iff.mp ht
    refine Wf.yreqScan ?_ _
    exact h

theorem Wf.execFeatureParkPlace (die : Fin 8) : WfOut (execFeatureParkPlace die s) := by
  unfold Machine.execFeatureParkPlace
  refine Wf.next ?_
  cases ht : List.findSome? (fun e : TaskEnt => e.image.bind fun i => Machine.placeParked s die e i)
      (s.tasks.filter fun e => e.place == .parked die 15) with
  | none => exact h
  | some t =>
    obtain ⟨e, -, he⟩ := List.exists_of_findSome?_eq_some ht
    obtain ⟨i, -, hi⟩ := Option.bind_eq_some_iff.mp he
    exact h.placeParked hi

/-! ## Load and store stages (09 R266, R267) -/

theorem Wf.failStage (n : Fin 512) (e : TaskEnt) (f : Fail) : Wf (failStage s n e f) :=
  h.atCore (fun _ hx => (hx.writeRecord _ _).discardParked _ _) n

theorem Wf.endStage (e : TaskEnt) : Wf (endStage s e) := (h.takeEnt e).childEnds _ _ _

theorem Wf.stageCore {n : Fin 512} {t : Task} {x : State} (hx : stageCore s n t = some x) : Wf x := by
  unfold Machine.stageCore at hx
  dsimp only at hx
  split at hx
  next =>
    obtain rfl := Option.some.inj hx
    exact h.setCoreAt _ _
  next =>
    split at hx
    next => cases hx
    next =>
      obtain rfl := Option.some.inj hx
      exact (h.atCore (fun _ hy => hy.scrub _) n).setCoreAt _ _

theorem Wf.loadTile (e : TaskEnt) (n : Fin 512) : Wf (loadTile s e n) := by
  unfold Machine.loadTile
  refine .ite (fun _ => h.endStage e) fun _ => .ite (fun _ => h) fun _ => ?_
  split
  next => exact h
  next x hx =>
    have hs : Wf x := h.stageCore hx
    split
    next => exact hs
    next b _ =>
      split
      next => exact hs.failStage _ _ _
      next d _ =>
        refine .ite (fun _ => hs.failStage _ _ _) fun _ => ?_
        extract_lets c m w y k
        have hw : Wf w.s := hs.runCopy _ _ _ _
        have hy : Wf y := hw.passBuffer _ _ _ _ _ _ _
        clear_value y
        split
        next => exact .ite (fun _ => Wf.endStage (Wf.of_mem hy rfl) k) fun _ => hy
        next => exact hw.failStage _ _ _
        next => exact hs

omit h in
theorem storeTiles_wf (n : Fin 512) (t : Task) (d : List Byte) (src : Word) (k i : Nat) {s : State} (h : Wf s) :
    Wf (storeTiles n t d src k i s).1 := by
  induction k generalizing i s with
  | zero => exact h
  | succ k ih =>
    unfold storeTiles
    extract_lets c m w
    have hw : Wf w.s := h.runCopy _ _ _ _
    split
    next => exact ih _ hw
    next => exact hw
    next => exact hw

theorem Wf.storeStage (e : TaskEnt) (n : Fin 512) : Wf (storeStage s e n) := by
  unfold Machine.storeStage
  refine .ite (fun _ => h) fun _ => ?_
  split
  next => exact h.failStage _ _ _
  next d _ =>
    refine .ite (fun _ => (h.setCoreAt _ _).failStage _ _ _) fun _ => ?_
    have ht := storeTiles_wf n e.task d (BitVec.ofNat 64 (0x8000000000000000 + (handleOf e.task.inbound).off))
      (e.task.hi - e.task.lo) e.task.lo h
    split
    next hx => rw [hx] at ht; exact (Wf.setCoreAt ht _ _).endStage _
    next hx => rw [hx] at ht; exact (Wf.setCoreAt ht _ _).failStage _ _ _
    next => exact h

theorem Wf.execLoadTileDelivery (task : Nat) (core : Fin 512) : WfOut (execLoadTileDelivery task core s) := by
  unfold Machine.execLoadTileDelivery
  refine Wf.next ?_
  split
  next => exact .ite (fun _ => h.loadTile _ _) fun _ => h
  next => exact h

theorem Wf.execStoreStageWrite (task : Nat) : WfOut (execStoreStageWrite task s) := by
  unfold Machine.execStoreStageWrite
  refine Wf.next ?_
  split
  next =>
    split
    next => exact .ite (fun _ => h.storeStage _ _) fun _ => h
    next => exact h
  next => exact h

theorem Wf.causeStep : Wf (causeStep s) := by
  unfold Machine.causeStep
  exact .ite (fun _ => h) fun _ => h.stopArray.takePending

end

end Sys2Proof.MemoryForm

/-! # The canonical form of memory: token sequences and z-registers -/

namespace Sys2Proof.MemoryForm

open Sys2Proof.Machine Sys2Proof.Safety

theorem unitPut_wf (fuel : Nat) (a : Word) (bs : List Byte) {s : State} (h : Wf s) : Wf (unitPut fuel s a bs) := by
  induction fuel generalizing s a bs with
  | zero => exact h
  | succ fuel ih =>
    unfold unitPut
    refine .ite (fun _ => h) fun _ => ih _ _ ?_
    split
    next => exact (h.writeHbm _ _ _ _).setTag _ _
    next => exact h.spadStore _ _ _
    next => exact h

section
variable {s : State} (h : Wf s)
include h

/-! ## Sequences (10 R293-R304) -/

theorem Wf.unitPutAll (l : List UnitWrite) : Wf (unitPutAll s l) := h.foldl (fun _ _ hx => unitPut_wf _ _ _ hx) l

theorem Wf.setWatch (l : List (Nat × WatchEnt)) : Wf (setWatch s l) := h.modDie _ _

theorem Wf.seqTrap (f : Fail) : Wf (seqTrap s f) := h.takeCause _

theorem Wf.seqOp {f : State → State} (hf : Wf (f s)) (rs : List SReg) (releases : Bool) : WfOut (seqOp rs releases s f) := by
  unfold Machine.seqOp
  refine h.featured (Wf.sccOp h ?_ _) 3
  exact .ite (fun _ => h.holds) fun _ => hf

/-- The answer of a sequence operation that is a release. -/
theorem Wf.released (d : SReg) (v : Word) : Wf (Machine.retire (Machine.bumpEpoch (s.setS d v))) := (h.setS d v).bumpEpoch.retire

theorem Wf.appendTokens (o : Sa) (q : Nat) (d : SeqDesc) (toks : List Nat) : Wf (appendTokens s o q d toks) := by
  unfold Machine.appendTokens
  dsimp only
  split
  next => exact h.seqTrap _
  next => exact (h.unitPutAll _).released _ _

theorem Wf.execSqappend (o : Sa) : WfOut (execSqappend o s) := by
  unfold Machine.execSqappend
  refine Wf.seqOp h ?_ _ _
  refine .ite (fun _ => h.seqTrap _) fun _ => ?_
  split
  next => exact h.seqTrap _
  next =>
    refine .ite (fun _ => h.released _ _) fun _ => .ite (fun _ => h.released _ _) fun _ =>
      .ite (fun _ => h.appendTokens _ _ _ _) fun _ => .ite (fun _ => h.seqTrap _) fun _ => ?_
    split
    next => exact h.seqTrap _
    next => exact h.appendTokens _ _ _ _

theorem Wf.watchHit (idx : BitVec 24) (q entry p version : Nat) : Wf (watchHit s idx q entry p version) := h.takeCause _

theorem Wf.applyConfirm (o : Sa) (q : Nat) (c : Confirm) : Wf (applyConfirm s o q c) := by
  unfold Machine.applyConfirm
  dsimp only
  split
  next => exact h.seqTrap _
  next =>
    generalize hx : Machine.bumpEpoch (Machine.setWatch _ c.table) = x
    have hw : Wf x := hx ▸ ((h.unitPutAll _).setWatch _).bumpEpoch
    generalize hy : c.notify.foldl _ x = y
    have hv : Wf y := by
      rw [← hy]
      refine hw.foldl (fun z n hz => ?_) _
      split
      next => exact (hz.unitPutAll _).bumpEpoch.signal _
      next => exact (hz.unitPutAll _).bumpEpoch
    split
    next => exact (hv.setS _ _).retire.watchHit _ _ _ _ _
    next => exact (hv.setS _ _).retire

theorem Wf.execSqconfirm (o : Sa) : WfOut (execSqconfirm o s) := by
  unfold Machine.execSqconfirm
  refine Wf.seqOp h ?_ _ _
  refine .ite (fun _ => h.seqTrap _) fun _ => ?_
  split
  next => exact h.seqTrap _
  next =>
    refine .ite (fun _ => h.released _ _) fun _ => ?_
    split
    next => exact h.seqTrap _
    next => exact h.applyConfirm _ _ _

theorem Wf.execSqstate (o : Sa) : WfOut (execSqstate o s) := by
  unfold Machine.execSqstate
  refine Wf.seqOp h ?_ _ _
  refine .ite (fun _ => h.seqTrap _) fun _ => ?_
  split
  next => exact h.seqTrap _
  next => exact (h.setS _ _).retire

theorem Wf.installWatch (o : Sa) (i : Nat) (bs : List Byte) : Wf (installWatch s o i bs) := (h.setWatch _).released _ _

theorem Wf.execWset (o : Sa) : WfOut (execWset o s) := by
  unfold Machine.execWset
  refine Wf.seqOp h ?_ _ _
  refine .ite (fun _ => h.seqTrap _) fun _ => .ite (fun _ => h.seqTrap _) fun _ => ?_
  split
  next => exact h.seqTrap _
  next =>
    refine .ite (fun _ => h.seqTrap _) fun _ => .ite (fun _ => h.seqTrap _) fun _ => .ite (fun _ => ?_) fun _ =>
      .ite (fun _ => h.seqTrap _) fun _ => h.installWatch _ _ _
    split
    next => exact h.installWatch _ _ _
    next => exact h.released _ _

theorem Wf.execWclr (o : Sa) : WfOut (execWclr o s) := by
  unfold Machine.execWclr
  refine Wf.seqOp h ?_ _ _
  refine .ite (fun _ => .ite (fun _ => h.seqTrap _) fun _ => .ite (fun _ => h.seqTrap _) fun _ => (h.setWatch _).bumpEpoch.retire) fun _ => ?_
  exact .ite (fun _ => h.seqTrap _) fun _ => .ite (fun _ => h.seqTrap _) fun _ => (h.setWatch _).bumpEpoch.retire

theorem Wf.execWget (o : Sa) : WfOut (execWget o s) := by
  unfold Machine.execWget
  refine Wf.seqOp h ?_ _ _
  refine .ite (fun _ => h.seqTrap _) fun _ => .ite (fun _ => h.seqTrap _) fun _ => .ite (fun _ => (h.setS _ _).retire) fun _ =>
    .ite (fun _ => h.seqTrap _) fun _ => ?_
  dsimp only
  split
  next => exact h.seqTrap _
  next => exact ((h.unitPutAll _).setS _ _).retire

/-! ## z-registers (08 R245) -/

theorem Wf.execZwait (o : Sa) : WfOut (execZwait o s) := by
  unfold Machine.execZwait
  refine h.featured ?_ 2
  refine Wf.next ?_
  exact .ite (fun _ => h.holds) fun _ => .ite (fun _ => h.retire.acquire _) fun _ => h.retire

theorem Wf.execZdrop (o : Sa) : WfOut (execZdrop o s) := by
  unfold Machine.execZdrop
  refine h.featured ?_ 2
  refine Wf.next ?_
  exact .ite (fun _ => h.holds) fun _ => .ite (fun _ => h.retire) fun _ => (h.dropZ _).retire

theorem Wf.execZtest (o : Sa) : WfOut (execZtest o s) := by
  unfold Machine.execZtest
  exact h.featured (.ite (fun _ => h.holds.next) fun _ => h.sccWrite _ _ _) 2

end

end Sys2Proof.MemoryForm

/-! # The canonical form of memory: every instruction -/

namespace Sys2Proof.MemoryForm

open Sys2Proof.Machine Sys2Proof.Safety

/-- Every instruction keeps the canonical form of memory. -/
theorem Wf.exec {s : State} (h : Wf s) (i : Instr) : WfOut (exec i s) := by
  unfold Machine.exec
  cases i with
  | add _ | sub _ | mul _ | mulh _ | mulhn _ | div _ | divn _ | rem _ | remn _ | and _ | or _ | xor _ | andn _ | shl _ | shr _
  | sar _ | min _ | max _ | minn _ | maxn _ | slt _ | sltn _ | seq _ | sne _ =>
    exact h.aluOp _ _
  | addi _ | slti _ | sltni _ => exact h.immOp _ _
  | andi _ | ori _ | xori _ => exact h.immOpZ _ _
  | ldi _ | ldix _ | ldixHi _ | ins _ | insm _ | fshi _ | fsh _ | plset _ | evpeek _ | rdcyc _ | rdid _ | rdfeat _ =>
    exact h.sccWrite _ _ _
  | shli _ | shri _ | sari _ | roli _ | ext _ | extn _ | insz _ => exact h.fieldOp _ _
  | clz _ | ctz _ | popc _ | brev _ | ffcs _ | bswap _ => exact h.unaryOp _ _
  | bc _ => exact h.execBc _
  | bci _ => exact h.execBci _
  | j _ => exact h.execJ _
  | jr _ => exact h.execJr _
  | ldb _ | ldbn _ | ldh _ | ldhn _ | ldw _ | ldwn _ | ldd _ | stb _ | sth _ | stw _ | std _ => exact h.accessOp _ _ _ _
  | lda _ => exact h.execLda _
  | stl _ => exact h.execStl _
  | waitw _ => exact h.execWaitw _
  | fence _ => exact h.execFence _
  | tlook _ => exact h.execTlook _
  | tset _ => exact h.execTset _
  | tclr _ => exact h.execTclr _
  | getres _ => exact h.execGetres _
  | evwait _ => exact h.execEvwait _
  | evpop _ => exact h.execEvpop _
  | setb _ => exact h.execSetb _
  | barinit _ => exact h.execBarinit _
  | barexp _ => exact h.execBarexp _
  | bararr _ => exact h.execBararr _
  | barwait _ => exact h.execBarwait _
  | bartest _ => exact h.execBartest _
  | spawn _ => exact h.execSpawn _
  | joinwait _ => exact h.execJoinwait _
  | yield _ => exact h.execYield _
  | done _ => exact h.execDone _
  | tbound _ => exact h.execTbound _
  | hintnext _ => exact h.execHintnext _
  | waitpred _ => exact h.execWaitpred _
  | bufpass _ => exact h.execBufpass _
  | buftake _ => exact h.execBuftake _
  | buffree _ => exact h.execBuffree _
  | spawnx _ => exact h.execSpawnx _
  | sqappend _ => exact h.execSqappend _
  | sqconfirm _ => exact h.execSqconfirm _
  | sqstate _ => exact h.execSqstate _
  | wset _ => exact h.execWset _
  | wclr _ => exact h.execWclr _
  | wget _ => exact h.execWget _
  | zwait _ => exact h.execZwait _
  | zdrop _ => exact h.execZdrop _
  | ztest _ => exact h.execZtest _
  | mfcr _ => exact h.execMfcr _
  | mtcr _ => exact h.execMtcr _
  | trapi _ => exact h.retire.takeCause _ |>.next
  | brk _ => exact h.trap _ |>.next
  | tlbinvCtx _ => exact h.execTlbinvCtx _
  | tlbinvPage _ => exact h.execTlbinvPage _
  | tlbinvAll _ => exact h.execTlbinvAll _
  | actset _ => exact h.execActset _
  | resume _ => exact h.execResume _
  | halt _ => exact h.execHalt _
  | wdogPet _ => exact h.execWdogPet _
  | wdogExpire _ => exact h.execWdogExpire _
  | wdogCorerst _ => exact h.execWdogCorerst _
  | wdogDierst _ => exact h.execWdogDierst _
  | featset _ => exact h.execFeatset _
  | parkpop _ => exact h.execParkpop _
  | vadd _ | vsub _ | vmul _ | vmin _ | vmax _ | vabs _ | vneg _ | vmov _ | vfma _ | vfms _ | vcmp _ | vsel _ | vexp2 _ | vlog2 _
  | vrcp _ | vrsq _ | vsqrt _ | vand _ | vor _ | vxor _ | vshl _ | vshr _ | vsar _ | vpopc _ | vimad _ | vcvt _ | vquant _ | vdeq _
  | vamax _ | vpack _ | vunpk _ | vshuf _ | vrot _ | vbcast _ | vins _ | vredAdd _ | vredMin _ | vredMax _ | vredAmax _ | vredAnd _
  | vredOr _ | vredXor _ | vld _ | vst _ | vgath _ | vscat _ | vldg _ | vstg _ | accrd _ | accwr _ | commit _ | gcfg _ | pset _
  | pand _ | por _ | pxor _ | pnot _ | pandn _ | pcnt _ | vrand _ | vseed _ | vtopk _ | vdraw _ =>
    exact h.dispatchVe _ _
  | vloop _ => exact h.execVloop _
  | vlend _ => exact h.execVlend _
  | mcfg _ => exact h.execMcfg _
  | mma _ | mmaAcca _ | mzero _ | mdrain _ | mdrainMerge _ | mstat _ => exact h.dispatchMe _ _ _
  | mspa _ => exact h.featured (h.dispatchMe _ _ _) 0
  | copy _ | copyf _ | cpb _ | cph _ | atom _ | atomf _ | subs _ | unsub _ | pull _ | rrot _ | pref _ | invc _ | wbc _ =>
    exact h.dispatchCp _ _
  | controlRegisterWrite _ _ _ => exact h.execControlRegisterWrite _ _ _
  | parkaskWrite _ _ => exact (h.parkAsk _ _).next
  | featacceptWrite _ _ => exact (h.modDie _ _).next
  | actbaseWrite _ _ _ => exact (h.writeActbase _ _ _).next
  | ttcfgWrite core _ => exact (h.atCore (fun _ hx => hx.modCore _) core).next
  | bfmtWrite _ _ _ => exact h.execBfmtWrite _ _ _
  | fpControlWrite _ _ _ => exact h.execFpControlWrite _ _ _
  | hashmaskWrite _ _ _ => exact (h.writeHashmask _ _ _).next
  | chkctlWrite _ _ | poisonlogWrite _ _ | wdogctlWrite _ _ => exact (h.modDie _ _).next
  | hostUnsupportedRequest _ => exact Wf.next (h.of_mem rfl)
  | mailboxTailWrite _ => exact h.execMailboxTailWrite _
  | launchRecord => exact h.execLaunchRecord
  | attestRecord => exact h.execAttestRecord
  | launchComplete _ => exact h.execLaunchComplete _
  | successorRootPlace _ => exact h.execSuccessorRootPlace _
  | powerOn _ => exact h.execPowerOn _
  | firmwarePiece _ => exact h.execFirmwarePiece _
  | powerLoss | packageReset => exact (resetPackage_wf s).next
  | dieReset _ => exact (h.resetDieOrPackage _).next
  | watchdogExpiry _ => exact h.execWatchdogExpiry _
  | scrubPass _ _ _ => exact h.execScrubPass _ _ _
  | taskForwardReceive _ => exact h.execTaskForwardReceive _
  | coreIdleRequest _ => exact (h.idleRequest _).next
  | agingPromotion _ => exact h.execAgingPromotion _
  | readyWaitExpiry _ => exact h.execReadyWaitExpiry _
  | deadlineExpiry core => exact (h.atCore (fun _ hx => hx.deadlineStep) core).next
  | holdingTaskSave core => exact (h.atCore (fun _ hx => hx.holdingSave) core).next
  | featureParkPlace _ => exact h.execFeatureParkPlace _
  | loadTileDelivery _ _ => exact h.execLoadTileDelivery _ _
  | storeStageWrite _ => exact h.execStoreStageWrite _
  | causeTaken core => exact (h.atCore (fun _ hx => hx.causeStep) core).next
  | dCauseArrival core n => exact (h.atCore (fun _ hx => hx.learnFault n) core).next
  | releaseSend core => exact (h.atCore (fun _ hx => hx.sendRelease) core).next
  | copyComplete core n => exact (h.atCore (fun _ hx => hx.copyComplete n) core).next
  | barrierDelivery core n => exact (h.atCore (fun _ hx => hx.deliverStep n) core).next
  | subscriptionTileDelivery core id => exact (h.atCore (fun _ hx => hx.deliverTile id) core).next
  | rrotExchange _ => exact (h.exchange _).next
  | rrotTimeout core => exact (h.atCore (fun _ hx => hx.rrotOver) core).next
  | barwaitTimeout core => exact (h.atCore (fun _ hx => hx.barTimeout) core).next
  | mergeTileArrival core => exact (h.atCore (fun _ hx => hx.tileArrives) core).next
  | mergeRetry core => exact (h.atCore (fun _ hx => hx.tileRetries) core).next
  | mergeWaitTimeout core => exact (h.atCore (fun _ hx => hx.mergeWaitOver) core).next
  | mergeRefusedTimeout core => exact (h.atCore (fun _ hx => hx.mergeRefusedOver) core).next
  | arrayStep core => exact (h.atCore (fun _ hx => hx.arrayWorks) core).next
  | accrdLand core n => exact (h.atCore (fun _ hx => hx.landStep n) core).next
  | atomicUnitPerform core n => exact (h.atCore (fun _ hx => hx.atomStep n) core).next
  | memoryPortAccess core n => exact (h.atCore (fun _ hx => hx.portStep n) core).next
  | migration _ _ => exact h.execMigration _ _
  | shootdownAck _ _ => exact h.execShootdownAck _ _
  | migholdExpiry _ _ => exact h.execMigholdExpiry _ _
  | blazeLanded _ _ | blazeFailed _ _ => exact (h.settleEntry _ _ _).next
  | watcherRegister core n => exact (h.atCore (fun _ hx => hx.registerCph n) core).next
  | cphArrival _ _ => exact h.execCphArrival _ _
  | watch _ _ => exact (h.withHold _ _ fun _ => h.sendWatch _ _).next
  | landed _ _ | failed _ _ => exact (h.withHold _ _ fun _ => h.answerHold _ _ _).next
  | holdlimExpiry _ _ => exact h.execHoldlimExpiry _ _
  | resendBackoffExpiry _ => exact h.execResendBackoffExpiry _
  | ringSlotArrival _ _ => exact h.execRingSlotArrival _ _
  | markedResponse _ _ => exact h.execMarkedResponse _ _
  | entropyQuietPoint _ _ => exact h.execEntropyQuietPoint _ _
  | dlrMove _ => exact h.execDlrMove _
  | linkFlitRetransmit _ => exact h.execLinkFlitRetransmit _
  | illegalEncoding _ => exact h.execIllegalEncoding _
  | accessAcknowledged core n => exact (h.atCore (fun _ hx => hx.acknowledge n) core).next
  | overflowStoreDrain _ _ => exact h.execOverflowStoreDrain _ _
  | injectionLimitRelease _ => exact h.execInjectionLimitRelease _
  | torusHop _ _ => exact h.execTorusHop _ _
  | clearingRingRetry core n => exact (h.atCore (fun _ hx => hx.retryPeer n) core).next

end Sys2Proof.MemoryForm

/-! # The canonical form of memory: every step (O56) -/

namespace Sys2Proof.MemoryForm

open Sys2Proof.Machine Sys2Proof.Safety

section
variable {s : State} (h : Wf s)
include h

/-! ## What a step does before the SCC issues (01 R16, 09 R261-R272) -/

theorem Wf.tick : Wf (tick s) := h.modDie _ _

theorem Wf.watchdogStep : Wf (watchdogStep s) := .ite (fun _ => h.watchdogExpires _) fun _ => h

theorem Wf.engineStep : Wf (engineStep s) := by
  unfold Machine.engineStep
  exact .ite (fun _ => h) fun _ => .ite (fun _ => (workFrom_wf _ h).advanceHolds.settleFlights) fun _ =>
    h.veStep.meStep.cpStep.landAll.settleFlights.sendRelease

theorem Wf.holdTimeouts (d : Fin 8) : Wf (holdTimeouts s d) :=
  h.foldl (fun _ _ hx => .ite (fun _ => hx.discardHold _ _) fun _ => hx) _

theorem Wf.timeoutStep : Wf (timeoutStep s) := by
  unfold Machine.timeoutStep
  exact .ite (fun _ => h) fun _ => h.mergeWaitOver.mergeRefusedOver.rrotOver.barTimeout.holdTimeouts _

theorem Wf.noRoomStep : Wf (noRoomStep s) := by
  unfold Machine.noRoomStep
  split
  next => exact .ite (fun _ => h.deadlineRecord _ _ _) fun _ => h
  next => exact h

theorem Wf.watchTasks : Wf (watchTasks s) :=
  Wf.foldl (s := { s with tasks := s.tasks.map (agePlace s) }) (fun _ e hx => hx.readyWait e) h _

theorem Wf.prepare : Wf (prepare s) := h.tick.watchdogStep.engineStep.timeoutStep.noRoomStep.watchTasks

/-! ## Issue (02 R35, 05 R89) -/

theorem Wf.keepLine (l : Option Line) : Wf (keepLine s l) := h.modCore _

theorem Wf.issueFetched (f : Fetched) : WfOut (issueFetched s f) := by
  cases f with
  | fail f => exact (h.trap f).next
  | bad b => exact h.execIllegalEncoding b
  | empty => exact h.resolveQueue.next
  | nul => exact h.retire.next
  | instr i => exact h.exec i

theorem Wf.whereHeld {o : Out} (ho : WfOut o) : WfOut (whereHeld s o) := by
  cases o with
  | next t =>
    have ht : Wf t := ho t rfl
    rw [Machine.whereHeld]
    exact .ite (fun _ => Wf.next (.ite (fun _ => ht.holdingSave) fun _ => h.causeStep)) fun _ => ht.next
  | _ => exact ho

theorem Wf.issueStep : WfOut (issueStep s) := by
  unfold Machine.issueStep
  split
  next => exact (h.idleRequest _).next
  next =>
    exact .ite (fun _ => h.causeStep.next) fun _ => .ite (fun _ => (h.forceSave _).next) fun _ =>
      h.whereHeld ((h.keepLine _).issueFetched _)

/-! ## Turns (log 3) -/

theorem Wf.fillTlb (shared : Bool) (a : Word) : Wf (fillTlb shared a s) := by
  unfold Machine.fillTlb
  split
  next => exact h
  next => exact .ite (fun _ => h.modDie _ _) fun _ => h.modCore _

theorem Wf.dropTlb (shared : Bool) (a : Word) : Wf (dropTlb shared a s) := .ite (fun _ => h.modDie _ _) fun _ => h.modCore _

theorem Wf.fillCache (a : Word) : Wf (fillCache a s) := by
  unfold Machine.fillCache
  split
  next => exact h.fillLine _ _ _
  next => exact h

theorem Wf.copyUnit : Wf (copyUnit s) := by
  unfold Machine.copyUnit
  split
  next => exact h.workRun _ _
  next => exact h

theorem Wf.engineTurn (e : Eng) : Wf (engineTurn e s) := by
  unfold Machine.engineTurn
  refine .ite (fun _ => h.copyUnit) fun _ => ?_
  cases e with
  | ve => exact h.veStep
  | me => exact h.meStep
  | cp => exact .ite (fun _ => h.portHand) fun _ => h.copyUnit

theorem Wf.eccError (key : Nat) : Wf (eccError s key) := by
  unfold Machine.eccError
  exact .ite (fun _ => h.poisonKey _ _) fun _ => .ite (fun _ => h.poisonPad _ _ _) fun _ => h

theorem Wf.answered (a : HostAnswer) : Wf { s with hostAnswer := a } := h

theorem Wf.hostWrite (off : Nat) (bs : List Byte) : Wf (hostWrite s off bs) := by
  unfold Machine.hostWrite
  exact .ite (fun _ => h.answered _) fun _ => .ite (fun _ => h.answered _) fun _ => (h.store _ bs).answered _

theorem Wf.hostRead (off : Nat) : Wf (hostRead s off) := by
  unfold Machine.hostRead
  exact .ite (fun _ => h.answered _) fun _ => h.answered _

theorem Wf.turnStep (t : Turn) : WfOut (turnStep t s) := by
  cases t with
  | issue n => exact .ite (fun _ => h.next) fun _ => (h.focus n).issueStep
  | engine n e => exact (h.atCore (fun _ hx => hx.engineTurn e) n).next
  | event i => exact .ite (fun _ => h.next) fun _ => h.exec i
  | elapse d n => exact (h.modDie _ _).next
  | tlbFill n sh a => exact (h.atCore (fun _ hx => hx.fillTlb sh a) n).next
  | tlbDrop n sh a => exact (h.atCore (fun _ hx => hx.dropTlb sh a) n).next
  | cacheFill n a => exact (h.atCore (fun _ hx => hx.fillCache a) n).next
  | cacheDrop d k => exact (h.modDie _ _).next
  | setInOrder n on => exact (h.atCore (fun _ hx => hx.modCore _) n).next
  | eccError k => exact (h.eccError k).next
  | inject a b tc n r => exact (h.injectPkt _ _ _ _ _ _ _).next
  | flitError n => exact (h.flitFails n).next
  | hostWrite off bs => exact (h.hostWrite off bs).next
  | hostRead off => exact (h.hostRead off).next
  | hostReadReg d n => exact (h.answered _).next

end

/-- Every step keeps the canonical form of memory. -/
theorem Wf.step {s : State} (h : Wf s) : WfOut (step s) := by
  unfold Machine.step
  split
  next t rest _ => exact Wf.turnStep (s := { s with turns := rest }) h t
  next => exact h.prepare.issueStep

/-- Settles O56: memory is written by few operations, each of which keeps the canonical form, and every function of the model is
made of them. -/
theorem stepKeepsMemoryForm : Obligations.StepKeepsMemoryForm :=
  fun _ t h ht => Wf.step h t ht

end Sys2Proof.MemoryForm
